-- ==== Sys2Proof/Word.lean ====
section
/-! DEFINITION. The words of the WL58: five-level codes, office characters, and the numbers that name
lines, record slots and release groups (00_scope.md, Conventions and Identifiers). -/

namespace Sys2Proof

/-- A five-level code: element 1 is bit 0, element 5 is bit 4; mark is 1 (00, Five-level codes). -/
abbrev Code := BitVec 5

/-- A byte of a frame or image; also an office character 0–255 (00, Office characters). -/
abbrev Byte := BitVec 8

/-- A line, 0–7. -/
abbrev LineNo := Fin 8

/-- The slot of a story record, 0–63. -/
abbrev Slot := Fin 64

/-- A release group, 0–7. -/
abbrev Group := Fin 8

/-- Exact division rounded towards the larger integer (00, Numbers). -/
def ceilDiv (a b : Nat) : Nat := (a + b - 1) / b

/-- Office LINE END, 10. -/
abbrev lineEnd : Byte := 10
/-- Office CR, 13. -/
abbrev officeCR : Byte := 13
/-- Office space, 32. -/
abbrev officeSpace : Byte := 32

end Sys2Proof
end

