-- ==== Sys2Proof/Config.lean ====
section
/-! DEFINITION. What is fixed while the station runs: the enumerations of 00_scope.md, the capacities
and intervals of the part, and the settings that the configuration image gives (R21, R26, R36, R50,
R62, R191, 11.2). The part leaves no value open that a command reads, so there is no free value. -/

namespace Sys2Proof

/-- The shift states (00, Enumerations). -/
inductive Plane where | ltrs | figs | third
deriving DecidableEq, Repr

/-- The value of a plane: LTRS = 0, FIGS = 1, THIRD = 2. -/
def Plane.val : Plane → Nat
  | .ltrs => 0
  | .figs => 1
  | .third => 2

/-- The class of a map entry (R22). -/
inductive CharClass where
  | letter | figure | punct | space | format | signal | national | unassigned
deriving DecidableEq, Repr

/-- The place of a class in the image's codes and in the admission table (11.2). -/
def CharClass.val : CharClass → Nat
  | .letter => 0 | .figure => 1 | .punct => 2 | .space => 3
  | .format => 4 | .signal => 5 | .national => 6 | .unassigned => 7

/-- An admission action (R36). -/
inductive Admission where | pass | substitute | drop | refuse
deriving DecidableEq, Repr

/-- The mode of a line (R1). -/
inductive LineMode where | unused | receive | send | twoWay
deriving DecidableEq, Repr

/-- Code assembly runs on the receive input (R1). -/
def LineMode.receives : LineMode → Bool
  | .receive | .twoWay => true
  | _ => false

/-- The send output is driven by the sender (R1). -/
def LineMode.sends : LineMode → Bool
  | .send | .twoWay => true
  | _ => false

/-- What a station does with an inbound story (R62). -/
inductive Disposition where | carry | quiet | discard
deriving DecidableEq, Repr

/-- The occurrences a quality counter counts (R191). -/
inductive CountedKind where | framing | mutilated | testErrors | framingMutilated
deriving DecidableEq, Repr

/-- The value of a counted kind in the image and in a report (R190, 11.2). -/
def CountedKind.val : CountedKind → Nat
  | .framing => 0 | .mutilated => 1 | .testErrors => 2 | .framingMutilated => 3

/-- One entry of a plane table (R21). -/
structure MapEntry where
  char : Byte
  cls : CharClass
deriving DecidableEq, Repr

/-- A map (R21). The shift codes are bytes of the image: the loader's check holds those of a map that a
line names to 0–31. -/
structure MapTable where
  ltrsCode : Nat
  figsCode : Nat
  thirdCode : Option Nat
  subst : Byte
  ltrs : List MapEntry
  figs : List MapEntry
  third : List MapEntry
deriving DecidableEq, Repr

/-- A map that holds nothing: the value before a map is loaded. -/
def MapTable.blank : MapTable :=
  { ltrsCode := 0, figsCode := 0, thirdCode := none, subst := 0, ltrs := [], figs := [], third := [] }

/-- A disposition range (R62). -/
structure DispRange where
  base : Nat
  size : Nat
  disp : Disposition
deriving DecidableEq, Repr

/-- The settings of a line's record (11.2, Line records). -/
structure LineSettings where
  mode : LineMode
  u : Nat
  stop : Nat
  service : Nat
  groups : BitVec 16
  map : Nat
  profile : Nat
  width : Nat
  fold : Nat
  guardShift : Bool
  unshift : Bool
  immediate : Bool
  abandon : Bool
  enquiry : Option Byte
  opening : List Byte
  closing : List Byte
  interruption : List Byte
  resumption : List Byte
  answerBack : List Byte
  loopUp : Option Byte
  loopDown : Option Byte
  loopN : Nat
  counted : CountedKind
  auto : Bool
  degraded : Nat
  mask : BitVec 8
  both : BitVec 8
deriving DecidableEq, Repr

/-- A line record before any image is read: mode UNUSED (R2). -/
def LineSettings.blank : LineSettings :=
  { mode := .unused, u := 0, stop := 0, service := 0, groups := 0, map := 0, profile := 0, width := 0,
    fold := 0, guardShift := false, unshift := false, immediate := false, abandon := false,
    enquiry := none, opening := [], closing := [], interruption := [], resumption := [],
    answerBack := [], loopUp := none, loopDown := none, loopN := 0, counted := .framing, auto := false,
    degraded := 0, mask := 0, both := 0 }

/-- The settings of the station (11.2). `supervisor` is absent for the image's 255. -/
structure Settings where
  supervisor : Option Nat
  defaultDisp : Disposition
  mask : BitVec 8
  both : BitVec 8
  lines : Vector LineSettings 8
  maps : List MapTable
  admission : List Admission
  ranges : List DispRange
deriving DecidableEq, Repr

/-- The settings before any image is read. -/
def Settings.blank : Settings :=
  { supervisor := none, defaultDisp := .carry, mask := 0, both := 0,
    lines := Vector.replicate 8 .blank, maps := [], admission := [], ranges := [] }

/-! ### Capacities (00, Capacities) -/

/-- Blocks of the copy store. -/
def Config.blocks : Nat := 768
/-- Entries of a block. -/
def Config.blockEntries : Nat := 64
/-- Blocks of the longest story. -/
def Config.storyBlocks : Nat := 250
/-- Characters of the longest inbound story (R69). -/
def Config.storyChars : Nat := 16000
/-- Stories of a line queue and of a line's commitment (R132, R154). -/
def Config.queueSize : Nat := 8
/-- Serials of a gap list (R96). -/
def Config.gapSize : Nat := 16
/-- Entries of the offer register (R108). -/
def Config.registerSize : Nat := 48
/-- The free count below which STORE-LOW rises (R91). -/
def Config.storeLowRise : Nat := 48
/-- The free count at which STORE-LOW falls (R91). -/
def Config.storeLowFall : Nat := 96

/-! ### Intervals, in half-microseconds (00, Time) -/

/-- `n` seconds. -/
def Config.seconds (n : Nat) : Nat := n * 2000000
/-- 2.5 s of space raise LINE-OPEN (R8). -/
def Config.lineOpenTime : Nat := 5000000
/-- 1 s of mark lowers LINE-OPEN (R8). -/
def Config.clearTime : Nat := Config.seconds 1
/-- 2 s of mark give READY (R14). -/
def Config.readyTime : Nat := Config.seconds 2

/-- A bit of the copy bus lasts 16 µs (R175). -/
def Config.bitTime : Nat := 32
/-- The start bit and the 24 bits of the arbitration field (R176). -/
def Config.fieldTime : Nat := 25 * Config.bitTime

/-- The character period, u × (12 + s) half-microseconds (00, Time; R10). -/
def LineSettings.period (c : LineSettings) : Nat := c.u * (12 + c.stop)

end Sys2Proof
end

