-- ==== Sys2Proof/Syntax.lean ====
section
/-! DEFINITION. The commands of the WL58: one constructor of `Instr` for each row of
spec/opcode_table.json, with the operands the row's event carries. -/

namespace Sys2Proof

/-- Frame kinds in their order within an arbitration class (00, Frame kinds). -/
inductive FrameKind where
  | order | call | claim | offer | withdraw | close | text | notice
deriving DecidableEq, Repr

/-- The value of a frame kind (00, Frame kinds). -/
def FrameKind.val : FrameKind → Nat
  | .order => 0 | .call => 1 | .claim => 2 | .offer => 3
  | .withdraw => 4 | .close => 5 | .text => 6 | .notice => 7

/-- What a heard frame carries besides its kind, which the command names: class, key, station and
payload (R176). -/
structure Heard where
  cls : BitVec 3
  key : BitVec 12
  station : BitVec 6
  payload : List Byte
deriving DecidableEq, Repr

/-- A frame of the copy bus less its start bit, length and check byte, which follow from the rest
(R176). -/
structure Frame where
  kind : FrameKind
  body : Heard
deriving DecidableEq, Repr

/-- A heard ORDER less its order code, which the command names: class, key, station, the line byte and
the argument bytes (R190). -/
structure Order where
  cls : BitVec 3
  key : BitVec 12
  station : BitVec 6
  line : Byte
  arg : List Byte
deriving DecidableEq, Repr

/-- The commands: spec/opcode_table.json, row by row. -/
inductive Instr where
  /-- POWER_ON, R209. `straps`: the levels of ST0 to ST4, ST0 in bit 0. -/
  | powerOn (straps : BitVec 5)
  /-- RESET_ASSERT, R209. -/
  | resetAssert
  /-- RESET_RELEASE, R209. `straps` as for POWER_ON. -/
  | resetRelease (straps : BitVec 5)
  /-- CONFIG_READ_COMPLETE, R210. `image`: what the serial memory answers, from its first byte. -/
  | configReadComplete (image : List Byte)
  /-- CONFIG_FAULT_REPEAT, R213. -/
  | configFaultRepeat
  /-- RX_MARK_TO_SPACE, R3. -/
  | rxMarkToSpace (line : LineNo)
  /-- RX_SPACE_TO_MARK, R5. -/
  | rxSpaceToMark (line : LineNo)
  /-- RECEIVED_CODE, R4: the stop sample is taken. -/
  | receivedCode (line : LineNo)
  /-- BREAK_RISE, R7. -/
  | breakRise (line : LineNo)
  /-- LINE_OPEN_RISE, R8. -/
  | lineOpenRise (line : LineNo)
  /-- LINE_OPEN_FALL, R8. -/
  | lineOpenFall (line : LineNo)
  /-- READY, R14. -/
  | ready (line : LineNo)
  /-- CODE_SENT, R10. -/
  | codeSent (line : LineNo)
  /-- STALL_RISE, R67. -/
  | stallRise (line : LineNo)
  /-- STALL_EXPIRY, R68. -/
  | stallExpiry (line : LineNo)
  /-- ENTRY_AGED, R112: the entry of this key. -/
  | entryAged (service serial : Nat)
  /-- PEER_SILENCE_20S, R122. -/
  | peerSilence20s (slot : Slot)
  /-- PEER_SILENCE_120S, R122. -/
  | peerSilence120s (slot : Slot)
  /-- CLAIM_PENDING_EXPIRY, R143. -/
  | claimPendingExpiry (slot : Slot)
  /-- INTAKE_SILENCE_EXPIRY, R148. -/
  | intakeSilenceExpiry (slot : Slot)
  /-- REPORT_PERIOD_EXPIRY, R200. -/
  | reportPeriodExpiry
  /-- BUS_FREE, R175. -/
  | busFree
  /-- FRAME_CHECK, R180. `bytes`: the three bytes of the arbitration field, the length byte, the payload
  and the check byte, as received. -/
  | frameCheck (bytes : List Byte)
  /-- OWN_FRAME_SPOIL_SLOT, R179. `dominant`: the slot is read dominant. -/
  | ownFrameSpoilSlot (dominant : Bool)
  /-- BUS_SILENT_EXPIRY, R185. -/
  | busSilentExpiry
  /-- HEARD_CALL, R130. -/
  | heardCall (frame : Heard)
  /-- HEARD_CLAIM, R142. -/
  | heardClaim (frame : Heard)
  /-- HEARD_OFFER, R109. -/
  | heardOffer (frame : Heard)
  /-- HEARD_TEXT_STORY, R111. -/
  | heardTextStory (frame : Heard)
  /-- HEARD_CLOSE_STORY, R121. -/
  | heardCloseStory (frame : Heard)
  /-- HEARD_WITHDRAW_STORY, R122. -/
  | heardWithdrawStory (frame : Heard)
  /-- HEARD_TEXT_CALL, R146. -/
  | heardTextCall (frame : Heard)
  /-- HEARD_CLOSE_CALL, R147. -/
  | heardCloseCall (frame : Heard)
  /-- HEARD_WITHDRAW_CALL, R151. -/
  | heardWithdrawCall (frame : Heard)
  /-- HEARD_NOTICE, R187: a heard frame that is handed to no owner, a NOTICE or an ORDER that names no order
  (notes/assumptions/38.md). -/
  | heardNotice (frame : Frame)
  /-- LINE_OUT, R17. -/
  | lineOut (order : Order)
  /-- LINE_IN, R18. -/
  | lineIn (order : Order)
  /-- LINE_RESTART, R19. -/
  | lineRestart (order : Order)
  /-- TEST_START, R20. -/
  | testStart (order : Order)
  /-- TEST_STOP, R20. -/
  | testStop (order : Order)
  /-- INSERT_ERROR, R195. -/
  | insertError (order : Order)
  /-- COUNT_TRANSFER, R200. -/
  | countTransfer (order : Order)
  /-- QUERY, R205. -/
  | query (order : Order)
  /-- QUERY_AND_CLEAR, R205. -/
  | queryAndClear (order : Order)
  /-- RELEASE, R158. -/
  | release (order : Order)
  /-- REHOLD, R158. -/
  | rehold (order : Order)
  /-- RERUN, R126. -/
  | rerun (order : Order)
  /-- STATION_RESTART, R215. `straps`: as they read when the loader reads them afresh. -/
  | stationRestart (order : Order) (straps : BitVec 5)
  /-- START_CHECK, R3. -/
  | startCheck (line : LineNo)
  /-- DATA_SAMPLE, R4. -/
  | dataSample (line : LineNo)
  /-- ARBITRATION_LOST, R178. -/
  | arbitrationLost
  /-- START_BIT_READ, R178. -/
  | startBitRead
  /-- SPOIL_SLOT_READ_DOMINANT, R180. -/
  | spoilSlotReadDominant
  /-- POWER_FAIL, R188. -/
  | powerFail
deriving DecidableEq, Repr

end Sys2Proof
end

