-- ==== Sys2Proof/Machine/State.lean ====
section
/-! DEFINITION. The state of the WL58 as plain data: every piece of state spec/ gives its blocks, the
queue of waiting commands, and the state right after power-on. -/

namespace Sys2Proof.Machine

/-- The reasons a step can stop with a fault. There is none: no rule of spec/ gives the part a stop. -/
inductive Fault where
deriving DecidableEq, Repr

/-- The reasons a step can be refused. -/
inductive Refusal where
  /-- Raised by an arm of `exec` whose command has no meaning yet; safe. No arm raises it. -/
  | notModelled (mnemonic : String)
deriving DecidableEq, Repr

/-! ### The line unit (01) -/

/-- The state of a line (00, Enumerations; R2). -/
inductive LineState where | unused | outOfService | idle | loop | test
deriving DecidableEq, Repr

/-- The state of a receiver (1.2). -/
inductive RxState where | hunt | start | data | stop | waitMark
deriving DecidableEq, Repr

/-- The source that offered the code on a send output (R10). -/
inductive Source where | scheduler | loopResend | generator
deriving DecidableEq, Repr

/-- A code on a send output. `counts`: no STOP has been given since it was offered, so that its SENT
report counts (R165). -/
structure OutCode where
  code : Code
  source : Source
  began : Nat
  counts : Bool
deriving DecidableEq, Repr

/-- The report the sender gives for a code (R10, R13). -/
inductive Report where | sent | cut
deriving DecidableEq, Repr

/-- The causes of a STOP indication (R11). -/
inductive StopCause where | brk | lineOpen | lineOut | loop | test | lineRestart
deriving DecidableEq, Repr

/-- A line unit (01). Timers hold the instant they started. -/
structure LineUnit where
  state : LineState
  rcv : RxState
  refTime : Nat
  sampled : Nat
  acc : Code
  held : Bool
  spaceSince : Option Nat
  markSince : Option Nat
  clearSince : Option Nat
  awaitReady : Bool
  out : Option OutCode
  resend : List Code
  lastReport : Option Report
  lastStop : Option StopCause
deriving DecidableEq, Repr

/-! ### The heading recognizer (03) -/

/-- The state of a recognizer (R48). -/
inductive RecogState where | outside | opening | heading | text | discarding
deriving DecidableEq, Repr

/-- A heading recognizer (R48). -/
structure Recog where
  state : RecogState
  window : List Byte
  lineStart : Bool
  lookahead : List Byte
  heading : List Byte
  tied : Option Slot
  overrun : Bool
  stallSince : Option Nat
deriving DecidableEq, Repr

/-! ### The send scheduler (08) -/

/-- What a SHIFT piece is for. `resumed`: after a resumption piece; `held`: at a resume from HELD-BREAK
with no resumption owed; `ready`: step 4 of R170; `interruption`: in place of an empty interruption text
(R161, R170). -/
inductive ShiftUse where | resumed | held | ready | interruption
deriving DecidableEq, Repr

/-- The piece on the sender (R153). `answerBack atReady`: whether READY began it (R170). -/
inductive Piece where
  | none
  | story
  | interruption
  | resumption
  | answerBack (atReady : Bool)
  | shift (plane : Plane) (use : ShiftUse)
deriving DecidableEq, Repr

/-- The answer-back request (R153). -/
inductive AnswerBackRequest where | clear | pending | beingSent
deriving DecidableEq, Repr

/-- A send scheduler (R153). `queue` holds the records in the order they joined; R154's order is computed
from it. `interruptionOwed` holds the plane of the captured resume point while it is set (R161). -/
structure Sched where
  queue : List Slot
  current : Option Slot
  piece : Piece
  progress : Nat
  position : Option Nat
  answerBack : AnswerBackRequest
  interruptionOwed : Option Plane
  resumptionOwed : Bool
  running : Bool
deriving DecidableEq, Repr

/-- The encoded fixed texts of a line (R46). -/
structure Texts where
  interruption : List Code
  resumption : List Code
  answerBack : List Code
deriving DecidableEq, Repr

/-! ### Supervision of a line (10) -/

/-- The fault kinds (00, Enumerations). -/
inductive FaultKind where
  | framing | mutilated | heading | serialGap | duplicate | admission | truncated | overrun
deriving DecidableEq, Repr

/-- The place of a fault kind in the records and in the record mask (R190). -/
def FaultKind.idx : FaultKind → Fin 8
  | .framing => 0 | .mutilated => 1 | .heading => 2 | .serialGap => 3
  | .duplicate => 4 | .admission => 5 | .truncated => 6 | .overrun => 7

/-- A story handle: station and slot (00, Identifiers). -/
structure Handle where
  station : Nat
  slot : Nat
deriving DecidableEq, Repr

/-- The fields a fault is reported with (R34, R73, R105). -/
structure FaultFields where
  handle : Option Handle
  serial : Option Nat
  offset : Nat
  raw : Option Code
  plane : Plane
deriving DecidableEq, Repr

/-- A fault record: the last occurrence of its kind, the occurrence count and the changed mark (R204). -/
structure FaultRecord where
  fields : FaultFields
  count : Nat
  changed : Bool
deriving DecidableEq, Repr

/-- The test pattern generator (R195). Stage 1 is bit 0, stage 9 bit 8. -/
structure Generator where
  reg : BitVec 9
  insert : Bool
deriving DecidableEq, Repr

/-- The test checker (R196, R197). `window`: newest first, true for an error. -/
structure Checker where
  reg : BitVec 9
  inSync : Bool
  load : Nat
  run : Nat
  window : List Bool
deriving DecidableEq, Repr

/-- The supervision state of a line (10). `levels` and `changed` hold the conditions at the places of
the CONDITION notice (R190). `lateSnapshot`, `lateQuery`, `lateClear`: taken after the start bit of the
report frame under way (R206). -/
structure Supervision where
  levels : BitVec 8
  changed : BitVec 8
  counter : Nat
  snapshot : Nat
  unreported : Bool
  faults : Vector (Option FaultRecord) 8
  query : Bool
  clear : Bool
  lateSnapshot : Bool
  lateQuery : Bool
  lateClear : Bool
  loopUpRun : Nat
  loopDownRun : Nat
  gen : Generator
  chk : Checker
deriving DecidableEq, Repr

/-- All that the part holds for one line. `plane` is the decode plane (R26). -/
structure Line where
  unit : LineUnit
  plane : Plane
  recog : Recog
  sched : Sched
  texts : Texts
  sup : Supervision
deriving DecidableEq, Repr

/-! ### The copy store and story table (04) -/

/-- The states of an inbound record (R82). -/
inductive InState where
  | opening | carrying | standby | standbyComplete | recent | rerunning | withdrawing
deriving DecidableEq, Repr

/-- What a record in STANDBY or STANDBY-COMPLETE holds of its owner, with the peer silence timer and
whether that timer has run 20 s (R79, R122). -/
structure Peer where
  owner : Handle
  progress : Nat
  since : Nat
  past20 : Bool
deriving DecidableEq, Repr

/-- The fields of an inbound record beside those of every record (R54, R79). `referenced` is present in
RECENT and RERUNNING only. -/
structure InRecord where
  state : InState
  service : Nat
  serial : Option Nat
  category : Nat
  slug : List Byte
  disp : Option Disposition
  cursor : Nat
  mutilation : Nat
  truncated : Bool
  overrun : Bool
  headingFault : Bool
  rerun : Bool
  quiet : Bool
  takeover : Bool
  referenced : Option Bool
  peer : Option Peer
deriving DecidableEq, Repr

/-- The states of an outbound record (R83). -/
inductive OutState where
  | claiming | intake | queued | sending | suspended | heldBreak | aborting | reporting
deriving DecidableEq, Repr

/-- What becomes of a claim whose begun frame is let finish: withdrawn unless won (R143, R144), aborted
once won (R152), freed once won (R151). -/
inductive ClaimEnding where | withdraw | abort | free
deriving DecidableEq, Repr

/-- What a record in CLAIMING holds (R131). `since`, the start of the pending timer, is absent once the timer has
run out, and, DEDUCED, once the claim has been ended while its CLAIM is under way (notes/assumptions/26.md). -/
structure Claim where
  bid : Nat
  since : Option Nat
  ending : Option ClaimEnding
deriving DecidableEq, Repr

/-- What a record in INTAKE holds (R145): next expected offset, encode state, intake silence timer. -/
structure Intake where
  expected : Nat
  plane : Plane
  column : Nat
  since : Nat
deriving DecidableEq, Repr

/-- The outcome of an outbound story (R80). -/
inductive SendOutcome where | sent | abandoned
deriving DecidableEq, Repr

/-- The fields of an outbound record beside those of every record (R80, R131). `chars`, the call's
characters n, is present in CLAIMING and INTAKE only; `total` is the total of the CLOSE of a REPORTING
record (R171, R172). -/
structure OutRecord where
  state : OutState
  caller : Nat
  call : Nat
  chars : Option Nat
  reservation : List Nat
  release : Option Group
  completion : Option Group
  claim : Option Claim
  intake : Option Intake
  resume : Option (Nat × Plane)
  outcome : Option SendOutcome
  total : Nat
deriving DecidableEq, Repr

/-- The direction of a record and the fields that depend on it (R78). -/
inductive Body where
  | inbound (r : InRecord)
  | outbound (r : OutRecord)
deriving DecidableEq, Repr

/-- A story record (R78). -/
structure Record where
  line : Option LineNo
  priority : Nat
  blocks : List Nat
  count : Nat
  body : Body
deriving DecidableEq, Repr

/-- The cells of the copy store: address (block × 64 + entry) and byte. -/
abbrev Memory := List Host.Cell

/-! ### Serial trackers and the offer register (05, 06) -/

/-- A serial tracker (R94). `gaps`: oldest first. -/
structure Tracker where
  service : Nat
  expected : Option Nat
  gaps : List Nat
deriving DecidableEq, Repr

/-- The state of a register entry (R108). -/
inductive EntryState where | live | closed | withdrawn
deriving DecidableEq, Repr

/-- A register entry (R108). `heard` is the time last heard, `order` the number of that hearing. -/
structure Entry where
  service : Nat
  serial : Nat
  owner : Handle
  state : EntryState
  quiet : Bool
  progress : Nat
  heard : Nat
  order : Nat
deriving DecidableEq, Repr

/-! ### The bus port (09) -/

/-- The owner of a send-list request: a story record, a line's condition or report notice, or the
station notice (R182). -/
inductive Owner where
  | record (slot : Slot)
  | condition (line : LineNo)
  | report (line : LineNo)
  | station
deriving DecidableEq, Repr

/-- A request on the send list with the arbitration field it fixes (R182). -/
structure Request where
  owner : Owner
  cls : Nat
  kind : FrameKind
  key : Nat
deriving DecidableEq, Repr

/-- The state of the port (R175). -/
inductive PortState where | wait | free | contending | sending | receiving
deriving DecidableEq, Repr

/-- An own frame under way. `removed`: its request was removed after the start bit (R184). -/
structure OwnFrame where
  owner : Owner
  frame : Frame
  began : Nat
  removed : Bool
deriving DecidableEq, Repr

/-- The bus port. `synced`: ten recessive bits have been counted since the port came up (R175). `sticky`:
the owner whose spoiled frame keeps the head (R183). `rejecting`: the frame received failed its check, and
the port drives its spoil slot (R180). -/
structure Port where
  state : PortState
  synced : Bool
  rejecting : Bool
  sendList : List Request
  sticky : Option Owner
  own : Option OwnFrame
  spoilCount : Nat
  silentSince : Option Nat
deriving DecidableEq, Repr

/-! ### The station -/

/-- The states of the loader (R209); `off` is held as at power-off. -/
inductive LoaderState where | off | reading | running | configFault
deriving DecidableEq, Repr

/-- The station conditions and the contents of the station notice (R203, R216). `levels`, `changed`
and `events` hold their bits at the places of the STATION notice (R190). -/
structure Notices where
  levels : BitVec 8
  changed : BitVec 8
  events : BitVec 8
  refusedCode : Nat
  refusedSource : Nat
  refusals : Nat
deriving DecidableEq, Repr

/-- Everything of the part but the queue of commands. -/
structure Part where
  now : Nat
  hearings : Nat
  powered : Bool
  resetHeld : Bool
  rx : Vector Bool 8
  loader : LoaderState
  number : Nat
  faultReason : Nat
  repeatSince : Option Nat
  settings : Settings
  lines : Vector Line 8
  mem : Memory
  free : List Nat
  records : Vector (Option Record) 64
  recent : List Slot
  trackers : List Tracker
  register : List Entry
  groups : Vector Bool 8
  port : Port
  notices : Notices
  reportSince : Option Nat
deriving DecidableEq, Repr

/-- The machine: the part and the commands that are waiting, first in first out. -/
structure State extends Part where
  pending : List Instr
deriving DecidableEq, Repr

/-! ### The state after power-on -/

/-- A line unit before service: UNUSED, nothing received, nothing sent (R2). -/
def LineUnit.blank : LineUnit :=
  { state := .unused, rcv := .hunt, refTime := 0, sampled := 0, acc := 0, held := false,
    spaceSince := none, markSince := none, clearSince := none, awaitReady := false, out := none,
    resend := [], lastReport := none, lastStop := none }

/-- R48, reset values. -/
def Recog.blank : Recog :=
  { state := .outside, window := [], lineStart := false, lookahead := [], heading := [], tied := none,
    overrun := false, stallSince := none }

/-- R153, values at power-on and STATION-RESTART. -/
def Sched.blank : Sched :=
  { queue := [], current := none, piece := .none, progress := 0, position := none, answerBack := .clear,
    interruptionOwed := none, resumptionOwed := false, running := false }

/-- R208; the checker is OUT and the generator stopped. -/
def Supervision.blank : Supervision :=
  { levels := 0, changed := 0, counter := 0, snapshot := 0, unreported := false,
    faults := Vector.replicate 8 none, query := false, clear := false, lateSnapshot := false,
    lateQuery := false, lateClear := false, loopUpRun := 0, loopDownRun := 0,
    gen := { reg := 0, insert := false },
    chk := { reg := 0, inSync := false, load := 0, run := 0, window := [] } }

/-- A line before service. -/
def Line.blank : Line :=
  { unit := .blank, plane := .ltrs, recog := .blank, sched := .blank,
    texts := { interruption := [], resumption := [], answerBack := [] }, sup := .blank }

/-- R188. -/
def Port.blank : Port :=
  { state := .wait, synced := false, rejecting := false, sendList := [], sticky := none, own := none,
    spoilCount := 0, silentSince := none }

/-- R208, R216. -/
def Notices.blank : Notices :=
  { levels := 0, changed := 0, events := 0, refusedCode := 0, refusedSource := 0, refusals := 0 }

/-- The part right after power-on with every strap open and every receive input at mark: the loader in
READING, every block at its power-on value (R209 and the reset rules R2, R48, R92, R108, R153, R158,
R188, R208). -/
def Part.reset : Part :=
  { now := 0, hearings := 0, powered := true, resetHeld := false, rx := Vector.replicate 8 true,
    loader := .reading, number := 31, faultReason := 0, repeatSince := none, settings := .blank,
    lines := Vector.replicate 8 .blank, mem := [], free := List.range Config.blocks,
    records := Vector.replicate 64 none, recent := [], trackers := [], register := [],
    groups := Vector.replicate 8 false, port := .blank, notices := .blank, reportSince := none }

/-- The machine right after power-on, no command waiting. -/
def State.reset : State := { toPart := Part.reset, pending := [] }

end Sys2Proof.Machine
end

