-- ==== Sys2Proof/Machine/Ops.lean ====
section
/-! DEFINITION. The named operations over the state: reading and writing of lines, records, copy-store
cells and the send list. Every block of the part goes through these. -/

namespace Sys2Proof.Machine

/-! ### Numbers -/

/-- A count that stays at its stated maximum (00, Numbers). -/
def satSucc (max n : Nat) : Nat := min max (n + 1)

/-- Bit `i` of a byte of flags set to `b`. -/
def putBit (v : BitVec 8) (i : Nat) (b : Bool) : BitVec 8 :=
  if b then v ||| BitVec.twoPow 8 i else v &&& ~~~(BitVec.twoPow 8 i)

/-- The bits of a flag byte, the first of the list at value 1. -/
def flagByte : List Bool → Nat
  | [] => 0
  | b :: bs => (if b then 1 else 0) + 2 * flagByte bs

/-! ### Lines -/

/-- All lines, in order. -/
def allLines : List LineNo := [0, 1, 2, 3, 4, 5, 6, 7]

/-- All slots, in order. -/
def allSlots : List Slot := List.finRange 64

/-- What the part holds for line `l`. -/
def Part.line (s : Part) (l : LineNo) : Line := s.lines.get l

/-- The settings of line `l`. -/
def Part.cfg (s : Part) (l : LineNo) : LineSettings := s.settings.lines.get l

/-- The map of line `l`. -/
def Part.map (s : Part) (l : LineNo) : MapTable := s.settings.maps.getD (s.cfg l).map .blank

/-- The receive input of line `l` is at mark. -/
def Part.mark (s : Part) (l : LineNo) : Bool := s.rx.get l

/-- Line `l` with `f` applied to all the part holds for it. -/
def Part.updLine (s : Part) (l : LineNo) (f : Line → Line) : Part :=
  { s with lines := s.lines.set l (f (s.line l)) }

/-- Line `l` with `f` applied to its line unit. -/
def Part.updUnit (s : Part) (l : LineNo) (f : LineUnit → LineUnit) : Part :=
  s.updLine l fun x => { x with unit := f x.unit }

/-- Line `l` with `f` applied to its recognizer. -/
def Part.updRecog (s : Part) (l : LineNo) (f : Recog → Recog) : Part :=
  s.updLine l fun x => { x with recog := f x.recog }

/-- Line `l` with `f` applied to its scheduler. -/
def Part.updSched (s : Part) (l : LineNo) (f : Sched → Sched) : Part :=
  s.updLine l fun x => { x with sched := f x.sched }

/-- Line `l` with `f` applied to its supervision state. -/
def Part.updSup (s : Part) (l : LineNo) (f : Supervision → Supervision) : Part :=
  s.updLine l fun x => { x with sup := f x.sup }

/-- Line `l` with its decode plane set. -/
def Part.setPlane (s : Part) (l : LineNo) (p : Plane) : Part :=
  s.updLine l fun x => { x with plane := p }

/-- Line `l` is in service of the running station: its mode is not UNUSED (R1, R2). -/
def Part.active (s : Part) (l : LineNo) : Bool :=
  s.loader == .running && !((s.cfg l).mode == .unused)

/-- `f` done for each line in turn. -/
def Part.forLines (s : Part) (ls : List LineNo) (f : LineNo → Part → Part) : Part :=
  ls.foldl (fun s l => f l s) s

/-- `f` done for each record slot in turn. -/
def Part.forSlots (s : Part) (is : List Slot) (f : Slot → Part → Part) : Part :=
  is.foldl (fun s i => f i s) s

/-! ### Records -/

/-- The record in slot `i`, if the slot is not free. -/
def Part.record (s : Part) (i : Slot) : Option Record := s.records.get i

/-- Slot `i` made to hold `r`. -/
def Part.setRecord (s : Part) (i : Slot) (r : Option Record) : Part :=
  { s with records := s.records.set i r }

/-- The record in slot `i`, if any, with `f` applied. -/
def Part.updRecord (s : Part) (i : Slot) (f : Record → Record) : Part :=
  s.setRecord i ((s.record i).map f)

/-- A record with `f` applied to its inbound fields. -/
def Record.mapIn (f : InRecord → InRecord) (r : Record) : Record :=
  match r.body with
  | .inbound x => { r with body := .inbound (f x) }
  | .outbound _ => r

/-- A record with `f` applied to its outbound fields. -/
def Record.mapOut (f : OutRecord → OutRecord) (r : Record) : Record :=
  match r.body with
  | .inbound _ => r
  | .outbound x => { r with body := .outbound (f x) }

/-- Slot `i` with `f` applied to its inbound fields. -/
def Part.updIn (s : Part) (i : Slot) (f : InRecord → InRecord) : Part := s.updRecord i (Record.mapIn f)

/-- Slot `i` with `f` applied to its outbound fields. -/
def Part.updOut (s : Part) (i : Slot) (f : OutRecord → OutRecord) : Part := s.updRecord i (Record.mapOut f)

/-- The inbound fields of a record. -/
def Record.inbound? (r : Record) : Option InRecord :=
  match r.body with
  | .inbound x => some x
  | .outbound _ => none

/-- The outbound fields of a record. -/
def Record.outbound? (r : Record) : Option OutRecord :=
  match r.body with
  | .inbound _ => none
  | .outbound x => some x

/-- The inbound record of slot `i`. -/
def Part.inRecord (s : Part) (i : Slot) : Option InRecord := (s.record i).bind Record.inbound?

/-- The outbound record of slot `i`. -/
def Part.outRecord (s : Part) (i : Slot) : Option OutRecord := (s.record i).bind Record.outbound?

/-- The reservation of a record: none for an inbound one (R80). -/
def Record.reservation (r : Record) : List Nat :=
  match r.body with
  | .inbound _ => []
  | .outbound x => x.reservation

/-- The handle of the story in slot `i` (R77). -/
def Part.handle (s : Part) (i : Slot) : Handle := { station := s.number, slot := i.val }

/-- A CARRYING record whose line field is absent is closed (R57). -/
def Record.closed (r : Record) : Bool := r.line == none

/-! ### Cells of the copy store -/

/-- The byte of a cell; a cell never written since power-on reads 0 (notes/assumptions/6.md). -/
def Memory.read : Memory → Nat → Byte
  | [], _ => 0
  | (a, b) :: m, x => if a = x then b else Memory.read m x

/-- A cell written; the canonical form is kept: a cell that holds 0 is not listed. -/
def Memory.write : Memory → Nat → Byte → Memory
  | [], a, b => if b = 0 then [] else [(a, b)]
  | (c, d) :: m, a, b =>
    if a < c then (if b = 0 then (c, d) :: m else (a, b) :: (c, d) :: m)
    else if a = c then (if b = 0 then m else (a, b) :: m)
    else (c, d) :: Memory.write m a b

/-- The addresses rise strictly above `lo` and no listed byte is 0. -/
def Memory.above : Nat → Memory → Bool
  | _, [] => true
  | lo, (a, b) :: m => decide (lo ≤ a) && !(b == 0) && Memory.above (a + 1) m

/-- The canonical form of the cells. -/
def Memory.wf (m : Memory) : Bool := Memory.above 0 m

/-- The cell of entry `off` of a story whose block list is `blocks` (R74). -/
def entryAddr (blocks : List Nat) (off : Nat) : Nat :=
  blocks.getD (off / Config.blockEntries) 0 * Config.blockEntries + off % Config.blockEntries

/-- Entry `off` of a record's story as a byte. -/
def Part.entry (s : Part) (r : Record) (off : Nat) : Byte := s.mem.read (entryAddr r.blocks off)

/-- Entries `off` to `off + n - 1` of a record's story. -/
def Part.entries (s : Part) (r : Record) (off n : Nat) : List Byte :=
  (List.range n).map fun k => s.entry r (off + k)

/-- The plane numbered `n`. -/
def planeOfVal : Nat → Plane
  | 0 => .ltrs
  | 1 => .figs
  | _ => .third

/-- A stored outbound entry: code, plane after it, line-end mark (R37). -/
structure OutEntry where
  code : Code
  plane : Plane
  mark : Bool
deriving DecidableEq, Repr

/-- The byte a cell holds for an outbound entry (notes/assumptions/7.md). -/
def OutEntry.pack (e : OutEntry) : Byte :=
  BitVec.ofNat 8 (e.code.toNat + 32 * e.plane.val + (if e.mark then 128 else 0))

/-- The outbound entry a cell's byte stands for. -/
def OutEntry.unpack (b : Byte) : OutEntry :=
  { code := BitVec.ofNat 5 b.toNat, plane := planeOfVal (b.toNat / 32 % 4), mark := b.toNat / 128 == 1 }

/-- Entry `off` of an outbound story. -/
def Part.outEntry (s : Part) (r : Record) (off : Nat) : OutEntry := OutEntry.unpack (s.entry r off)

/-! ### The send list -/

/-- The arbitration value of a request at station `n` (R176). -/
def Request.value (n : Nat) (r : Request) : Nat :=
  r.cls * 2097152 + r.kind.val * 262144 + r.key * 64 + n

/-- A request put in its place: behind every request whose value is not greater (R183). -/
def insertRequest (n : Nat) (r : Request) : List Request → List Request
  | [] => [r]
  | q :: qs => if r.value n < q.value n then r :: q :: qs else q :: insertRequest n r qs

/-- The request of an owner, if it stands on the send list. -/
def Part.requestOf (s : Part) (o : Owner) : Option Request := s.port.sendList.find? fun r => r.owner == o

/-- Whether an owner has a request on the send list. -/
def Part.hasRequest (s : Part) (o : Owner) : Bool := (s.requestOf o).isSome

/-- A request placed on the send list, if its owner has none there (R182). -/
def Part.addRequest (s : Part) (r : Request) : Part :=
  if s.hasRequest r.owner then s
  else { s with port := { s.port with sendList := insertRequest s.number r s.port.sendList } }

/-- The port drives a frame of its own: CONTENDING or SENDING (R175). -/
def Port.drives (p : Port) : Bool := p.state == .contending || p.state == .sending

/-- The frame of `o` is under way and has not been disowned. -/
def Part.frameUnderWay (s : Part) (o : Owner) : Bool :=
  match s.port.own with
  | some f => s.port.drives && f.owner == o && !f.removed
  | none => false

/-- The request of an owner taken off the send list (R184): its frame, if under way, is disowned, and
it keeps the head no longer. -/
def Part.removeRequest (s : Part) (o : Owner) : Part :=
  { s with port := { s.port with
      sendList := s.port.sendList.filter fun r => !(r.owner == o)
      sticky := if s.port.sticky = some o then none else s.port.sticky
      own := s.port.own.map fun f => if f.owner = o then { f with removed := true } else f } }

/-- A request taken off the list because its frame was sent (R179). -/
def Part.dropSent (s : Part) (o : Owner) : Part :=
  { s with port := { s.port with
      sendList := s.port.sendList.filter fun r => !(r.owner == o)
      sticky := if s.port.sticky = some o then none else s.port.sticky } }

/-- A request of the record in slot `i`: class its priority, key its slot (R177). -/
def Part.requestStory (s : Part) (i : Slot) (kind : FrameKind) : Part :=
  match s.record i with
  | some r => s.addRequest { owner := .record i, cls := r.priority, kind := kind, key := i.val }
  | none => s

/-- A request of the outbound record in slot `i` about its call: class its priority, key the call number
(R150, R171, R177). -/
def Part.requestCall (s : Part) (i : Slot) (kind : FrameKind) : Part :=
  match s.record i with
  | some r =>
    match r.body with
    | .outbound x => s.addRequest { owner := .record i, cls := r.priority, kind := kind, key := x.call }
    | .inbound _ => s
  | none => s

end Sys2Proof.Machine
end

