-- ==== Sys2Proof/Machine/Flags.lean ====
section
/-! DEFINITION. The conditions of the lines and of the station, their edges, and the notices that the
edges place (R201, R202, R203), with the flag bytes of the frames (R189, R190). -/

namespace Sys2Proof.Machine

/-- The conditions of a line (00, Enumerations). -/
inductive Condition where
  | lineOpen | brk | loop | testSync | degraded | countFull | gap | stall
deriving DecidableEq, Repr

/-- The place of a condition in the levels and changed bytes (R190). -/
def Condition.idx : Condition → Nat
  | .lineOpen => 0 | .brk => 1 | .loop => 2 | .testSync => 3
  | .degraded => 4 | .countFull => 5 | .gap => 6 | .stall => 7

/-- Condition `c` is raised on line `l`. -/
def Part.cond (s : Part) (l : LineNo) (c : Condition) : Bool := (s.line l).sup.levels.getLsbD c.idx

/-- An edge of `c` towards `level` on line `l` is selected: unmasked, and rising or both edges selected
(R201). -/
def Part.selected (s : Part) (l : LineNo) (c : Condition) (level : Bool) : Bool :=
  !(s.cfg l).mask.getLsbD c.idx && (level || (s.cfg l).both.getLsbD c.idx)

/-- The condition-notice request of line `l` (R202). -/
def conditionRequest (l : LineNo) : Request := { owner := .condition l, cls := 6, kind := .notice, key := l.val }

/-- The report-notice request of line `l` (R206). -/
def reportRequest (l : LineNo) : Request := { owner := .report l, cls := 7, kind := .notice, key := l.val }

/-- The station-notice request (R203). -/
def stationRequest : Request := { owner := .station, cls := 6, kind := .notice, key := 15 }

/-- Condition `c` of line `l` takes `level`. A change is an edge; a selected edge joins the changed set
and places the line's condition notice or merges into it (R201, R202). -/
def Part.setCond (s : Part) (l : LineNo) (c : Condition) (level : Bool) : Part :=
  if s.cond l c = level then s
  else
    let s' := s.updSup l fun x => { x with levels := putBit x.levels c.idx level }
    if s.selected l c level then
      (s'.updSup l fun x => { x with changed := putBit x.changed c.idx true }).addRequest (conditionRequest l)
    else s'

/-- The station conditions (00, Enumerations). -/
inductive StationCondition where | configFault | storeLow | busSilent
deriving DecidableEq, Repr

/-- The place of a station condition in the STATION notice (R190) and in the station mask and edge
select (11.2). -/
def StationCondition.idx : StationCondition → Nat
  | .configFault => 0 | .storeLow => 1 | .busSilent => 2

/-- The events of the STATION notice, at their places (R190). -/
inductive StationEvent where | stationUp | recovered | refused | configFault
deriving DecidableEq, Repr

/-- The place of an event in the events byte (R190). -/
def StationEvent.idx : StationEvent → Nat
  | .stationUp => 0 | .recovered => 1 | .refused => 2 | .configFault => 3

/-- Station condition `c` is raised. -/
def Part.stationCond (s : Part) (c : StationCondition) : Bool := s.notices.levels.getLsbD c.idx

/-- The level of a station condition written, with no notice. -/
def Part.putStationLevel (s : Part) (c : StationCondition) (level : Bool) : Part :=
  { s with notices := { s.notices with levels := putBit s.notices.levels c.idx level } }

/-- Station condition `c` joins the station changed set, and the station notice is placed or merged
(R203). -/
def Part.stationChanged (s : Part) (c : StationCondition) : Part :=
  { s with notices := { s.notices with changed := putBit s.notices.changed c.idx true } }.addRequest stationRequest

/-- Event `e` joins the pending events, and the station notice is placed or merged (R203). -/
def Part.stationEvent (s : Part) (e : StationEvent) : Part :=
  { s with notices := { s.notices with events := putBit s.notices.events e.idx true } }.addRequest stationRequest

/-- An edge of a station condition is selected: in RUNNING by the station section's mask and edge select
(R203), in CONFIG-FAULT always (R213). -/
def Part.stationSelected (s : Part) (c : StationCondition) (level : Bool) : Bool :=
  s.loader == .configFault ||
    (!s.settings.mask.getLsbD c.idx && (level || s.settings.both.getLsbD c.idx))

/-- Station condition `c` takes `level`; a selected edge is reported (R203). -/
def Part.setStationCond (s : Part) (c : StationCondition) (level : Bool) : Part :=
  if s.stationCond c = level then s
  else if s.stationSelected c level then (s.putStationLevel c level).stationChanged c
  else s.putStationLevel c level

/-- STORE-LOW judged by the free count after an act of the store (R91). -/
def Part.judgeStore (s : Part) : Part :=
  if s.free.length < Config.storeLowRise then s.setStationCond .storeLow true
  else if Config.storeLowFall ≤ s.free.length then s.setStationCond .storeLow false
  else s

/-- The flags byte of an OFFER: quiet 1, takeover 2, RERUN 4 (R189). A RERUNNING record's OFFER carries
takeover and quiet clear (R126). -/
def offerFlags (r : InRecord) : Nat :=
  if r.state = .rerunning then flagByte [false, false, true]
  else flagByte [r.quiet, r.takeover, r.rerun]

/-- The flags byte of a CLOSE about a story: TRUNCATED 1, OVERRUN 2, HEADING-FAULT 4, quiet 8, takeover
16, RERUN 32 (R66, R127, R189). -/
def closeFlags (r : InRecord) : Nat :=
  if r.state = .rerunning then flagByte [r.truncated, r.overrun, r.headingFault, false, r.takeover, true]
  else flagByte [r.truncated, r.overrun, r.headingFault, r.quiet, r.takeover, r.rerun]

/-- The outcome byte of a claimant's CLOSE: 1 for SENT, 2 for ABANDONED (R189). -/
def outcomeByte : Option SendOutcome → Nat
  | some .sent => 1
  | some .abandoned => 2
  | none => 0

end Sys2Proof.Machine
end

