-- ==== Sys2Proof/Machine/Operands.lean ====
section
/-! DEFINITION. The operands of the frames: the payload layouts of R189 and R190 read and written, the
arbitration field and the check byte (R176). -/

namespace Sys2Proof.Machine

/-- A byte of value `n` modulo 256. -/
def byteOf (n : Nat) : Byte := BitVec.ofNat 8 n

/-- A two-byte field, most significant byte first (R189). -/
def be16 (n : Nat) : List Byte := [byteOf (n / 256), byteOf n]

/-- The value of a two-byte field (R189). -/
def word (hi lo : Byte) : Nat := hi.toNat * 256 + lo.toNat

/-! ### The arbitration field and the check (R176) -/

/-- The value of a frame's arbitration field. -/
def frameValue (f : Frame) : Nat :=
  f.body.cls.toNat * 2097152 + f.kind.val * 262144 + f.body.key.toNat * 64 + f.body.station.toNat

/-- The arbitration field as three bytes, in the order sent. -/
def frameHeader (f : Frame) : List Byte :=
  [byteOf (frameValue f / 65536), byteOf (frameValue f / 256), byteOf (frameValue f)]

/-- The sum of bytes modulo 256. -/
def byteSum (bs : List Byte) : Nat := (bs.foldl (fun n b => n + b.toNat) 0) % 256

/-- The bytes of a frame before its check byte: arbitration field, length, payload. -/
def frameUnchecked (f : Frame) : List Byte :=
  frameHeader f ++ byteOf f.body.payload.length :: f.body.payload

/-- The check byte: all bytes of the frame sum to 0 modulo 256. -/
def frameCheckByte (f : Frame) : Byte := byteOf (256 - byteSum (frameUnchecked f))

/-- The bytes of a frame as sent. -/
def frameBytes (f : Frame) : List Byte := frameUnchecked f ++ [frameCheckByte f]

/-- A receiver rejects the bytes of a frame: length over 72, or a sum that is not 0 (R180). -/
def rejects (bytes : List Byte) : Bool :=
  decide (72 < (bytes.getD 3 0).toNat) || !(byteSum bytes == 0)

/-! ### Heard frames: a result of `none` is a malformed frame (R186) -/

/-- The fields of an OFFER (R189). `serial` is absent for 0. -/
structure OfferFields where
  owner : Handle
  service : Nat
  serial : Option Nat
  priority : Nat
  category : Nat
  quiet : Bool
  takeover : Bool
  rerun : Bool
  soFar : Nat
  slug : List Byte
deriving DecidableEq, Repr

/-- A heard OFFER read by its layout. -/
def readOffer (f : Heard) : Option OfferFields :=
  match f.payload with
  | slot :: service :: s1 :: s0 :: prio :: cat :: flags :: c1 :: c0 :: len :: slug =>
    if slot.toNat ≤ 63 ∧ service.toNat ≤ 15 ∧ word s1 s0 ≤ 9999 ∧ prio.toNat ≤ 5 ∧
        (cat.toNat ≤ 25 ∨ cat.toNat = 31) ∧ word c1 c0 ≤ Config.storyChars ∧ len.toNat ≤ 24 ∧
        slug.length = len.toNat ∧ f.key.toNat = slot.toNat then
      some { owner := { station := f.station.toNat, slot := slot.toNat }
             service := service.toNat
             serial := if word s1 s0 = 0 then none else some (word s1 s0)
             priority := prio.toNat, category := cat.toNat
             quiet := flags.getLsbD 0, takeover := flags.getLsbD 1, rerun := flags.getLsbD 2
             soFar := word c1 c0, slug := slug }
    else none
  | _ => none

/-- The subject of a frame (R189): a story handle, or a call by caller station and call number. -/
inductive Subject where
  | story (h : Handle)
  | call (caller number : Nat)
deriving DecidableEq, Repr

/-- The four subject bytes at the head of a payload, and the rest. A story's station is the sender's own
and its number a slot; the number agrees with the key (R177, R186, R189). -/
def readSubject (f : Heard) : Option (Subject × List Byte) :=
  match f.payload with
  | kind :: station :: n1 :: n0 :: rest =>
    if f.key.toNat = word n1 n0 ∧ station.toNat ≤ 31 then
      if kind = 0 then
        if station.toNat = f.station.toNat ∧ word n1 n0 ≤ 63 then
          some (.story { station := station.toNat, slot := word n1 n0 }, rest)
        else none
      else if kind = 1 then some (.call station.toNat (word n1 n0), rest)
      else none
    else none
  | _ => none

/-- A heard TEXT: subject, offset, characters (R189). DEDUCED: one whose offset and characters together
exceed 16,000 is not malformed (notes/assumptions/37.md). -/
def readText (f : Heard) : Option (Subject × Nat × List Byte) :=
  match readSubject f with
  | some (subj, o1 :: o0 :: chars) =>
    if word o1 o0 < Config.storyChars ∧ 1 ≤ chars.length ∧ chars.length ≤ 64 then
      some (subj, word o1 o0, chars)
    else none
  | _ => none

/-- A heard CLOSE: subject, total, last byte (R189). The last byte of a CLOSE about a call is an
outcome, 0 to 2; DEDUCED: in a caller's CLOSE, too, any of the three is taken (notes/assumptions/27.md). -/
def readClose (f : Heard) : Option (Subject × Nat × Byte) :=
  match readSubject f with
  | some (subj, [t1, t0, _, _, last]) =>
    if word t1 t0 ≤ Config.storyChars then
      match subj with
      | .story _ => some (subj, word t1 t0, last)
      | .call _ _ => if last.toNat ≤ 2 then some (subj, word t1 t0, last) else none
    else none
  | _ => none

/-- A heard WITHDRAW: its subject (R189). -/
def readWithdraw (f : Heard) : Option Subject :=
  match readSubject f with
  | some (subj, []) => some subj
  | _ => none

/-- A heard CLAIM: caller station and call number (R189); its key is its bid (R186). -/
def readClaim (f : Heard) : Option (Nat × Nat) :=
  match f.payload with
  | [caller, n1, n0, line, b1, b0] =>
    if caller.toNat ≤ 31 ∧ word n1 n0 ≤ 4095 ∧ line.toNat ≤ 7 ∧ f.key.toNat = word b1 b0 then
      some (caller.toNat, word n1 n0)
    else none
  | _ => none

/-- The fields of a CALL (R130). -/
structure CallFields where
  caller : Nat
  call : Nat
  group : Nat
  priority : Nat
  chars : Nat
  release : Option Group
  completion : Option Group
deriving DecidableEq, Repr

/-- A release or completion group field: 0–7, 255 for none, anything else out of range (R189). -/
def readGroup (b : Byte) : Option (Option Group) :=
  if h : b.toNat < 8 then some (some ⟨b.toNat, h⟩)
  else if b.toNat = 255 then some none
  else none

/-- A heard CALL read by its layout (R189); its key is its call number (R186). -/
def readCall (f : Heard) : Option CallFields :=
  match f.payload with
  | [n1, n0, group, prio, c1, c0, rel, com] =>
    match readGroup rel, readGroup com with
    | some release, some completion =>
      if f.key.toNat = word n1 n0 ∧ group.toNat ≤ 15 then
        some { caller := f.station.toNat, call := word n1 n0, group := group.toNat,
               priority := prio.toNat, chars := word c1 c0, release := release, completion := completion }
      else none
    | _, _ => none
  | _ => none

/-- The lines an ORDER to lines names: one, or all for 255; any other line byte is out of range (R190, R214). -/
def orderLines (o : Order) : Option (List LineNo) :=
  if h : o.line.toNat < 8 then some [⟨o.line.toNat, h⟩]
  else if o.line.toNat = 255 then some allLines
  else none

/-! ### Own frames -/

/-- The subject bytes of a story in slot `i` of station `n`. -/
def storySubject (n : Nat) (i : Slot) : List Byte := [0, byteOf n] ++ be16 i.val

/-- The subject bytes of a call. -/
def callSubject (caller number : Nat) : List Byte := [1, byteOf caller] ++ be16 number

/-- The payload of an own OFFER (R114, R189). -/
def offerPayload (i : Slot) (r : Record) (x : InRecord) : List Byte :=
  [byteOf i.val, byteOf x.service] ++ be16 (x.serial.getD 0) ++
    [byteOf r.priority, byteOf x.category, byteOf (offerFlags x)] ++ be16 x.cursor ++
    byteOf x.slug.length :: x.slug

/-- The characters unsent of an inbound record, 64 at most, from its bus cursor (R65). -/
def Part.unsentText (s : Part) (r : Record) (x : InRecord) : List Byte :=
  s.entries r x.cursor (min 64 (r.count - x.cursor))

/-- The payload of an own TEXT (R65, R189). -/
def Part.textPayload (s : Part) (i : Slot) (r : Record) (x : InRecord) : List Byte :=
  storySubject s.number i ++ be16 x.cursor ++ s.unsentText r x

/-- The payload of an own CLOSE about a story (R66, R127, R189). -/
def storyClosePayload (n : Nat) (i : Slot) (r : Record) (x : InRecord) : List Byte :=
  storySubject n i ++ be16 r.count ++ be16 x.mutilation ++ [byteOf (closeFlags x)]

/-- The payload of an own CLOSE about a call (R171, R172, R189). -/
def callClosePayload (x : OutRecord) : List Byte :=
  callSubject x.caller x.call ++ be16 x.total ++ be16 0 ++ [byteOf (outcomeByte x.outcome)]

/-- The payload of an own CLAIM (R139, R189). -/
def claimPayload (r : Record) (x : OutRecord) : List Byte :=
  byteOf x.caller :: be16 x.call ++
    [byteOf ((r.line.map Fin.val).getD 0)] ++ be16 ((x.claim.map Claim.bid).getD 0)

/-- The payload of the condition notice of a line (R190). -/
def conditionPayload (x : Supervision) : List Byte := [1, x.levels, x.changed]

/-- A fault record as eight bytes (R190). -/
def faultBytes (r : FaultRecord) : List Byte :=
  be16 ((match r.fields.handle with
      | some h => 32768 + h.station * 1024 + h.slot * 16
      | none => 0)
    + (if r.fields.serial.isSome then 8 else 0) + (if r.fields.raw.isSome then 4 else 0)
    + r.fields.plane.val)
    ++ be16 (r.fields.serial.getD 0) ++ be16 r.fields.offset
    ++ [byteOf ((r.fields.raw.map BitVec.toNat).getD 0), byteOf r.count]

/-- The payload of the report notice of a line (R206, R190). -/
def reportPayload (counted : CountedKind) (x : Supervision) : List Byte :=
  [2, byteOf counted.val, byteOf (flagByte [x.unreported, x.query, x.query && x.clear])]
    ++ be16 (if x.unreported then x.snapshot else 0)
    ++ (if x.query then
          byteOf (flagByte (x.faults.toList.map Option.isSome))
            :: (x.faults.toList.filterMap id).flatMap faultBytes
        else [0])

/-- The payload of the station notice (R203, R190). -/
def stationPayload (x : Notices) (reason : Nat) : List Byte :=
  [3, x.levels, x.changed, x.events, byteOf reason, byteOf x.refusedCode, byteOf x.refusedSource]
    ++ be16 x.refusals

/-- The payload of the frame of a request, built from the owner's state as it stands (R182). -/
def Part.payload (s : Part) (q : Request) : List Byte :=
  match q.owner with
  | .station => stationPayload s.notices s.faultReason
  | .condition l => conditionPayload (s.line l).sup
  | .report l => reportPayload (s.cfg l).counted (s.line l).sup
  | .record i =>
    match s.record i with
    | none => []
    | some r =>
      match r.body with
      | .inbound x =>
        match q.kind with
        | .offer => offerPayload i r x
        | .text => s.textPayload i r x
        | .close => storyClosePayload s.number i r x
        | _ => storySubject s.number i
      | .outbound x =>
        match q.kind with
        | .claim => claimPayload r x
        | .close => callClosePayload x
        | _ => callSubject x.caller x.call

/-- The frame of a request (R182). -/
def Part.frameOf (s : Part) (q : Request) : Frame :=
  { kind := q.kind
    body := { cls := BitVec.ofNat 3 q.cls, key := BitVec.ofNat 12 q.key,
              station := BitVec.ofNat 6 s.number, payload := s.payload q } }

end Sys2Proof.Machine
end

