-- ==== Sys2Proof/Machine/Store.lean ====
section
/-! DEFINITION. The copy store and story table (04): freeing, eviction, requests for blocks and records,
reservations, and the storing of entries. -/

namespace Sys2Proof.Machine

/-- A record freed (R81): its block list and then its reservation go to the tail of the free list, it
leaves the recent list, its request leaves the send list, its slot is free. -/
def Part.freeRecord (s : Part) (i : Slot) : Part :=
  match s.record i with
  | none => s
  | some r =>
    ((({ s with free := s.free ++ (r.blocks ++ r.reservation)
                recent := s.recent.filter fun j => !(j == i) } : Part).setRecord i none).removeRequest
      (.record i)).judgeStore

/-- The referenced flag of the record in slot `i` (R88). -/
def Part.referenced (s : Part) (i : Slot) : Bool := ((s.inRecord i).bind InRecord.referenced).getD false

/-- The eviction scan over at most `n` records (R89): a referenced record at the oldest end loses its
flag and moves to the newest; the first unreferenced one is freed. -/
def evictScan : Nat → Part → Part
  | 0, s => s
  | n + 1, s =>
    match s.recent with
    | [] => s
    | i :: rest =>
      if s.referenced i then
        evictScan n (({ s with recent := rest ++ [i] } : Part).updIn i fun x => { x with referenced := some false })
      else ({ s with recent := rest } : Part).freeRecord i

/-- One eviction (R89): a scan looks at no more records than the list holds plus one. -/
def Part.evictOne (s : Part) : Part := evictScan (s.recent.length + 1) s

/-- Evictions, one at a time, until `p` holds or the recent list is empty, at most `n` of them (R76,
R85). -/
def evictUntil (p : Part → Bool) : Nat → Part → Part
  | 0, s => s
  | n + 1, s => if p s || s.recent.isEmpty then s else evictUntil p n s.evictOne

/-- A single-block request for the record in slot `i` (R76): the head of the free list, after eviction
where that is empty, joins the record's block list. The Boolean says that it was served. -/
def Part.takeBlock (s : Part) (i : Slot) : Part × Bool :=
  let t := evictUntil (fun s => !s.free.isEmpty) s.recent.length s
  match t.free, t.record i with
  | b :: rest, some _ =>
    ((({ t with free := rest } : Part).updRecord i fun r => { r with blocks := r.blocks ++ [b] }).judgeStore,
      true)
  | _, _ => (t, false)

/-- The free slot of lowest number (R77). -/
def Part.lowestFree (s : Part) : Option Slot := allSlots.find? fun i => (s.record i).isNone

/-- A record request (R77): the lowest free slot, after one eviction where none is free. -/
def Part.findSlot (s : Part) : Part × Option Slot :=
  match s.lowestFree with
  | some i => (s, some i)
  | none => (s.evictOne, s.evictOne.lowestFree)

/-- The blocks held by the records of the recent list (R84). -/
def Part.recentBlocks (s : Part) : Nat :=
  (s.recent.map fun i => ((s.record i).map fun r => r.blocks.length).getD 0).sum

/-- The reservation test (R84): free blocks and blocks of RECENT records number `b` or more. -/
def Part.canReserve (s : Part) (b : Nat) : Bool := decide (b ≤ s.free.length + s.recentBlocks)

/-- A record can be had: a free slot or a record to evict (R133). -/
def Part.recordAvailable (s : Part) : Bool := s.lowestFree.isSome || !s.recent.isEmpty

/-- A reservation of `b` blocks for the record in slot `i`, after evictions; all or none (R85). -/
def Part.reserve (s : Part) (i : Slot) (b : Nat) : Part × Bool :=
  let t := evictUntil (fun s => decide (b ≤ s.free.length)) s.recent.length s
  if b ≤ t.free.length ∧ (t.outRecord i).isSome then
    ((({ t with free := t.free.drop b } : Part).updOut i fun x =>
        { x with reservation := x.reservation ++ t.free.take b }).judgeStore, true)
  else (t, false)

/-- The blocks left in a reservation returned to the free list (R86). -/
def Part.returnSurplus (s : Part) (i : Slot) : Part :=
  match s.outRecord i with
  | none => s
  | some x =>
    (({ s with free := s.free ++ x.reservation } : Part).updOut i fun x => { x with reservation := [] }).judgeStore

/-- One more entry is written behind the story's last, in a block the record holds (R74). -/
def Part.writeEntry (s : Part) (i : Slot) (b : Byte) : Part :=
  match s.record i with
  | none => s
  | some r =>
    ({ s with mem := s.mem.write (entryAddr r.blocks r.count) b } : Part).updRecord i fun r =>
      { r with count := r.count + 1 }

/-- The record's blocks are full, so that one more entry needs one more block (R44, R56). -/
def Record.full (r : Record) : Bool := r.count == r.blocks.length * Config.blockEntries

/-- A character stored behind an inbound story's last (R56); the Boolean says that it was stored. -/
def Part.storeChar (s : Part) (i : Slot) (c : Byte) : Part × Bool :=
  match s.record i with
  | none => (s, false)
  | some r =>
    if r.full then
      match s.takeBlock i with
      | (t, true) => (t.writeEntry i c, true)
      | (t, false) => (t, false)
    else (s.writeEntry i c, true)

/-- A block for an outbound story in slot `i`: the head of its reservation, or a single-block request
once that is empty, and none past 250 blocks (R44, R86). -/
def Part.takeOutBlock (s : Part) (i : Slot) : Part × Bool :=
  match s.record i with
  | none => (s, false)
  | some r =>
    if Config.storyBlocks ≤ r.blocks.length then (s, false)
    else
      match r.reservation with
      | b :: rest =>
        (s.updRecord i fun r =>
          ({ r with blocks := r.blocks ++ [b] } : Record).mapOut fun x => { x with reservation := rest }, true)
      | [] => s.takeBlock i

/-- A code stored behind an outbound story's last (R44); the Boolean says that it was stored. -/
def Part.storeCode (s : Part) (i : Slot) (e : OutEntry) : Part × Bool :=
  match s.record i with
  | none => (s, false)
  | some r =>
    if r.full then
      match s.takeOutBlock i with
      | (t, true) => (t.writeEntry i e.pack, true)
      | (t, false) => (t, false)
    else (s.writeEntry i e.pack, true)

/-- Codes stored in order until one cannot be (R44). -/
def storeCodes (i : Slot) : List OutEntry → Part → Part × Bool
  | [], s => (s, true)
  | e :: es, s =>
    match s.storeCode i e with
    | (t, true) => storeCodes i es t
    | (t, false) => (t, false)

end Sys2Proof.Machine
end

