-- ==== Sys2Proof/Machine/Supervision.lean ====
section
/-! DEFINITION. The supervision unit (10): fault records, the quality counter, transfers, queries, and
the bit sequence of the test pattern. -/

namespace Sys2Proof.Machine

/-- A record of kind `k` after one more occurrence (R204). -/
def faultOccurrence (old : Option FaultRecord) (f : FaultFields) : FaultRecord :=
  { fields := f, count := satSucc 255 ((old.map FaultRecord.count).getD 0), changed := true }

/-- An occurrence of fault kind `k` recorded for line `l` (R204). -/
def Part.fault (s : Part) (l : LineNo) (k : FaultKind) (f : FaultFields) : Part :=
  s.updSup l fun x => { x with faults := x.faults.set k.idx (some (faultOccurrence (x.faults.get k.idx) f)) }

/-- What an occurrence is reported as to the quality counter (R199). -/
inductive Occurrence where | framing | mutilated | testError
deriving DecidableEq, Repr

/-- A counter of counted kind `k` counts occurrence `o` (R199). -/
def CountedKind.counts (k : CountedKind) (o : Occurrence) : Bool :=
  match k, o with
  | .framing, .framing => true
  | .mutilated, .mutilated => true
  | .testErrors, .testError => true
  | .framingMutilated, .framing => true
  | .framingMutilated, .mutilated => true
  | _, _ => false

/-- An occurrence reported for line `l`: its counter counts it if of its kind, and COUNT-FULL rises when
it reaches 65,535 (R199). -/
def Part.occur (s : Part) (l : LineNo) (o : Occurrence) : Part :=
  if CountedKind.counts (s.cfg l).counted o then
    let t := s.updSup l fun x => { x with counter := satSucc 65535 x.counter }
    if (t.line l).sup.counter = 65535 then t.setCond l .countFull true else t
  else s

/-- A transfer of line `l`'s counter into its snapshot (R200). -/
def Part.transfer (s : Part) (l : LineNo) : Part :=
  let n := (s.line l).sup.counter
  ((((s.updSup l fun x =>
      { x with snapshot := x.counter, unreported := true, lateSnapshot := true, counter := 0 }).setCond
        l .countFull false).setCond l .degraded (decide ((s.cfg l).degraded < n))).addRequest (reportRequest l))

/-- A query of line `l`, with or without the clear request (R205). -/
def Part.queryLine (s : Part) (l : LineNo) (clear : Bool) : Part :=
  (s.updSup l fun x =>
    { x with query := true, clear := x.clear || clear, lateQuery := true,
             lateClear := x.lateClear || clear }).addRequest (reportRequest l)

/-! ### The test pattern -/

/-- The bit the register predicts: stage 9 exclusive-or stage 5 (R195). -/
def nextBit (r : BitVec 9) : Bool := r.getLsbD 8 ^^ r.getLsbD 4

/-- The register after bit `b` has entered stage 1 and every stage has taken the value below it (R195). -/
def shiftIn (r : BitVec 9) (b : Bool) : BitVec 9 := (r <<< 1) ||| (if b then 1 else 0)

/-- `n` bits made by a register, and the register after them (R195). -/
def makeBits : Nat → BitVec 9 → List Bool × BitVec 9
  | 0, r => ([], r)
  | n + 1, r =>
    let (bs, r') := makeBits n (shiftIn r (nextBit r))
    (nextBit r :: bs, r')

/-- A code of five elements, element 1 first (00, Five-level codes). -/
def codeOfBits (bs : List Bool) : Code := BitVec.ofNat 5 (flagByte bs)

/-- The elements of a code, element 1 first. -/
def codeBits (c : Code) : List Bool := [c.getLsbD 0, c.getLsbD 1, c.getLsbD 2, c.getLsbD 3, c.getLsbD 4]

/-- The code a generator makes next and the generator after it: element 1 inverted when INSERT-ERROR is
marked, the register keeping the true bit (R195). -/
def Generator.make (g : Generator) : Code × Generator :=
  let (bs, r) := makeBits 5 g.reg
  (if g.insert then codeOfBits bs ^^^ 1 else codeOfBits bs, { reg := r, insert := false })

/-- Received bits fed into a checker's register; whether each equalled its prediction (R196). -/
def feedBits : List Bool → BitVec 9 → Bool × BitVec 9
  | [], r => (true, r)
  | b :: bs, r =>
    let (ok, r') := feedBits bs (shiftIn r b)
    ((nextBit r == b) && ok, r')

/-- The checker OUT with the load count and the run at 0 (R196). -/
def Checker.out (c : Checker) : Checker := { c with inSync := false, load := 0, run := 0 }

/-- A code taken by a checker that is OUT (R196): two codes load, later ones are predicted, and the run of
8 correct codes brings it IN. -/
def Checker.takeOut (c : Checker) (code : Code) : Checker :=
  let (ok, r) := feedBits (codeBits code) c.reg
  if c.load < 2 then { c with reg := r, load := c.load + 1 }
  else if ok then
    if c.run + 1 = 8 then { c with reg := r, run := 8, inSync := true, window := [] }
    else { c with reg := r, run := c.run + 1 }
  else { c with reg := r, run := 0 }

/-- A code taken by a checker that is IN, and whether it is a test error (R197): four errors among the
last 16 codes put it OUT. -/
def Checker.takeIn (c : Checker) (code : Code) : Checker × Bool :=
  let (bs, r) := makeBits 5 c.reg
  let err := !(codeOfBits bs == code)
  let w := (err :: c.window).take 16
  if err && decide (4 ≤ w.count true) then ({ c with reg := r, window := w }.out, true)
  else ({ c with reg := r, window := w }, err)

/-- A code handed on to the checker of line `l` (R6, R196, R197). -/
def Part.checkCode (s : Part) (l : LineNo) (code : Code) : Part :=
  let c := (s.line l).sup.chk
  if c.inSync then
    let (c', err) := c.takeIn code
    let t := s.updSup l fun x => { x with chk := c' }
    (if err then t.occur l .testError else t).setCond l .testSync c'.inSync
  else
    (s.updSup l fun x => { x with chk := c.takeOut code }).setCond l .testSync (c.takeOut code).inSync

end Sys2Proof.Machine
end

