-- ==== Sys2Proof/Machine/Tracker.lean ====
section
/-! DEFINITION. The serial trackers (05). -/

namespace Sys2Proof.Machine

/-- The successor of a serial: 1 follows 9999 (R95). -/
def serialSucc (s : Nat) : Nat := if s = 9999 then 1 else s + 1

/-- The distance of serial `s` from the expected serial `e` (R95). -/
def serialDistance (s e : Nat) : Nat := (s + 9999 - e) % 9999

/-- How far serial `g` lies behind `e` (R95). -/
def serialBehind (g e : Nat) : Nat := serialDistance e g

/-- The case a serial is classified as (R97). -/
inductive SerialCase where | first | next | ahead | fill | duplicate | jump
deriving DecidableEq, Repr

/-- The classification of serial `s` by a tracker (R97). -/
def Tracker.classify (t : Tracker) (s : Nat) : SerialCase :=
  match t.expected with
  | none => .first
  | some e =>
    let d := serialDistance s e
    if d = 0 then .next
    else if d ≤ 50 then .ahead
    else if 9949 ≤ d then (if t.gaps.contains s then .fill else .duplicate)
    else .jump

/-- The `d` serials skipped from `e` up, oldest first (R98). -/
def skipped : Nat → Nat → List Nat
  | _, 0 => []
  | e, d + 1 => e :: skipped (serialSucc e) d

/-- An advance over `d` serials from `e` to the successor of `s` (R98): the gap list after it, and whether
a serial was lost. Gaps and skipped serials more than 50 behind are lost; of the others the youngest
that find room are placed, in order of age, behind the gaps already there. -/
def advance (gaps : List Nat) (e s d : Nat) : List Nat × Bool :=
  let e' := serialSucc s
  let kept := gaps.filter fun g => decide (serialBehind g e' ≤ 50)
  let young := (skipped e d).filter fun g => decide (serialBehind g e' ≤ 50)
  let room := Config.gapSize - kept.length
  let placed := young.drop (young.length - room)
  (kept ++ placed, decide (kept.length + placed.length < gaps.length + d))

/-- A tracker after serial `s`, and whether the act lost serials (R97 to R101). -/
def Tracker.take (t : Tracker) (s : Nat) : Tracker × Bool :=
  match t.expected with
  | none => ({ t with expected := some (serialSucc s) }, false)
  | some e =>
    match t.classify s with
    | .first => (t, false)
    | .next | .ahead =>
      let (g, lost) := advance t.gaps e s (serialDistance s e)
      ({ t with expected := some (serialSucc s), gaps := g }, lost)
    | .fill => ({ t with gaps := t.gaps.filter fun g => !(g == s) }, false)
    | .duplicate => (t, false)
    | .jump => ({ t with expected := some (serialSucc s), gaps := [] }, true)

/-- The tracker of a service, if the station has one (R94). -/
def Part.tracker (s : Part) (service : Nat) : Option Tracker := s.trackers.find? fun t => t.service == service

/-- The lines of a tracker: RECEIVE or TWO-WAY lines of its service (R94). -/
def Part.serviceLines (s : Part) (service : Nat) : List LineNo :=
  allLines.filter fun l => (s.cfg l).mode.receives && (s.cfg l).service == service

/-- The GAP condition of line `l` brought to the level its service's gap list gives (R107). -/
def Part.followGap (s : Part) (l : LineNo) : Part :=
  match s.tracker (s.cfg l).service with
  | some t => if (s.cfg l).mode.receives then s.setCond l .gap (!t.gaps.isEmpty) else s
  | none => s

/-- The tracker of a service replaced by `t`, and GAP of its lines following (R107). -/
def Part.putTracker (s : Part) (t : Tracker) : Part :=
  ({ s with trackers := s.trackers.map fun x => if x.service = t.service then t else x } : Part).forLines
    (s.serviceLines t.service) (fun l s => s.followGap l)

/-- A serial taken by the tracker of `service`; a loss is recorded as SERIAL-GAP for line `l` with the
fields `f` (R97 to R101, R105). -/
def Part.takeSerial (s : Part) (service serial : Nat) (l : Option LineNo) (f : FaultFields) : Part :=
  match s.tracker service with
  | none => s
  | some t =>
    let (t', lost) := t.take serial
    let s' := s.putTracker t'
    match lost, l with
    | true, some l => s'.fault l .serialGap f
    | _, _ => s'

/-- The verdict for an own heading is duplicate (R97, R102). -/
def Part.duplicateSerial (s : Part) (service serial : Nat) : Bool :=
  match s.tracker service with
  | some t => t.classify serial == .duplicate
  | none => false

/-- A heard OFFER's serial taken by the tracker of its service, unless it is a rerun (R104, R105). -/
def Part.hearSerial (s : Part) (service serial : Nat) (owner : Handle) (rerun : Bool) : Part :=
  if rerun then s
  else
    let l := (s.serviceLines service).head?
    s.takeSerial service serial l
      { handle := some owner, serial := some serial, offset := 0, raw := none,
        plane := (l.map fun l => (s.line l).plane).getD .ltrs }

end Sys2Proof.Machine
end

