-- ==== Sys2Proof/Machine/Converter.lean ====
section
/-! DEFINITION. The code converter (02): the reverse index of a map, decoding with admission, encoding
with folding, the fixed texts and the reservation bound. -/

namespace Sys2Proof.Machine

/-! ### Maps (2.1) -/

/-- The plane a code selects, if the code is a shift of the map (R21, R24, R27). -/
def shiftPlane (m : MapTable) (c : Nat) : Option Plane :=
  if c = m.ltrsCode then some .ltrs
  else if c = m.figsCode then some .figs
  else if m.thirdCode = some c then some .third
  else none

/-- The shift code of a plane. -/
def shiftCode (m : MapTable) (p : Plane) : Code :=
  BitVec.ofNat 5 (match p with
    | .ltrs => m.ltrsCode
    | .figs => m.figsCode
    | .third => m.thirdCode.getD 0)

/-- The table of a plane; a map without a third-plane code has no THIRD (R24). -/
def planeTable (m : MapTable) (p : Plane) : List MapEntry :=
  match p with
  | .ltrs => m.ltrs
  | .figs => m.figs
  | .third => if m.thirdCode.isSome then m.third else []

/-- The entry of a code in a plane (R28). -/
def mapEntry (m : MapTable) (p : Plane) (c : Nat) : MapEntry :=
  (planeTable m p).getD c { char := 0, cls := .unassigned }

/-- The lowest code from `c` on, `n` entries long, whose assigned entry carries `ch` and which is no
shift of the map (R21, R23). -/
def findCode (m : MapTable) (ch : Byte) : List MapEntry → Nat → Option Nat
  | [], _ => none
  | e :: es, c =>
    if e.char = ch ∧ e.cls ≠ .unassigned ∧ shiftPlane m c = none then some c else findCode m ch es (c + 1)

/-- The code of a character in a plane by the reverse index (R23). -/
def codeIn (m : MapTable) (p : Plane) (ch : Byte) : Option Nat := findCode m ch (planeTable m p) 0

/-- The primary plane of a character: the lowest-numbered plane that holds it (R23). -/
def primaryPlane (m : MapTable) (ch : Byte) : Option Plane :=
  [Plane.ltrs, .figs, .third].find? fun p => (codeIn m p ch).isSome

/-- The class of a character for outbound admission: that of its entry in the primary plane, or
UNASSIGNED (R23, R39). -/
def charClass (m : MapTable) (ch : Byte) : CharClass :=
  match primaryPlane m ch with
  | some p => (mapEntry m p ((codeIn m p ch).getD 0)).cls
  | none => .unassigned

/-- A character of a fixed text can be encoded (R25). -/
def encodableChar (m : MapTable) (ch : Byte) : Bool :=
  ch == officeCR ||
    (if ch = lineEnd then (primaryPlane m officeCR).isSome && (primaryPlane m lineEnd).isSome
     else (primaryPlane m ch).isSome)

/-- A text is encodable in a map (R25). -/
def encodable (m : MapTable) (text : List Byte) : Bool := text.all (encodableChar m)

/-- The admission action of a profile, direction (false: inbound) and class (R36; position in 11.2). -/
def admissionOf (t : List Admission) (profile : Nat) (outbound : Bool) (k : CharClass) : Admission :=
  t.getD (profile * 16 + (if outbound then 8 else 0) + k.val) .pass

/-! ### Decoding (2.3) -/

/-- The mutilation count of the story being assembled on line `l` raised by 1 (R29, R30). -/
def Part.mutilate (s : Part) (l : LineNo) : Part :=
  match (s.line l).recog.tied with
  | some i => s.updIn i fun x => { x with mutilation := satSucc 65535 x.mutilation }
  | none => s

/-- The fields of an inbound converter fault (R34): code `raw`, looked up in plane `p`. -/
def Part.inboundFields (s : Part) (l : LineNo) (raw : Code) (p : Plane) : FaultFields :=
  match (s.line l).recog.tied with
  | some i =>
    { handle := some (s.handle i), serial := (s.inRecord i).bind InRecord.serial,
      offset := ((s.record i).map Record.count).getD 0, raw := some raw, plane := p }
  | none => { handle := none, serial := none, offset := 0, raw := some raw, plane := p }

/-- The decode plane after a code that is looked up as `e` (R28). -/
def planeAfter (cfg : LineSettings) (e : MapEntry) (p : Plane) : Plane :=
  if cfg.unshift ∧ e.cls = .space then .ltrs else p

/-- An answer-back request raised for line `l` (R163): taken when none is pending or being sent and the
line's answer-back has a code. -/
def Part.requestAnswerBack (s : Part) (l : LineNo) : Part :=
  if (s.line l).sched.answerBack = .clear ∧ (s.line l).texts.answerBack ≠ [] then
    s.updSched l fun x => { x with answerBack := .pending }
  else s

/-- An entry read without a framing flag raises an answer-back request on line `l` (R33). -/
def Part.enquires (s : Part) (l : LineNo) (e : MapEntry) : Bool :=
  (s.cfg l).mode == .twoWay && (s.line l).unit.state == .idle && (s.cfg l).enquiry == some e.char

/-- The character that goes to the recognizer for an admitted entry (R31, R32). -/
def formatChar (e : MapEntry) : Option Byte :=
  if e.cls = .format then (if e.char = lineEnd then some lineEnd else none) else some e.char

/-- A code taken by the decode context of line `l`: the part after the plane change, the request and the
fault reports, and the character handed to the recognizer (R27 to R35). -/
def Part.decode (s : Part) (l : LineNo) (code : Code) (framing : Bool) : Part × Option Byte :=
  let m := s.map l
  let p := (s.line l).plane
  let f := s.inboundFields l code p
  match shiftPlane m code.toNat with
  | some q =>
    if framing then (((s.setPlane l q).fault l .framing f).mutilate l, some m.subst)
    else (s.setPlane l q, none)
  | none =>
    let e := mapEntry m p code.toNat
    let t := s.setPlane l (planeAfter (s.cfg l) e p)
    if framing then ((t.fault l .framing f).mutilate l, some m.subst)
    else if e.cls = .unassigned then
      (((t.fault l .mutilated f).occur l .mutilated).mutilate l, some m.subst)
    else
      let t := if t.enquires l e then t.requestAnswerBack l else t
      match admissionOf s.settings.admission (s.cfg l).profile false e.cls with
      | .pass => (t, formatChar e)
      | .substitute => (t.fault l .admission f, some m.subst)
      | .drop | .refuse => (t.fault l .admission f, none)

/-! ### Encoding (2.5) -/

/-- The encode state of a story: plane and column (R26). -/
structure Encoder where
  plane : Plane
  column : Nat
deriving DecidableEq, Repr

/-- The plane a character is sent in: the current one for a SPACE or FORMAT character it holds, else the
primary plane (R40). -/
def chosenPlane (m : MapTable) (cur : Plane) (ch : Byte) : Option Plane :=
  if (charClass m ch = .space ∨ charClass m ch = .format) ∧ (codeIn m cur ch).isSome then some cur
  else primaryPlane m ch

/-- The entries of a character sent by R40, and the plane after them. -/
def encodeRaw (m : MapTable) (cur : Plane) (ch : Byte) : List OutEntry × Plane :=
  match chosenPlane m cur ch with
  | none => ([], cur)
  | some p =>
    let c : OutEntry := { code := BitVec.ofNat 5 ((codeIn m p ch).getD 0), plane := p, mark := false }
    if p = cur then ([c], p) else ([{ code := shiftCode m p, plane := p, mark := false }, c], p)

/-- A sequence with `f` applied to its last entry. -/
def mapLast (f : OutEntry → OutEntry) : List OutEntry → List OutEntry
  | [] => []
  | [e] => [f e]
  | e :: es => e :: mapLast f es

/-- The last entry of a sequence bears the line-end mark (R37). -/
def markLast (es : List OutEntry) : List OutEntry := mapLast (fun e => { e with mark := true }) es

/-- The line end sequence: CR, LF, and the guard shift where it is on (R41). -/
def encodeLineEnd (m : MapTable) (guardShift : Bool) (cur : Plane) : List OutEntry × Plane :=
  let (cr, p) := encodeRaw m cur officeCR
  let (lf, q) := encodeRaw m p lineEnd
  let g : List OutEntry := if guardShift then [{ code := shiftCode m q, plane := q, mark := false }] else []
  (markLast (cr ++ lf ++ g), q)

/-- A character's class advances the column (R22, R43). -/
def CharClass.advances (k : CharClass) : Bool :=
  match k with
  | .letter | .figure | .punct | .space | .national => true
  | _ => false

/-- A character other than a LINE END stored at the encoder's column, with unshift-on-space (R43). -/
def encodePlain (m : MapTable) (unshift : Bool) (e : Encoder) (ch : Byte) : List OutEntry × Encoder :=
  let (es, p) := encodeRaw m e.plane ch
  let col := if CharClass.advances (charClass m ch) then e.column + 1 else e.column
  if unshift ∧ charClass m ch = .space then
    (mapLast (fun x => { x with plane := .ltrs }) es, { plane := .ltrs, column := col })
  else (es, { plane := p, column := col })

/-- A character encoded with folding (R41 to R43): a SPACE from column W − F on is a word fold, any other
character at column W is preceded by a hard fold. -/
def encodeChar (m : MapTable) (cfg : LineSettings) (e : Encoder) (ch : Byte) : List OutEntry × Encoder :=
  if ch = lineEnd then
    let (es, p) := encodeLineEnd m cfg.guardShift e.plane
    (es, { plane := p, column := 0 })
  else if charClass m ch = .space then
    if cfg.width - cfg.fold ≤ e.column then
      let (es, p) := encodeLineEnd m cfg.guardShift e.plane
      (es, { plane := p, column := 0 })
    else encodePlain m cfg.unshift e ch
  else if e.column = cfg.width then
    let (es, p) := encodeLineEnd m cfg.guardShift e.plane
    let (es', e') := encodePlain m cfg.unshift { plane := p, column := 0 } ch
    (es ++ es', e')
  else encodePlain m cfg.unshift e ch

/-- What the encoder reports for a character (R39, R44). -/
inductive EncodeResult where | taken | refused | overrun
deriving DecidableEq, Repr

/-- The fields of an outbound fault of the story in slot `i` (R34). -/
def Part.outboundFields (s : Part) (i : Slot) (offset : Nat) (p : Plane) : FaultFields :=
  { handle := some (s.handle i), serial := none, offset := offset, raw := none, plane := p }

/-- The encode state of the story in slot `i` written back (R38). -/
def Part.putEncoder (s : Part) (i : Slot) (e : Encoder) : Part :=
  s.updOut i fun x => { x with intake := x.intake.map fun k => { k with plane := e.plane, column := e.column } }

/-- A character encoded and its codes stored in the story in slot `i` of line `l` (R40 to R44); `offset`
is its intake offset. -/
def Part.encodeInto (s : Part) (i : Slot) (l : LineNo) (e : Encoder) (offset : Nat) (ch : Byte) :
    Part × EncodeResult :=
  let (es, e') := encodeChar (s.map l) (s.cfg l) e ch
  match storeCodes i es s with
  | (t, true) => (t.putEncoder i e', .taken)
  | (t, false) => (t.fault l .overrun (s.outboundFields i offset e.plane), .overrun)

/-- An office character of the caller's text taken in for the story in slot `i` of line `l` (R39). -/
def Part.takeChar (s : Part) (i : Slot) (l : LineNo) (e : Encoder) (offset : Nat) (ch : Byte) :
    Part × EncodeResult :=
  let m := s.map l
  if ch = officeCR then (s, .taken)
  else
    let k := charClass m ch
    let f := s.outboundFields i offset e.plane
    match admissionOf s.settings.admission (s.cfg l).profile true k with
    | .pass =>
      if k = .unassigned then (s.fault l .admission f).encodeInto i l e offset m.subst
      else s.encodeInto i l e offset ch
    | .substitute => (s.fault l .admission f).encodeInto i l e offset m.subst
    | .drop => (s.fault l .admission f, .taken)
    | .refuse => (s.fault l .admission f, .refused)

/-- The closing shift of a story whose encode plane is not LTRS (R45): the LTRS code, bearing the
line-end mark if the code before it bore it. -/
def Part.closingShift (s : Part) (i : Slot) (l : LineNo) (e : Encoder) (offset : Nat) : Part × EncodeResult :=
  if e.plane = .ltrs then (s, .taken)
  else
    match s.record i with
    | none => (s, .taken)
    | some r =>
      let last := s.outEntry r (r.count - 1)
      let marked := decide (0 < r.count) && last.mark
      match s.storeCode i { code := shiftCode (s.map l) .ltrs, plane := .ltrs, mark := marked } with
      | (t, true) =>
        (if marked then
          { t with mem := t.mem.write (entryAddr r.blocks (r.count - 1)) { last with mark := false }.pack }
         else t, .taken)
      | (t, false) => (t.fault l .overrun (s.outboundFields i offset e.plane), .overrun)

/-! ### Fixed texts and the bound (R46, R47) -/

/-- The characters of a text encoded one after another with no admission. -/
def encodeText (m : MapTable) (cfg : LineSettings) : List Byte → Encoder → List OutEntry × Encoder
  | [], e => ([], e)
  | ch :: rest, e =>
    if ch = officeCR then encodeText m cfg rest e
    else
      let (es, e') := encodeChar m cfg e ch
      let (fs, e'') := encodeText m cfg rest e'
      (es ++ fs, e'')

/-- The plane of the first character of a text that has one: the plane CR goes in for a LINE END (R46;
notes/assumptions/34.md). -/
def firstPlane (m : MapTable) (text : List Byte) : Option Plane :=
  match text.find? fun ch => !(ch == officeCR) with
  | some ch => chosenPlane m .ltrs (if ch = lineEnd then officeCR else ch)
  | none => none

/-- A fixed text's characters with the shift of the first one's plane before them (R46). -/
def encodeFixed (m : MapTable) (cfg : LineSettings) (text : List Byte) : List OutEntry × Plane :=
  match firstPlane m text with
  | some p =>
    let (es, e) := encodeText m cfg text { plane := p, column := 0 }
    ({ code := shiftCode m p, plane := p, mark := false } :: es, e.plane)
  | none => ([], .ltrs)

/-- An interruption or resumption text: closed with a line end sequence and, if the plane then is not
LTRS, the LTRS code; nothing for an empty text (R46). -/
def encodeNotice (m : MapTable) (cfg : LineSettings) (text : List Byte) : List Code :=
  if text = [] then []
  else
    let (es, p) := encodeFixed m cfg text
    let (le, q) := encodeLineEnd m cfg.guardShift p
    (es ++ le).map OutEntry.code ++ (if q = .ltrs then [] else [shiftCode m .ltrs])

/-- The answer-back's codes: closed after its last character (R46). -/
def encodeAnswerBack (m : MapTable) (cfg : LineSettings) (text : List Byte) : List Code :=
  (encodeFixed m cfg text).1.map OutEntry.code

/-- The fixed texts of a line (R46). -/
def encodeTexts (m : MapTable) (cfg : LineSettings) : Texts :=
  { interruption := encodeNotice m cfg cfg.interruption
    resumption := encodeNotice m cfg cfg.resumption
    answerBack := encodeAnswerBack m cfg cfg.answerBack }

/-- The reservation bound of a call of `n` characters in codes (R47). -/
def boundCodes (cfg : LineSettings) (n : Nat) : Nat :=
  2 * n + (if cfg.guardShift then 3 else 2) * ceilDiv n (cfg.width - cfg.fold)

/-- The reservation of a call of `n` characters in blocks (R47). -/
def boundBlocks (cfg : LineSettings) (n : Nat) : Nat := ceilDiv (boundCodes cfg n) Config.blockEntries

end Sys2Proof.Machine
end

