-- ==== Sys2Proof/Machine/Sending.lean ====
section
/-! DEFINITION. The send scheduler of a line (08): the queue, the pieces, preemption, the answer-back,
completion, and what a STOP and a READY do. -/

namespace Sys2Proof.Machine

/-! ### Stories as the sender reads them -/

/-- The start of the text line that holds offset `n`, or `n` itself at a line boundary, with the plane
there (R37, R135, R166). -/
def Part.lineStart (s : Part) (r : Record) : Nat → Nat × Plane
  | 0 => (0, .ltrs)
  | n + 1 => if (s.outEntry r n).mark then (n + 1, (s.outEntry r n).plane) else s.lineStart r n

/-- The codes from offset `n` to the end of its text line, inclusive, looking at no more than `k` (R135). -/
def Part.toLineEnd (s : Part) (r : Record) (n : Nat) : Nat → Nat
  | 0 => 0
  | k + 1 => if (s.outEntry r n).mark then 1 else 1 + s.toLineEnd r (n + 1) k

/-- The release group a record waits for is open, or it has none (R155). -/
def Part.groupOpen (s : Part) (x : OutRecord) : Bool :=
  match x.release with
  | none => true
  | some g => s.groups.get g

/-- A record of the queue is choosable: SUSPENDED, or QUEUED and eligible (R155). -/
def Part.choosable (s : Part) (x : OutRecord) : Bool :=
  x.state == .suspended || (x.state == .queued && s.groupOpen x)

/-- The rank of a record in queue order: priority, then SUSPENDED before QUEUED (R154). -/
def queueRank (r : Record) (x : OutRecord) : Nat := 2 * r.priority + (if x.state = .suspended then 0 else 1)

/-- The first record of the least rank among those of `is` that `p` admits, `is` being in the order of
joining (R154). -/
def Part.firstInQueue (s : Part) (p : Record → OutRecord → Bool) : List Slot → Option (Nat × Slot)
  | [] => none
  | i :: is =>
    let rest := s.firstInQueue p is
    match s.record i with
    | some r =>
      match r.body with
      | .outbound x =>
        if p r x then
          match rest with
          | some (n, j) => if n < queueRank r x then some (n, j) else some (queueRank r x, i)
          | none => some (queueRank r x, i)
        else rest
      | .inbound _ => rest
    | none => rest

/-- The record the scheduler of line `l` chooses (R155). -/
def Part.choice (s : Part) (l : LineNo) : Option Slot :=
  (s.firstInQueue (fun _ x => s.choosable x) (s.line l).sched.queue).map Prod.snd

/-- A story of priority `p` preempts one of priority `q` (R136, R160). -/
def preempts (p q : Nat) : Bool := (p == 0 && decide (1 ≤ q)) || (p == 1 && decide (2 ≤ q))

/-- The queue of line `l` holds a choosable record that would preempt a story of priority `q` (R160). -/
def Part.preemptor (s : Part) (l : LineNo) (q : Nat) : Bool :=
  (s.firstInQueue (fun r x => s.choosable x && preempts r.priority q) (s.line l).sched.queue).isSome

/-- The plane at the position of line `l`'s current story, or LTRS when it has none (R164). A HELD-BREAK
story stands at its resume point. -/
def Part.currentPlane (s : Part) (l : LineNo) : Plane :=
  match (s.line l).sched.current with
  | none => .ltrs
  | some i =>
    match s.record i with
    | none => .ltrs
    | some r =>
      match (s.line l).sched.position, r.outbound?.bind OutRecord.resume with
      | some n, some (o, p) => if n = o then p else (s.lineStart r n).2
      | some n, none => (s.lineStart r n).2
      | none, some (_, p) => p
      | none, none => .ltrs

/-! ### Codes on the sender -/

/-- The codes of the piece on the sender of line `l`, a STORY's excepted (R153, R156, R164). -/
def Part.pieceCodes (s : Part) (l : LineNo) : List Code :=
  match (s.line l).sched.piece with
  | .none | .story => []
  | .interruption => (s.line l).texts.interruption
  | .resumption => (s.line l).texts.resumption
  | .answerBack _ => (s.line l).texts.answerBack ++ [shiftCode (s.map l) (s.currentPlane l)]
  | .shift p _ => [shiftCode (s.map l) p]

/-- The code the scheduler of line `l` offers next (R157). -/
def Part.nextCode (s : Part) (l : LineNo) : Option Code :=
  let k := (s.line l).sched
  match k.piece with
  | .story =>
    match k.current.bind s.record, k.position with
    | some r, some n => if n < r.count then some (s.outEntry r n).code else none
    | _, _ => none
  | _ => (s.pieceCodes l)[k.progress]?

/-- A code begun on the send output of line `l` (R10). -/
def Part.beginCode (s : Part) (l : LineNo) (c : Code) (src : Source) : Part :=
  s.updUnit l fun x => { x with out := some { code := c, source := src, began := s.now, counts := true } }

/-- The scheduler of line `l` offers its next code: begun when the line is in IDLE, the sender RUNNING and
the output free (R10, R15). -/
def Part.offerCode (s : Part) (l : LineNo) : Part :=
  if (s.line l).unit.state = .idle ∧ (s.line l).sched.running ∧ (s.line l).unit.out = none then
    match s.nextCode l with
    | some c => s.beginCode l c .scheduler
    | none => s
  else s

/-- Piece `p` put on the sender of line `l`, its first code offered (R157). -/
def Part.startPiece (s : Part) (l : LineNo) (p : Piece) : Part :=
  (s.updSched l fun k => { k with piece := p, progress := 0 }).offerCode l

/-! ### Choosing and completing -/

/-- The sender of line `l` is free (R155). -/
def Part.senderFree (s : Part) (l : LineNo) : Bool :=
  (s.line l).sched.running && (s.line l).sched.piece == .none && (s.line l).sched.current == none

/-- The outbound record in slot `i` enters REPORTING with an outcome and the total of its CLOSE, leaves the
queue of line `l`, and requests its CLOSE (R154, R171, R172). -/
def Part.report (s : Part) (l : LineNo) (i : Slot) (o : SendOutcome) (total : Nat) : Part :=
  ((s.updOut i fun x => { x with state := .reporting, outcome := some o, total := total, resume := none }).updSched
    l fun k => { k with queue := k.queue.filter fun j => !(j == i) }).requestCall i .close

/-- Release group `g` opened or held (R158). -/
def Part.setGroup (s : Part) (g : Group) (opened : Bool) : Part := { s with groups := s.groups.set g opened }

/-- The current story of line `l` in slot `i` completes (R171), its completion group opening first (R159).
The Boolean says whether a group opened. -/
def Part.completeStory (s : Part) (l : LineNo) (i : Slot) : Part × Bool :=
  match s.record i with
  | none => (s, false)
  | some r =>
    let g := r.outbound?.bind OutRecord.completion
    let t := match g with
      | some g => s.setGroup g true
      | none => s
    ((t.updSched l fun k =>
        { k with current := none, position := none, piece := .none, progress := 0, resumptionOwed := false }).report
      l i .sent r.count, g.isSome)

/-- The resumption piece of a resumed story, or at once its SHIFT piece when the text is empty (R156). -/
def Part.startResumption (s : Part) (l : LineNo) : Part :=
  if (s.line l).texts.resumption = [] then
    (s.updSched l fun k => { k with resumptionOwed := false }).startPiece l
      (.shift (s.currentPlane l) .resumed)
  else s.startPiece l .resumption

/-- The record in slot `i` chosen by the free sender of line `l` (R156). The Boolean says whether a story
of code count 0 completed and opened its completion group. -/
def Part.choose (s : Part) (l : LineNo) (i : Slot) : Part × Bool :=
  match s.record i with
  | none => (s, false)
  | some r =>
    match r.outbound? with
    | none => (s, false)
    | some x =>
      let t := s.updOut i fun x => { x with state := .sending }
      if x.state = .suspended then
        ((t.updSched l fun k =>
          { k with current := some i, position := some ((x.resume.map Prod.fst).getD 0),
                   resumptionOwed := true }).startResumption l, false)
      else
        let t := t.updSched l fun k => { k with current := some i, position := some 0 }
        if r.count = 0 then t.completeStory l i else (t.startPiece l .story, false)

/-- One step of a free sender of line `l`: a pending answer-back first, else the choice (R155, R164). -/
def Part.freeStep (s : Part) (l : LineNo) : Option (Part × Bool) :=
  if s.senderFree l then
    if (s.line l).sched.answerBack = .pending then
      some ((s.updSched l fun k => { k with answerBack := .beingSent }).startPiece l (.answerBack false), false)
    else
      match s.choice l with
      | some i => some (s.choose l i)
      | none => none
  else none

/-- Free senders of the lines `ls` choose; a completion group that opens lets every line choose again
(R155, R158, R159), the line that opened it first (notes/assumptions/40.md). The first argument bounds the
steps: each takes a line or completes a story. -/
def settle : Nat → List LineNo → Part → Part
  | 0, _, s => s
  | _, [], s => s
  | n + 1, l :: ls, s =>
    match s.freeStep l with
    | none => settle n ls s
    | some (t, opened) => settle n (l :: (if opened then allLines ++ ls else ls)) t

/-- Enough steps for `settle`: every line once for each of 64 records and to begin with. -/
def settleFuel : Nat := 1024

/-- The free senders of `ls` choose (R155). -/
def Part.settleLines (s : Part) (ls : List LineNo) : Part := settle settleFuel ls s

/-! ### Interruption, answer-back, piece ends -/

/-- The interruption piece of R161, or the LTRS SHIFT piece in place of an empty text where the plane of
the captured resume point (`always`: any plane, R170) asks for it, or nothing. -/
def Part.startInterruption (s : Part) (l : LineNo) (always : Bool) : Part :=
  if (s.line l).texts.interruption = [] then
    if always ∨ (s.line l).sched.interruptionOwed ≠ some .ltrs then
      s.startPiece l (.shift .ltrs .interruption)
    else (s.updSched l fun k => { k with interruptionOwed := none, piece := .none, progress := 0 }).settleLines [l]
  else s.startPiece l .interruption

/-- The answer-back piece begun (R164). -/
def Part.startAnswerBack (s : Part) (l : LineNo) (atReady : Bool) : Part :=
  (s.updSched l fun k => { k with answerBack := .beingSent }).startPiece l (.answerBack atReady)

/-- Steps 2 to 4 of R170. -/
def Part.resumeAtReady (s : Part) (l : LineNo) : Part :=
  let k := (s.line l).sched
  match k.current with
  | some i =>
    let n := ((s.outRecord i).bind OutRecord.resume).map Prod.fst
    let t := (s.updOut i fun x => { x with state := .sending }).updSched l fun k => { k with position := n }
    if k.resumptionOwed then t.startResumption l
    else t.startPiece l (.shift (t.currentPlane l) .held)
  | none =>
    if k.interruptionOwed.isSome then s.startInterruption l true
    else s.startPiece l (.shift .ltrs .ready)

/-- The piece on the sender of line `l` has ended: it becomes none and the next step follows (R156, R157,
R161, R164, R170). -/
def Part.endPiece (s : Part) (l : LineNo) : Part :=
  let piece := (s.line l).sched.piece
  let t := s.updSched l fun k => { k with piece := .none, progress := 0 }
  match piece with
  | .none | .story => t
  | .interruption | .shift _ .interruption =>
    (t.updSched l fun k => { k with interruptionOwed := none }).settleLines [l]
  | .resumption =>
    (t.updSched l fun k => { k with resumptionOwed := false }).startPiece l (.shift (t.currentPlane l) .resumed)
  | .shift _ .resumed | .shift _ .held => t.startPiece l .story
  | .shift _ .ready => t.settleLines [l]
  | .answerBack atReady =>
    let t := t.updSched l fun k => { k with answerBack := .clear }
    if atReady then t.resumeAtReady l
    else if t.senderFree l then
      if (t.line l).sched.interruptionOwed.isSome then t.startInterruption l false else t.settleLines [l]
    else t.startPiece l .story

/-- The current story of line `l` in slot `i` suspended before offset `n`, where the plane is `p` (R160). -/
def Part.suspend (s : Part) (l : LineNo) (i : Slot) (n : Nat) (p : Plane) : Part :=
  (s.updOut i fun x => { x with state := .suspended, resume := some (n, p) }).updSched l fun k =>
    { k with current := none, position := none, piece := .none, progress := 0, interruptionOwed := some p }

/-- The current story of line `l`, record `r` in slot `i`, stands at a line end before offset `n` in plane
`p`: preemption test, answer-back, interruption or next code (R157). -/
def Part.atLineEnd (s : Part) (l : LineNo) (i : Slot) (r : Record) (n : Nat) (p : Plane) : Part :=
  let pre := s.preemptor l r.priority
  let t := if pre then s.suspend l i n p else s
  if (t.line l).sched.answerBack = .pending then t.startAnswerBack l false
  else if pre then t.startInterruption l false
  else t.offerCode l

/-- A counted SENT report for a code of the piece on the sender of line `l` (R157, R171). DEDUCED: when a
completion opens its group, this line's sender chooses first, and then every line in the order of its number
(R159; notes/assumptions/40.md). -/
def Part.reportSent (s : Part) (l : LineNo) : Part :=
  let k := (s.line l).sched
  match k.piece with
  | .none => s
  | .story =>
    match k.current, k.position with
    | some i, some n =>
      match s.record i with
      | none => s
      | some r =>
        let t := s.updSched l fun k => { k with position := some (n + 1) }
        if n + 1 = r.count then
          let (t, opened) := t.completeStory l i
          t.settleLines (l :: if opened then allLines else [])
        else if (s.outEntry r n).mark then t.atLineEnd l i r (n + 1) (s.outEntry r n).plane
        else t.offerCode l
    | _, _ => s
  | _ =>
    let t := s.updSched l fun k => { k with progress := k.progress + 1 }
    if k.progress + 1 < (s.pieceCodes l).length then t.offerCode l else t.endPiece l

/-! ### STOP, READY and LINE-RESTART at the scheduler -/

/-- The current story of line `l`, if in SENDING, enters HELD-BREAK (R166): during a resumption or its
SHIFT piece the resume point stays, and after a resumption piece resumption is owed again; else the
resume point is the start of the current text line. `piece` is the piece the STOP found. -/
def Part.holdStory (s : Part) (l : LineNo) (piece : Piece) : Part :=
  match (s.line l).sched.current with
  | none => s
  | some i =>
    match s.record i with
    | none => s
    | some r =>
      match r.outbound? with
      | none => s
      | some x =>
        if x.state = .sending then
          let keep := match piece with
            | .resumption | .shift _ .resumed | .shift _ .held => true
            | _ => false
          let point := if keep then x.resume else
            (s.line l).sched.position.map fun n => s.lineStart r n
          (s.updOut i fun x => { x with state := .heldBreak, resume := point }).updSched l fun k =>
            { k with position := none
                     resumptionOwed := match piece with
                       | .shift _ .resumed => true
                       | _ => k.resumptionOwed }
        else s

/-- The current story of line `l`, if in SENDING, is abandoned (R167, R172). -/
def Part.abandonStory (s : Part) (l : LineNo) : Part :=
  match (s.line l).sched.current with
  | none => s
  | some i =>
    match s.outRecord i with
    | none => s
    | some x =>
      if x.state = .sending then
        ((s.updSched l fun k => { k with current := none, position := none, resumptionOwed := false }).report
          l i .abandoned ((s.line l).sched.position.getD 0))
      else s

/-- What a STOP does to the pieces of line `l` (R165): status STOPPED, the piece off the sender and owed
again. -/
def Part.stopPieces (s : Part) (l : LineNo) : Part :=
  s.updSched l fun k =>
    { k with running := false, piece := .none, progress := 0,
             answerBack := if k.answerBack = .beingSent then .pending else k.answerBack }

/-- The total of the CLOSE of a record that LINE-RESTART abandons (R172). -/
def abandonTotal (x : OutRecord) (position : Option Nat) : Nat :=
  match x.state with
  | .sending => position.getD 0
  | .heldBreak | .suspended => (x.resume.map Prod.fst).getD 0
  | _ => 0

/-- Every record of the queue of line `l` enters REPORTING with outcome ABANDONED, and the scheduler is
cleared (R173). DEDUCED: the CLOSE requests join the send list in the order of the queue, which settles those of
equal class and call number (R183; notes/assumptions/44.md). -/
def Part.abandonQueue (s : Part) (l : LineNo) : Part :=
  let k := (s.line l).sched
  let t := s.forSlots k.queue fun i s =>
    match s.outRecord i with
    | some x => s.report l i .abandoned (abandonTotal x k.position)
    | none => s
  t.updSched l fun _ => Sched.blank

/-- A STOP indication of cause `c` as the scheduler of line `l` takes it (R165 to R169, R173). -/
def Part.schedStop (s : Part) (l : LineNo) (c : StopCause) : Part :=
  let piece := (s.line l).sched.piece
  let t := s.stopPieces l
  match c with
  | .brk => if (s.cfg l).abandon then t.abandonStory l else t.holdStory l piece
  | .lineOpen => t
  | .lineOut | .loop | .test => t.holdStory l piece
  | .lineRestart => t.abandonQueue l

/-- READY as the scheduler of line `l` takes it (R170). -/
def Part.schedReady (s : Part) (l : LineNo) : Part :=
  let t := s.updSched l fun k => { k with running := true }
  if (t.line l).sched.answerBack = .pending then t.startAnswerBack l true else t.resumeAtReady l

/-! ### The line unit's side of a STOP -/

/-- A stop cause given to the scheduler of line `l` (R11): its code on the output runs on under CHARACTER
and is off the output under IMMEDIATE and at LINE-RESTART; either way its report no longer counts
(R12, R13, R165). Under IMMEDIATE a code whose stop element has begun, six unit intervals after its
start, is reported SENT, else CUT. -/
def Part.stop (s : Part) (l : LineNo) (c : StopCause) : Part :=
  let immediate := (s.cfg l).immediate
  let t := s.updUnit l fun x =>
    match x.out with
    | some o =>
      if o.source = .scheduler then
        if c = .lineRestart then { x with out := none, lastReport := some .cut }
        else if o.counts then
          if immediate then
            { x with out := none
                     lastReport := some (if 12 * (s.cfg l).u ≤ s.now - o.began then .sent else .cut) }
          else { x with out := some { o with counts := false } }
        else x
      else x
    | none => x
  (t.updUnit l fun x => { x with awaitReady := true, lastStop := some c }).schedStop l c

end Sys2Proof.Machine
end

