-- ==== Sys2Proof/Machine/Assembly.lean ====
section
/-! DEFINITION. The heading recognizer and assembler of a line (03), the decision at heading completion
and the takeover (06). -/

namespace Sys2Proof.Machine

/-! ### Requests of an inbound record (3.6, 6.5) -/

/-- The unsent characters of a carried record ask for a TEXT (R64). -/
def Part.textDue (s : Part) (r : Record) (x : InRecord) : Bool :=
  let unsent := r.count - x.cursor
  decide (1 ≤ unsent) &&
    (decide (64 ≤ unsent) || r.closed ||
      (decide (r.priority ≤ 1) && (s.entries r x.cursor unsent).contains lineEnd))

/-- The TEXT or CLOSE that the inbound record in slot `i` asks for when it has no request on the send list
(R64, R66, R127). With no request there, a CARRYING or RERUNNING record's OFFER has been sent. -/
def Part.requestNext (s : Part) (i : Slot) : Part :=
  if s.hasRequest (.record i) then s
  else
    match s.record i with
    | none => s
    | some r =>
      match r.body with
      | .outbound _ => s
      | .inbound x =>
        match x.state with
        | .carrying =>
          if !x.quiet && s.textDue r x then s.requestStory i .text
          else if r.closed && (x.quiet || x.cursor == r.count) then s.requestStory i .close
          else s
        | .rerunning => if x.cursor < r.count then s.requestStory i .text else s.requestStory i .close
        | _ => s

/-- A closed CARRYING record whose count is below its bus cursor has the cursor lowered to it (R124). -/
def lowerCursor (r : Record) : Record :=
  r.mapIn fun x => if x.state = .carrying ∧ r.closed ∧ r.count < x.cursor then { x with cursor := r.count } else x

/-- The takeover of the standby record in slot `i` (R123, R124). -/
def Part.takeover (s : Part) (i : Slot) : Part :=
  ((s.updIn i fun x =>
      { x with state := .carrying, takeover := true,
               cursor := (x.peer.map Peer.progress).getD x.cursor, peer := none }).updRecord i
    lowerCursor).requestStory i .offer

/-- The standby record in slot `i` takes over when its silence timer has run 20 s, its quiet flag is clear
and its count exceeds its peer progress (R122, third condition). -/
def Part.silentTakeover (s : Part) (i : Slot) : Part :=
  match s.record i with
  | none => s
  | some r =>
    match r.body with
    | .outbound _ => s
    | .inbound x =>
      match x.peer with
      | some p =>
        if (x.state = .standby ∨ x.state = .standbyComplete) ∧ p.past20 ∧ ¬x.quiet ∧ p.progress < r.count then
          s.takeover i
        else s
      | none => s

/-! ### The recognizer's states (3.1) -/

/-- The recognizer of line `l` enters OUTSIDE: nothing held, the stall timer stopped, STALL low (R48,
R67, R71). -/
def Part.goOutside (s : Part) (l : LineNo) : Part :=
  (s.updRecog l fun _ => Recog.blank).setCond l .stall false

/-- The recognizer of line `l` enters DISCARDING with no record tied and the stall timer started afresh
(R67); what it holds at a line start stays held (notes/assumptions/21.md). DEDUCED: the heading buffer is
emptied (notes/assumptions/35.md). -/
def Part.goDiscarding (s : Part) (l : LineNo) : Part :=
  s.updRecog l fun r =>
    { r with state := .discarding, window := [], heading := [], tied := none, overrun := false,
             stallSince := some s.now }

/-- The fields of an assembler fault about the record in slot `i` (R73); `serial` is absent for HEADING. -/
def Part.storyFields (s : Part) (l : LineNo) (i : Slot) (serial : Option Nat) : FaultFields :=
  { handle := some (s.handle i), serial := serial,
    offset := ((s.record i).map Record.count).getD 0, raw := none, plane := (s.line l).plane }

/-- The record in slot `i` freed and its tie to line `l` ended (R57). -/
def Part.freeTied (s : Part) (l : LineNo) (i : Slot) : Part :=
  (s.freeRecord i).updRecog l fun r => { r with tied := none }

/-- An inbound record at its allocation for line `l` (R54). -/
def inboundAtAllocation (l : LineNo) (service : Nat) : Record :=
  { line := some l, priority := 3, blocks := [], count := 0
    body := .inbound
      { state := .opening, service := service, serial := none, category := 31, slug := [], disp := none,
        cursor := 0, mutilation := 0, truncated := false, overrun := false, headingFault := false,
        rerun := false, quiet := false, takeover := false, referenced := none, peer := none } }

/-- A story opened on line `l` (R55): a record tied to the line and OPENING, or fault OVERRUN and
DISCARDING. -/
def Part.openStory (s : Part) (l : LineNo) : Part :=
  match s.findSlot with
  | (t, some i) =>
    (t.setRecord i (some (inboundAtAllocation l (t.cfg l).service))).updRecog l fun _ =>
      { Recog.blank with state := .opening, tied := some i, stallSince := some s.now }
  | (t, none) =>
    ((t.updRecog l fun r => { r with lineStart := false, lookahead := [] }).goDiscarding l).fault l .overrun
      { handle := none, serial := none, offset := 0, raw := none, plane := (t.line l).plane }

/-! ### Close paths (3.8) -/

/-- The story that line `l` assembles is closed, truncated or not; the tie ends (R57, R70). The state the
recognizer enters is the caller's. -/
def Part.closeStory (s : Part) (l : LineNo) (truncated : Bool) : Part :=
  match (s.line l).recog.tied with
  | none => s
  | some i =>
    let serial := (s.inRecord i).bind InRecord.serial
    let t := if truncated then
        (s.updIn i fun x => { x with truncated := true }).fault l .truncated (s.storyFields l i serial)
      else s
    let t := match (s.inRecord i).map InRecord.state with
      | some .opening =>
        (if truncated then t else t.fault l .heading (s.storyFields l i none)).freeRecord i
      | some .carrying =>
        ((t.updRecord i fun r => { r with line := none }).updRecord i lowerCursor).requestNext i
      | some .standby =>
        (t.updRecord i fun r => { r with line := none }).updIn i fun x => { x with state := .standbyComplete }
      | _ => t
    t.updRecog l fun r => { r with tied := none }

/-- A line cause on the assembly of line `l` (R71). -/
def Part.lineCause (s : Part) (l : LineNo) : Part :=
  let t := match (s.line l).recog.tied with
    | none => s
    | some i =>
      match (s.inRecord i).map InRecord.state with
      | some .carrying =>
        if (s.requestOf (.record i)).map Request.kind = some FrameKind.offer then s.freeRecord i
        else
          (((s.removeRequest (.record i)).updRecord i fun r => { r with line := none }).updIn i fun x =>
            { x with state := .withdrawing }).requestStory i .withdraw
      | some .opening | some .standby => s.freeRecord i
      | _ => s
  t.goOutside l

/-! ### Headings (3.4, 3.5) -/

/-- The value of a digit, office 48 to 57, of a serial; the map's substitute character is none (R59). -/
def digitValue (subst c : Byte) : Option Nat :=
  if c ≠ subst ∧ 48 ≤ c.toNat ∧ c.toNat ≤ 57 then some (c.toNat - 48) else none

/-- The digits at the head of a buffer: their number, their value, and the rest (R59). -/
def leadingDigits (subst : Byte) : List Byte → Nat → Nat → Nat × Nat × List Byte
  | [], n, v => (n, v, [])
  | c :: cs, n, v =>
    match digitValue subst c with
    | some d => leadingDigits subst cs (n + 1) (10 * v + d)
    | none => (n, v, c :: cs)

/-- The priority of a heading letter (00, Story priorities). -/
def priorityOfLetter (c : Byte) : Option Nat :=
  match c.toNat with
  | 70 => some 0
  | 66 => some 1
  | 85 => some 2
  | 82 => some 3
  | 68 => some 4
  | 83 => some 5
  | _ => none

/-- What a heading that satisfies the syntax sets (R59). -/
structure Heading where
  serial : Nat
  priority : Nat
  category : Nat
  slug : List Byte
deriving DecidableEq, Repr

/-- A heading buffer read against the syntax, on a line whose map has the substitute character `subst`: one in
the serial, priority or category part fails (R59). DEDUCED: the buffer holds office characters alone, so that
a character equal to the substitute is one, however it came (notes/assumptions/41.md). -/
def readHeading (subst : Byte) (buf : List Byte) : Option Heading :=
  match leadingDigits subst buf 0 0 with
  | (n, v, sep :: p :: c :: rest) =>
    if 1 ≤ n ∧ n ≤ 4 ∧ 1 ≤ v ∧ sep = officeSpace ∧ p ≠ subst ∧ c ≠ subst ∧ 65 ≤ c.toNat ∧ c.toNat ≤ 90 then
      match priorityOfLetter p, rest with
      | some prio, [] => some { serial := v, priority := prio, category := c.toNat - 65, slug := [] }
      | some prio, sp :: slug =>
        if sp = officeSpace then
          some { serial := v, priority := prio, category := c.toNat - 65, slug := slug.take 24 }
        else none
      | none, _ => none
    else none
  | _ => none

/-- A routing key (R62). -/
def routingKey (service category priority : Nat) : Nat := service * 256 + category * 8 + priority

/-- The disposition of a key among the ranges, or the default (R62, R63). -/
def dispositionOf (ranges : List DispRange) (dflt : Disposition) (key : Nat) : Disposition :=
  let hit := (ranges.filter fun r => decide (r.base ≤ key) && decide (key < r.base + r.size)).map DispRange.disp
  if hit.contains .discard then .discard
  else if hit.contains .quiet then .quiet
  else if hit.contains .carry then .carry
  else dflt

/-- The disposition of an inbound story; FLASH is always carried (R63). -/
def Part.disposition (s : Part) (service category priority : Nat) : Disposition :=
  if priority = 0 then .carry
  else dispositionOf s.settings.ranges s.settings.defaultDisp (routingKey service category priority)

/-- The register entry of a key (R108). -/
def Part.entryOf (s : Part) (service serial : Nat) : Option Entry :=
  s.register.find? fun e => e.service == service && e.serial == serial

/-- The station holds another record of the key than slot `i` in CARRYING, STANDBY or STANDBY-COMPLETE
(R113, case 1). -/
def Part.holdsKey (s : Part) (i : Slot) (service serial : Nat) : Bool :=
  allSlots.any fun j => !(j == i) &&
    match s.inRecord j with
    | some x => x.service == service && x.serial == some serial &&
        (x.state == .carrying || x.state == .standby || x.state == .standbyComplete)
    | none => false

/-- The endings of the heading-completion decision (R113). -/
inductive Decision where
  | carry (quiet : Bool)
  | standby (e : Entry)
  | peerCarried
  | duplicate
deriving DecidableEq, Repr

/-- The decision on a story of slot `i` with a serial (R113); `quiet`: its disposition is QUIET;
`dup`: the tracker's verdict was duplicate. -/
def Part.headingDecision (s : Part) (i : Slot) (service serial : Nat) (quiet dup : Bool) : Decision :=
  if s.holdsKey i service serial then .duplicate
  else
    match s.entryOf service serial with
    | some e =>
      if e.state = .closed then .peerCarried
      else if e.state = .live ∧ e.owner.station ≠ s.number then
        if e.quiet ∧ ¬quiet then .carry false else .standby e
      else if dup then .duplicate else .carry quiet
    | none => if dup then .duplicate else .carry quiet

/-- A record placed in standby behind an owner: STANDBY-COMPLETE when its story has closed (R115, R117,
R118). -/
def Part.standBehind (s : Part) (i : Slot) (owner : Handle) (progress : Nat) (quiet : Bool) : Part :=
  s.updRecord i fun r => r.mapIn fun x =>
    { x with state := if r.closed then .standbyComplete else .standby, cursor := 0, quiet := quiet,
             peer := some { owner := owner, progress := progress, since := s.now, past20 := false } }

/-- The decision carried out on the record in slot `i` of line `l` (R61, R114 to R116). DEDUCED: on entry
to TEXT the recognizer's heading buffer stays as it is (notes/assumptions/35.md). -/
def Part.carryOut (s : Part) (l : LineNo) (i : Slot) (serial : Option Nat) (d : Decision) : Part :=
  match d with
  | .carry quiet =>
    ((s.updIn i fun x => { x with state := .carrying, quiet := quiet }).requestStory i .offer).updRecog l
      fun r => { r with state := .text }
  | .standby e =>
    (s.standBehind i e.owner e.progress e.quiet).updRecog l fun r => { r with state := .text }
  | .peerCarried => (s.freeTied l i).goDiscarding l
  | .duplicate => ((s.fault l .duplicate (s.storyFields l i serial)).freeTied l i).goDiscarding l

/-- Heading completion on line `l` for the record in slot `i` (R59 to R61, R102). -/
def Part.completeHeading (s : Part) (l : LineNo) (i : Slot) : Part :=
  let service := (s.cfg l).service
  let h := readHeading (s.map l).subst (s.line l).recog.heading
  let t := match h with
    | some h =>
      s.updRecord i fun r => ({ r with priority := h.priority } : Record).mapIn fun x =>
        { x with serial := some h.serial, category := h.category, slug := h.slug }
    | none =>
      (s.updIn i fun x => { x with headingFault := true }).fault l .heading (s.storyFields l i none)
  let disp := match h with
    | some h => s.disposition service h.category h.priority
    | none => s.disposition service 31 3
  let serial := h.map Heading.serial
  let dup := match serial with
    | some n => t.duplicateSerial service n
    | none => false
  let t := match serial with
    | some n => t.takeSerial service n (some l) (t.storyFields l i serial)
    | none => t
  match disp with
  | .discard => (t.freeTied l i).goDiscarding l
  | d =>
    let t := t.updIn i fun x => { x with disp := some d }
    let quiet := d == .quiet
    t.carryOut l i serial (match serial with
      | some n => t.headingDecision i service n quiet dup
      | none => .carry quiet)

/-! ### Characters (3.2, 3.3) -/

/-- A character lost for want of a block (R56). -/
def Part.loseChar (s : Part) (l : LineNo) (i : Slot) : Part :=
  let t := s.updIn i fun x => { x with overrun := true }
  if (s.line l).recog.overrun then t
  else
    (t.fault l .overrun (s.storyFields l i ((s.inRecord i).bind InRecord.serial))).updRecog l fun r =>
      { r with overrun := true }

/-- A character taken as text for the record in slot `i` of line `l` (R56, R64, R69, R122). The Boolean
says that the story goes on: false at the length limit. -/
def Part.takeInto (s : Part) (l : LineNo) (i : Slot) (c : Byte) : Part × Bool :=
  if ((s.record i).map Record.count).getD 0 = Config.storyChars then
    ((s.closeStory l true).goDiscarding l, false)
  else
    match s.storeChar i c with
    | (t, true) => (((t.updRecog l fun r => { r with overrun := false }).silentTakeover i).requestNext i, true)
    | (t, false) => (t.loseChar l i, true)

/-- A character taken as text on line `l` in the recognizer's present state (R52, R56, R58). -/
def Part.takeText (s : Part) (l : LineNo) (c : Byte) : Part :=
  let s := s.updRecog l fun r => { r with lineStart := c == lineEnd }
  let g := (s.line l).recog
  match g.state, g.tied with
  | .opening, some i =>
    match s.takeInto l i c with
    | (t, true) =>
      if c = officeSpace ∨ c = lineEnd then t
      else t.updRecog l fun r => { r with state := .heading, heading := [c] }
    | (t, false) => t
  | .heading, some i =>
    match s.takeInto l i c with
    | (t, true) =>
      if c = lineEnd then t.completeHeading l i
      else
        let t := t.updRecog l fun r => { r with heading := r.heading ++ [c] }
        if g.heading.length + 1 = 80 then t.completeHeading l i else t
    | (t, false) => t
  | .text, some i => (s.takeInto l i c).1
  | _, _ => s

/-- The lookahead of line `l` released: its characters are taken as text, oldest first (R53). -/
def Part.releaseLookahead (s : Part) (l : LineNo) : Part :=
  (s.line l).recog.lookahead.foldl (fun s c => s.takeText l c)
    (s.updRecog l fun r => { r with lookahead := [], lineStart := false })

/-- A character at a line start of line `l`, or behind held ones (R52). -/
def Part.takeLookahead (s : Part) (l : LineNo) (c : Byte) : Part :=
  let held := (s.line l).recog.lookahead ++ [c]
  let cfg := s.cfg l
  if held = cfg.closing then (s.closeStory l false).goOutside l
  else if held = cfg.opening then (s.closeStory l true).openStory l
  else if held.isPrefixOf cfg.closing || held.isPrefixOf cfg.opening then
    s.updRecog l fun r => { r with lookahead := held, lineStart := false }
  else (s.updRecog l fun r => { r with lookahead := held }).releaseLookahead l

/-- The opening window after a character (R51). -/
def slideWindow (n : Nat) (w : List Byte) (c : Byte) : List Byte := (w ++ [c]).drop ((w ++ [c]).length - n)

/-- A character handed to the recognizer of line `l` while a story is open or discarded (R52, R67). -/
def Part.insideChar (s : Part) (l : LineNo) (c : Byte) : Part :=
  let t := (s.updRecog l fun r => { r with stallSince := some s.now }).setCond l .stall false
  if (t.line l).recog.lineStart || !(t.line l).recog.lookahead.isEmpty then t.takeLookahead l c
  else t.takeText l c

/-- The 300 s expiry of the stall timer of line `l` (R68). DEDUCED: where the release of the lookahead closes the
story at the length limit, whose close enters DISCARDING (R69), the expiry goes on to OUTSIDE
(notes/assumptions/42.md). -/
def Part.stallExpire (s : Part) (l : LineNo) : Part :=
  ((s.releaseLookahead l).closeStory l true).goOutside l

end Sys2Proof.Machine
end

