-- ==== Sys2Proof/Machine/Offers.lean ====
section
/-! DEFINITION. The offer register, what heard OFFER, TEXT, CLOSE and WITHDRAW frames about stories do,
and reruns (06). -/

namespace Sys2Proof.Machine

/-! ### The register (6.1) -/

/-- Entry `a` was heard before `b`, or at the same hearing and has the lower key (R110). -/
def Entry.before (a b : Entry) : Bool :=
  if a.heard ≠ b.heard then decide (a.heard < b.heard)
  else if a.order ≠ b.order then decide (a.order < b.order)
  else if a.service ≠ b.service then decide (a.service < b.service)
  else decide (a.serial < b.serial)

/-- The entry heard earliest. -/
def earliest : List Entry → Option Entry
  | [] => none
  | e :: es =>
    match earliest es with
    | some f => if f.before e then some f else some e
    | none => some e

/-- The entry a new key replaces in a full register (R110). -/
def victim (es : List Entry) : Option Entry :=
  match earliest (es.filter fun e => !(e.state == .live)) with
  | some e => some e
  | none => earliest es

/-- An entry's key. -/
def Entry.hasKey (e : Entry) (service serial : Nat) : Bool := e.service == service && e.serial == serial

/-- A new entry placed, replacing one when the register is full (R109, R110). -/
def placeEntry (es : List Entry) (e : Entry) : List Entry :=
  if es.length < Config.registerSize then es ++ [e]
  else
    match victim es with
    | some v => (es.filter fun x => !(x.hasKey v.service v.serial)) ++ [e]
    | none => [e]

/-- The register after a heard OFFER (R109): other LIVE entries of the handle become WITHDRAWN, and an
OFFER with a serial updates its key's entry or makes one. DEDUCED: they are withdrawn before a full register
chooses the entry to replace, so that one of them may be that entry (notes/assumptions/36.md). -/
def Part.registerOffer (s : Part) (o : OfferFields) : Part :=
  let other := fun e : Entry => !(o.serial == some e.serial && o.service == e.service)
  let es := s.register.map fun e =>
    if e.state = .live ∧ e.owner = o.owner ∧ other e then
      { e with state := .withdrawn, heard := s.now, order := s.hearings }
    else e
  match o.serial with
  | none => { s with register := es }
  | some n =>
    let e : Entry :=
      { service := o.service, serial := n, owner := o.owner, state := .live, quiet := o.quiet,
        progress := o.soFar, heard := s.now, order := s.hearings }
    if es.any fun x => x.hasKey o.service n then
      { s with register := es.map fun x => if x.hasKey o.service n then e else x }
    else { s with register := placeEntry es e }

/-- The LIVE entry of a handle changed by a heard frame, at the moment of hearing (R111). -/
def Part.registerFrame (s : Part) (h : Handle) (f : Entry → Entry) : Part :=
  { s with register := s.register.map fun e =>
      if e.state = .live ∧ e.owner = h then { f e with heard := s.now, order := s.hearings } else e }

/-- The progress held for a heard TEXT that ends at offset `n`. DEDUCED: a sum above 16,000 is held as 16,000,
the end of the field's range (R79, R108, R189; notes/assumptions/37.md). -/
def heldProgress (n : Nat) : Nat := min n Config.storyChars

/-- The entry after a TEXT that brings the progress to `n` (R111). -/
def Entry.progressTo (n : Nat) (e : Entry) : Entry := { e with progress := max e.progress n }

/-- The LIVE entry of a key aged to WITHDRAWN, its time last heard unchanged (R112). -/
def Part.ageEntry (s : Part) (service serial : Nat) : Part :=
  { s with register := s.register.map fun e =>
      if e.state = .live ∧ e.hasKey service serial then { e with state := .withdrawn } else e }

/-! ### Heard OFFERs and the records of the station (6.3, 6.4) -/

/-- The RERUNNING record in slot `i` returns to RECENT at the newest end of the recent list (R128). -/
def Part.endRerun (s : Part) (i : Slot) : Part :=
  let t := (s.removeRequest (.record i)).updIn i fun x => { x with state := .recent, rerun := false }
  { t with recent := t.recent ++ [i] }

/-- The record in slot `i` gives way to the sender of a heard OFFER: its request is removed and it stands
by behind the sender (R117, R118, R119). -/
def Part.yieldTo (s : Part) (i : Slot) (o : OfferFields) : Part :=
  (s.removeRequest (.record i)).standBehind i o.owner o.soFar o.quiet

/-- The standby record in slot `i` adopts the sender of a heard OFFER (R120). -/
def Part.adopt (s : Part) (i : Slot) (o : OfferFields) : Part :=
  s.updIn i fun x =>
    { x with quiet := o.quiet
             peer := x.peer.map fun p =>
               { owner := o.owner, progress := max p.progress o.soFar, since := s.now, past20 := false } }

/-- What the record in slot `i` does at another station's OFFER (R117 to R120, R128). -/
def Part.recordHearsOffer (s : Part) (o : OfferFields) (i : Slot) : Part :=
  match s.inRecord i with
  | none => s
  | some x =>
    let sameKey := x.serial.isSome && x.serial == o.serial && x.service == o.service
    let pendingOffer := (s.requestOf (.record i)).map Request.kind == some FrameKind.offer
    match x.state with
    | .carrying =>
      if sameKey then
        if pendingOffer then (if !x.quiet && o.quiet then s else s.yieldTo i o)
        else if x.quiet && !o.quiet then s.yieldTo i o
        else s
      else s
    | .rerunning => if sameKey && pendingOffer then s.endRerun i else s
    | .standby | .standbyComplete =>
      if sameKey then (if !o.quiet || x.disp == some .quiet then s.adopt i o else s)
      else if x.peer.map Peer.owner = some o.owner then s.takeover i
      else s
    | _ => s

/-- A heard OFFER taken by the register, the tracker and, from another station, by the records (R106,
R109, R187). -/
def Part.hearOffer (s : Part) (o : OfferFields) : Part :=
  let t := s.registerOffer o
  let t := match o.serial with
    | some n => t.hearSerial o.service n o.owner o.rerun
    | none => t
  if o.owner.station = s.number then t else t.forSlots allSlots fun i s => s.recordHearsOffer o i

/-- The standby record in slot `i` stands behind handle `h`. -/
def Part.standsBehind (s : Part) (i : Slot) (h : Handle) : Bool :=
  match s.inRecord i with
  | some x => (x.state == .standby || x.state == .standbyComplete) && x.peer.map Peer.owner == some h
  | none => false

/-- A TEXT of the owner that brings its progress to `n`, at the standby record in slot `i` (R120). -/
def Part.standbyText (s : Part) (h : Handle) (n : Nat) (i : Slot) : Part :=
  if s.standsBehind i h then
    s.updIn i fun x =>
      { x with peer := x.peer.map fun p => { p with progress := max p.progress n, since := s.now, past20 := false } }
  else s

/-- The owner's CLOSE at the standby record in slot `i` (R121). -/
def Part.standbyClose (s : Part) (h : Handle) (i : Slot) : Part :=
  if s.standsBehind i h then
    match (s.record i).bind Record.line with
    | some l => (s.freeTied l i).goDiscarding l
    | none => s.freeRecord i
  else s

/-- The owner's WITHDRAW at the standby record in slot `i` (R122). -/
def Part.standbyWithdraw (s : Part) (h : Handle) (i : Slot) : Part :=
  if s.standsBehind i h then s.takeover i else s

/-- A heard TEXT about a story, up to offset `n` (R111, R120). -/
def Part.hearStoryText (s : Part) (h : Handle) (n : Nat) : Part :=
  (s.registerFrame h (Entry.progressTo (heldProgress n))).forSlots allSlots fun i s =>
    s.standbyText h (heldProgress n) i

/-- A heard CLOSE about a story (R111, R121). -/
def Part.hearStoryClose (s : Part) (h : Handle) : Part :=
  (s.registerFrame h fun e => { e with state := .closed }).forSlots allSlots fun i s => s.standbyClose h i

/-- A heard WITHDRAW about a story (R111, R122). -/
def Part.hearStoryWithdraw (s : Part) (h : Handle) : Part :=
  (s.registerFrame h fun e => { e with state := .withdrawn }).forSlots allSlots fun i s => s.standbyWithdraw h i

/-- The silence timer of the standby record in slot `i` has run 20 s (R122). -/
def Part.silence20 (s : Part) (i : Slot) : Part :=
  match s.inRecord i with
  | some x =>
    if x.state = .standby ∨ x.state = .standbyComplete then
      (s.updIn i fun x => { x with peer := x.peer.map fun p => { p with past20 := true } }).silentTakeover i
    else s
  | none => s

/-- The silence timer of the standby record in slot `i` has run 120 s (R122). -/
def Part.silence120 (s : Part) (i : Slot) : Part :=
  match s.inRecord i with
  | some x => if x.state = .standby ∨ x.state = .standbyComplete then s.takeover i else s
  | none => s

/-! ### Reruns and own reports (6.5) -/

/-- The RECENT record of a key nearest the newest end (R126). -/
def Part.recentOf (s : Part) (service serial : Nat) : Option Slot :=
  s.recent.reverse.find? fun i =>
    match s.inRecord i with
    | some x => x.state == .recent && x.service == service && x.serial == some serial
    | none => false

/-- A RERUN order served (R126). -/
def Part.rerunStory (s : Part) (service serial : Nat) : Part :=
  match s.recentOf service serial with
  | none => s
  | some i =>
    (({ s with recent := s.recent.filter fun j => !(j == i) } : Part).updIn i fun x =>
      { x with state := .rerunning, referenced := some true, rerun := true, cursor := 0 }).requestStory i .offer

/-- The own CLOSE of the inbound record in slot `i` is sent: it becomes RECENT (R66, R128). -/
def Part.storyClosed (s : Part) (i : Slot) : Part :=
  match (s.inRecord i).map InRecord.state with
  | some .carrying =>
    let t := s.updIn i fun x => { x with state := .recent, referenced := some false }
    { t with recent := t.recent ++ [i] }
  | some .rerunning => s.endRerun i
  | _ => s

/-- The own TEXT of the inbound record in slot `i`, of `n` characters, is sent (R65, R127). -/
def Part.textSent (s : Part) (i : Slot) (n : Nat) : Part :=
  (s.updIn i fun x => { x with cursor := x.cursor + n }).requestNext i

end Sys2Proof.Machine
end

