-- ==== Sys2Proof/Machine/Claims.lean ====
section
/-! DEFINITION. The claim unit (07): eligibility, the bid, the claim and its endings, the intake and its
abort. -/

namespace Sys2Proof.Machine

/-! ### Eligibility (7.2) -/

/-- The slots whose outbound record satisfies `p`. -/
def Part.outSlots (s : Part) (p : Record → OutRecord → Bool) : List Slot :=
  allSlots.filter fun i =>
    match s.record i with
    | some r =>
      match r.body with
      | .outbound x => p r x
      | .inbound _ => false
    | none => false

/-- The outbound record of a call, in any state (R130). -/
def Part.callSlot (s : Part) (caller call : Nat) : Option Slot :=
  (s.outSlots fun _ x => x.caller == caller && x.call == call).head?

/-- The commitment of line `l` (R132). -/
def Part.commitment (s : Part) (l : LineNo) : Nat :=
  (s.line l).sched.queue.length
    + (s.outSlots fun r x => r.line == some l && (x.state == .claiming || x.state == .intake)).length

/-- The tests of R132 that concern the line. -/
def Part.lineMayBid (s : Part) (l : LineNo) (group : Nat) : Bool :=
  (s.cfg l).mode.sends && (s.line l).unit.state == .idle && !s.cond l .brk && !s.cond l .lineOpen &&
    (s.cfg l).groups.getLsbD group && decide (s.commitment l < Config.queueSize)

/-- The store tests of R133 that concern the line. -/
def Part.storeAdmits (s : Part) (l : LineNo) (n : Nat) : Bool :=
  decide (boundBlocks (s.cfg l) n ≤ Config.storyBlocks) && s.canReserve (boundBlocks (s.cfg l) n)

/-- Line `l` is eligible for a call (R132, R133). -/
def Part.eligible (s : Part) (l : LineNo) (c : CallFields) : Bool :=
  s.lineMayBid l c.group && s.storeAdmits l c.chars && s.recordAvailable

/-! ### The bid (7.3) -/

/-- The current story of line `l` is in its resumption piece, its SHIFT piece among it (R135). -/
def Part.inResumption (s : Part) (l : LineNo) : Bool :=
  match (s.line l).sched.piece with
  | .resumption | .shift _ .resumed | .shift _ .held => true
  | _ => false

/-- The remaining codes of the resumption piece of line `l`'s current story, its shift code among them
(R135). -/
def Part.resumptionLeft (s : Part) (l : LineNo) : Nat :=
  match (s.line l).sched.piece with
  | .resumption => (s.line l).texts.resumption.length - (s.line l).sched.progress + 1
  | .shift _ .resumed | .shift _ .held => 1
  | _ => 0

/-- The offset at which the current story stands (R135). -/
def Part.currentOffset (s : Part) (l : LineNo) (x : OutRecord) : Nat :=
  match x.state, (s.line l).sched.position with
  | .heldBreak, _ => (x.resume.map Prod.fst).getD 0
  | _, some n => n
  | _, none => (x.resume.map Prod.fst).getD 0

/-- The codes the current story of line `l` has left in its current text line (R135). -/
def Part.leftInLine (s : Part) (l : LineNo) (r : Record) (x : OutRecord) : Nat :=
  let n := s.currentOffset l x
  if x.state = .heldBreak ∨ s.inResumption l then s.toLineEnd r n (r.count - n)
  else if n = 0 ∨ (s.outEntry r (n - 1)).mark then 0
  else s.toLineEnd r n (r.count - n)

/-- What the current story and the piece on the sender of line `l` contribute to the ahead count of a
story of priority `p` (R136, R137). -/
def Part.aheadCurrent (s : Part) (l : LineNo) (p : Nat) : Nat :=
  match (s.line l).sched.current with
  | none =>
    match (s.line l).sched.piece with
    | .interruption => (s.line l).texts.interruption.length - (s.line l).sched.progress
    | .shift _ _ => 1
    | _ => 0
  | some i =>
    match s.record i with
    | none => 0
    | some r =>
      match r.body with
      | .inbound _ => 0
      | .outbound x =>
        let remaining := r.count - s.currentOffset l x
        let left := s.leftInLine l r x
        if preempts p r.priority && decide (left < remaining) then
          s.resumptionLeft l + left + (s.line l).texts.interruption.length
        else remaining + s.resumptionLeft l

/-- What the record in slot `i` of the queue of line `l` contributes (R138). -/
def Part.aheadQueued (s : Part) (l : LineNo) (p : Nat) (i : Slot) : Nat :=
  match s.record i with
  | none => 0
  | some r =>
    match r.body with
    | .inbound _ => 0
    | .outbound x =>
      if s.groupOpen x && decide (r.priority ≤ p) then
        match x.state with
        | .queued => r.count
        | .suspended =>
          r.count - (x.resume.map Prod.fst).getD 0 + (s.line l).texts.resumption.length
        | _ => 0
      else 0

/-- What the answer-back of line `l` contributes (R138, R135). -/
def Part.aheadAnswerBack (s : Part) (l : LineNo) : Nat :=
  match (s.line l).sched.piece, (s.line l).sched.answerBack with
  | .answerBack _, _ => (s.line l).texts.answerBack.length - (s.line l).sched.progress
  | _, .pending => (s.line l).texts.answerBack.length
  | _, _ => 0

/-- The ahead count of line `l` for a story of priority `p` (R134 to R138). -/
def Part.ahead (s : Part) (l : LineNo) (p : Nat) : Nat :=
  s.aheadCurrent l p
    + (((s.line l).sched.queue.filter fun i => !((s.line l).sched.current == some i)).map
        (s.aheadQueued l p)).sum
    + s.aheadAnswerBack l

/-- The bid of an ahead count at a line's character period (R134). -/
def bidOf (c : LineSettings) (a : Nat) : Nat := min 4095 (ceilDiv (a * c.period) 200000)

/-- The bid of line `l` for a story of priority `p` (R134). -/
def Part.bid (s : Part) (l : LineNo) (p : Nat) : Nat := bidOf (s.cfg l) (s.ahead l p)

/-- The least bid and its line, the lowest-numbered at equal bids (R139). -/
def leastBid (bid : LineNo → Nat) : List LineNo → Option (Nat × LineNo)
  | [] => none
  | l :: ls =>
    match leastBid bid ls with
    | some (n, m) => if n < bid l then some (n, m) else some (bid l, l)
    | none => some (bid l, l)

/-! ### The claim (7.4, 7.5) -/

/-- A record allocated for a claim (R131). -/
def claimRecord (c : CallFields) (l : LineNo) (bid now : Nat) : Record :=
  { line := some l, priority := c.priority, blocks := [], count := 0
    body := .outbound
      { state := .claiming, caller := c.caller, call := c.call, chars := some c.chars, reservation := [],
        release := c.release, completion := c.completion,
        claim := some { bid := bid, since := some now, ending := none },
        intake := none, resume := none, outcome := none, total := 0 } }

/-- The claim made on line `l` with bid `d`: record, reservation, CLAIM request, or none of them
(R139, R140). -/
def Part.makeClaim (s : Part) (c : CallFields) (l : LineNo) (d : Nat) : Part :=
  match s.findSlot with
  | (t, none) => t
  | (t, some i) =>
    match (t.setRecord i (some (claimRecord c l d s.now))).reserve i (boundBlocks (s.cfg l) c.chars) with
    | (u, true) => u.addRequest { owner := .record i, cls := c.priority, kind := .claim, key := d }
    | (u, false) => u.freeRecord i

/-- A heard CALL judged (R130, R139). -/
def Part.hearCall (s : Part) (c : CallFields) : Part :=
  if c.chars = 0 ∨ Config.storyChars < c.chars ∨ 6 ≤ c.priority ∨ (s.callSlot c.caller c.call).isSome then s
  else
    match leastBid (fun l => s.bid l c.priority) (allLines.filter fun l => s.eligible l c) with
    | some (d, l) => s.makeClaim c l d
    | none => s

/-- The more far-reaching of two endings of a claim whose frame is let finish: freed, then aborted, then
withdrawn (notes/assumptions/18.md). -/
def ClaimEnding.worse : ClaimEnding → ClaimEnding → ClaimEnding
  | .free, _ | _, .free => .free
  | .abort, _ | _, .abort => .abort
  | .withdraw, .withdraw => .withdraw

/-- The pending claim of the record in slot `i` is ended: at once when its frame has not begun, else as
the frame's end decides (R143, R144, R151, R152). DEDUCED: the pending timer of a claim so ended stops at the
event, since its expiry would change nothing (notes/assumptions/26.md). -/
def Part.endClaim (s : Part) (i : Slot) (k : ClaimEnding) : Part :=
  match s.outRecord i with
  | none => s
  | some x =>
    if x.state = .claiming then
      if s.frameUnderWay (.record i) then
        s.updOut i fun x => { x with claim := x.claim.map fun c =>
          { c with since := none, ending := some (match c.ending with
            | some e => e.worse k
            | none => k) } }
      else s.freeRecord i
    else s

/-- The pending claims of line `l` are ended (R144, R152). -/
def Part.endClaims (s : Part) (l : LineNo) (k : ClaimEnding) : Part :=
  s.forSlots allSlots fun i s => if (s.record i).bind Record.line = some l then s.endClaim i k else s

/-- Another station's CLAIM for the call of the record in slot `i` (R142). -/
def Part.standDown (s : Part) (i : Slot) : Part :=
  match s.outRecord i with
  | some x => if x.state = .claiming then s.freeRecord i else s
  | none => s

/-- A heard CLAIM of station `n` for a call (R142). -/
def Part.hearClaim (s : Part) (n caller call : Nat) : Part :=
  if n = s.number then s
  else
    match s.callSlot caller call with
    | some i => s.standDown i
    | none => s

/-! ### Intake and abort (7.6, 7.7) -/

/-- The outbound record in slot `i` aborts: ABORTING, the count of characters, encode state and timer gone
(R80), WITHDRAW requested (R150). -/
def Part.abortIntake (s : Part) (i : Slot) : Part :=
  (s.updOut i fun x => { x with state := .aborting, chars := none, claim := none, intake := none }).requestCall i
    .withdraw

/-- The claim of the record in slot `i` is won and the record enters INTAKE (R141, R145). -/
def Part.enterIntake (s : Part) (i : Slot) : Part :=
  s.updOut i fun x =>
    { x with state := .intake, claim := none,
             intake := some { expected := 0, plane := .ltrs, column := 0, since := s.now } }

/-- The record's CLAIM is reported sent (R141, R144, R151, R152). -/
def Part.claimSent (s : Part) (i : Slot) : Part :=
  match (s.outRecord i).bind OutRecord.claim with
  | none => s
  | some c =>
    match c.ending with
    | some .abort => (s.enterIntake i).abortIntake i
    | some .free => (s.enterIntake i).freeRecord i
    | some .withdraw | none => s.enterIntake i

/-- The record's CLAIM was spoiled or lost arbitration: an ended claim is freed (R143). -/
def Part.claimNotSent (s : Part) (i : Slot) : Part :=
  match (s.outRecord i).bind OutRecord.claim with
  | none => s
  | some c => if c.ending.isSome then s.freeRecord i else s

/-- The characters of a caller's TEXT taken in order by the intake in slot `i` of line `l`, to the first
that aborts it (R146). -/
def takeChars (i : Slot) (l : LineNo) : List Byte → Part → Part
  | [], s => s
  | c :: cs, s =>
    match (s.outRecord i).bind OutRecord.intake with
    | none => s
    | some k =>
      match s.takeChar i l { plane := k.plane, column := k.column } k.expected c with
      | (t, .taken) =>
        takeChars i l cs (t.updOut i fun x =>
          { x with intake := x.intake.map fun k => { k with expected := k.expected + 1 } })
      | (t, .refused) | (t, .overrun) => t.abortIntake i

/-- A caller's TEXT of characters `cs` at offset `o` (R146). -/
def Part.intakeText (s : Part) (i : Slot) (o : Nat) (cs : List Byte) : Part :=
  match s.record i with
  | none => s
  | some r =>
    match r.body, r.line with
    | .outbound x, some l =>
      match x.intake with
      | none => s
      | some k =>
        let s := s.updOut i fun x => { x with intake := x.intake.map fun k => { k with since := s.now } }
        if x.chars.getD 0 < o + cs.length ∨ k.expected < o then s.abortIntake i
        else takeChars i l (cs.drop (k.expected - o)) s
    | _, _ => s

/-- The intake in slot `i` completes: the story joins the queue of line `l`, its count of characters and
encode state gone (R147, R154, R80). -/
def Part.queueStory (s : Part) (i : Slot) (l : LineNo) : Part :=
  (((s.returnSurplus i).updOut i fun x => { x with state := .queued, chars := none, intake := none }).updSched l fun k =>
    { k with queue := k.queue ++ [i] }).settleLines [l]

/-- A caller's CLOSE of total `n` (R147). -/
def Part.intakeClose (s : Part) (i : Slot) (n : Nat) : Part :=
  match s.record i with
  | none => s
  | some r =>
    match r.body, r.line with
    | .outbound x, some l =>
      match x.intake with
      | none => s
      | some k =>
        if n = k.expected then
          match s.closingShift i l { plane := k.plane, column := k.column } k.expected with
          | (t, .taken) => t.queueStory i l
          | (t, .refused) | (t, .overrun) => t.abortIntake i
        else s.abortIntake i
    | _, _ => s

/-- A caller's WITHDRAW about the call of the record in slot `i` (R151). -/
def Part.callerWithdraws (s : Part) (i : Slot) : Part :=
  match s.outRecord i with
  | none => s
  | some x =>
    match x.state with
    | .claiming => s.endClaim i .free
    | .intake | .aborting => s.freeRecord i
    | _ => s

/-- LINE-RESTART of line `l` at the claim unit (R144, R152). -/
def Part.restartClaims (s : Part) (l : LineNo) : Part :=
  (s.endClaims l .abort).forSlots allSlots fun i s =>
    match s.record i with
    | some r =>
      match r.outbound? with
      | some x => if r.line = some l ∧ x.state = .intake then s.abortIntake i else s
      | none => s
    | none => s

/-- The claim pending timer of the record in slot `i` has run out (R143). -/
def Part.claimExpires (s : Part) (i : Slot) : Part :=
  match (s.outRecord i).bind OutRecord.claim with
  | some c => if c.since.isSome then s.endClaim i .withdraw else s
  | none => s

/-- The intake silence timer of the record in slot `i` has run out (R148). -/
def Part.intakeExpires (s : Part) (i : Slot) : Part :=
  match s.outRecord i with
  | some x => if x.state = .intake then s.abortIntake i else s
  | none => s

end Sys2Proof.Machine
end

