-- ==== Sys2Proof/Machine/LineUnit.lean ====
section
/-! DEFINITION. The line unit (01) with the loop detectors and the test run of a line (10): the receiver,
BREAK and LINE-OPEN, the send output, and what the line orders do to a line. -/

namespace Sys2Proof.Machine

/-! ### The send output -/

/-- The level of the send output TX of line `l`, mark true. It is driven on a SEND or TWO-WAY line of a running
station, and holds mark elsewhere (R1, R2, 11.6): space for the start element, the five elements by their weights,
then mark for the stop element (R10); mark with no code on it (notes/assumptions/31.md). -/
def Part.tx (s : Part) (l : LineNo) : Bool :=
  match (s.cfg l).mode.sends && s.loader == .running, (s.line l).unit.out with
  | true, some o =>
    let k := (s.now - o.began) / (2 * (s.cfg l).u)
    if k = 0 then false else if k ≤ 5 then o.code.getLsbD (k - 1) else true
  | _, _ => true

/-- The oldest held code of the loop resend begun, when line `l` is in LOOP and its output free (R16). -/
def Part.startResend (s : Part) (l : LineNo) : Part :=
  let x := (s.line l).unit
  match x.resend with
  | [] => s
  | c :: cs =>
    if x.state = .loop ∧ x.out = none then
      (s.updUnit l fun x => { x with resend := cs }).beginCode l c .loopResend
    else s

/-- The generator's next code begun, when line `l` is in TEST, drives its output, and that is free
(R10, R195). -/
def Part.startGenerator (s : Part) (l : LineNo) : Part :=
  let x := (s.line l).unit
  if x.state = .test ∧ (s.cfg l).mode.sends ∧ x.out = none then
    let (c, g) := (s.line l).sup.gen.make
    (s.updSup l fun y => { y with gen := g }).beginCode l c .generator
  else s

/-- The free output of line `l` takes the next code of the source that the line state gives (R10, R15). -/
def Part.pump (s : Part) (l : LineNo) : Part :=
  match (s.line l).unit.state with
  | .idle => s.offerCode l
  | .loop => s.startResend l
  | .test => s.startGenerator l
  | .outOfService | .unused => s

/-- The stop element of the code on the output of line `l` ends (R10): SENT to its source, and the next
code begins. A report of the scheduler's that a STOP has overtaken counts for nothing (R165). -/
def Part.codeSent (s : Part) (l : LineNo) : Part :=
  match (s.line l).unit.out with
  | none => s
  | some o =>
    let t := s.updUnit l fun x => { x with out := none }
    let t := if o.source = .scheduler then
        let t := t.updUnit l fun x => { x with lastReport := some .sent }
        if o.counts then t.reportSent l else t
      else t
    t.pump l

/-! ### Loop detectors (10.2) -/

/-- A detector's run after a character that matched or not (R192). -/
def runAfter (hit : Bool) (run : Nat) : Nat := if hit then run + 1 else if 8 ≤ run then run - 8 else 0

/-- Both runs of line `l` become 0 (R192). -/
def Part.clearRuns (s : Part) (l : LineNo) : Part :=
  s.updSup l fun x => { x with loopUpRun := 0, loopDownRun := 0 }

/-- The mark-run count of line `l` starts at its entry to IDLE when the input is at mark (R14). -/
def Part.restartMarkRun (s : Part) (l : LineNo) : Part :=
  s.updUnit l fun x => { x with markSince := if s.mark l then some s.now else none }

/-- Line `l` moves to a state: the loop resend emptied and both runs 0 (R16, R192). -/
def Part.moveLine (s : Part) (l : LineNo) (st : LineState) : Part :=
  (s.updUnit l fun x => { x with state := st, resend := [] }).clearRuns l

/-- Line `l` enters LOOP (R193). -/
def Part.enterLoop (s : Part) (l : LineNo) : Part :=
  ((((s.stop l .loop).endClaims l .withdraw).moveLine l .loop).updRecog l fun r =>
    { r with window := [] }).setCond l .loop true

/-- Line `l` leaves LOOP for IDLE (R194). DEDUCED: the list of codes to resend is emptied with the code in it whose
character completed the loop-down run (notes/assumptions/43.md). -/
def Part.exitLoop (s : Part) (l : LineNo) : Part :=
  ((s.moveLine l .idle).setCond l .loop false).restartMarkRun l

/-- A character counted by the loop detector of line `l`'s state (R192 to R194). -/
def Part.loopChar (s : Part) (l : LineNo) (c : Byte) : Part :=
  let cfg := s.cfg l
  let x := (s.line l).sup
  match (s.line l).unit.state with
  | .idle =>
    match cfg.mode, cfg.loopUp with
    | .twoWay, some k =>
      let n := runAfter (c == k) x.loopUpRun
      if n = cfg.loopN then s.enterLoop l else s.updSup l fun x => { x with loopUpRun := n }
    | _, _ => s
  | .loop =>
    match cfg.loopDown with
    | some k =>
      let n := runAfter (c == k) x.loopDownRun
      if n = cfg.loopN then s.exitLoop l else s.updSup l fun x => { x with loopDownRun := n }
    | none => s
  | _ => s

/-! ### Codes handed on (R6) -/

/-- A character handed to the recognizer of line `l` (R49, R51, R52). -/
def Part.recogChar (s : Part) (l : LineNo) (c : Byte) : Part :=
  if (s.line l).unit.state = .loop then s.loopChar l c
  else if (s.line l).recog.state = .outside then
    let w := slideWindow (s.cfg l).opening.length (s.line l).recog.window c
    if w = (s.cfg l).opening then s.openStory l
    else (s.updRecog l fun r => { r with window := w }).loopChar l c
  else s.insideChar l c

/-- A code decoded on line `l`; an answer-back request that it raises is taken by a free sender, and the
character it yields goes to the recognizer (R27 to R35, R163). -/
def Part.takeCode (s : Part) (l : LineNo) (code : Code) (framing : Bool) : Part :=
  let (t, c) := s.decode l code framing
  let t := if (t.line l).sched.answerBack = (s.line l).sched.answerBack then t else t.settleLines [l]
  match c with
  | some c => t.recogChar l c
  | none => t

/-- A code appended to the loop resend, if it holds fewer than two; begun at once when the output is free
(R16). -/
def Part.appendResend (s : Part) (l : LineNo) (code : Code) : Part :=
  (s.updUnit l fun x => { x with resend := if x.resend.length < 2 then x.resend ++ [code] else x.resend }).startResend l

/-- The FRAMING occurrence of a code handed on with a framing flag (R6). -/
def Part.framingOccurs (s : Part) (l : LineNo) (framing : Bool) : Part :=
  if framing then s.occur l .framing else s

/-- A code handed on by the receiver of line `l` (R6). In LOOP it joins the resend before it is decoded
(notes/assumptions/43.md). -/
def Part.handOn (s : Part) (l : LineNo) (code : Code) (framing : Bool) : Part :=
  match (s.line l).unit.state with
  | .idle => (s.framingOccurs l framing).takeCode l code framing
  | .loop => ((s.framingOccurs l framing).appendResend l code).takeCode l code framing
  | .test => (s.framingOccurs l framing).checkCode l code
  | .outOfService | .unused => s

/-! ### The receiver and its timers (1.2, 1.3) -/

/-- The receive input of line `l` changes to `level` (11.6). -/
def Part.setRx (s : Part) (l : LineNo) (level : Bool) : Part := { s with rx := s.rx.set l level }

/-- Code assembly runs on line `l` (R1). -/
def Part.assembles (s : Part) (l : LineNo) : Bool := s.active l && (s.cfg l).mode.receives

/-- The input of line `l` goes to space (R3, R7, R8, R14). -/
def Part.toSpace (s : Part) (l : LineNo) : Part :=
  if s.mark l then
    let t := s.setRx l false
    if s.active l then
      let t := t.updUnit l fun x =>
        { x with spaceSince := some s.now, markSince := none, clearSince := none }
      if s.assembles l && (s.line l).unit.rcv == .hunt then
        t.updUnit l fun x => { x with rcv := .start, refTime := s.now }
      else t
    else t
  else s

/-- The input of line `l` goes to mark (R5, R7, R8, R14). -/
def Part.toMark (s : Part) (l : LineNo) : Part :=
  if s.mark l then s
  else
    let t := s.setRx l true
    if s.active l then
      let x := (s.line l).unit
      let t := t.updUnit l fun x =>
        { x with spaceSince := none, markSince := some s.now, held := false
                 clearSince := if s.cond l .lineOpen then some s.now else none
                 rcv := if x.rcv = .waitMark then .hunt else x.rcv }
      let t := if x.rcv = .waitMark ∧ x.held then t.handOn l 0 true else t
      t.setCond l .brk false
    else t

/-- The start check of line `l` (R3). -/
def Part.checkStart (s : Part) (l : LineNo) : Part :=
  if s.assembles l && (s.line l).unit.rcv == .start then
    if s.mark l then s.updUnit l fun x => { x with rcv := .hunt }
    else s.updUnit l fun x => { x with rcv := .data, sampled := 0, acc := 0 }
  else s

/-- The sample of a data element of line `l` (R4). -/
def Part.sampleData (s : Part) (l : LineNo) : Part :=
  if s.assembles l && (s.line l).unit.rcv == .data then
    s.updUnit l fun x =>
      { x with acc := if s.mark l then x.acc ||| BitVec.twoPow 5 x.sampled else x.acc
               sampled := x.sampled + 1
               rcv := if x.sampled + 1 = 5 then .stop else .data }
  else s

/-- The stop sample of line `l` (R4, R5). -/
def Part.sampleStop (s : Part) (l : LineNo) : Part :=
  let code := (s.line l).unit.acc
  if s.assembles l && (s.line l).unit.rcv == .stop then
    if s.mark l then (s.updUnit l fun x => { x with rcv := .hunt }).handOn l code false
    else if code = 0 then s.updUnit l fun x => { x with rcv := .waitMark, held := true }
    else (s.updUnit l fun x => { x with rcv := .waitMark }).handOn l code true
  else s

/-- BREAK rises on line `l` (R5, R7, R11, R144). -/
def Part.raiseBreak (s : Part) (l : LineNo) : Part :=
  if s.active l && (s.line l).unit.spaceSince.isSome && !s.cond l .brk then
    let t := (s.updUnit l fun x => { x with held := false }).setCond l .brk true
    let t := if (s.line l).unit.state = .idle then t.stop l .brk else t
    t.endClaims l .withdraw
  else s

/-- The test checker of line `l` is OUT (R197, R198). -/
def Part.checkerOut (s : Part) (l : LineNo) : Part :=
  (s.updSup l fun x => { x with chk := x.chk.out }).setCond l .testSync false

/-- LINE-OPEN rises on line `l` (R8, R11, R71, R144, R194, R197). -/
def Part.raiseLineOpen (s : Part) (l : LineNo) : Part :=
  if s.active l && (s.line l).unit.spaceSince.isSome && s.cond l .brk && !s.cond l .lineOpen then
    let t := s.setCond l .lineOpen true
    let t := match (s.line l).unit.state with
      | .idle => t.stop l .lineOpen
      | .loop => t.exitLoop l
      | .test => t.checkerOut l
      | _ => t
    (t.endClaims l .withdraw).lineCause l
  else s

/-- LINE-OPEN falls on line `l` (R8). -/
def Part.lowerLineOpen (s : Part) (l : LineNo) : Part :=
  if s.active l && (s.line l).unit.clearSince.isSome && s.cond l .lineOpen then
    (s.updUnit l fun x => { x with clearSince := none }).setCond l .lineOpen false
  else s

/-- All that READY asks of line `l` holds but the 2 s (R14). -/
def Part.awaitsReady (s : Part) (l : LineNo) : Bool :=
  s.active l && (s.line l).unit.state == .idle && !s.cond l .brk && !s.cond l .lineOpen &&
    (s.line l).unit.markSince.isSome && (s.line l).unit.awaitReady

/-- READY on line `l` (R14, R170); on a RECEIVE line it has no effect. -/
def Part.giveReady (s : Part) (l : LineNo) : Part :=
  if s.awaitsReady l then
    let t := s.updUnit l fun x => { x with awaitReady := false }
    if (s.cfg l).mode.sends then t.schedReady l else t
  else s

/-! ### What the line orders do to a line (1.6) -/

/-- A test run of line `l` ends (R198). -/
def Part.endTest (s : Part) (l : LineNo) : Part :=
  (s.updSup l fun x => { x with gen := { x.gen with insert := false } }).checkerOut l

/-- A LOOP or TEST of line `l` ends as the line moves to `st` (R194, R198). -/
def Part.leaveFor (s : Part) (l : LineNo) (st : LineState) : Part :=
  let t := s.moveLine l st
  match (s.line l).unit.state with
  | .loop => t.setCond l .loop false
  | .test => t.endTest l
  | _ => t

/-- LINE-OUT at line `l` (R17). -/
def Part.lineOut (s : Part) (l : LineNo) : Part :=
  if s.active l then
    match (s.line l).unit.state with
    | .idle | .loop | .test =>
      (((s.stop l .lineOut).leaveFor l .outOfService).endClaims l .withdraw).lineCause l
    | .outOfService | .unused => s
  else s

/-- LINE-IN at line `l` (R18). -/
def Part.lineIn (s : Part) (l : LineNo) : Part :=
  if s.active l && (s.line l).unit.state == .outOfService then
    ((s.moveLine l .idle).setPlane l .ltrs).restartMarkRun l
  else s

/-- Line `l`'s unit as LINE-RESTART leaves it: as at entry to service (R9, R19). -/
def LineUnit.restarted (x : LineUnit) (mark : Bool) (now : Nat) : LineUnit :=
  { x with state := .idle, rcv := if mark then .hunt else .waitMark, sampled := 0, acc := 0, held := false
           spaceSince := if mark then none else some now
           markSince := if mark then some now else none
           clearSince := none, awaitReady := true, out := none, resend := [] }

/-- Conditions in the order of their places (R190). -/
def allConditions : List Condition :=
  [.lineOpen, .brk, .loop, .testSync, .degraded, .countFull, .gap, .stall]

/-- A line's supervision state as LINE-RESTART leaves it, but for the levels, the changed set and the
checker's register (R207). -/
def Supervision.restarted (x : Supervision) : Supervision :=
  { x with counter := 0, snapshot := 0, unreported := false, faults := Vector.replicate 8 none
           query := false, clear := false, lateSnapshot := false, lateQuery := false, lateClear := false
           loopUpRun := 0, loopDownRun := 0, gen := { x.gen with insert := false }, chk := x.chk.out }

/-- The supervision state of line `l` reset by LINE-RESTART (R207, R107). -/
def Part.restartSupervision (s : Part) (l : LineNo) : Part :=
  ((allConditions.foldl (fun s c => s.setCond l c false)
      ((s.updSup l Supervision.restarted).removeRequest (.report l)))).followGap l

/-- LINE-RESTART at line `l` (R19, R71, R152, R173, R207). -/
def Part.lineRestart (s : Part) (l : LineNo) : Part :=
  if s.active l && !((s.line l).unit.state == .unused) then
    let t := (s.stop l .lineRestart).updUnit l fun x => x.restarted (s.mark l) s.now
    (((t.setPlane l .ltrs).lineCause l).restartClaims l).restartSupervision l
  else s

/-- The generator and the checker of line `l` at TEST-START, each on the modes it runs on (R195, R196). -/
def Part.seedTest (s : Part) (l : LineNo) : Part :=
  s.updSup l fun x =>
    { x with gen := if (s.cfg l).mode.sends then { reg := 511, insert := false } else x.gen
             chk := if (s.cfg l).mode.receives then x.chk.out else x.chk }

/-- TEST-START at line `l` (R20, R198). DEDUCED: it stops the sender from IDLE alone; in LOOP and
OUT-OF-SERVICE, where the sender stands stopped, it gives no further STOP, also while a scheduler code runs
out under CHARACTER (R11; notes/assumptions/39.md). -/
def Part.testStart (s : Part) (l : LineNo) : Part :=
  if s.active l then
    match (s.line l).unit.state with
    | .idle => (((((s.stop l .test).endClaims l .withdraw).leaveFor l .test).seedTest l)).startGenerator l
    | .outOfService | .loop => ((s.leaveFor l .test).seedTest l).startGenerator l
    | .test | .unused => s
  else s

/-- TEST-STOP at line `l` (R20, R198). -/
def Part.testStop (s : Part) (l : LineNo) : Part :=
  if s.active l && (s.line l).unit.state == .test then
    ((s.leaveFor l .idle).updUnit l fun x =>
      match x.out with
      | some o => if o.source = .generator then { x with out := none } else x
      | none => x).restartMarkRun l
  else s

/-- INSERT-ERROR at line `l` (R195). -/
def Part.insertError (s : Part) (l : LineNo) : Part :=
  if s.active l && (s.line l).unit.state == .test && (s.cfg l).mode.sends then
    s.updSup l fun x => { x with gen := { x.gen with insert := true } }
  else s

end Sys2Proof.Machine
end

