-- ==== Sys2Proof/Machine/Image.lean ====
section
/-! DEFINITION. The configuration image (11.2): its sections read into the settings, and the checks of
R210 and R211 with their reasons. -/

namespace Sys2Proof.Machine

/-! ### Reading -/

/-- What a memory that answers `img` reads as over `n` bytes: 255 where it does not answer (R210). -/
def readImage (img : List Byte) (n : Nat) : List Byte := (img ++ List.replicate n 255).take n

/-- Byte `k` of a section. -/
def byteAt (b : List Byte) (k : Nat) : Nat := (b.getD k 255).toNat

/-- The two-byte field at `k`, most significant byte first (11.2). -/
def wordAt (b : List Byte) (k : Nat) : Nat := byteAt b k * 256 + byteAt b (k + 1)

/-- `n` bytes of a run from byte `k`. -/
def part' (b : List Byte) (k n : Nat) : List Byte := (b.drop k).take n

/-- The optional character at `k` (11.2). -/
def optionalAt (b : List Byte) (k : Nat) : Option Byte :=
  if byteAt b k = 1 then some (b.getD (k + 1) 255) else none

/-- The text or signal at `k`: a length byte, then its characters, `n` bytes of them at most (11.2). -/
def textAt (b : List Byte) (k n : Nat) : List Byte := part' b (k + 1) (min n (byteAt b k))

/-- The mode coded `n` (11.2). -/
def modeOf : Nat → LineMode
  | 1 => .receive
  | 2 => .send
  | 3 => .twoWay
  | _ => .unused

/-- The disposition coded `n` (11.2). -/
def dispOf : Nat → Disposition
  | 0 => .carry
  | 1 => .quiet
  | _ => .discard

/-- The class coded `n` (11.2). DESIGN CHOICE: a byte above 7 is read as UNASSIGNED, also in an image that row 10
refuses for it, so that row 8 finds no character in such an entry (R211; notes/assumptions/17.md). -/
def classOf : Nat → CharClass
  | 0 => .letter
  | 1 => .figure
  | 2 => .punct
  | 3 => .space
  | 4 => .format
  | 5 => .signal
  | 6 => .national
  | _ => .unassigned

/-- The action coded `n` (11.2). -/
def actionOf : Nat → Admission
  | 0 => .pass
  | 1 => .substitute
  | 2 => .drop
  | _ => .refuse

/-- The counted kind coded `n` (11.2). -/
def countedOf : Nat → CountedKind
  | 0 => .framing
  | 1 => .mutilated
  | 2 => .testErrors
  | _ => .framingMutilated

/-- A line record of 90 bytes read (11.2). -/
def lineSettings (b : List Byte) : LineSettings :=
  let sw : BitVec 8 := b.getD 11 255
  { mode := modeOf (byteAt b 0), u := wordAt b 1, stop := byteAt b 3, service := byteAt b 4
    groups := BitVec.ofNat 16 (wordAt b 5), map := byteAt b 7, profile := byteAt b 8
    width := byteAt b 9, fold := byteAt b 10
    guardShift := sw.getLsbD 0, unshift := sw.getLsbD 1, immediate := sw.getLsbD 2, abandon := sw.getLsbD 3
    enquiry := optionalAt b 12, opening := textAt b 14 4, closing := textAt b 19 4
    interruption := textAt b 24 16, resumption := textAt b 41 16, answerBack := textAt b 58 20
    loopUp := optionalAt b 79, loopDown := optionalAt b 81, loopN := byteAt b 83
    counted := countedOf (byteAt b 84), auto := byteAt b 85 == 0, degraded := wordAt b 86
    mask := b.getD 88 255, both := b.getD 89 255 }

/-- The entries of a plane table: pairs of character and class (11.2). -/
def planeEntries : List Byte → List MapEntry
  | ch :: k :: rest => { char := ch, cls := classOf k.toNat } :: planeEntries rest
  | _ => []

/-- A map of 196 bytes read (11.2). DEDUCED: only 255 says that the map has no third plane; a third-plane byte of
32 to 254, which row 10 refuses, counts as a plane for the encodability of row 8 (R211;
notes/assumptions/17.md). -/
def mapTable (b : List Byte) : MapTable :=
  { ltrsCode := byteAt b 0, figsCode := byteAt b 1
    thirdCode := if byteAt b 2 = 255 then none else some (byteAt b 2)
    subst := b.getD 3 255
    ltrs := planeEntries (part' b 4 64), figs := planeEntries (part' b 68 64)
    third := planeEntries (part' b 132 64) }

/-- A disposition range of 5 bytes read (11.2). -/
def dispRange (b : List Byte) : DispRange := { base := wordAt b 0, size := wordAt b 2, disp := dispOf (byteAt b 4) }

/-- The map count of an image (11.2). -/
def mapCount (b : List Byte) : Nat := byteAt b 5
/-- The range count of an image (11.2). -/
def rangeCount (b : List Byte) : Nat := byteAt b 6
/-- The record of line `l`. -/
def lineRecord (b : List Byte) (l : Nat) : List Byte := part' b (10 + 90 * l) 90
/-- The bytes of map `i`. -/
def mapBytes (b : List Byte) (i : Nat) : List Byte := part' b (730 + 196 * i) 196
/-- The bytes of the admission table. -/
def admissionBytes (b : List Byte) : List Byte := part' b (730 + 196 * mapCount b) 128
/-- The bytes of range `i`. -/
def rangeBytes (b : List Byte) (i : Nat) : List Byte := part' b (858 + 196 * mapCount b + 5 * i) 5

/-- The settings of an image (11.2). -/
def imageSettings (b : List Byte) : Settings :=
  { supervisor := if byteAt b 4 = 255 then none else some (byteAt b 4)
    defaultDisp := dispOf (byteAt b 7), mask := b.getD 8 255, both := b.getD 9 255
    lines := Vector.ofFn fun l => lineSettings (lineRecord b l.val)
    maps := (List.range (mapCount b)).map fun i => mapTable (mapBytes b i)
    admission := (admissionBytes b).map fun x => actionOf x.toNat
    ranges := (List.range (rangeCount b)).map fun i => dispRange (rangeBytes b i) }

/-! ### Checks (R210, R211) -/

/-- The sum of the image's bytes, the two sum bytes excepted, modulo 65,536 (R210). -/
def imageSum (b : List Byte) : Nat :=
  (((b.take 2) ++ b.drop 4).foldl (fun n x => n + x.toNat) 0) % 65536

/-- Row 5 for a line (R211). -/
def timingOk (b : List Byte) (c : LineSettings) : Bool :=
  decide (byteAt b 0 ≤ 3) &&
    (c.mode == .unused || (decide (5000 ≤ c.u ∧ c.u ≤ 25000) && decide (2 ≤ c.stop ∧ c.stop ≤ 4)))

/-- Row 6 for a line not UNUSED, with `m` maps (R211). -/
def lineOk (m : Nat) (b : List Byte) (c : LineSettings) : Bool :=
  decide (c.service ≤ 15) && decide (c.map < m) && decide (c.profile ≤ 7) &&
    decide (20 ≤ c.width ∧ c.width ≤ 80) && decide (c.fold ≤ 15 ∧ c.fold < c.width) &&
    decide (byteAt b 12 ≤ 1) && decide (byteAt b 79 ≤ 1) && decide (byteAt b 81 ≤ 1)

/-- A signal's own faults (R50). -/
def signalOk (len : Nat) (sig : List Byte) : Bool :=
  decide (1 ≤ len ∧ len ≤ 4) && sig.all fun c => !(c == 10) && !(c == 13) && !(c == 0)

/-- Row 7 for a RECEIVE or TWO-WAY line (R50). -/
def signalsOk (b : List Byte) (c : LineSettings) : Bool :=
  signalOk (byteAt b 14) c.opening && signalOk (byteAt b 19) c.closing &&
    !c.opening.isPrefixOf c.closing && !c.closing.isPrefixOf c.opening

/-- Row 8 for a SEND or TWO-WAY line in map `m` (R25). -/
def textsOk (m : MapTable) (b : List Byte) (c : LineSettings) : Bool :=
  decide (byteAt b 24 ≤ 16) && decide (byteAt b 41 ≤ 16) && decide (byteAt b 58 ≤ 20) &&
    encodable m c.interruption && encodable m c.resumption && encodable m c.answerBack

/-- Row 9 for a line not UNUSED (R191). -/
def supervisionOk (b : List Byte) (c : LineSettings) : Bool :=
  decide (8 ≤ c.loopN) && !(c.loopUp.isSome && c.loopUp == c.loopDown) &&
    decide (byteAt b 84 ≤ 3) && decide (byteAt b 85 ≤ 1)

/-- An entry at code `c` of plane `p` of a map satisfies the class checks of R21. Entries that the map
ignores are not checked (notes/assumptions/17.md). -/
def entryOk (m : MapTable) (c : Nat) (ch k : Byte) : Bool :=
  (shiftPlane m c).isSome ||
    (decide (k.toNat ≤ 7) &&
      (k == 7 || ((k == 3) == (ch == 32) && (k == 4) == (ch == 13 || ch == 10 || ch == 0))))

/-- The entries of a plane's bytes from code `c` on. -/
def planeOk (m : MapTable) : Nat → List Byte → Bool
  | c, ch :: k :: rest => entryOk m c ch k && planeOk m (c + 1) rest
  | _, _ => true

/-- Row 10 for a map named by a line not UNUSED; `sends`: a SEND or TWO-WAY line names it (R21). -/
def mapOk (b : List Byte) (sends : Bool) : Bool :=
  let m := mapTable b
  decide (m.ltrsCode ≤ 31) && decide (m.figsCode ≤ 31) && !(m.ltrsCode == m.figsCode) &&
    (match m.thirdCode with
      | some t => decide (t ≤ 31) && !(t == m.ltrsCode) && !(t == m.figsCode)
      | none => true) &&
    planeOk m 0 (part' b 4 64) && planeOk m 0 (part' b 68 64) &&
    (m.thirdCode.isNone || planeOk m 0 (part' b 132 64)) &&
    encodableChar m m.subst &&
    (match charClass m m.subst with
      | .letter | .figure | .punct | .national => true
      | _ => false) &&
    (!sends || ((primaryPlane m officeCR).isSome && (primaryPlane m lineEnd).isSome))

/-- Row 12 for a range (R62). -/
def rangeOk (b : List Byte) : Bool :=
  let size := wordAt b 2
  decide (byteAt b 4 ≤ 2) && ((List.range 13).any fun k => size == 2 ^ k) && decide (wordAt b 0 % size = 0)

/-- The checks of line `l`, each with its reason byte (R211). -/
def lineChecks (b : List Byte) (l : Nat) : List (Nat × Bool) :=
  let r := lineRecord b l
  let c := lineSettings r
  let used := !(c.mode == .unused)
  [ (5 * 16 + l, timingOk r c),
    (6 * 16 + l, !used || lineOk (mapCount b) r c),
    (7 * 16 + l, !c.mode.receives || signalsOk r c),
    (8 * 16 + l, !c.mode.sends || textsOk (mapTable (mapBytes b c.map)) r c),
    (9 * 16 + l, !used || supervisionOk r c) ]

/-- The check of map `i`, for maps that a line names (R211). -/
def mapCheck (b : List Byte) (i : Nat) : Nat × Bool :=
  let users := ((List.range 8).map fun l => lineSettings (lineRecord b l)).filter fun c =>
    !(c.mode == .unused) && c.map == i
  (10 * 16 + 8 + i, users.isEmpty || mapOk (mapBytes b i) (users.any fun c => c.mode.sends))

/-- The value checks in the order of the image (R211). -/
def valueChecks (b : List Byte) : List (Nat × Bool) :=
  [(4 * 16 + 15, (decide (byteAt b 4 ≤ 31) || byteAt b 4 == 255) && decide (byteAt b 7 ≤ 2))]
    ++ (List.range 8).flatMap (lineChecks b)
    ++ (List.range (mapCount b)).map (mapCheck b)
    ++ [(11 * 16 + 15, (admissionBytes b).all fun x => decide (x.toNat ≤ 3))]
    ++ (List.range (rangeCount b)).map fun i => (12 * 16 + 15, rangeOk (rangeBytes b i))

/-- The reason of the first check that fails; 0 when none does (R211). -/
def firstFailure : List (Nat × Bool) → Nat
  | [] => 0
  | (reason, ok) :: rest => if ok then firstFailure rest else reason

/-- The length check against the counts (R210). -/
def lengthOk (b : List Byte) (n : Nat) : Bool :=
  decide (1 ≤ mapCount b ∧ mapCount b ≤ 4) && decide (rangeCount b ≤ 8) &&
    n == 858 + 196 * mapCount b + 5 * rangeCount b

/-- The length an image gives (R210). -/
def imageLength (img : List Byte) : Nat := wordAt img 0

/-- The fault reason of an image, 0 when every check is met (R210, R211). -/
def imageReason (img : List Byte) : Nat :=
  let n := imageLength img
  if n < 1054 ∨ 1682 < n then 1 * 16 + 15
  else
    let b := readImage img n
    if lengthOk b n then
      if imageSum b = wordAt b 2 then firstFailure (valueChecks b) else 3 * 16 + 15
    else 2 * 16 + 15

end Sys2Proof.Machine
end

