-- ==== Sys2Proof/Machine/Bus.lean ====
section
/-! DEFINITION. The bus port (09): own frames begun, sent, spoiled and lost, the notices as the
supervision unit takes their report, and heard frames handed to their owners. -/

namespace Sys2Proof.Machine

/-- The port with `f` applied. -/
def Part.updPort (s : Part) (f : Port → Port) : Part := { s with port := f s.port }

/-- The port drives a spoil slot dominant: that of a received frame that failed its check (R180), or its own
frame's when the frame's request has been removed (R184). -/
def Port.drivesSpoil (p : Port) : Bool :=
  (p.state == .receiving && p.rejecting) || (p.drives && (p.own.map OwnFrame.removed).getD false)

/-- The bits of a byte, the most significant first (R176). -/
def byteBits (b : Byte) : List Bool := (List.range 8).map fun k => b.getLsbD (7 - k)

/-- The bits of a frame as sent, from its start bit to its check byte; 0 is dominant (R176). -/
def frameBits (f : Frame) : List Bool := false :: (frameBytes f).flatMap byteBits

/-- The drive pin CBD, true for dominant (11.6): the bit of the own frame that the clock reads, and in the
spoil slot what `drivesSpoil` says (R178, R179, R180, R184; notes/assumptions/31.md). DEDUCED: a port whose
loader is READING drives the spoil slot of a frame it rejects, as in CONFIG-FAULT (R188;
notes/assumptions/45.md). -/
def Part.cbd (s : Part) : Bool :=
  match s.port.drives, s.port.own with
  | true, some f =>
    match (frameBits f.frame)[(s.now - f.began) / Config.bitTime]? with
    | some b => !b
    | none => s.port.drivesSpoil
  | _, _ => s.port.drivesSpoil

/-! ### Beginning a frame (R178, R182) -/

/-- The head request: the one whose frame was spoiled, else the first in order (R183, R185). -/
def Port.head (p : Port) : Option Request :=
  match p.sticky.bind fun o => p.sendList.find? fun r => r.owner == o with
  | some r => some r
  | none => p.sendList.head?

/-- The changed marks of the records present cleared (R206). -/
def clearMarks (fs : Vector (Option FaultRecord) 8) : Vector (Option FaultRecord) 8 :=
  fs.map fun r => r.map fun x => { x with changed := false }

/-- What the start bit of a report does to the line's supervision state: the records it includes have
their marks cleared, and transfers and queries from now on are late (R206). -/
def Supervision.reportBegun (x : Supervision) : Supervision :=
  { x with faults := if x.query then clearMarks x.faults else x.faults
           lateSnapshot := false, lateQuery := false, lateClear := false }

/-- What the start bit of a frame of owner `o` does at the owner (R206). -/
def Part.ownerBegins (s : Part) (o : Owner) : Part :=
  match o with
  | .report l => s.updSup l Supervision.reportBegun
  | _ => s

/-- The frame of request `q` begun: the port is CONTENDING (R178, R182). -/
def Part.beginFrame (s : Part) (q : Request) : Part :=
  (s.updPort fun p =>
    { p with state := .contending
             own := some { owner := q.owner, frame := s.frameOf q, began := s.now, removed := false } }).ownerBegins
    q.owner

/-- The port may begin frames: running or in CONFIG-FAULT (R188), FREE, and not silent (R185). -/
def Part.maySend (s : Part) : Bool :=
  (s.loader == .running || s.loader == .configFault) && s.port.state == .free && !s.stationCond .busSilent

/-- The frame of the head request begun when the port may send (R178). -/
def Part.serveBus (s : Part) : Part :=
  if s.maySend then
    match s.port.head with
    | some q => s.beginFrame q
    | none => s
  else s

/-- The port has counted 10 recessive bits (R175). -/
def Part.busFreed (s : Part) : Part :=
  if s.port.state = .wait then s.updPort fun p => { p with state := .free, synced := true } else s

/-- Another station's start bit is read in FREE, or in WAIT after the idle of a previous frame (R175, R178). -/
def Part.startBit (s : Part) : Part :=
  if s.port.state = .free ∨ (s.port.state = .wait ∧ s.port.synced) then
    s.updPort fun p => { p with state := .receiving, rejecting := false }
  else s

/-- A received frame judged at the end of its check byte (R180). -/
def Part.judgeFrame (s : Part) (bytes : List Byte) : Part :=
  if s.port.state = .receiving then s.updPort fun p => { p with rejecting := rejects bytes } else s

/-- The frame being received ends: the port counts idle bits (R175). -/
def Part.frameEnds (s : Part) : Part :=
  s.updPort fun p =>
    { p with state := if p.state = .receiving then .wait else p.state, rejecting := false }

/-- The spoil slot of the received frame is read dominant (R180). -/
def Part.spoiledFrame (s : Part) : Part := if s.port.state = .receiving then s.frameEnds else s

/-! ### Heard frames (R186, R187) -/

/-- A frame of another owner's station number, 32 to 63, is ignored by every owner (R180). -/
def fromStation (f : Heard) : Bool := decide (f.station.toNat < 32)

/-- The subject kind of a TEXT, CLOSE or WITHDRAW says that it is about a call (R189). -/
def aboutCall (f : Heard) : Bool := f.payload.headD 0 == 1

/-- A heard CALL (R130). -/
def Part.callHeard (s : Part) (f : Heard) : Part :=
  match readCall f with
  | some c => s.hearCall c
  | none => s

/-- A heard CLAIM (R142). -/
def Part.claimHeard (s : Part) (f : Heard) : Part :=
  match readClaim f with
  | some (caller, call) => s.hearClaim f.station.toNat caller call
  | none => s

/-- A heard OFFER (R109). -/
def Part.offerHeard (s : Part) (f : Heard) : Part :=
  match readOffer f with
  | some o => s.hearOffer o
  | none => s

/-- A heard TEXT about a story (R111, R120). -/
def Part.storyTextHeard (s : Part) (f : Heard) : Part :=
  match readText f with
  | some (.story h, o, cs) => s.hearStoryText h (o + cs.length)
  | _ => s

/-- A heard CLOSE about a story (R111, R121). -/
def Part.storyCloseHeard (s : Part) (f : Heard) : Part :=
  match readClose f with
  | some (.story h, _, _) => s.hearStoryClose h
  | _ => s

/-- A heard WITHDRAW about a story (R111, R122). -/
def Part.storyWithdrawHeard (s : Part) (f : Heard) : Part :=
  match readWithdraw f with
  | some (.story h) => s.hearStoryWithdraw h
  | _ => s

/-- A frame about a call, taken by the record of the call when the sender is the caller (R145, R151). -/
def Part.fromCaller (s : Part) (f : Heard) (caller call : Nat) (act : Slot → Part) : Part :=
  if f.station.toNat = caller then
    match s.callSlot caller call with
    | some i => act i
    | none => s
  else s

/-- A heard TEXT about a call (R146). -/
def Part.callTextHeard (s : Part) (f : Heard) : Part :=
  match readText f with
  | some (.call c n, o, cs) => s.fromCaller f c n fun i => s.intakeText i o cs
  | _ => s

/-- A heard CLOSE about a call (R147). -/
def Part.callCloseHeard (s : Part) (f : Heard) : Part :=
  match readClose f with
  | some (.call c n, total, _) => s.fromCaller f c n fun i => s.intakeClose i total
  | _ => s

/-- A heard WITHDRAW about a call (R151). -/
def Part.callWithdrawHeard (s : Part) (f : Heard) : Part :=
  match readWithdraw f with
  | some (.call c n) => s.fromCaller f c n fun i => s.callerWithdraws i
  | _ => s

/-- The port has not yet counted ten recessive bits since it came up: it receives, judges and spoils no
frame under way (R175). -/
def Port.deaf (p : Port) : Bool := p.state == .wait && !p.synced

/-- The part once a frame has been heard and before its owners act (R186): the port counts idle bits. -/
def Part.heard (s : Part) : Part := { s.frameEnds with hearings := s.hearings + 1 }

/-- One frame of the bus heard: `act` is what its owners do with it. A frame that a port still counting its
first ten bits did not receive (R175), and one whose spoil slot this port drives (R180, R186), is not
heard. -/
def Part.hear (s : Part) (act : Part → Part) : Part :=
  if s.port.deaf then s
  else if s.port.rejecting then s.frameEnds
  else act s.heard

/-- What owners do with a heard frame other than an ORDER: they act while the station runs (R187), unless the
frame's station field is 32 to 63 (R180). -/
def Part.whileRunning (s : Part) (f : Heard) (act : Part → Part) : Part :=
  if s.loader = .running ∧ fromStation f then act s else s

/-- A heard frame other than an ORDER (R187). -/
def Part.hearRunning (s : Part) (f : Heard) (act : Part → Part) : Part := s.hear fun t => t.whileRunning f act

/-- The station's own frame, sent, reaches its owners as a heard frame does (R179, R186). -/
def Part.ownHeard (s : Part) (f : Frame) : Part :=
  s.heard.whileRunning f.body fun t =>
    match f.kind with
    | .offer => t.offerHeard f.body
    | .claim => t.claimHeard f.body
    | .text => t.storyTextHeard f.body
    | .close => if aboutCall f.body then t.callCloseHeard f.body else t.storyCloseHeard f.body
    | .withdraw => if aboutCall f.body then t.callWithdrawHeard f.body else t.storyWithdrawHeard f.body
    | .call | .order | .notice => t

/-! ### Reports of own frames (R179) -/

/-- The frame of a record in slot `i` was sent (R64 to R66, R141, R150, R171). -/
def Part.recordFrameSent (s : Part) (i : Slot) (f : Frame) : Part :=
  match s.record i with
  | none => s
  | some r =>
    match r.body, f.kind with
    | .inbound _, .offer => s.requestNext i
    | .inbound _, .text => s.textSent i (f.body.payload.length - 6)
    | .inbound _, .close => s.storyClosed i
    | .outbound _, .claim => s.claimSent i
    | .outbound _, .close | _, .withdraw => s.freeRecord i
    | _, _ => s

/-- A condition notice that carried `bits` as changed was sent (R202). -/
def Part.conditionSent (s : Part) (l : LineNo) (bits : BitVec 8) : Part :=
  let t := s.updSup l fun x => { x with changed := x.changed &&& ~~~bits }
  if (t.line l).sup.changed = 0 then t else t.addRequest (conditionRequest l)

/-- The station notice that carried `changed` and `events` was sent (R203). -/
def Part.stationSent (s : Part) (changed events : BitVec 8) : Part :=
  let n := { s.notices with changed := s.notices.changed &&& ~~~changed, events := s.notices.events &&& ~~~events }
  let t : Part := { s with notices := n }
  if n.changed = 0 ∧ n.events = 0 then t else t.addRequest stationRequest

/-- The records that a sent report included with the cleared flag become absent, unless marked since;
`mask` is the report's record mask (R206). -/
def clearSent (mask : Byte) (fs : Vector (Option FaultRecord) 8) : Vector (Option FaultRecord) 8 :=
  Vector.ofFn fun k =>
    match fs.get k with
    | some r => if mask.getLsbD k.val && !r.changed then none else some r
    | none => none

/-- The supervision state after a report of flags `flags` and record mask `mask` was sent: what it carried
is reported, and a transfer or query since its start bit is kept (R206). -/
def Supervision.reportSent (x : Supervision) (flags mask : Byte) : Supervision :=
  { x with unreported := x.lateSnapshot, query := x.lateQuery, clear := x.lateClear
           faults := if flags.getLsbD 2 then clearSent mask x.faults else x.faults }

/-- A report notice was sent (R206). -/
def Part.reportNoticeSent (s : Part) (l : LineNo) (flags mask : Byte) : Part :=
  let t := s.updSup l fun x => x.reportSent flags mask
  if (t.line l).sup.unreported || (t.line l).sup.query then t.addRequest (reportRequest l) else t

/-- The owner of a sent frame is told so (R179). -/
def Part.ownerSent (s : Part) (o : Owner) (f : Frame) : Part :=
  let b := fun k => f.body.payload.getD k 0
  match o with
  | .record i => s.recordFrameSent i f
  | .condition l => s.conditionSent l (b 2)
  | .report l => s.reportNoticeSent l (b 2) (b 5)
  | .station => s.stationSent (b 2) (b 3)

/-- The owner of a frame that was not sent is told so: a claim already ended is freed (R143). -/
def Part.ownerNotSent (s : Part) (o : Owner) (k : FrameKind) : Part :=
  match o, k with
  | .record i, .claim => s.claimNotSent i
  | _, _ => s

/-- The spoil count after one more spoiled own frame; at 8 BUS-SILENT rises (R185). -/
def Part.countSpoil (s : Part) (o : Owner) : Part :=
  let n := satSucc 8 s.port.spoilCount
  let t := s.updPort fun p => { p with sticky := some o, spoilCount := n }
  if n = 8 then (t.setStationCond .busSilent true).updPort fun p => { p with silentSince := some s.now } else t

/-- The spoil slot of the own frame is read (R179, R184, R185): a frame whose request was removed is
spoiled by its own port. -/
def Part.ownSlot (s : Part) (dominant : Bool) : Part :=
  match s.port.drives, s.port.own with
  | true, some f =>
    let t := s.updPort fun p => { p with state := .wait, own := none, rejecting := false }
    if f.removed then t
    else if dominant then (t.countSpoil f.owner).ownerNotSent f.owner f.frame.kind
    else
      (((t.dropSent f.owner).updPort fun p => { p with spoilCount := 0 }).ownerSent f.owner f.frame).ownHeard f.frame
  | _, _ => s

/-- The port loses arbitration, or reads a bit other than it sent (R178, R179). -/
def Part.loseArbitration (s : Part) : Part :=
  match s.port.drives, s.port.own with
  | true, some f =>
    let t := s.updPort fun p => { p with state := .receiving, rejecting := false, own := none }
    if f.removed then t else t.ownerNotSent f.owner f.frame.kind
  | _, _ => s

/-- The silent timer has run 1 s (R185, R203). -/
def Part.silenceEnds (s : Part) : Part :=
  if s.port.silentSince.isSome then
    (((s.updPort fun p => { p with silentSince := none, spoilCount := 0 }).putStationLevel .busSilent
      false).stationChanged .busSilent).stationEvent .recovered
  else s

end Sys2Proof.Machine
end

