-- ==== Sys2Proof/Machine/Orders.lean ====
section
/-! DEFINITION. Order handling (11.4): address, form, authority, refusal, and the orders' effects. -/

namespace Sys2Proof.Machine

/-- An ORDER is addressed to this station (R187). -/
def Part.addressed (s : Part) (o : Order) : Bool := o.key.toNat == s.number || o.key.toNat == 4095

/-- The forms of an order (R190): to the lines of its line field, with no argument; or to the station, with an
argument of so many bytes, the line field having no bearing. -/
inductive OrderForm where
  | lines
  | station (argument : Nat)
deriving DecidableEq, Repr

/-- An ORDER of this form is well formed (R186, R190), and its station field is no owner's to ignore (R180).
The line field of RELEASE, REHOLD, RERUN and STATION-RESTART is carried and has no bearing: any byte is taken
(R190, R158). -/
def orderFits (k : OrderForm) (o : Order) : Bool :=
  decide (o.station.toNat < 32) &&
    match k with
    | .lines => o.arg.length == 0 && (orderLines o).isSome
    | .station n => o.arg.length == n

/-- A supervisory order of this source is accepted in RUNNING (R214). -/
def Part.supervises (s : Part) (o : Order) : Bool :=
  match s.settings.supervisor with
  | none => true
  | some n => o.station.toNat == n

/-- A supervisory order refused (R216). -/
def Part.refuse (s : Part) (code source : Nat) : Part :=
  ({ s with notices := { s.notices with
      refusedCode := code, refusedSource := source, refusals := satSucc 65535 s.notices.refusals } } : Part).stationEvent
    .refused

/-- A heard ORDER taken by order handling, when it is for this station and well formed (R187, R214). -/
def Part.orderTaken (s : Part) (k : OrderForm) (o : Order) (act : Part → Part) : Part :=
  s.hear fun t => if t.addressed o && orderFits k o then act t else t

/-- A supervisory order of code `code` and form `k` (R214, R216). -/
def Part.supervisoryOrder (s : Part) (code : Nat) (k : OrderForm) (o : Order) (act : Part → Part) : Part :=
  s.orderTaken k o fun t =>
    if t.loader = .running then
      if t.supervises o then act t else t.refuse code o.station.toNat
    else t

/-- An open order of form `k` (R214). -/
def Part.openOrder (s : Part) (k : OrderForm) (o : Order) (act : Part → Part) : Part :=
  s.orderTaken k o fun t => if t.loader = .running then act t else t

/-- An order's effect on each line it names (R214). -/
def Part.onLines (s : Part) (o : Order) (act : LineNo → Part → Part) : Part :=
  s.forLines ((orderLines o).getD []) act

/-- COUNT-TRANSFER at line `l` (R200). -/
def Part.countTransfer (s : Part) (l : LineNo) : Part := if s.active l then s.transfer l else s

/-- QUERY or QUERY-AND-CLEAR at line `l` (R205). -/
def Part.takeQuery (s : Part) (l : LineNo) (clear : Bool) : Part :=
  if s.active l then s.queryLine l clear else s

/-- RELEASE of the group of the argument (R158): it opens, and every free sender chooses. -/
def Part.releaseGroup (s : Part) (o : Order) : Part :=
  if h : (o.arg.headD 255).toNat < 8 then (s.setGroup ⟨(o.arg.headD 255).toNat, h⟩ true).settleLines allLines else s

/-- REHOLD of the group of the argument (R158). -/
def Part.reholdGroup (s : Part) (o : Order) : Part :=
  if h : (o.arg.headD 255).toNat < 8 then s.setGroup ⟨(o.arg.headD 255).toNat, h⟩ false else s

/-- RERUN of the service and serial of the argument (R126). -/
def Part.rerunOrder (s : Part) (o : Order) : Part :=
  match o.arg with
  | [service, s1, s0] => s.rerunStory service.toNat (word s1 s0)
  | _ => s

end Sys2Proof.Machine
end

