-- ==== Sys2Proof/Machine/StartUp.lean ====
section
/-! DEFINITION. The configuration loader (11.1, 11.3): power, reset, the end of the read, entry to service
and CONFIG-FAULT. -/

namespace Sys2Proof.Machine

/-- Power-on or STATION-RESTART: every block at its reset value, the loader in READING under station
number `n` (R209, R215). The clock and the pins are outside the blocks. -/
def Part.coldStart (s : Part) (n : Nat) : Part :=
  { Part.reset with
    now := s.now, hearings := s.hearings, powered := s.powered, resetHeld := s.resetHeld, rx := s.rx
    number := n }

/-- The station as at power-off: no block holds state (R209). -/
def Part.off (s : Part) : Part := { s.coldStart 0 with loader := .off }

/-- Power is applied (R209); under RESET held low the station stays as at power-off. -/
def Part.powerUp (s : Part) (n : Nat) : Part :=
  let t : Part := { s with powered := true }
  if s.resetHeld then t.off else t.coldStart n

/-- RESET is driven low (R209). -/
def Part.holdReset (s : Part) : Part := ({ s with resetHeld := true } : Part).off

/-- RESET is released (R209); without supply the station stays off. -/
def Part.freeReset (s : Part) (n : Nat) : Part :=
  let t : Part := { s with resetHeld := false }
  if s.powered then t.coldStart n else t.off

/-- The supply is lost (R188). -/
def Part.losePower (s : Part) : Part := ({ s with powered := false } : Part).off

/-- A line unit at entry to service in mode `m`, the input at `mark` (R2). -/
def unitAtEntry (m : LineMode) (mark : Bool) (now : Nat) : LineUnit :=
  if m = .unused then .blank else LineUnit.blank.restarted mark now

/-- A line at entry to service (R2, R46). -/
def lineAtEntry (cfg : Settings) (l : LineNo) (mark : Bool) (now : Nat) : Line :=
  let c := cfg.lines.get l
  { Line.blank with
    unit := unitAtEntry c.mode mark now
    texts := if c.mode.sends then encodeTexts (cfg.maps.getD c.map .blank) c else Line.blank.texts }

/-- One tracker for each distinct receive service (R94). -/
def trackersFor (cfg : Settings) : List Tracker :=
  (((allLines.filter fun l => (cfg.lines.get l).mode.receives).map fun l => (cfg.lines.get l).service).eraseDups).map
    fun n => { service := n, expected := none, gaps := [] }

/-- The station enters service with settings `cfg` (R212). -/
def Part.enterService (s : Part) (cfg : Settings) : Part :=
  ({ s.coldStart s.number with
      loader := .running, settings := cfg
      lines := Vector.ofFn fun l => lineAtEntry cfg l (s.mark l) s.now
      trackers := trackersFor cfg
      port := { s.port with sendList := [], sticky := none }
      reportSince := some s.now } : Part).stationEvent .stationUp

/-- The station enters CONFIG-FAULT with a fault reason (R213). -/
def Part.enterConfigFault (s : Part) (reason : Nat) : Part :=
  ((({ s with loader := .configFault, faultReason := reason, repeatSince := some s.now } : Part).putStationLevel
    .configFault true).stationChanged .configFault).stationEvent .configFault

/-- The read of the image ends (R210 to R213). -/
def Part.readComplete (s : Part) (img : List Byte) : Part :=
  if s.loader = .reading then
    let reason := imageReason img
    if reason = 0 then s.enterService (imageSettings (readImage img (imageLength img)))
    else s.enterConfigFault reason
  else s

/-- The repeat timer has run 10 s (R213). -/
def Part.repeatFault (s : Part) : Part :=
  if s.loader = .configFault then
    ({ s with repeatSince := some s.now } : Part).stationEvent .configFault
  else s

/-- A heard STATION-RESTART (R214, R215): accepted from any station in READING and CONFIG-FAULT, judged by
authority in RUNNING; the straps are read afresh. -/
def Part.stationRestart (s : Part) (o : Order) (straps : BitVec 5) : Part :=
  s.orderTaken (.station 0) o fun t =>
    match t.loader with
    | .running => if t.supervises o then t.coldStart straps.toNat else t.refuse 13 o.station.toNat
    | .reading | .configFault => t.coldStart straps.toNat
    | .off => t

end Sys2Proof.Machine
end

