-- ==== Sys2Proof/Machine/Clock.lean ====
section
/-! DEFINITION. The timers of the part as functions of the instants they started: which timer's command
is due at the clock's reading (00, Time; notes/assumptions/1.md). -/

namespace Sys2Proof.Machine

/-- The port in CONTENDING has passed the last bit of its arbitration field (R178). -/
def Part.fieldPassed (s : Part) : Bool :=
  match s.port.own with
  | some f => s.port.state == .contending && decide (f.began + Config.fieldTime ≤ s.now)
  | none => false

/-- The clock moves on by one half-microsecond; a port in CONTENDING that has passed its arbitration field
enters SENDING (R178). -/
def Part.passTime (s : Part) : Part :=
  let t : Part := { s with now := s.now + 1 }
  if t.fieldPassed then t.updPort fun p => { p with state := .sending } else t

/-- A timer started at `since` has run `n` half-microseconds by `now`. -/
def ranFrom (now : Nat) (since : Option Nat) (n : Nat) : Bool :=
  match since with
  | some t => decide (t + n ≤ now)
  | none => false

/-- The commands of a list of guarded commands whose guard holds. -/
def dueOf : List (Bool × Instr) → List Instr
  | [] => []
  | (b, c) :: rest => if b then c :: dueOf rest else dueOf rest

/-- The commands due on line `l`: the sample times of R3 and R4, BREAK and LINE-OPEN of R7 and R8, the end
of a code of R10, READY of R14, the stall timer of R67 and R68. -/
def Part.dueLine (s : Part) (l : LineNo) : List Instr :=
  let x := (s.line l).unit
  let g := (s.line l).recog
  let c := s.cfg l
  let ref := some x.refTime
  if s.active l then
    dueOf
      [ (x.rcv == .start && ranFrom s.now ref c.u, .startCheck l),
        (x.rcv == .data && ranFrom s.now ref ((3 + 2 * x.sampled) * c.u), .dataSample l),
        (x.rcv == .stop && ranFrom s.now ref (13 * c.u), .receivedCode l),
        (!s.cond l .brk && ranFrom s.now x.spaceSince (2 * c.period), .breakRise l),
        (s.cond l .brk && !s.cond l .lineOpen && ranFrom s.now x.spaceSince Config.lineOpenTime, .lineOpenRise l),
        (s.cond l .lineOpen && ranFrom s.now x.clearSince Config.clearTime, .lineOpenFall l),
        (ranFrom s.now (x.out.map OutCode.began) c.period, .codeSent l),
        (s.awaitsReady l && ranFrom s.now x.markSince Config.readyTime, .ready l),
        (!s.cond l .stall && ranFrom s.now g.stallSince (Config.seconds 60), .stallRise l),
        (ranFrom s.now g.stallSince (Config.seconds 300), .stallExpiry l) ]
  else []

/-- The commands due for the record in slot `i`: peer silence (R122), claim pending (R143), intake silence
(R148). -/
def Part.dueRecord (s : Part) (i : Slot) : List Instr :=
  match (s.record i).map Record.body with
  | some (.inbound x) =>
    dueOf
      [ ((match x.peer with
          | some p => !p.past20 && ranFrom s.now (some p.since) (Config.seconds 20)
          | none => false), .peerSilence20s i),
        (ranFrom s.now (x.peer.map Peer.since) (Config.seconds 120), .peerSilence120s i) ]
  | some (.outbound x) =>
    dueOf
      [ (ranFrom s.now (x.claim.bind Claim.since) (Config.seconds 2), .claimPendingExpiry i),
        (ranFrom s.now (x.intake.map Intake.since) (Config.seconds 10), .intakeSilenceExpiry i) ]
  | none => []

/-- The commands due for the register: LIVE entries unheard for 120 s (R112). -/
def Part.dueEntries (s : Part) : List Instr :=
  (s.register.filter fun e => e.state == .live && ranFrom s.now (some e.heard) (Config.seconds 120)).map fun e =>
    .entryAged e.service e.serial

/-- The commands due for the station: report period (R200), silent timer (R185), repeat timer (R213). -/
def Part.dueStation (s : Part) : List Instr :=
  dueOf
    [ (s.loader == .running && ranFrom s.now s.reportSince (Config.seconds 60), .reportPeriodExpiry),
      (ranFrom s.now s.port.silentSince (Config.seconds 1), .busSilentExpiry),
      (s.loader == .configFault && ranFrom s.now s.repeatSince (Config.seconds 10), .configFaultRepeat) ]

/-- The command of a timer that has run out, if any: lines, records, register, station, in that order. -/
def Part.dueCommand (s : Part) : Option Instr :=
  (allLines.flatMap s.dueLine ++ allSlots.flatMap s.dueRecord ++ s.dueEntries ++ s.dueStation).head?

end Sys2Proof.Machine
end

