-- ==== Sys2Proof/Machine/StartUpCommands.lean ====
section
/-! DEFINITION. How a command completes, and the meanings of the supply, reset and loader commands
(11.1 to 11.3). -/

namespace Sys2Proof.Machine

/-- What `exec` answers. -/
abbrev Result := Host.Outcome State Fault Refusal

/-- The command is done and places no request. -/
def done (s : State) (t : Part) : Result := .next { s with toPart := t }

/-- The command is done; a port in FREE begins the head request's frame at once (R178). -/
def complete (s : State) (t : Part) : Result := .next { s with toPart := t.serveBus }

/-- An act of a block; while the station is held as at power-off there is no block to act (R209). -/
def Part.live (s : Part) (t : Part) : Part := if s.loader = .off then s else t

/-- POWER_ON (R209). -/
def execPowerOn (straps : BitVec 5) (s : State) : Result := done s (s.toPart.powerUp straps.toNat)

/-- RESET_ASSERT (R209). -/
def execResetAssert (s : State) : Result := done s s.toPart.holdReset

/-- RESET_RELEASE (R209). -/
def execResetRelease (straps : BitVec 5) (s : State) : Result := done s (s.toPart.freeReset straps.toNat)

/-- CONFIG_READ_COMPLETE (R210 to R213). -/
def execConfigReadComplete (image : List Byte) (s : State) : Result := complete s (s.toPart.readComplete image)

/-- CONFIG_FAULT_REPEAT (R213). -/
def execConfigFaultRepeat (s : State) : Result := complete s s.toPart.repeatFault

/-- POWER_FAIL (R188). -/
def execPowerFail (s : State) : Result := done s s.toPart.losePower

end Sys2Proof.Machine
end

