-- ==== Sys2Proof/Machine/BusCommands.lean ====
section
/-! DEFINITION. The meanings of the bus port's commands (09). -/

namespace Sys2Proof.Machine

/-- BUS_FREE (R175, R178). -/
def execBusFree (s : State) : Result := complete s (s.toPart.live s.toPart.busFreed)

/-- START_BIT_READ (R175, R178). -/
def execStartBitRead (s : State) : Result := done s (s.toPart.live s.toPart.startBit)

/-- FRAME_CHECK (R180). -/
def execFrameCheck (bytes : List Byte) (s : State) : Result := done s (s.toPart.live (s.toPart.judgeFrame bytes))

/-- SPOIL_SLOT_READ_DOMINANT (R180). -/
def execSpoilSlotReadDominant (s : State) : Result := done s (s.toPart.live s.toPart.spoiledFrame)

/-- OWN_FRAME_SPOIL_SLOT (R179, R184, R185). -/
def execOwnFrameSpoilSlot (dominant : Bool) (s : State) : Result :=
  complete s (s.toPart.live (s.toPart.ownSlot dominant))

/-- ARBITRATION_LOST (R178, R179). -/
def execArbitrationLost (s : State) : Result := done s (s.toPart.live s.toPart.loseArbitration)

/-- BUS_SILENT_EXPIRY (R185). -/
def execBusSilentExpiry (s : State) : Result := complete s (s.toPart.live s.toPart.silenceEnds)

end Sys2Proof.Machine
end

