-- ==== Sys2Proof/Machine/HeardCommands.lean ====
section
/-! DEFINITION. The meanings of the heard frames but the ORDERs (R186, R187). -/

namespace Sys2Proof.Machine

/-- HEARD_CALL (R130). -/
def execHeardCall (f : Heard) (s : State) : Result :=
  complete s (s.toPart.live (s.toPart.hearRunning f fun t => t.callHeard f))

/-- HEARD_CLAIM (R142). -/
def execHeardClaim (f : Heard) (s : State) : Result :=
  complete s (s.toPart.live (s.toPart.hearRunning f fun t => t.claimHeard f))

/-- HEARD_OFFER (R109). -/
def execHeardOffer (f : Heard) (s : State) : Result :=
  complete s (s.toPart.live (s.toPart.hearRunning f fun t => t.offerHeard f))

/-- HEARD_TEXT_STORY (R111, R120). -/
def execHeardTextStory (f : Heard) (s : State) : Result :=
  complete s (s.toPart.live (s.toPart.hearRunning f fun t => t.storyTextHeard f))

/-- HEARD_CLOSE_STORY (R111, R121). -/
def execHeardCloseStory (f : Heard) (s : State) : Result :=
  complete s (s.toPart.live (s.toPart.hearRunning f fun t => t.storyCloseHeard f))

/-- HEARD_WITHDRAW_STORY (R111, R122). -/
def execHeardWithdrawStory (f : Heard) (s : State) : Result :=
  complete s (s.toPart.live (s.toPart.hearRunning f fun t => t.storyWithdrawHeard f))

/-- HEARD_TEXT_CALL (R146). -/
def execHeardTextCall (f : Heard) (s : State) : Result :=
  complete s (s.toPart.live (s.toPart.hearRunning f fun t => t.callTextHeard f))

/-- HEARD_CLOSE_CALL (R147). -/
def execHeardCloseCall (f : Heard) (s : State) : Result :=
  complete s (s.toPart.live (s.toPart.hearRunning f fun t => t.callCloseHeard f))

/-- HEARD_WITHDRAW_CALL (R151). -/
def execHeardWithdrawCall (f : Heard) (s : State) : Result :=
  complete s (s.toPart.live (s.toPart.hearRunning f fun t => t.callWithdrawHeard f))

/-- HEARD_NOTICE (R187): the frame is heard and handed to no owner. -/
def execHeardNotice (f : Frame) (s : State) : Result :=
  complete s (s.toPart.live (s.toPart.hearRunning f.body fun t => t))

end Sys2Proof.Machine
end

