-- ==== Sys2Proof/Machine/LineCommands.lean ====
section
/-! DEFINITION. The meanings of the line commands (01). -/

namespace Sys2Proof.Machine

/-- RX_MARK_TO_SPACE (R3, R7, R8, R14). -/
def execRxMarkToSpace (l : LineNo) (s : State) : Result := done s (s.toPart.toSpace l)

/-- RX_SPACE_TO_MARK (R5, R7, R8, R14). -/
def execRxSpaceToMark (l : LineNo) (s : State) : Result := complete s (s.toPart.toMark l)

/-- START_CHECK (R3). -/
def execStartCheck (l : LineNo) (s : State) : Result := done s (s.toPart.checkStart l)

/-- DATA_SAMPLE (R4). -/
def execDataSample (l : LineNo) (s : State) : Result := done s (s.toPart.sampleData l)

/-- RECEIVED_CODE (R4, R5, R6). -/
def execReceivedCode (l : LineNo) (s : State) : Result := complete s (s.toPart.sampleStop l)

/-- BREAK_RISE (R7). -/
def execBreakRise (l : LineNo) (s : State) : Result := complete s (s.toPart.raiseBreak l)

/-- LINE_OPEN_RISE (R8). -/
def execLineOpenRise (l : LineNo) (s : State) : Result := complete s (s.toPart.raiseLineOpen l)

/-- LINE_OPEN_FALL (R8). -/
def execLineOpenFall (l : LineNo) (s : State) : Result := complete s (s.toPart.lowerLineOpen l)

/-- READY (R14, R170). -/
def execReady (l : LineNo) (s : State) : Result := complete s (s.toPart.giveReady l)

/-- CODE_SENT (R10, R157). -/
def execCodeSent (l : LineNo) (s : State) : Result :=
  complete s (if s.toPart.active l then s.toPart.codeSent l else s.toPart)

end Sys2Proof.Machine
end

