-- ==== Sys2Proof/Machine/OrderCommands.lean ====
section
/-! DEFINITION. The meanings of the orders (11.4). -/

namespace Sys2Proof.Machine

/-- LINE_OUT, order code 1 (R17). -/
def execLineOut (o : Order) (s : State) : Result :=
  complete s (s.toPart.live (s.toPart.supervisoryOrder 1 .lines o fun t => t.onLines o fun l t => t.lineOut l))

/-- LINE_IN, order code 2 (R18). -/
def execLineIn (o : Order) (s : State) : Result :=
  complete s (s.toPart.live (s.toPart.supervisoryOrder 2 .lines o fun t => t.onLines o fun l t => t.lineIn l))

/-- LINE_RESTART, order code 3 (R19). -/
def execLineRestart (o : Order) (s : State) : Result :=
  complete s (s.toPart.live (s.toPart.supervisoryOrder 3 .lines o fun t => t.onLines o fun l t => t.lineRestart l))

/-- TEST_START, order code 4 (R20). -/
def execTestStart (o : Order) (s : State) : Result :=
  complete s (s.toPart.live (s.toPart.supervisoryOrder 4 .lines o fun t => t.onLines o fun l t => t.testStart l))

/-- TEST_STOP, order code 5 (R20). -/
def execTestStop (o : Order) (s : State) : Result :=
  complete s (s.toPart.live (s.toPart.supervisoryOrder 5 .lines o fun t => t.onLines o fun l t => t.testStop l))

/-- INSERT_ERROR, order code 6 (R195). -/
def execInsertError (o : Order) (s : State) : Result :=
  complete s (s.toPart.live (s.toPart.supervisoryOrder 6 .lines o fun t => t.onLines o fun l t => t.insertError l))

/-- COUNT_TRANSFER, order code 7 (R200). -/
def execCountTransfer (o : Order) (s : State) : Result :=
  complete s (s.toPart.live (s.toPart.supervisoryOrder 7 .lines o fun t => t.onLines o fun l t => t.countTransfer l))

/-- QUERY, order code 8 (R205). -/
def execQuery (o : Order) (s : State) : Result :=
  complete s (s.toPart.live (s.toPart.openOrder .lines o fun t => t.onLines o fun l t => t.takeQuery l false))

/-- QUERY_AND_CLEAR, order code 9 (R205). -/
def execQueryAndClear (o : Order) (s : State) : Result :=
  complete s (s.toPart.live (s.toPart.supervisoryOrder 9 .lines o fun t => t.onLines o fun l t => t.takeQuery l true))

/-- RELEASE, order code 10 (R158). -/
def execRelease (o : Order) (s : State) : Result :=
  complete s (s.toPart.live (s.toPart.supervisoryOrder 10 (.station 1) o fun t => t.releaseGroup o))

/-- REHOLD, order code 11 (R158). -/
def execRehold (o : Order) (s : State) : Result :=
  complete s (s.toPart.live (s.toPart.supervisoryOrder 11 (.station 1) o fun t => t.reholdGroup o))

/-- RERUN, order code 12 (R126). -/
def execRerun (o : Order) (s : State) : Result :=
  complete s (s.toPart.live (s.toPart.openOrder (.station 3) o fun t => t.rerunOrder o))

/-- STATION_RESTART, order code 13 (R215). -/
def execStationRestart (o : Order) (straps : BitVec 5) (s : State) : Result :=
  complete s (s.toPart.live (s.toPart.stationRestart o straps))

end Sys2Proof.Machine
end

