-- ==== Sys2Proof/Machine/TimerCommands.lean ====
section
/-! DEFINITION. The meanings of the timer commands of stories, claims and the report period (03, 06, 07,
10). -/

namespace Sys2Proof.Machine

/-- The stall timer of line `l` runs. -/
def Part.stallRuns (s : Part) (l : LineNo) : Bool := s.active l && (s.line l).recog.stallSince.isSome

/-- STALL_RISE (R67). -/
def execStallRise (l : LineNo) (s : State) : Result :=
  complete s (if s.toPart.stallRuns l then s.toPart.setCond l .stall true else s.toPart)

/-- STALL_EXPIRY (R68). -/
def execStallExpiry (l : LineNo) (s : State) : Result :=
  complete s (if s.toPart.stallRuns l then s.toPart.stallExpire l else s.toPart)

/-- ENTRY_AGED (R112). -/
def execEntryAged (service serial : Nat) (s : State) : Result := done s (s.toPart.ageEntry service serial)

/-- PEER_SILENCE_20S (R122). -/
def execPeerSilence20s (i : Slot) (s : State) : Result := complete s (s.toPart.silence20 i)

/-- PEER_SILENCE_120S (R122). -/
def execPeerSilence120s (i : Slot) (s : State) : Result := complete s (s.toPart.silence120 i)

/-- CLAIM_PENDING_EXPIRY (R143). -/
def execClaimPendingExpiry (i : Slot) (s : State) : Result := complete s (s.toPart.claimExpires i)

/-- INTAKE_SILENCE_EXPIRY (R148). -/
def execIntakeSilenceExpiry (i : Slot) (s : State) : Result := complete s (s.toPart.intakeExpires i)

/-- The 60 s expiry of the report period: the timer starts again and each AUTO line transfers (R200). -/
def Part.reportPeriod (s : Part) : Part :=
  if s.loader = .running then
    ({ s with reportSince := some s.now } : Part).forLines allLines fun l s =>
      if s.active l && (s.cfg l).auto then s.transfer l else s
  else s

/-- REPORT_PERIOD_EXPIRY (R200). -/
def execReportPeriodExpiry (s : State) : Result := complete s s.toPart.reportPeriod

end Sys2Proof.Machine
end

