-- ==== Sys2Proof/Machine/Dispatch.lean ====
section
/-! DEFINITION. The meaning of every command: one arm for each constructor of Instr. -/

namespace Sys2Proof.Machine

def exec (i : Instr) (s : State) : Host.Outcome State Fault Refusal :=
  match i with
  | .powerOn straps => Sys2Proof.Machine.execPowerOn straps s
  | .resetAssert => Sys2Proof.Machine.execResetAssert s
  | .resetRelease straps => Sys2Proof.Machine.execResetRelease straps s
  | .configReadComplete image => Sys2Proof.Machine.execConfigReadComplete image s
  | .configFaultRepeat => Sys2Proof.Machine.execConfigFaultRepeat s
  | .rxMarkToSpace l => Sys2Proof.Machine.execRxMarkToSpace l s
  | .rxSpaceToMark l => Sys2Proof.Machine.execRxSpaceToMark l s
  | .receivedCode l => Sys2Proof.Machine.execReceivedCode l s
  | .breakRise l => Sys2Proof.Machine.execBreakRise l s
  | .lineOpenRise l => Sys2Proof.Machine.execLineOpenRise l s
  | .lineOpenFall l => Sys2Proof.Machine.execLineOpenFall l s
  | .ready l => Sys2Proof.Machine.execReady l s
  | .codeSent l => Sys2Proof.Machine.execCodeSent l s
  | .stallRise l => Sys2Proof.Machine.execStallRise l s
  | .stallExpiry l => Sys2Proof.Machine.execStallExpiry l s
  | .entryAged service serial => Sys2Proof.Machine.execEntryAged service serial s
  | .peerSilence20s slot => Sys2Proof.Machine.execPeerSilence20s slot s
  | .peerSilence120s slot => Sys2Proof.Machine.execPeerSilence120s slot s
  | .claimPendingExpiry slot => Sys2Proof.Machine.execClaimPendingExpiry slot s
  | .intakeSilenceExpiry slot => Sys2Proof.Machine.execIntakeSilenceExpiry slot s
  | .reportPeriodExpiry => Sys2Proof.Machine.execReportPeriodExpiry s
  | .busFree => Sys2Proof.Machine.execBusFree s
  | .frameCheck bytes => Sys2Proof.Machine.execFrameCheck bytes s
  | .ownFrameSpoilSlot dominant => Sys2Proof.Machine.execOwnFrameSpoilSlot dominant s
  | .busSilentExpiry => Sys2Proof.Machine.execBusSilentExpiry s
  | .heardCall f => Sys2Proof.Machine.execHeardCall f s
  | .heardClaim f => Sys2Proof.Machine.execHeardClaim f s
  | .heardOffer f => Sys2Proof.Machine.execHeardOffer f s
  | .heardTextStory f => Sys2Proof.Machine.execHeardTextStory f s
  | .heardCloseStory f => Sys2Proof.Machine.execHeardCloseStory f s
  | .heardWithdrawStory f => Sys2Proof.Machine.execHeardWithdrawStory f s
  | .heardTextCall f => Sys2Proof.Machine.execHeardTextCall f s
  | .heardCloseCall f => Sys2Proof.Machine.execHeardCloseCall f s
  | .heardWithdrawCall f => Sys2Proof.Machine.execHeardWithdrawCall f s
  | .heardNotice f => Sys2Proof.Machine.execHeardNotice f s
  | .lineOut o => Sys2Proof.Machine.execLineOut o s
  | .lineIn o => Sys2Proof.Machine.execLineIn o s
  | .lineRestart o => Sys2Proof.Machine.execLineRestart o s
  | .testStart o => Sys2Proof.Machine.execTestStart o s
  | .testStop o => Sys2Proof.Machine.execTestStop o s
  | .insertError o => Sys2Proof.Machine.execInsertError o s
  | .countTransfer o => Sys2Proof.Machine.execCountTransfer o s
  | .query o => Sys2Proof.Machine.execQuery o s
  | .queryAndClear o => Sys2Proof.Machine.execQueryAndClear o s
  | .release o => Sys2Proof.Machine.execRelease o s
  | .rehold o => Sys2Proof.Machine.execRehold o s
  | .rerun o => Sys2Proof.Machine.execRerun o s
  | .stationRestart o straps => Sys2Proof.Machine.execStationRestart o straps s
  | .startCheck l => Sys2Proof.Machine.execStartCheck l s
  | .dataSample l => Sys2Proof.Machine.execDataSample l s
  | .arbitrationLost => Sys2Proof.Machine.execArbitrationLost s
  | .startBitRead => Sys2Proof.Machine.execStartBitRead s
  | .spoilSlotReadDominant => Sys2Proof.Machine.execSpoilSlotReadDominant s
  | .powerFail => Sys2Proof.Machine.execPowerFail s

end Sys2Proof.Machine
end

