-- ==== Sys2Proof/Machine/Step.lean ====
section
/-! DEFINITION. The step: the command at the front of the queue, or the clock's tick on an empty queue
(notes/assumptions/1.md); and where the host puts a command. -/

namespace Sys2Proof.Machine

/-- One step on an empty queue: the command of a timer that has run out is put in the queue, or else time
passes. -/
def State.tick (s : State) : State :=
  match s.toPart.dueCommand with
  | some c => { s with pending := [c] }
  | none => { s with toPart := s.toPart.passTime }

/-- One step: the command at the front of the queue is carried out on the state with the queue's rest. -/
def step (s : State) : Host.Outcome State Fault Refusal :=
  match s.pending with
  | c :: rest => exec c { s with pending := rest }
  | [] => .next s.tick

/-- `s` with the command that a word spells at the front of its queue; `s` itself where the word spells
none. -/
def State.withFetchWord (s : State) (nbits w : Nat) : State :=
  match decodeTableWord nbits w with
  | some c => { s with pending := c :: s.pending }
  | none => s

end Sys2Proof.Machine
end

