-- ==== Sys2Proof/Safety.lean ====
section
/-! DEFINITION. What a sound state is: the laws of the WL58 that hold between commands, in the terms that
claims use. -/

namespace Sys2Proof.Machine

/-- Two entries of the register have different keys (R108). -/
def Entry.keysDiffer (a b : Entry) : Prop := ¬(a.service = b.service ∧ a.serial = b.serial)

/-- The law of the offer register (R108): at most 48 entries, at most one for each key. -/
def RegisterLaw (es : List Entry) : Prop :=
  es.length ≤ Config.registerSize ∧ es.Pairwise Entry.keysDiffer

/-- The law of the send list of station `n` (R182, R183): ascending arbitration values, at most one request
for each owner. -/
def SendListLaw (n : Nat) (rs : List Request) : Prop :=
  rs.Pairwise fun a b => a.value n ≤ b.value n ∧ a.owner ≠ b.owner

/-- The blocks that the record of a slot holds, stored and reserved (R74, R80). -/
def heldBlocks (r : Option Record) : List Nat :=
  match r with
  | some r => r.blocks ++ r.reservation
  | none => []

/-- Every block that records hold. -/
def Part.allHeld (s : Part) : List Nat := s.records.toList.flatMap heldBlocks

/-- The law of the copy store (R75): every block is free, or held by one record, once. -/
def Part.BlockLaw (s : Part) : Prop := (s.free ++ s.allHeld).Perm (List.range Config.blocks)

/-- The bounds of a line's counts (R199, R200, R204). -/
def Supervision.Bounded (x : Supervision) : Prop :=
  x.counter ≤ 65535 ∧ x.snapshot ≤ 65535 ∧
    ∀ k : Fin 8, ∀ r, x.faults.get k = some r → 1 ≤ r.count ∧ r.count ≤ 255

/-- The bounds of the part's counts: each line's, the spoil count (R185), the refusals (R216). -/
def Part.CountLaw (s : Part) : Prop :=
  (∀ l, (s.line l).sup.Bounded) ∧ s.port.spoilCount ≤ 8 ∧ s.notices.refusals ≤ 65535

/-- The law of a tracker (R96): no gap while the expected serial is unknown; else at most 16 gaps, each 1 to
50 serials behind the expected serial, in order of age, so that none stands twice. -/
def Tracker.Law (t : Tracker) : Prop :=
  match t.expected with
  | none => t.gaps = []
  | some e =>
    1 ≤ e ∧ e ≤ 9999 ∧ t.gaps.length ≤ Config.gapSize ∧
      (∀ g ∈ t.gaps, 1 ≤ g ∧ g ≤ 9999 ∧ 1 ≤ serialBehind g e ∧ serialBehind g e ≤ 50) ∧
      t.gaps.Pairwise fun a b => serialBehind b e < serialBehind a e

/-- The law of the gap lists (R96). -/
def Part.GapLaw (s : Part) : Prop := ∀ t ∈ s.trackers, t.Law

/-- The copy store's cells are in canonical form. -/
def Part.MemoryLaw (s : Part) : Prop := s.mem.wf = true

/-- The laws together. -/
def Part.Laws (s : Part) : Prop :=
  s.MemoryLaw ∧ s.BlockLaw ∧ RegisterLaw s.register ∧ SendListLaw s.number s.port.sendList ∧ s.CountLaw ∧
    s.GapLaw

/-! ### Kinds of command -/

/-- The commands of the supply, the reset input and the loader (11.1), STATION_RESTART among them. -/
def ofLoader : Instr → Bool
  | .powerOn _ | .resetAssert | .resetRelease _ | .configReadComplete _ | .configFaultRepeat
  | .stationRestart _ _ | .powerFail => true
  | .rxMarkToSpace _ | .rxSpaceToMark _ | .receivedCode _ | .breakRise _ | .lineOpenRise _
  | .lineOpenFall _ | .ready _ | .codeSent _ | .stallRise _ | .stallExpiry _ | .entryAged _ _
  | .peerSilence20s _ | .peerSilence120s _ | .claimPendingExpiry _ | .intakeSilenceExpiry _
  | .reportPeriodExpiry | .busFree | .frameCheck _ | .ownFrameSpoilSlot _ | .busSilentExpiry
  | .heardCall _ | .heardClaim _ | .heardOffer _ | .heardTextStory _ | .heardCloseStory _
  | .heardWithdrawStory _ | .heardTextCall _ | .heardCloseCall _ | .heardWithdrawCall _
  | .heardNotice _ | .lineOut _ | .lineIn _ | .lineRestart _ | .testStart _ | .testStop _
  | .insertError _ | .countTransfer _ | .query _ | .queryAndClear _ | .release _ | .rehold _
  | .rerun _ | .startCheck _ | .dataSample _ | .arbitrationLost | .startBitRead
  | .spoilSlotReadDominant => false

/-- The commands in which an entry of the copy store can be written: those that hand on a code or release
held characters (R56), and those that encode a caller's text or close its codes (R44, R45). The own spoil
slot is among them because the station hears its own frames (R186). -/
def writesEntries : Instr → Bool
  | .rxSpaceToMark _ | .receivedCode _ | .stallExpiry _ | .heardTextCall _ | .heardCloseCall _
  | .ownFrameSpoilSlot _ => true
  | .powerOn _ | .resetAssert | .resetRelease _ | .configReadComplete _ | .configFaultRepeat
  | .stationRestart _ _ | .powerFail | .rxMarkToSpace _ | .breakRise _ | .lineOpenRise _
  | .lineOpenFall _ | .ready _ | .codeSent _ | .stallRise _ | .entryAged _ _
  | .peerSilence20s _ | .peerSilence120s _ | .claimPendingExpiry _ | .intakeSilenceExpiry _
  | .reportPeriodExpiry | .busFree | .frameCheck _ | .busSilentExpiry
  | .heardCall _ | .heardClaim _ | .heardOffer _ | .heardTextStory _ | .heardCloseStory _
  | .heardWithdrawStory _ | .heardWithdrawCall _
  | .heardNotice _ | .lineOut _ | .lineIn _ | .lineRestart _ | .testStart _ | .testStop _
  | .insertError _ | .countTransfer _ | .query _ | .queryAndClear _ | .release _ | .rehold _
  | .rerun _ | .startCheck _ | .dataSample _ | .arbitrationLost | .startBitRead
  | .spoilSlotReadDominant => false

/-! ### Situations that claims name -/

/-- The station runs, and its port hears the frame under way: it has counted its first ten idle bits (R175),
and the frame did not fail its check (R180). -/
def Part.hears (s : Part) : Prop := s.loader = .running ∧ s.port.rejecting = false ∧ s.port.deaf = false

/-- An order of form `k` is heard, for this station and well formed (R187, R214). -/
def Part.takes (s : Part) (k : OrderForm) (o : Order) : Prop :=
  s.hears ∧ s.addressed o = true ∧ orderFits k o = true

/-- Line `l` is one that the order names (R214). -/
def names (o : Order) (l : LineNo) : Prop := l ∈ (orderLines o).getD []

/-- The record `r` of slot `i` is freed, and no other (R81): its blocks and then its reservation go to the
tail of the free list, its request leaves the send list, it leaves the recent list. -/
def Frees (s t : Part) (i : Slot) (r : Record) : Prop :=
  t.record i = none ∧ (∀ j, j ≠ i → t.record j = s.record j) ∧
    t.free = s.free ++ (r.blocks ++ r.reservation) ∧ t.recent = s.recent.filter (fun j => !(j == i)) ∧
    t.hasRequest (.record i) = false ∧ t.mem = s.mem ∧ t.lines = s.lines ∧ t.register = s.register ∧
    t.trackers = s.trackers ∧ t.groups = s.groups

/-- The outbound record of slot `i` is in ABORTING (R150, R80): no count of characters, no encode state and no
timer, with its blocks and reservation kept, and its WITHDRAW requested. No other record changes. -/
def Aborted (s t : Part) (i : Slot) (r : Record) (x : OutRecord) : Prop :=
  t.record i = some { r with body := .outbound { x with
      state := .aborting, chars := none, claim := none, intake := none } } ∧
    (∀ j, j ≠ i → t.record j = s.record j) ∧ t.free = s.free ∧ t.mem = s.mem ∧
    (s.hasRequest (.record i) = false →
      t.requestOf (.record i) = some { owner := .record i, cls := r.priority, kind := .withdraw, key := x.call })

/-- The outbound record of slot `i` aborts its intake, and no line changes (R150). -/
def Aborts (s t : Part) (i : Slot) (r : Record) (x : OutRecord) : Prop := Aborted s t i r x ∧ t.lines = s.lines

/-- The standby record of slot `i` has taken its story over (R123, R124): CARRYING with the takeover flag,
its bus cursor at its peer progress or, when closed, at its count if that is less, and its OFFER requested, of
the story's class and the slot's key. -/
def TakesOver (s t : Part) (i : Slot) (r : Record) (x : InRecord) (p : Peer) : Prop :=
  t.record i = some { r with body := .inbound { x with
      state := .carrying, takeover := true, peer := none
      cursor := if r.closed = true ∧ r.count < p.progress then r.count else p.progress } } ∧
    t.hasRequest (.record i) = true ∧
    (s.hasRequest (.record i) = false →
      t.requestOf (.record i) = some { owner := .record i, cls := r.priority, kind := .offer, key := i.val })

/-- Fault kind `k` of line `l` has occurred once more, with the fields `f` (R204). -/
def FaultRecorded (s t : Part) (l : LineNo) (k : FaultKind) (f : FaultFields) : Prop :=
  (t.line l).sup.faults.get k.idx = some
    { fields := f, changed := true
      count := min 255 ((((s.line l).sup.faults.get k.idx).map FaultRecord.count).getD 0 + 1) }

/-- No tracker, no GAP condition and no SERIAL-GAP record differs from what it was. -/
def TrackersKept (s t : Part) : Prop :=
  t.trackers = s.trackers ∧ ∀ l, t.cond l .gap = s.cond l .gap ∧
    (t.line l).sup.faults.get FaultKind.serialGap.idx = (s.line l).sup.faults.get FaultKind.serialGap.idx

/-- Serial `n` is taken by the tracker of the service, if there is one, and no other tracker changes (R102, R104).
GAP of each RECEIVE or TWO-WAY line of the service is raised while its gap list holds a serial, and other lines
keep theirs (R107). Where the act loses serials, SERIAL-GAP is recorded with the fields `f` for the lines of `for'`
(R101, R105), and for no other. What the tracker becomes and what it loses is the subject of
`Obligations.SerialsTaken`. -/
def SerialTaken (s t : Part) (service n : Nat) (for' : LineNo → Prop) (f : LineNo → FaultFields) : Prop :=
  (∀ m, m ≠ service → t.tracker m = s.tracker m) ∧
  (s.tracker service = none → TrackersKept s t) ∧
  ∀ k, s.tracker service = some k →
    t.tracker service = some (k.take n).1 ∧
    ∀ l,
      ((s.cfg l).mode.receives = true → (s.cfg l).service = service →
        (t.cond l .gap = true ↔ (k.take n).1.gaps ≠ [])) ∧
      ((s.cfg l).mode.receives = false ∨ (s.cfg l).service ≠ service → t.cond l .gap = s.cond l .gap) ∧
      ((k.take n).2 = true ∧ for' l → FaultRecorded s t l .serialGap (f l)) ∧
      (¬((k.take n).2 = true ∧ for' l) →
        (t.line l).sup.faults.get FaultKind.serialGap.idx = (s.line l).sup.faults.get FaultKind.serialGap.idx)

/-- Line `l` is the lowest-numbered line of the tracker of the service (R94). -/
def Part.leads (s : Part) (service : Nat) (l : LineNo) : Prop :=
  ((s.cfg l).mode.receives = true ∧ (s.cfg l).service = service) ∧
    ∀ m : LineNo, m.val < l.val → ¬((s.cfg m).mode.receives = true ∧ (s.cfg m).service = service)

/-- STORE-LOW after an act of the store (R91): raised below 48 free blocks, low at 96 or more, and between them at
the level it had. -/
def StoreJudged (s t : Part) : Prop :=
  (t.free.length < 48 → t.stationCond .storeLow = true) ∧
    (96 ≤ t.free.length → t.stationCond .storeLow = false) ∧
    (48 ≤ t.free.length → t.free.length < 96 → t.stationCond .storeLow = s.stationCond .storeLow)

/-- The entry that the code in assembly on line `l` is looked up as (R28). -/
def Part.readEntry (s : Part) (l : LineNo) : MapEntry :=
  mapEntry (s.map l) (s.line l).plane (s.line l).unit.acc.toNat

/-- The decode plane of line `l` after that code, when it is no shift (R28). -/
def Part.planeRead (s : Part) (l : LineNo) : Plane := planeAfter (s.cfg l) (s.readEntry l) (s.line l).plane

/-- The stop sample of line `l` hands character `c` to the recognizer, and the converter does nothing besides
(R4, R28, R31, R32, R33): it falls on mark, and the code is no shift, is assigned and admitted, and is no
enquiry. -/
def Part.delivers (s : Part) (l : LineNo) (c : Byte) : Prop :=
  s.assembles l = true ∧ (s.line l).unit.rcv = .stop ∧ s.mark l = true ∧
    shiftPlane (s.map l) (s.line l).unit.acc.toNat = none ∧ (s.readEntry l).cls ≠ .unassigned ∧
    s.enquires l (s.readEntry l) = false ∧
    admissionOf s.settings.admission (s.cfg l).profile false (s.readEntry l).cls = .pass ∧
    formatChar (s.readEntry l) = some c

/-- The stop sample of line `l` is taken, and the converter hands character `c`, or nothing, to the recognizer and
reports fault `k`, or none: a code read on space gives the substitute and FRAMING (R30); a shift gives nothing
(R27); an unassigned code gives the substitute and MUTILATED (R29); any other follows its inbound admission
action (R31), a CR or a NULL that passes giving nothing (R32). An enquiry is left out (R33), and so is a code
of no mark element read on space, which is held (R5). -/
def Part.converts (s : Part) (l : LineNo) (c : Option Byte) (k : Option FaultKind) : Prop :=
  let code := (s.line l).unit.acc
  let shift := shiftPlane (s.map l) code.toNat
  let e := s.readEntry l
  let action := admissionOf s.settings.admission (s.cfg l).profile false e.cls
  let subst := (s.map l).subst
  s.assembles l = true ∧ (s.line l).unit.rcv = .stop ∧
    ((s.mark l = false ∧ code ≠ 0 ∧ c = some subst ∧ k = some .framing) ∨
      (s.mark l = true ∧ shift.isSome = true ∧ c = none ∧ k = none) ∨
      (s.mark l = true ∧ shift = none ∧ e.cls = .unassigned ∧ c = some subst ∧ k = some .mutilated) ∨
      (s.mark l = true ∧ shift = none ∧ e.cls ≠ .unassigned ∧ s.enquires l e = false ∧
        ((action = .pass ∧ k = none ∧ c = if e.cls = .format ∧ e.char ≠ 10 then none else some e.char) ∨
          (action = .substitute ∧ c = some subst ∧ k = some .admission) ∨
          ((action = .drop ∨ action = .refuse) ∧ c = none ∧ k = some .admission))))

/-- What the conversion of that code leaves at line `l` beside the character: the receiver in HUNT or, after
space, in WAIT-MARK (R4), the decode plane (R27, R28), fault `k` with the fields `f` and no other (R34, R204),
and the quality counter, which counts FRAMING and MUTILATED by the counted kind (R199). -/
def Converted (s t : Part) (l : LineNo) (k : Option FaultKind) (f : FaultFields) : Prop :=
  (t.line l).plane = (shiftPlane (s.map l) (s.line l).unit.acc.toNat).getD (s.planeRead l) ∧
    (∀ x, k = some x → FaultRecorded s t l x f) ∧
    (∀ j : Fin 8, k.map FaultKind.idx ≠ some j →
      (t.line l).sup.faults.get j = (s.line l).sup.faults.get j) ∧
    (t.line l).sup.counter =
      (let counted := (s.cfg l).counted
       if (k = some .framing ∧ (counted = .framing ∨ counted = .framingMutilated)) ∨
          (k = some .mutilated ∧ (counted = .mutilated ∨ counted = .framingMutilated)) then
        min 65535 ((s.line l).sup.counter + 1)
       else (s.line l).sup.counter)

/-- The receiver of line `l` after its stop sample: in HUNT on mark, in WAIT-MARK on space (R4, R5). -/
def Part.sampledUnit (s : Part) (l : LineNo) : LineUnit :=
  { (s.line l).unit with rcv := if s.mark l then .hunt else .waitMark }

/-- One more character of the story of `r` goes into the last of `blocks` (R56, R76): the story's own, or these
and the head of the free list when they are full. -/
def Part.room (s : Part) (r : Record) (blocks : List Nat) : Prop :=
  (r.count ≠ 64 * r.blocks.length ∧ blocks = r.blocks) ∨
    (r.count = 64 * r.blocks.length ∧ ∃ b rest, s.free = b :: rest ∧ blocks = r.blocks ++ [b])

/-- A story has been opened on line `l` in slot `j` (R54, R55). -/
def Opened (s t : Part) (l : LineNo) (j : Slot) : Prop :=
  t.record j = some
      { line := some l, priority := 3, blocks := [], count := 0
        body := .inbound
          { state := .opening, service := (s.cfg l).service, serial := none, category := 31, slug := [],
            disp := none, cursor := 0, mutilation := 0, truncated := false, overrun := false,
            headingFault := false, rerun := false, quiet := false, takeover := false, referenced := none,
            peer := none } } ∧
    (t.line l).recog =
      { state := .opening, window := [], lineStart := false, lookahead := [], heading := [], tied := some j,
        overrun := false, stallSince := some s.now }

/-- The inbound record of slot `i`, in CARRYING or STANDBY, as the close of its story leaves it (R70, R124):
STANDBY-COMPLETE, or closed with its cursor lowered to its count and its next frame asked for. -/
def StoryEnded (s t : Part) (i : Slot) (r : Record) (x : InRecord) (truncated : Bool) : Prop :=
  (x.state = .standby →
    t.record i = some { r with
      line := none, body := .inbound { x with truncated := x.truncated || truncated, state := .standbyComplete } }) ∧
  (x.state = .carrying →
    t.record i = some { r with
      line := none
      body := .inbound { x with
        truncated := x.truncated || truncated
        cursor := if r.count < x.cursor then r.count else x.cursor } } ∧
    (s.hasRequest (.record i) = false → (t.requestOf (.record i)).map Request.kind =
      some (if x.quiet = false ∧ x.cursor < r.count then FrameKind.text else FrameKind.close)))

/-- Cells written one after another from entry `n` on of a story whose blocks are `blocks`. -/
def Memory.store (m : Memory) (blocks : List Nat) : Nat → List Byte → Memory
  | _, [] => m
  | n, b :: bs => Memory.store (m.write (entryAddr blocks n) b) blocks (n + 1) bs

/-- Line `l` has transferred its counter (R200): snapshot taken, counter at 0, COUNT-FULL low, DEGRADED by the
threshold, its report placed; nothing else of the line changes but condition edges. -/
def Transferred (s t : Part) (l : LineNo) : Prop :=
  (t.line l).sup.snapshot = (s.line l).sup.counter ∧ (t.line l).sup.counter = 0 ∧
    (t.line l).sup.unreported = true ∧ (t.line l).sup.lateSnapshot = true ∧ t.cond l .countFull = false ∧
    t.cond l .degraded = decide ((s.cfg l).degraded < (s.line l).sup.counter) ∧
    t.hasRequest (.report l) = true ∧
    (∀ c, c ≠ .countFull → c ≠ .degraded → t.cond l c = s.cond l c) ∧
    { t.line l with sup := (s.line l).sup } = s.line l ∧
    { (t.line l).sup with
      snapshot := (s.line l).sup.snapshot, counter := (s.line l).sup.counter,
      unreported := (s.line l).sup.unreported, lateSnapshot := (s.line l).sup.lateSnapshot,
      levels := (s.line l).sup.levels, changed := (s.line l).sup.changed } = (s.line l).sup

/-- A code that the scheduler begins now. -/
def Part.begun (s : Part) (c : Code) : OutCode :=
  { code := c, source := .scheduler, began := s.now, counts := true }

/-- The command `c` ends the claims of line `l` (R144): BREAK or LINE-OPEN rises, or LINE-OUT or TEST-START of
that one line is taken. -/
def Part.stopsClaims (s : Part) (l : LineNo) (c : Instr) : Prop :=
  (c = .breakRise l ∧ s.active l = true ∧ (s.line l).unit.spaceSince.isSome = true ∧ s.cond l .brk = false) ∨
  (c = .lineOpenRise l ∧ s.active l = true ∧ (s.line l).unit.spaceSince.isSome = true ∧
    s.cond l .brk = true ∧ s.cond l .lineOpen = false) ∨
  (∃ o, (c = .lineOut o ∨ c = .testStart o) ∧ s.takes .lines o ∧ s.supervises o = true ∧ s.active l = true ∧
    orderLines o = some [l] ∧ (s.line l).unit.state = .idle)

/-- The command `c` is a line cause on line `l` (R71): LINE-OPEN rises, or LINE-OUT or LINE-RESTART of that
one line is taken. -/
def Part.lineCauses (s : Part) (l : LineNo) (c : Instr) : Prop :=
  (c = .lineOpenRise l ∧ s.active l = true ∧ (s.line l).unit.spaceSince.isSome = true ∧
    s.cond l .brk = true ∧ s.cond l .lineOpen = false) ∨
  (∃ o, (c = .lineOut o ∨ c = .lineRestart o) ∧ s.takes .lines o ∧ s.supervises o = true ∧ s.active l = true ∧
    orderLines o = some [l] ∧ (s.line l).unit.state = .idle)

end Sys2Proof.Machine
end

