-- ==== Sys2Proof/Certificates/Slice0/Obligations.lean ====
section
/-! DEFINITION. The statements for the provers, each with the rule of spec/ it formalises.

How they read: `exec c s = .next { s with toPart := t.serveBus }` says that command `c` completes, that the
queue is left as it is, and that the part is `t` once a free port has begun the frame of the head request
(`Obligations.FreePortBeginsHeadRequest` says what `serveBus` does). An equation
`{ t with x := s.x, y := s.y } = s.toPart` says that `t` is `s` in everything but `x` and `y`. -/

open Sys2Proof Sys2Proof.Machine

/-! ### The machine -/

/-- A step takes the command at the front of the queue and runs `exec` on it with the queue's rest. -/
def Obligations.StepRunsTheFrontCommand : Prop :=
  ∀ (c : Instr) (rest : List Instr) (s : State),
    step { s with pending := c :: rest } = exec c { s with pending := rest }

/-- MODEL'S CHOICE (notes/assumptions/1.md): on an empty queue a step puts the command of a timer that has run out
in the queue, and moves the clock on by one half-microsecond when there is none. A port in CONTENDING whose
frame began 25 bit times of 16 µs ago, the start bit and the 24 bits of the arbitration field, is then in
SENDING (R178, R176, R175). The clock's moving that port on is notes/assumptions/8.md. The commands that run out
are those due on a line, for a record, for a register entry or for the station, and there is none when each of
these lists is empty; BUS_FREE is never among them, since the idle bits of the bus are not clocked
(notes/assumptions/8.md). -/
def Obligations.EmptyQueueTicks : Prop :=
  (∀ s : Part,
    (s.dueCommand = none ↔
      (∀ l, s.dueLine l = []) ∧ (∀ i, s.dueRecord i = []) ∧ s.dueEntries = [] ∧ s.dueStation = []) ∧
    (∀ c, s.dueCommand = some c → c ≠ .busFree ∧
      ((∃ l, c ∈ s.dueLine l) ∨ (∃ i, c ∈ s.dueRecord i) ∨ c ∈ s.dueEntries ∨ c ∈ s.dueStation))) ∧
  ∀ s : State, s.pending = [] →
    (∀ c, s.toPart.dueCommand = some c → step s = .next { s with pending := [c] }) ∧
    (s.toPart.dueCommand = none →
      ((∀ f, s.port.own = some f → s.port.state = .contending → s.now + 1 < f.began + 800) →
        step s = .next { s with now := s.now + 1 }) ∧
      (∀ f, s.port.own = some f → s.port.state = .contending → f.began + 800 ≤ s.now + 1 →
        step s = .next { s with now := s.now + 1, port := { s.port with state := .sending } }))

/-- No command but those of the supply, the reset input, the loader and STATION_RESTART changes a setting
(R1), the station number or the loader's state (R209), or a fixed text (R46); and none moves the clock. Of
them, those change a cell of the copy store that store characters or codes: those that hand on a code or
release held characters (R56), those of a caller's text (R44, R45), and the spoil slot of an own frame, which
the station hears itself (R186). -/
def Obligations.CommandsKeepSettingsAndEntries : Prop :=
  ∀ (c : Instr) (s : State), ofLoader c = false →
    ∃ t : Part, exec c s = .next { s with toPart := t } ∧
      t.settings = s.settings ∧ t.number = s.number ∧ t.loader = s.loader ∧
      t.faultReason = s.faultReason ∧ t.repeatSince = s.repeatSince ∧ t.now = s.now ∧
      t.powered = s.powered ∧ t.resetHeld = s.resetHeld ∧ (∀ l, (t.line l).texts = (s.line l).texts) ∧
      (writesEntries c = false → t.mem = s.mem)

/-! ### Laws that every step keeps -/

/-- The canonical form of the copy store's cells is kept by every step. -/
def Obligations.EveryStepKeepsTheMemoryForm : Prop :=
  ∀ s t : State, step s = .next t → s.toPart.MemoryLaw → t.toPart.MemoryLaw

/-- Every step keeps the law of R74 and R75: each of the 768 blocks is at every moment free, or in the block
list or the reservation of one record, once. -/
def Obligations.EveryStepKeepsTheBlocks : Prop :=
  ∀ s t : State, step s = .next t → s.toPart.BlockLaw → t.toPart.BlockLaw

/-- Every step keeps the laws of the two lists of the station: the offer register holds at most 48 entries
and one for each key (R108); the send list stands in ascending order of arbitration value with one request
for each owner (R182, R183). -/
def Obligations.EveryStepKeepsTheLists : Prop :=
  ∀ s t : State, step s = .next t →
    (RegisterLaw s.register → RegisterLaw t.register) ∧
    (SendListLaw s.number s.port.sendList → SendListLaw t.number t.port.sendList)

/-- Every step keeps the bounds of the counts (R185, R199, R200, R204, R216) and the law of the gap lists
(R96): at most 16 gaps, in order of age, each once and 1 to 50 serials behind the expected serial. -/
def Obligations.EveryStepKeepsCountsAndGaps : Prop :=
  ∀ s t : State, step s = .next t →
    (s.toPart.CountLaw → t.toPart.CountLaw) ∧ (s.toPart.GapLaw → t.toPart.GapLaw)

/-- The machine after power-on meets every law, and holds what the chapters give for power-on: the loader
READING (R209), every line UNUSED (R2), all blocks free in ascending order and no record (R92), no tracker
(R94), an empty register (R108), closed groups (R158), an empty send list (R188), no condition (R208). The
cells' value and the station number of `State.reset` are the model's (notes/assumptions/4.md, 6.md). -/
def Obligations.PowerOnStateMeetsTheLaws : Prop :=
  let s := State.reset
  s.toPart.Laws ∧ s.pending = [] ∧ s.loader = .reading ∧ s.faultReason = 0 ∧
    (∀ l, (s.line l).unit.state = .unused ∧ (s.line l).recog.state = .outside ∧
      (s.line l).sched.queue = [] ∧ (s.line l).sched.running = false ∧ (s.line l).sup.levels = 0) ∧
    s.free = List.range 768 ∧ (∀ i, s.record i = none) ∧ s.recent = [] ∧ s.trackers = [] ∧
    s.register = [] ∧ (∀ g : Group, s.groups.get g = false) ∧ s.port.sendList = [] ∧
    s.port.state = .wait ∧ s.notices.levels = 0 ∧ s.notices.refusals = 0

/-! ### Supply, reset and start-up (11) -/

/-- POWER_ON, RESET_ASSERT, RESET_RELEASE and POWER_FAIL (R209, R188): with supply and RESET high every block takes
its power-on value and the loader enters READING under the strapped number; without supply, or with RESET low, the
station stands as at power-off. The clock and the inputs go on. What POWER_ON does under RESET and RESET_RELEASE
without supply, and the values of the off state, are the model's (notes/assumptions/24.md). MODEL'S CHOICE, wherever
every block takes its power-on value: each cell of the copy store then reads 0, after STATION_RESTART and
RESET_RELEASE too (notes/assumptions/6.md), the registers of the generators and checkers stand at 0
(notes/assumptions/22.md), and so do the fault reason and the unset receiver fields (notes/assumptions/4.md).
STATION_RESTART, heard, addressed and well formed, its line byte having no bearing (R190), is accepted from any
station in READING and CONFIG-FAULT, and by authority in RUNNING; accepted, it has the effect of power-on on every
block, with the straps read afresh (R214, R215). -/
def Obligations.SupplyResetAndRestart : Prop :=
  ∀ (s : State) (straps : BitVec 5),
    let off := fun supply low : Bool =>
      ({ Part.reset with
          now := s.now, hearings := s.hearings, rx := s.rx, number := 0, powered := supply,
          resetHeld := low, loader := .off } : Part)
    let reading :=
      ({ Part.reset with
          now := s.now, hearings := s.hearings, rx := s.rx, number := straps.toNat } : Part)
    (s.resetHeld = false → exec (.powerOn straps) s = .next { s with toPart := reading }) ∧
    (s.resetHeld = true → exec (.powerOn straps) s = .next { s with toPart := off true true }) ∧
    exec .resetAssert s = .next { s with toPart := off s.powered true } ∧
    (s.powered = true → exec (.resetRelease straps) s = .next { s with toPart := reading }) ∧
    (s.powered = false → exec (.resetRelease straps) s = .next { s with toPart := off false false }) ∧
    exec .powerFail s = .next { s with toPart := off false s.resetHeld } ∧
    ∀ o : Order, s.port.rejecting = false → s.port.deaf = false → s.addressed o = true →
      orderFits (.station 0) o = true →
      (s.loader = .reading ∨ s.loader = .configFault ∨ (s.loader = .running ∧ s.supervises o = true)) →
      exec (.stationRestart o straps) s = .next { s with toPart := { Part.reset with
        now := s.now, hearings := s.hearings + 1, rx := s.rx, powered := s.powered,
        resetHeld := s.resetHeld, number := straps.toNat } }

/-- CONFIG_READ_COMPLETE checks the image as a whole (R210): the length field outside 1,054 to 1,682 gives
reason MEMORY (31), a length that the counts do not give LENGTH (47), a sum other than the sum field SUM
(63); an image that passes is judged by the value checks in their order (R211), and service or CONFIG-FAULT
follows (R212, R213). Of the value checks: supervisor or default disposition out of range gives STATION (79)
and nothing else does; TIMING (80 + line) and LINE (96 + line) are given only for a mode or a setting of that
line out of range; an action above 3 or a range out of form lets no image pass, and ADMISSION (191) and RANGE
(207), the last two rows, are given for nothing else. Reason 0 leaves every such value within its range.
MODEL'S CHOICE (notes/assumptions/5.md): bytes that the memory does not answer read as 255. -/
def Obligations.ImageCheckedAsAWhole : Prop :=
  ∀ (image : List Byte) (s : State), s.loader = .reading →
    let b := fun k => (image.getD k 255).toNat
    let n := b 0 * 256 + b 1
    let fits := 1 ≤ b 5 ∧ b 5 ≤ 4 ∧ b 6 ≤ 8 ∧ n = 858 + 196 * b 5 + 5 * b 6
    let sum := ((List.range n).map fun k => if k = 2 ∨ k = 3 then 0 else b k).sum % 65536
    ∃ t : Part, exec (.configReadComplete image) s = .next { s with toPart := t.serveBus } ∧
      (n < 1054 ∨ 1682 < n → t.faultReason = 31) ∧
      (1054 ≤ n → n ≤ 1682 → ¬fits → t.faultReason = 47) ∧
      (1054 ≤ n → n ≤ 1682 → fits → sum ≠ b 2 * 256 + b 3 → t.faultReason = 63) ∧
      (1054 ≤ n → n ≤ 1682 → fits → sum = b 2 * 256 + b 3 →
        t.faultReason = firstFailure (valueChecks (readImage image n)) ∧
        (let station := (b 4 ≤ 31 ∨ b 4 = 255) ∧ b 7 ≤ 2
         let field := fun l k => b (10 + 90 * l + k)
         let u := fun l => field l 1 * 256 + field l 2
         let timing := fun l => field l 0 ≤ 3 ∧
           (field l 0 ≠ 0 → 5000 ≤ u l ∧ u l ≤ 25000 ∧ 2 ≤ field l 3 ∧ field l 3 ≤ 4)
         let line := fun l => field l 4 ≤ 15 ∧ field l 7 < b 5 ∧ field l 8 ≤ 7 ∧ 20 ≤ field l 9 ∧ field l 9 ≤ 80 ∧
           field l 10 ≤ 15 ∧ field l 10 < field l 9 ∧ field l 12 ≤ 1 ∧ field l 79 ≤ 1 ∧ field l 81 ≤ 1
         let supervision := fun l => 8 ≤ field l 83 ∧ field l 84 ≤ 3 ∧ field l 85 ≤ 1
         let action := fun k => b (730 + 196 * b 5 + k) ≤ 3
         let range := fun k =>
           let at' := fun j => b (858 + 196 * b 5 + 5 * k + j)
           let size := at' 2 * 256 + at' 3
           at' 4 ≤ 2 ∧ (∃ e ≤ 12, size = 2 ^ e) ∧ (at' 0 * 256 + at' 1) % size = 0
         (t.faultReason = 79 ↔ ¬station) ∧
         (∀ l < 8, t.faultReason = 80 + l → ¬timing l) ∧
         (∀ l < 8, t.faultReason = 96 + l → field l 0 ≠ 0 ∧ ¬line l) ∧
         ((∃ k < 128, ¬action k) → t.faultReason ≠ 0 ∧ t.faultReason ≤ 191) ∧
         (t.faultReason = 191 → ∃ k < 128, ¬action k) ∧
         ((∃ k < b 6, ¬range k) → t.faultReason = 207 ∨ (t.faultReason ≠ 0 ∧ t.faultReason ≤ 191)) ∧
         (t.faultReason = 207 → ∃ k < b 6, ¬range k) ∧
         (t.faultReason = 0 →
           station ∧ (∀ l < 8, timing l ∧ (field l 0 ≠ 0 → line l ∧ supervision l)) ∧
             (∀ k < 128, action k) ∧ ∀ k < b 6, range k))) ∧
      (t.loader = .configFault ↔ t.faultReason ≠ 0) ∧ (t.loader = .running ↔ t.faultReason = 0)

/-- CONFIG_READ_COMPLETE with an image that meets every check puts the station into service (R212, R2, R46,
R92, R94, R108, R158, R200, R203). The station, its clock, its inputs and its port stay; everything else
is as stated. MODEL'S CHOICE: the cells of the copy store read 0, `mem = []` (notes/assumptions/6.md); an image
shorter than its length is filled with 255 before it is read (notes/assumptions/5.md). -/
def Obligations.ServiceEntry : Prop :=
  ∀ (image : List Byte) (s : State), s.loader = .reading → imageReason image = 0 →
    let cfg := imageSettings (readImage image (imageLength image))
    ∃ t : Part, exec (.configReadComplete image) s = .next { s with toPart := t.serveBus } ∧
      t.loader = .running ∧ t.settings = cfg ∧ t.faultReason = 0 ∧ t.repeatSince = none ∧
      (∀ l, (cfg.lines.get l).mode = .unused → t.line l = Line.blank) ∧
      (∀ l, (cfg.lines.get l).mode ≠ .unused →
        t.line l = { Line.blank with
          unit := { LineUnit.blank with
            state := .idle, rcv := if s.mark l then .hunt else .waitMark, awaitReady := true,
            spaceSince := if s.mark l then none else some s.now,
            markSince := if s.mark l then some s.now else none },
          texts := if (cfg.lines.get l).mode.sends then
              encodeTexts (cfg.maps.getD (cfg.lines.get l).map .blank) (cfg.lines.get l)
            else Line.blank.texts }) ∧
      t.mem = [] ∧ t.free = List.range 768 ∧ (∀ i, t.record i = none) ∧ t.recent = [] ∧
      t.register = [] ∧ (∀ g : Group, t.groups.get g = false) ∧
      (∀ k ∈ t.trackers, k.expected = none ∧ k.gaps = []) ∧ (t.trackers.map Tracker.service).Nodup ∧
      (∀ n, n ∈ t.trackers.map Tracker.service ↔
        ∃ l : LineNo, (cfg.lines.get l).mode.receives = true ∧ (cfg.lines.get l).service = n) ∧
      t.notices = { Notices.blank with events := 1 } ∧
      t.port = { s.port with sendList := [stationRequest], sticky := none } ∧
      t.reportSince = some s.now ∧ t.now = s.now ∧ t.hearings = s.hearings ∧ t.rx = s.rx ∧
      t.number = s.number ∧ t.powered = s.powered ∧ t.resetHeld = s.resetHeld

/-- CONFIG_READ_COMPLETE with an image that fails a check enters CONFIG-FAULT (R213): the reason is kept, the
condition rises and the notice is placed with condition and event CONFIG-FAULT, the repeat timer starts.
CONFIG_FAULT_REPEAT falls due 10 s after the timer's start, starts it again and places the notice, or merges
into it, with the event. In another state of the loader no read is under way, and CONFIG_READ_COMPLETE changes
nothing (notes/assumptions/3.md). -/
def Obligations.ConfigFaultEntryAndRepeat : Prop :=
  ∀ (image : List Byte) (s : State),
    (s.loader = .reading → imageReason image ≠ 0 →
      ∃ t : Part, exec (.configReadComplete image) s = .next { s with toPart := t.serveBus } ∧
        t.loader = .configFault ∧ t.faultReason = imageReason image ∧ t.repeatSince = some s.now ∧
        t.notices = { s.notices with
          levels := s.notices.levels ||| 1, changed := s.notices.changed ||| 1,
          events := s.notices.events ||| 8 } ∧
        t.hasRequest .station = true ∧
        { t with
          loader := s.loader, faultReason := s.faultReason, repeatSince := s.repeatSince,
          notices := s.notices, port := s.port } = s.toPart) ∧
    (s.loader ≠ .reading → exec (.configReadComplete image) s = .next { s with toPart := s.toPart.serveBus }) ∧
    (s.loader = .configFault →
      (∀ since, s.repeatSince = some since →
        (Instr.configFaultRepeat ∈ s.dueStation ↔ since + 20000000 ≤ s.now)) ∧
      ∃ t : Part, exec .configFaultRepeat s = .next { s with toPart := t.serveBus } ∧
        t.repeatSince = some s.now ∧ t.notices = { s.notices with events := s.notices.events ||| 8 } ∧
        t.hasRequest .station = true ∧ (s.hasRequest .station = true → t.port = s.port) ∧
        { t with repeatSince := s.repeatSince, notices := s.notices, port := s.port } = s.toPart)

/-- A supervisory order, heard in RUNNING, addressed and well formed, from a station that is not the
supervisor, changes nothing that it names: the refusal fields take its code and source, the count rises by
one up to 65,535, and the station notice is placed or merged with event REFUSED (R214, R216). -/
def Obligations.SupervisoryOrdersRefused : Prop :=
  ∀ (o : Order) (straps : BitVec 5) (s : State), s.toPart.hears → s.addressed o = true →
    s.supervises o = false →
    ∀ p ∈ ([(1, .lines, .lineOut o), (2, .lines, .lineIn o), (3, .lines, .lineRestart o),
        (4, .lines, .testStart o), (5, .lines, .testStop o), (6, .lines, .insertError o),
        (7, .lines, .countTransfer o), (9, .lines, .queryAndClear o), (10, .station 1, .release o),
        (11, .station 1, .rehold o), (13, .station 0, .stationRestart o straps)] :
        List (Nat × OrderForm × Instr)),
      orderFits p.2.1 o = true →
      ∃ t : Part, exec p.2.2 s = .next { s with toPart := t.serveBus } ∧
        t.notices = { s.notices with
          events := s.notices.events ||| 4, refusedCode := p.1, refusedSource := o.station.toNat,
          refusals := min 65535 (s.notices.refusals + 1) } ∧
        t.hasRequest .station = true ∧
        { t.port with state := s.port.state, sendList := s.port.sendList } = s.port ∧
        { t with notices := s.notices, port := s.port, hearings := s.hearings } = s.toPart

/-! ### The receiver (01) -/

/-- RX_MARK_TO_SPACE in HUNT begins a candidate at that time; START_CHECK falls due one half of u later and accepts
it on space, voids it on mark; between, the receiver acts on no transition (R3). Times are in half-microseconds, u in
microseconds. On every line in service, a SEND line too, the command starts the space timer and stops the mark run
and the clearing of a raised LINE-OPEN (R7, R8, R14); on an UNUSED line, and while the station does not run, only the
input changes (R1, R2). MODEL'S CHOICE (notes/assumptions/3.md): with the input already at space the command, which
cannot then occur, changes nothing. -/
def Obligations.StartElement : Prop :=
  ∀ (l : LineNo) (s : State),
    (s.assembles l = true →
      let x := (s.line l).unit
      (s.mark l = true → x.rcv = .hunt →
        exec (.rxMarkToSpace l) s = .next { s with toPart := (s.toPart.setRx l false).updUnit l fun x =>
          { x with
            rcv := .start, refTime := s.now, spaceSince := some s.now, markSince := none, clearSince := none } }) ∧
      (s.mark l = true → x.rcv ≠ .hunt →
        exec (.rxMarkToSpace l) s = .next { s with toPart := (s.toPart.setRx l false).updUnit l fun x =>
          { x with spaceSince := some s.now, markSince := none, clearSince := none } }) ∧
      (s.mark l = false → x.rcv = .start ∨ x.rcv = .data ∨ x.rcv = .stop →
        ∃ t : Part, exec (.rxSpaceToMark l) s = .next { s with toPart := t.serveBus } ∧
          (t.line l).unit = { x with
            spaceSince := none, markSince := some s.now, held := false,
            clearSince := if s.cond l .lineOpen then some s.now else none }) ∧
      (x.rcv = .start →
        (Instr.startCheck l ∈ s.dueLine l ↔ x.refTime + (s.cfg l).u ≤ s.now) ∧
        (s.mark l = false → exec (.startCheck l) s = .next { s with toPart := s.toPart.updUnit l fun x =>
          { x with rcv := .data, sampled := 0, acc := 0 } }) ∧
        (s.mark l = true → exec (.startCheck l) s = .next { s with toPart := s.toPart.updUnit l fun x =>
          { x with rcv := .hunt } }))) ∧
    (s.active l = true → s.assembles l = false → s.mark l = true →
      exec (.rxMarkToSpace l) s = .next { s with toPart := (s.toPart.setRx l false).updUnit l fun x =>
        { x with spaceSince := some s.now, markSince := none, clearSince := none } }) ∧
    (s.active l = false → s.mark l = true →
      exec (.rxMarkToSpace l) s = .next { s with toPart := s.toPart.setRx l false }) ∧
    (s.mark l = false → exec (.rxMarkToSpace l) s = .next s)

/-- DATA_SAMPLE falls due 1.5 u and each further u after the reference time and adds the element's weight
on mark; the stop sample, RECEIVED_CODE, falls due at 6.5 u. On mark the code is handed on and the receiver
is in HUNT; on space it is in WAIT-MARK, and a code of no mark element is held, any other handed on with a
framing flag (R4, R5). -/
def Obligations.DataAndStopElements : Prop :=
  ∀ (l : LineNo) (s : State), s.assembles l = true →
    let x := (s.line l).unit
    (x.rcv = .data →
      (Instr.dataSample l ∈ s.dueLine l ↔ x.refTime + (3 + 2 * x.sampled) * (s.cfg l).u ≤ s.now) ∧
      exec (.dataSample l) s = .next { s with toPart := s.toPart.updUnit l fun x =>
        { x with
          acc := if s.mark l then x.acc ||| BitVec.twoPow 5 x.sampled else x.acc
          sampled := x.sampled + 1, rcv := if x.sampled + 1 = 5 then .stop else .data } }) ∧
    (x.rcv = .stop →
      (Instr.receivedCode l ∈ s.dueLine l ↔ x.refTime + 13 * (s.cfg l).u ≤ s.now) ∧
      (s.mark l = true → exec (.receivedCode l) s = .next { s with toPart :=
        ((s.toPart.updUnit l fun x => { x with rcv := .hunt }).handOn l x.acc false).serveBus }) ∧
      (s.mark l = false → x.acc = 0 → exec (.receivedCode l) s = .next { s with toPart :=
        (s.toPart.updUnit l fun x => { x with rcv := .waitMark, held := true }).serveBus }) ∧
      (s.mark l = false → x.acc ≠ 0 → exec (.receivedCode l) s = .next { s with toPart :=
        ((s.toPart.updUnit l fun x => { x with rcv := .waitMark }).handOn l x.acc true).serveBus }))

/-- RX_SPACE_TO_MARK (R5, R7, R8, R14): the space timer stops and the mark run starts, the clearing of a
raised LINE-OPEN starts, WAIT-MARK gives way to HUNT, BREAK falls; an all-space code held in WAIT-MARK is
handed on first, with a framing flag. LINE_OPEN_FALL (R8) falls due 1 s after the clearing began: LINE-OPEN falls
and its clearing timer stops, an edge of the condition and nothing else. -/
def Obligations.ReturnToMark : Prop :=
  ∀ (l : LineNo) (s : State), s.active l = true →
    (s.mark l = false →
      let x := (s.line l).unit
      let t := (s.toPart.setRx l true).updUnit l fun x =>
        { x with
          spaceSince := none, markSince := some s.now, held := false,
          clearSince := if s.cond l .lineOpen then some s.now else none,
          rcv := if x.rcv = .waitMark then .hunt else x.rcv }
      (¬(x.rcv = .waitMark ∧ x.held = true) →
        exec (.rxSpaceToMark l) s = .next { s with toPart := (t.setCond l .brk false).serveBus }) ∧
      (x.rcv = .waitMark → x.held = true →
        exec (.rxSpaceToMark l) s =
          .next { s with toPart := ((t.handOn l 0 true).setCond l .brk false).serveBus })) ∧
    ((s.line l).unit.clearSince.isSome = true → s.cond l .lineOpen = true →
      (∀ since, (s.line l).unit.clearSince = some since →
        (Instr.lineOpenFall l ∈ s.dueLine l ↔ since + 2000000 ≤ s.now)) ∧
      exec (.lineOpenFall l) s = .next { s with toPart :=
        ((s.toPart.updUnit l fun x => { x with clearSince := none }).setCond l .lineOpen false).serveBus })

/-- RECEIVED_CODE routes a code by the line state at that moment (R6). OUT-OF-SERVICE discards it, with or
without a framing flag. LOOP resends it, at once on a free output, else from a list of at most two codes, a
third being lost (R16), whatever the stop read; and the decode context takes it as in IDLE: a shift sets the
plane, a letter or other assigned code is looked up and given to the loop-down detector alone, and a code with a
framing flag, an unassigned one and one that admission stops give their fault, FRAMING and MUTILATED being
counted by the counted kind (R6, R27 to R34, R199). What the detector does is the subject of
`Obligations.LoopCodesCounted`. MODEL'S CHOICE (notes/assumptions/16.md): the FRAMING fault of a shift code
reports the plane before the shift. -/
def Obligations.CodesOutOfServiceAndInLoop : Prop :=
  ∀ (l : LineNo) (s : State), s.assembles l = true → (s.line l).unit.rcv = .stop →
    let x := (s.line l).unit
    let resent := fun r : RxState =>
      if x.out = none then
        { x with rcv := r, out := some { code := x.acc, source := .loopResend, began := s.now, counts := true } }
      else { x with rcv := r, resend := if x.resend.length < 2 then x.resend ++ [x.acc] else x.resend }
    let incomplete := fun c : Byte =>
      ∀ k, (s.cfg l).loopDown = some k → runAfter (c == k) (s.line l).sup.loopDownRun ≠ (s.cfg l).loopN
    (x.state = .outOfService → s.mark l = true → exec (.receivedCode l) s = .next { s with toPart :=
      (s.toPart.updUnit l fun x => { x with rcv := .hunt }).serveBus }) ∧
    (x.state = .outOfService → s.mark l = false → x.acc ≠ 0 → exec (.receivedCode l) s = .next { s with toPart :=
      (s.toPart.updUnit l fun x => { x with rcv := .waitMark }).serveBus }) ∧
    (x.state = .loop → (x.out = none → x.resend = []) →
      (∀ p, s.mark l = true → shiftPlane (s.map l) x.acc.toNat = some p →
        exec (.receivedCode l) s = .next { s with toPart :=
          ((s.toPart.updUnit l fun _ => resent .hunt).setPlane l p).serveBus }) ∧
      (s.mark l = true → (s.cfg l).loopDown = none ∨ (s.line l).sup.loopDownRun + 1 < (s.cfg l).loopN →
        ∃ t : Part, exec (.receivedCode l) s = .next { s with toPart := t.serveBus } ∧
          (t.line l).unit = resent .hunt ∧
          (t.line l).plane = (shiftPlane (s.map l) x.acc.toNat).getD (s.planeRead l) ∧
          (t.line l).recog = (s.line l).recog ∧ (t.line l).sched = (s.line l).sched ∧
          (∀ m, m ≠ l → t.line m = s.line m)) ∧
      (∀ c, s.toPart.delivers l c → incomplete c →
        ∃ t : Part, exec (.receivedCode l) s = .next { s with toPart := t.serveBus } ∧
          (t.line l).unit = resent .hunt ∧ (t.line l).plane = s.planeRead l ∧
          { t.line l with unit := x, plane := (s.line l).plane, sup := (s.line l).sup } = s.line l ∧
          { (t.line l).sup with loopDownRun := (s.line l).sup.loopDownRun } = (s.line l).sup ∧
          (∀ m, m ≠ l → t.line m = s.line m) ∧ { t with lines := s.lines } = s.toPart) ∧
      (∀ c k, s.toPart.converts l c k → (s.line l).recog.tied = none → (∀ ch, c = some ch → incomplete ch) →
        ∃ t : Part, exec (.receivedCode l) s = .next { s with toPart := t.serveBus } ∧
          (t.line l).unit = resent (if s.mark l then .hunt else .waitMark) ∧
          Converted s.toPart t l k
            { handle := none, serial := none, offset := 0, raw := some x.acc, plane := (s.line l).plane } ∧
          (t.line l).recog = (s.line l).recog ∧ (t.line l).sched = (s.line l).sched ∧
          (∀ m, m ≠ l → t.line m = s.line m) ∧ { t with lines := s.lines, port := s.port } = s.toPart))

/-- RECEIVED_CODE in TEST gives the code to the checker. OUT: two codes load the register, later ones are predicted,
and a run of 8 correct codes brings it IN (R196). IN: a code other than the generator's next is a test error, and
four among the last 16 codes put it OUT (R197). TEST-SYNC follows (R196, R197). A code read on space goes to the
checker alike, its framing flag unused, is counted as FRAMING by the counted kind and makes no fault record (R6,
R196, R199); one of no mark element is held (R5). The test pattern (R195, R196): the first codes after the seed are
0, 15, 31 and 8, and the sequence of bits repeats after 511 bits and not before; INSERT-ERROR inverts element 1 of
one code and leaves the register's bits true; a checker that is OUT, its load and run at 0, is IN after ten codes of
a generator, whatever the generator's register and its own, and then holds the generator's register. -/
def Obligations.CheckerAndTestPattern : Prop :=
  (∀ (l : LineNo) (s : State), s.assembles l = true → (s.line l).unit.rcv = .stop →
    s.mark l = true ∨ (s.line l).unit.acc ≠ 0 → (s.line l).unit.state = .test →
    let code := (s.line l).unit.acc
    let c := (s.line l).sup.chk
    let fed := feedBits (codeBits code) c.reg
    let made := makeBits 5 c.reg
    let err := !(codeOfBits made.1 == code)
    let window := (err :: c.window).take 16
    let counted := (s.cfg l).counted
    let counts :=
      (s.mark l = false ∧ (counted = .framing ∨ counted = .framingMutilated)) ∨
        (c.inSync = true ∧ err = true ∧ counted = .testErrors)
    ∃ t : Part, exec (.receivedCode l) s = .next { s with toPart := t.serveBus } ∧
      (c.inSync = false → c.load < 2 →
        (t.line l).sup.chk = { c with reg := fed.2, load := c.load + 1 }) ∧
      (c.inSync = false → 2 ≤ c.load → fed.1 = false → (t.line l).sup.chk = { c with reg := fed.2, run := 0 }) ∧
      (c.inSync = false → 2 ≤ c.load → fed.1 = true → c.run ≠ 7 →
        (t.line l).sup.chk = { c with reg := fed.2, run := c.run + 1 }) ∧
      (c.inSync = false → 2 ≤ c.load → fed.1 = true → c.run = 7 →
        (t.line l).sup.chk = { c with reg := fed.2, run := 8, inSync := true, window := [] }) ∧
      (c.inSync = true → ¬(err = true ∧ 4 ≤ window.count true) →
        (t.line l).sup.chk = { c with reg := made.2, window := window }) ∧
      (c.inSync = true → err = true → 4 ≤ window.count true →
        (t.line l).sup.chk = { c with reg := made.2, window := window, inSync := false, load := 0, run := 0 }) ∧
      t.cond l .testSync = (t.line l).sup.chk.inSync ∧
      (counts → (t.line l).sup.counter = min 65535 ((s.line l).sup.counter + 1)) ∧
      (¬counts → (t.line l).sup.counter = (s.line l).sup.counter) ∧
      { t.line l with unit := (s.line l).unit, sup := (s.line l).sup } = s.line l ∧
      (t.line l).unit = s.sampledUnit l ∧
      { (t.line l).sup with
        chk := c, counter := (s.line l).sup.counter, levels := (s.line l).sup.levels,
        changed := (s.line l).sup.changed } = (s.line l).sup ∧
      (∀ m, m ≠ l → t.line m = s.line m) ∧ { t with lines := s.lines, port := s.port } = s.toPart) ∧
  let seed : Generator := { reg := 511, insert := false }
  (seed.make.1 = 0 ∧ seed.make.2.make.1 = 15 ∧ seed.make.2.make.2.make.1 = 31 ∧
      seed.make.2.make.2.make.2.make.1 = 8) ∧
    (makeBits 511 511).2 = 511 ∧ (∀ n, 0 < n → n < 511 → (makeBits n 511).2 ≠ 511) ∧
    (∀ r : BitVec 9,
      ({ reg := r, insert := true } : Generator).make.1 =
          ({ reg := r, insert := false } : Generator).make.1 ^^^ 1 ∧
        ({ reg := r, insert := true } : Generator).make.2 =
          ({ reg := r, insert := false } : Generator).make.2) ∧
    ∀ (g : Generator) (c : Checker), g.insert = false → c.inSync = false → c.load = 0 → c.run = 0 →
      let pair := (List.range 10).foldl (fun (p : Generator × Checker) _ =>
        (p.1.make.2, p.2.takeOut p.1.make.1)) (g, c)
      pair.2.inSync = true ∧ pair.2.reg = pair.1.reg ∧ pair.2.window = []

/-- RECEIVED_CODE in IDLE, end to end, by what the converter makes of the code (R27 to R35). In TEXT the character
handed on is stored as the next entry of the tied story, CARRYING or STANDBY (R52, R56, R74, R76, R120), with no
further block or with the head of the free list when the story's blocks are full, every other entry reading as
before. A CARRYING story that is not quiet and has no request asks for a TEXT at 64 unsent characters, and of
priority FLASH or BULLETIN when a LINE END is among them (R64). A STANDBY story asks for nothing, and takes over when
the 20 s of silence have passed and the count passes its peer's progress (R122). A character for a story of 16,000 is
not stored: the story closes as truncated, and the recognizer is in DISCARDING (R69, R70). Where nothing is handed
on, the story and the recognizer stay as they are. FRAMING, MUTILATED and ADMISSION are recorded with the story's
fields (R34); the first two raise the record's mutilation count (R29, R30) and are counted by the counted kind
(R199). OUTSIDE the character joins the opening window, and the fault names no story. An enquiry code makes an
answer-back request (R33, R163): pending while the sender is not free, begun at once by a free sender (R164), and
ignored while one is pending or being sent or where the line has no answer-back. MODEL'S CHOICE
(notes/assumptions/16.md): the FRAMING fault of a shift code reports the plane before the shift. -/
def Obligations.CodesTakenInIdle : Prop :=
  ∀ (l : LineNo) (s : State), (s.line l).unit.state = .idle →
    let g := (s.line l).recog
    let k := (s.line l).sched
    let code := (s.line l).unit.acc
    let beside := fun t : Part =>
      (t.line l).unit = s.sampledUnit l ∧ (t.line l).sched = k ∧ ∀ m, m ≠ l → t.line m = s.line m
    (∀ i r x c fault, s.toPart.MemoryLaw → s.toPart.converts l c fault → g.state = .text → g.tied = some i →
      g.lineStart = false → g.lookahead = [] → s.record i = some r → r.body = .inbound x →
      x.state = .carrying ∨ x.state = .standby →
      let fields : FaultFields :=
        { handle := some (s.handle i), serial := x.serial, offset := r.count, raw := some code
          plane := (s.line l).plane }
      let mutilated : InRecord :=
        if fault = some .framing ∨ fault = some .mutilated then
          { x with mutilation := min 65535 (x.mutilation + 1) }
        else x
      (c = none →
        ∃ t : Part, exec (.receivedCode l) s = .next { s with toPart := t.serveBus } ∧
          Converted s.toPart t l fault fields ∧ beside t ∧ (t.line l).recog = g ∧
          t.cond l .stall = s.cond l .stall ∧ { t with lines := s.lines, port := s.port } = s.toPart) ∧
      (∀ ch blocks, c = some ch → r.count < 16000 → s.toPart.room r blocks →
        ∃ t : Part, exec (.receivedCode l) s = .next { s with toPart := t.serveBus } ∧
          Converted s.toPart t l fault fields ∧ beside t ∧
          (∀ a, t.mem.read a = if a = entryAddr blocks r.count then ch else s.mem.read a) ∧
          (let stored : Record := { r with count := r.count + 1, blocks := blocks, body := .inbound mutilated }
           let overtakes := fun p : Peer =>
            x.state = .standby ∧ x.peer = some p ∧ p.past20 = true ∧ x.quiet = false ∧ p.progress < r.count + 1
           ((∀ p, ¬overtakes p) → t.record i = some stored) ∧
           (∀ p, overtakes p → TakesOver s.toPart t i stored mutilated p) ∧
           (x.state = .standby → (∀ p, ¬overtakes p) →
            t.requestOf (.record i) = s.requestOf (.record i))) ∧
          (∀ j, j ≠ i → t.record j = s.record j) ∧
          t.free = s.free.drop (blocks.length - r.blocks.length) ∧
          (x.state = .carrying → s.hasRequest (.record i) = false → r.line = some l →
            let due := 63 + x.cursor ≤ r.count ∨
              (r.priority ≤ 1 ∧ ∃ n, x.cursor ≤ n ∧ n ≤ r.count ∧ t.mem.read (entryAddr blocks n) = 10)
            (x.quiet = false → due → t.requestOf (.record i) =
              some { owner := .record i, cls := r.priority, kind := .text, key := i.val }) ∧
            (x.quiet = true ∨ ¬due → t.hasRequest (.record i) = false)) ∧
          (t.line l).recog = { g with lineStart := ch == 10, overrun := false, stallSince := some s.now } ∧
          t.cond l .stall = false ∧
          { (t.line l).sup with
            levels := (s.line l).sup.levels, changed := (s.line l).sup.changed
            faults := (s.line l).sup.faults, counter := (s.line l).sup.counter } = (s.line l).sup ∧
          { t with
            mem := s.mem, records := s.records, free := s.free, lines := s.lines, port := s.port,
            notices := s.notices } = s.toPart)) ∧
    (∀ i r x c, s.toPart.delivers l c → g.state = .opening ∨ g.state = .heading ∨ g.state = .text →
      g.tied = some i → g.lineStart = false → g.lookahead = [] → s.record i = some r → r.body = .inbound x →
      r.count = 16000 →
      ∃ t : Part, exec (.receivedCode l) s = .next { s with toPart := t.serveBus } ∧
        (t.line l).recog =
          { state := .discarding, window := [], lineStart := c == 10, lookahead := [], heading := [], tied := none,
            overrun := false, stallSince := some s.now } ∧
        StoryEnded s.toPart t i r x true ∧
        (x.state = .opening → t.record i = none ∧ t.free = s.free ++ (r.blocks ++ r.reservation) ∧
          (t.line l).sup.faults.get FaultKind.heading.idx = (s.line l).sup.faults.get FaultKind.heading.idx) ∧
        FaultRecorded s.toPart t l .truncated
          { handle := some (s.handle i), serial := x.serial, offset := 16000, raw := none,
            plane := s.planeRead l } ∧
        t.cond l .stall = false ∧ beside t ∧ (t.line l).plane = s.planeRead l ∧ t.mem = s.mem ∧
        (∀ j, j ≠ i → t.record j = s.record j) ∧ t.register = s.register ∧ t.trackers = s.trackers ∧
        t.groups = s.groups) ∧
    (∀ c fault, s.toPart.converts l c fault → g.state = .outside → g.tied = none →
      let joined := fun ch : Byte =>
        (g.window ++ [ch]).drop ((g.window ++ [ch]).length - (s.cfg l).opening.length)
      (∀ ch, c = some ch → joined ch ≠ (s.cfg l).opening ∧
        ∀ up, (s.cfg l).mode = .twoWay → (s.cfg l).loopUp = some up →
          runAfter (ch == up) (s.line l).sup.loopUpRun ≠ (s.cfg l).loopN) →
      ∃ t : Part, exec (.receivedCode l) s = .next { s with toPart := t.serveBus } ∧
        Converted s.toPart t l fault
          { handle := none, serial := none, offset := 0, raw := some code, plane := (s.line l).plane } ∧
        beside t ∧ (c = none → (t.line l).recog = g) ∧
        (∀ ch, c = some ch → (t.line l).recog = { g with window := joined ch }) ∧
        { t with lines := s.lines, port := s.port } = s.toPart) ∧
    (s.assembles l = true → (s.line l).unit.rcv = .stop → s.mark l = true →
      shiftPlane (s.map l) code.toNat = none → (s.readEntry l).cls ≠ .unassigned → (s.cfg l).mode = .twoWay →
      (s.cfg l).enquiry = some (s.readEntry l).char →
      g.state ≠ .outside ∨ (s.cfg l).loopUp = none ∨ (s.line l).sup.loopUpRun + 1 < (s.cfg l).loopN →
      ∃ t : Part, exec (.receivedCode l) s = .next { s with toPart := t.serveBus } ∧
        (k.answerBack ≠ .clear ∨ (s.line l).texts.answerBack = [] →
          (t.line l).sched = k ∧ (t.line l).unit = s.sampledUnit l) ∧
        (k.answerBack = .clear → (s.line l).texts.answerBack ≠ [] → s.senderFree l = false →
          (t.line l).sched = { k with answerBack := .pending } ∧ (t.line l).unit = s.sampledUnit l) ∧
        (∀ a as, k.answerBack = .clear → (s.line l).texts.answerBack = a :: as → s.senderFree l = true →
          (t.line l).sched = { k with answerBack := .beingSent, piece := .answerBack false, progress := 0 } ∧
          ((s.line l).unit.out = none → (t.line l).unit = { s.sampledUnit l with out := some (s.begun a) }) ∧
          (∀ o, (s.line l).unit.out = some o → (t.line l).unit = s.sampledUnit l)) ∧
        (t.line l).plane = s.planeRead l ∧
        ∀ m, m ≠ l → (t.line m).sched = (s.line m).sched ∧ (t.line m).unit = (s.line m).unit)

/-- RECEIVED_CODE on a line whose recognizer is in OPENING or HEADING, not at a line start (R52, R56, R58): the
character is stored behind the story's last, or lost where no block can be had, which sets the record's OVERRUN flag
and records fault OVERRUN once for the run of losses. Stored or lost, in OPENING a SPACE and a LINE END leave the
state, and any other character begins the heading buffer and HEADING; in HEADING a character other than LINE END
joins the buffer. What completes the heading is the subject of `Obligations.HeadingDecided`. A buffer satisfies the
syntax exactly when it is 1 to 4 digits of value 1 or more, SPACE, a priority letter, a capital letter, and then
nothing or SPACE and a slug, cut to 24 characters, and no substitute character of the line's map stands in the
serial, the priority or the category (R59). MODEL'S CHOICE (notes/assumptions/41.md): a character equal to the
map's substitute is one, however it came. -/
def Obligations.HeadingLineCollected : Prop :=
  (∀ (l : LineNo) (i : Slot) (r : Record) (x : InRecord) (c : Byte) (s : State), s.toPart.delivers l c →
    (s.line l).unit.state = .idle →
    let g := (s.line l).recog
    g.tied = some i → g.lineStart = false → g.lookahead = [] → s.record i = some r → r.body = .inbound x →
    x.state = .opening → r.count < 16000 →
    g.state = .opening ∨ (g.state = .heading ∧ c ≠ 10 ∧ g.heading.length + 1 ≠ 80) →
    let seen : Recog := { g with lineStart := c == 10, stallSince := some s.now }
    let collected : Recog :=
      if g.state = .opening then if c = 32 ∨ c = 10 then seen else { seen with state := .heading, heading := [c] }
      else { seen with heading := g.heading ++ [c] }
    (∀ blocks, s.toPart.room r blocks →
      ∃ t : Part, exec (.receivedCode l) s = .next { s with toPart := t.serveBus } ∧
        (t.line l).recog = { collected with overrun := false } ∧
        t.record i = some { r with count := r.count + 1, blocks := blocks } ∧
        t.mem = s.mem.write (entryAddr blocks r.count) c ∧
        t.free = s.free.drop (blocks.length - r.blocks.length) ∧
        (t.line l).sup.faults = (s.line l).sup.faults ∧
        (t.line l).unit = { (s.line l).unit with rcv := .hunt } ∧ (t.line l).plane = s.planeRead l ∧
        (t.line l).sched = (s.line l).sched ∧ t.cond l .stall = false ∧
        (∀ j, j ≠ i → t.record j = s.record j) ∧ (∀ m, m ≠ l → t.line m = s.line m) ∧
        { t with
          mem := s.mem, records := s.records, free := s.free, lines := s.lines, port := s.port,
          notices := s.notices } = s.toPart) ∧
    (r.count = 64 * r.blocks.length → s.free = [] → s.recent = [] →
      ∃ t : Part, exec (.receivedCode l) s = .next { s with toPart := t.serveBus } ∧
        (t.line l).recog = { collected with overrun := true } ∧
        t.record i = some { r with body := .inbound { x with overrun := true } } ∧
        (g.overrun = false → FaultRecorded s.toPart t l .overrun
          { handle := some (s.handle i), serial := x.serial, offset := r.count, raw := none,
            plane := s.planeRead l }) ∧
        (g.overrun = true → (t.line l).sup.faults = (s.line l).sup.faults) ∧
        (∀ j, j ≠ i → t.record j = s.record j) ∧ (∀ m, m ≠ l → t.line m = s.line m) ∧
        { t with records := s.records, lines := s.lines, port := s.port } = s.toPart)) ∧
  ∀ (subst : Byte) (buf : List Byte) (h : Heading), readHeading subst buf = some h ↔
    ∃ (digits rest : List Byte) (p c : Byte) (prio : Nat), buf = digits ++ 32 :: p :: c :: rest ∧
      1 ≤ digits.length ∧ digits.length ≤ 4 ∧ (∀ d ∈ digits, 48 ≤ d.toNat ∧ d.toNat ≤ 57) ∧
      [70, 66, 85, 82, 68, 83][prio]? = some p.toNat ∧ 65 ≤ c.toNat ∧ c.toNat ≤ 90 ∧
      (rest = [] ∨ rest.head? = some 32) ∧ subst ∉ digits ∧ p ≠ subst ∧ c ≠ subst ∧
      let value := digits.foldl (fun v d => 10 * v + (d.toNat - 48)) 0
      1 ≤ value ∧ h = { serial := value, priority := prio, category := c.toNat - 65, slug := (rest.drop 1).take 24 }

/-- RECEIVED_CODE that completes a heading, by a LINE END or as its 80th character, when the buffer satisfies the
syntax (R58, R59, R61, R102, R113 to R116). The tracker of the line's service takes the serial, whatever the
disposition: a loss is fault SERIAL-GAP on this line, and GAP of the tracker's lines follows the gap list (R101,
R105, R107). DISCARD frees the record with no fault. Else the first case decides: another record of the key is an own
duplicate, fault DUPLICATE, freed; a CLOSED entry frees it with no fault; a LIVE entry of another owner gives STANDBY
behind it, but for a quiet entry and a story to CARRY, which is carried; a duplicate verdict is fault DUPLICATE,
freed; else it is carried, quietly if its disposition is QUIET, with its OFFER requested. A freed record leaves the
recognizer in DISCARDING, any other in TEXT. A heading that fails the syntax is the subject of
`Obligations.DispositionsDecided`. -/
def Obligations.HeadingDecided : Prop :=
  ∀ (l : LineNo) (i : Slot) (r : Record) (x : InRecord) (c : Byte) (h : Heading) (blocks : List Nat) (s : State),
    s.toPart.delivers l c → (s.line l).unit.state = .idle →
    let g := (s.line l).recog
    g.state = .heading → g.tied = some i → g.lineStart = false → g.lookahead = [] → s.record i = some r →
    r.body = .inbound x → r.line = some l → x.state = .opening → r.count < 16000 → s.toPart.room r blocks →
    (c = 10 ∧ readHeading (s.map l).subst g.heading = some h) ∨
      (c ≠ 10 ∧ g.heading.length + 1 = 80 ∧ readHeading (s.map l).subst (g.heading ++ [c]) = some h) →
    let service := (s.cfg l).service
    let disp := s.disposition service h.category h.priority
    let named : InRecord :=
      { x with serial := some h.serial, category := h.category, slug := h.slug, disp := some disp }
    let made := fun y : InRecord => some { r with
      priority := h.priority, count := r.count + 1, blocks := blocks, body := .inbound y }
    let holds := ∃ j y, j ≠ i ∧ s.inRecord j = some y ∧ y.service = service ∧ y.serial = some h.serial ∧
      (y.state = .carrying ∨ y.state = .standby ∨ y.state = .standbyComplete)
    let entry := s.entryOf service h.serial
    let duplicate := ∃ k e, s.tracker service = some k ∧ k.expected = some e ∧
      9949 ≤ (h.serial + 9999 - e) % 9999 ∧ h.serial ∉ k.gaps
    ∃ t : Part, exec (.receivedCode l) s = .next { s with toPart := t.serveBus } ∧
      (let freed := t.record i = none ∧ t.hasRequest (.record i) = false ∧ t.free =
          s.free.drop (blocks.length - r.blocks.length) ++ (blocks ++ r.reservation) ∧
        (t.line l).recog.state = .discarding ∧ (t.line l).recog.tied = none ∧
        (t.line l).recog.stallSince = some s.now
       let carried := fun quiet : Bool =>
        t.record i = made { named with state := .carrying, quiet := quiet } ∧
        (s.hasRequest (.record i) = false → t.requestOf (.record i) =
          some { owner := .record i, cls := h.priority, kind := .offer, key := i.val }) ∧
        (t.line l).recog.state = .text ∧ (t.line l).recog.tied = some i
       let behind := fun e : Entry =>
        t.record i = made { named with
          state := .standby, cursor := 0, quiet := e.quiet
          peer := some { owner := e.owner, progress := e.progress, since := s.now, past20 := false } } ∧
        t.requestOf (.record i) = s.requestOf (.record i) ∧
        (t.line l).recog.state = .text ∧ (t.line l).recog.tied = some i
       let faulted := FaultRecorded s.toPart t l .duplicate
        { handle := some (s.handle i), serial := some h.serial, offset := r.count + 1, raw := none,
          plane := s.planeRead l }
       let silent := (t.line l).sup.faults.get FaultKind.duplicate.idx =
        (s.line l).sup.faults.get FaultKind.duplicate.idx
       (disp = .discard → freed ∧ silent) ∧
       (disp ≠ .discard →
        (holds → freed ∧ faulted) ∧
        (∀ e, ¬holds → entry = some e → e.state = .closed → freed ∧ silent) ∧
        (∀ e, ¬holds → entry = some e → e.state = .live → e.owner.station ≠ s.number →
          silent ∧ (e.quiet = false ∨ disp = .quiet → behind e) ∧
          (e.quiet = true → disp = .carry → carried false)) ∧
        (¬holds → (∀ e, entry = some e → e.state = .withdrawn ∨ (e.state = .live ∧ e.owner.station = s.number)) →
          (duplicate → freed ∧ faulted) ∧ (¬duplicate → silent ∧ carried (disp == .quiet))))) ∧
      SerialTaken s.toPart t service h.serial (fun m => m = l) (fun m =>
        { handle := some (s.handle i), serial := some h.serial, offset := r.count + 1, raw := none,
          plane := s.planeRead m }) ∧
      t.mem = s.mem.write (entryAddr blocks r.count) c ∧ (∀ j, j ≠ i → t.record j = s.record j) ∧
      t.register = s.register ∧ t.groups = s.groups ∧ t.rx = s.rx

/-- RECEIVED_CODE and the signals of a line (R51 to R55, R57, R67, R70). In OUTSIDE the character that completes
the opening signal opens a story in the lowest free slot, after one eviction where none is free; with none to
be had fault OVERRUN is recorded and the recognizer is in DISCARDING. At a line start of a story, and behind
held characters, a character joins the lookahead: the closing signal ends the story, the opening signal
truncates it and opens the next, the beginning of either stays held, and anything else is released as text, or
discarded in DISCARDING. No signal is stored, and the character that completes one reaches no loop detector.
MODEL'S CHOICE (notes/assumptions/35.md): the heading buffer stays through TEXT and is empty in DISCARDING. -/
def Obligations.SignalsOpenAndClose : Prop :=
  ∀ (l : LineNo) (c : Byte) (s : State), s.toPart.delivers l c → (s.line l).unit.state = .idle →
    let g := (s.line l).recog
    let opening := (s.cfg l).opening
    let closing := (s.cfg l).closing
    let window := (g.window ++ [c]).drop ((g.window ++ [c]).length - opening.length)
    let held := g.lookahead ++ [c]
    let discards : Recog :=
      { state := .discarding, window := [], lineStart := false, lookahead := [], heading := [], tied := none,
        overrun := false, stallSince := some s.now }
    let noRecord := fun t : Part => (t.line l).recog = discards ∧ FaultRecorded s.toPart t l .overrun
      { handle := none, serial := none, offset := 0, raw := none, plane := s.planeRead l }
    let starts := g.state ≠ .outside ∧ (g.lineStart = true ∨ g.lookahead ≠ [])
    (g.state = .outside ∧ window = opening) ∨
      (starts ∧ (held <+: closing ∨ held <+: opening ∨ g.state = .discarding ∨ g.state = .text)) →
    ∃ t : Part, exec (.receivedCode l) s = .next { s with toPart := t.serveBus } ∧
      (t.line l).unit = { (s.line l).unit with rcv := .hunt } ∧ (t.line l).plane = s.planeRead l ∧
      (g.state = .outside → window = opening →
        (t.line l).sup.loopUpRun = (s.line l).sup.loopUpRun ∧
        (∀ j, s.lowestFree = some j →
          Opened s.toPart t l j ∧
          { t with records := s.records, lines := s.lines } = s.toPart ∧
          (∀ m, m ≠ j → t.record m = s.record m)) ∧
        (∀ i rest q, s.lowestFree = none → s.recent = i :: rest → s.referenced i = false → s.record i = some q →
          Opened s.toPart t l i ∧ t.free = s.free ++ (q.blocks ++ q.reservation) ∧
          t.recent = rest.filter (fun j => !(j == i)) ∧ t.hasRequest (.record i) = false ∧
          (∀ m, m ≠ i → t.record m = s.record m)) ∧
        (s.lowestFree = none → s.recent = [] → noRecord t ∧ t.records = s.records)) ∧
      (starts → held = closing →
        (t.line l).recog = Recog.blank ∧ t.cond l .stall = false ∧ t.mem = s.mem ∧
        (t.line l).sup.faults.get FaultKind.truncated.idx =
          (s.line l).sup.faults.get FaultKind.truncated.idx ∧
        (g.tied = none → t.records = s.records ∧ (t.line l).sup.faults = (s.line l).sup.faults) ∧
        (∀ i r x, g.tied = some i → s.record i = some r → r.body = .inbound x →
          StoryEnded s.toPart t i r x false ∧
          (x.state = .opening → t.record i = none ∧ t.free = s.free ++ r.blocks ∧
            FaultRecorded s.toPart t l .heading
              { handle := some (s.handle i), serial := none, offset := r.count, raw := none,
                plane := s.planeRead l }) ∧
          (∀ j, j ≠ i → t.record j = s.record j))) ∧
      (starts → held ≠ closing → held = opening →
        (∀ j, g.tied = none → s.lowestFree = some j →
          Opened s.toPart t l j ∧ (t.line l).sup.faults = (s.line l).sup.faults) ∧
        (g.tied = none → s.lowestFree = none → s.recent = [] → noRecord t ∧ t.records = s.records) ∧
        (∀ i r x, g.tied = some i → s.record i = some r → r.body = .inbound x →
          FaultRecorded s.toPart t l .truncated
            { handle := some (s.handle i), serial := x.serial, offset := r.count, raw := none,
              plane := s.planeRead l } ∧
          (x.state = .carrying ∨ x.state = .standby →
            (i ∉ s.recent → StoryEnded s.toPart t i r x true) ∧
            (∀ j, s.lowestFree = some j → Opened s.toPart t l j) ∧
            (s.lowestFree = none → s.recent = [] → noRecord t)) ∧
          (x.state = .opening →
            (t.line l).sup.faults.get FaultKind.heading.idx = (s.line l).sup.faults.get FaultKind.heading.idx ∧
            t.free = s.free ++ r.blocks ∧
            ∃ j, Opened s.toPart t l j ∧ (j = i ∨ s.record j = none) ∧ (j ≠ i → t.record i = none) ∧
              ∀ m : Slot, m.val < j.val → m ≠ i ∧ s.record m ≠ none))) ∧
      (starts → held ≠ closing → held ≠ opening → held <+: closing ∨ held <+: opening →
        (t.line l).recog = { g with lookahead := held, lineStart := false, stallSince := some s.now } ∧
        t.mem = s.mem ∧ t.records = s.records ∧ (t.line l).sup.faults = (s.line l).sup.faults) ∧
      (starts → ¬held <+: closing → ¬held <+: opening →
        (g.state = .discarding →
          (t.line l).recog = { g with lookahead := [], lineStart := c == 10, stallSince := some s.now } ∧
          t.mem = s.mem ∧ t.records = s.records) ∧
        (∀ i r x, g.state = .text → g.tied = some i → s.record i = some r → r.body = .inbound x →
          x.state = .carrying → r.count + held.length ≤ 16000 → r.count + held.length ≤ 64 * r.blocks.length →
          (t.line l).recog = { g with
            lookahead := [], lineStart := c == 10, overrun := false, stallSince := some s.now } ∧
          t.record i = some { r with count := r.count + held.length } ∧
          t.mem = Memory.store s.mem r.blocks r.count held ∧
          (∀ j, j ≠ i → t.record j = s.record j))) ∧
      (∀ m, m ≠ l → t.line m = s.line m) ∧ t.register = s.register ∧ t.trackers = s.trackers ∧
      t.groups = s.groups ∧ t.rx = s.rx

/-- RECEIVED_CODE and the loop detectors (R49, R51, R192 to R194). Outside stories the character joins the
opening window; the loop-up detector of a TWO-WAY line in IDLE counts it, and so does the loop-down detector in
LOOP: a hit adds 1 to the run, a miss takes 8 from a run of 8 or more and clears a lesser one. At N the line
enters LOOP: the condition rises, both runs and the window are emptied, the sender stops, a story whose own
codes it sends is held at the start of its text line, a code on the output follows the break response (R168, R11
to R13), and the line's pending claims are withdrawn, one whose CLAIM is under way as that frame ends (R144). At
N in LOOP the line is in IDLE again, the condition falls and the list of codes to resend is emptied. The last
STOP given is a field of the model's own (notes/assumptions/28.md). MODEL'S CHOICE (notes/assumptions/43.md):
the list emptied at the exit holds the code that completed the run, where the output was busy; and
(notes/assumptions/26.md) the pending timer of a claim whose CLAIM is under way stops. -/
def Obligations.LoopCodesCounted : Prop :=
  ∀ (l : LineNo) (c : Byte) (s : State), s.toPart.delivers l c →
    let u := (s.line l).unit
    let g := (s.line l).recog
    let k := (s.line l).sched
    let cfg := s.cfg l
    let window := (g.window ++ [c]).drop ((g.window ++ [c]).length - cfg.opening.length)
    let counted := fun (loopChar : Byte) (run : Nat) =>
      if c = loopChar then run + 1 else if 8 ≤ run then run - 8 else 0
    ∃ t : Part, exec (.receivedCode l) s = .next { s with toPart := t.serveBus } ∧
      (u.state = .idle → g.state = .outside → window ≠ cfg.opening →
        (cfg.mode ≠ .twoWay ∨ cfg.loopUp = none →
          t.line l = { s.line l with
            unit := { u with rcv := .hunt }, plane := s.planeRead l, recog := { g with window := window } }) ∧
        (∀ up, cfg.mode = .twoWay → cfg.loopUp = some up → counted up (s.line l).sup.loopUpRun ≠ cfg.loopN →
          t.line l = { s.line l with
            unit := { u with rcv := .hunt }, plane := s.planeRead l, recog := { g with window := window }
            sup := { (s.line l).sup with loopUpRun := counted up (s.line l).sup.loopUpRun } }) ∧
        (∀ up, cfg.mode = .twoWay → cfg.loopUp = some up → counted up (s.line l).sup.loopUpRun = cfg.loopN →
          (t.line l).unit.state = .loop ∧ (t.line l).unit.resend = [] ∧ (t.line l).unit.awaitReady = true ∧
          (t.line l).unit.lastStop = some .loop ∧ t.cond l .loop = true ∧ (t.line l).sup.loopUpRun = 0 ∧
          (t.line l).sup.loopDownRun = 0 ∧ (t.line l).recog = { g with window := [] } ∧
          (t.line l).plane = s.planeRead l ∧ (t.line l).sched.running = false ∧
          (t.line l).sched.piece = .none ∧ (t.line l).sched.queue = k.queue ∧
          (t.line l).sched.current = k.current ∧
          (u.out = none → (t.line l).unit.out = none) ∧
          (∀ o, u.out = some o → o.source = .scheduler → o.counts = true →
            (t.line l).unit.out = if cfg.immediate then none else some { o with counts := false }) ∧
          (∀ i r x n, k.current = some i → s.record i = some r → r.body = .outbound x → x.state = .sending →
            k.piece = .story → k.position = some n →
            t.record i = some { r with body := .outbound { x with
              state := .heldBreak, resume := some (s.lineStart r n) } } ∧
            (t.line l).sched.position = none) ∧
          (∀ i r x m, s.record i = some r → r.body = .outbound x → r.line = some l → x.state = .claiming →
            x.claim = some m →
            (s.frameUnderWay (.record i) = false → t.record i = none ∧ t.hasRequest (.record i) = false) ∧
            (s.frameUnderWay (.record i) = true → m.ending = none →
              t.record i = some { r with body := .outbound { x with
                claim := some { m with since := none, ending := some .withdraw } } }))) ∧
        t.mem = s.mem) ∧
      (∀ down, u.state = .loop → cfg.loopDown = some down → (u.out = none → u.resend = []) →
        (counted down (s.line l).sup.loopDownRun ≠ cfg.loopN →
          (t.line l).unit.state = .loop ∧
          (t.line l).sup = { (s.line l).sup with loopDownRun := counted down (s.line l).sup.loopDownRun } ∧
          (t.line l).recog = g ∧ (t.line l).sched = k ∧ t.records = s.records) ∧
        (counted down (s.line l).sup.loopDownRun = cfg.loopN →
          (t.line l).unit = { u with
            state := .idle, rcv := .hunt, resend := [], markSince := some s.now
            out := if u.out = none then
                some { code := u.acc, source := .loopResend, began := s.now, counts := true }
              else u.out } ∧
          t.cond l .loop = false ∧ (t.line l).sup.loopUpRun = 0 ∧ (t.line l).sup.loopDownRun = 0 ∧
          (t.line l).plane = s.planeRead l ∧ (t.line l).recog = g ∧ (t.line l).sched = k ∧
          t.records = s.records)) ∧
      (u.state = .loop ∨ (u.state = .idle ∧ g.state = .outside ∧ window ≠ cfg.opening) →
        (∀ m, m ≠ l → t.line m = s.line m) ∧ t.register = s.register ∧ t.trackers = s.trackers ∧
        t.groups = s.groups ∧ t.rx = s.rx)

/-! ### Conditions and notices (10.6) -/

/-- A condition that takes a new level has an edge; a selected edge, not masked and rising or with both
edges selected, joins the changed set and places the notice or merges into it; an edge that is not selected
changes the level alone, and no edge changes nothing. So for the conditions of a line (R201, R202) and, in
RUNNING, of the station (R203). -/
def Obligations.ConditionEdges : Prop :=
  (∀ (s : Part) (l : LineNo) (c : Condition) (level : Bool),
    let t := s.setCond l c level
    let sel := (s.cfg l).mask.getLsbD c.idx = false ∧ (level = true ∨ (s.cfg l).both.getLsbD c.idx = true)
    (s.cond l c = level → t = s) ∧
    (s.cond l c ≠ level →
      (∀ d, t.cond l d = if d = c then level else s.cond l d) ∧
      (sel → (t.line l).sup.changed = (s.line l).sup.changed ||| BitVec.twoPow 8 c.idx ∧
        t.hasRequest (.condition l) = true ∧
        (s.hasRequest (.condition l) = false → t.requestOf (.condition l) = some (conditionRequest l)) ∧
        (s.hasRequest (.condition l) = true → t.port = s.port)) ∧
      (¬sel → (t.line l).sup.changed = (s.line l).sup.changed ∧ t.port = s.port)) ∧
    (∀ m, m ≠ l → t.line m = s.line m) ∧
    { t.line l with
      sup := { (t.line l).sup with
        levels := (s.line l).sup.levels, changed := (s.line l).sup.changed } } = s.line l ∧
    { t with lines := s.lines, port := s.port } = s) ∧
  ∀ (s : Part) (c : StationCondition) (level : Bool), s.loader = .running →
    let t := s.setStationCond c level
    let sel := s.settings.mask.getLsbD c.idx = false ∧ (level = true ∨ s.settings.both.getLsbD c.idx = true)
    (s.stationCond c = level → t = s) ∧
    (s.stationCond c ≠ level →
      (∀ d, t.stationCond d = if d = c then level else s.stationCond d) ∧
      (sel → t.notices.changed = s.notices.changed ||| BitVec.twoPow 8 c.idx ∧ t.hasRequest .station = true) ∧
      (¬sel → t.notices.changed = s.notices.changed ∧ t.port = s.port)) ∧
    { t with notices := s.notices, port := s.port } = s ∧
    { t.notices with levels := s.notices.levels, changed := s.notices.changed } = s.notices

/-! ### Line events that stop the sender (01, 03, 07, 08) -/

/-- BREAK_RISE (R7, R5, R11, R12, R13, R165, R166, R167, R172) falls due when the input has been space for two
character periods, u × (12 + s) µs: BREAK rises and a held all-space code is
discarded; in IDLE the sender stops until READY, a code on the output runs on under CHARACTER and leaves it
under IMMEDIATE, and a story whose own codes are being sent is held at the start of its text line or, under
ABANDON, abandoned with the total reached. Claims are the subject of `Obligations.ClaimsAndIntakesEnd`. -/
def Obligations.BreakStopsTheSender : Prop :=
  ∀ (l : LineNo) (s : State), s.active l = true → (s.line l).unit.spaceSince.isSome = true →
    s.cond l .brk = false →
    let k := (s.line l).sched
    (∀ since, (s.line l).unit.spaceSince = some since →
      (Instr.breakRise l ∈ s.dueLine l ↔ since + 2 * ((s.cfg l).u * (12 + (s.cfg l).stop)) ≤ s.now)) ∧
    ∃ t : Part, exec (.breakRise l) s = .next { s with toPart := t.serveBus } ∧ t.cond l .brk = true ∧
      (t.line l).unit.held = false ∧ (t.line l).unit.rcv = (s.line l).unit.rcv ∧
      ((s.line l).unit.state ≠ .idle → (t.line l).sched = k ∧ (t.line l).unit.out = (s.line l).unit.out) ∧
      ((s.line l).unit.state = .idle →
        (t.line l).unit.awaitReady = true ∧ (t.line l).unit.lastStop = some .brk ∧
        (t.line l).sched.running = false ∧ (t.line l).sched.piece = .none ∧
        (∀ o, (s.line l).unit.out = some o → o.source = .scheduler → o.counts = true →
          ((s.cfg l).immediate = true → (t.line l).unit.out = none) ∧
          ((s.cfg l).immediate = false → (t.line l).unit.out = some { o with counts := false })) ∧
        (∀ i r x n, k.current = some i → s.record i = some r → r.body = .outbound x → x.state = .sending →
          k.piece = .story → k.position = some n →
          ((s.cfg l).abandon = false →
            t.record i = some { r with body := .outbound { x with
              state := .heldBreak, resume := some (s.lineStart r n) } } ∧
            (t.line l).sched.current = some i ∧ (t.line l).sched.position = none ∧
            (t.line l).sched.queue = k.queue) ∧
          ((s.cfg l).abandon = true →
            t.record i = some { r with body := .outbound { x with
              state := .reporting, resume := none, outcome := some .abandoned, total := n } } ∧
            (t.line l).sched.current = none ∧ (t.line l).sched.queue = k.queue.filter (fun j => !(j == i)) ∧
            (s.hasRequest (.record i) = false →
              t.requestOf (.record i) =
                some { owner := .record i, cls := r.priority, kind := .close, key := x.call })))) ∧
      (∀ m, m ≠ l → t.line m = s.line m) ∧ t.mem = s.mem ∧ t.register = s.register ∧
      t.trackers = s.trackers ∧ t.groups = s.groups ∧ t.rx = s.rx

/-- LINE_OPEN_RISE (R8, R11, R194, R197) falls due when the input has been space for 2.5 s: LINE-OPEN rises; a
line in IDLE stops its sender, a line in LOOP returns to IDLE, a line in TEST stays there with its checker OUT.
The claims and the story of the line are the subject of `Obligations.ClaimsAndIntakesEnd` and
`Obligations.StoryEndsWithTheLine`. -/
def Obligations.LineOpenRises : Prop :=
  ∀ (l : LineNo) (s : State), s.active l = true → (s.line l).unit.spaceSince.isSome = true →
    s.cond l .brk = true → s.cond l .lineOpen = false →
    (∀ since, (s.line l).unit.spaceSince = some since →
      (Instr.lineOpenRise l ∈ s.dueLine l ↔ since + 5000000 ≤ s.now)) ∧
    ∃ t : Part, exec (.lineOpenRise l) s = .next { s with toPart := t.serveBus } ∧
      t.cond l .lineOpen = true ∧ t.cond l .brk = true ∧
      ((s.line l).unit.state = .idle →
        (t.line l).unit.state = .idle ∧ (t.line l).unit.awaitReady = true ∧
        (t.line l).unit.lastStop = some .lineOpen ∧ (t.line l).sched.running = false ∧
        (t.line l).sched.piece = .none ∧ (t.line l).sched.queue = (s.line l).sched.queue ∧
        (t.line l).sched.current = (s.line l).sched.current) ∧
      ((s.line l).unit.state = .loop →
        (t.line l).unit.state = .idle ∧ (t.line l).unit.resend = [] ∧ t.cond l .loop = false ∧
        (t.line l).sched = (s.line l).sched) ∧
      ((s.line l).unit.state = .test →
        (t.line l).unit = (s.line l).unit ∧ (t.line l).sup.chk.inSync = false ∧
        (t.line l).sup.chk.load = 0 ∧ (t.line l).sup.chk.run = 0 ∧ t.cond l .testSync = false ∧
        (t.line l).sched = (s.line l).sched) ∧
      ((s.line l).unit.state = .outOfService →
        (t.line l).unit = (s.line l).unit ∧ (t.line l).sched = (s.line l).sched) ∧
      (∀ m, m ≠ l → t.line m = s.line m) ∧ t.mem = s.mem ∧ t.register = s.register ∧
      t.trackers = s.trackers ∧ t.groups = s.groups ∧ t.rx = s.rx

/-- LINE_OPEN_RISE, and LINE_OUT and LINE_RESTART of one line in IDLE, end the story being assembled (R71): the
recognizer is OUTSIDE with nothing held, STALL low; a tied record in OPENING or STANDBY is freed, one in
CARRYING is freed while its OFFER waits, else WITHDRAWING with its WITHDRAW requested. -/
def Obligations.StoryEndsWithTheLine : Prop :=
  ∀ (l : LineNo) (c : Instr) (s : State), s.toPart.lineCauses l c →
    ∃ t : Part, exec c s = .next { s with toPart := t.serveBus } ∧
      (t.line l).recog = Recog.blank ∧ t.cond l .stall = false ∧
      ∀ i r x, (s.line l).recog.tied = some i → s.record i = some r → r.body = .inbound x →
        (x.state = .opening ∨ x.state = .standby → t.record i = none) ∧
        (x.state = .carrying → (s.requestOf (.record i)).map Request.kind = some FrameKind.offer →
          t.record i = none ∧ t.hasRequest (.record i) = false) ∧
        (x.state = .carrying → (s.requestOf (.record i)).map Request.kind ≠ some FrameKind.offer →
          t.record i = some { r with line := none, body := .inbound { x with state := .withdrawing } } ∧
          t.requestOf (.record i) =
            some { owner := .record i, cls := r.priority, kind := .withdraw, key := i.val })

/-! ### Sending (08) -/

/-- READY (R14, R170) falls due when the input has been mark for 2 s. With nothing on the output the sender
runs, and the first that applies begins: the answer-back; the held story, by its resumption text or a shift of
its resume point's plane; the owed interruption, or a LTRS shift for an empty text; a LTRS shift. On a RECEIVE
line it has no effect. -/
def Obligations.ReadyResumesTheSender : Prop :=
  ∀ (l : LineNo) (s : State), s.awaitsReady l = true → (s.line l).unit.out = none →
    let k := (s.line l).sched
    let texts := (s.line l).texts
    (∀ since, (s.line l).unit.markSince = some since →
      (Instr.ready l ∈ s.dueLine l ↔ since + 4000000 ≤ s.now)) ∧
    ((s.cfg l).mode.sends = false → exec (.ready l) s = .next { s with toPart :=
      (s.toPart.updUnit l fun x => { x with awaitReady := false }).serveBus }) ∧
    ((s.cfg l).mode.sends = true →
      ∃ t : Part, exec (.ready l) s = .next { s with toPart := t.serveBus } ∧
        let started := fun (p : Piece) (c : Code) =>
          (t.line l).sched.piece = p ∧ (t.line l).sched.progress = 0 ∧
            (t.line l).unit.out = some (s.begun c)
        (t.line l).sched.running = true ∧ (t.line l).unit.awaitReady = false ∧
        (∀ c cs, k.answerBack = .pending → texts.answerBack = c :: cs →
          started (.answerBack true) c ∧ (t.line l).sched.answerBack = .beingSent ∧ t.records = s.records) ∧
        (∀ i r x n p, k.answerBack ≠ .pending → k.current = some i → s.record i = some r →
          r.body = .outbound x → x.resume = some (n, p) →
          t.record i = some { r with body := .outbound { x with state := .sending } } ∧
          (∀ j, j ≠ i → t.record j = s.record j) ∧ (t.line l).sched.position = some n ∧
          (k.resumptionOwed = false → started (.shift p .held) (shiftCode (s.map l) p)) ∧
          (∀ c cs, k.resumptionOwed = true → texts.resumption = c :: cs → started .resumption c) ∧
          (k.resumptionOwed = true → texts.resumption = [] →
            started (.shift p .resumed) (shiftCode (s.map l) p) ∧ (t.line l).sched.resumptionOwed = false)) ∧
        (∀ p, k.answerBack ≠ .pending → k.current = none → k.interruptionOwed = some p →
          t.records = s.records ∧ (∀ c cs, texts.interruption = c :: cs → started .interruption c) ∧
          (texts.interruption = [] → started (.shift .ltrs .interruption) (shiftCode (s.map l) .ltrs))) ∧
        (k.answerBack ≠ .pending → k.current = none → k.interruptionOwed = none →
          t.records = s.records ∧ started (.shift .ltrs .ready) (shiftCode (s.map l) .ltrs)) ∧
        (t.line l).sched.queue = k.queue ∧ (∀ m, m ≠ l → t.line m = s.line m) ∧
        { t with lines := s.lines, records := s.records } = s.toPart)

/-- CODE_SENT (R10, R157) falls due one character period, u × (12 + s) / 2 µs, after the code began: within a text
line, and at a line end with nothing to insert, the story's next code begins at once; a code that a STOP has
overtaken leaves the output at mark (R12, R165); in TEST the generator's next code begins (R195), in LOOP the oldest
held code (R16). Inside an interruption, resumption or answer-back text its next code begins (R157); a resumption
text is followed by the shift of the resume point's plane, and that shift by the story's own code there (R156); an
answer-back by the shift of the plane the story stands in, LTRS with no story, and then by the story's next code, the
owed interruption or, after READY, the steps of R170, its request cleared (R164, R161). A pending answer-back follows
an interruption, and the LTRS shift after READY, before any choice (R164); the choice is the subject of
`Obligations.FreeSenderChooses`. The send output of a SEND or TWO-WAY line reads space for the start element, u long,
the five elements by their weights for u each, and mark from then on (R10); it holds mark with no code on it, on a
RECEIVE or UNUSED line, and while the station does not run (R1, R2, 11.6). MODEL'S CHOICE (notes/assumptions/31.md):
the level is read from the code on the output and the clock. -/
def Obligations.CodeSentBeginsTheNext : Prop :=
  (∀ (l : LineNo) (o : OutCode) (s : State), s.active l = true → (s.line l).unit.out = some o →
      let k := (s.line l).sched
      (Instr.codeSent l ∈ s.dueLine l ↔ o.began + (s.cfg l).u * (12 + (s.cfg l).stop) ≤ s.now) ∧
      (∀ i r n, (s.line l).unit.state = .idle → o.source = .scheduler → o.counts = true → k.running = true →
        k.piece = .story → k.current = some i → s.record i = some r → k.position = some n → n + 1 < r.count →
        (s.outEntry r n).mark = false ∨ (s.preemptor l r.priority = false ∧ k.answerBack ≠ .pending) →
        exec (.codeSent l) s = .next { s with toPart :=
          ((s.toPart.updUnit l fun x => { x with
            lastReport := some .sent, out := some (s.begun (s.outEntry r (n + 1)).code) }).updSched l fun k =>
              { k with position := some (n + 1) }).serveBus }) ∧
      ((s.line l).unit.state = .idle → o.source = .scheduler → o.counts = false → k.running = false →
        exec (.codeSent l) s = .next { s with toPart :=
          (s.toPart.updUnit l fun x => { x with lastReport := some .sent, out := none }).serveBus }) ∧
      ((s.line l).unit.state = .test → o.source = .generator → (s.cfg l).mode.sends = true →
        exec (.codeSent l) s = .next { s with toPart :=
          ((s.toPart.updSup l fun y => { y with gen := y.gen.make.2 }).updUnit l fun x => { x with
            out := some { code := (s.line l).sup.gen.make.1, source := .generator, began := s.now,
                          counts := true } }).serveBus }) ∧
      ((s.line l).unit.state = .loop → o.source = .loopResend →
        exec (.codeSent l) s = .next { s with toPart :=
          (s.toPart.updUnit l fun x => { x with
            resend := x.resend.drop 1
            out := x.resend.head?.map fun c =>
              { code := c, source := .loopResend, began := s.now, counts := true } }).serveBus })) ∧
  (∀ (l : LineNo) (s : State),
    ((s.line l).unit.out = none ∨ (s.cfg l).mode = .receive ∨ (s.cfg l).mode = .unused ∨ s.loader ≠ .running →
      s.tx l = true) ∧
    ∀ o, (s.line l).unit.out = some o → (s.cfg l).mode = .send ∨ (s.cfg l).mode = .twoWay →
      s.loader = .running → o.began ≤ s.now →
      let element := 2 * (s.cfg l).u
      (s.now < o.began + element → s.tx l = false) ∧
      (∀ k : Nat, k < 5 → o.began + element * (k + 1) ≤ s.now → s.now < o.began + element * (k + 2) →
        s.tx l = o.code.getLsbD k) ∧
      (0 < element → o.began + element * 6 ≤ s.now → s.tx l = true)) ∧
  ∀ (l : LineNo) (o : OutCode) (s : State), s.active l = true → (s.line l).unit.out = some o →
    (s.line l).unit.state = .idle → o.source = .scheduler → o.counts = true → (s.line l).sched.running = true →
    let k := (s.line l).sched
    let texts := (s.line l).texts
    let shift := fun p : Plane => shiftCode (s.map l) p
    let begins := fun (c : Code) (f : Sched → Sched) => (s.toPart.updUnit l fun x =>
      { x with lastReport := some .sent, out := some (s.begun c) }).updSched l f
    let goes := fun (c : Code) (f : Sched → Sched) =>
      exec (.codeSent l) s = .next { s with toPart := (begins c f).serveBus }
    let standsIn := fun p : Plane =>
      (k.current = none ∧ p = .ltrs) ∨
        ∃ i r x, k.current = some i ∧ s.record i = some r ∧ r.body = .outbound x ∧
          ((∃ n, x.resume = some (n, p) ∧ (k.position = none ∨ k.position = some n)) ∨
            ((∀ n q, x.resume = some (n, q) → k.position ≠ some n) ∧
              ((k.position = some 0 ∧ p = .ltrs) ∨
                ∃ n, k.position = some (n + 1) ∧ (s.outEntry r n).mark = true ∧ (s.outEntry r n).plane = p)))
    (∀ c,
      (k.piece = .interruption ∧ texts.interruption[k.progress + 1]? = some c) ∨
        (k.piece = .resumption ∧ texts.resumption[k.progress + 1]? = some c) ∨
        ((∃ ready, k.piece = .answerBack ready) ∧
          (texts.answerBack[k.progress + 1]? = some c ∨
            (k.progress + 1 = texts.answerBack.length ∧ ∃ p, standsIn p ∧ c = shift p))) →
      goes c fun k => { k with progress := k.progress + 1 }) ∧
    (∀ c cs p, k.current = none → k.answerBack = .pending → texts.answerBack = c :: cs →
      ((k.piece = .interruption ∧ k.progress + 1 = texts.interruption.length) ∨
          (k.piece = .shift p .interruption ∧ k.progress = 0) →
        goes c fun k => { k with
          interruptionOwed := none, answerBack := .beingSent, piece := .answerBack false, progress := 0 }) ∧
      (k.piece = .shift p .ready → k.progress = 0 →
        goes c fun k => { k with answerBack := .beingSent, piece := .answerBack false, progress := 0 })) ∧
    (∀ i r x n p, k.current = some i → s.record i = some r → r.body = .outbound x → k.position = some n →
      (k.piece = .resumption → k.progress + 1 = texts.resumption.length → x.resume = some (n, p) →
        goes (shift p) fun k => { k with piece := .shift p .resumed, progress := 0, resumptionOwed := false }) ∧
      (n < r.count → k.piece = .shift p .resumed ∨ k.piece = .shift p .held → k.progress = 0 →
        goes (s.outEntry r n).code fun k => { k with piece := .story, progress := 0 }) ∧
      (n < r.count → k.piece = .answerBack false → k.progress = texts.answerBack.length →
        goes (s.outEntry r n).code fun k => { k with answerBack := .clear, piece := .story, progress := 0 })) ∧
    (∀ ready p, k.piece = .answerBack ready → k.progress = texts.answerBack.length → k.current = none →
      (∀ c cs, k.interruptionOwed = some p → texts.interruption = c :: cs →
        goes c fun k => { k with answerBack := .clear, piece := .interruption, progress := 0 }) ∧
      (k.interruptionOwed = some p → texts.interruption = [] → p ≠ .ltrs ∨ ready = true →
        goes (shift .ltrs) fun k =>
          { k with answerBack := .clear, piece := .shift .ltrs .interruption, progress := 0 }) ∧
      (k.interruptionOwed = none → ready = true →
        goes (shift .ltrs) fun k => { k with answerBack := .clear, piece := .shift .ltrs .ready, progress := 0 })) ∧
    ∀ i r x n p, k.piece = .answerBack true → k.progress = texts.answerBack.length → k.current = some i →
      s.record i = some r → r.body = .outbound x → x.resume = some (n, p) →
      let resumes := fun (c : Code) (f : Sched → Sched) => exec (.codeSent l) s = .next { s with toPart :=
        ((begins c fun k => f { k with answerBack := .clear, position := some n, progress := 0 }).setRecord i
          (some { r with body := .outbound { x with state := .sending } })).serveBus }
      (∀ c cs, k.resumptionOwed = true → texts.resumption = c :: cs →
        resumes c fun k => { k with piece := .resumption }) ∧
      (k.resumptionOwed = true → texts.resumption = [] →
        resumes (shift p) fun k => { k with piece := .shift p .resumed, resumptionOwed := false }) ∧
      (k.resumptionOwed = false → resumes (shift p) fun k => { k with piece := .shift p .held })

/-- CODE_SENT at a line end of the current story (R157, R160, R161, R164): when a choosable record of the
queue would preempt it, the story is suspended with its resume point after the marked entry and interruption
is owed; a pending answer-back then begins, else the interruption text, else, where that is empty and the plane
of the resume point is not LTRS, a LTRS shift. With an empty text, plane LTRS and no answer-back pending nothing
is owed, and the free sender chooses in the same act: a preempting QUEUED story that stands first of the choosable
begins (R161, R155, R156). With no preemptor a pending answer-back begins and the story keeps its place. -/
def Obligations.LineEndPreemption : Prop :=
  ∀ (l : LineNo) (i : Slot) (r : Record) (x : OutRecord) (n : Nat) (o : OutCode) (s : State),
    s.active l = true → (s.line l).unit.state = .idle → (s.line l).unit.out = some o →
    o.source = .scheduler → o.counts = true →
    let k := (s.line l).sched
    let plane := (s.outEntry r n).plane
    let interruption := (s.line l).texts.interruption
    k.running = true → k.piece = .story → k.current = some i → s.record i = some r → r.body = .outbound x →
    k.position = some n → n + 1 < r.count → (s.outEntry r n).mark = true →
    let suspended : Record := { r with body := .outbound { x with
      state := .suspended, resume := some (n + 1, plane) } }
    ∃ t : Part, exec (.codeSent l) s = .next { s with toPart := t.serveBus } ∧
      (s.preemptor l r.priority = true → interruption ≠ [] ∨ k.answerBack = .pending ∨ plane ≠ .ltrs →
        t.record i = some suspended ∧
        (t.line l).sched.current = none ∧ (t.line l).sched.position = none ∧
        (t.line l).sched.interruptionOwed = some plane ∧ (t.line l).sched.progress = 0 ∧
        (∀ c cs, k.answerBack = .pending → (s.line l).texts.answerBack = c :: cs →
          (t.line l).sched.piece = .answerBack false ∧ (t.line l).sched.answerBack = .beingSent ∧
          (t.line l).unit.out = some (s.begun c)) ∧
        (∀ c cs, k.answerBack ≠ .pending → interruption = c :: cs →
          (t.line l).sched.piece = .interruption ∧ (t.line l).unit.out = some (s.begun c)) ∧
        (k.answerBack ≠ .pending → interruption = [] →
          (t.line l).sched.piece = .shift .ltrs .interruption ∧
          (t.line l).unit.out = some (s.begun (shiftCode (s.map l) .ltrs)))) ∧
      (s.preemptor l r.priority = true → interruption = [] → k.answerBack ≠ .pending → plane = .ltrs →
        let open' := fun x : OutRecord =>
          x.state = .suspended ∨ x.state = .queued ∧ ∀ g, x.release = some g → s.groups.get g = true
        let rank := fun (r : Record) (x : OutRecord) => 2 * r.priority + (if x.state = .suspended then 0 else 1)
        ∀ before j after q y, k.queue = before ++ j :: after → j ≠ i → s.record j = some q →
          q.body = .outbound y → y.state = .queued → (∀ g, y.release = some g → s.groups.get g = true) →
          preempts q.priority r.priority = true → 0 < q.count →
          (∀ m p z, m ∈ before → m ≠ i → s.record m = some p → p.body = .outbound z → open' z →
            rank q y < rank p z) →
          (∀ m p z, m ∈ after → m ≠ i → s.record m = some p → p.body = .outbound z → open' z →
            rank q y ≤ rank p z) →
          t.record i = some suspended ∧
          t.record j = some { q with body := .outbound { y with state := .sending } } ∧
          (t.line l).sched.current = some j ∧ (t.line l).sched.position = some 0 ∧
          (t.line l).sched.piece = .story ∧ (t.line l).sched.interruptionOwed = none ∧
          (t.line l).unit.out = some (s.begun (s.outEntry q 0).code) ∧
          (t.line l).sched.queue = k.queue ∧ (∀ m, m ≠ i → m ≠ j → t.record m = s.record m) ∧
          (∀ m, m ≠ l → t.line m = s.line m) ∧
          { t with lines := s.lines, records := s.records } = s.toPart) ∧
      (∀ c cs, s.preemptor l r.priority = false → k.answerBack = .pending →
        (s.line l).texts.answerBack = c :: cs →
        t.record i = some r ∧ (t.line l).sched.current = some i ∧ (t.line l).sched.position = some (n + 1) ∧
        (t.line l).sched.piece = .answerBack false ∧ (t.line l).sched.answerBack = .beingSent ∧
        (t.line l).unit.out = some (s.begun c)) ∧
      (s.preemptor l r.priority = false ∨ interruption ≠ [] ∨ k.answerBack = .pending ∨ plane ≠ .ltrs →
        (t.line l).sched.queue = k.queue ∧ (∀ j, j ≠ i → t.record j = s.record j) ∧
        (∀ m, m ≠ l → t.line m = s.line m) ∧
        { t with lines := s.lines, records := s.records } = s.toPart)

/-- CODE_SENT for the last code of the interruption text or of the LTRS shift in its place, of the LTRS shift after
READY, or of an answer-back with no interruption piece to follow: the piece ends and the free sender chooses (R155,
R156, R161, R164, R170). The choice is the choosable record first in order of priority, SUSPENDED before QUEUED, then
of joining (R154). A chosen QUEUED story begins at its first code, and one of no codes completes at once, SENT with
total 0 (R156, R171, R159). A chosen SUSPENDED story stands at its resume point and begins with the resumption text
or, where that is empty, with the shift of its resume point's plane (R156). -/
def Obligations.FreeSenderChooses : Prop :=
  ∀ (l : LineNo) (o : OutCode) (s : State),
    s.active l = true → (s.line l).unit.state = .idle → (s.line l).unit.out = some o →
    o.source = .scheduler → o.counts = true →
    let k := (s.line l).sched
    k.running = true → k.current = none →
    (k.answerBack = .clear ∧
        (k.piece = .interruption ∧ k.progress + 1 = (s.line l).texts.interruption.length ∨
          (k.piece = .shift .ltrs .ready ∨ k.piece = .shift .ltrs .interruption) ∧ k.progress = 0) ∨
      k.piece = .answerBack false ∧ k.progress = (s.line l).texts.answerBack.length ∧
        (k.interruptionOwed = none ∨
          k.interruptionOwed = some .ltrs ∧ (s.line l).texts.interruption = [])) →
    let open' := fun x : OutRecord =>
      x.state = .suspended ∨ x.state = .queued ∧ ∀ g, x.release = some g → s.groups.get g = true
    let rank := fun (r : Record) (x : OutRecord) => 2 * r.priority + (if x.state = .suspended then 0 else 1)
    ∃ t : Part, exec (.codeSent l) s = .next { s with toPart := t.serveBus } ∧
      ((∀ i r x, i ∈ k.queue → s.record i = some r → r.body = .outbound x → ¬open' x) →
        (t.line l).unit.out = none ∧ (t.line l).sched.current = none ∧ (t.line l).sched.piece = .none ∧
        t.records = s.records) ∧
      ∀ before i after r x, k.queue = before ++ i :: after → s.record i = some r → r.body = .outbound x →
        open' x →
        (∀ j q y, j ∈ before → s.record j = some q → q.body = .outbound y → open' y → rank r x < rank q y) →
        (∀ j q y, j ∈ after → s.record j = some q → q.body = .outbound y → open' y → rank r x ≤ rank q y) →
        (x.state = .queued → 0 < r.count →
          t.record i = some { r with body := .outbound { x with state := .sending } } ∧
          (t.line l).sched.current = some i ∧ (t.line l).sched.position = some 0 ∧
          (t.line l).sched.piece = .story ∧ (t.line l).unit.out = some (s.begun (s.outEntry r 0).code) ∧
          (∀ j, j ≠ i → t.record j = s.record j) ∧ (∀ m, m ≠ l → t.line m = s.line m) ∧
          { t with lines := s.lines, records := s.records } = s.toPart) ∧
        (x.state = .queued → r.count = 0 →
          t.record i = some { r with body := .outbound { x with
            state := .reporting, resume := none, outcome := some .sent, total := 0 } } ∧
          i ∉ (t.line l).sched.queue ∧ (t.line l).sched.current ≠ some i ∧
          (∀ g, x.completion = some g → t.groups.get g = true) ∧
          (s.hasRequest (.record i) = false →
            t.requestOf (.record i) =
              some { owner := .record i, cls := r.priority, kind := .close, key := x.call }) ∧
          t.mem = s.mem ∧ t.free = s.free ∧ t.register = s.register ∧ t.trackers = s.trackers) ∧
        (∀ n p, x.state = .suspended → x.resume = some (n, p) →
          t.record i = some { r with body := .outbound { x with state := .sending } } ∧
          (t.line l).sched.current = some i ∧ (t.line l).sched.position = some n ∧
          (t.line l).sched.progress = 0 ∧
          (∀ c cs, (s.line l).texts.resumption = c :: cs →
            (t.line l).sched.piece = .resumption ∧ (t.line l).sched.resumptionOwed = true ∧
            (t.line l).unit.out = some (s.begun c)) ∧
          ((s.line l).texts.resumption = [] →
            (t.line l).sched.piece = .shift p .resumed ∧ (t.line l).sched.resumptionOwed = false ∧
            (t.line l).unit.out = some (s.begun (shiftCode (s.map l) p))) ∧
          (∀ j, j ≠ i → t.record j = s.record j) ∧ (∀ m, m ≠ l → t.line m = s.line m) ∧
          { t with lines := s.lines, records := s.records } = s.toPart)

/-- CODE_SENT for the last code of the current story completes it (R171, R159): REPORTING with outcome SENT
and the code count as total, out of the queue, its completion group opened, its CLOSE requested; with nothing
else to send the output is left at mark. -/
def Obligations.StoryCompletes : Prop :=
  ∀ (l : LineNo) (i : Slot) (r : Record) (x : OutRecord) (o : OutCode) (s : State),
    s.active l = true → (s.line l).unit.state = .idle → (s.line l).unit.out = some o →
    o.source = .scheduler → o.counts = true →
    let k := (s.line l).sched
    k.running = true → k.piece = .story → k.current = some i → s.record i = some r → r.body = .outbound x →
    0 < r.count → k.position = some (r.count - 1) →
    ∃ t : Part, exec (.codeSent l) s = .next { s with toPart := t.serveBus } ∧
      t.record i = some { r with body := .outbound { x with
        state := .reporting, resume := none, outcome := some .sent, total := r.count } } ∧
      i ∉ (t.line l).sched.queue ∧ (t.line l).sched.current ≠ some i ∧
      (∀ g, x.completion = some g → t.groups.get g = true) ∧
      (∀ g, s.groups.get g = true → t.groups.get g = true) ∧
      (s.hasRequest (.record i) = false →
        t.requestOf (.record i) = some { owner := .record i, cls := r.priority, kind := .close, key := x.call }) ∧
      (k.queue = [i] → k.answerBack = .clear → x.completion = none →
        (t.line l).unit.out = none ∧ (t.line l).sched.piece = .none ∧ (t.line l).sched.current = none ∧
        (∀ j, j ≠ i → t.record j = s.record j) ∧ (∀ m, m ≠ l → t.line m = s.line m)) ∧
      t.mem = s.mem ∧ t.free = s.free ∧ t.register = s.register ∧ t.trackers = s.trackers ∧ t.rx = s.rx

/-! ### Timers of stories, claims and reports (03, 06, 07, 10) -/

/-- STALL_RISE, due when the stall timer has run 60 s and STALL is low, raises STALL and changes nothing else
(R67). STALL_EXPIRY, due when it has run 300 s (R68, R70), leaves the recognizer OUTSIDE with STALL low; with
nothing held it closes the tied story as truncated: freed from OPENING, STANDBY-COMPLETE from STANDBY, and a
CARRYING record closed and sending on, its cursor lowered to its count where it stood higher (R124). MODEL'S
CHOICE (notes/assumptions/42.md): the recognizer is OUTSIDE also where the release of held characters closes the
story at the length limit (R69). -/
def Obligations.StallEndsTheStory : Prop :=
  ∀ (l : LineNo) (s : State), s.active l = true → (s.line l).recog.stallSince.isSome = true →
    (∀ since, (s.line l).recog.stallSince = some since →
      (Instr.stallRise l ∈ s.dueLine l ↔ s.cond l .stall = false ∧ since + 120000000 ≤ s.now) ∧
      (Instr.stallExpiry l ∈ s.dueLine l ↔ since + 600000000 ≤ s.now)) ∧
    exec (.stallRise l) s = .next { s with toPart := (s.toPart.setCond l .stall true).serveBus } ∧
    ∃ t : Part, exec (.stallExpiry l) s = .next { s with toPart := t.serveBus } ∧
      (t.line l).recog = Recog.blank ∧ t.cond l .stall = false ∧ (t.line l).unit = (s.line l).unit ∧
      (t.line l).sched = (s.line l).sched ∧ (∀ m, m ≠ l → (t.line m).recog = (s.line m).recog) ∧
      ((s.line l).recog.lookahead = [] → (s.line l).recog.tied = none →
        (t.line l).sup.faults = (s.line l).sup.faults ∧
        { t with lines := s.lines, port := s.port } = s.toPart) ∧
      ∀ i r x, (s.line l).recog.lookahead = [] → (s.line l).recog.tied = some i → s.record i = some r →
        r.body = .inbound x →
        (t.line l).sup.faults.get FaultKind.truncated.idx = some
          { fields := { handle := some (s.handle i), serial := x.serial, offset := r.count, raw := none,
                        plane := (s.line l).plane }
            count := min 255 ((((s.line l).sup.faults.get FaultKind.truncated.idx).map FaultRecord.count).getD 0 + 1)
            changed := true } ∧
        (x.state = .opening → t.record i = none ∧ t.free = s.free ++ r.blocks) ∧
        (x.state = .standby →
          t.record i = some { r with
            line := none, body := .inbound { x with truncated := true, state := .standbyComplete } }) ∧
        (x.state = .carrying →
          t.record i = some { r with
            line := none
            body := .inbound { x with
              truncated := true, cursor := if r.count < x.cursor then r.count else x.cursor } } ∧
          (s.hasRequest (.record i) = false → (t.requestOf (.record i)).map Request.kind =
            some (if x.quiet = false ∧ x.cursor < r.count then FrameKind.text else FrameKind.close))) ∧
        (∀ j, j ≠ i → t.record j = s.record j) ∧ t.mem = s.mem ∧ t.register = s.register ∧
        t.trackers = s.trackers ∧ t.groups = s.groups

/-- ENTRY_AGED falls due when a LIVE entry's time last heard lies 120 s in the past, and makes it WITHDRAWN
with its time last heard unchanged (R112). -/
def Obligations.LiveEntriesAge : Prop :=
  ∀ (service serial : Nat) (s : State),
    (Instr.entryAged service serial ∈ s.dueEntries ↔
      ∃ e ∈ s.register, e.state = .live ∧ e.service = service ∧ e.serial = serial ∧
        e.heard + 120 * 2000000 ≤ s.now) ∧
    exec (.entryAged service serial) s = .next { s with register := s.register.map fun e =>
      if e.state = .live ∧ e.service = service ∧ e.serial = serial then { e with state := .withdrawn } else e }

/-- PEER_SILENCE_20S and PEER_SILENCE_120S (R122, R123) fall due 20 s, once, and 120 s after the record's silence
timer started: after 20 s a standby record takes over if it is not
quiet and holds more than its peer has sent, and else waits; after 120 s it takes over in any case. -/
def Obligations.PeerSilenceTakesOver : Prop :=
  ∀ (i : Slot) (r : Record) (x : InRecord) (p : Peer) (s : State),
    s.record i = some r → r.body = .inbound x → x.state = .standby ∨ x.state = .standbyComplete →
    x.peer = some p →
    (Instr.peerSilence20s i ∈ s.dueRecord i ↔ p.past20 = false ∧ p.since + 40000000 ≤ s.now) ∧
    (Instr.peerSilence120s i ∈ s.dueRecord i ↔ p.since + 240000000 ≤ s.now) ∧
    (x.quiet = false → p.progress < r.count →
      ∃ t : Part, exec (.peerSilence20s i) s = .next { s with toPart := t.serveBus } ∧
        TakesOver s.toPart t i r x p ∧ (∀ j, j ≠ i → t.record j = s.record j) ∧
        { t with records := s.records, port := s.port } = s.toPart) ∧
    (x.quiet = true ∨ r.count ≤ p.progress →
      exec (.peerSilence20s i) s = .next { s with toPart := (s.toPart.setRecord i (some { r with
        body := .inbound { x with peer := some { p with past20 := true } } })).serveBus }) ∧
    ∃ t : Part, exec (.peerSilence120s i) s = .next { s with toPart := t.serveBus } ∧
      TakesOver s.toPart t i r x p ∧ (∀ j, j ≠ i → t.record j = s.record j) ∧
      { t with records := s.records, port := s.port } = s.toPart

/-- CLAIM_PENDING_EXPIRY, due 2 s after the pending timer started, withdraws a claim at once when its CLAIM has not
begun, freed with its reservation and its request, and marks it when the frame is under way, to be ended as that
frame ends (R143); INTAKE_SILENCE_EXPIRY, due after 10 s of silence, aborts an intake (R148, R150). BREAK_RISE,
LINE_OPEN_RISE, and LINE_OUT and TEST_START of one line in IDLE, withdraw the claims of their line in the same way
(R144). MODEL'S CHOICE (notes/assumptions/26.md): the pending timer of a claim ended while its CLAIM is under way
stops at that event. -/
def Obligations.ClaimsAndIntakesEnd : Prop :=
  (∀ (i : Slot) (r : Record) (x : OutRecord) (s : State), s.record i = some r → r.body = .outbound x →
    (∀ c, x.state = .claiming → x.claim = some c → c.since.isSome = true →
      (∀ since, c.since = some since →
        (Instr.claimPendingExpiry i ∈ s.dueRecord i ↔ since + 4000000 ≤ s.now)) ∧
      (s.frameUnderWay (.record i) = false →
        ∃ t : Part, exec (.claimPendingExpiry i) s = .next { s with toPart := t.serveBus } ∧
          Frees s.toPart t i r) ∧
      (s.frameUnderWay (.record i) = true → c.ending = none →
        exec (.claimPendingExpiry i) s = .next { s with toPart := (s.toPart.setRecord i (some { r with
          body := .outbound { x with
            claim := some { c with since := none, ending := some .withdraw } } })).serveBus })) ∧
    (x.state = .intake →
      (∀ k, x.intake = some k →
        (Instr.intakeSilenceExpiry i ∈ s.dueRecord i ↔ k.since + 20000000 ≤ s.now)) ∧
      ∃ t : Part, exec (.intakeSilenceExpiry i) s = .next { s with toPart := t.serveBus } ∧
        Aborts s.toPart t i r x)) ∧
  ∀ (l : LineNo) (c : Instr) (s : State), s.toPart.stopsClaims l c →
    ∃ t : Part, exec c s = .next { s with toPart := t.serveBus } ∧
      ∀ i r x m, s.record i = some r → r.body = .outbound x → r.line = some l → x.state = .claiming →
        x.claim = some m →
        (s.frameUnderWay (.record i) = false → t.record i = none ∧ t.hasRequest (.record i) = false) ∧
        (s.frameUnderWay (.record i) = true → m.ending = none →
          t.record i = some { r with body := .outbound { x with
            claim := some { m with since := none, ending := some .withdraw } } })

/-- REPORT_PERIOD_EXPIRY, due 60 s after its timer started, transfers every AUTO line and starts its timer
again; COUNT_TRANSFER transfers every line it names that is not UNUSED; no other line changes (R200). QUERY,
from any station, and QUERY_AND_CLEAR, by authority, place the report of each line they name with the query
flag, the latter with the cleared flag as well, and change nothing else (R205, R214). -/
def Obligations.CountsAndQueriesTaken : Prop :=
  ∀ s : State,
    (s.loader = .running →
      (∀ since, s.reportSince = some since →
        (Instr.reportPeriodExpiry ∈ s.dueStation ↔ since + 120000000 ≤ s.now)) ∧
      ∃ t : Part, exec .reportPeriodExpiry s = .next { s with toPart := t.serveBus } ∧
        t.reportSince = some s.now ∧
        (∀ l, s.active l = true → (s.cfg l).auto = true → Transferred s.toPart t l) ∧
        (∀ l, s.active l = false ∨ (s.cfg l).auto = false → t.line l = s.line l) ∧
        { t with reportSince := s.reportSince, lines := s.lines, port := s.port } = s.toPart) ∧
    ∀ o : Order, s.toPart.takes .lines o →
      (s.supervises o = true →
        ∃ t : Part, exec (.countTransfer o) s = .next { s with toPart := t.serveBus } ∧
          (∀ l, names o l → s.active l = true → Transferred s.toPart t l) ∧
          (∀ l, ¬names o l ∨ s.active l = false → t.line l = s.line l) ∧
          { t with lines := s.lines, port := s.port, hearings := s.hearings } = s.toPart) ∧
      ∀ clear : Bool, (clear = true → s.supervises o = true) →
        ∃ t : Part,
          exec (if clear then .queryAndClear o else .query o) s = .next { s with toPart := t.serveBus } ∧
          (∀ l, names o l → s.active l = true →
            t.hasRequest (.report l) = true ∧
            (s.hasRequest (.report l) = false → t.requestOf (.report l) = some (reportRequest l)) ∧
            t.line l = { s.line l with sup := { (s.line l).sup with
              query := true, clear := (s.line l).sup.clear || clear, lateQuery := true,
              lateClear := (s.line l).sup.lateClear || clear } }) ∧
          (∀ l, ¬names o l ∨ s.active l = false → t.line l = s.line l) ∧
          { t with lines := s.lines, port := s.port, hearings := s.hearings } = s.toPart

/-! ### The copy bus (09) -/

/-- What a port that drives no frame does (R175, R178, R179, R180): BUS_FREE leaves WAIT for FREE; a start bit
read in FREE, or in WAIT once ten idle bits have been counted, begins RECEIVING; until then no frame is received,
and none is heard; a spoil slot read dominant ends the reception unheard. FRAME_CHECK rejects a frame of length
over 72 or whose bytes do not sum to 0 modulo 256, and no other (R180), and the bytes of a frame that a port
sends pass it (R176); a rejected frame is heard by no owner. A NOTICE, and an ORDER that names no order, is
heard and handed to no owner, and the port returns to WAIT (R187, R190; that HEARD_NOTICE stands for both is
the model's choice, notes/assumptions/38.md). A port that loses arbitration receives on, its request and its
spoil count as they were, and a claim already ended is freed then (R143). -/
def Obligations.PortReceivesAndJudges : Prop :=
  ∀ s : State, s.loader ≠ .off →
    (s.port.state = .wait → exec .busFree s = .next { s with toPart :=
      (s.toPart.updPort fun p => { p with state := .free, synced := true }).serveBus }) ∧
    (s.port.state = .free ∨ (s.port.state = .wait ∧ s.port.synced = true) →
      exec .startBitRead s = .next { s with toPart :=
        (s.toPart.updPort fun p => { p with state := .receiving, rejecting := false }) }) ∧
    (∀ (f : Heard) (g : Frame) (o : Order) (bytes : List Byte), s.port.state = .wait → s.port.synced = false →
      ∀ c ∈ [Instr.startBitRead, .frameCheck bytes, .spoilSlotReadDominant, .heardCall f, .heardClaim f,
          .heardOffer f, .heardTextStory f, .heardCloseStory f, .heardWithdrawStory f, .heardTextCall f,
          .heardCloseCall f, .heardWithdrawCall f, .heardNotice g, .lineOut o, .query o, .rerun o,
          .stationRestart o 0],
        exec c s = .next s) ∧
    (s.port.state = .receiving → exec .spoilSlotReadDominant s = .next { s with toPart :=
      (s.toPart.updPort fun p => { p with state := .wait, rejecting := false }) }) ∧
    (∀ f, s.port.drives = true → s.port.own = some f →
      let t := s.toPart.updPort fun p => { p with state := .receiving, rejecting := false, own := none }
      (f.removed = true ∨ f.frame.kind ≠ .claim → exec .arbitrationLost s = .next { s with toPart := t }) ∧
      (∀ i r x c, f.removed = false → f.frame.kind = .claim → f.owner = .record i → s.record i = some r →
        r.body = .outbound x → x.claim = some c →
        (c.ending = none → exec .arbitrationLost s = .next { s with toPart := t }) ∧
        (c.ending ≠ none →
          ∃ u : Part, exec .arbitrationLost s = .next { s with toPart := u } ∧ Frees t u i r))) ∧
    (s.port.state = .receiving → s.port.rejecting = false →
      ∀ g : Frame, exec (.heardNotice g) s = .next { s with
        hearings := s.hearings + 1, port := { s.port with state := .wait } }) ∧
    (s.port.state = .receiving → ∀ bytes : List Byte,
      (72 < (bytes.getD 3 0).toNat ∨ (bytes.map BitVec.toNat).sum % 256 ≠ 0 →
        exec (.frameCheck bytes) s =
          .next { s with toPart := (s.toPart.updPort fun p => { p with rejecting := true }) }) ∧
      ((bytes.getD 3 0).toNat ≤ 72 → (bytes.map BitVec.toNat).sum % 256 = 0 →
        exec (.frameCheck bytes) s =
          .next { s with toPart := (s.toPart.updPort fun p => { p with rejecting := false }) }) ∧
      (∀ f : Frame, f.body.payload.length ≤ 72 →
        exec (.frameCheck (frameBytes f)) s =
          .next { s with toPart := (s.toPart.updPort fun p => { p with rejecting := false }) }) ∧
      (∀ (f : Heard) (g : Frame) (o : Order), s.port.rejecting = true →
        ∀ c ∈ [Instr.heardCall f, .heardClaim f, .heardOffer f, .heardTextStory f, .heardCloseStory f,
            .heardWithdrawStory f, .heardTextCall f, .heardCloseCall f, .heardWithdrawCall f, .heardNotice g,
            .lineOut o, .query o, .rerun o],
          exec c s = .next { s with toPart :=
            (s.toPart.updPort fun p => { p with state := .wait, rejecting := false }).serveBus }))

/-- A port in FREE that is not silent begins the frame of its head request at once, and only then (R178,
R185): the request whose frame was spoiled, else the first of the list (R183). The frame is built from the
owner's state at that moment (R182): a TEXT carries the characters unsent from the bus cursor on, 64 at most
(R65); the payloads of the OFFER, CLOSE, WITHDRAW and CLAIM, and of the three notices, are laid out as R189 and
R190 give (R66, R114, R127, R139, R171, R202, R203, R206). The start bit of a report notice clears the changed
marks of the records it includes (R206). The port is then in CONTENDING (R175). -/
def Obligations.FreePortBeginsHeadRequest : Prop :=
  ∀ s : Part,
    (s.maySend = true ↔ (s.loader = .running ∨ s.loader = .configFault) ∧ s.port.state = .free ∧
      s.stationCond .busSilent = false) ∧
    (s.maySend = false ∨ s.port.sendList = [] → s.serveBus = s) ∧
    ∀ q, s.maySend = true →
      (s.port.sticky = none ∧ s.port.sendList.head? = some q) ∨
        (∃ o, s.port.sticky = some o ∧ s.requestOf o = some q) →
      ∃ f : Frame, s.serveBus.port = { s.port with
          state := .contending, own := some { owner := q.owner, frame := f, began := s.now, removed := false } } ∧
        f.kind = q.kind ∧ f.body.cls = BitVec.ofNat 3 q.cls ∧ f.body.key = BitVec.ofNat 12 q.key ∧
        f.body.station = BitVec.ofNat 6 s.number ∧
        (∀ i r x, q.owner = .record i → q.kind = .text → s.record i = some r → r.body = .inbound x →
          f.body.payload = [0, BitVec.ofNat 8 s.number, 0, BitVec.ofNat 8 i.val] ++ be16 x.cursor ++
            (List.range (min 64 (r.count - x.cursor))).map fun k =>
              s.mem.read (entryAddr r.blocks (x.cursor + k))) ∧
        (∀ i r x, q.owner = .record i → s.record i = some r → r.body = .inbound x →
          (q.kind = .offer → f.body.payload =
            [BitVec.ofNat 8 i.val, BitVec.ofNat 8 x.service] ++ be16 (x.serial.getD 0) ++
              [BitVec.ofNat 8 r.priority, BitVec.ofNat 8 x.category,
                BitVec.ofNat 8 (if x.state = .rerunning then 4
                  else (if x.quiet then 1 else 0) + (if x.takeover then 2 else 0) + (if x.rerun then 4 else 0))] ++
              be16 x.cursor ++ [BitVec.ofNat 8 x.slug.length] ++ x.slug) ∧
          (q.kind = .close → f.body.payload =
            [0, BitVec.ofNat 8 s.number, 0, BitVec.ofNat 8 i.val] ++ be16 r.count ++ be16 x.mutilation ++
              [BitVec.ofNat 8 ((if x.truncated then 1 else 0) + (if x.overrun then 2 else 0) +
                (if x.headingFault then 4 else 0) + (if x.quiet ∧ x.state ≠ .rerunning then 8 else 0) +
                (if x.takeover then 16 else 0) + (if x.rerun ∨ x.state = .rerunning then 32 else 0))]) ∧
          (q.kind = .withdraw → f.body.payload = [0, BitVec.ofNat 8 s.number, 0, BitVec.ofNat 8 i.val])) ∧
        (∀ i r x, q.owner = .record i → s.record i = some r → r.body = .outbound x →
          (∀ c l, q.kind = .claim → x.claim = some c → r.line = some l → f.body.payload =
            [BitVec.ofNat 8 x.caller] ++ be16 x.call ++ [BitVec.ofNat 8 l.val] ++ be16 c.bid) ∧
          (∀ e, q.kind = .close → x.outcome = some e → f.body.payload =
            [1, BitVec.ofNat 8 x.caller] ++ be16 x.call ++ be16 x.total ++
              [0, 0, if e = .sent then 1 else 2]) ∧
          (q.kind = .withdraw → f.body.payload = [1, BitVec.ofNat 8 x.caller] ++ be16 x.call)) ∧
        (q.owner = .station → f.body.payload =
          [3, s.notices.levels, s.notices.changed, s.notices.events, BitVec.ofNat 8 s.faultReason,
            BitVec.ofNat 8 s.notices.refusedCode, BitVec.ofNat 8 s.notices.refusedSource] ++
            be16 s.notices.refusals) ∧
        (∀ l, q.owner = .report l →
          let y := (s.line l).sup
          let head := [2, BitVec.ofNat 8 (s.cfg l).counted.val,
            BitVec.ofNat 8 ((if y.unreported then 1 else 0) + (if y.query then 2 else 0) +
              (if y.query ∧ y.clear then 4 else 0))] ++ be16 (if y.unreported then y.snapshot else 0)
          let bytes := fun r : FaultRecord =>
            be16 ((match r.fields.handle with
                | some h => 32768 + 1024 * h.station + 16 * h.slot
                | none => 0) + (if r.fields.serial.isSome then 8 else 0) +
                (if r.fields.raw.isSome then 4 else 0) + r.fields.plane.val) ++
              be16 (r.fields.serial.getD 0) ++ be16 r.fields.offset ++
              [BitVec.ofNat 8 ((r.fields.raw.map BitVec.toNat).getD 0), BitVec.ofNat 8 r.count]
          (y.query = false → f.body.payload = head ++ [0]) ∧
          (y.query = true →
            ∃ mask : Byte, (∀ k : Fin 8, mask.getLsbD k.val = (y.faults.get k).isSome) ∧
              f.body.payload =
                head ++ mask :: ((List.finRange 8).filterMap fun k => y.faults.get k).flatMap bytes)) ∧
        (∀ l, q.owner = .condition l →
          f.body.payload = [1, (s.line l).sup.levels, (s.line l).sup.changed]) ∧
        (∀ l, q.owner = .report l → (s.line l).sup.query = true → ∀ k r,
          (s.line l).sup.faults.get k = some r →
          (s.serveBus.line l).sup.faults.get k = some { r with changed := false }) ∧
        (∀ l, q.owner ≠ .report l → s.serveBus.line l = s.line l) ∧
        { s.serveBus with lines := s.lines, port := s.port } = s

/-- OWN_FRAME_SPOIL_SLOT read dominant keeps the request, at the head, and counts the spoil (R179, R185); at the
eighth in a row BUS-SILENT rises, and BUS_SILENT_EXPIRY, due 1 s later, ends it with the count at 0 and the
notice placed with event RECOVERED. A spoiled CLAIM whose claim has ended meanwhile frees its record (R143). A
frame whose request was removed is driven on to the end of its check byte, its spoil slot is driven dominant by
its own port, and it counts for nothing (R184); no other own frame's slot is driven, and a received frame's is
driven exactly when it failed its check (R180). The start bit stands dominant on the drive pin (R176). MODEL'S
CHOICE: the drive pin is read from the port's state and the clock (notes/assumptions/31.md), and a port in READING
drives the spoil slot of a frame that failed its check, as in RUNNING and CONFIG-FAULT (notes/assumptions/45.md). -/
def Obligations.SpoiledFramesAndSilence : Prop :=
  ∀ s : State, s.loader ≠ .off →
    (s.port.state = .receiving → s.cbd = s.port.rejecting) ∧
    (∀ f, s.port.drives = true → s.port.own = some f →
      (s.now < f.began + 32 → s.cbd = true) ∧
      (∀ k : Nat, k < 24 → f.began + 32 * (k + 1) ≤ s.now → s.now < f.began + 32 * (k + 2) →
        s.cbd = !((BitVec.ofNat 24 (frameValue f.frame)).getLsbD (23 - k))) ∧
      (f.began + 32 * (41 + 8 * f.frame.body.payload.length) ≤ s.now → s.cbd = f.removed)) ∧
    (∀ f dominant, s.port.drives = true → s.port.own = some f → f.removed = true →
      exec (.ownFrameSpoilSlot dominant) s = .next { s with toPart := (s.toPart.updPort fun p =>
        { p with state := .wait, own := none, rejecting := false }).serveBus }) ∧
    (∀ f, s.port.drives = true → s.port.own = some f → f.removed = false →
      f.frame.kind ≠ .claim ∨ (∃ i r x c, f.owner = .record i ∧ s.record i = some r ∧ r.body = .outbound x ∧
        x.claim = some c ∧ c.ending = none) →
      ∃ t : Part, exec (.ownFrameSpoilSlot true) s = .next { s with toPart := t.serveBus } ∧
        t.port.state = .wait ∧ t.port.own = none ∧ t.port.rejecting = false ∧ t.port.sticky = some f.owner ∧
        t.port.spoilCount = min 8 (s.port.spoilCount + 1) ∧ t.port.synced = s.port.synced ∧
        (s.port.spoilCount < 7 → t.port.sendList = s.port.sendList ∧ t.notices = s.notices ∧
          t.port.silentSince = s.port.silentSince) ∧
        (7 ≤ s.port.spoilCount → t.stationCond .busSilent = true ∧ t.port.silentSince = some s.now ∧
          ∀ q ∈ s.port.sendList, q ∈ t.port.sendList) ∧
        { t with port := s.port, notices := s.notices } = s.toPart) ∧
    (∀ f i r x c, s.port.drives = true → s.port.own = some f → f.removed = false → f.frame.kind = .claim →
      f.owner = .record i → s.record i = some r → r.body = .outbound x → x.claim = some c → c.ending ≠ none →
      ∃ t : Part, exec (.ownFrameSpoilSlot true) s = .next { s with toPart := t.serveBus } ∧
        Frees s.toPart t i r ∧ t.port.state = .wait ∧ t.port.own = none ∧ t.port.sticky = none ∧
        t.port.spoilCount = min 8 (s.port.spoilCount + 1) ∧
        (7 ≤ s.port.spoilCount → t.stationCond .busSilent = true ∧ t.port.silentSince = some s.now)) ∧
    (s.port.silentSince.isSome = true →
      (∀ since, s.port.silentSince = some since →
        (Instr.busSilentExpiry ∈ s.dueStation ↔ since + 2000000 ≤ s.now)) ∧
      ∃ t : Part, exec .busSilentExpiry s = .next { s with toPart := t.serveBus } ∧
        t.port.silentSince = none ∧ t.port.spoilCount = 0 ∧
        t.notices = { s.notices with
          levels := putBit s.notices.levels 2 false, changed := s.notices.changed ||| 4,
          events := s.notices.events ||| 2 } ∧
        t.hasRequest .station = true ∧
        { t with port := s.port, notices := s.notices } = s.toPart)

/-- OWN_FRAME_SPOIL_SLOT read recessive, for a frame of an inbound story (R179): its request leaves the list and the
spoil count is 0; an OFFER sent leaves the record as it is, a TEXT moves the bus cursor on by the characters it
carried (R65), and after either the record asks for what is next: a TEXT for 64 or more unsent characters, for the
remainder of a closed story, and for a LINE END unsent in a FLASH or BULLETIN story (R64); the CLOSE of a closed
story that is quiet or has none unsent (R66); nothing for an open story otherwise; a rerun's TEXT or CLOSE (R127). A
CLOSE makes the record RECENT at the newest end of the recent list, its referenced flag clear from CARRYING (R66,
R87, R88) and its RERUN flag clear from RERUNNING (R128). A WITHDRAW sent frees the WITHDRAWING record with its
blocks (R71, R81), and the station hears it: the LIVE entry of the handle becomes WITHDRAWN (R111, R186). -/
def Obligations.StoryFrameSent : Prop :=
  (∀ (i : Slot) (r : Record) (x : InRecord) (f : OwnFrame) (s : State), s.loader ≠ .off →
    s.port.drives = true → s.port.own = some f → f.removed = false → f.owner = .record i →
    f.frame.body.station.toNat = s.number →
    s.record i = some r → r.body = .inbound x → x.state = .carrying ∨ x.state = .rerunning →
    aboutCall f.frame.body = false →
    let due := fun cursor : Nat =>
      64 ≤ r.count - cursor ∨ (1 ≤ r.count - cursor ∧ (r.line = none ∨
        (r.priority ≤ 1 ∧ ∃ n, cursor ≤ n ∧ n < r.count ∧ s.mem.read (entryAddr r.blocks n) = 10)))
    let asks := fun (t : Part) (k : FrameKind) => (t.requestOf (.record i)).map Request.kind = some k
    let asksNext := fun (t : Part) (cursor : Nat) =>
      (x.state = .carrying → x.quiet = false → due cursor → asks t .text) ∧
      (x.state = .carrying → r.line = none → x.quiet = true ∨ cursor = r.count → asks t .close) ∧
      (x.state = .carrying → r.line ≠ none → x.quiet = true ∨ ¬due cursor → t.hasRequest (.record i) = false) ∧
      (x.state = .rerunning → asks t (if cursor < r.count then .text else .close))
    ∃ t : Part, exec (.ownFrameSpoilSlot false) s = .next { s with toPart := t.serveBus } ∧
      t.port.state = .wait ∧ t.port.own = none ∧ t.port.spoilCount = 0 ∧ t.port.sticky ≠ some f.owner ∧
      (f.frame.kind = .offer → t.record i = some r ∧ asksNext t x.cursor) ∧
      (f.frame.kind = .text →
        let cursor := x.cursor + (f.frame.body.payload.length - 6)
        t.record i = some { r with body := .inbound { x with cursor := cursor } } ∧ asksNext t cursor) ∧
      (f.frame.kind = .close →
        t.record i = some { r with body := .inbound { x with
          state := .recent
          referenced := if x.state = .carrying then some false else x.referenced
          rerun := if x.state = .carrying then x.rerun else false } } ∧
        t.recent.getLast? = some i ∧ t.hasRequest (.record i) = false) ∧
      t.mem = s.mem ∧ t.groups = s.groups ∧ t.rx = s.rx) ∧
  ∀ (i : Slot) (r : Record) (x : InRecord) (f : OwnFrame) (s : State), s.loader ≠ .off →
    s.port.drives = true → s.port.own = some f → f.removed = false → f.owner = .record i →
    f.frame.body.station.toNat = s.number → f.frame.kind = .withdraw → aboutCall f.frame.body = false →
    s.record i = some r → r.body = .inbound x → x.state = .withdrawing →
    ∃ t : Part, exec (.ownFrameSpoilSlot false) s = .next { s with toPart := t.serveBus } ∧
      t.port.state = .wait ∧ t.port.own = none ∧ t.port.spoilCount = 0 ∧
      t.record i = none ∧ t.hasRequest (.record i) = false ∧ t.free = s.free ++ (r.blocks ++ r.reservation) ∧
      (∀ j, j ≠ i → (∀ h, readWithdraw f.frame.body = some (.story h) → s.standsBehind j h = false) →
        t.record j = s.record j) ∧
      (∀ h, s.loader = .running → fromStation f.frame.body = true →
        readWithdraw f.frame.body = some (.story h) →
        t.register = s.register.map fun e =>
          if e.state = .live ∧ e.owner = h then
            { e with state := .withdrawn, heard := s.now, order := s.hearings + 1 }
          else e) ∧
      t.mem = s.mem ∧ t.lines = s.lines ∧ t.trackers = s.trackers ∧ t.groups = s.groups ∧ t.rx = s.rx

/-- OWN_FRAME_SPOIL_SLOT read recessive, for a frame about a call (R179): a CLAIM sent wins the claim, and
the record enters INTAKE with offset 0, plane LTRS, column 0 and its silence timer started (R141, R145), or
aborts (R152) or is freed (R151) where its end was settled meanwhile; a WITHDRAW or CLOSE sent frees the
record (R150, R171). -/
def Obligations.CallFrameSent : Prop :=
  ∀ (i : Slot) (r : Record) (x : OutRecord) (f : OwnFrame) (s : State), s.loader ≠ .off →
    s.port.drives = true → s.port.own = some f → f.removed = false → f.owner = .record i →
    f.frame.body.station.toNat = s.number → s.record i = some r → r.body = .outbound x →
    ∃ t : Part, exec (.ownFrameSpoilSlot false) s = .next { s with toPart := t.serveBus } ∧
      t.port.state = .wait ∧ t.port.own = none ∧ t.port.spoilCount = 0 ∧ t.port.sticky ≠ some f.owner ∧
      (∀ c, f.frame.kind = .claim → x.claim = some c →
        (c.ending = none ∨ c.ending = some .withdraw →
          t.record i = some { r with body := .outbound { x with
            state := .intake, claim := none,
            intake := some { expected := 0, plane := .ltrs, column := 0, since := s.now } } } ∧
          t.hasRequest (.record i) = false ∧ t.free = s.free ∧ t.mem = s.mem) ∧
        (c.ending = some .abort →
          t.record i = some { r with body := .outbound { x with
            state := .aborting, chars := none, claim := none, intake := none } } ∧
          t.requestOf (.record i) =
            some { owner := .record i, cls := r.priority, kind := .withdraw, key := x.call }) ∧
        (c.ending = some .free →
          t.record i = none ∧ t.free = s.free ++ (r.blocks ++ r.reservation))) ∧
      (f.frame.kind = .withdraw ∨ f.frame.kind = .close →
        t.record i = none ∧ t.hasRequest (.record i) = false) ∧
      (f.frame.kind = .claim ∨
          ((f.frame.kind = .withdraw ∨ f.frame.kind = .close) ∧ aboutCall f.frame.body = true ∧
            (f.frame.body.payload.getD 1 0).toNat ≠ s.number) →
        (f.frame.kind ≠ .claim → t.free = s.free ++ (r.blocks ++ r.reservation)) ∧
        (∀ j, j ≠ i → t.record j = s.record j) ∧
        { t with
          records := s.records, free := s.free, recent := s.recent, port := s.port, notices := s.notices,
          hearings := s.hearings } = s.toPart)

/-- OWN_FRAME_SPOIL_SLOT read recessive, for a notice (R179): the conditions that a condition notice carried
leave the changed set (R202), the events and conditions that a station notice carried leave theirs (R203);
what a report carried is reported, a transfer or query since its start bit being kept, and the fault records
that it included with the cleared flag are absent unless marked since (R206). What is left is asked for
again. MODEL'S CHOICE: a bit that the notice carried leaves its set even when its event has come again since
the start bit (notes/assumptions/19.md); a query, a snapshot and a clear request that came after a report's start
bit are kept, and no earlier one (notes/assumptions/20.md). -/
def Obligations.NoticeSent : Prop :=
  ∀ (f : OwnFrame) (s : State), s.loader ≠ .off → s.port.drives = true → s.port.own = some f →
    f.removed = false → f.frame.kind = .notice →
    ∃ t : Part, exec (.ownFrameSpoilSlot false) s = .next { s with toPart := t.serveBus } ∧
      t.port.state = .wait ∧ t.port.own = none ∧ t.port.spoilCount = 0 ∧
      let b := fun k => f.frame.body.payload.getD k 0
      (∀ l, f.owner = .condition l →
        (t.line l).sup = { (s.line l).sup with changed := (s.line l).sup.changed &&& ~~~(b 2) } ∧
        (t.hasRequest (.condition l) = true ↔ (t.line l).sup.changed ≠ 0) ∧
        t.notices = s.notices ∧ ∀ m, m ≠ l → t.line m = s.line m) ∧
      (f.owner = .station →
        t.notices = { s.notices with
          changed := s.notices.changed &&& ~~~(b 2), events := s.notices.events &&& ~~~(b 3) } ∧
        (t.hasRequest .station = true ↔ t.notices.changed ≠ 0 ∨ t.notices.events ≠ 0) ∧ t.lines = s.lines) ∧
      (∀ l, f.owner = .report l →
        let y := (s.line l).sup
        (t.line l).sup.unreported = y.lateSnapshot ∧ (t.line l).sup.query = y.lateQuery ∧
        (t.line l).sup.clear = y.lateClear ∧
        (∀ k : Fin 8, (t.line l).sup.faults.get k =
          if (b 2).getLsbD 2 = true ∧ (b 5).getLsbD k.val = true ∧
              (y.faults.get k).map FaultRecord.changed = some false then none
          else y.faults.get k) ∧
        (t.hasRequest (.report l) = true ↔ y.lateSnapshot = true ∨ y.lateQuery = true) ∧
        { (t.line l).sup with
          unreported := y.unreported, query := y.query, clear := y.clear, faults := y.faults } = y ∧
        t.notices = s.notices ∧ ∀ m, m ≠ l → t.line m = s.line m) ∧
      ((∀ i, f.owner ≠ .record i) →
        { t with
          lines := s.lines, port := s.port, notices := s.notices, hearings := s.hearings } = s.toPart)

/-! ### Calls and claims (07) -/

/-- HEARD_CALL (R130, R132, R133, R139, R140): with a line eligible, a slot free and blocks enough, the
station claims the call on the eligible line of least bid, the lowest-numbered at equal bids: a record in
CLAIMING with that line's reservation taken from the head of the free list, and a CLAIM requested with the
bid as key. With no line eligible, or for a call that it holds or whose fields are out of range, it does
nothing. -/
def Obligations.CallIsClaimed : Prop :=
  ∀ (f : Heard) (c : CallFields) (s : State), s.toPart.hears → fromStation f = true → readCall f = some c →
    let valid := 1 ≤ c.chars ∧ c.chars ≤ 16000 ∧ c.priority ≤ 5 ∧ s.callSlot c.caller c.call = none
    (¬valid ∨ (∀ l, s.eligible l c = false) →
      exec (.heardCall f) s = .next { s with toPart := s.toPart.heard.serveBus }) ∧
    ∀ l i, valid → s.eligible l c = true →
      (∀ m, s.eligible m c = true → s.bid l c.priority < s.bid m c.priority ∨
        (s.bid l c.priority = s.bid m c.priority ∧ l.val ≤ m.val)) →
      s.lowestFree = some i → boundBlocks (s.cfg l) c.chars ≤ s.free.length →
      ∃ t : Part, exec (.heardCall f) s = .next { s with toPart := t.serveBus } ∧
        t.record i = some
          { line := some l, priority := c.priority, blocks := [], count := 0
            body := .outbound
              { state := .claiming, caller := c.caller, call := c.call, chars := some c.chars,
                reservation := s.free.take (boundBlocks (s.cfg l) c.chars), release := c.release,
                completion := c.completion,
                claim := some { bid := s.bid l c.priority, since := some s.now, ending := none },
                intake := none, resume := none, outcome := none, total := 0 } } ∧
        t.free = s.free.drop (boundBlocks (s.cfg l) c.chars) ∧
        (s.hasRequest (.record i) = false → t.requestOf (.record i) =
          some { owner := .record i, cls := c.priority, kind := .claim, key := s.bid l c.priority }) ∧
        s.bid l c.priority ≤ 4095 ∧
        (∀ j, j ≠ i → t.record j = s.record j) ∧
        { t with
          records := s.records, free := s.free, port := s.port, notices := s.notices,
          hearings := s.hearings } = s.toPart

/-- The bid (R132 to R138). A line is eligible exactly when R132 and R133 hold of it. The bid is the ahead count
at the line's character period, rounded up to tenths of a second and held to 4,095 (R134). The ahead count
adds up what the current story and the piece on the sender, the stories of the queue the new one would not
pass, and the answer-back have left: the current story, at a text line that ends before offset `e`, counts to
`e` and adds the interruption text when the new story would preempt it there, and counts whole otherwise, with
its resumption piece and that piece's shift in either case (R135 to R137). MODEL'S CHOICE: an answer-back
counts its own codes and not the shift behind them (notes/assumptions/14.md), and a SUSPENDED story whose
release group is held is not counted (notes/assumptions/15.md). -/
def Obligations.BidsAndEligibility : Prop :=
  ∀ (s : Part) (l : LineNo),
    let cfg := s.cfg l
    let k := (s.line l).sched
    let texts := (s.line l).texts
    let up := fun a b : Nat => (a + b - 1) / b
    (∀ c : CallFields,
      let codes := 2 * c.chars + (if cfg.guardShift then 3 else 2) * up c.chars (cfg.width - cfg.fold)
      let committed := (allSlots.filter fun i => match s.record i with
        | some { line := some m, body := .outbound x, .. } =>
          m == l && (x.state == .claiming || x.state == .intake)
        | _ => false).length
      (s.eligible l c = true ↔
        (cfg.mode = .send ∨ cfg.mode = .twoWay) ∧ (s.line l).unit.state = .idle ∧ s.cond l .brk = false ∧
        s.cond l .lineOpen = false ∧ cfg.groups.getLsbD c.group = true ∧ k.queue.length + committed < 8 ∧
        up codes 64 ≤ 250 ∧
        up codes 64 ≤ s.free.length +
          (s.recent.map fun i => ((s.record i).map fun r => r.blocks.length).getD 0).sum ∧
        ((∃ i, s.record i = none) ∨ s.recent ≠ []))) ∧
    (∀ p, s.bid l p = min 4095 (up (s.ahead l p * (cfg.u * (12 + cfg.stop))) 200000)) ∧
    ∀ p,
      let answerBack := match k.piece with
        | .answerBack _ => texts.answerBack.length - k.progress
        | _ => if k.answerBack = .pending then texts.answerBack.length else 0
      let share := fun j => match s.record j with
        | some { priority := q, count := n, body := .outbound x, .. } =>
          if q ≤ p ∧ (∀ g, x.release = some g → s.groups.get g = true) then
            if x.state = .queued then n
            else if x.state = .suspended then n - (x.resume.map Prod.fst).getD 0 + texts.resumption.length
            else 0
          else 0
        | _ => 0
      let others := ((k.queue.filter fun j => !(k.current == some j)).map share).sum + answerBack
      (k.current = none →
        s.ahead l p = others + (match k.piece with
          | .interruption => texts.interruption.length - k.progress
          | .shift _ _ => 1
          | _ => 0)) ∧
      ∀ i r x n e, k.current = some i → s.record i = some r → r.body = .outbound x →
        (x.state = .sending ∧ k.position = some n) ∨ (x.state = .heldBreak ∧ ∃ q, x.resume = some (n, q)) →
        n ≤ e → e ≤ r.count →
        let piece := match k.piece with
          | .resumption => texts.resumption.length - k.progress + 1
          | .shift _ .resumed | .shift _ .held => 1
          | _ => 0
        let boundary := x.state = .sending ∧ piece = 0 ∧ (n = 0 ∨ (s.outEntry r (n - 1)).mark = true)
        let passed := ((p = 0 ∧ 1 ≤ r.priority) ∨ (p = 1 ∧ 2 ≤ r.priority)) ∧ e < r.count
        (boundary → e = n) →
        (¬boundary → n < e ∧ (∀ j, n ≤ j → j + 1 < e → (s.outEntry r j).mark = false) ∧
          (e = r.count ∨ (s.outEntry r (e - 1)).mark = true)) →
        (passed → s.ahead l p = piece + (e - n) + texts.interruption.length + others) ∧
        (¬passed → s.ahead l p = piece + (r.count - n) + others)

/-- The recent list and the free count (R76, R77, R84, R85, R88, R89, R91). The eviction scan passes over the
referenced records at the oldest end, which lose their flag and go to the newest end, and frees the first that is not
referenced, its blocks to the tail of the free list; when all are referenced it frees the oldest after passing every
one; of an empty list it evicts nothing. A record request takes the lowest free slot, after one eviction where none
is free, and a block request the head of the free list. A reservation is taken whole from the head of the free list,
after evictions where that is short; it is met exactly when free blocks and blocks of RECENT records number enough,
and one that is not met moves no block to the record. Each act that changes the free count, a record freed, a block
request served, a reservation taken or a surplus returned, judges STORE-LOW: raised below 48 free blocks, low at 96
or more, and between at the level it had. MODEL'S CHOICE (notes/assumptions/12.md): the count is judged at each
record freed, so that for a block request met by an eviction the level it had is the one the eviction left. -/
def Obligations.EvictionAndReservation : Prop :=
  ∀ s : Part, s.recent.Nodup →
    (s.recent = [] → s.evictOne = s) ∧
    (∀ before i after r, (s.recent = before ++ i :: after ∧ s.referenced i = false) ∨
        (s.recent = i :: before ∧ after = [] ∧ s.referenced i = true) →
      (∀ j ∈ before, s.referenced j = true) → s.record i = some r →
      let t := s.evictOne
      t.record i = none ∧ t.free = s.free ++ (r.blocks ++ r.reservation) ∧ t.recent = after ++ before ∧
        t.hasRequest (.record i) = false ∧
        (∀ j ∈ before, ∀ q x, s.record j = some q → q.body = .inbound x →
          t.record j = some { q with body := .inbound { x with referenced := some false } }) ∧
        (∀ j, j ≠ i → j ∉ before → t.record j = s.record j) ∧ t.mem = s.mem ∧ t.lines = s.lines ∧
        t.register = s.register ∧ t.trackers = s.trackers ∧ StoreJudged s t) ∧
    (∀ i, s.record i = none → (∀ j : Slot, j.val < i.val → s.record j ≠ none) → s.findSlot = (s, some i)) ∧
    ((∀ i, s.record i ≠ none) →
      (s.findSlot.2.isSome = true ↔ s.recent ≠ []) ∧ s.findSlot.1 = s.evictOne ∧
      ∀ i, s.findSlot.2 = some i → s.evictOne.record i = none) ∧
    ∀ i r, s.record i = some r →
      StoreJudged s (s.freeRecord i) ∧
      (∀ b rest, s.free = b :: rest →
        (s.takeBlock i).2 = true ∧ (s.takeBlock i).1.free = rest ∧
        (s.takeBlock i).1.record i = some { r with blocks := r.blocks ++ [b] } ∧
        (s.takeBlock i).1.recent = s.recent ∧ StoreJudged s (s.takeBlock i).1) ∧
      (s.free = [] → s.recent ≠ [] → s.evictOne.free ≠ [] → (s.takeBlock i).2 = true →
        StoreJudged s.evictOne (s.takeBlock i).1) ∧
      (s.free = [] → s.recent = [] → s.takeBlock i = (s, false)) ∧
      ∀ x b, r.body = .outbound x → i ∉ s.recent → (∀ j ∈ s.recent, s.inRecord j ≠ none) →
        let t := s.reserve i b
        (t.2 = true ↔ b ≤ s.free.length +
          (s.recent.map fun j => ((s.record j).map fun r => r.blocks.length).getD 0).sum) ∧
        (b ≤ s.free.length →
          t.1.free = s.free.drop b ∧ t.1.recent = s.recent ∧
          t.1.record i = some { r with body := .outbound { x with
            reservation := x.reservation ++ s.free.take b } } ∧
          StoreJudged s t.1) ∧
        (t.2 = false → t.1.record i = some r ∧ t.1.recent = [] ∧ ∃ more, t.1.free = s.free ++ more) ∧
        (t.2 = true →
          ∃ taken : List Nat, taken.length = b ∧ t.1.record i = some { r with body := .outbound { x with
            reservation := x.reservation ++ taken } } ∧
            (t.1.free.length < 48 → t.1.stationCond .storeLow = true) ∧
            (96 ≤ t.1.free.length → t.1.stationCond .storeLow = false)) ∧
        (s.returnSurplus i).free = s.free ++ x.reservation ∧ StoreJudged s (s.returnSurplus i)

/-- HEARD_CLAIM of another station for a call that this station claims frees its record (R142). HEARD_WITHDRAW of the
caller frees the record of the call in INTAKE and ABORTING, and in CLAIMING unless its CLAIM is under way, and has no
effect in any other state (R151). A frame of another sender has no effect (R145). MODEL'S CHOICE: of two ends of a
claim under way the more far-reaching holds (notes/assumptions/18.md), and its pending timer stops at the first
(notes/assumptions/26.md). -/
def Obligations.ClaimHeardAndCallWithdrawn : Prop :=
  ∀ (f : Heard) (i : Slot) (r : Record) (x : OutRecord) (s : State), s.toPart.hears → fromStation f = true →
    s.callSlot x.caller x.call = some i → s.record i = some r → r.body = .outbound x →
    (readClaim f = some (x.caller, x.call) →
      (f.station.toNat ≠ s.number → x.state = .claiming →
        ∃ t : Part, exec (.heardClaim f) s = .next { s with toPart := t.serveBus } ∧ Frees s.toPart t i r) ∧
      (f.station.toNat = s.number ∨ x.state ≠ .claiming →
        exec (.heardClaim f) s = .next { s with toPart := s.toPart.heard.serveBus })) ∧
    (readWithdraw f = some (.call x.caller x.call) →
      (f.station.toNat = x.caller →
        x.state = .intake ∨ x.state = .aborting ∨
          (x.state = .claiming ∧ s.frameUnderWay (.record i) = false) →
        ∃ t : Part, exec (.heardWithdrawCall f) s = .next { s with toPart := t.serveBus } ∧
          Frees s.toPart t i r) ∧
      (∀ c, f.station.toNat = x.caller → x.state = .claiming → s.frameUnderWay (.record i) = true →
        x.claim = some c →
        exec (.heardWithdrawCall f) s = .next { s with toPart := (s.toPart.heard.setRecord i (some { r with
          body := .outbound { x with
            claim := some { c with since := none, ending := some .free } } })).serveBus }) ∧
      (f.station.toNat ≠ x.caller ∨ x.state = .queued ∨ x.state = .sending ∨ x.state = .suspended ∨
          x.state = .heldBreak ∨ x.state = .reporting →
        exec (.heardWithdrawCall f) s = .next { s with toPart := s.toPart.heard.serveBus }))

/-- HEARD_TEXT of the caller about a call in INTAKE (R146, R39 to R44). Characters beyond the declared count or
beyond the next expected offset abort the intake (R150); a frame of characters already taken only starts the
silence timer again, and one that overlaps them counts from the next expected offset on. A CR stores nothing.
Any other character follows its outbound admission action: it is encoded, or the substitute in its place, or
nothing, or the intake aborts, the last three with fault ADMISSION. Its codes go behind the story's, into one
more block where they need it, the head of the reservation or, once that is empty, of the free list; where no
block can be had, those that fit are stored, fault OVERRUN is recorded and the intake aborts. The codes of a
character (first part): its code in the chosen plane, behind that plane's shift code where the plane changes
(R40); the line end sequence with its mark (R41); the word fold and the hard fold (R42); the column, and
unshift-on-space (R43). MODEL'S CHOICE (notes/assumptions/7.md): the byte of a stored code. -/
def Obligations.CallTextTaken : Prop :=
  (∀ (m : MapTable) (cfg : LineSettings) (e : Encoder) (ch : Byte),
    let cls := charClass m ch
    let floats := cls = .space ∨ cls = .format
    let wide := if cls = .letter ∨ cls = .figure ∨ cls = .punct ∨ cls = .space ∨ cls = .national then 1 else 0
    let raw := encodeRaw m e.plane ch
    let cr := encodeRaw m e.plane 13
    let lf := encodeRaw m cr.2 10
    let guarded : List OutEntry :=
      if cfg.guardShift then [{ code := shiftCode m lf.2, plane := lf.2, mark := false }] else []
    let lineEnd' := encodeChar m cfg e 10
    let folded := encodeRaw m lineEnd'.2.plane ch
    (∀ p code, codeIn m p ch = some code →
      (floats ∧ p = e.plane) ∨
        (primaryPlane m ch = some p ∧ ¬(floats ∧ (codeIn m e.plane ch).isSome = true)) →
      raw = ((if p = e.plane then [] else [{ code := shiftCode m p, plane := p, mark := false }]) ++
        [{ code := BitVec.ofNat 5 code, plane := p, mark := false }], p)) ∧
    (∀ init last, cr.1 ++ lf.1 ++ guarded = init ++ [last] →
      lineEnd' = (init ++ [{ last with mark := true }], { plane := lf.2, column := 0 })) ∧
    (ch ≠ 10 → cls = .space → cfg.width - cfg.fold ≤ e.column → encodeChar m cfg e ch = lineEnd') ∧
    (ch ≠ 10 → cls = .space → e.column < cfg.width - cfg.fold →
      (cfg.unshift = false →
        encodeChar m cfg e ch = (raw.1, { plane := raw.2, column := e.column + 1 })) ∧
      (∀ init last, cfg.unshift = true → raw.1 = init ++ [last] →
        encodeChar m cfg e ch =
          (init ++ [{ last with plane := .ltrs }], { plane := .ltrs, column := e.column + 1 }))) ∧
    (ch ≠ 10 → cls ≠ .space → e.column = cfg.width →
      encodeChar m cfg e ch = (lineEnd'.1 ++ folded.1, { plane := folded.2, column := wide })) ∧
    (ch ≠ 10 → cls ≠ .space → e.column ≠ cfg.width →
      encodeChar m cfg e ch = (raw.1, { plane := raw.2, column := e.column + wide }))) ∧
  ∀ (f : Heard) (o n : Nat) (cs : List Byte) (i : Slot) (r : Record) (x : OutRecord) (l : LineNo) (k : Intake)
    (s : State), s.toPart.hears → fromStation f = true →
    readText f = some (.call x.caller x.call, o, cs) → s.callSlot x.caller x.call = some i →
    s.record i = some r → r.body = .outbound x → r.line = some l → x.state = .intake → x.intake = some k →
    x.chars = some n →
    let taken := fun (k' : Intake) =>
      s.toPart.heard.setRecord i (some { r with body := .outbound { x with intake := some k' } })
    (f.station.toNat ≠ x.caller →
      exec (.heardTextCall f) s = .next { s with toPart := s.toPart.heard.serveBus }) ∧
    (f.station.toNat = x.caller →
      (n < o + cs.length ∨ k.expected < o →
        ∃ t : Part, exec (.heardTextCall f) s = .next { s with toPart := t.serveBus } ∧
          Aborts s.toPart t i r x) ∧
      (o + cs.length ≤ n → o + cs.length ≤ k.expected →
        exec (.heardTextCall f) s = .next { s with toPart := (taken { k with since := s.now }).serveBus }) ∧
      (∀ g : Heard, o + cs.length ≤ n → o ≤ k.expected → k.expected < o + cs.length → g.station = f.station →
        readText g = some (.call x.caller x.call, k.expected, cs.drop (k.expected - o)) →
        exec (.heardTextCall f) s = exec (.heardTextCall g) s) ∧
      (o + cs.length ≤ n → o = k.expected → (∀ ch ∈ cs, ch = 13) →
        exec (.heardTextCall f) s = .next { s with toPart :=
          (taken { k with since := s.now, expected := k.expected + cs.length }).serveBus }) ∧
      (∀ ch, o + 1 ≤ n → o = k.expected → cs = [ch] → ch ≠ 13 → r.count ≤ 64 * r.blocks.length →
        let cls := charClass (s.map l) ch
        let action := admissionOf s.settings.admission (s.cfg l).profile true cls
        let encodes := action = .pass ∧ cls ≠ .unassigned
        let substitutes := action = .substitute ∨ (action = .pass ∧ cls = .unassigned)
        let fields : FaultFields :=
          { handle := some (s.handle i), serial := none, offset := k.expected, raw := none, plane := k.plane }
        ∃ t : Part, exec (.heardTextCall f) s = .next { s with toPart := t.serveBus } ∧
          (¬encodes → FaultRecorded s.toPart t l .admission fields) ∧
          (∀ m, m ≠ l → t.line m = s.line m) ∧
          { t.line l with sup := { (t.line l).sup with faults := (s.line l).sup.faults } } = s.line l ∧
          (action = .drop →
            t.record i = some { r with body := .outbound { x with
              intake := some { k with since := s.now, expected := k.expected + 1 } } } ∧
            (∀ j, j ≠ i → t.record j = s.record j) ∧
            { t with records := s.records, lines := s.lines, port := s.port, hearings := s.hearings } = s.toPart) ∧
          (action = .refuse → Aborted s.toPart t i r x) ∧
          ∀ c, (encodes ∧ c = ch) ∨ (substitutes ∧ c = (s.map l).subst) →
            let enc := encodeChar (s.map l) (s.cfg l) { plane := k.plane, column := k.column } c
            let count := r.count + enc.1.length
            (∀ moved rest free,
              (x.reservation = moved ++ rest ∧ s.free = free) ∨
                (x.reservation = [] ∧ rest = [] ∧ s.free = moved ++ free) →
              (moved = [] ∧ count ≤ 64 * r.blocks.length) ∨
                (moved.length = 1 ∧ r.blocks.length < 250 ∧ 64 * r.blocks.length < count) →
              t.record i = some { r with
                count := count, blocks := r.blocks ++ moved
                body := .outbound { x with
                  reservation := rest
                  intake := some { expected := k.expected + 1, plane := enc.2.plane, column := enc.2.column,
                                   since := s.now } } } ∧
              t.mem = Memory.store s.mem (r.blocks ++ moved) r.count (enc.1.map OutEntry.pack) ∧
              t.free = free ∧ (encodes → t.line l = s.line l) ∧ (∀ j, j ≠ i → t.record j = s.record j) ∧
              (s.free = free → t.notices = s.notices) ∧
              { t with
                records := s.records, mem := s.mem, free := s.free, lines := s.lines, port := s.port,
                notices := s.notices, hearings := s.hearings } = s.toPart) ∧
            (64 * r.blocks.length < count →
              250 ≤ r.blocks.length ∨ (x.reservation = [] ∧ s.free = [] ∧ s.recent = []) →
              let fit := 64 * r.blocks.length - r.count
              FaultRecorded s.toPart t l .overrun fields ∧
              t.record i = some { r with
                count := 64 * r.blocks.length
                body := .outbound { x with state := .aborting, chars := none, claim := none, intake := none } } ∧
              t.mem = Memory.store s.mem r.blocks r.count ((enc.1.take fit).map OutEntry.pack) ∧
              t.free = s.free ∧ (∀ j, j ≠ i → t.record j = s.record j) ∧
              (s.hasRequest (.record i) = false → t.requestOf (.record i) =
                some { owner := .record i, cls := r.priority, kind := .withdraw, key := x.call }))))

/-- HEARD_CLOSE of the caller about a call in INTAKE (R147, R45, R86, R154): a total other than the next expected
offset aborts. Else, where the encode plane is not LTRS, the LTRS code is stored as one more code of the
story, in a further block where the story's blocks are full, and takes the line-end mark over if the code
before it bore it; where no block can be had for it, fault OVERRUN is recorded and the intake aborts. Then the
blocks left in the reservation go to the tail of the free list, the story is QUEUED and joins the line's queue
last, where it waits unless the sender is free. MODEL'S CHOICE: the byte of a stored code
(notes/assumptions/7.md); a caller's CLOSE whose outcome byte is 1 or 2 is taken as one with 0
(notes/assumptions/27.md). -/
def Obligations.CallCloseTaken : Prop :=
  ∀ (f : Heard) (n : Nat) (b : Byte) (i : Slot) (r : Record) (x : OutRecord) (l : LineNo) (k : Intake)
    (s : State), s.toPart.hears → fromStation f = true → f.station.toNat = x.caller →
    readClose f = some (.call x.caller x.call, n, b) → s.callSlot x.caller x.call = some i →
    s.record i = some r → r.body = .outbound x → r.line = some l → x.state = .intake → x.intake = some k →
    let waits := fun (t : Part) (r' : Record) =>
      t.record i = some { r' with body := .outbound { x with
        state := .queued, chars := none, reservation := [], intake := none } } ∧
      t.line l = { s.line l with sched := { (s.line l).sched with
        queue := (s.line l).sched.queue ++ [i] } } ∧
      (∀ j, j ≠ i → t.record j = s.record j) ∧ (∀ m, m ≠ l → t.line m = s.line m) ∧
      { t with
        records := s.records, free := s.free, lines := s.lines, port := s.port, notices := s.notices,
        mem := s.mem, hearings := s.hearings } = s.toPart
    (n ≠ k.expected →
      ∃ t : Part, exec (.heardCloseCall f) s = .next { s with toPart := t.serveBus } ∧
        Aborts s.toPart t i r x) ∧
    (n = k.expected → k.plane = .ltrs →
      ∃ t : Part, exec (.heardCloseCall f) s = .next { s with toPart := t.serveBus } ∧
        t.free = s.free ++ x.reservation ∧ t.mem = s.mem ∧ (s.senderFree l = false → waits t r) ∧
        (s.senderFree l = true → (s.line l).sched.queue = [] → (s.line l).sched.answerBack = .clear →
          (s.line l).unit.state = .idle → (s.line l).unit.out = none → 0 < r.count →
          (∀ g, x.release = some g → s.groups.get g = true) →
          t.record i = some { r with body := .outbound { x with
            state := .sending, chars := none, reservation := [], intake := none } } ∧
          (t.line l).sched.current = some i ∧ (t.line l).sched.position = some 0 ∧
          (t.line l).unit.out = some (s.begun (s.outEntry r 0).code))) ∧
    (n = k.expected → k.plane ≠ .ltrs →
      let last := s.outEntry r (r.count - 1)
      let marked := decide (0 < r.count) && last.mark
      let closing : OutEntry := { code := shiftCode (s.map l) .ltrs, plane := .ltrs, mark := marked }
      (∀ moved rest free,
        (x.reservation = moved ++ rest ∧ s.free = free) ∨
          (x.reservation = [] ∧ rest = [] ∧ s.free = moved ++ free) →
        (moved = [] ∧ r.count < 64 * r.blocks.length) ∨
          (moved.length = 1 ∧ r.blocks.length < 250 ∧ r.count = 64 * r.blocks.length) →
        ∃ t : Part, exec (.heardCloseCall f) s = .next { s with toPart := t.serveBus } ∧
          t.free = free ++ rest ∧
          (let stored := s.mem.write (entryAddr (r.blocks ++ moved) r.count) closing.pack
           t.mem = if marked then
              stored.write (entryAddr r.blocks (r.count - 1)) ({ last with mark := false } : OutEntry).pack
            else stored) ∧
          (s.senderFree l = false →
            waits t { r with count := r.count + 1, blocks := r.blocks ++ moved })) ∧
      (r.count = 64 * r.blocks.length →
        250 ≤ r.blocks.length ∨ (x.reservation = [] ∧ s.free = [] ∧ s.recent = []) →
        ∃ t : Part, exec (.heardCloseCall f) s = .next { s with toPart := t.serveBus } ∧
          Aborted s.toPart t i r x ∧
          FaultRecorded s.toPart t l .overrun
            { handle := some (s.handle i), serial := none, offset := k.expected, raw := none,
              plane := k.plane }))

/-! ### Offers, standby and takeover (06) -/

/-- HEARD_OFFER at the register (R109, R110) and, in the same act, at the tracker (R104 to R107): an OFFER with a
serial makes the entry of its key LIVE under its sender with the values it carries, heard now; every other LIVE entry
of its handle becomes WITHDRAWN, heard now; no other entry changes, but for the one that a new key replaces in a full
register: the non-LIVE entry heard earliest, or the LIVE entry heard earliest when all are LIVE. MODEL'S CHOICE: of
entries heard at equal readings of the clock, the one of the lower hearing number was heard earlier
(notes/assumptions/11.md); and the withdrawals come before the replacement (notes/assumptions/36.md). Without the
RERUN flag the serial is taken by the tracker of the service, own OFFERs included: a loss is fault SERIAL-GAP on the
lowest-numbered line of the tracker, with the OFFER's owner and serial, and GAP of its lines follows the gap list. An
OFFER without a serial, of an untracked service or with the RERUN flag leaves every tracker as it was. -/
def Obligations.OfferTakenByRegister : Prop :=
  ∀ (f : Heard) (o : OfferFields) (s : State), s.toPart.hears → fromStation f = true →
    readOffer f = some o → RegisterLaw s.register →
    ∃ t : Part, exec (.heardOffer f) s = .next { s with toPart := t.serveBus } ∧
      let other := fun e : Entry => ¬(o.serial = some e.serial ∧ o.service = e.service)
      let after := fun e : Entry =>
        if e.state = .live ∧ e.owner = o.owner then
          { e with state := .withdrawn, heard := s.now, order := s.hearings + 1 }
        else e
      let fits := (∃ e ∈ s.register, ¬other e) ∨ s.register.length < 48
      (∀ n, o.serial = some n → t.entryOf o.service n = some
        { service := o.service, serial := n, owner := o.owner, state := .live, quiet := o.quiet,
          progress := o.soFar, heard := s.now, order := s.hearings + 1 }) ∧
      (o.serial = none → t.register = s.register.map after) ∧
      (∀ n, o.serial = some n → fits → ∀ e ∈ s.register, other e →
        t.entryOf e.service e.serial = some (after e)) ∧
      (∀ n, o.serial = some n → ¬fits →
        ∃ v ∈ s.register.map after, t.entryOf v.service v.serial = none ∧
          (∀ e ∈ s.register, after e ≠ v → t.entryOf e.service e.serial = some (after e)) ∧
          (∀ e ∈ s.register.map after, e ≠ v →
            (v.state ≠ .live ∧ e.state = .live) ∨ (v.state = .live ↔ e.state = .live) ∧ v.before e = true)) ∧
      (∀ e ∈ t.register, (e.service, some e.serial) = (o.service, o.serial) ∨
        ∃ d ∈ s.register, d.service = e.service ∧ d.serial = e.serial) ∧
      (∀ n, o.serial = some n → o.rerun = false →
        SerialTaken s.toPart t o.service n (s.leads o.service) (fun l =>
          { handle := some o.owner, serial := some n, offset := 0, raw := none, plane := (s.line l).plane })) ∧
      (o.serial = none ∨ o.rerun = true ∨ s.tracker o.service = none → TrackersKept s.toPart t)

/-- HEARD_OFFER of another station at this station's records (R117, R118, R119, R120, R122, R128), said for
every slot: a record with its own OFFER pending for the key yields, unless it is not quiet and the OFFER is;
with its OFFER sent it yields only when it is quiet and the OFFER is not; a rerun whose own OFFER is pending
ends; a standby record of the key adopts the OFFER unless the OFFER is quiet and the record's own disposition is
not; a standby record whose owner's slot now holds another story takes over. Every other record stays. -/
def Obligations.OfferMeetsTheRecords : Prop :=
  ∀ (f : Heard) (o : OfferFields) (s : State), s.toPart.hears → fromStation f = true →
    readOffer f = some o → o.owner.station ≠ s.number →
    ∃ t : Part, exec (.heardOffer f) s = .next { s with toPart := t.serveBus } ∧
      (∀ i, s.record i = none → t.record i = none) ∧
      (∀ i r y, s.record i = some r → r.body = .outbound y →
        t.record i = some r ∧ t.requestOf (.record i) = s.requestOf (.record i)) ∧
      ∀ i r x, s.record i = some r → r.body = .inbound x →
        let sameKey := x.serial.isSome = true ∧ x.serial = o.serial ∧ x.service = o.service
        let pending := (s.requestOf (.record i)).map Request.kind = some FrameKind.offer
        let standing := x.state = .standby ∨ x.state = .standbyComplete
        (x.state = .carrying → sameKey →
          (pending ∧ (x.quiet = true ∨ o.quiet = false)) ∨ (¬pending ∧ x.quiet = true ∧ o.quiet = false) →
          t.record i = some { r with body := .inbound { x with
            state := if r.closed then .standbyComplete else .standby, cursor := 0, quiet := o.quiet
            peer := some { owner := o.owner, progress := o.soFar, since := s.now, past20 := false } } } ∧
          t.hasRequest (.record i) = false) ∧
        (x.state = .carrying →
          ¬sameKey ∨ (pending ∧ x.quiet = false ∧ o.quiet = true) ∨
            (¬pending ∧ ¬(x.quiet = true ∧ o.quiet = false)) →
          t.record i = some r ∧ t.requestOf (.record i) = s.requestOf (.record i)) ∧
        (x.state = .rerunning → sameKey → pending →
          t.record i = some { r with body := .inbound { x with state := .recent, rerun := false } } ∧
          t.hasRequest (.record i) = false ∧ i ∈ t.recent) ∧
        (x.state = .rerunning → ¬sameKey ∨ ¬pending →
          t.record i = some r ∧ t.requestOf (.record i) = s.requestOf (.record i)) ∧
        (∀ p, standing → x.peer = some p → sameKey → (o.quiet = false ∨ x.disp = some .quiet) →
          t.record i = some { r with body := .inbound { x with
            quiet := o.quiet
            peer := some { owner := o.owner, progress := max p.progress o.soFar, since := s.now,
                           past20 := false } } }) ∧
        (∀ p, standing → x.peer = some p → sameKey → o.quiet = true → x.disp ≠ some .quiet →
          t.record i = some r) ∧
        (∀ p, standing → x.peer = some p → ¬sameKey → p.owner = o.owner → TakesOver s.toPart t i r x p) ∧
        (∀ p, standing → x.peer = some p → ¬sameKey → p.owner ≠ o.owner → t.record i = some r) ∧
        (x.state = .opening ∨ x.state = .recent ∨ x.state = .withdrawing → t.record i = some r)

/-- HEARD_TEXT, HEARD_CLOSE and HEARD_WITHDRAW about a story. The LIVE entry of the handle takes the progress,
becomes CLOSED or WITHDRAWN, and is heard now (R111). A standby record behind the handle takes the progress
and starts its silence timer again (R120); is freed at the CLOSE, its line's recognizer in DISCARDING (R121);
takes over at the WITHDRAW (R122). No other record changes. MODEL'S CHOICE (notes/assumptions/37.md): a
progress above 16,000 is held as 16,000. -/
def Obligations.StoryFramesHeard : Prop :=
  ∀ (f : Heard) (h : Handle) (s : State), s.toPart.hears → fromStation f = true →
    let at' := fun (g : Entry → Entry) => s.register.map fun e =>
      if e.state = .live ∧ e.owner = h then { g e with heard := s.now, order := s.hearings + 1 } else e
    (∀ o cs, readText f = some (.story h, o, cs) →
      let reached := min 16000 (o + cs.length)
      ∃ t : Part, exec (.heardTextStory f) s = .next { s with toPart := t.serveBus } ∧
        t.register = at' (fun e => { e with progress := max e.progress reached }) ∧
        (∀ i, s.standsBehind i h = false → t.record i = s.record i) ∧
        (∀ i r x p, s.standsBehind i h = true → s.record i = some r → r.body = .inbound x → x.peer = some p →
          t.record i = some { r with body := .inbound { x with
            peer := some { p with progress := max p.progress reached, since := s.now,
                                  past20 := false } } }) ∧
        { t with records := s.records, register := s.register } = s.toPart.heard) ∧
    (∀ n b, readClose f = some (.story h, n, b) →
      ∃ t : Part, exec (.heardCloseStory f) s = .next { s with toPart := t.serveBus } ∧
        t.register = at' (fun e => { e with state := .closed }) ∧
        (∀ i, s.standsBehind i h = false → t.record i = s.record i) ∧
        (∀ i, s.standsBehind i h = true → t.record i = none ∧ t.hasRequest (.record i) = false) ∧
        (∀ i r l, s.standsBehind i h = true → s.record i = some r → r.line = some l →
          (t.line l).recog.state = .discarding ∧ (t.line l).recog.tied = none ∧
          (t.line l).recog.stallSince = some s.now) ∧
        t.mem = s.mem ∧ t.trackers = s.trackers ∧ t.groups = s.groups ∧ t.rx = s.rx) ∧
    (readWithdraw f = some (.story h) →
      ∃ t : Part, exec (.heardWithdrawStory f) s = .next { s with toPart := t.serveBus } ∧
        t.register = at' (fun e => { e with state := .withdrawn }) ∧
        (∀ i, s.standsBehind i h = false → t.record i = s.record i) ∧
        (∀ i r x p, s.standsBehind i h = true → s.record i = some r → r.body = .inbound x → x.peer = some p →
          TakesOver s.toPart t i r x p) ∧
        t.mem = s.mem ∧ t.trackers = s.trackers ∧ t.groups = s.groups ∧ t.lines = s.lines)

/-! ### Orders (11.4) -/

/-- LINE_OUT (R17, R11, R12, R13, R71, R166, R194, R198): each line it names that is in IDLE, LOOP or TEST
moves to OUT-OF-SERVICE: its sender stops, a scheduler code on the output follows the break response and any
other runs on, the loop or the test ends, the recognizer is OUTSIDE; the receiver, the conditions BREAK and
LINE-OPEN and the decode plane stay. Where the order names one line, the story whose own codes it is sending
is held at the start of its text line. Other lines do not change. -/
def Obligations.LineOutTaken : Prop :=
  ∀ (o : Order) (s : State), s.toPart.takes .lines o → s.supervises o = true →
    ∃ t : Part, exec (.lineOut o) s = .next { s with toPart := t.serveBus } ∧
      (∀ l, names o l → s.active l = true →
        (s.line l).unit.state = .idle ∨ (s.line l).unit.state = .loop ∨ (s.line l).unit.state = .test →
        let u := (s.line l).unit
        (t.line l).unit.state = .outOfService ∧ (t.line l).unit.resend = [] ∧
        (t.line l).unit.awaitReady = true ∧ (t.line l).unit.lastStop = some .lineOut ∧
        (∀ c, u.out = some c → c.source ≠ .scheduler → (t.line l).unit.out = some c) ∧
        (∀ c, u.out = some c → c.source = .scheduler → c.counts = true →
          (t.line l).unit.out = if (s.cfg l).immediate then none else some { c with counts := false }) ∧
        (t.line l).unit.rcv = u.rcv ∧ (t.line l).unit.spaceSince = u.spaceSince ∧
        (t.line l).unit.markSince = u.markSince ∧ (t.line l).unit.clearSince = u.clearSince ∧
        (t.line l).plane = (s.line l).plane ∧ (t.line l).sched.running = false ∧
        (t.line l).sched.piece = .none ∧ (t.line l).sched.queue = (s.line l).sched.queue ∧
        (t.line l).recog = Recog.blank ∧ t.cond l .stall = false ∧
        t.cond l .brk = s.cond l .brk ∧ t.cond l .lineOpen = s.cond l .lineOpen ∧
        (u.state = .loop → t.cond l .loop = false) ∧
        (u.state = .test → t.cond l .testSync = false ∧ (t.line l).sup.chk.inSync = false ∧
          (t.line l).sup.gen.insert = false)) ∧
      (∀ l, ¬names o l ∨ s.active l = false ∨ (s.line l).unit.state = .outOfService ∨
        (s.line l).unit.state = .unused → t.line l = s.line l) ∧
      (∀ l i r x n, orderLines o = some [l] → s.active l = true → (s.line l).unit.state = .idle →
        (s.line l).sched.current = some i → s.record i = some r → r.body = .outbound x → x.state = .sending →
        (s.line l).sched.piece = .story → (s.line l).sched.position = some n →
        t.record i = some { r with body := .outbound { x with
          state := .heldBreak, resume := some (s.lineStart r n) } } ∧
        (t.line l).sched.current = some i ∧ (t.line l).sched.position = none) ∧
      t.mem = s.mem ∧ t.register = s.register ∧ t.trackers = s.trackers ∧ t.groups = s.groups ∧ t.rx = s.rx

/-- LINE_IN moves each line it names from OUT-OF-SERVICE to IDLE with plane LTRS and a fresh mark run (R18,
R14); TEST_STOP moves each from TEST to IDLE, a generator code on the output cut, the checker OUT (R20,
R198); INSERT_ERROR marks the generator of each in TEST (R195). No other line changes. -/
def Obligations.LineInTestStopInsertError : Prop :=
  ∀ (o : Order) (s : State), s.toPart.takes .lines o → s.supervises o = true →
    let run := fun l => if s.mark l then some s.now else none
    (∃ t : Part, exec (.lineIn o) s = .next { s with toPart := t.serveBus } ∧
      (∀ l, names o l → s.active l = true → (s.line l).unit.state = .outOfService →
        t.line l = { s.line l with
          plane := .ltrs
          unit := { (s.line l).unit with state := .idle, resend := [], markSince := run l }
          sup := { (s.line l).sup with loopUpRun := 0, loopDownRun := 0 } }) ∧
      (∀ l, ¬names o l ∨ s.active l = false ∨ (s.line l).unit.state ≠ .outOfService → t.line l = s.line l) ∧
      { t with lines := s.lines } = s.toPart.heard) ∧
    (∃ t : Part, exec (.testStop o) s = .next { s with toPart := t.serveBus } ∧
      (∀ l, names o l → s.active l = true → (s.line l).unit.state = .test →
        (t.line l).unit = { (s.line l).unit with
          state := .idle, resend := [], markSince := run l
          out := match (s.line l).unit.out with
            | some c => if c.source = .generator then none else some c
            | none => none } ∧
        (t.line l).sup.gen.insert = false ∧ (t.line l).sup.chk.inSync = false ∧
        (t.line l).sup.chk.load = 0 ∧ (t.line l).sup.chk.run = 0 ∧ t.cond l .testSync = false ∧
        { t.line l with unit := (s.line l).unit, sup := (s.line l).sup } = s.line l) ∧
      (∀ l, ¬names o l ∨ s.active l = false ∨ (s.line l).unit.state ≠ .test → t.line l = s.line l) ∧
      { t with lines := s.lines, port := s.port, hearings := s.hearings } = s.toPart) ∧
    ∃ t : Part, exec (.insertError o) s = .next { s with toPart := t.serveBus } ∧
      (∀ l, names o l → s.active l = true → (s.line l).unit.state = .test → (s.cfg l).mode.sends = true →
        t.line l = { s.line l with sup := { (s.line l).sup with
          gen := { (s.line l).sup.gen with insert := true } } }) ∧
      (∀ l, ¬names o l ∨ s.active l = false ∨ (s.line l).unit.state ≠ .test ∨ (s.cfg l).mode.sends = false →
        t.line l = s.line l) ∧
      { t with lines := s.lines } = s.toPart.heard

/-- LINE_RESTART (R19, R9, R71, R173, R172, R152, R207): each line it names that is not UNUSED returns to IDLE as
at entry to service, whatever its break response, with its scheduler cleared, its recognizer OUTSIDE, its
supervision state cleared and every condition low but GAP, which follows the gap list. The stories of its
queue go to REPORTING as ABANDONED with the total reached (R173, R172); its pending claims are freed, or where
their CLAIM is under way marked to abort once it is won (R144, R152); its intakes abort (R152). That is said
of an order for one line, and of one for all lines for a record that stands in the queue of its own line
alone. The trackers stay. MODEL'S CHOICE: of two ends of a claim under way the more far-reaching holds
(notes/assumptions/18.md), and its pending timer stops at the first (notes/assumptions/26.md). -/
def Obligations.LineRestartTaken : Prop :=
  ∀ (o : Order) (s : State), s.toPart.takes .lines o → s.supervises o = true →
    ∃ t : Part, exec (.lineRestart o) s = .next { s with toPart := t.serveBus } ∧
      (∀ l, names o l → s.active l = true → (s.line l).unit.state ≠ .unused →
        let u := (s.line l).unit
        (t.line l).unit = { u with
          state := .idle, rcv := if s.mark l then .hunt else .waitMark, sampled := 0, acc := 0, held := false,
          spaceSince := if s.mark l then none else some s.now,
          markSince := if s.mark l then some s.now else none,
          clearSince := none, awaitReady := true, out := none, resend := [], lastStop := some .lineRestart,
          lastReport := if u.out.map OutCode.source = some Source.scheduler then some .cut else u.lastReport } ∧
        (t.line l).plane = .ltrs ∧ (t.line l).recog = Recog.blank ∧ (t.line l).sched = Sched.blank ∧
        (∀ c, c ≠ .gap → t.cond l c = false) ∧
        (t.cond l .gap = true ↔ (s.cfg l).mode.receives = true ∧
          ∃ k, s.tracker (s.cfg l).service = some k ∧ k.gaps ≠ []) ∧
        (t.line l).sup.counter = 0 ∧ (t.line l).sup.snapshot = 0 ∧ (t.line l).sup.unreported = false ∧
        (∀ k : Fin 8, (t.line l).sup.faults.get k = none) ∧ (t.line l).sup.query = false ∧
        (t.line l).sup.clear = false ∧ (t.line l).sup.loopUpRun = 0 ∧ (t.line l).sup.loopDownRun = 0 ∧
        (t.line l).sup.chk.inSync = false ∧ (t.line l).sup.gen.insert = false ∧
        t.hasRequest (.report l) = false) ∧
      (∀ l, ¬names o l ∨ s.active l = false ∨ (s.line l).unit.state = .unused → t.line l = s.line l) ∧
      (∀ l i r x, names o l → s.active l = true → (s.line l).unit.state ≠ .unused →
        s.record i = some r → r.body = .outbound x → (s.line l).sched.queue.Nodup →
        orderLines o = some [l] ∨ (r.line = some l ∧ ∀ m, m ≠ l → i ∉ (s.line m).sched.queue) →
        (i ∈ (s.line l).sched.queue →
          t.record i = some { r with body := .outbound { x with
            state := .reporting, resume := none, outcome := some .abandoned
            total := match x.state with
              | .sending => (s.line l).sched.position.getD 0
              | .heldBreak | .suspended => (x.resume.map Prod.fst).getD 0
              | _ => 0 } } ∧
          (s.hasRequest (.record i) = false → t.requestOf (.record i) =
            some { owner := .record i, cls := r.priority, kind := .close, key := x.call })) ∧
        (i ∉ (s.line l).sched.queue → r.line = some l → x.state = .intake →
          t.record i = some { r with body := .outbound { x with
            state := .aborting, chars := none, claim := none, intake := none } } ∧
          (s.hasRequest (.record i) = false → t.requestOf (.record i) =
            some { owner := .record i, cls := r.priority, kind := .withdraw, key := x.call })) ∧
        (i ∉ (s.line l).sched.queue → r.line = some l → x.state = .claiming →
          (s.frameUnderWay (.record i) = false → t.record i = none ∧ t.hasRequest (.record i) = false) ∧
          (∀ c, s.frameUnderWay (.record i) = true → x.claim = some c → c.ending ≠ some .free →
            t.record i = some { r with body := .outbound { x with
              claim := some { c with since := none, ending := some .abort } } }))) ∧
      t.mem = s.mem ∧ t.register = s.register ∧ t.trackers = s.trackers ∧ t.groups = s.groups ∧ t.rx = s.rx

/-- TEST_START (R20, R195, R196, R198): each line it names that is in IDLE, OUT-OF-SERVICE or LOOP moves to TEST;
from IDLE its sender stops, from LOOP the loop ends. Where codes are received the checker is OUT; where codes
are sent, and the output is free, the generator begins from its seed with code 0. Other lines do not change.
MODEL'S CHOICE (notes/assumptions/39.md): from OUT-OF-SERVICE and LOOP the scheduler is given no further STOP. -/
def Obligations.TestStartTaken : Prop :=
  ∀ (o : Order) (s : State), s.toPart.takes .lines o → s.supervises o = true →
    ∃ t : Part, exec (.testStart o) s = .next { s with toPart := t.serveBus } ∧
      (∀ l, names o l → s.active l = true → (s.line l).unit.state = .idle ∨
          (s.line l).unit.state = .outOfService ∨ (s.line l).unit.state = .loop →
        (t.line l).unit.state = .test ∧ (t.line l).unit.resend = [] ∧
        (t.line l).unit.rcv = (s.line l).unit.rcv ∧ (t.line l).plane = (s.line l).plane ∧
        (t.line l).recog = (s.line l).recog ∧
        ((s.line l).unit.state = .idle →
          (t.line l).sched.running = false ∧ (t.line l).sched.piece = .none ∧
          (t.line l).unit.lastStop = some .test ∧ (t.line l).unit.awaitReady = true) ∧
        ((s.line l).unit.state ≠ .idle → (t.line l).sched = (s.line l).sched) ∧
        ((s.line l).unit.state = .loop → t.cond l .loop = false) ∧
        ((s.cfg l).mode.receives = true → (t.line l).sup.chk.inSync = false ∧ (t.line l).sup.chk.load = 0 ∧
          (t.line l).sup.chk.run = 0) ∧
        ((s.cfg l).mode.sends = true → (s.line l).unit.out = none →
          (t.line l).unit.out = some { code := 0, source := .generator, began := s.now, counts := true } ∧
          (t.line l).sup.gen.insert = false) ∧
        ((s.cfg l).mode.sends = false → (s.line l).unit.out = none → (t.line l).unit.out = none)) ∧
      (∀ l, ¬names o l ∨ s.active l = false ∨ (s.line l).unit.state = .test ∨
        (s.line l).unit.state = .unused → t.line l = s.line l) ∧
      t.mem = s.mem ∧ t.register = s.register ∧ t.trackers = s.trackers ∧ t.groups = s.groups ∧ t.rx = s.rx

/-- RELEASE opens the group of its argument and every free sender chooses; REHOLD closes it; an argument beyond 7 has
no effect, and the line field has no bearing, whatever its byte (R158, R155, R190). A released story at the head of a
waiting queue begins. -/
def Obligations.GroupsReleasedAndHeld : Prop :=
  ∀ (o : Order) (s : State), s.toPart.takes (.station 1) o → s.supervises o = true →
    (∀ g : Group, o.arg = [BitVec.ofNat 8 g.val] →
      exec (.rehold o) s = .next { s with toPart := (s.toPart.heard.setGroup g false).serveBus } ∧
      ((∀ l, s.senderFree l = false) →
        exec (.release o) s = .next { s with toPart := (s.toPart.heard.setGroup g true).serveBus }) ∧
      ∃ t : Part, exec (.release o) s = .next { s with toPart := t.serveBus } ∧ t.groups.get g = true ∧
        (∀ h, s.groups.get h = true → t.groups.get h = true) ∧
        (∀ l i r x, s.senderFree l = true → (∀ m, m ≠ l → s.senderFree m = false) →
          (s.line l).sched.queue = [i] → (s.line l).sched.answerBack = .clear →
          (s.line l).unit.state = .idle → (s.line l).unit.out = none →
          s.record i = some r → r.body = .outbound x → x.state = .queued → x.release = some g → 0 < r.count →
          t.record i = some { r with body := .outbound { x with state := .sending } } ∧
          (t.line l).sched.current = some i ∧ (t.line l).sched.position = some 0 ∧
          (t.line l).unit.out = some (s.begun (s.outEntry r 0).code) ∧
          (∀ h, h ≠ g → t.groups.get h = s.groups.get h))) ∧
    (∀ b, o.arg = [b] → 8 ≤ b.toNat →
      exec (.release o) s = .next { s with toPart := s.toPart.heard.serveBus } ∧
      exec (.rehold o) s = .next { s with toPart := s.toPart.heard.serveBus })

/-- RERUN, from any station and with any line byte (R190), is served by the RECENT record of the service and serial
nearest the newest end of the recent list (R126): off the list, RERUNNING with the referenced and RERUN flags set and
its bus cursor at 0, its OFFER requested. With no such record nothing is done. -/
def Obligations.RerunServed : Prop :=
  ∀ (o : Order) (service s1 s0 : Byte) (s : State), s.toPart.takes (.station 3) o → o.arg = [service, s1, s0] →
    let holds := fun (i : Slot) (x : InRecord) =>
      s.inRecord i = some x ∧ x.state = .recent ∧ x.service = service.toNat ∧ x.serial = some (word s1 s0)
    ((∀ i ∈ s.recent, ∀ x, ¬holds i x) →
      exec (.rerun o) s = .next { s with toPart := s.toPart.heard.serveBus }) ∧
    ∀ before i after r x, s.recent = before ++ i :: after → (∀ j ∈ after, ∀ y, ¬holds j y) →
      s.record i = some r → r.body = .inbound x → holds i x →
      ∃ t : Part, exec (.rerun o) s = .next { s with toPart := t.serveBus } ∧
        t.record i = some { r with body := .inbound { x with
          state := .rerunning, referenced := some true, rerun := true, cursor := 0 } } ∧
        t.recent = s.recent.filter (fun j => !(j == i)) ∧
        (s.hasRequest (.record i) = false → t.requestOf (.record i) =
          some { owner := .record i, cls := r.priority, kind := .offer, key := i.val }) ∧
        (∀ j, j ≠ i → t.record j = s.record j) ∧
        { t with
          records := s.records, recent := s.recent, port := s.port, hearings := s.hearings } = s.toPart

/-! ### Dispositions, serials and the test pattern (03, 05, 10) -/

/-- The disposition of a story (R62, R63): FLASH is carried; else a matching range of DISCARD decides before one
of QUIET, that before one of CARRY, and with no match the default holds. A heading that fails the syntax
leaves the serial absent, the category 31 and the priority ROUTINE, sets the HEADING-FAULT flag and records
fault HEADING (R60); its key, service × 256 + 251, is matched like any other (R63), and the story is freed, or
carried with or without the quiet flag whatever the offer register holds (R61, R114). MODEL'S CHOICE
(notes/assumptions/35.md): the heading buffer stays as it is on entry to TEXT. -/
def Obligations.DispositionsDecided : Prop :=
  (∀ (s : Part) (l : LineNo) (i : Slot) (r : Record) (x : InRecord),
    s.record i = some r → r.body = .inbound x → x.state = .opening → x.serial = none → x.category = 31 →
    r.priority = 3 → readHeading (s.map l).subst (s.line l).recog.heading = none →
    let d := dispositionOf s.settings.ranges s.settings.defaultDisp ((s.cfg l).service * 256 + 251)
    let t := s.completeHeading l i
    FaultRecorded s t l .heading
        { handle := some (s.handle i), serial := none, offset := r.count, raw := none,
          plane := (s.line l).plane } ∧
      (d = .discard → t.record i = none ∧ (t.line l).recog.state = .discarding ∧
        (t.line l).recog.tied = none) ∧
      (d ≠ .discard →
        t.record i = some { r with body := .inbound { x with
          headingFault := true, disp := some d, state := .carrying, quiet := d == .quiet } } ∧
        (t.line l).recog = { (s.line l).recog with state := .text } ∧
        (s.hasRequest (.record i) = false → t.requestOf (.record i) =
          some { owner := .record i, cls := 3, kind := .offer, key := i.val })) ∧
      (∀ j, j ≠ i → t.record j = s.record j) ∧ t.register = s.register ∧ t.trackers = s.trackers ∧
      t.mem = s.mem) ∧
  ∀ (s : Part) (service category priority : Nat),
    let key := service * 256 + category * 8 + priority
    let hit := fun d => ∃ g ∈ s.settings.ranges, g.base ≤ key ∧ key < g.base + g.size ∧ g.disp = d
    let d := s.disposition service category priority
    (priority = 0 → d = .carry) ∧
    (priority ≠ 0 → hit .discard → d = .discard) ∧
    (priority ≠ 0 → ¬hit .discard → hit .quiet → d = .quiet) ∧
    (priority ≠ 0 → ¬hit .discard → ¬hit .quiet → hit .carry → d = .carry) ∧
    (priority ≠ 0 → ¬hit .discard → ¬hit .quiet → ¬hit .carry → d = s.settings.defaultDisp)

/-- A serial taken by a tracker (R95 to R101). The first serial sets the expected serial. An advance moves the
expected serial to the successor; the gaps that then lie more than 50 behind fall, the others keep their places,
and behind them stand, in order of age, the skipped serials within 50 behind, the youngest that find room in a list
of 16 (R98). A late serial in the list is a fill and leaves it, one not in the list changes nothing; a jump empties
the list. Whether serials were lost is the second component. -/
def Obligations.SerialsTaken : Prop :=
  (∀ (t : Tracker) (s : Nat), t.expected = none → 1 ≤ s → s ≤ 9999 →
    t.take s = ({ t with expected := some (if s = 9999 then 1 else s + 1) }, false)) ∧
  ∀ (t : Tracker) (s e : Nat), t.Law → t.expected = some e → 1 ≤ s → s ≤ 9999 →
    let d := (s + 9999 - e) % 9999
    let next := if s = 9999 then 1 else s + 1
    let after := (t.take s).1
    let lost := (t.take s).2
    after.service = t.service ∧ after.gaps.length ≤ 16 ∧
    (d ≤ 50 → after.expected = some next ∧
      (lost = true ↔ after.gaps.length < t.gaps.length + d) ∧
      (let kept := t.gaps.filter fun g => decide ((next + 9999 - g) % 9999 ≤ 50)
       let m := min (min d 49) (16 - kept.length)
       after.gaps = kept ++ (List.range m).map fun j => (next + 9998 - (m + 1 - j)) % 9999 + 1) ∧
      (t.gaps.length + d ≤ 16 → ∀ g, 1 ≤ g → g ≤ 9999 →
        (g ∈ after.gaps ↔
          (g ∈ t.gaps ∨ (g + 9999 - e) % 9999 < d) ∧ (next + 9999 - g) % 9999 ≤ 50))) ∧
    (9949 ≤ d → s ∈ t.gaps → after.expected = some e ∧ lost = false ∧
      ∀ g, g ∈ after.gaps ↔ g ∈ t.gaps ∧ g ≠ s) ∧
    (9949 ≤ d → s ∉ t.gaps → after = t ∧ lost = false) ∧
    (51 ≤ d → d ≤ 9948 → after.expected = some next ∧ after.gaps = [] ∧ lost = true)
end

