-- ==== Sys2Proof/Laws/Act.lean ====
section
/-! SUPPORT. What the commands of a running station can do, said once: `Act K s t` says that `t` is
reached from `s` by elementary changes of the kinds in `K`, with what the laws of Safety.lean need to know
of each change. A frame follows from a kind that is missing, a law by induction over the changes. -/

namespace Sys2Proof.Machine

/-- The kinds of elementary change. -/
inductive Kind where
  | unit | plane | recog | sched | sup | list | port | record | store | mem
  | register | trackers | groups | notices | period | hearing | rx
deriving DecidableEq, Repr

/-- `t` is reached from `s` by changes of kinds in `K`. -/
inductive Act (K : Kind → Prop) (s : Part) : Part → Prop where
  | refl : Act K s s
  | unit {t} (l f) : K .unit → Act K s t → Act K s (t.updUnit l f)
  | plane {t} (l p) : K .plane → Act K s t → Act K s (t.setPlane l p)
  | recog {t} (l f) : K .recog → Act K s t → Act K s (t.updRecog l f)
  | sched {t} (l f) : K .sched → Act K s t → Act K s (t.updSched l f)
  | sup {t} (l f) : (∀ x : Supervision, x.Bounded → (f x).Bounded) → K .sup → Act K s t → Act K s (t.updSup l f)
  | add {t} (r) : K .list → Act K s t → Act K s (t.addRequest r)
  | remove {t} (o) : K .list → Act K s t → Act K s (t.removeRequest o)
  | drop {t} (o) : K .list → Act K s t → Act K s (t.dropSent o)
  | port {t} (f) : (∀ p : Port, (f p).sendList = p.sendList ∧ (p.spoilCount ≤ 8 → (f p).spoilCount ≤ 8)) →
      K .port → Act K s t → Act K s (t.updPort f)
  | record {t} (i f) : (∀ r : Record, (f r).blocks = r.blocks ∧ (f r).reservation = r.reservation) →
      K .record → Act K s t → Act K s (t.updRecord i f)
  | alloc {t : Part} (i : Slot) (r : Record) : t.record i = none → r.blocks = [] → r.reservation = [] → K .store →
      Act K s t → Act K s (t.setRecord i (some r))
  | release {t : Part} (i : Slot) (r : Record) : t.record i = some r → K .store → Act K s t →
      Act K s (({ t with free := t.free ++ (r.blocks ++ r.reservation)
                         recent := t.recent.filter fun j => !(j == i) } : Part).setRecord i none)
  | recent {t : Part} (is : List Slot) : K .store → Act K s t → Act K s { t with recent := is }
  | take {t : Part} (i : Slot) (b : Nat) (rest : List Nat) : t.free = b :: rest → (t.record i).isSome → K .store →
      Act K s t → Act K s (({ t with free := rest } : Part).updRecord i fun r => { r with blocks := r.blocks ++ [b] })
  | reserve {t : Part} (i : Slot) (b : Nat) : (t.outRecord i).isSome → K .store → Act K s t →
      Act K s (({ t with free := t.free.drop b } : Part).updOut i fun x =>
        { x with reservation := x.reservation ++ t.free.take b })
  | assign {t : Part} (i : Slot) (r : Record) (b : Nat) (rest : List Nat) :
      t.record i = some r → r.reservation = b :: rest → K .store → Act K s t →
      Act K s (t.updRecord i fun r =>
        ({ r with blocks := r.blocks ++ [b] } : Record).mapOut fun x => { x with reservation := rest })
  | surplus {t : Part} (i : Slot) (x : OutRecord) : t.outRecord i = some x → K .store → Act K s t →
      Act K s (({ t with free := t.free ++ x.reservation } : Part).updOut i fun x => { x with reservation := [] })
  | write {t : Part} (a : Nat) (b : Byte) : K .mem → Act K s t → Act K s { t with mem := t.mem.write a b }
  | register {t : Part} (es : List Entry) : (RegisterLaw t.register → RegisterLaw es) → K .register →
      Act K s t → Act K s { t with register := es }
  | trackers {t : Part} (ts : List Tracker) :
      ((∀ k ∈ t.trackers, k.Law) → ∀ k ∈ ts, k.Law) →
      K .trackers → Act K s t → Act K s { t with trackers := ts }
  | groups {t : Part} (g b) : K .groups → Act K s t → Act K s (t.setGroup g b)
  | notices {t : Part} (n : Notices) : (t.notices.refusals ≤ 65535 → n.refusals ≤ 65535) → K .notices → Act K s t →
      Act K s { t with notices := n }
  | period {t : Part} (x : Option Nat) : K .period → Act K s t → Act K s { t with reportSince := x }
  | hearing {t : Part} : K .hearing → Act K s t → Act K s { t with hearings := t.hearings + 1 }
  | rx {t : Part} (l b) : K .rx → Act K s t → Act K s (t.setRx l b)

namespace Act

variable {K : Kind → Prop} {s t u : Part}

theorem trans (h : Act K s t) (g : Act K t u) : Act K s u := by
  induction g with
  | refl => exact h
  | unit l f k _ ih => exact .unit l f k ih
  | plane l p k _ ih => exact .plane l p k ih
  | recog l f k _ ih => exact .recog l f k ih
  | sched l f k _ ih => exact .sched l f k ih
  | sup l f b k _ ih => exact .sup l f b k ih
  | add r k _ ih => exact .add r k ih
  | remove o k _ ih => exact .remove o k ih
  | drop o k _ ih => exact .drop o k ih
  | port f b k _ ih => exact .port f b k ih
  | record i f b k _ ih => exact .record i f b k ih
  | alloc i r a b c k _ ih => exact .alloc i r a b c k ih
  | release i r a k _ ih => exact .release i r a k ih
  | recent is k _ ih => exact .recent is k ih
  | take i b rest a c k _ ih => exact .take i b rest a c k ih
  | reserve i b a k _ ih => exact .reserve i b a k ih
  | assign i r b rest a c k _ ih => exact .assign i r b rest a c k ih
  | surplus i x a k _ ih => exact .surplus i x a k ih
  | write a b k _ ih => exact .write a b k ih
  | register es b k _ ih => exact .register es b k ih
  | trackers ts b k _ ih => exact .trackers ts b k ih
  | groups g b k _ ih => exact .groups g b k ih
  | notices n b k _ ih => exact .notices n b k ih
  | period x k _ ih => exact .period x k ih
  | hearing k _ ih => exact .hearing k ih
  | rx l b k _ ih => exact .rx l b k ih

end Act

end Sys2Proof.Machine
end

