-- ==== Sys2Proof/Laws/State.lean ====
section
/-! SUPPORT. The state records: what each update leaves in each field. -/

namespace Sys2Proof.Machine

/-! ### Vectors -/

@[simp] theorem vector_get_set_self {α : Type} {n : Nat} (v : Vector α n) (i : Fin n) (x : α) :
    (v.set i x).get i = x := by
  show (v.set i x)[i.val] = x
  simp

theorem vector_get_set_ne {α : Type} {n : Nat} (v : Vector α n) {i j : Fin n} (x : α) (h : j ≠ i) :
    (v.set i x).get j = v.get j := by
  have : i.val ≠ j.val := fun c => h (Fin.ext c.symm)
  show (v.set i x)[j.val] = v[j.val]
  rw [Vector.getElem_set]; simp [this]

/-! ### Lines -/

section
variable (s : Part) (l k : LineNo) (f : Line → Line)

@[simp] theorem line_updLine_self : (s.updLine l f).line l = f (s.line l) := vector_get_set_self _ _ _
theorem line_updLine_ne (h : k ≠ l) : (s.updLine l f).line k = s.line k := vector_get_set_ne _ _ h
@[simp] theorem updLine_now : (s.updLine l f).now = s.now := rfl
@[simp] theorem updLine_hearings : (s.updLine l f).hearings = s.hearings := rfl
@[simp] theorem updLine_rx : (s.updLine l f).rx = s.rx := rfl
@[simp] theorem updLine_loader : (s.updLine l f).loader = s.loader := rfl
@[simp] theorem updLine_number : (s.updLine l f).number = s.number := rfl
@[simp] theorem updLine_settings : (s.updLine l f).settings = s.settings := rfl
@[simp] theorem updLine_mem : (s.updLine l f).mem = s.mem := rfl
@[simp] theorem updLine_free : (s.updLine l f).free = s.free := rfl
@[simp] theorem updLine_records : (s.updLine l f).records = s.records := rfl
@[simp] theorem updLine_recent : (s.updLine l f).recent = s.recent := rfl
@[simp] theorem updLine_trackers : (s.updLine l f).trackers = s.trackers := rfl
@[simp] theorem updLine_register : (s.updLine l f).register = s.register := rfl
@[simp] theorem updLine_groups : (s.updLine l f).groups = s.groups := rfl
@[simp] theorem updLine_port : (s.updLine l f).port = s.port := rfl
@[simp] theorem updLine_notices : (s.updLine l f).notices = s.notices := rfl
@[simp] theorem updLine_cfg : (s.updLine l f).cfg k = s.cfg k := rfl
@[simp] theorem updLine_active : (s.updLine l f).active k = s.active k := rfl
@[simp] theorem updLine_mark : (s.updLine l f).mark k = s.mark k := rfl
@[simp] theorem updLine_record (i : Slot) : (s.updLine l f).record i = s.record i := rfl

end

section
variable (s : Part) (l : LineNo)

@[simp] theorem unit_updUnit (f) : ((s.updUnit l f).line l).unit = f (s.line l).unit := by simp [Part.updUnit]
@[simp] theorem plane_updUnit (f) : ((s.updUnit l f).line l).plane = (s.line l).plane := by simp [Part.updUnit]
@[simp] theorem recog_updUnit (f) : ((s.updUnit l f).line l).recog = (s.line l).recog := by simp [Part.updUnit]
@[simp] theorem sched_updUnit (f) : ((s.updUnit l f).line l).sched = (s.line l).sched := by simp [Part.updUnit]
@[simp] theorem texts_updUnit (f) : ((s.updUnit l f).line l).texts = (s.line l).texts := by simp [Part.updUnit]
@[simp] theorem sup_updUnit (f) : ((s.updUnit l f).line l).sup = (s.line l).sup := by simp [Part.updUnit]
@[simp] theorem unit_updRecog (f) : ((s.updRecog l f).line l).unit = (s.line l).unit := by simp [Part.updRecog]
@[simp] theorem plane_updRecog (f) : ((s.updRecog l f).line l).plane = (s.line l).plane := by simp [Part.updRecog]
@[simp] theorem recog_updRecog (f) : ((s.updRecog l f).line l).recog = f (s.line l).recog := by simp [Part.updRecog]
@[simp] theorem sched_updRecog (f) : ((s.updRecog l f).line l).sched = (s.line l).sched := by simp [Part.updRecog]
@[simp] theorem texts_updRecog (f) : ((s.updRecog l f).line l).texts = (s.line l).texts := by simp [Part.updRecog]
@[simp] theorem sup_updRecog (f) : ((s.updRecog l f).line l).sup = (s.line l).sup := by simp [Part.updRecog]
@[simp] theorem unit_updSched (f) : ((s.updSched l f).line l).unit = (s.line l).unit := by simp [Part.updSched]
@[simp] theorem plane_updSched (f) : ((s.updSched l f).line l).plane = (s.line l).plane := by simp [Part.updSched]
@[simp] theorem recog_updSched (f) : ((s.updSched l f).line l).recog = (s.line l).recog := by simp [Part.updSched]
@[simp] theorem sched_updSched (f) : ((s.updSched l f).line l).sched = f (s.line l).sched := by simp [Part.updSched]
@[simp] theorem texts_updSched (f) : ((s.updSched l f).line l).texts = (s.line l).texts := by simp [Part.updSched]
@[simp] theorem sup_updSched (f) : ((s.updSched l f).line l).sup = (s.line l).sup := by simp [Part.updSched]
@[simp] theorem unit_updSup (f) : ((s.updSup l f).line l).unit = (s.line l).unit := by simp [Part.updSup]
@[simp] theorem plane_updSup (f) : ((s.updSup l f).line l).plane = (s.line l).plane := by simp [Part.updSup]
@[simp] theorem recog_updSup (f) : ((s.updSup l f).line l).recog = (s.line l).recog := by simp [Part.updSup]
@[simp] theorem sched_updSup (f) : ((s.updSup l f).line l).sched = (s.line l).sched := by simp [Part.updSup]
@[simp] theorem texts_updSup (f) : ((s.updSup l f).line l).texts = (s.line l).texts := by simp [Part.updSup]
@[simp] theorem sup_updSup (f) : ((s.updSup l f).line l).sup = f (s.line l).sup := by simp [Part.updSup]
@[simp] theorem unit_setPlane (p) : ((s.setPlane l p).line l).unit = (s.line l).unit := by simp [Part.setPlane]
@[simp] theorem plane_setPlane (p) : ((s.setPlane l p).line l).plane = p := by simp [Part.setPlane]
@[simp] theorem recog_setPlane (p) : ((s.setPlane l p).line l).recog = (s.line l).recog := by simp [Part.setPlane]
@[simp] theorem sched_setPlane (p) : ((s.setPlane l p).line l).sched = (s.line l).sched := by simp [Part.setPlane]
@[simp] theorem sup_setPlane (p) : ((s.setPlane l p).line l).sup = (s.line l).sup := by simp [Part.setPlane]

end

/-! ### Records -/

section
variable (s : Part) (i j : Slot) (r : Option Record)

@[simp] theorem record_setRecord_self : (s.setRecord i r).record i = r := vector_get_set_self _ _ _
theorem record_setRecord_ne (h : j ≠ i) : (s.setRecord i r).record j = s.record j := vector_get_set_ne _ _ h
@[simp] theorem setRecord_lines : (s.setRecord i r).lines = s.lines := rfl
@[simp] theorem setRecord_line (l : LineNo) : (s.setRecord i r).line l = s.line l := rfl
@[simp] theorem setRecord_mem : (s.setRecord i r).mem = s.mem := rfl
@[simp] theorem setRecord_free : (s.setRecord i r).free = s.free := rfl
@[simp] theorem setRecord_recent : (s.setRecord i r).recent = s.recent := rfl
@[simp] theorem setRecord_port : (s.setRecord i r).port = s.port := rfl
@[simp] theorem setRecord_number : (s.setRecord i r).number = s.number := rfl
@[simp] theorem record_updRecord_self (f) : (s.updRecord i f).record i = (s.record i).map f := by
  simp [Part.updRecord]
theorem record_updRecord_ne (f) (h : j ≠ i) : (s.updRecord i f).record j = s.record j := by
  simp [Part.updRecord, record_setRecord_ne _ _ _ _ h]

end

/-! ### Flags of a byte -/

/-- A bit of a byte of flags after one of them is put. -/
theorem getLsbD_putBit (v : BitVec 8) (i j : Nat) (b : Bool) (hi : i < 8) (hj : j < 8) :
    (putBit v i b).getLsbD j = if j = i then b else v.getLsbD j := by
  unfold putBit
  by_cases h : j = i
  · subst h; cases b <;> simp [hj]
  · cases b <;> simp [h, hj]

/-! ### The send list -/

section
variable (s : Part) (r : Request) (o : Owner)

/-- A request added changes the send list and nothing else. -/
theorem addRequest_eq : s.addRequest r = { s with port := { s.port with
    sendList := if s.hasRequest r.owner then s.port.sendList else insertRequest s.number r s.port.sendList } } := by
  unfold Part.addRequest; split <;> rfl

@[simp] theorem addRequest_lines : (s.addRequest r).lines = s.lines := by rw [addRequest_eq]
@[simp] theorem addRequest_line (l : LineNo) : (s.addRequest r).line l = s.line l := by rw [addRequest_eq]; rfl
@[simp] theorem addRequest_records : (s.addRequest r).records = s.records := by rw [addRequest_eq]
@[simp] theorem addRequest_record (i : Slot) : (s.addRequest r).record i = s.record i := by rw [addRequest_eq]; rfl
@[simp] theorem addRequest_mem : (s.addRequest r).mem = s.mem := by rw [addRequest_eq]
@[simp] theorem addRequest_free : (s.addRequest r).free = s.free := by rw [addRequest_eq]
@[simp] theorem addRequest_number : (s.addRequest r).number = s.number := by rw [addRequest_eq]
@[simp] theorem addRequest_loader : (s.addRequest r).loader = s.loader := by rw [addRequest_eq]
@[simp] theorem addRequest_settings : (s.addRequest r).settings = s.settings := by rw [addRequest_eq]
@[simp] theorem addRequest_notices : (s.addRequest r).notices = s.notices := by rw [addRequest_eq]
@[simp] theorem addRequest_now : (s.addRequest r).now = s.now := by rw [addRequest_eq]

/-- A request inserted into the send list is one of its requests. -/
theorem mem_insertRequest {n : Nat} {q r : Request} {rs : List Request} :
    q ∈ insertRequest n r rs ↔ q = r ∨ q ∈ rs := by
  induction rs with
  | nil => simp [insertRequest]
  | cons x xs ih =>
    unfold insertRequest; split
    · simp
    · simp only [List.mem_cons, ih]; tauto

end

end Sys2Proof.Machine
end

