-- ==== Sys2Proof/Laws/ActOps.lean ====
section
/-! SUPPORT. Each shared operation as elementary changes (Laws/Act.lean): flags, store, supervision,
trackers, converter, sending. -/

namespace Sys2Proof.Machine

variable {K : Kind → Prop} {s0 s t : Part}

/-! ### Loops -/

theorem forLines_act {f : LineNo → Part → Part} (hf : ∀ l s, Act K s0 s → Act K s0 (f l s)) (ls : List LineNo)
    (h : Act K s0 s) : Act K s0 (s.forLines ls f) := by
  unfold Part.forLines
  induction ls generalizing s with
  | nil => exact h
  | cons l ls ih => exact ih (hf l s h)

theorem forSlots_act {f : Slot → Part → Part} (hf : ∀ i s, Act K s0 s → Act K s0 (f i s)) (is : List Slot)
    (h : Act K s0 s) : Act K s0 (s.forSlots is f) := by
  unfold Part.forSlots
  induction is generalizing s with
  | nil => exact h
  | cons i is ih => exact ih (hf i s h)

/-! ### Requests and records -/

section
variable (hl : K .list)
include hl

theorem requestStory_act (i : Slot) (k : FrameKind) (h : Act K s0 s) : Act K s0 (s.requestStory i k) := by
  unfold Part.requestStory; split
  · exact .add _ hl h
  · exact h

theorem requestCall_act (i : Slot) (k : FrameKind) (h : Act K s0 s) : Act K s0 (s.requestCall i k) := by
  unfold Part.requestCall; repeat' split
  all_goals first | exact .add _ hl h | exact h

end

theorem Record.mapIn_blocks (f : InRecord → InRecord) (r : Record) :
    (r.mapIn f).blocks = r.blocks ∧ (r.mapIn f).reservation = r.reservation := by
  cases r with
  | mk line priority blocks count body => cases body <;> exact ⟨rfl, rfl⟩

theorem Record.mapOut_blocks {f : OutRecord → OutRecord} (hf : ∀ x, (f x).reservation = x.reservation) (r : Record) :
    (r.mapOut f).blocks = r.blocks ∧ (r.mapOut f).reservation = r.reservation := by
  cases r with
  | mk line priority blocks count body =>
    cases body with
    | inbound x => exact ⟨rfl, rfl⟩
    | outbound x => exact ⟨rfl, hf x⟩

section
variable (hr : K .record)
include hr

theorem updIn_act (i : Slot) (f : InRecord → InRecord) (h : Act K s0 s) : Act K s0 (s.updIn i f) :=
  .record i _ (Record.mapIn_blocks f) hr h

theorem updOut_act (i : Slot) {f : OutRecord → OutRecord} (hf : ∀ x, (f x).reservation = x.reservation)
    (h : Act K s0 s) : Act K s0 (s.updOut i f) := .record i _ (Record.mapOut_blocks hf) hr h

end

/-! ### Notices of the station, conditions of a line -/

section
variable (hn : K .notices) (hl : K .list)
include hn

theorem putStationLevel_act (c : StationCondition) (b : Bool) (h : Act K s0 s) :
    Act K s0 (s.putStationLevel c b) := .notices _ (fun x => x) hn h

include hl

theorem stationChanged_act (c : StationCondition) (h : Act K s0 s) : Act K s0 (s.stationChanged c) :=
  .add _ hl (.notices _ (fun x => x) hn h)

theorem stationEvent_act (e : StationEvent) (h : Act K s0 s) : Act K s0 (s.stationEvent e) :=
  .add _ hl (.notices _ (fun x => x) hn h)

theorem setStationCond_act (c : StationCondition) (b : Bool) (h : Act K s0 s) :
    Act K s0 (s.setStationCond c b) := by
  unfold Part.setStationCond; repeat' split
  · exact h
  · exact stationChanged_act hn hl _ (putStationLevel_act hn _ _ h)
  · exact putStationLevel_act hn _ _ h

theorem judgeStore_act (h : Act K s0 s) : Act K s0 s.judgeStore := by
  unfold Part.judgeStore; repeat' split
  · exact setStationCond_act hn hl _ _ h
  · exact setStationCond_act hn hl _ _ h
  · exact h

end

section
variable (hs : K .sup) (hl : K .list)
include hs hl

theorem setCond_act (l : LineNo) (c : Condition) (b : Bool) (h : Act K s0 s) : Act K s0 (s.setCond l c b) := by
  unfold Part.setCond; dsimp only; repeat' split
  · exact h
  · exact .add _ hl (.sup _ _ (fun _ h => h) hs (.sup _ _ (fun _ h => h) hs h))
  · exact .sup _ _ (fun _ h => h) hs h

end

/-! ### The store -/

section
variable (hst : K .store) (hr : K .record) (hl : K .list) (hn : K .notices)
include hst hl hn

theorem freeRecord_act (i : Slot) (h : Act K s0 s) : Act K s0 (s.freeRecord i) := by
  unfold Part.freeRecord; split
  · exact h
  · next r hr => exact judgeStore_act hn hl (.remove _ hl (.release i r hr hst h))

include hr

theorem evictScan_act (n : Nat) (h : Act K s0 s) : Act K s0 (evictScan n s) := by
  induction n generalizing s with
  | zero => exact h
  | succ n ih =>
    unfold evictScan; repeat' split
    · exact h
    · exact ih (updIn_act hr _ _ (.recent _ hst h))
    · exact freeRecord_act hst hl hn _ (.recent _ hst h)

theorem evictOne_act (h : Act K s0 s) : Act K s0 s.evictOne := evictScan_act hst hr hl hn _ h

theorem evictUntil_act (p : Part → Bool) (n : Nat) (h : Act K s0 s) : Act K s0 (evictUntil p n s) := by
  induction n generalizing s with
  | zero => exact h
  | succ n ih =>
    unfold evictUntil; split
    · exact h
    · exact ih (evictOne_act hst hr hl hn h)

theorem takeBlock_act (i : Slot) (h : Act K s0 s) : Act K s0 (s.takeBlock i).1 := by
  unfold Part.takeBlock; dsimp only; split
  · next b rest r hf hi =>
    exact judgeStore_act hn hl (.take i b rest hf (by rw [hi]; rfl) hst (evictUntil_act hst hr hl hn _ _ h))
  · exact evictUntil_act hst hr hl hn _ _ h

theorem findSlot_act (h : Act K s0 s) : Act K s0 s.findSlot.1 := by
  unfold Part.findSlot; split
  · exact h
  · exact evictOne_act hst hr hl hn h

theorem reserve_act (i : Slot) (b : Nat) (h : Act K s0 s) : Act K s0 (s.reserve i b).1 := by
  unfold Part.reserve; dsimp only; split
  · next hb => exact judgeStore_act hn hl (.reserve i b hb.2 hst (evictUntil_act hst hr hl hn _ _ h))
  · exact evictUntil_act hst hr hl hn _ _ h

omit hr in
theorem returnSurplus_act (i : Slot) (h : Act K s0 s) : Act K s0 (s.returnSurplus i) := by
  unfold Part.returnSurplus; split
  · exact h
  · next x hx => exact judgeStore_act hn hl (.surplus i x hx hst h)

theorem takeOutBlock_act (i : Slot) (h : Act K s0 s) : Act K s0 (s.takeOutBlock i).1 := by
  unfold Part.takeOutBlock
  split
  · exact h
  · next r hi =>
    split
    · exact h
    · split
      · next b rest hb => exact .assign i r b rest hi hb hst h
      · exact takeBlock_act hst hr hl hn i h

end

section
variable (hm : K .mem) (hr : K .record)
include hm hr

theorem writeEntry_act (i : Slot) (b : Byte) (h : Act K s0 s) : Act K s0 (s.writeEntry i b) := by
  unfold Part.writeEntry; split
  · exact h
  · exact .record i _ (fun _ => ⟨rfl, rfl⟩) hr (.write _ _ hm h)

variable (hst : K .store) (hl : K .list) (hn : K .notices)
include hst hl hn

theorem storeChar_act (i : Slot) (c : Byte) (h : Act K s0 s) : Act K s0 (s.storeChar i c).1 := by
  unfold Part.storeChar
  split
  · exact h
  · split
    · have g := takeBlock_act hst hr hl hn i h
      split <;> next e => rw [e] at g; first | exact writeEntry_act hm hr i c g | exact g
    · exact writeEntry_act hm hr i c h

theorem storeCode_act (i : Slot) (e : OutEntry) (h : Act K s0 s) : Act K s0 (s.storeCode i e).1 := by
  unfold Part.storeCode
  split
  · exact h
  · split
    · have g := takeOutBlock_act hst hr hl hn i h
      split <;> next e' => rw [e'] at g; first | exact writeEntry_act hm hr i _ g | exact g
    · exact writeEntry_act hm hr i _ h

theorem storeCodes_act (i : Slot) (es : List OutEntry) (h : Act K s0 s) : Act K s0 (storeCodes i es s).1 := by
  induction es generalizing s with
  | nil => exact h
  | cons e es ih =>
    have g := storeCode_act hm hr hst hl hn i e h
    unfold storeCodes
    split <;> next e' => rw [e'] at g; first | exact ih g | exact g

end

/-! ### Supervision -/

theorem faultOccurrence_bounds (old : Option FaultRecord) (f : FaultFields) :
    1 ≤ (faultOccurrence old f).count ∧ (faultOccurrence old f).count ≤ 255 := by
  simp only [faultOccurrence, satSucc]; omega

theorem bounded_fault (k : FaultKind) (f : FaultFields) (x : Supervision) (h : x.Bounded) :
    ({ x with faults := x.faults.set k.idx (some (faultOccurrence (x.faults.get k.idx) f)) } : Supervision).Bounded := by
  refine ⟨h.1, h.2.1, fun j r hj => ?_⟩
  by_cases e : j = k.idx
  · subst e
    rw [vector_get_set_self] at hj
    cases hj
    exact faultOccurrence_bounds _ _
  · rw [vector_get_set_ne _ _ e] at hj
    exact h.2.2 j r hj

section
variable (hs : K .sup) (hl : K .list)
include hs

theorem fault_act (l : LineNo) (k : FaultKind) (f : FaultFields) (h : Act K s0 s) : Act K s0 (s.fault l k f) :=
  .sup _ _ (bounded_fault k f) hs h

include hl

theorem occur_act (l : LineNo) (o : Occurrence) (h : Act K s0 s) : Act K s0 (s.occur l o) := by
  have g : Act K s0 (s.updSup l fun x => { x with counter := satSucc 65535 x.counter }) :=
    .sup _ _ (fun x h => ⟨Nat.min_le_left _ _, h.2⟩) hs h
  unfold Part.occur; dsimp only; repeat' split
  · exact setCond_act hs hl _ _ _ g
  · exact g
  · exact h

theorem transfer_act (l : LineNo) (h : Act K s0 s) : Act K s0 (s.transfer l) :=
  .add _ hl (setCond_act hs hl _ _ _ (setCond_act hs hl _ _ _ (.sup _ _ (fun _ h => ⟨Nat.zero_le _, h.1, h.2.2⟩) hs h)))

theorem queryLine_act (l : LineNo) (b : Bool) (h : Act K s0 s) : Act K s0 (s.queryLine l b) :=
  .add _ hl (.sup _ _ (fun _ h => h) hs h)

theorem checkCode_act (l : LineNo) (c : Code) (h : Act K s0 s) : Act K s0 (s.checkCode l c) := by
  unfold Part.checkCode; dsimp only
  split
  · refine setCond_act hs hl _ _ _ ?_
    split
    · exact occur_act hs hl _ _ (.sup _ _ (fun _ h => h) hs h)
    · exact .sup _ _ (fun _ h => h) hs h
  · exact setCond_act hs hl _ _ _ (.sup _ _ (fun _ h => h) hs h)

theorem followGap_act (l : LineNo) (h : Act K s0 s) : Act K s0 (s.followGap l) := by
  unfold Part.followGap; repeat' split
  · exact setCond_act hs hl _ _ _ h
  · exact h
  · exact h

end

/-! ### Trackers -/

theorem serialSucc_range {n : Nat} (h : 1 ≤ n ∧ n ≤ 9999) : 1 ≤ serialSucc n ∧ serialSucc n ≤ 9999 := by
  unfold serialSucc; split <;> omega

/-- The `d` serials skipped from `e`, which lies `m` behind `e'`, lie `m` to `m - d + 1` behind it, in order
of age (R98). -/
theorem skipped_behind {e' : Nat} (he' : 1 ≤ e' ∧ e' ≤ 9999) (d : Nat) :
    ∀ e m : Nat, 1 ≤ e ∧ e ≤ 9999 → serialBehind e e' = m → d ≤ m → m ≤ 5000 →
      (∀ g ∈ skipped e d, 1 ≤ g ∧ g ≤ 9999 ∧ m - d < serialBehind g e' ∧ serialBehind g e' ≤ m) ∧
        (skipped e d).Pairwise fun a b => serialBehind b e' < serialBehind a e' := by
  induction d with
  | zero => intro e m _ _ _ _; exact ⟨by simp [skipped], List.Pairwise.nil⟩
  | succ d ih =>
    intro e m he hm hd hb
    have hs : serialBehind (serialSucc e) e' = m - 1 := by
      unfold serialBehind serialDistance serialSucc at *; split <;> omega
    obtain ⟨i, p⟩ := ih (serialSucc e) (m - 1) (serialSucc_range he) hs (by omega) (by omega)
    refine ⟨fun g hg => ?_, List.pairwise_cons.2 ⟨fun g hg => ?_, p⟩⟩
    · rcases List.mem_cons.1 hg with rfl | hg
      · exact ⟨he.1, he.2, by omega, by omega⟩
      · have := i g hg; exact ⟨this.1, this.2.1, by omega, by omega⟩
    · have := i g hg; omega

/-- A tracker that takes a serial keeps the law of R96. -/
theorem take_law (t : Tracker) (n : Nat) (hn : 1 ≤ n ∧ n ≤ 9999) (h : t.Law) : (t.take n).1.Law := by
  have hs := serialSucc_range hn
  unfold Tracker.take
  cases he : t.expected with
  | none =>
    unfold Tracker.Law at h ⊢; rw [he] at h
    simp only at h ⊢
    exact ⟨hs.1, hs.2, by rw [h]; exact Nat.zero_le _, by rw [h]; simp, by rw [h]; exact List.Pairwise.nil⟩
  | some e =>
    have hl := h
    unfold Tracker.Law at hl; rw [he] at hl
    simp only at hl ⊢
    obtain ⟨e1, e2, len, mem, pw⟩ := hl
    have adv : serialDistance n e ≤ 50 →
        Tracker.Law { t with expected := some (serialSucc n), gaps := (advance t.gaps e n (serialDistance n e)).1 } := by
      intro hd
      have hb : serialBehind e (serialSucc n) = serialDistance n e + 1 := by
        unfold serialBehind serialDistance serialSucc at *; split <;> omega
      obtain ⟨i, p⟩ := skipped_behind hs (serialDistance n e) e _ ⟨e1, e2⟩ hb (by omega) (by omega)
      have old : ∀ g ∈ t.gaps, serialBehind g (serialSucc n) = serialBehind g e + serialDistance n e + 1 := by
        intro g hg
        have := mem g hg
        unfold serialBehind serialDistance serialSucc at *; split <;> omega
      unfold Tracker.Law; simp only [advance]
      have sub (k : Nat) : (List.filter (fun g => decide (serialBehind g (serialSucc n) ≤ 50))
          (skipped e (serialDistance n e))).drop k |>.Sublist (skipped e (serialDistance n e)) :=
        (List.drop_sublist _ _).trans List.filter_sublist
      have kl := List.length_filter_le (fun g => decide (serialBehind g (serialSucc n) ≤ 50)) t.gaps
      refine ⟨hs.1, hs.2, ?_, ?_, List.pairwise_append.2 ⟨?_, p.sublist (sub _), ?_⟩⟩
      · simp only [List.length_append, List.length_drop]; omega
      · intro g hg
        rcases List.mem_append.1 hg with hg | hg
        · have hf := List.mem_filter.1 hg
          have := mem g hf.1
          have b := of_decide_eq_true hf.2
          have := old g hf.1
          exact ⟨by omega, by omega, by omega, b⟩
        · have b := of_decide_eq_true (List.mem_filter.1 (List.mem_of_mem_drop hg)).2
          have := i g ((sub _).subset hg)
          exact ⟨this.1, this.2.1, by omega, b⟩
      · refine (List.Pairwise.filter _ pw).imp_of_mem fun {a b} ha hb r => ?_
        rw [old a (List.mem_filter.1 ha).1, old b (List.mem_filter.1 hb).1]; omega
      · intro a ha b hb
        have := i b ((sub _).subset hb)
        have := old a (List.mem_filter.1 ha).1
        have := mem a (List.mem_filter.1 ha).1
        omega
    cases hc : t.classify n with
    | first => exact h
    | next =>
      refine adv ?_
      simp only [Tracker.classify, he] at hc
      repeat' split at hc
      all_goals first | omega | cases hc
    | ahead =>
      refine adv ?_
      simp only [Tracker.classify, he] at hc
      repeat' split at hc
      all_goals first | omega | cases hc
    | fill =>
      unfold Tracker.Law; simp only
      exact ⟨e1, e2, (List.length_filter_le _ _).trans len, fun g hg => mem g (List.mem_of_mem_filter hg),
        List.Pairwise.filter _ pw⟩
    | duplicate => exact h
    | jump =>
      unfold Tracker.Law; simp only
      exact ⟨hs.1, hs.2, Nat.zero_le _, by simp, List.Pairwise.nil⟩

section
variable (ht : K .trackers) (hs : K .sup) (hl : K .list)
include ht hs hl

theorem takeSerial_act (service serial : Nat) (hn : 1 ≤ serial ∧ serial ≤ 9999) (l : Option LineNo)
    (f : FaultFields) (h : Act K s0 s) :
    Act K s0 (s.takeSerial service serial l f) := by
  unfold Part.takeSerial
  split
  · exact h
  · next t hf =>
    have g : Act K s0 (s.putTracker (t.take serial).1) := by
      refine forLines_act (fun l s h => followGap_act hs hl l h) _ (.trackers _ ?_ ht h)
      intro a k hk
      obtain ⟨x, hx, rfl⟩ := List.mem_map.1 hk
      split
      · exact take_law t serial hn (a t (List.mem_of_find?_eq_some hf))
      · exact a x hx
    dsimp only
    split
    · exact fault_act hs _ _ _ g
    · exact g

theorem hearSerial_act (service serial : Nat) (hn : 1 ≤ serial ∧ serial ≤ 9999) (o : Handle) (r : Bool) (h : Act K s0 s) :
    Act K s0 (s.hearSerial service serial o r) := by
  unfold Part.hearSerial; dsimp only; split
  · exact h
  · exact takeSerial_act ht hs hl _ _ hn _ _ h

end

/-! ### Converter -/

section
variable (hr : K .record)
include hr

theorem mutilate_act (l : LineNo) (h : Act K s0 s) : Act K s0 (s.mutilate l) := by
  unfold Part.mutilate; split
  · exact updIn_act hr _ _ h
  · exact h

variable (hd : K .sched) (hp : K .plane) (hs : K .sup) (hl : K .list)

omit hr in
include hd in
theorem requestAnswerBack_act (l : LineNo) (h : Act K s0 s) : Act K s0 (s.requestAnswerBack l) := by
  unfold Part.requestAnswerBack; split
  · exact .sched _ _ hd h
  · exact h

include hd hp hs hl in
theorem decode_act (l : LineNo) (c : Code) (b : Bool) (h : Act K s0 s) : Act K s0 (s.decode l c b).1 := by
  have g (p : Plane) : Act K s0 (s.setPlane l p) := .plane _ _ hp h
  have a (p : Plane) (e : MapEntry) : Act K s0
      (if (s.setPlane l p).enquires l e = true then (s.setPlane l p).requestAnswerBack l else s.setPlane l p) := by
    split
    · exact requestAnswerBack_act hd l (g p)
    · exact g p
  unfold Part.decode; dsimp only
  split
  · split
    · exact mutilate_act hr _ (fault_act hs _ _ _ (g _))
    · exact g _
  · split
    · exact mutilate_act hr _ (fault_act hs _ _ _ (g _))
    · split
      · exact mutilate_act hr _ (occur_act hs hl _ _ (fault_act hs _ _ _ (g _)))
      · split
        · exact a _ _
        all_goals exact fault_act hs _ _ _ (a _ _)

end

section
variable (hm : K .mem) (hr : K .record) (hst : K .store) (hl : K .list) (hn : K .notices) (hs : K .sup)
include hm hr hst hl hn hs

theorem encodeInto_act (i : Slot) (l : LineNo) (e : Encoder) (o : Nat) (c : Byte) (h : Act K s0 s) :
    Act K s0 (s.encodeInto i l e o c).1 := by
  unfold Part.encodeInto; dsimp only
  have g := storeCodes_act hm hr hst hl hn i (encodeChar (s.map l) (s.cfg l) e c).1 h
  split <;> next e' => rw [e'] at g; first | exact updOut_act hr _ (fun _ => rfl) g | exact fault_act hs _ _ _ g

theorem takeChar_act (i : Slot) (l : LineNo) (e : Encoder) (o : Nat) (c : Byte) (h : Act K s0 s) :
    Act K s0 (s.takeChar i l e o c).1 := by
  unfold Part.takeChar; dsimp only
  repeat' split
  all_goals first
    | exact h
    | exact encodeInto_act hm hr hst hl hn hs _ _ _ _ _ h
    | exact encodeInto_act hm hr hst hl hn hs _ _ _ _ _ (fault_act hs _ _ _ h)
    | exact fault_act hs _ _ _ h

theorem closingShift_act (i : Slot) (l : LineNo) (e : Encoder) (o : Nat) (h : Act K s0 s) :
    Act K s0 (s.closingShift i l e o).1 := by
  unfold Part.closingShift; dsimp only
  split
  · exact h
  · split
    · exact h
    · next r hi =>
      have g := storeCode_act hm hr hst hl hn i
        ⟨shiftCode (s.map l) .ltrs, .ltrs, decide (0 < r.count) && (s.outEntry r (r.count - 1)).mark⟩ h
      split <;> rename_i e'
      · rw [e'] at g; dsimp only; split
        · exact .write _ _ hm g
        · exact g
      · rw [e'] at g; exact fault_act hs _ _ _ g

end

/-! ### Sending -/

section
variable (hu : K .unit)
include hu

theorem beginCode_act (l : LineNo) (c : Code) (x : Source) (h : Act K s0 s) : Act K s0 (s.beginCode l c x) :=
  .unit _ _ hu h

theorem offerCode_act (l : LineNo) (h : Act K s0 s) : Act K s0 (s.offerCode l) := by
  unfold Part.offerCode; repeat' split
  · exact beginCode_act hu _ _ _ h
  · exact h
  · exact h

variable (hd : K .sched)
include hd

theorem startPiece_act (l : LineNo) (p : Piece) (h : Act K s0 s) : Act K s0 (s.startPiece l p) :=
  offerCode_act hu l (.sched _ _ hd h)

theorem startResumption_act (l : LineNo) (h : Act K s0 s) : Act K s0 (s.startResumption l) := by
  unfold Part.startResumption; split
  · exact startPiece_act hu hd _ _ (.sched _ _ hd h)
  · exact startPiece_act hu hd _ _ h

theorem startAnswerBack_act (l : LineNo) (b : Bool) (h : Act K s0 s) : Act K s0 (s.startAnswerBack l b) :=
  startPiece_act hu hd _ _ (.sched _ _ hd h)

end

section
variable (hd : K .sched) (hr : K .record) (hl : K .list)
include hd hr hl

theorem report_act (l : LineNo) (i : Slot) (o : SendOutcome) (n : Nat) (h : Act K s0 s) :
    Act K s0 (s.report l i o n) :=
  requestCall_act hl _ _ (.sched _ _ hd (updOut_act hr _ (fun _ => rfl) h))

variable (hg : K .groups)

include hg in
theorem completeStory_act (l : LineNo) (i : Slot) (h : Act K s0 s) : Act K s0 (s.completeStory l i).1 := by
  unfold Part.completeStory; dsimp only; split
  · exact h
  · refine report_act hd hr hl _ _ _ _ (.sched _ _ hd ?_)
    split
    · exact .groups _ _ hg h
    · exact h

variable (hu : K .unit)
include hg hu

theorem choose_act (l : LineNo) (i : Slot) (h : Act K s0 s) : Act K s0 (s.choose l i).1 := by
  unfold Part.choose; dsimp only
  have g : Act K s0 (s.updOut i fun x => { x with state := .sending }) := updOut_act hr _ (fun _ => rfl) h
  repeat' split
  · exact h
  · exact h
  · exact startResumption_act hu hd _ (.sched _ _ hd g)
  · exact completeStory_act hd hr hl hg _ _ (.sched _ _ hd g)
  · exact startPiece_act hu hd _ _ (.sched _ _ hd g)

theorem freeStep_act (l : LineNo) (b : Bool) (e : s.freeStep l = some (t, b)) (h : Act K s0 s) : Act K s0 t := by
  unfold Part.freeStep at e
  split at e
  · split at e
    · cases e; exact startPiece_act hu hd _ _ (.sched _ _ hd h)
    · split at e
      · next i _ =>
        have g := choose_act hd hr hl hg hu l i h
        cases e' : s.choose l i with
        | mk x y => rw [e'] at e g; cases e; exact g
      · cases e
  · cases e

theorem settle_act (n : Nat) (ls : List LineNo) (h : Act K s0 s) : Act K s0 (settle n ls s) := by
  induction n generalizing s ls with
  | zero => unfold settle; exact h
  | succ n ih =>
    cases ls with
    | nil => exact h
    | cons l ls =>
      unfold settle
      split
      · exact ih _ h
      · next e => exact ih _ (freeStep_act hd hr hl hg hu l _ e h)

theorem settleLines_act (ls : List LineNo) (h : Act K s0 s) : Act K s0 (s.settleLines ls) :=
  settle_act hd hr hl hg hu _ _ h

theorem startInterruption_act (l : LineNo) (b : Bool) (h : Act K s0 s) : Act K s0 (s.startInterruption l b) := by
  unfold Part.startInterruption; repeat' split
  · exact startPiece_act hu hd _ _ h
  · exact settleLines_act hd hr hl hg hu _ (.sched _ _ hd h)
  · exact startPiece_act hu hd _ _ h

theorem resumeAtReady_act (l : LineNo) (h : Act K s0 s) : Act K s0 (s.resumeAtReady l) := by
  unfold Part.resumeAtReady; dsimp only; split
  · have g (i : Slot) (n : Option Nat) : Act K s0 ((s.updOut i fun x => { x with state := .sending }).updSched l
        fun k => { k with position := n }) := .sched _ _ hd (updOut_act hr _ (fun _ => rfl) h)
    split
    · exact startResumption_act hu hd _ (g _ _)
    · exact startPiece_act hu hd _ _ (g _ _)
  · split
    · exact startInterruption_act hd hr hl hg hu _ _ h
    · exact startPiece_act hu hd _ _ h

theorem endPiece_act (l : LineNo) (h : Act K s0 s) : Act K s0 (s.endPiece l) := by
  have g : Act K s0 (s.updSched l fun k => { k with piece := .none, progress := 0 }) := .sched _ _ hd h
  unfold Part.endPiece; dsimp only; split
  · exact g
  · exact g
  · exact settleLines_act hd hr hl hg hu _ (.sched _ _ hd g)
  · exact settleLines_act hd hr hl hg hu _ (.sched _ _ hd g)
  · exact startPiece_act hu hd _ _ (.sched _ _ hd g)
  · exact startPiece_act hu hd _ _ g
  · exact startPiece_act hu hd _ _ g
  · exact settleLines_act hd hr hl hg hu _ g
  · have g' := Act.sched l (fun k => { k with answerBack := .clear }) hd g
    repeat' split
    · exact resumeAtReady_act hd hr hl hg hu _ g'
    · exact startInterruption_act hd hr hl hg hu _ _ g'
    · exact settleLines_act hd hr hl hg hu _ g'
    · exact startPiece_act hu hd _ _ g'

omit hl hg hu in
theorem suspend_act (l : LineNo) (i : Slot) (n : Nat) (p : Plane) (h : Act K s0 s) :
    Act K s0 (s.suspend l i n p) := .sched _ _ hd (updOut_act hr _ (fun _ => rfl) h)

theorem atLineEnd_act (l : LineNo) (i : Slot) (r : Record) (n : Nat) (p : Plane) (h : Act K s0 s) :
    Act K s0 (s.atLineEnd l i r n p) := by
  unfold Part.atLineEnd; dsimp only
  have g : Act K s0 (if s.preemptor l r.priority = true then s.suspend l i n p else s) := by
    split
    · exact suspend_act hd hr _ _ _ _ h
    · exact h
  generalize (if s.preemptor l r.priority = true then s.suspend l i n p else s) = t at g ⊢
  split
  · exact startAnswerBack_act hu hd _ _ g
  · split
    · exact startInterruption_act hd hr hl hg hu _ _ g
    · exact offerCode_act hu _ g

theorem reportSent_act (l : LineNo) (h : Act K s0 s) : Act K s0 (s.reportSent l) := by
  unfold Part.reportSent; dsimp only
  split
  · exact h
  · split
    · split
      · exact h
      · next n _ _ _ r _ =>
        have g : Act K s0 (s.updSched l fun k => { k with position := some (n + 1) }) := .sched _ _ hd h
        repeat' split
        all_goals first
          | exact settleLines_act hd hr hl hg hu _ (completeStory_act hd hr hl hg _ _ g)
          | exact atLineEnd_act hd hr hl hg hu _ _ _ _ _ g
          | exact offerCode_act hu _ g
    · exact h
  · have g : Act K s0 (s.updSched l fun k => { k with progress := k.progress + 1 }) := .sched _ _ hd h
    split
    · exact offerCode_act hu _ g
    · exact endPiece_act hd hr hl hg hu _ g

theorem schedReady_act (l : LineNo) (h : Act K s0 s) : Act K s0 (s.schedReady l) := by
  unfold Part.schedReady; dsimp only; split
  · exact startAnswerBack_act hu hd _ _ (.sched _ _ hd h)
  · exact resumeAtReady_act hd hr hl hg hu _ (.sched _ _ hd h)

omit hl hg hu in
theorem holdStory_act (l : LineNo) (p : Piece) (h : Act K s0 s) : Act K s0 (s.holdStory l p) := by
  unfold Part.holdStory; dsimp only; repeat' split
  all_goals first | exact h | exact .sched _ _ hd (updOut_act hr _ (fun _ => rfl) h)

omit hg hu in
theorem abandonStory_act (l : LineNo) (h : Act K s0 s) : Act K s0 (s.abandonStory l) := by
  unfold Part.abandonStory; repeat' split
  all_goals first | exact h | exact report_act hd hr hl _ _ _ _ (.sched _ _ hd h)

omit hr hl hg hu in
theorem stopPieces_act (l : LineNo) (h : Act K s0 s) : Act K s0 (s.stopPieces l) := .sched _ _ hd h

omit hg hu in
theorem abandonQueue_act (l : LineNo) (h : Act K s0 s) : Act K s0 (s.abandonQueue l) := by
  unfold Part.abandonQueue; dsimp only
  refine .sched _ _ hd (forSlots_act (fun i s h => ?_) _ h)
  split
  · exact report_act hd hr hl _ _ _ _ h
  · exact h

omit hg hu in
theorem schedStop_act (l : LineNo) (c : StopCause) (h : Act K s0 s) : Act K s0 (s.schedStop l c) := by
  have g := stopPieces_act hd l h
  unfold Part.schedStop; dsimp only; repeat' split
  all_goals first
    | exact abandonStory_act hd hr hl _ g
    | exact holdStory_act hd hr _ _ g
    | exact abandonQueue_act hd hr hl _ g
    | exact g

omit hg in
theorem stop_act (l : LineNo) (c : StopCause) (h : Act K s0 s) : Act K s0 (s.stop l c) :=
  schedStop_act hd hr hl _ _ (.unit _ _ hu (.unit _ _ hu h))

end

end Sys2Proof.Machine
end

