-- ==== Sys2Proof/Laws/ActStories.lean ====
section
/-! SUPPORT. The assembler, the offer register and the claim unit as elementary changes
(Laws/Act.lean). -/

namespace Sys2Proof.Machine

variable {K : Kind → Prop} {s0 s : Part}

/-- The slot of lowest number that is found free holds no record. -/
theorem lowestFree_none {s : Part} {i : Slot} (h : s.lowestFree = some i) : s.record i = none := by
  have := List.find?_some h
  simpa using this

/-- A slot that a record request gives holds no record. -/
theorem findSlot_none {s t : Part} {i : Slot} (h : s.findSlot = (t, some i)) : t.record i = none := by
  unfold Part.findSlot at h
  split at h
  · next j e => cases h; exact lowestFree_none e
  · cases h' : s.evictOne.lowestFree with
    | none => rw [h'] at h; cases h
    | some j => rw [h'] at h; cases h; exact lowestFree_none h'

/-- The kinds of change that assembling inbound stories makes. -/
structure Assembles (K : Kind → Prop) : Prop where
  recog : K .recog
  sup : K .sup
  list : K .list
  record : K .record
  store : K .store
  notices : K .notices
  trackers : K .trackers

section
variable (k : Assembles K)
include k

theorem requestNext_act (i : Slot) (h : Act K s0 s) : Act K s0 (s.requestNext i) := by
  unfold Part.requestNext; repeat' split
  all_goals first | exact h | exact requestStory_act k.list _ _ h

theorem lowerCursor_act (i : Slot) (h : Act K s0 s) : Act K s0 (s.updRecord i lowerCursor) :=
  .record i _ (fun r => Record.mapIn_blocks _ r) k.record h

theorem takeover_act (i : Slot) (h : Act K s0 s) : Act K s0 (s.takeover i) :=
  requestStory_act k.list _ _ (lowerCursor_act k i (updIn_act k.record _ _ h))

theorem silentTakeover_act (i : Slot) (h : Act K s0 s) : Act K s0 (s.silentTakeover i) := by
  unfold Part.silentTakeover; repeat' split
  all_goals first | exact h | exact takeover_act k i h

theorem goOutside_act (l : LineNo) (h : Act K s0 s) : Act K s0 (s.goOutside l) :=
  setCond_act k.sup k.list _ _ _ (.recog _ _ k.recog h)

theorem goDiscarding_act (l : LineNo) (h : Act K s0 s) : Act K s0 (s.goDiscarding l) := .recog _ _ k.recog h

theorem free_act (i : Slot) (h : Act K s0 s) : Act K s0 (s.freeRecord i) :=
  freeRecord_act k.store k.list k.notices i h

theorem freeTied_act (l : LineNo) (i : Slot) (h : Act K s0 s) : Act K s0 (s.freeTied l i) :=
  .recog _ _ k.recog (free_act k i h)

theorem openStory_act (l : LineNo) (h : Act K s0 s) : Act K s0 (s.openStory l) := by
  have g := findSlot_act k.store k.record k.list k.notices h
  unfold Part.openStory
  split
  · next t i e =>
    have n := findSlot_none e
    rw [e] at g
    exact .recog _ _ k.recog (.alloc i _ n rfl rfl k.store g)
  · next t e =>
    rw [e] at g
    exact fault_act k.sup _ _ _ (goDiscarding_act k _ (.recog _ _ k.recog g))

theorem closeStory_act (l : LineNo) (b : Bool) (h : Act K s0 s) : Act K s0 (s.closeStory l b) := by
  unfold Part.closeStory; dsimp only
  split
  · exact h
  · next i _ =>
    refine .recog _ _ k.recog ?_
    have g : Act K s0 (if b = true then
        (s.updIn i fun x => { x with truncated := true }).fault l .truncated
          (s.storyFields l i ((s.inRecord i).bind InRecord.serial)) else s) := by
      split
      · exact fault_act k.sup _ _ _ (updIn_act k.record _ _ h)
      · exact h
    generalize (if b = true then
        (s.updIn i fun x => { x with truncated := true }).fault l .truncated
          (s.storyFields l i ((s.inRecord i).bind InRecord.serial)) else s) = t at g ⊢
    split
    · refine free_act k _ ?_
      split
      · exact g
      · exact fault_act k.sup _ _ _ g
    · exact requestNext_act k _ (lowerCursor_act k _ (.record _ _ (fun _ => ⟨rfl, rfl⟩) k.record g))
    · exact updIn_act k.record _ _ (.record _ _ (fun _ => ⟨rfl, rfl⟩) k.record g)
    · exact g

theorem lineCause_act (l : LineNo) (h : Act K s0 s) : Act K s0 (s.lineCause l) := by
  unfold Part.lineCause; dsimp only
  refine goOutside_act k _ ?_
  split
  · exact h
  · split
    · split
      · exact free_act k _ h
      · exact requestStory_act k.list _ _ (updIn_act k.record _ _
          (.record _ _ (fun _ => ⟨rfl, rfl⟩) k.record (.remove _ k.list h)))
    · exact free_act k _ h
    · exact free_act k _ h
    · exact h

theorem standBehind_act (i : Slot) (o : Handle) (n : Nat) (q : Bool) (h : Act K s0 s) :
    Act K s0 (s.standBehind i o n q) := .record _ _ (fun r => Record.mapIn_blocks _ r) k.record h

theorem carryOut_act (l : LineNo) (i : Slot) (n : Option Nat) (d : Decision) (h : Act K s0 s) :
    Act K s0 (s.carryOut l i n d) := by
  unfold Part.carryOut; split
  · exact .recog _ _ k.recog (requestStory_act k.list _ _ (updIn_act k.record _ _ h))
  · exact .recog _ _ k.recog (standBehind_act k _ _ _ _ h)
  · exact goDiscarding_act k _ (freeTied_act k _ _ h)
  · exact goDiscarding_act k _ (freeTied_act k _ _ (fault_act k.sup _ _ _ h))

omit k in
theorem leadingDigits_bounds (c0 : Byte) (buf : List Byte) :
    ∀ n v m w rest, leadingDigits c0 buf n v = (m, w, rest) →
    n ≤ m ∧ w + 1 ≤ (v + 1) * 10 ^ (m - n) := by
  induction buf with
  | nil => intro n v m w rest h; cases h; simp
  | cons c cs ih =>
    intro n v m w rest h
    unfold leadingDigits at h
    split at h
    · next d hd =>
      obtain ⟨h1, h2⟩ := ih _ _ _ _ _ h
      have hd9 : d ≤ 9 := by
        unfold digitValue at hd; split at hd
        · cases hd; omega
        · cases hd
      refine ⟨by omega, h2.trans ?_⟩
      have : m - n = (m - (n + 1)) + 1 := by omega
      rw [this, Nat.pow_succ, Nat.mul_comm (10 ^ _) 10, ← Nat.mul_assoc]
      exact Nat.mul_le_mul_right _ (by omega)
    · cases h; simp

omit k in
/-- A heading that satisfies the syntax gives a serial of 1 to 9999 (R59). -/
theorem readHeading_serial {c0 : Byte} {buf : List Byte} {h : Heading} (e : readHeading c0 buf = some h) :
    1 ≤ h.serial ∧ h.serial ≤ 9999 := by
  unfold readHeading at e
  split at e
  · next n v sep p c rest hd =>
    have hb := leadingDigits_bounds c0 buf _ _ _ _ _ hd
    split at e
    · next hc =>
      have : (10 : Nat) ^ (n - 0) ≤ 10 ^ 4 := Nat.pow_le_pow_right (by omega) (by omega)
      split at e
      · cases e; exact ⟨hc.2.2.1, by simp only at *; omega⟩
      · split at e
        · cases e; exact ⟨hc.2.2.1, by simp only at *; omega⟩
        · cases e
      · cases e
    · cases e
  · cases e

theorem completeHeading_act (l : LineNo) (i : Slot) (h : Act K s0 s) : Act K s0 (s.completeHeading l i) := by
  unfold Part.completeHeading
  cases hx : readHeading (s.map l).subst (s.line l).recog.heading with
  | none =>
    have g := fault_act k.sup l .heading (s.storyFields l i none)
      (updIn_act k.record i (fun x => { x with headingFault := true }) h)
    dsimp only [Option.map]
    split
    · exact goDiscarding_act k _ (freeTied_act k _ _ g)
    · exact carryOut_act k _ _ _ _ (updIn_act k.record _ _ g)
  | some x =>
    have g (f : FaultFields) := takeSerial_act k.trackers k.sup k.list (s.cfg l).service x.serial
      (readHeading_serial hx) (some l) f
      (Act.record i (fun r => ({ r with priority := x.priority } : Record).mapIn fun y =>
        { y with serial := some x.serial, category := x.category, slug := x.slug })
        (fun r => Record.mapIn_blocks _ _) k.record h)
    dsimp only [Option.map]
    split
    · exact goDiscarding_act k _ (freeTied_act k _ _ (g _))
    · exact carryOut_act k _ _ _ _ (updIn_act k.record _ _ (g _))

theorem loseChar_act (l : LineNo) (i : Slot) (h : Act K s0 s) : Act K s0 (s.loseChar l i) := by
  have g := updIn_act k.record i (fun x => { x with overrun := true }) h
  unfold Part.loseChar; dsimp only; split
  · exact g
  · exact .recog _ _ k.recog (fault_act k.sup _ _ _ g)

theorem takeInto_act (hm : K .mem) (l : LineNo) (i : Slot) (c : Byte) (h : Act K s0 s) : Act K s0 (s.takeInto l i c).1 := by
  unfold Part.takeInto; split
  · exact goDiscarding_act k _ (closeStory_act k _ _ h)
  · have g := storeChar_act hm k.record k.store k.list k.notices i c h
    split <;> next e => rw [e] at g; first
      | exact requestNext_act k _ (silentTakeover_act k _ (.recog _ _ k.recog g))
      | exact loseChar_act k _ _ g

theorem takeText_act (hm : K .mem) (l : LineNo) (c : Byte) (h : Act K s0 s) : Act K s0 (s.takeText l c) := by
  have h' : Act K s0 (s.updRecog l fun r => { r with lineStart := c == lineEnd }) := .recog _ _ k.recog h
  unfold Part.takeText; dsimp only
  generalize (s.updRecog l fun r => { r with lineStart := c == lineEnd }) = u at h' ⊢
  split
  · next i _ _ =>
    have g := takeInto_act k hm l i c h'
    split <;> rename_i e <;> rw [e] at g
    · split
      · exact g
      · exact .recog _ _ k.recog g
    · exact g
  · next i _ _ =>
    have g := takeInto_act k hm l i c h'
    split <;> rename_i e <;> rw [e] at g
    · split
      · exact completeHeading_act k _ _ g
      · have g' := Act.recog l (fun r => { r with heading := r.heading ++ [c] }) k.recog g
        split
        · exact completeHeading_act k _ _ g'
        · exact g'
    · exact g
  · exact takeInto_act k hm _ _ _ h'
  · exact h'

theorem releaseLookahead_act (hm : K .mem) (l : LineNo) (h : Act K s0 s) : Act K s0 (s.releaseLookahead l) := by
  have g : Act K s0 (s.updRecog l fun r => { r with lookahead := [], lineStart := false }) := .recog _ _ k.recog h
  unfold Part.releaseLookahead
  generalize (s.line l).recog.lookahead = cs
  generalize (s.updRecog l fun r => { r with lookahead := [], lineStart := false }) = u at g ⊢
  induction cs generalizing u with
  | nil => exact g
  | cons c cs ih => exact ih _ (takeText_act k hm l c g)

theorem takeLookahead_act (hm : K .mem) (l : LineNo) (c : Byte) (h : Act K s0 s) : Act K s0 (s.takeLookahead l c) := by
  unfold Part.takeLookahead; dsimp only
  split
  · exact goOutside_act k _ (closeStory_act k _ _ h)
  · split
    · exact openStory_act k _ (closeStory_act k _ _ h)
    · split
      · exact .recog _ _ k.recog h
      · exact releaseLookahead_act k hm _ (.recog _ _ k.recog h)

theorem insideChar_act (hm : K .mem) (l : LineNo) (c : Byte) (h : Act K s0 s) : Act K s0 (s.insideChar l c) := by
  have g := setCond_act k.sup k.list l .stall false (.recog l (fun r => { r with stallSince := some s.now }) k.recog h)
  unfold Part.insideChar; dsimp only; split
  · exact takeLookahead_act k hm _ _ g
  · exact takeText_act k hm _ _ g

theorem stallExpire_act (hm : K .mem) (l : LineNo) (h : Act K s0 s) : Act K s0 (s.stallExpire l) :=
  goOutside_act k _ (closeStory_act k _ _ (releaseLookahead_act k hm _ h))

end

/-! ### The offer register -/

theorem keysDiffer_map {es : List Entry} {f : Entry → Entry}
    (hf : ∀ e ∈ es, (f e).service = e.service ∧ (f e).serial = e.serial) (h : RegisterLaw es) :
    RegisterLaw (es.map f) := by
  refine ⟨by simpa using h.1, ?_⟩
  rw [List.pairwise_map]
  exact h.2.imp_of_mem fun {a b} ha hb n c => n (by
    rw [(hf a ha).1, (hf a ha).2, (hf b hb).1, (hf b hb).2] at c; exact c)

theorem earliest_mem {es : List Entry} {e : Entry} (h : earliest es = some e) : e ∈ es := by
  induction es generalizing e with
  | nil => cases h
  | cons x xs ih =>
    unfold earliest at h
    split at h
    · next f hf =>
      split at h <;> cases h
      · exact List.mem_cons_of_mem _ (ih hf)
      · exact List.mem_cons_self
    · cases h; exact List.mem_cons_self

theorem victim_mem {es : List Entry} {e : Entry} (h : victim es = some e) : e ∈ es := by
  unfold victim at h
  split at h
  · next f hf => cases h; exact List.mem_of_mem_filter (earliest_mem hf)
  · exact earliest_mem h

theorem earliest_none {es : List Entry} (h : earliest es = none) : es = [] := by
  cases es with
  | nil => rfl
  | cons e es => unfold earliest at h; split at h <;> (try split at h) <;> cases h

/-- An entry of a key that the register does not hold is placed within the law (R108 to R110). -/
theorem placeEntry_law {es : List Entry} {e : Entry} (h : RegisterLaw es)
    (n : ∀ x ∈ es, x.keysDiffer e) : RegisterLaw (placeEntry es e) := by
  unfold placeEntry
  split
  · next hl =>
    refine ⟨by simpa using hl, List.pairwise_append.2 ⟨h.2, List.pairwise_singleton _ _, ?_⟩⟩
    intro a ha b hb; rw [List.mem_singleton.1 hb]; exact n a ha
  · split
    · next v hv =>
      have hm := victim_mem hv
      have hlt : (es.filter fun x => !(x.hasKey v.service v.serial)).length < es.length := by
        refine List.length_filter_lt_length_iff_exists.2 ⟨v, hm, ?_⟩
        simp [Entry.hasKey]
      refine ⟨?_, List.pairwise_append.2 ⟨h.2.filter _, List.pairwise_singleton _ _, ?_⟩⟩
      · simp only [List.length_append, List.length_singleton]
        exact Nat.le_trans hlt h.1
      · intro a ha b hb; rw [List.mem_singleton.1 hb]; exact n a (List.mem_of_mem_filter ha)
    · exact ⟨by simp [Config.registerSize], List.pairwise_singleton _ _⟩

section
variable (hg : K .register)
include hg

theorem registerOffer_act (o : OfferFields) (h : Act K s0 s) : Act K s0 (s.registerOffer o) := by
  unfold Part.registerOffer; dsimp only
  generalize he : s.register.map (fun e =>
      if e.state = .live ∧ e.owner = o.owner ∧ (!(o.serial == some e.serial && o.service == e.service)) = true then
        { e with state := .withdrawn, heard := s.now, order := s.hearings } else e) = es
  have law : RegisterLaw s.register → RegisterLaw es := fun a => by
    rw [← he]; refine keysDiffer_map (fun e _ => ?_) a; split <;> exact ⟨rfl, rfl⟩
  split
  · exact .register _ law hg h
  · next n _ =>
    split
    · refine .register _ (fun a => keysDiffer_map (fun e _ => ?_) (law a)) hg h
      split
      · next k => simp only [Entry.hasKey, Bool.and_eq_true, beq_iff_eq] at k; exact ⟨k.1.symm, k.2.symm⟩
      · exact ⟨rfl, rfl⟩
    · next hk =>
      refine .register _ (fun a => placeEntry_law (law a) fun x hx c => hk ?_) hg h
      exact List.any_eq_true.2 ⟨x, hx, by simp only [Entry.hasKey, Bool.and_eq_true, beq_iff_eq]; exact c⟩

theorem registerFrame_act (o : Handle) {f : Entry → Entry}
    (hf : ∀ e, (f e).service = e.service ∧ (f e).serial = e.serial) (h : Act K s0 s) :
    Act K s0 (s.registerFrame o f) := by
  refine .register _ (fun a => keysDiffer_map (fun e _ => ?_) a) hg h
  split
  · exact hf e
  · exact ⟨rfl, rfl⟩

theorem ageEntry_act (n m : Nat) (h : Act K s0 s) : Act K s0 (s.ageEntry n m) := by
  refine .register _ (fun a => keysDiffer_map (fun e _ => ?_) a) hg h
  split <;> exact ⟨rfl, rfl⟩

end

section
variable (k : Assembles K)
include k

theorem endRerun_act (i : Slot) (h : Act K s0 s) : Act K s0 (s.endRerun i) :=
  .recent _ k.store (updIn_act k.record _ _ (.remove _ k.list h))

theorem yieldTo_act (i : Slot) (o : OfferFields) (h : Act K s0 s) : Act K s0 (s.yieldTo i o) :=
  standBehind_act k _ _ _ _ (.remove _ k.list h)

theorem recordHearsOffer_act (o : OfferFields) (i : Slot) (h : Act K s0 s) : Act K s0 (s.recordHearsOffer o i) := by
  unfold Part.recordHearsOffer; dsimp only; repeat' split
  all_goals first
    | exact h
    | exact yieldTo_act k _ _ h
    | exact endRerun_act k _ h
    | exact updIn_act k.record _ _ h
    | exact takeover_act k _ h

theorem hearOffer_act (hg : K .register) (o : OfferFields)
    (hn : ∀ n, o.serial = some n → 1 ≤ n ∧ n ≤ 9999) (h : Act K s0 s) : Act K s0 (s.hearOffer o) := by
  have g := registerOffer_act hg o h
  unfold Part.hearOffer; dsimp only
  have g' : Act K s0 (match o.serial with
      | some n => (s.registerOffer o).hearSerial o.service n o.owner o.rerun
      | none => s.registerOffer o) := by
    split
    · next n e => exact hearSerial_act k.trackers k.sup k.list _ _ (hn n e) _ _ g
    · exact g
  split
  · exact g'
  · exact forSlots_act (fun i s h => recordHearsOffer_act k o i h) _ g'

theorem hearStoryText_act (hg : K .register) (o : Handle) (n : Nat) (h : Act K s0 s) :
    Act K s0 (s.hearStoryText o n) := by
  refine forSlots_act (fun i s h => ?_) _ (registerFrame_act hg o (fun _ => ⟨rfl, rfl⟩) h)
  unfold Part.standbyText; split
  · exact updIn_act k.record _ _ h
  · exact h

theorem hearStoryClose_act (hg : K .register) (o : Handle) (h : Act K s0 s) : Act K s0 (s.hearStoryClose o) := by
  refine forSlots_act (fun i s h => ?_) _ (registerFrame_act hg o (fun _ => ⟨rfl, rfl⟩) h)
  unfold Part.standbyClose; repeat' split
  · exact goDiscarding_act k _ (freeTied_act k _ _ h)
  · exact free_act k _ h
  · exact h

theorem hearStoryWithdraw_act (hg : K .register) (o : Handle) (h : Act K s0 s) :
    Act K s0 (s.hearStoryWithdraw o) := by
  refine forSlots_act (fun i s h => ?_) _ (registerFrame_act hg o (fun _ => ⟨rfl, rfl⟩) h)
  unfold Part.standbyWithdraw; split
  · exact takeover_act k _ h
  · exact h

theorem silence20_act (i : Slot) (h : Act K s0 s) : Act K s0 (s.silence20 i) := by
  unfold Part.silence20; repeat' split
  · exact silentTakeover_act k _ (updIn_act k.record _ _ h)
  · exact h
  · exact h

theorem silence120_act (i : Slot) (h : Act K s0 s) : Act K s0 (s.silence120 i) := by
  unfold Part.silence120; repeat' split
  · exact takeover_act k _ h
  · exact h
  · exact h

theorem rerunStory_act (n m : Nat) (h : Act K s0 s) : Act K s0 (s.rerunStory n m) := by
  unfold Part.rerunStory; split
  · exact h
  · exact requestStory_act k.list _ _ (updIn_act k.record _ _ (.recent _ k.store h))

theorem storyClosed_act (i : Slot) (h : Act K s0 s) : Act K s0 (s.storyClosed i) := by
  unfold Part.storyClosed; dsimp only; split
  · exact .recent _ k.store (updIn_act k.record _ _ h)
  · exact endRerun_act k _ h
  · exact h

theorem textSent_act (i : Slot) (n : Nat) (h : Act K s0 s) : Act K s0 (s.textSent i n) :=
  requestNext_act k _ (updIn_act k.record _ _ h)

end

/-! ### The claim unit -/

/-- The kinds of change that claims, intakes and the sending of stories make. -/
structure Sends (K : Kind → Prop) : Prop where
  unit : K .unit
  sched : K .sched
  sup : K .sup
  list : K .list
  record : K .record
  store : K .store
  notices : K .notices
  groups : K .groups

section
variable (k : Sends K)
include k

theorem drop_act (i : Slot) (h : Act K s0 s) : Act K s0 (s.freeRecord i) :=
  freeRecord_act k.store k.list k.notices i h

theorem makeClaim_act (c : CallFields) (l : LineNo) (d : Nat) (h : Act K s0 s) : Act K s0 (s.makeClaim c l d) := by
  have g := findSlot_act k.store k.record k.list k.notices h
  unfold Part.makeClaim
  split
  · next t e => rw [e] at g; exact g
  · next t i e =>
    have n := findSlot_none e
    rw [e] at g
    have g' := reserve_act k.store k.record k.list k.notices i (boundBlocks (s.cfg l) c.chars)
      (.alloc i (claimRecord c l d s.now) n rfl rfl k.store g)
    split <;> rename_i e' <;> rw [e'] at g'
    · exact .add _ k.list g'
    · exact drop_act k _ g'

theorem hearCall_act (c : CallFields) (h : Act K s0 s) : Act K s0 (s.hearCall c) := by
  unfold Part.hearCall; repeat' split
  · exact h
  · exact makeClaim_act k _ _ _ h
  · exact h

theorem endClaim_act (i : Slot) (e : ClaimEnding) (h : Act K s0 s) : Act K s0 (s.endClaim i e) := by
  unfold Part.endClaim; split
  · exact h
  · split
    · split
      · exact updOut_act k.record _ (fun _ => rfl) h
      · exact drop_act k _ h
    · exact h

theorem endClaims_act (l : LineNo) (e : ClaimEnding) (h : Act K s0 s) : Act K s0 (s.endClaims l e) := by
  refine forSlots_act (fun i s h => ?_) _ h
  split
  · exact endClaim_act k _ _ h
  · exact h

theorem hearClaim_act (n c m : Nat) (h : Act K s0 s) : Act K s0 (s.hearClaim n c m) := by
  unfold Part.hearClaim Part.standDown; repeat' split
  all_goals first | exact h | exact drop_act k _ h

theorem abortIntake_act (i : Slot) (h : Act K s0 s) : Act K s0 (s.abortIntake i) :=
  requestCall_act k.list _ _ (updOut_act k.record _ (fun _ => rfl) h)

theorem enterIntake_act (i : Slot) (h : Act K s0 s) : Act K s0 (s.enterIntake i) :=
  updOut_act k.record _ (fun _ => rfl) h

theorem claimSent_act (i : Slot) (h : Act K s0 s) : Act K s0 (s.claimSent i) := by
  have g := enterIntake_act k i h
  unfold Part.claimSent; repeat' split
  · exact h
  · exact abortIntake_act k _ g
  · exact drop_act k _ g
  · exact g
  · exact g

theorem claimNotSent_act (i : Slot) (h : Act K s0 s) : Act K s0 (s.claimNotSent i) := by
  unfold Part.claimNotSent; repeat' split
  · exact h
  · exact drop_act k _ h
  · exact h

theorem takeChars_act (hm : K .mem) (i : Slot) (l : LineNo) (cs : List Byte) (h : Act K s0 s) : Act K s0 (takeChars i l cs s) := by
  induction cs generalizing s with
  | nil => exact h
  | cons c cs ih =>
    unfold takeChars
    split
    · exact h
    · next q _ =>
      have g := takeChar_act hm k.record k.store k.list k.notices k.sup i l
        { plane := q.plane, column := q.column } q.expected c h
      split <;> rename_i e <;> rw [e] at g
      · exact ih (updOut_act k.record _ (fun _ => rfl) g)
      · exact abortIntake_act k _ g
      · exact abortIntake_act k _ g

theorem intakeText_act (hm : K .mem) (i : Slot) (o : Nat) (cs : List Byte) (h : Act K s0 s) : Act K s0 (s.intakeText i o cs) := by
  unfold Part.intakeText; dsimp only; repeat' split
  · exact h
  · exact h
  · exact abortIntake_act k _ (updOut_act k.record _ (fun _ => rfl) h)
  · exact takeChars_act k hm _ _ _ (updOut_act k.record _ (fun _ => rfl) h)
  · exact h

theorem queueStory_act (i : Slot) (l : LineNo) (h : Act K s0 s) : Act K s0 (s.queueStory i l) :=
  settleLines_act k.sched k.record k.list k.groups k.unit _ (.sched _ _ k.sched
    (updOut_act k.record _ (fun _ => rfl) (returnSurplus_act k.store k.list k.notices i h)))

theorem intakeClose_act (hm : K .mem) (i : Slot) (n : Nat) (h : Act K s0 s) : Act K s0 (s.intakeClose i n) := by
  unfold Part.intakeClose
  split
  · exact h
  · split
    · next x l _ _ =>
      split
      · exact h
      · next q _ =>
        split
        · have g := closingShift_act hm k.record k.store k.list k.notices k.sup i l
            { plane := q.plane, column := q.column } q.expected h
          split <;> rename_i e <;> rw [e] at g
          · exact queueStory_act k _ _ g
          · exact abortIntake_act k _ g
          · exact abortIntake_act k _ g
        · exact abortIntake_act k _ h
    · exact h

theorem callerWithdraws_act (i : Slot) (h : Act K s0 s) : Act K s0 (s.callerWithdraws i) := by
  unfold Part.callerWithdraws; repeat' split
  all_goals first | exact h | exact endClaim_act k _ _ h | exact drop_act k _ h

theorem restartClaims_act (l : LineNo) (h : Act K s0 s) : Act K s0 (s.restartClaims l) := by
  refine forSlots_act (fun i s h => ?_) _ (endClaims_act k _ _ h)
  repeat' split
  all_goals first | exact h | exact abortIntake_act k _ h

theorem claimExpires_act (i : Slot) (h : Act K s0 s) : Act K s0 (s.claimExpires i) := by
  unfold Part.claimExpires; repeat' split
  · exact endClaim_act k _ _ h
  · exact h
  · exact h

theorem intakeExpires_act (i : Slot) (h : Act K s0 s) : Act K s0 (s.intakeExpires i) := by
  unfold Part.intakeExpires; repeat' split
  · exact abortIntake_act k _ h
  · exact h
  · exact h

end

end Sys2Proof.Machine
end

