-- ==== Sys2Proof/Laws/ActCommands.lean ====
section
/-! SUPPORT. The line unit, the bus port and the orders as elementary changes (Laws/Act.lean), and with
them every command but those of the loader. -/

namespace Sys2Proof.Machine

variable {K : Kind → Prop} {s0 s : Part}

/-- The kinds of change that a line makes. -/
structure Lines (K : Kind → Prop) : Prop extends Assembles K, Sends K where
  plane : K .plane

section
variable (k : Lines K)
include k

theorem startResend_act (l : LineNo) (h : Act K s0 s) : Act K s0 (s.startResend l) := by
  unfold Part.startResend; dsimp only; repeat' split
  · exact h
  · exact beginCode_act k.unit _ _ _ (.unit _ _ k.unit h)
  · exact h

theorem startGenerator_act (l : LineNo) (h : Act K s0 s) : Act K s0 (s.startGenerator l) := by
  unfold Part.startGenerator; dsimp only; split
  · exact beginCode_act k.unit _ _ _ (.sup _ _ (fun _ h => h) k.sup h)
  · exact h

theorem pump_act (l : LineNo) (h : Act K s0 s) : Act K s0 (s.pump l) := by
  unfold Part.pump; split
  · exact offerCode_act k.unit _ h
  · exact startResend_act k _ h
  · exact startGenerator_act k _ h
  · exact h
  · exact h

theorem codeSent_act (l : LineNo) (h : Act K s0 s) : Act K s0 (s.codeSent l) := by
  unfold Part.codeSent; dsimp only; split
  · exact h
  · have g := Act.unit l (fun x => { x with out := none }) k.unit h
    refine pump_act k _ ?_
    split
    · have g' := Act.unit l (fun x => { x with lastReport := some .sent }) k.unit g
      split
      · exact reportSent_act k.sched k.record k.list k.groups k.unit _ g'
      · exact g'
    · exact g

theorem lineStop_act (l : LineNo) (c : StopCause) (h : Act K s0 s) : Act K s0 (s.stop l c) :=
  stop_act k.sched k.record k.list k.unit l c h

theorem cond_act (l : LineNo) (c : Condition) (b : Bool) (h : Act K s0 s) : Act K s0 (s.setCond l c b) :=
  setCond_act k.sup k.list l c b h

theorem moveLine_act (l : LineNo) (x : LineState) (h : Act K s0 s) : Act K s0 (s.moveLine l x) := by
  unfold Part.moveLine Part.clearRuns
  exact .sup _ _ (fun _ h => h) k.sup (.unit _ _ k.unit h)

theorem enterLoop_act (l : LineNo) (h : Act K s0 s) : Act K s0 (s.enterLoop l) :=
  cond_act k _ _ _ (.recog _ _ k.recog (moveLine_act k _ _ (endClaims_act k.toSends _ _ (lineStop_act k _ _ h))))

theorem exitLoop_act (l : LineNo) (h : Act K s0 s) : Act K s0 (s.exitLoop l) := by
  unfold Part.exitLoop Part.restartMarkRun
  exact .unit _ _ k.unit (cond_act k _ _ _ (moveLine_act k _ _ h))

theorem loopChar_act (l : LineNo) (c : Byte) (h : Act K s0 s) : Act K s0 (s.loopChar l c) := by
  unfold Part.loopChar; dsimp only; split
  · split
    · split
      · exact enterLoop_act k _ h
      · exact .sup _ _ (fun _ h => h) k.sup h
    · exact h
  · split
    · split
      · exact exitLoop_act k _ h
      · exact .sup _ _ (fun _ h => h) k.sup h
    · exact h
  · exact h

theorem recogChar_act (hm : K .mem) (l : LineNo) (c : Byte) (h : Act K s0 s) : Act K s0 (s.recogChar l c) := by
  unfold Part.recogChar; dsimp only; split
  · exact loopChar_act k _ _ h
  · split
    · split
      · exact openStory_act k.toAssembles _ h
      · exact loopChar_act k _ _ (.recog _ _ k.recog h)
    · exact insideChar_act k.toAssembles hm _ _ h

theorem takeCode_act (hm : K .mem) (l : LineNo) (c : Code) (b : Bool) (h : Act K s0 s) : Act K s0 (s.takeCode l c b) := by
  have g := decode_act k.record k.sched k.plane k.sup k.list l c b h
  unfold Part.takeCode; dsimp only
  have g' : Act K s0 (if ((s.decode l c b).1.line l).sched.answerBack = (s.line l).sched.answerBack then
      (s.decode l c b).1 else (s.decode l c b).1.settleLines [l]) := by
    split
    · exact g
    · exact settleLines_act k.sched k.record k.list k.groups k.unit _ g
  split
  · exact recogChar_act k hm _ _ g'
  · exact g'

theorem appendResend_act (l : LineNo) (c : Code) (h : Act K s0 s) : Act K s0 (s.appendResend l c) :=
  startResend_act k _ (.unit _ _ k.unit h)

theorem handOn_act (hm : K .mem) (l : LineNo) (c : Code) (b : Bool) (h : Act K s0 s) : Act K s0 (s.handOn l c b) := by
  have g : Act K s0 (s.framingOccurs l b) := by
    unfold Part.framingOccurs; split
    · exact occur_act k.sup k.list _ _ h
    · exact h
  unfold Part.handOn; split
  · exact takeCode_act k hm _ _ _ g
  · exact takeCode_act k hm _ _ _ (appendResend_act k _ _ g)
  · exact checkCode_act k.sup k.list _ _ g
  · exact h
  · exact h

omit k in
theorem toSpace_act (hx : K .rx) (hu : K .unit) (l : LineNo) (h : Act K s0 s) : Act K s0 (s.toSpace l) := by
  have g := Act.rx l false hx h
  unfold Part.toSpace; dsimp only; repeat' split
  all_goals first | exact h | exact g | exact .unit _ _ hu g | exact .unit _ _ hu (.unit _ _ hu g)

theorem toMark_act (hm : K .mem) (hx : K .rx) (l : LineNo) (h : Act K s0 s) : Act K s0 (s.toMark l) := by
  have g := Act.rx l true hx h
  unfold Part.toMark; dsimp only; split
  · exact h
  · split
    · refine cond_act k _ _ _ ?_
      split
      · exact handOn_act k hm _ _ _ (.unit _ _ k.unit g)
      · exact .unit _ _ k.unit g
    · exact g

omit k in
theorem checkStart_act (hu : K .unit) (l : LineNo) (h : Act K s0 s) : Act K s0 (s.checkStart l) := by
  unfold Part.checkStart; repeat' split
  all_goals first | exact h | exact .unit _ _ hu h

omit k in
theorem sampleData_act (hu : K .unit) (l : LineNo) (h : Act K s0 s) : Act K s0 (s.sampleData l) := by
  unfold Part.sampleData; split
  · exact .unit _ _ hu h
  · exact h

theorem sampleStop_act (hm : K .mem) (l : LineNo) (h : Act K s0 s) : Act K s0 (s.sampleStop l) := by
  unfold Part.sampleStop; dsimp only; repeat' split
  · exact handOn_act k hm _ _ _ (.unit _ _ k.unit h)
  · exact .unit _ _ k.unit h
  · exact handOn_act k hm _ _ _ (.unit _ _ k.unit h)
  · exact h

theorem raiseBreak_act (l : LineNo) (h : Act K s0 s) : Act K s0 (s.raiseBreak l) := by
  unfold Part.raiseBreak; dsimp only; split
  · have g := cond_act k l .brk true (.unit l (fun x => { x with held := false }) k.unit h)
    refine endClaims_act k.toSends _ _ ?_
    split
    · exact lineStop_act k _ _ g
    · exact g
  · exact h

theorem checkerOut_act (l : LineNo) (h : Act K s0 s) : Act K s0 (s.checkerOut l) :=
  cond_act k _ _ _ (.sup _ _ (fun _ h => h) k.sup h)

theorem raiseLineOpen_act (l : LineNo) (h : Act K s0 s) : Act K s0 (s.raiseLineOpen l) := by
  unfold Part.raiseLineOpen; dsimp only; split
  · have g := cond_act k l .lineOpen true h
    refine lineCause_act k.toAssembles _ (endClaims_act k.toSends _ _ ?_)
    split
    · exact lineStop_act k _ _ g
    · exact exitLoop_act k _ g
    · exact checkerOut_act k _ g
    · exact g
  · exact h

theorem lowerLineOpen_act (l : LineNo) (h : Act K s0 s) : Act K s0 (s.lowerLineOpen l) := by
  unfold Part.lowerLineOpen; split
  · exact cond_act k _ _ _ (.unit _ _ k.unit h)
  · exact h

theorem giveReady_act (l : LineNo) (h : Act K s0 s) : Act K s0 (s.giveReady l) := by
  have g := Act.unit l (fun x => { x with awaitReady := false }) k.unit h
  unfold Part.giveReady; dsimp only; repeat' split
  · exact schedReady_act k.sched k.record k.list k.groups k.unit _ g
  · exact g
  · exact h

theorem leaveFor_act (l : LineNo) (x : LineState) (h : Act K s0 s) : Act K s0 (s.leaveFor l x) := by
  have g := moveLine_act k l x h
  unfold Part.leaveFor; dsimp only; split
  · exact cond_act k _ _ _ g
  · exact checkerOut_act k _ (.sup _ _ (fun _ h => h) k.sup g)
  · exact g

theorem lineOut_act (l : LineNo) (h : Act K s0 s) : Act K s0 (s.lineOut l) := by
  have g := lineCause_act k.toAssembles l (endClaims_act k.toSends l .withdraw
    (leaveFor_act k l .outOfService (lineStop_act k l .lineOut h)))
  unfold Part.lineOut; repeat' split
  all_goals first | exact h | exact g

theorem lineIn_act (l : LineNo) (h : Act K s0 s) : Act K s0 (s.lineIn l) := by
  unfold Part.lineIn; split
  · exact .unit _ _ k.unit (.plane _ _ k.plane (moveLine_act k _ _ h))
  · exact h

omit k in
theorem restarted_bounded (x : Supervision) (_ : x.Bounded) : x.restarted.Bounded := by
  refine ⟨Nat.zero_le _, Nat.zero_le _, fun j r hj => ?_⟩
  have : (Vector.replicate 8 (none : Option FaultRecord)).get j = none := by
    show (Vector.replicate 8 none)[j.val] = none
    simp
  simp only [Supervision.restarted, this] at hj
  cases hj

theorem lineRestart_act (l : LineNo) (h : Act K s0 s) : Act K s0 (s.lineRestart l) := by
  unfold Part.lineRestart; dsimp only; split
  · have g := restartClaims_act k.toSends l (lineCause_act k.toAssembles l
      (.plane l .ltrs k.plane (.unit l (fun x => x.restarted (s.mark l) s.now) k.unit (lineStop_act k l .lineRestart h))))
    unfold Part.restartSupervision
    refine followGap_act k.sup k.list _ ?_
    have g' := Act.remove (.report l) k.list (.sup l Supervision.restarted (fun x hx => restarted_bounded x hx) k.sup g)
    generalize allConditions = cs
    revert g'
    generalize ((((((s.stop l .lineRestart).updUnit l fun x => x.restarted (s.mark l) s.now).setPlane l
      Plane.ltrs).lineCause l).restartClaims l).updSup l Supervision.restarted).removeRequest (.report l) = u
    intro g'
    induction cs generalizing u with
    | nil => exact g'
    | cons c cs ih => exact ih _ (cond_act k l c false g')
  · exact h

theorem seedTest_act (l : LineNo) (h : Act K s0 s) : Act K s0 (s.seedTest l) := .sup _ _ (fun _ h => h) k.sup h

theorem testStart_act (l : LineNo) (h : Act K s0 s) : Act K s0 (s.testStart l) := by
  have g {t : Part} (h : Act K s0 t) : Act K s0 (((t.leaveFor l .test).seedTest l).startGenerator l) :=
    startGenerator_act k _ (seedTest_act k _ (leaveFor_act k _ _ h))
  unfold Part.testStart; repeat' split
  · exact g (endClaims_act k.toSends _ _ (lineStop_act k _ _ h))
  all_goals first | exact g h | exact h

theorem testStop_act (l : LineNo) (h : Act K s0 s) : Act K s0 (s.testStop l) := by
  unfold Part.testStop; split
  · exact .unit _ _ k.unit (.unit _ _ k.unit (leaveFor_act k _ _ h))
  · exact h

theorem insertError_act (l : LineNo) (h : Act K s0 s) : Act K s0 (s.insertError l) := by
  unfold Part.insertError; split
  · exact .sup _ _ (fun _ h => h) k.sup h
  · exact h

end

/-! ### The bus port -/

/-- Every kind of change that a running station makes but those of a receive input and of the report
period. -/
structure Ports (K : Kind → Prop) : Prop extends Lines K where
  port : K .port
  register : K .register
  hearing : K .hearing

theorem reportBegun_bounded (x : Supervision) (h : x.Bounded) : x.reportBegun.Bounded := by
  refine ⟨h.1, h.2.1, fun j r hj => ?_⟩
  simp only [Supervision.reportBegun] at hj
  split at hj
  · have e : (clearMarks x.faults).get j = (x.faults.get j).map fun x => { x with changed := false } := by
      show (x.faults.map _)[j.val] = _
      simp only [Vector.getElem_map]; rfl
    rw [e] at hj
    cases hf : x.faults.get j with
    | none => rw [hf] at hj; cases hj
    | some r' => rw [hf] at hj; cases hj; exact h.2.2 j r' hf
  · exact h.2.2 j r hj

theorem reportSent_bounded (a b : Byte) (x : Supervision) (h : x.Bounded) : (x.reportSent a b).Bounded := by
  refine ⟨h.1, h.2.1, fun j r hj => ?_⟩
  simp only [Supervision.reportSent] at hj
  split at hj
  · have e : (clearSent b x.faults).get j = (match x.faults.get j with
        | some r => if b.getLsbD j.val && !r.changed then none else some r
        | none => none) := by
      show (Vector.ofFn _)[j.val] = _
      exact Vector.getElem_ofFn _
    rw [e] at hj
    cases hf : x.faults.get j with
    | none => rw [hf] at hj; cases hj
    | some r' =>
      rw [hf] at hj; dsimp only at hj
      split at hj <;> cases hj
      exact h.2.2 j r hf
  · exact h.2.2 j r hj

theorem serveBus_act (hp : K .port) (hs : K .sup) (h : Act K s0 s) : Act K s0 s.serveBus := by
  have g (q : Request) : Act K s0 (s.beginFrame q) := by
    unfold Part.beginFrame Part.ownerBegins
    have g := Act.port (fun p => { p with state := .contending, own := some { owner := q.owner, frame := s.frameOf q, began := s.now, removed := false } })
      (fun p => ⟨rfl, fun h => h⟩) hp h
    split
    · exact .sup _ _ reportBegun_bounded hs g
    · exact g
  unfold Part.serveBus; repeat' split
  · exact g _
  · exact h
  · exact h

theorem frameEnds_act (hp : K .port) (h : Act K s0 s) : Act K s0 s.frameEnds :=
  .port _ (fun _ => ⟨rfl, fun h => h⟩) hp h

theorem heard_act (hp : K .port) (hh : K .hearing) (h : Act K s0 s) : Act K s0 s.heard :=
  .hearing hh (frameEnds_act hp h)

theorem hear_act (hp : K .port) (hh : K .hearing) {f : Part → Part} (hf : ∀ s, Act K s0 s → Act K s0 (f s))
    (h : Act K s0 s) : Act K s0 (s.hear f) := by
  have g := frameEnds_act hp h
  unfold Part.hear; repeat' split
  · exact h
  · exact g
  · exact hf _ (heard_act hp hh h)

theorem whileRunning_act (x : Heard) {f : Part → Part} (hf : ∀ s, Act K s0 s → Act K s0 (f s))
    (h : Act K s0 s) : Act K s0 (s.whileRunning x f) := by
  unfold Part.whileRunning; split
  · exact hf s h
  · exact h

theorem hearRunning_act (hp : K .port) (hh : K .hearing) (x : Heard) {f : Part → Part}
    (hf : ∀ s, Act K s0 s → Act K s0 (f s)) (h : Act K s0 s) : Act K s0 (s.hearRunning x f) :=
  hear_act hp hh (fun _ h => whileRunning_act x hf h) h

theorem live_act {t : Part} (h : Act K s0 s) (g : Act K s0 t) : Act K s0 (s.live t) := by
  unfold Part.live; split
  · exact h
  · exact g

theorem busFreed_act (hp : K .port) (h : Act K s0 s) : Act K s0 s.busFreed := by
  unfold Part.busFreed; split
  · exact .port _ (fun _ => ⟨rfl, fun h => h⟩) hp h
  · exact h

theorem startBit_act (hp : K .port) (h : Act K s0 s) : Act K s0 s.startBit := by
  unfold Part.startBit; split
  · exact .port _ (fun _ => ⟨rfl, fun h => h⟩) hp h
  · exact h

theorem judgeFrame_act (hp : K .port) (b : List Byte) (h : Act K s0 s) : Act K s0 (s.judgeFrame b) := by
  unfold Part.judgeFrame; split
  · exact .port _ (fun _ => ⟨rfl, fun h => h⟩) hp h
  · exact h

theorem spoiledFrame_act (hp : K .port) (h : Act K s0 s) : Act K s0 s.spoiledFrame := by
  unfold Part.spoiledFrame; split
  · exact frameEnds_act hp h
  · exact h

section
variable (k : Ports K)
include k

theorem callHeard_act (f : Heard) (h : Act K s0 s) : Act K s0 (s.callHeard f) := by
  unfold Part.callHeard; split
  · exact hearCall_act k.toSends _ h
  · exact h

theorem claimHeard_act (f : Heard) (h : Act K s0 s) : Act K s0 (s.claimHeard f) := by
  unfold Part.claimHeard; split
  · exact hearClaim_act k.toSends _ _ _ h
  · exact h

omit k in
/-- A serial that a heard OFFER carries is 1 to 9999 (R189). -/
theorem readOffer_serial {f : Heard} {o : OfferFields} (e : readOffer f = some o) (n : Nat) (hn : o.serial = some n) :
    1 ≤ n ∧ n ≤ 9999 := by
  unfold readOffer at e
  split at e
  · split at e
    · next hc =>
      cases e
      simp only at hn
      split at hn
      · cases hn
      · cases hn; omega
    · cases e
  · cases e

theorem offerHeard_act (f : Heard) (h : Act K s0 s) : Act K s0 (s.offerHeard f) := by
  unfold Part.offerHeard; split
  · next o e => exact hearOffer_act k.toAssembles k.register _ (readOffer_serial e) h
  · exact h

theorem storyTextHeard_act (f : Heard) (h : Act K s0 s) : Act K s0 (s.storyTextHeard f) := by
  unfold Part.storyTextHeard; split
  · exact hearStoryText_act k.toAssembles k.register _ _ h
  · exact h

theorem storyCloseHeard_act (f : Heard) (h : Act K s0 s) : Act K s0 (s.storyCloseHeard f) := by
  unfold Part.storyCloseHeard; split
  · exact hearStoryClose_act k.toAssembles k.register _ h
  · exact h

theorem storyWithdrawHeard_act (f : Heard) (h : Act K s0 s) : Act K s0 (s.storyWithdrawHeard f) := by
  unfold Part.storyWithdrawHeard; split
  · exact hearStoryWithdraw_act k.toAssembles k.register _ h
  · exact h

omit k in
theorem fromCaller_act (f : Heard) (c n : Nat) {g : Slot → Part} (hg : ∀ i, Act K s0 (g i)) (h : Act K s0 s) :
    Act K s0 (s.fromCaller f c n g) := by
  unfold Part.fromCaller; repeat' split
  · exact hg _
  · exact h
  · exact h

theorem callTextHeard_act (hm : K .mem) (f : Heard) (h : Act K s0 s) : Act K s0 (s.callTextHeard f) := by
  unfold Part.callTextHeard; split
  · exact fromCaller_act _ _ _ (fun i => intakeText_act k.toSends hm i _ _ h) h
  · exact h

theorem callCloseHeard_act (hm : K .mem) (f : Heard) (h : Act K s0 s) : Act K s0 (s.callCloseHeard f) := by
  unfold Part.callCloseHeard; split
  · exact fromCaller_act _ _ _ (fun i => intakeClose_act k.toSends hm i _ h) h
  · exact h

theorem callWithdrawHeard_act (f : Heard) (h : Act K s0 s) : Act K s0 (s.callWithdrawHeard f) := by
  unfold Part.callWithdrawHeard; split
  · exact fromCaller_act _ _ _ (fun i => callerWithdraws_act k.toSends i h) h
  · exact h

theorem ownHeard_act (hm : K .mem) (f : Frame) (h : Act K s0 s) : Act K s0 (s.ownHeard f) := by
  refine whileRunning_act _ (fun s h => ?_) (heard_act k.port k.hearing h)
  split
  · exact offerHeard_act k _ h
  · exact claimHeard_act k _ h
  · exact storyTextHeard_act k _ h
  · split
    · exact callCloseHeard_act k hm _ h
    · exact storyCloseHeard_act k _ h
  · split
    · exact callWithdrawHeard_act k _ h
    · exact storyWithdrawHeard_act k _ h
  all_goals exact h

theorem recordFrameSent_act (i : Slot) (f : Frame) (h : Act K s0 s) : Act K s0 (s.recordFrameSent i f) := by
  unfold Part.recordFrameSent; repeat' split
  all_goals first
    | exact h
    | exact requestNext_act k.toAssembles _ h
    | exact textSent_act k.toAssembles _ _ h
    | exact storyClosed_act k.toAssembles _ h
    | exact claimSent_act k.toSends _ h
    | exact drop_act k.toSends _ h

theorem ownerSent_act (o : Owner) (f : Frame) (h : Act K s0 s) : Act K s0 (s.ownerSent o f) := by
  unfold Part.ownerSent; split
  · exact recordFrameSent_act k _ _ h
  · next l =>
    have g (b : BitVec 8) := Act.sup l (fun x => { x with changed := x.changed &&& ~~~b }) (fun _ h => h) k.sup h
    unfold Part.conditionSent; dsimp only; split
    · exact g _
    · exact .add _ k.list (g _)
  · next l =>
    have g (a b : Byte) := Act.sup l (fun x => x.reportSent a b) (reportSent_bounded a b) k.sup h
    unfold Part.reportNoticeSent; dsimp only; split
    · exact .add _ k.list (g _ _)
    · exact g _ _
  · have g (a b : BitVec 8) := Act.notices
      { s.notices with changed := s.notices.changed &&& ~~~a, events := s.notices.events &&& ~~~b } (fun h => h) k.notices h
    unfold Part.stationSent; dsimp only; split
    · exact g _ _
    · exact .add _ k.list (g _ _)

theorem ownerNotSent_act (o : Owner) (q : FrameKind) (h : Act K s0 s) : Act K s0 (s.ownerNotSent o q) := by
  unfold Part.ownerNotSent; split
  · exact claimNotSent_act k.toSends _ h
  · exact h

theorem countSpoil_act (o : Owner) (h : Act K s0 s) : Act K s0 (s.countSpoil o) := by
  have g := Act.port (fun p => { p with sticky := some o, spoilCount := satSucc 8 s.port.spoilCount })
    (fun p => ⟨rfl, fun _ => Nat.min_le_left _ _⟩) k.port h
  unfold Part.countSpoil; dsimp only; split
  · exact .port _ (fun _ => ⟨rfl, fun h => h⟩) k.port (setStationCond_act k.notices k.list _ _ g)
  · exact g

theorem ownSlot_act (hm : K .mem) (b : Bool) (h : Act K s0 s) : Act K s0 (s.ownSlot b) := by
  have g := Act.port (fun p => { p with state := .wait, own := none, rejecting := false })
    (fun p => ⟨rfl, fun h => h⟩) k.port h
  unfold Part.ownSlot; dsimp only; split
  · split
    · exact g
    · split
      · exact ownerNotSent_act k _ _ (countSpoil_act k _ g)
      · exact ownHeard_act k hm _ (ownerSent_act k _ _ (.port _ (fun _ => ⟨rfl, fun _ => Nat.zero_le _⟩) k.port
          (.drop _ k.list g)))
  · exact h

theorem loseArbitration_act (h : Act K s0 s) : Act K s0 s.loseArbitration := by
  have g := Act.port (fun p => { p with state := .receiving, rejecting := false, own := none })
    (fun p => ⟨rfl, fun h => h⟩) k.port h
  unfold Part.loseArbitration; dsimp only; repeat' split
  · exact g
  · exact ownerNotSent_act k _ _ g
  · exact h

theorem silenceEnds_act (h : Act K s0 s) : Act K s0 s.silenceEnds := by
  unfold Part.silenceEnds; split
  · exact stationEvent_act k.notices k.list _ (stationChanged_act k.notices k.list _ (putStationLevel_act k.notices _ _
      (.port _ (fun _ => ⟨rfl, fun _ => Nat.zero_le _⟩) k.port h)))
  · exact h

/-! ### Orders -/

theorem refuse_act (c n : Nat) (h : Act K s0 s) : Act K s0 (s.refuse c n) :=
  stationEvent_act k.notices k.list _ (.notices _ (fun _ => Nat.min_le_left _ _) k.notices h)

theorem orderTaken_act (n : OrderForm) (o : Order) {f : Part → Part} (hf : ∀ s, Act K s0 s → Act K s0 (f s))
    (h : Act K s0 s) : Act K s0 (s.orderTaken n o f) := by
  refine hear_act k.port k.hearing (fun s h => ?_) h
  split
  · exact hf s h
  · exact h

theorem supervisoryOrder_act (c : Nat) (n : OrderForm) (o : Order) {f : Part → Part} (hf : ∀ s, Act K s0 s → Act K s0 (f s))
    (h : Act K s0 s) : Act K s0 (s.supervisoryOrder c n o f) := by
  refine orderTaken_act k n o (fun s h => ?_) h
  repeat' split
  · exact hf s h
  · exact refuse_act k _ _ h
  · exact h

theorem openOrder_act (n : OrderForm) (o : Order) {f : Part → Part} (hf : ∀ s, Act K s0 s → Act K s0 (f s))
    (h : Act K s0 s) : Act K s0 (s.openOrder n o f) := by
  refine orderTaken_act k n o (fun s h => ?_) h
  split
  · exact hf s h
  · exact h

theorem countTransfer_act (l : LineNo) (h : Act K s0 s) : Act K s0 (s.countTransfer l) := by
  unfold Part.countTransfer; split
  · exact transfer_act k.sup k.list _ h
  · exact h

theorem takeQuery_act (l : LineNo) (b : Bool) (h : Act K s0 s) : Act K s0 (s.takeQuery l b) := by
  unfold Part.takeQuery; split
  · exact queryLine_act k.sup k.list _ _ h
  · exact h

theorem releaseGroup_act (o : Order) (h : Act K s0 s) : Act K s0 (s.releaseGroup o) := by
  unfold Part.releaseGroup; split
  · exact settleLines_act k.sched k.record k.list k.groups k.unit _ (.groups _ _ k.groups h)
  · exact h

theorem reholdGroup_act (o : Order) (h : Act K s0 s) : Act K s0 (s.reholdGroup o) := by
  unfold Part.reholdGroup; split
  · exact .groups _ _ k.groups h
  · exact h

theorem rerunOrder_act (o : Order) (h : Act K s0 s) : Act K s0 (s.rerunOrder o) := by
  unfold Part.rerunOrder; split
  · exact rerunStory_act k.toAssembles _ _ h
  · exact h

end

/-! ### The commands -/

theorem reportPeriod_act (hp : K .period) (hs : K .sup) (hl : K .list) (h : Act K s0 s) :
    Act K s0 s.reportPeriod := by
  unfold Part.reportPeriod; split
  · refine forLines_act (fun l s h => ?_) _ (.period _ hp h)
    split
    · exact transfer_act hs hl _ h
    · exact h
  · exact h

/-- Every command of a running station answers a next state that elementary changes reach, and leaves the
queue alone; a cell of the copy store is written by some of them only. -/
theorem exec_act (K : Kind → Prop) (k : Ports K) (hx : K .rx) (hp : K .period) (c : Instr) (s : State)
    (hc : ofLoader c = false) (hm : writesEntries c = true → K .mem) :
    ∃ t, exec c s = .next { s with toPart := t } ∧ Act K s.toPart t := by
  have r : Act K s.toPart s.toPart := .refl
  have b {t : Part} (h : Act K s.toPart t) :
      ∃ u, complete s t = .next { s with toPart := u } ∧ Act K s.toPart u :=
    ⟨_, rfl, serveBus_act k.port k.sup h⟩
  have d {t : Part} (h : Act K s.toPart t) :
      ∃ u, done s t = .next { s with toPart := u } ∧ Act K s.toPart u := ⟨_, rfl, h⟩
  have v {t : Part} (h : Act K s.toPart t) : Act K s.toPart (s.toPart.live t) :=
    live_act r h
  cases c with
  | powerOn _ | resetAssert | resetRelease _ | configReadComplete _ | configFaultRepeat
  | stationRestart _ _ | powerFail => cases hc
  | rxMarkToSpace l => exact d (toSpace_act hx k.unit l r)
  | rxSpaceToMark l => exact b (toMark_act k.toLines (hm rfl) hx l r)
  | receivedCode l => exact b (sampleStop_act k.toLines (hm rfl) l r)
  | breakRise l => exact b (raiseBreak_act k.toLines l r)
  | lineOpenRise l => exact b (raiseLineOpen_act k.toLines l r)
  | lineOpenFall l => exact b (lowerLineOpen_act k.toLines l r)
  | ready l => exact b (giveReady_act k.toLines l r)
  | codeSent l =>
    refine b ?_
    split
    · exact codeSent_act k.toLines l r
    · exact r
  | stallRise l =>
    refine b ?_
    split
    · exact cond_act k.toLines l _ _ r
    · exact r
  | stallExpiry l =>
    refine b ?_
    split
    · exact stallExpire_act k.toAssembles (hm rfl) l r
    · exact r
  | entryAged n m => exact d (ageEntry_act k.register n m r)
  | peerSilence20s i => exact b (silence20_act k.toAssembles i r)
  | peerSilence120s i => exact b (silence120_act k.toAssembles i r)
  | claimPendingExpiry i => exact b (claimExpires_act k.toSends i r)
  | intakeSilenceExpiry i => exact b (intakeExpires_act k.toSends i r)
  | reportPeriodExpiry => exact b (reportPeriod_act hp k.sup k.list r)
  | busFree => exact b (v (busFreed_act k.port r))
  | frameCheck x => exact d (v (judgeFrame_act k.port x r))
  | ownFrameSpoilSlot x => exact b (v (ownSlot_act k (hm rfl) x r))
  | busSilentExpiry => exact b (v (silenceEnds_act k r))
  | heardCall f => exact b (v (hearRunning_act k.port k.hearing f (fun _ h => callHeard_act k f h) r))
  | heardClaim f => exact b (v (hearRunning_act k.port k.hearing f (fun _ h => claimHeard_act k f h) r))
  | heardOffer f => exact b (v (hearRunning_act k.port k.hearing f (fun _ h => offerHeard_act k f h) r))
  | heardTextStory f => exact b (v (hearRunning_act k.port k.hearing f (fun _ h => storyTextHeard_act k f h) r))
  | heardCloseStory f => exact b (v (hearRunning_act k.port k.hearing f (fun _ h => storyCloseHeard_act k f h) r))
  | heardWithdrawStory f => exact b (v (hearRunning_act k.port k.hearing f (fun _ h => storyWithdrawHeard_act k f h) r))
  | heardTextCall f => exact b (v (hearRunning_act k.port k.hearing f (fun _ h => callTextHeard_act k (hm rfl) f h) r))
  | heardCloseCall f => exact b (v (hearRunning_act k.port k.hearing f (fun _ h => callCloseHeard_act k (hm rfl) f h) r))
  | heardWithdrawCall f => exact b (v (hearRunning_act k.port k.hearing f (fun _ h => callWithdrawHeard_act k f h) r))
  | heardNotice f => exact b (v (hearRunning_act k.port k.hearing f.body (fun _ h => h) r))
  | lineOut o => exact b (v (supervisoryOrder_act k _ _ o (fun _ h => forLines_act (fun l _ h => lineOut_act k.toLines l h) _ h) r))
  | lineIn o => exact b (v (supervisoryOrder_act k _ _ o (fun _ h => forLines_act (fun l _ h => lineIn_act k.toLines l h) _ h) r))
  | lineRestart o => exact b (v (supervisoryOrder_act k _ _ o (fun _ h => forLines_act (fun l _ h => lineRestart_act k.toLines l h) _ h) r))
  | testStart o => exact b (v (supervisoryOrder_act k _ _ o (fun _ h => forLines_act (fun l _ h => testStart_act k.toLines l h) _ h) r))
  | testStop o => exact b (v (supervisoryOrder_act k _ _ o (fun _ h => forLines_act (fun l _ h => testStop_act k.toLines l h) _ h) r))
  | insertError o => exact b (v (supervisoryOrder_act k _ _ o (fun _ h => forLines_act (fun l _ h => insertError_act k.toLines l h) _ h) r))
  | countTransfer o => exact b (v (supervisoryOrder_act k _ _ o (fun _ h => forLines_act (fun l _ h => countTransfer_act k l h) _ h) r))
  | query o => exact b (v (openOrder_act k _ o (fun _ h => forLines_act (fun l _ h => takeQuery_act k l _ h) _ h) r))
  | queryAndClear o => exact b (v (supervisoryOrder_act k _ _ o (fun _ h => forLines_act (fun l _ h => takeQuery_act k l _ h) _ h) r))
  | release o => exact b (v (supervisoryOrder_act k _ _ o (fun _ h => releaseGroup_act k o h) r))
  | rehold o => exact b (v (supervisoryOrder_act k _ _ o (fun _ h => reholdGroup_act k o h) r))
  | rerun o => exact b (v (openOrder_act k _ o (fun _ h => rerunOrder_act k o h) r))
  | startCheck l => exact d (checkStart_act k.unit l r)
  | dataSample l => exact d (sampleData_act k.unit l r)
  | arbitrationLost => exact d (v (loseArbitration_act k r))
  | startBitRead => exact d (v (startBit_act k.port r))
  | spoilSlotReadDominant => exact d (v (spoiledFrame_act k.port r))

end Sys2Proof.Machine
end

