-- ==== Sys2Proof/Laws/Bus.lean ====
section
/-! SUPPORT. What the port does to the part when a frame is heard and when time passes. -/

namespace Sys2Proof.Machine

variable (s : Part)

/-- A frame heard changes the port and the number of hearings alone. -/
theorem heard_eq : s.heard = { s with
    port := { s.port with state := if s.port.state = .receiving then .wait else s.port.state, rejecting := false }
    hearings := s.hearings + 1 } := rfl

@[simp] theorem heard_lines : s.heard.lines = s.lines := rfl
@[simp] theorem heard_line (l : LineNo) : s.heard.line l = s.line l := rfl
@[simp] theorem heard_record (i : Slot) : s.heard.record i = s.record i := rfl
@[simp] theorem heard_records : s.heard.records = s.records := rfl
@[simp] theorem heard_mem : s.heard.mem = s.mem := rfl
@[simp] theorem heard_free : s.heard.free = s.free := rfl
@[simp] theorem heard_register : s.heard.register = s.register := rfl
@[simp] theorem heard_trackers : s.heard.trackers = s.trackers := rfl
@[simp] theorem heard_settings : s.heard.settings = s.settings := rfl
@[simp] theorem heard_loader : s.heard.loader = s.loader := rfl
@[simp] theorem heard_number : s.heard.number = s.number := rfl
@[simp] theorem heard_now : s.heard.now = s.now := rfl
@[simp] theorem heard_sendList : s.heard.port.sendList = s.port.sendList := rfl
@[simp] theorem heard_requestOf (o : Owner) : s.heard.requestOf o = s.requestOf o := rfl

/-- A frame that the running station hears, of a station 0 to 31, reaches its owners. -/
theorem hearRunning_of_hears {f : Heard} {act : Part → Part} (h : s.hears) (hf : fromStation f = true) :
    s.hearRunning f act = act s.heard := by
  obtain ⟨hl, hr, hd⟩ := h
  simp [Part.hearRunning, Part.hear, Part.whileRunning, hl, hr, hd, hf]

/-- A port that has not yet counted ten idle bits hears nothing (R175). -/
theorem hear_of_deaf {act : Part → Part} (h : s.port.deaf = true) : s.hear act = s := by
  simp [Part.hear, h]

/-- A frame that failed its check ends unheard (R180). -/
theorem hear_of_rejecting {act : Part → Part} (hd : s.port.deaf = false) (h : s.port.rejecting = true) :
    s.hear act = s.frameEnds := by
  simp [Part.hear, hd, h]

/-- The passing of time changes the clock, and the port from CONTENDING to SENDING, alone (R178). -/
theorem passTime_eq : s.passTime = { s with
    now := s.now + 1
    port := { s.port with
      state := if ({ s with now := s.now + 1 } : Part).fieldPassed then .sending else s.port.state } } := by
  unfold Part.passTime; dsimp only; split <;> simp_all [Part.updPort]

/-- A port is CONTENDING or SENDING exactly when it drives a frame (R175). -/
theorem drives_iff (p : Port) : p.drives = true ↔ p.state = .contending ∨ p.state = .sending := by
  simp [Port.drives]

end Sys2Proof.Machine
end

