-- ==== Sys2Proof/Laws/Memory.lean ====
section
/-! SUPPORT. The cells of the copy store: a write keeps the canonical form, reads back, and leaves every
other cell alone. -/

namespace Sys2Proof.Machine

theorem Memory.above_mono {m : Memory} : ∀ {lo hi : Nat}, lo ≤ hi → Memory.above hi m = true → Memory.above lo m = true := by
  intro lo hi h
  cases m with
  | nil => exact fun _ => rfl
  | cons c m => simp only [Memory.above, Bool.and_eq_true, decide_eq_true_eq]; exact fun k => ⟨⟨h.trans k.1.1, k.1.2⟩, k.2⟩

theorem Memory.above_cons {lo a : Nat} {b : Byte} {m : Memory} :
    Memory.above lo ((a, b) :: m) = true ↔ lo ≤ a ∧ b ≠ 0 ∧ Memory.above (a + 1) m = true := by
  simp only [Memory.above, Bool.and_eq_true, decide_eq_true_eq, Bool.not_eq_true', beq_eq_false_iff_ne, ne_eq,
    and_assoc]

theorem Memory.above_write (m : Memory) (a : Nat) (b : Byte) :
    ∀ lo, lo ≤ a → Memory.above lo m = true → Memory.above lo (m.write a b) = true := by
  induction m with
  | nil =>
    intro lo h _
    unfold Memory.write; split
    · rfl
    · next hb => exact Memory.above_cons.2 ⟨h, hb, rfl⟩
  | cons c m ih =>
    intro lo h k
    obtain ⟨x, d⟩ := c
    obtain ⟨k1, k2, k3⟩ := Memory.above_cons.1 k
    unfold Memory.write
    split
    · next hx =>
      split
      · exact k
      · next hb => exact Memory.above_cons.2 ⟨h, hb, Memory.above_cons.2 ⟨hx, k2, k3⟩⟩
    · split
      · next hax =>
        split
        · exact Memory.above_mono (by omega) k3
        · next hb => exact Memory.above_cons.2 ⟨h, hb, hax ▸ k3⟩
      · exact Memory.above_cons.2 ⟨k1, k2, ih _ (by omega) k3⟩

/-- A write keeps the canonical form. -/
theorem Memory.wf_write {m : Memory} (h : m.wf = true) (a : Nat) (b : Byte) : (m.write a b).wf = true :=
  Memory.above_write m a b 0 (Nat.zero_le _) h

theorem Memory.read_below {m : Memory} : ∀ {lo a : Nat}, a < lo → Memory.above lo m = true → m.read a = 0 := by
  induction m with
  | nil => exact fun _ _ => rfl
  | cons c m ih =>
    intro lo a h k
    obtain ⟨x, d⟩ := c
    simp only [Memory.above, Bool.and_eq_true, decide_eq_true_eq] at k
    unfold Memory.read
    rw [if_neg (by omega)]
    exact ih (by omega) k.2

/-- A cell in canonical form reads back what was written. -/
theorem Memory.read_write_self (m : Memory) (a : Nat) (b : Byte) :
    ∀ lo, Memory.above lo m = true → (m.write a b).read a = b := by
  induction m with
  | nil =>
    intro lo _
    unfold Memory.write; split
    · next h => subst h; rfl
    · simp [Memory.read]
  | cons c m ih =>
    intro lo k
    obtain ⟨x, d⟩ := c
    have k' := k
    simp only [Memory.above, Bool.and_eq_true, decide_eq_true_eq] at k'
    unfold Memory.write
    split
    · split
      · next h => subst h; unfold Memory.read; rw [if_neg (by omega)]; exact Memory.read_below (by omega) k'.2
      · simp [Memory.read]
    · split
      · split
        · next h => subst h; exact Memory.read_below (by omega) k'.2
        · simp [Memory.read]
      · next hx => unfold Memory.read; rw [if_neg (by omega)]; exact ih _ k'.2

/-- A write leaves every other cell as it was. -/
theorem Memory.read_write_ne (m : Memory) {a x : Nat} (b : Byte) (h : x ≠ a) : (m.write a b).read x = m.read x := by
  induction m with
  | nil => unfold Memory.write; split <;> simp [Memory.read, h.symm]
  | cons c m ih =>
    obtain ⟨y, d⟩ := c
    unfold Memory.write
    split
    · split
      · rfl
      · simp [Memory.read, h.symm]
    · split
      · next _ e => split <;> simp [Memory.read, ← e, h.symm]
      · simp only [Memory.read, ih]

end Sys2Proof.Machine
end

