-- ==== Sys2Proof/WellFormed.lean ====
section
/-! DEFINITION. What makes a command an event the part can meet: the operand ranges of the rules that
name the row. `exec` is total and gives an ill-formed command a next state as well. -/

namespace Sys2Proof

/-- A payload is at most 72 bytes (R176). -/
def Heard.wf (f : Heard) : Bool := decide (f.payload.length ≤ 72)

/-- The first payload byte of a TEXT, CLOSE or WITHDRAW, the subject kind, says that it is about a call
(R189). -/
def Heard.aboutCall (f : Heard) : Bool := f.payload.headD 0 == 1

/-- A frame of this kind and payload is handed to no owner (R187, R190; notes/assumptions/38.md): a NOTICE, an
ORDER whose code is 0 or 14 to 255, or an ORDER too short to hold a code and a line. -/
def Frame.ownerless (f : Frame) : Bool :=
  match f.kind, f.body.payload with
  | .notice, _ => true
  | .order, code :: _ :: _ => code == 0 || decide (14 ≤ code.toNat)
  | .order, _ => true
  | _, _ => false

/-- An ORDER's payload, code, line and argument, is at most 72 bytes (R176, R190). -/
def Order.wf (o : Order) : Bool := decide (o.arg.length ≤ 70)

/-- The bytes of a received frame: five and the payload that the length byte gives, a length over 72
taken as 72 (R180). -/
def frameBytesWf (bytes : List Byte) : Bool :=
  bytes.length == 5 + min 72 (bytes.getD 3 0).toNat

/-- A command whose operands lie in their ranges. -/
def Instr.wf : Instr → Bool
  | .powerOn _ | .resetAssert | .resetRelease _ | .configFaultRepeat => true
  | .configReadComplete image => decide (image.length ≤ 65535)
  | .rxMarkToSpace _ | .rxSpaceToMark _ | .receivedCode _ | .breakRise _ | .lineOpenRise _ => true
  | .lineOpenFall _ | .ready _ | .codeSent _ | .stallRise _ | .stallExpiry _ => true
  | .entryAged service serial => decide (service ≤ 15) && decide (1 ≤ serial) && decide (serial ≤ 9999)
  | .peerSilence20s _ | .peerSilence120s _ | .claimPendingExpiry _ | .intakeSilenceExpiry _ => true
  | .reportPeriodExpiry | .busFree | .ownFrameSpoilSlot _ | .busSilentExpiry => true
  | .frameCheck bytes => frameBytesWf bytes
  | .heardCall f | .heardClaim f | .heardOffer f => f.wf
  | .heardNotice f => f.body.wf && f.ownerless
  | .heardTextStory f | .heardCloseStory f | .heardWithdrawStory f => f.wf && !f.aboutCall
  | .heardTextCall f | .heardCloseCall f | .heardWithdrawCall f => f.wf && f.aboutCall
  | .lineOut o | .lineIn o | .lineRestart o | .testStart o | .testStop o | .insertError o => o.wf
  | .countTransfer o | .query o | .queryAndClear o | .release o | .rehold o | .rerun o => o.wf
  | .stationRestart o _ => o.wf
  | .startCheck _ | .dataSample _ | .arbitrationLost | .startBitRead => true
  | .spoilSlotReadDominant | .powerFail => true

end Sys2Proof
end

