-- ==== Sys2Proof/Tests/Slice0.lean ====
section
/-! SUPPORT. The model's own tests: an ill-formed command for each check of WellFormed.lean; the worked
examples of spec/; small tests of the commands, each one step from a small state; and, for every statement of
Certificates/Slice0/Obligations.lean that has hypotheses, a state and operands that meet them (`wit_…`). -/

section

/- The tests are elaborated one after another: each is a small kernel computation. -/
set_option Elab.async false

namespace Sys2Proof.Machine.Tests

/-! ### Ill-formed commands -/

/-- A frame heard from station 9 with this key and payload. -/
def heardOf (key : Nat) (payload : List Byte) : Heard :=
  { cls := 3, key := BitVec.ofNat 12 key, station := 9, payload := payload }

/-- An order from station 31 to station 5, naming lines by `line`. -/
def orderOf (line : Byte) (arg : List Byte) : Order :=
  { cls := 0, key := 5, station := 31, line := line, arg := arg }

theorem test_image_too_long_ill : (Instr.configReadComplete (List.replicate 65536 0)).wf = false := by
  simp only [Instr.wf, List.length_replicate]; decide
theorem test_entry_service_ill : (Instr.entryAged 16 1).wf = false := by decide
theorem test_entry_serial_zero_ill : (Instr.entryAged 3 0).wf = false := by decide
theorem test_entry_serial_high_ill : (Instr.entryAged 3 10000).wf = false := by decide
theorem test_frame_bytes_short_ill : (Instr.frameCheck [0, 0, 0, 2, 0, 0]).wf = false := by decide
theorem test_payload_long_ill : (Instr.heardOffer (heardOf 1 (List.replicate 73 0))).wf = false := by decide
theorem test_call_text_as_story_ill : (Instr.heardTextStory (heardOf 1 [1])).wf = false := by decide
theorem test_call_close_as_story_ill : (Instr.heardCloseStory (heardOf 1 [1])).wf = false := by decide
theorem test_call_withdraw_as_story_ill : (Instr.heardWithdrawStory (heardOf 1 [1])).wf = false := by decide
theorem test_story_text_as_call_ill : (Instr.heardTextCall (heardOf 1 [0])).wf = false := by decide
theorem test_story_close_as_call_ill : (Instr.heardCloseCall (heardOf 1 [0])).wf = false := by decide
theorem test_story_withdraw_as_call_ill : (Instr.heardWithdrawCall (heardOf 1 [0])).wf = false := by decide
theorem test_order_long_ill : (Instr.query (orderOf 0 (List.replicate 71 0))).wf = false := by decide
theorem test_owned_notice_ill : (Instr.heardNotice { kind := .order, body := heardOf 5 [1, 0] }).wf = false ∧
    (Instr.heardNotice { kind := .offer, body := heardOf 5 [0] }).wf = false := by decide
theorem test_ignored_orders_well_formed :
    (Instr.heardNotice { kind := .order, body := heardOf 5 [0, 255] }).wf = true ∧
    (Instr.heardNotice { kind := .order, body := heardOf 5 [14, 0] }).wf = true ∧
    (Instr.heardNotice { kind := .order, body := heardOf 5 [1] }).wf = true := by decide
theorem test_query_well_formed : (Instr.query (orderOf 255 [])).wf = true := by decide

/-! ### A small running station -/

/-- A map of 31 = LTRS and 27 = FIGS: code 4 is space, 8 CR, 2 LINE END, 0 NUL; code c else is office 64 + c
in LTRS, a letter, and 32 + c in FIGS, a figure. -/
def entryAt (figs : Bool) (c : Nat) : MapEntry :=
  if c = 4 then { char := 32, cls := .space }
  else if c = 8 then { char := 13, cls := .format }
  else if c = 2 then { char := 10, cls := .format }
  else if c = 0 then { char := 0, cls := .format }
  else if figs then { char := BitVec.ofNat 8 (32 + c), cls := .figure }
  else { char := BitVec.ofNat 8 (64 + c), cls := .letter }

def smallMap : MapTable :=
  { ltrsCode := 31, figsCode := 27, thirdCode := none, subst := 65
    ltrs := (List.range 32).map (entryAt false), figs := (List.range 32).map (entryAt true), third := [] }

/-- A line of 50 baud (u = 20,000), stop 1.5 units, service 3, on the small map; ZC opens, NN closes. -/
def smallLine : LineSettings :=
  { LineSettings.blank with
    mode := .twoWay, u := 20000, stop := 3, service := 3, groups := 0xFFFF, width := 69, fold := 10
    opening := [90, 67], closing := [78, 78], loopUp := some 33, loopDown := some 33, loopN := 8
    counted := .testErrors, auto := true, degraded := 4 }

/-- Station 5, supervised by station 31: lines 0 and 1 TWO-WAY, line 2 SEND, line 3 RECEIVE. -/
def smallSettings : Settings :=
  { supervisor := some 31, defaultDisp := .carry, mask := 0, both := 0
    lines := ((Vector.replicate 8 LineSettings.blank).set 0 smallLine |>.set 1 smallLine
      |>.set 2 { smallLine with mode := .send } |>.set 3 { smallLine with mode := .receive })
    maps := [smallMap], admission := List.replicate 128 .pass, ranges := [] }

/-- A line of that station in IDLE at mark, its sender stopped. -/
def idleLine : Line :=
  { Line.blank with
    unit := { LineUnit.blank with state := .idle, markSince := some 0, awaitReady := true }
    texts := { interruption := [31, 9, 31], resumption := [31, 18], answerBack := [31, 1, 5] } }

/-- The station a second after its entry to service, its port busy with another station's frame. -/
def base : State :=
  { State.reset with
    now := 2000000, loader := .running, number := 5, settings := smallSettings
    lines := ((Vector.replicate 8 Line.blank).set 0 idleLine |>.set 1 idleLine |>.set 2 idleLine
      |>.set 3 idleLine)
    trackers := [{ service := 3, expected := some 418, gaps := [415] }]
    port := { Port.blank with state := .receiving, synced := true }, reportSince := some 0 }

/-- The station with line 0 changed. -/
def onLine (f : Line → Line) : State := { base with toPart := base.toPart.updLine 0 f }

/-- A state with a record in slot 3. -/
def withRecord (r : Record) (s : State) : State := { s with toPart := s.toPart.setRecord 3 (some r) }

/-- An inbound story of line 0, 3 characters in block 0. -/
def inStory (st : InState) : InRecord :=
  { state := st, service := 3, serial := some 418, category := 2, slug := [], disp := some .carry, cursor := 0,
    mutilation := 0, truncated := false, overrun := false, headingFault := false, rerun := false,
    quiet := false, takeover := false, referenced := if st = .recent ∨ st = .rerunning then some false else none,
    peer := none }
def inRec (x : InRecord) : Record :=
  { line := some 0, priority := 3, blocks := [767], count := 3, body := .inbound x }

/-- An outbound story of line 0, call 7 of station 9, 3 codes in block 767. -/
def outStory (st : OutState) : OutRecord :=
  { state := st, caller := 9, call := 7, chars := if st = .claiming ∨ st = .intake then some 3 else none,
    reservation := [766], release := none, completion := none,
    claim := none, intake := none, resume := none, outcome := none, total := 0 }
def outRec (x : OutRecord) : Record :=
  { line := some 0, priority := 3, blocks := [767], count := 3, body := .outbound x }

/-- What a step answers, where it answers a next state; `base` otherwise. -/
def after (c : Instr) (s : State) : State :=
  match step { s with pending := [c] } with
  | .next t => t
  | .fault _ => base
  | .refused _ => base

/-! ### The machine, supply and start-up -/

/-- An image of 1,054 bytes: supervisor 31, one map, line 0 RECEIVE of service 3 with signals ZC and NN. -/
def imageLine : List Byte :=
  [1, 0x4E, 0x20, 3, 3, 0, 1, 0, 0, 69, 10, 0, 0, 0, 2, 90, 67, 0, 0, 2, 78, 78, 0, 0] ++
    List.replicate 59 0 ++ [8, 0, 0, 0, 4, 0, 0]
def imageMap : List Byte :=
  let plane := (List.range 32).flatMap fun c => [BitVec.ofNat 8 (64 + c), (0 : Byte)]
  [31, 27, 255, 65] ++ plane ++ plane ++ List.replicate 64 0
def imageBody : List Byte :=
  [31, 1, 0, 0, 0, 0] ++ imageLine ++ List.replicate 630 0 ++ imageMap ++ List.replicate 128 0
def goodImage : List Byte :=
  let n := (imageBody.map BitVec.toNat).sum + 4 + 30
  [4, 30, BitVec.ofNat 8 (n / 256), BitVec.ofNat 8 n] ++ imageBody
/-- The same image with one byte of line 0 changed: fold 69 is not less than width 69. -/
def foldImage : List Byte := (goodImage.set 20 69).set 3 (goodImage.getD 3 0 + 59)

theorem wit_StepRunsTheFrontCommand : step { base with pending := [.busFree] } = exec .busFree base := rfl
theorem wit_EmptyQueueTicks : base.pending = [] ∧ base.toPart.dueCommand = none := by decide +kernel
theorem wit_EmptyQueueTicks_due :
    ({ base with now := 4000000 } : State).toPart.dueCommand = some (.ready 0) := by decide +kernel
theorem wit_EmptyQueueTicks_field :
    let f : OwnFrame := { owner := .station, removed := false, began := 2000000 - 799, frame :=
      { kind := .notice, body := heardOf 15 [3] } }
    let s : State := { base with port := { base.port with state := .contending, own := some f } }
    s.pending = [] ∧ s.toPart.dueCommand = none ∧ f.began + 800 ≤ s.now + 1 ∧
      s.tick.port.state = .sending ∧ ({ s with now := 1999999 } : State).tick.port.state = .contending := by
  decide +kernel
theorem wit_CommandsKeepSettingsAndEntries :
    ofLoader (.breakRise 0) = false ∧ writesEntries (.breakRise 0) = false := by decide
theorem wit_EveryStepKeepsTheMemoryForm :
    (∃ t, step State.reset = .next t) ∧ State.reset.toPart.MemoryLaw := ⟨⟨_, rfl⟩, rfl⟩
theorem wit_EveryStepKeepsTheBlocks : (∃ t, step State.reset = .next t) ∧ State.reset.toPart.BlockLaw := by
  refine ⟨⟨_, rfl⟩, ?_⟩
  have h : State.reset.toPart.allHeld = [] := by decide +kernel
  unfold Part.BlockLaw; rw [h, List.append_nil, show State.reset.toPart.free = List.range Config.blocks from by
    unfold State.reset Part.reset; dsimp only]
theorem wit_EveryStepKeepsTheLists : (∃ t, step State.reset = .next t) ∧ RegisterLaw State.reset.register ∧
    SendListLaw State.reset.number State.reset.port.sendList :=
  ⟨⟨_, rfl⟩, ⟨by decide, List.Pairwise.nil⟩, List.Pairwise.nil⟩
theorem wit_EveryStepKeepsCountsAndGaps : (∃ t, step base = .next t) ∧ base.toPart.GapLaw ∧
    base.port.spoilCount ≤ 8 := by
  refine ⟨⟨_, rfl⟩, ?_, by decide⟩
  intro t h
  have : t = { service := 3, expected := some 418, gaps := [415] } := by simpa [base] using h
  subst this; simp [Tracker.Law, Config.gapSize, serialBehind, serialDistance]
theorem wit_SupplyResetAndRestart : State.reset.resetHeld = false ∧ State.reset.powered = true ∧
    ({ base with resetHeld := true, powered := false } : State).resetHeld = true := by decide

theorem wit_ImageCheckedAsAWhole : State.reset.loader = .reading ∧ goodImage.length = 1054 := by decide +kernel
theorem test_silent_memory_is_31 : imageReason [] = 31 := by decide +kernel
/-- An image with byte `k` changed from 0 to `v`, its sum with it. -/
def spoiledImage (k : Nat) (v : Byte) : List Byte :=
  let b := goodImage.set k v
  let n := (b.map BitVec.toNat).sum - (b.getD 2 0).toNat - (b.getD 3 0).toNat
  (b.set 2 (BitVec.ofNat 8 (n / 256))).set 3 (BitVec.ofNat 8 n)
/-- R211: default disposition 3, an action of 4, mode 4 of line 2, W = 19 of line 0. -/
theorem wit_ImageCheckedAsAWhole_values :
    imageReason (spoiledImage 7 3) = 79 ∧ imageReason (spoiledImage 926 4) = 191 ∧
    imageReason (spoiledImage 190 4) = 82 ∧ imageReason (spoiledImage 19 19) = 96 := by decide +kernel
/-- An image with one range of base 0 and this size: 3 is no power of two, 4 is one. -/
def rangedImage (size : Byte) : List Byte :=
  let body := imageBody.set 2 1 ++ [0, 0, 0, size, 0]
  let n := (body.map BitVec.toNat).sum + 4 + 35
  [4, 35, BitVec.ofNat 8 (n / 256), BitVec.ofNat 8 n] ++ body
theorem wit_ImageCheckedAsAWhole_range : imageReason (rangedImage 3) = 207 ∧ imageReason (rangedImage 4) = 0 := by
  decide +kernel
theorem test_length_1053_is_31 : imageReason [4, 29] = 31 := by decide +kernel
theorem test_length_1683_is_31 : imageReason [6, 147] = 31 := by decide +kernel
theorem test_counts_missing_is_47 : imageReason [4, 30] = 47 := by decide +kernel
theorem test_sum_wrong_is_63 : imageReason (goodImage.set 2 255) = 63 := by decide +kernel
theorem wit_ServiceEntry : State.reset.loader = .reading ∧ imageReason goodImage = 0 := by decide +kernel
theorem test_image_service : (after (.configReadComplete goodImage) State.reset).loader = .running ∧
    ((after (.configReadComplete goodImage) State.reset).line 0).unit.state = .idle ∧
    ((after (.configReadComplete goodImage) State.reset).line 1).unit.state = .unused := by decide +kernel
/-- R211's example in line 0: W = F gives 6 × 16 + 0. -/
theorem wit_ConfigFaultEntryAndRepeat : State.reset.loader = .reading ∧ imageReason foldImage = 96 ∧
    (after (.configReadComplete foldImage) State.reset).loader = .configFault := by decide +kernel
theorem wit_SupplyResetAndRestart_order : base.port.rejecting = false ∧ base.port.deaf = false ∧ base.addressed (orderOf 255 []) = true ∧
    orderFits (.station 0) (orderOf 255 []) = true ∧ base.loader = .running ∧ base.supervises (orderOf 255 []) = true := by
  decide +kernel
theorem wit_SupplyResetAndRestart_reading :
    let s : State := { State.reset with port := { Port.blank with synced := true } }
    s.loader = .reading ∧ s.port.rejecting = false ∧ s.port.deaf = false ∧
      s.addressed { orderOf 255 [] with key := 4095 } = true := by decide +kernel
theorem wit_SupervisoryOrdersRefused :
    base.toPart.hears ∧ base.addressed (orderOf 0 []) = true ∧
      base.supervises { orderOf 0 [] with station := 9 } = false ∧ orderFits .lines (orderOf 0 []) = true ∧
      orderFits (.station 1) (orderOf 0 [2]) = true ∧ orderFits (.station 0) (orderOf 8 []) = true := by unfold Part.hears; decide +kernel
theorem test_refusal_counted :
    (after (.lineOut { orderOf 0 [] with station := 9 }) base).notices.refusals = 1 ∧
      (after (.lineOut { orderOf 0 [] with station := 9 }) base).notices.refusedCode = 1 := by decide +kernel
theorem test_power_fail : (after .powerFail base).loader = .off := by decide +kernel
theorem test_power_on : (after (.powerOn 5) State.reset).number = 5 := by decide +kernel
theorem test_reset_assert : (after .resetAssert base).resetHeld = true := by decide +kernel
theorem test_reset_release : (after (.resetRelease 6) (after .resetAssert base)).loader = .reading := by
  decide +kernel

/-! ### The receiver and the line -/

/-- Line 0 with its receiver in a state, the reference time 0 and a code sampled. -/
def receiving (r : RxState) (acc : Code) (n : Nat) : State :=
  onLine fun x => { x with unit := { x.unit with rcv := r, acc := acc, sampled := n } }
/-- The same with the input at space. -/
def atSpace (s : State) : State := { s with toPart := s.toPart.setRx 0 false }
/-- Line 0 in a line state. -/
def inState (st : LineState) (s : State) : State :=
  { s with toPart := s.toPart.updUnit 0 fun x => { x with state := st } }

theorem wit_StartElement : base.assembles 0 = true ∧ base.mark 0 = true ∧ (base.line 0).unit.rcv = .hunt := by
  decide +kernel
theorem wit_StartElement_data : (receiving .data 0 0).assembles 0 = true ∧ (receiving .data 0 0).mark 0 = true ∧
    (receiving .data 0 0).mark 0 = true ∧ ((receiving .data 0 0).line 0).unit.rcv ≠ .hunt ∧
    (atSpace (receiving .stop 0 5)).mark 0 = false ∧ ((atSpace (receiving .stop 0 5)).line 0).unit.rcv = .stop := by
  decide +kernel
theorem wit_StartElement_start : (receiving .start 0 0).assembles 0 = true ∧
    ((receiving .start 0 0).line 0).unit.rcv = .start ∧ (atSpace (receiving .start 0 0)).mark 0 = false ∧
    Instr.startCheck 0 ∈ ({ receiving .start 0 0 with now := 20000 } : State).dueLine 0 ∧
    Instr.startCheck 0 ∉ ({ receiving .start 0 0 with now := 19999 } : State).dueLine 0 := by decide +kernel
theorem test_mark_to_space : ((after (.rxMarkToSpace 0) base).line 0).unit.rcv = .start := by decide +kernel
/-- R7: on SEND line 2 the space timer starts, and no candidate does. -/
theorem wit_StartElement_send : base.active 2 = true ∧ base.assembles 2 = false ∧ base.mark 2 = true ∧
    ((after (.rxMarkToSpace 2) base).line 2).unit.spaceSince = some 2000000 ∧
    ((after (.rxMarkToSpace 2) base).line 2).unit.markSince = none ∧
    ((after (.rxMarkToSpace 2) base).line 2).unit.rcv = .hunt ∧
    base.active 7 = false ∧ base.mark 7 = true ∧ (after (.rxMarkToSpace 7) base).mark 7 = false ∧
    (atSpace base).mark 0 = false := by decide +kernel
theorem test_start_check_void : ((after (.startCheck 0) (receiving .start 0 0)).line 0).unit.rcv = .hunt := by
  decide +kernel
theorem wit_DataAndStopElements : (receiving .data 0 4).assembles 0 = true ∧
    ((receiving .data 0 4).line 0).unit.rcv = .data ∧
    Instr.dataSample 0 ∈ ({ receiving .data 0 4 with now := 220000 } : State).dueLine 0 ∧
    Instr.receivedCode 0 ∈ ({ receiving .stop 0 5 with now := 260000 } : State).dueLine 0 := by decide +kernel
theorem wit_DataAndStopElements_stop : (receiving .stop 3 5).assembles 0 = true ∧
    ((receiving .stop 3 5).line 0).unit.rcv = .stop ∧ (receiving .stop 3 5).mark 0 = true ∧
    (atSpace (receiving .stop 3 5)).mark 0 = false ∧ ((atSpace (receiving .stop 3 5)).line 0).unit.acc ≠ 0 ∧
    ((atSpace (receiving .stop 0 5)).line 0).unit.acc = 0 := by decide +kernel
theorem test_fifth_sample : ((after (.dataSample 0) (receiving .data 3 4)).line 0).unit.acc = 19 ∧
    ((after (.dataSample 0) (receiving .data 3 4)).line 0).unit.rcv = .stop := by decide +kernel
/-- A line waiting for mark with a held all-space code, BREAK low. -/
def holding : State :=
  atSpace (onLine fun x => { x with unit := { x.unit with
    rcv := .waitMark, held := true, spaceSince := some 0, markSince := none } })
theorem wit_ReturnToMark : holding.active 0 = true ∧ holding.mark 0 = false ∧
    (holding.line 0).unit.rcv = .waitMark ∧ (holding.line 0).unit.held = true := by decide +kernel
theorem wit_ReturnToMark_plain : (atSpace base).active 0 = true ∧ (atSpace base).mark 0 = false ∧
    ¬(((atSpace base).line 0).unit.rcv = .waitMark ∧ ((atSpace base).line 0).unit.held = true) := by decide +kernel
theorem test_held_code_is_framing :
    (((after (.rxSpaceToMark 0) holding).line 0).sup.faults.get 0).isSome = true := by decide +kernel

/-- Line 0 about to take the code with a correct stop, in a line state. -/
def taking (st : LineState) (acc : Code) : State := inState st (receiving .stop acc 5)
theorem wit_CodesOutOfServiceAndInLoop : (taking .outOfService 1).assembles 0 = true ∧
    ((taking .outOfService 1).line 0).unit.rcv = .stop ∧ (taking .outOfService 1).mark 0 = true ∧
    ((taking .outOfService 1).line 0).unit.state = .outOfService := by decide +kernel
theorem wit_CodesOutOfServiceAndInLoop_loop : (taking .loop 27).assembles 0 = true ∧
    shiftPlane ((taking .loop 27).map 0) ((taking .loop 27).line 0).unit.acc.toNat = some .figs ∧
    ((taking .loop 27).line 0).unit.out = none ∧ ((taking .loop 27).line 0).unit.resend = [] := by decide +kernel
theorem wit_CodesOutOfServiceAndInLoop_letter : (taking .loop 1).toPart.delivers 0 65 ∧
    ((taking .loop 1).cfg 0).loopDown = some 33 ∧ runAfter ((65 : Byte) == 33) 0 ≠ ((taking .loop 1).cfg 0).loopN := by
  unfold Part.delivers; decide +kernel
theorem wit_CodesOutOfServiceAndInLoop_space : (atSpace (taking .loop 1)).mark 0 = false ∧
    ((atSpace (taking .loop 1)).line 0).unit.acc ≠ 0 ∧ ((atSpace (taking .loop 1)).line 0).recog.tied = none ∧
    ((atSpace (taking .loop 1)).line 0).unit.state = .loop ∧
    runAfter (((atSpace (taking .loop 1)).map 0).subst == 33) 0 ≠ ((taking .loop 1).cfg 0).loopN := by decide +kernel
theorem wit_CodesOutOfServiceAndInLoop_busy :
    (after (.receivedCode 0) (taking .loop 27)).assembles 0 = true ∧
    ((after (.receivedCode 0) (taking .loop 27)).line 0).unit.state = .loop ∧
    ((after (.receivedCode 0) (taking .loop 27)).line 0).unit.out ≠ none := by decide +kernel
theorem wit_CheckerAndTestPattern : (taking .test 1).assembles 0 = true ∧ ((taking .test 1).line 0).unit.state = .test ∧
    ((taking .test 1).line 0).sup.chk.inSync = false := by decide +kernel
/-- The settings of line 0 changed. -/
def setting' (f : LineSettings → LineSettings) (s : State) : State :=
  { s with settings := { s.settings with lines := s.settings.lines.set 0 (f smallLine) } }
/-- Line 0 in TEST, its checker IN with three errors in the window, about to take a code. -/
def inSync (errs : List Bool) (acc : Code) : State :=
  let s := taking .test acc
  { s with toPart := s.toPart.updSup 0 fun x =>
      { x with levels := 8, chk := { reg := 511, inSync := true, load := 2, run := 8, window := errs } } }
/-- From register 511 the generator's next code is 0 (R195). -/
theorem wit_CheckerAndTestPattern_in : (inSync [true, true, true] 1).assembles 0 = true ∧
    ((inSync [true, true, true] 1).line 0).sup.chk.inSync = true ∧
    (after (.receivedCode 0) (inSync [true, true, true] 1)).cond 0 .testSync = false ∧
    (after (.receivedCode 0) (inSync [true, true] 1)).cond 0 .testSync = true ∧
    ((after (.receivedCode 0) (inSync [true, true] 0)).line 0).sup.counter = 0 ∧
    ((after (.receivedCode 0) (inSync [true, true] 1)).line 0).sup.counter = 1 := by decide +kernel
/-- R6, R196: a code read on space is taken by the checker, counted as FRAMING and recorded as no fault. -/
theorem wit_CheckerAndTestPattern_framing :
    let s := setting' (fun c => { c with counted := .framingMutilated }) (atSpace (taking .test 1))
    let t := after (.receivedCode 0) s
    s.assembles 0 = true ∧ s.mark 0 = false ∧ (s.line 0).unit.acc ≠ 0 ∧ (t.line 0).sup.chk.load = 1 ∧
      (t.line 0).sup.counter = 1 ∧ (t.line 0).unit.rcv = .waitMark ∧ (t.line 0).sup.faults.get 0 = none ∧
      ((after (.receivedCode 0) (atSpace (taking .test 1))).line 0).sup.counter = 0 := by decide +kernel

/-- Line 0 in TEXT with a story in slot 3, about to take code 1, letter 65. -/
def inText (r : Record) : State :=
  let s := taking .idle 1
  withRecord r { s with toPart := s.toPart.updRecog 0 fun g => { g with state := .text, tied := some 3 } }
/-- The settings of a state changed. -/
def setting (f : Settings → Settings) (s : State) : State := { s with settings := f s.settings }
/-- The small map with code 1 UNASSIGNED in LTRS. -/
def gapMap : MapTable := { smallMap with ltrs := smallMap.ltrs.set 1 { char := 0, cls := .unassigned } }
/-- Letter, CR, shift, code on space, unassigned code, and the admission actions other than PASS. -/
theorem wit_CodesTakenInIdle :
    let s := inText (inRec (inStory .carrying))
    let cr : State := { s with toPart := s.toPart.updUnit 0 fun x => { x with acc := 8 } }
    let shift : State := { s with toPart := s.toPart.updUnit 0 fun x => { x with acc := 27 } }
    let admits := fun a => setting (fun c => { c with admission := List.replicate 128 a }) s
    s.toPart.converts 0 (some 65) none ∧ cr.toPart.converts 0 none none ∧ shift.toPart.converts 0 none none ∧
      (atSpace s).toPart.converts 0 (some 65) (some .framing) ∧
      (setting (fun c => { c with maps := [gapMap] }) s).toPart.converts 0 (some 65) (some .mutilated) ∧
      (admits .substitute).toPart.converts 0 (some 65) (some .admission) ∧
      (admits .drop).toPart.converts 0 none (some .admission) ∧
      (admits .refuse).toPart.converts 0 none (some .admission) := by
  dsimp only [Part.converts]
  refine ⟨?_, ?_, ?_, ?_, ?_, ?_, ?_, ?_⟩ <;> decide +kernel
theorem wit_CodesTakenInIdle_text :
    let s := inText (inRec (inStory .carrying))
    s.toPart.MemoryLaw ∧ (s.line 0).unit.state = .idle ∧ (s.line 0).recog.state = .text ∧
      (s.line 0).recog.tied = some 3 ∧ (s.line 0).recog.lineStart = false ∧ (s.line 0).recog.lookahead = [] ∧
      s.record 3 = some (inRec (inStory .carrying)) ∧ (inStory .carrying).state = .carrying ∧
      (inRec (inStory .carrying)).count ≠ 64 * (inRec (inStory .carrying)).blocks.length := by
  refine ⟨rfl, ?_⟩; decide +kernel
theorem wit_CodesTakenInIdle_full :
    let r := { inRec (inStory .carrying) with count := 64 }
    (inText r).record 3 = some r ∧ r.count = 64 * r.blocks.length ∧ (inText r).free.head? = some 0 := by
  decide +kernel
theorem test_letter_stored :
    let t := after (.receivedCode 0) (inText (inRec (inStory .carrying)))
    t.mem.read (767 * 64 + 3) = 65 ∧ (t.record 3).map Record.count = some 4 := by decide +kernel
theorem test_letter_takes_block :
    let t := after (.receivedCode 0) (inText { inRec (inStory .carrying) with count := 64 })
    t.mem.read 0 = 65 ∧ (t.record 3).map Record.blocks = some [767, 0] := by decide +kernel

/-- R69: a character for a story of 16,000, in TEXT and in HEADING. -/
theorem wit_CodesTakenInIdle_limit :
    let s := inText { inRec { inStory .carrying with cursor := 16000 } with count := 16000 }
    let t := after (.receivedCode 0) s
    let opened := withRecord { inRec (inStory .opening) with count := 16000 }
      { s with toPart := s.toPart.updRecog 0 fun g => { g with state := .heading, heading := [52] } }
    s.toPart.delivers 0 65 ∧ (s.record 3).map Record.count = some 16000 ∧
      (t.line 0).recog.state = .discarding ∧ (t.line 0).recog.tied = none ∧
      (t.inRecord 3).map InRecord.truncated = some true ∧ (t.record 3).map Record.line = some none ∧
      (t.requestOf (.record 3)).map Request.kind = some .close ∧ t.mem = [] ∧
      ((t.line 0).sup.faults.get FaultKind.truncated.idx).map (fun f => f.fields.offset) = some 16000 ∧
      opened.toPart.delivers 0 65 ∧ (after (.receivedCode 0) opened).record 3 = none := by
  unfold Part.delivers; decide +kernel
/-- R64: a LINE END (code 2) stored in a BULLETIN story, a letter behind one in a FLASH story, a LINE END in a
ROUTINE story. -/
theorem wit_CodesTakenInIdle_textDue :
    let asks := fun (prio : Nat) (code : Code) (mem : Memory) =>
      let s := inText { inRec (inStory .carrying) with priority := prio }
      ((after (.receivedCode 0) { s with toPart := { s.toPart.updUnit 0 (fun x => { x with acc := code }) with
        mem := mem } }).requestOf (.record 3)).map Request.kind
    asks 1 2 [] = some .text ∧ asks 0 1 [(767 * 64 + 1, 10)] = some .text ∧ asks 0 1 [] = none ∧
      asks 3 2 [] = none ∧ (inText (inRec (inStory .carrying))).hasRequest (.record 3) = false ∧
      (inRec (inStory .carrying)).line = some 0 := by decide +kernel

/-- R29, R30: one substitute, the mutilation count raised, the fault and its plane. -/
theorem test_mutilated_stored :
    let t := after (.receivedCode 0) (setting (fun c => { c with maps := [gapMap] }) (inText (inRec (inStory .carrying))))
    t.mem.read (767 * 64 + 3) = 65 ∧ (t.inRecord 3).map InRecord.mutilation = some 1 ∧
      ((t.line 0).sup.faults.get 1).map (fun r => r.fields.offset) = some 3 := by decide +kernel
theorem test_dropped_letter :
    let t := after (.receivedCode 0)
      (setting (fun c => { c with admission := List.replicate 128 .drop }) (inText (inRec (inStory .carrying))))
    (t.record 3).map Record.count = some 3 ∧ ((t.line 0).sup.faults.get 5).isSome = true := by decide +kernel

/-! ### Stories and their signals -/

/-- Line 0 in IDLE about to take a code in LTRS, its recognizer as given. -/
def recognizing (g : Recog) (acc : Code) : State :=
  let s := taking .idle acc
  { s with toPart := s.toPart.updRecog 0 fun _ => g }
/-- A story in slot 3 tied to the line. -/
def tiedTo (st : RecogState) (heading : List Byte) : Recog :=
  { Recog.blank with state := st, heading := heading, tied := some 3, stallSince := some 0 }
/-- The story of slot 3 being opened, its heading buffer `heading`. -/
def heading (st : RecogState) (text : List Byte) (acc : Code) : State :=
  withRecord (inRec (inStory .opening)) (recognizing (tiedTo st text) acc)
theorem wit_HeadingLineCollected : (heading .opening [] 1).toPart.delivers 0 65 ∧
    (heading .opening [] 4).toPart.delivers 0 32 ∧ (heading .heading [49] 1).toPart.delivers 0 65 ∧
    (heading .opening [] 1).record 3 = some (inRec (inStory .opening)) ∧
    (heading .opening [] 1).toPart.room (inRec (inStory .opening)) [767] := by
  unfold Part.delivers
  exact ⟨by decide +kernel, by decide +kernel, by decide +kernel, by decide +kernel, .inl (by decide +kernel)⟩
theorem wit_HeadingLineCollected_lost :
    let s := { withRecord { inRec (inStory .opening) with count := 64 } (heading .opening [] 1) with free := [] }
    s.toPart.delivers 0 65 ∧ (inRec (inStory .opening)).blocks.length = 1 ∧ s.recent = [] ∧
      ((after (.receivedCode 0) s).inRecord 3).map InRecord.overrun = some true ∧
      ((after (.receivedCode 0) s).line 0).recog.heading = [65] := by unfold Part.delivers; decide +kernel
theorem test_heading_begins :
    ((after (.receivedCode 0) (heading .opening [] 1)).line 0).recog.heading = [65] ∧
    ((after (.receivedCode 0) (heading .opening [] 4)).line 0).recog.state = .opening ∧
    ((after (.receivedCode 0) (heading .heading [49] 1)).line 0).recog.heading = [49, 65] := by decide +kernel
/-- R59: "419 RC", with a slug, with serial 0000, with a fifth digit, with a lower-case letter. -/
theorem test_heading_syntax :
    readHeading 35 [52, 49, 57, 32, 82, 67] = some { serial := 419, priority := 3, category := 2, slug := [] } ∧
    readHeading 35 [55, 32, 70, 65, 32, 88, 89] = some { serial := 7, priority := 0, category := 0, slug := [88, 89] } ∧
    readHeading 35 [48, 48, 48, 48, 32, 82, 67] = none ∧ readHeading 35 [49, 50, 51, 52, 53, 32, 82, 67] = none ∧
    readHeading 35 [52, 32, 114, 67] = none := by decide +kernel
/-- R59: with the substitute "1", "R" or "C" the heading "419 RC" fails; with the substitute in the slug it does not. -/
theorem test_heading_substitute :
    readHeading 49 [52, 49, 57, 32, 82, 67] = none ∧ readHeading 82 [52, 49, 57, 32, 82, 67] = none ∧
    readHeading 67 [52, 49, 57, 32, 82, 67] = none ∧
    (readHeading 88 [52, 49, 57, 32, 82, 67, 32, 88]).map Heading.slug = some [88] := by decide +kernel
/-- The heading "419 RC" (or "417 RC", a duplicate of the tracker's) about to be completed by a LINE END. -/
def completing (last : Byte) : State := heading .heading [52, 49, last, 32, 82, 67] 2
theorem wit_HeadingDecided : (completing 57).toPart.delivers 0 10 ∧
    (completing 57).record 3 = some (inRec (inStory .opening)) ∧ (inRec (inStory .opening)).line = some 0 ∧
    (readHeading ((completing 57).map 0).subst ((completing 57).line 0).recog.heading).map Heading.serial = some 419 ∧
    (completing 57).disposition 3 2 3 = .carry ∧ (completing 57).entryOf 3 419 = none ∧
    (readHeading ((completing 55).map 0).subst ((completing 55).line 0).recog.heading).map Heading.serial = some 417 ∧
    9949 ≤ (417 + 9999 - 418) % 9999 := by unfold Part.delivers; decide +kernel
/-- An entry of service 3, serial 419, of slot 7 of station 9. -/
def entry419 (st : EntryState) (quiet : Bool) : Entry :=
  { service := 3, serial := 419, owner := { station := 9, slot := 7 }, state := st, quiet := quiet,
    progress := 2, heard := 0, order := 0 }
/-- Slot 4 carries serial 419. -/
def holding419 (s : State) : State :=
  { s with toPart := s.toPart.setRecord 4 (some (inRec { inStory .carrying with serial := some 419 })) }
/-- R113's cases: 7, 6, 2, 3, 5, 1, and DISCARD (R61). -/
theorem wit_HeadingDecided_cases :
    let run := fun (s : State) (e : List Entry) => after (.receivedCode 0) { s with register := e }
    let st := fun s : State => (s.inRecord 3).map InRecord.state
    let dup := fun s : State => (((s.line 0).sup.faults.get FaultKind.duplicate.idx).map FaultRecord.count)
    st (run (completing 57) []) = some .carrying ∧ dup (run (completing 57) []) = none ∧
    (run (completing 55) []).record 3 = none ∧ dup (run (completing 55) []) = some 1 ∧
    (run (completing 57) [entry419 .closed false]).record 3 = none ∧
    st (run (completing 57) [entry419 .live false]) = some .standby ∧
    st (run (completing 57) [entry419 .live true]) = some .carrying ∧
    dup (run (holding419 (completing 57)) []) = some 1 ∧
    ((run { completing 57 with settings := { smallSettings with defaultDisp := .discard } } []).line 0).recog.state =
      .discarding := by decide +kernel
/-- R101, R105, R107: serial 419 of line 0 where 300 is expected is a JUMP; where 418 is, the gap 418 raises GAP. -/
theorem wit_HeadingDecided_loss :
    let s := { completing 57 with trackers := [{ service := 3, expected := some 300, gaps := [] }] }
    let t := after (.receivedCode 0) s
    let r := fun l : LineNo => (t.line l).sup.faults.get FaultKind.serialGap.idx
    s.toPart.delivers 0 10 ∧ (s.tracker 3).map (fun k => (k.take 419).2) = some true ∧
      (r 0).map FaultRecord.fields =
        some { handle := some { station := 5, slot := 3 }, serial := some 419, offset := 4, raw := none, plane := .ltrs } ∧
      r 1 = none ∧ t.cond 0 .gap = false ∧ ((after (.receivedCode 0) (completing 57)).cond 3 .gap) = true ∧
      ((after (.receivedCode 0) (completing 57)).cond 2 .gap) = false := by unfold Part.delivers; decide +kernel
/-- Line 0 in OUTSIDE with Z in the window, about to take C (3), or A (1). -/
def outside (w : List Byte) (acc : Code) : State := recognizing { Recog.blank with window := w } acc
theorem wit_SignalsOpenAndClose : (outside [65, 90] 3).toPart.delivers 0 67 ∧
    ((outside [65, 90] 3).line 0).recog.state = .outside ∧ ((outside [65, 90] 3).cfg 0).opening = [90, 67] ∧
    (outside [65, 90] 3).lowestFree = some 0 := by unfold Part.delivers; decide +kernel
theorem test_opening_signal :
    ((after (.receivedCode 0) (outside [65, 90] 3)).inRecord 0).map InRecord.state = some .opening ∧
    ((after (.receivedCode 0) (outside [65, 90] 3)).line 0).recog.tied = some 0 := by decide +kernel
/-- Every slot holds a story of no block; those of `recent` are RECENT. -/
def crowded (recent : List Slot) (s : State) : State :=
  { s with
    records := Vector.replicate 64 (some { inRec (inStory .recent) with blocks := [], count := 0 })
    recent := recent }
theorem wit_SignalsOpenAndClose_evicts :
    let s := crowded [9, 2] (outside [65, 90] 3)
    s.toPart.delivers 0 67 ∧ s.lowestFree = none ∧ s.referenced 9 = false ∧
      ((after (.receivedCode 0) s).inRecord 9).map InRecord.state = some .opening ∧
      (after (.receivedCode 0) s).recent = [2] := by unfold Part.delivers; decide +kernel
theorem wit_SignalsOpenAndClose_none :
    let s := crowded [] (outside [65, 90] 3)
    s.toPart.delivers 0 67 ∧ s.lowestFree = none ∧ s.recent = [] ∧
      ((after (.receivedCode 0) s).line 0).recog.state = .discarding := by unfold Part.delivers; decide +kernel
/-- Line 0 in a story of slot 3 at a line start with `held` in the lookahead. -/
def lineStarting (st : RecogState) (x : InState) (held : List Byte) (acc : Code) : State :=
  withRecord (inRec (inStory x)) (recognizing
    { tiedTo st [] with lineStart := held == [], lookahead := held, tied := if st = .discarding then none else some 3 }
    acc)
theorem wit_SignalsOpenAndClose_lineStart :
    (lineStarting .text .carrying [78] 14).toPart.delivers 0 78 ∧ [78, 78] = ((base.cfg 0).closing) ∧
    (lineStarting .text .carrying [90] 3).toPart.delivers 0 67 ∧
    (lineStarting .text .carrying [] 14).toPart.delivers 0 78 ∧
    (lineStarting .text .carrying [78] 1).toPart.delivers 0 65 ∧
    (lineStarting .text .carrying [78] 1).record 3 = some (inRec (inStory .carrying)) := by
  unfold Part.delivers; decide +kernel
theorem test_signals_at_line_start :
    let run := fun (st : RecogState) (x : InState) (held : List Byte) (acc : Code) =>
      after (.receivedCode 0) (lineStarting st x held acc)
    (run .text .carrying [78] 14).record 3 =
      some { inRec (inStory .carrying) with line := none } ∧
    ((run .text .standby [78] 14).inRecord 3).map InRecord.state = some .standbyComplete ∧
    (run .opening .opening [78] 14).record 3 = none ∧
    ((run .discarding .recent [78] 14).line 0).recog.state = .outside ∧
    ((run .text .carrying [90] 3).inRecord 3).map InRecord.truncated = some true ∧
    ((run .text .carrying [90] 3).line 0).recog.tied = some 0 ∧
    ((run .opening .opening [90] 3).line 0).recog.tied = some 0 ∧
    ((run .text .carrying [] 14).line 0).recog.lookahead = [78] ∧
    ((run .text .carrying [78] 1).record 3).map Record.count = some 5 ∧
    (run .text .carrying [78] 1).mem.read (767 * 64 + 4) = 65 ∧
    ((run .discarding .recent [78] 2).line 0).recog.lineStart = true := by decide +kernel

/-! ### Conditions -/

theorem wit_ConditionEdges : base.cond 0 .brk ≠ true ∧ (base.cfg 0).mask.getLsbD Condition.brk.idx = false ∧
    base.loader = .running ∧ base.stationCond .storeLow ≠ true := by decide +kernel

/-! ### Line events -/

/-- Line 0 at space since 0. -/
def spacing (s : State) : State :=
  atSpace { s with toPart := s.toPart.updUnit 0 fun x => { x with spaceSince := some 0, markSince := none } }
/-- Line 0 sending the outbound story of slot 3, its code at `n` on the output. -/
def sending (n : Nat) (s : State) : State :=
  let t := withRecord (outRec (outStory .sending)) s
  { t with toPart := (t.toPart.updUnit 0 fun x => { x with
      awaitReady := false
      out := some { code := 3, source := .scheduler, began := 1900000, counts := true } }).updSched 0 fun k =>
    { k with running := true, queue := [3], current := some 3, piece := .story, position := some n } }
theorem wit_BreakStopsTheSender :
    let s := spacing (sending 1 base)
    s.active 0 = true ∧ (s.line 0).unit.spaceSince.isSome = true ∧ s.cond 0 .brk = false ∧
      (s.line 0).unit.state = .idle ∧ (s.line 0).sched.current = some 3 ∧
      s.record 3 = some (outRec (outStory .sending)) ∧ (s.line 0).sched.piece = .story ∧
      (s.line 0).sched.position = some 1 ∧ (s.cfg 0).abandon = false := by decide +kernel
theorem wit_BreakStopsTheSender_loop :
    (spacing (inState .loop base)).active 0 = true ∧ ((spacing (inState .loop base)).line 0).unit.state ≠ .idle := by
  decide +kernel
theorem test_break_holds : ((after (.breakRise 0) (spacing (sending 1 base))).outRecord 3).map OutRecord.state =
    some .heldBreak ∧ (after (.breakRise 0) (spacing (sending 1 base))).cond 0 .brk = true := by decide +kernel
/-- Line 0 outside stories, or in LOOP, with runs of 7. -/
def running7 (st : LineState) (acc : Code) (p : Plane) : State :=
  let s := inState st (sending 1 (outside [] acc))
  let t := (s.toPart.setPlane 0 p).updSup 0 fun x => { x with loopUpRun := 7, loopDownRun := 7 }
  { s with toPart := t.updUnit 0 fun x => { x with out := if st = .loop then none else x.out } }
/-- Code 1 in FIGS is office 33, the loop character; code 3 is not. -/
theorem wit_LoopCodesCounted : (running7 .idle 1 .figs).toPart.delivers 0 33 ∧
    (running7 .idle 3 .figs).toPart.delivers 0 35 ∧ (running7 .loop 1 .figs).toPart.delivers 0 33 ∧
    ((running7 .idle 1 .figs).line 0).recog.state = .outside ∧ ((running7 .idle 1 .figs).cfg 0).loopN = 8 ∧
    ((running7 .loop 1 .figs).line 0).unit.out = none ∧ ((running7 .idle 1 .figs).line 0).sched.piece = .story := by
  unfold Part.delivers; decide +kernel
theorem wit_LoopCodesCounted_receive :
    let s : State := { running7 .idle 1 .figs with settings := { smallSettings with
      lines := smallSettings.lines.set 0 { smallLine with mode := .receive } } }
    s.toPart.delivers 0 33 ∧ (s.cfg 0).mode ≠ .twoWay := by unfold Part.delivers; decide +kernel
theorem test_loop_codes :
    ((after (.receivedCode 0) (running7 .idle 1 .figs)).line 0).unit.state = .loop ∧
    ((after (.receivedCode 0) (running7 .idle 1 .figs)).outRecord 3).map OutRecord.state = some .heldBreak ∧
    ((after (.receivedCode 0) (running7 .idle 3 .figs)).line 0).sup.loopUpRun = 0 ∧
    ((after (.receivedCode 0) (running7 .loop 1 .figs)).line 0).unit.state = .idle ∧
    (after (.receivedCode 0) (running7 .idle 1 .figs)).cond 0 .loop = true := by decide +kernel
/-- R192's table: a hit, a miss from 9, a miss from 7. -/
theorem test_loop_runs : [runAfter true 9, runAfter false 9, runAfter false 7] = [10, 1, 0] := by decide
/-- BREAK is raised on line 0, still at space. -/
def broken (s : State) : State := { s with toPart := (spacing s).toPart.setCond 0 .brk true }
theorem wit_LineOpenRises : (broken base).active 0 = true ∧ ((broken base).line 0).unit.spaceSince.isSome = true ∧
    (broken base).cond 0 .brk = true ∧ (broken base).cond 0 .lineOpen = false ∧
    ((broken base).line 0).unit.state = .idle ∧ ((broken (inState .loop base)).line 0).unit.state = .loop ∧
    ((broken (inState .test base)).line 0).unit.state = .test ∧
    ((broken (inState .outOfService base)).line 0).unit.state = .outOfService := by decide +kernel
theorem test_line_open_ends_loop : ((after (.lineOpenRise 0) (broken (inState .loop base))).line 0).unit.state = .idle := by
  decide +kernel

/-- A claim pending on line 0 in slot 3. -/
def pendingClaim : OutRecord :=
  { outStory .claiming with claim := some { bid := 5, since := some 0, ending := none } }
def claiming (s : State) : State :=
  let t := withRecord (outRec pendingClaim) s
  { t with toPart := t.toPart.addRequest { owner := .record 3, cls := 3, kind := .claim, key := 5 } }
/-- A frame of this kind and payload, owned by `o`, under way. -/
def underWay (o : Owner) (k : FrameKind) (payload : List Byte) (s : State) : State :=
  { s with toPart := s.toPart.updPort fun p => { p with
      state := .contending
      own := some { owner := o, frame := { kind := k, body := { cls := 3, key := 5, station := 5, payload := payload } },
                    began := 0, removed := false } } }
theorem wit_ClaimsAndIntakesEnd_line :
    let s := claiming (spacing base)
    s.toPart.stopsClaims 0 (.breakRise 0) ∧ s.record 3 = some (outRec pendingClaim) ∧
      s.frameUnderWay (.record 3) = false ∧ (underWay (.record 3) .claim [] s).frameUnderWay (.record 3) = true := by
  refine ⟨.inl ⟨rfl, ?_⟩, ?_⟩ <;> decide +kernel
theorem wit_ClaimsAndIntakesEnd_order :
    (claiming base).toPart.stopsClaims 0 (.lineOut (orderOf 0 [])) ∧
      (claiming (broken base)).toPart.stopsClaims 0 (.lineOpenRise 0) := by
  refine ⟨.inr (.inr ⟨orderOf 0 [], .inl rfl, ⟨⟨?_, ?_⟩, ?_, ?_⟩, ?_⟩), .inr (.inl ⟨rfl, ?_⟩)⟩ <;> decide +kernel
/-- Line 0 at space, BREAK raised, with a story in slot 3 tied. -/
def openLine (st : InState) : State :=
  broken (inText (inRec (inStory st)))
theorem wit_StoryEndsWithTheLine : (openLine .carrying).toPart.lineCauses 0 (.lineOpenRise 0) ∧
    ((openLine .carrying).line 0).recog.tied = some 3 ∧
    (openLine .carrying).record 3 = some (inRec (inStory .carrying)) ∧
    (openLine .opening).record 3 = some (inRec (inStory .opening)) ∧
    ((openLine .carrying).requestOf (.record 3)).map Request.kind ≠ some FrameKind.offer := by
  refine ⟨.inl ⟨rfl, ?_⟩, ?_⟩ <;> decide +kernel
theorem test_line_open_withdraws :
    ((after (.lineOpenRise 0) (openLine .carrying)).requestOf (.record 3)).map Request.kind = some .withdraw ∧
      (after (.lineOpenRise 0) (openLine .opening)).record 3 = none := by decide +kernel
theorem wit_ReturnToMark_fall :
    let s := onLine fun x => { x with
      unit := { x.unit with clearSince := some 0 }, sup := { x.sup with levels := 1 }
      recog := { x.recog with stallSince := some 0 } }
    s.active 0 = true ∧ (s.line 0).unit.clearSince.isSome = true ∧ s.cond 0 .lineOpen = true ∧
      (s.line 0).recog.stallSince.isSome = true := by decide +kernel

/-- OUTSIDE, a code on space and a letter; with loop character 33 neither completes a run. -/
theorem wit_CodesTakenInIdle_outside :
    let s := outside [] 1
    s.toPart.converts 0 (some 65) none ∧ (atSpace s).toPart.converts 0 (some 65) (some .framing) ∧
      (s.line 0).recog.state = .outside ∧ (s.line 0).recog.tied = none ∧
      (s.cfg 0).opening = [90, 67] ∧ (s.cfg 0).loopUp = some 33 ∧
      runAfter ((65 : Byte) == 33) (s.line 0).sup.loopUpRun ≠ (s.cfg 0).loopN := by
  dsimp only [Part.converts]
  refine ⟨?_, ?_, ?_, ?_, ?_, ?_, ?_⟩ <;> decide +kernel
/-- Letter 65 is the enquiry character; the sender stopped, or running and free. -/
def enquired (free : Bool) : State :=
  let s := setting (fun c => { c with lines := c.lines.set 0 { smallLine with enquiry := some 65 } }) (outside [] 1)
  { s with toPart := s.toPart.updSched 0 fun k => { k with running := free } }
theorem wit_CodesTakenInIdle_enquiry :
    let s := enquired false
    s.assembles 0 = true ∧ (s.line 0).unit.rcv = .stop ∧ s.mark 0 = true ∧ (s.line 0).unit.state = .idle ∧
      shiftPlane (s.map 0) 1 = none ∧ (s.readEntry 0).cls ≠ .unassigned ∧ (s.cfg 0).mode = .twoWay ∧
      (s.cfg 0).enquiry = some (s.readEntry 0).char ∧ (s.line 0).sched.answerBack = .clear ∧
      (s.line 0).sup.loopUpRun + 1 < (s.cfg 0).loopN ∧ (s.line 0).texts.answerBack = [31, 1, 5] ∧
      s.senderFree 0 = false ∧ (enquired true).senderFree 0 = true := by decide +kernel
theorem test_enquiry :
    ((after (.receivedCode 0) (enquired false)).line 0).sched.answerBack = .pending ∧
    ((after (.receivedCode 0) (enquired true)).line 0).unit.out.map OutCode.code = some 31 ∧
    ((after (.receivedCode 0) (after (.receivedCode 0) (enquired true))).line 0).sched.answerBack = .beingSent := by
  decide +kernel
theorem wit_CodesOutOfServiceAndInLoop_converts :
    let s := setting (fun c => { c with maps := [gapMap] }) (taking .loop 1)
    s.toPart.converts 0 (some 65) (some .mutilated) ∧ (s.line 0).recog.tied = none ∧
      (atSpace (taking .loop 1)).toPart.converts 0 (some 65) (some .framing) ∧
      ((after (.receivedCode 0) s).line 0).unit.out.map OutCode.code = some 1 ∧
      (((after (.receivedCode 0) s).line 0).sup.faults.get 1).isSome = true := by
  dsimp only [Part.converts]
  refine ⟨?_, ?_, ?_, ?_, ?_⟩ <;> decide +kernel

/-- A claim pending in slot 4 as line 0 enters LOOP, its CLAIM not begun or under way. -/
theorem wit_LoopCodesCounted_claim :
    let s := running7 .idle 1 .figs
    let c : State := { s with toPart := s.toPart.setRecord 4 (some (outRec pendingClaim)) }
    let begun := underWay (.record 4) .claim [] c
    c.toPart.delivers 0 33 ∧ c.record 4 = some (outRec pendingClaim) ∧ c.frameUnderWay (.record 4) = false ∧
      begun.frameUnderWay (.record 4) = true ∧ (after (.receivedCode 0) c).record 4 = none ∧
      ((after (.receivedCode 0) begun).record 4).isSome = true := by
  dsimp only [Part.delivers]; decide +kernel

/-! ### When the timers' commands fall due -/

/-- A code on the output of line 0 since 0. -/
def sourced' (s : State) : State := { s with toPart := s.toPart.updUnit 0 fun x =>
  { x with out := some { code := 3, source := .scheduler, began := 0, counts := true } } }
/-- A command falls due at `n` half-microseconds and not before. -/
def fallsDueAt (due : Part → List Instr) (c : Instr) (n : Nat) (s : State) : Bool :=
  (due { s.toPart with now := n }).contains c && !(due { s.toPart with now := n - 1 }).contains c
/-- Line 0 is at 50 baud with a stop of 1.5 units: a character is 150 ms, 300,000 half-microseconds. -/
theorem wit_line_timers :
    let open' := onLine fun x => { x with
      unit := { x.unit with clearSince := some 0 }, sup := { x.sup with levels := 1 }
      recog := { x.recog with stallSince := some 0 } }
    let spaced : State := { spacing base with toPart := (spacing base).toPart.updUnit 0 fun x =>
      { x with spaceSince := some 0 } }
    fallsDueAt (fun s => s.dueLine 0) (.breakRise 0) 600000 spaced = true ∧
    fallsDueAt (fun s => s.dueLine 0) (.lineOpenRise 0) 5000000
      { spaced with toPart := spaced.toPart.setCond 0 .brk true } = true ∧
    fallsDueAt (fun s => s.dueLine 0) (.lineOpenFall 0) 2000000 open' = true ∧
    fallsDueAt (fun s => s.dueLine 0) (.ready 0) 4000000 base = true ∧
    fallsDueAt (fun s => s.dueLine 0) (.codeSent 0) 300000 (sourced' base) = true ∧
    fallsDueAt (fun s => s.dueLine 0) (.stallRise 0) 120000000 open' = true ∧
    fallsDueAt (fun s => s.dueLine 0) (.stallExpiry 0) 600000000 open' = true := by decide +kernel

/-! ### Sending -/

theorem wit_ReadyResumesTheSender : base.awaitsReady 0 = true ∧ (base.line 0).unit.out = none ∧
    (base.cfg 0).mode.sends = true ∧ base.awaitsReady 3 = true ∧ (base.cfg 3).mode.sends = false ∧
    (base.line 0).sched.current = none ∧ (base.line 0).sched.interruptionOwed = none := by decide +kernel
/-- Line 0 waiting for READY with a story held in slot 3. -/
def heldStory (owed : Bool) : State :=
  let t := withRecord (outRec { outStory .heldBreak with resume := some (2, .figs) }) base
  { t with toPart := t.toPart.updSched 0 fun k => { k with queue := [3], current := some 3, resumptionOwed := owed } }
theorem wit_ReadyResumesTheSender_held : (heldStory false).awaitsReady 0 = true ∧
    ((heldStory false).line 0).sched.answerBack ≠ .pending ∧ ((heldStory false).line 0).sched.current = some 3 ∧
    ((heldStory true).line 0).texts.resumption = [31, 18] ∧ (heldStory true).awaitsReady 0 = true := by
  decide +kernel
theorem wit_ReadyResumesTheSender_owed :
    let s := onLine fun x => { x with sched := { x.sched with answerBack := .pending, interruptionOwed := some .figs } }
    s.awaitsReady 0 = true ∧ (s.line 0).sched.answerBack = .pending ∧ (s.line 0).texts.answerBack = [31, 1, 5] ∧
      (s.line 0).sched.interruptionOwed = some .figs ∧ (s.line 0).texts.interruption = [31, 9, 31] := by
  decide +kernel
theorem test_ready_sends_shift :
    ((after (.ready 0) base).line 0).unit.out.map OutCode.code = some 31 ∧
    ((after (.ready 0) (heldStory false)).line 0).unit.out.map OutCode.code = some 27 := by decide +kernel
theorem wit_CodeSentBeginsTheNext :
    let s := sending 1 base
    s.active 0 = true ∧ (s.line 0).unit.out.isSome = true ∧ (s.line 0).unit.state = .idle ∧
      (s.line 0).sched.running = true ∧ s.record 3 = some (outRec (outStory .sending)) ∧
      (s.outEntry (outRec (outStory .sending)) 1).mark = false := by decide +kernel
/-- Line 0 with a code of this source on its output. -/
def sourced (st : LineState) (src : Source) : State :=
  inState st (onLine fun x => { x with unit := { x.unit with
    resend := [9], out := some { code := 3, source := src, began := 0, counts := false } } })
theorem wit_CodeSentBeginsTheNext_others : (sourced .test .generator).active 0 = true ∧
    ((sourced .test .generator).cfg 0).mode.sends = true ∧
    ((sourced .test .generator).line 0).unit.state = .test ∧
    ((sourced .loop .loopResend).line 0).unit.state = .loop ∧
    ((sourced .idle .scheduler).line 0).sched.running = false := by decide +kernel
/-- R10: code 3, begun at 0 on a line of u 20,000: the elements change every 40,000 half-microseconds. -/
theorem wit_CodeSentBeginsTheNext_output :
    let s := sourced .test .generator
    let at' := fun n => ({ s.toPart with now := n } : Part).tx 0
    (s.cfg 0).mode = .twoWay ∧ s.loader = .running ∧ (s.line 0).unit.out.isSome = true ∧
      [at' 39999, at' 40000, at' 119999, at' 120000, at' 239999, at' 240000] = [false, true, true, false, false, true] ∧
      base.tx 0 = true ∧ base.tx 3 = true ∧ ({ s with loader := .configFault } : State).tx 0 = true := by decide +kernel
theorem test_resend_sent : ((after (.codeSent 0) (sourced .loop .loopResend)).line 0).unit.out.map OutCode.code = some 9 := by
  decide +kernel
/-- Line 0 at code `n` of a piece; its story stands before offset 2, its resume point in FIGS, or it has none. -/
def inPiece (p : Piece) (n : Nat) (story : Bool) (f : Sched → Sched) : State :=
  let s := withRecord (outRec { outStory .sending with resume := some (2, .figs) }) (sending 2 base)
  { s with toPart := s.toPart.updSched 0 fun k => f { k with
      piece := p, progress := n, current := if story then some 3 else none
      position := if story then some 2 else none } }
/-- R156, R157: the texts are 31 9 31, 31 18 and 31 1 5; FIGS is 27, LTRS 31. -/
theorem wit_CodeSentBeginsTheNext_texts :
    let goes := fun (s : State) =>
      let t := after (.codeSent 0) s
      ((t.line 0).unit.out.map OutCode.code, (t.line 0).sched.piece, (t.line 0).sched.progress)
    let at' := fun p n story => goes (inPiece p n story id)
    at' .interruption 0 false = (some 9, .interruption, 1) ∧ at' .resumption 0 true = (some 18, .resumption, 1) ∧
      at' .resumption 1 true = (some 27, .shift .figs .resumed, 0) ∧
      at' (.shift .figs .resumed) 0 true = (some 0, .story, 0) ∧
      at' (.shift .figs .held) 0 true = (some 0, .story, 0) ∧
      (inPiece .resumption 1 true id).active 0 = true ∧
      ((inPiece .resumption 1 true id).line 0).unit.state = .idle ∧
      ((inPiece .resumption 1 true id).line 0).sched.running = true ∧
      ((inPiece .resumption 1 true id).line 0).sched.position = some 2 := by decide +kernel
/-- R164: the answer-back and its shift, and what follows; R161 for an empty interruption text. -/
theorem wit_CodeSentBeginsTheNext_answerBack :
    let goes := fun (s : State) =>
      let t := after (.codeSent 0) s
      ((t.line 0).unit.out.map OutCode.code, (t.line 0).sched.piece, (t.line 0).sched.answerBack)
    let sent := fun n ready story f =>
      goes (inPiece (.answerBack ready) n story fun k => f { k with answerBack := .beingSent })
    let owed := fun k : Sched => { k with interruptionOwed := some .figs }
    let quiet := fun s : State => { s with toPart := s.toPart.updLine 0 fun x =>
      { x with texts := { x.texts with interruption := [] } } }
    sent 1 false true id = (some 5, .answerBack false, .beingSent) ∧
      sent 2 false true id = (some 27, .answerBack false, .beingSent) ∧
      sent 2 false false id = (some 31, .answerBack false, .beingSent) ∧
      sent 3 false true id = (some 0, .story, .clear) ∧ sent 3 false false owed = (some 31, .interruption, .clear) ∧
      sent 3 true false id = (some 31, .shift .ltrs .ready, .clear) ∧
      sent 3 true true (fun k => { k with position := none }) = (some 27, .shift .figs .held, .clear) ∧
      sent 3 true true (fun k => { k with position := none, resumptionOwed := true }) =
        (some 31, .resumption, .clear) ∧
      goes (quiet (inPiece (.answerBack false) 3 false owed)) = (some 31, .shift .ltrs .interruption, .clear) ∧
      goes (inPiece .interruption 2 false fun k => { k with answerBack := .pending }) =
        (some 31, .answerBack false, .beingSent) ∧
      goes (inPiece (.shift .ltrs .ready) 0 false fun k => { k with answerBack := .pending }) =
        (some 31, .answerBack false, .beingSent) := by decide +kernel
/-- As `sending`, with a line-end mark at offset 1 in FIGS and a FLASH story of call 8 waiting in slot 4. -/
def lineEndState (answer : AnswerBackRequest) : State :=
  let s := sending 1 base
  let flash : Record := { line := some 0, priority := 0, blocks := [765], count := 2,
                          body := .outbound { outStory .queued with call := 8, reservation := [] } }
  { s with toPart := ({ s.toPart.setRecord 4 (some flash) with
      mem := [(767 * 64 + 1, OutEntry.pack { code := 2, plane := .figs, mark := true })] } : Part).updSched 0 fun k =>
        { k with queue := [3, 4], answerBack := answer } }
theorem wit_LineEndPreemption :
    let s := lineEndState .clear
    s.active 0 = true ∧ (s.line 0).sched.piece = .story ∧ (s.line 0).sched.current = some 3 ∧
      s.record 3 = some (outRec (outStory .sending)) ∧ (s.line 0).sched.position = some 1 ∧
      (s.outEntry (outRec (outStory .sending)) 1) = { code := 2, plane := .figs, mark := true } ∧
      s.preemptor 0 3 = true ∧ s.preemptor 0 0 = false := by decide +kernel
/-- The same with an empty interruption text and the mark in LTRS. -/
def quietLineEnd : State :=
  let s := lineEndState .clear
  { s with toPart := ({ s.toPart with
      mem := [(767 * 64 + 1, OutEntry.pack { code := 2, plane := .ltrs, mark := true })] } : Part).updLine 0 fun x =>
        { x with texts := { x.texts with interruption := [] } } }
theorem wit_LineEndPreemption_empty :
    let s := quietLineEnd
    s.active 0 = true ∧ s.preemptor 0 3 = true ∧ (s.line 0).texts.interruption = [] ∧
      (s.outEntry (outRec (outStory .sending)) 1).plane = .ltrs ∧ (s.line 0).sched.answerBack ≠ .pending ∧
      (s.line 0).sched.queue = [3] ++ 4 :: [] ∧ (s.outRecord 4).map OutRecord.state = some .queued ∧
      ((after (.codeSent 0) s).line 0).sched.current = some 4 ∧
      ((after (.codeSent 0) s).outRecord 3).map OutRecord.state = some .suspended := by decide +kernel
theorem test_flash_preempts :
    let t := after (.codeSent 0) (lineEndState .clear)
    (t.outRecord 3).map OutRecord.resume = some (some (2, .figs)) ∧ (t.line 0).unit.out.map OutCode.code = some 31 ∧
      (t.line 0).sched.piece = .interruption := by decide +kernel
theorem test_answer_back_first :
    ((after (.codeSent 0) (lineEndState .pending)).line 0).sched.piece = .answerBack false := by decide +kernel
/-- Line 0 at the last code of a piece, stories of slots 3 (priority 3) and 4 (FLASH) waiting. -/
def choosing (queue : List Slot) : State :=
  let s := lineEndState .clear
  { s with toPart := (s.toPart.updOut 3 fun x => { x with state := .queued }).updSched 0 fun k =>
      { k with queue := queue, current := none, position := none, piece := .interruption, progress := 2,
               interruptionOwed := some .figs } }
theorem wit_FreeSenderChooses :
    let s := choosing [3, 4]
    s.active 0 = true ∧ (s.line 0).sched.running = true ∧ (s.line 0).sched.current = none ∧
      (s.line 0).sched.answerBack = .clear ∧ (s.line 0).sched.piece = .interruption ∧
      (s.line 0).sched.progress + 1 = (s.line 0).texts.interruption.length ∧
      (s.line 0).sched.queue = [3] ++ 4 :: [] ∧ (s.outRecord 4).map OutRecord.state = some .queued ∧
      (s.outRecord 3).map OutRecord.state = some .queued := by decide +kernel
/-- The same at the end of an answer-back with nothing owed. -/
theorem wit_FreeSenderChooses_answerBack :
    let s := choosing [3, 4]
    let s : State := { s with toPart := s.toPart.updSched 0 fun k =>
      { k with piece := .answerBack false, progress := 3, answerBack := .beingSent, interruptionOwed := none } }
    (s.line 0).sched.progress = (s.line 0).texts.answerBack.length ∧ (s.line 0).sched.current = none ∧
      ((after (.codeSent 0) s).line 0).sched.current = some 4 ∧
      ((after (.codeSent 0) s).line 0).sched.answerBack = .clear := by decide +kernel
/-- The chosen record of slot 3 stands SUSPENDED, or has no code. -/
def choosingOne (r : Record) : State := withRecord r (choosing [3])
theorem wit_FreeSenderChooses_suspended :
    let x : OutRecord := { outStory .suspended with resume := some (2, .figs) }
    let s := choosingOne (outRec x)
    (s.line 0).sched.queue = [] ++ 3 :: [] ∧ s.record 3 = some (outRec x) ∧
      ((after (.codeSent 0) s).line 0).sched.piece = .resumption ∧
      ((after (.codeSent 0) s).line 0).sched.position = some 2 := by decide +kernel
theorem wit_FreeSenderChooses_none :
    let x : OutRecord := { outStory .queued with completion := some 5 }
    let s := choosingOne { outRec x with count := 0 }
    s.record 3 = some { outRec x with count := 0 } ∧ s.hasRequest (.record 3) = false ∧
      ((after (.codeSent 0) s).outRecord 3).map OutRecord.outcome = some (some .sent) ∧
      (after (.codeSent 0) s).groups.get 5 = true := by decide +kernel
theorem test_flash_chosen :
    ((after (.codeSent 0) (choosing [3, 4])).line 0).sched.current = some 4 ∧
    ((after (.codeSent 0) (choosing [])).line 0).unit.out = none := by decide +kernel
theorem wit_StoryCompletes :
    let s := sending 2 base
    s.active 0 = true ∧ (s.line 0).sched.running = true ∧ (s.line 0).sched.piece = .story ∧
      s.record 3 = some (outRec (outStory .sending)) ∧ (s.line 0).sched.position = some (3 - 1) ∧
      (s.line 0).sched.queue = [3] ∧ s.hasRequest (.record 3) = false := by decide +kernel
theorem test_story_completes :
    let t := after (.codeSent 0) (sending 2 base)
    (t.outRecord 3).map OutRecord.outcome = some (some .sent) ∧
      (t.requestOf (.record 3)).map Request.key = some 7 := by decide +kernel

/-! ### Timers -/

/-- The stall timer of line 0 runs over a tied story. -/
def stalling (st : InState) : State :=
  let s := inText (inRec (inStory st))
  { s with toPart := s.toPart.updRecog 0 fun g => { g with stallSince := some 0 } }
theorem wit_StallEndsTheStory : (stalling .carrying).active 0 = true ∧
    ((stalling .carrying).line 0).recog.stallSince.isSome = true ∧
    ((stalling .carrying).line 0).recog.lookahead = [] ∧ ((stalling .carrying).line 0).recog.tied = some 3 ∧
    (stalling .carrying).record 3 = some (inRec (inStory .carrying)) := by decide +kernel
theorem test_stall_expiry :
    ((after (.stallExpiry 0) (stalling .carrying)).requestOf (.record 3)).map Request.kind = some .text ∧
    (after (.stallExpiry 0) (stalling .opening)).record 3 = none := by decide +kernel
/-- A register entry of service 3, serial 400, heard at 0 from slot 7 of station 9. -/
def entry400 : Entry :=
  { service := 3, serial := 400, owner := { station := 9, slot := 7 }, state := .live, quiet := false,
    progress := 0, heard := 0, order := 0 }
theorem wit_LiveEntriesAge :
    Instr.entryAged 3 400 ∈ ({ base with register := [entry400], now := 240000000 } : State).dueEntries ∧
    Instr.entryAged 3 400 ∉ ({ base with register := [entry400], now := 239999999 } : State).dueEntries := by
  decide +kernel
/-- A standby story behind slot 7 of station 9, which has sent `n` characters. -/
def standing (n : Nat) : InRecord :=
  { inStory .standby with
    peer := some { owner := { station := 9, slot := 7 }, progress := n, since := 0, past20 := false } }
/-- R120, R122: a character stored in a STANDBY story after 20 s of silence; the count becomes 4. -/
theorem wit_CodesTakenInIdle_standby :
    let x := fun n => { standing n with peer := (standing n).peer.map fun p => { p with past20 := true } }
    let s := fun n => inText (inRec (x n))
    let t := fun n => after (.receivedCode 0) (s n)
    (s 3).toPart.delivers 0 65 ∧ (s 3).record 3 = some (inRec (x 3)) ∧ (x 3).quiet = false ∧
      ((t 3).inRecord 3).map InRecord.state = some .carrying ∧ ((t 3).inRecord 3).map InRecord.cursor = some 3 ∧
      ((t 3).requestOf (.record 3)).map Request.kind = some .offer ∧
      ((t 4).inRecord 3).map InRecord.state = some .standby ∧ ((t 4).record 3).map Record.count = some 4 ∧
      (t 4).hasRequest (.record 3) = false ∧
      ((after (.receivedCode 0) (inText (inRec (standing 2)))).inRecord 3).map InRecord.state = some .standby := by
  unfold Part.delivers; decide +kernel
theorem wit_PeerSilenceTakesOver :
    (withRecord (inRec (standing 2)) base).record 3 = some (inRec (standing 2)) ∧ (standing 2).state = .standby ∧
      (standing 2).quiet = false ∧ 2 < (inRec (standing 2)).count ∧ (inRec (standing 3)).count ≤ 3 := by decide +kernel
theorem test_peer_silence :
    ((after (.peerSilence20s 3) (withRecord (inRec (standing 2)) base)).inRecord 3).map InRecord.state = some .carrying ∧
    ((after (.peerSilence20s 3) (withRecord (inRec (standing 3)) base)).inRecord 3).map InRecord.state = some .standby ∧
    ((after (.peerSilence120s 3) (withRecord (inRec (standing 3)) base)).inRecord 3).map InRecord.cursor = some 3 := by
  decide +kernel
theorem wit_ClaimsAndIntakesEnd : (claiming base).record 3 = some (outRec pendingClaim) ∧
    (claiming base).frameUnderWay (.record 3) = false ∧
    (underWay (.record 3) .claim [] (claiming base)).frameUnderWay (.record 3) = true ∧
    (withRecord (outRec (outStory .intake)) base).record 3 = some (outRec (outStory .intake)) := by decide +kernel
theorem test_claim_and_intake_expire :
    (after (.claimPendingExpiry 3) (claiming base)).record 3 = none ∧
    ((after (.intakeSilenceExpiry 3) (withRecord (outRec (outStory .intake)) base)).outRecord 3).map OutRecord.state =
      some .aborting := by decide +kernel
theorem wit_CountsAndQueriesTaken : base.loader = .running ∧ base.active 0 = true ∧ (base.cfg 0).auto = true ∧
    base.active 4 = false ∧ names (orderOf 0 []) 0 ∧ ¬names (orderOf 0 []) 1 := by
  unfold names; decide +kernel
theorem test_report_period :
    let s := onLine fun x => { x with sup := { x.sup with counter := 5 } }
    ((after .reportPeriodExpiry s).line 0).sup.snapshot = 5 ∧ (after .reportPeriodExpiry s).cond 0 .degraded = true := by
  decide +kernel

theorem wit_other_timers :
    let intake := outRec { outStory .intake with
      intake := some { expected := 0, plane := .ltrs, column := 0, since := 0 } }
    fallsDueAt (fun s => s.dueRecord 3) (.peerSilence20s 3) 40000000 (withRecord (inRec (standing 2)) base) = true ∧
    fallsDueAt (fun s => s.dueRecord 3) (.peerSilence120s 3) 240000000 (withRecord (inRec (standing 2)) base) = true ∧
    fallsDueAt (fun s => s.dueRecord 3) (.claimPendingExpiry 3) 4000000 (claiming base) = true ∧
    fallsDueAt (fun s => s.dueRecord 3) (.intakeSilenceExpiry 3) 20000000 (withRecord intake base) = true ∧
    fallsDueAt (fun s => s.dueStation) .reportPeriodExpiry 120000000 base = true ∧
    fallsDueAt (fun s => s.dueStation) .busSilentExpiry 2000000
      { base with toPart := base.toPart.updPort fun p => { p with silentSince := some 0 } } = true ∧
    fallsDueAt (fun s => s.dueStation) .configFaultRepeat 20000000
      { base with loader := .configFault, repeatSince := some 0 } = true := by decide +kernel

/-! ### The bus -/

/-- The port of the station in a state. -/
def port (st : PortState) (s : State) : State := { s with toPart := s.toPart.updPort fun p => { p with state := st } }
theorem wit_PortReceivesAndJudges : base.loader ≠ .off ∧ (port .wait base).port.state = .wait ∧
    (port .free base).port.state = .free ∧ base.port.state = .receiving ∧
    State.reset.port.state = .wait ∧ State.reset.port.synced = false ∧
    (underWay (.record 3) .claim [] (claiming base)).port.drives = true := by decide +kernel
theorem test_bus_free : (after .busFree (port .wait base)).port.state = .free := by decide +kernel
theorem test_start_bit : (after .startBitRead (port .free base)).port.state = .receiving ∧
    (after .startBitRead State.reset).port.state = .wait := by decide +kernel
theorem test_spoil_slot : (after .spoilSlotReadDominant base).port.state = .wait := by decide +kernel
theorem test_arbitration_lost :
    (after .arbitrationLost (underWay (.record 3) .claim [] (claiming base))).port.state = .receiving := by
  decide +kernel
theorem test_notice_heard :
    (after (.heardNotice { kind := .notice, body := heardOf 0 [1, 0, 0] }) base).hearings = 1 ∧
    (after (.heardNotice { kind := .order, body := heardOf 0 [14, 255] }) base).port.state = .wait := by decide +kernel
/-- R175: until ten idle bits have been counted no frame is received. -/
def deafPort : State := port .wait { base with port := { base.port with synced := false } }
theorem test_deaf_port : after (.query (orderOf 255 [])) deafPort = deafPort := by decide +kernel
/-- Line 0's condition notice waits at a free port. -/
def noticeWaits : State :=
  let s := port .free base
  { s with toPart := s.toPart.setCond 0 .brk true }
theorem wit_FreePortBeginsHeadRequest : noticeWaits.toPart.maySend = true ∧ noticeWaits.port.sticky = none ∧
    noticeWaits.port.sendList.head? = some (conditionRequest 0) ∧ base.toPart.maySend = false := by decide +kernel
theorem test_notice_begins :
    (after .busFree noticeWaits).port.own.map (fun f => f.frame.body.payload) = some [1, 2, 2] := by decide +kernel
/-- R176's arithmetic: the bytes 128, 0, 5, 1, 7 want the check byte 115. -/
theorem wit_PortReceivesAndJudges_check : base.port.state = .receiving ∧ base.loader ≠ .off ∧
    (([128, 0, 5, 1, 7, 115] : List Byte).map BitVec.toNat).sum % 256 = 0 ∧
    (([128, 0, 5, 1, 7, 114] : List Byte).map BitVec.toNat).sum % 256 ≠ 0 := by decide +kernel
theorem test_check_rejects : (after (.frameCheck [128, 0, 5, 1, 7, 114]) base).port.rejecting = true ∧
    (after (.frameCheck [128, 0, 5, 1, 7, 115]) base).port.rejecting = false := by decide +kernel
theorem wit_SpoiledFramesAndSilence :
    let s := underWay (.condition 0) .notice [1, 2, 2] base
    let silent : State := { s with toPart := s.toPart.updPort fun p => { p with silentSince := some 0 } }
    s.loader ≠ .off ∧ s.port.drives = true ∧ s.port.own.map OwnFrame.removed = some false ∧
      s.port.own.map (fun f => f.frame.kind) = some .notice ∧ silent.port.silentSince.isSome = true := by decide +kernel
/-- A frame whose request was removed drives its own spoil slot dominant (R184). -/
theorem wit_SpoiledFramesAndSilence_removed :
    let s := underWay (.record 3) .claim [1] base
    let t : State := { s with toPart := s.toPart.removeRequest (.record 3) }
    t.port.drives = true ∧ t.port.own.map OwnFrame.removed = some true ∧ 32 * (41 + 8 * 1) ≤ t.now ∧
      t.toPart.cbd = true ∧ s.toPart.cbd = false ∧ base.toPart.cbd = false := by decide +kernel
theorem wit_SpoiledFramesAndSilence_bits :
    let s : State := { underWay (.record 3) .claim [1] base with now := 31 }
    s.now < 0 + 32 ∧ s.toPart.cbd = true ∧ ({ s with now := 32 * 2 } : State).toPart.cbd = false ∧
      0 + 32 * (1 + 1) ≤ 64 ∧ 64 < 0 + 32 * (1 + 2) := by decide +kernel
/-- A claim, ended while its CLAIM was under way or not, whose frame is spoiled (R143). -/
theorem wit_SpoiledFramesAndSilence_claim :
    let s := fun e => underWay (.record 3) .claim [] (withRecord (outRec { pendingClaim with
      claim := some { bid := 5, since := none, ending := e } }) base)
    (s (some .withdraw)).port.own.map OwnFrame.removed = some false ∧
      (after (.ownFrameSpoilSlot true) (s (some .withdraw))).record 3 = none ∧
      ((after (.ownFrameSpoilSlot true) (s none)).record 3).isSome = true := by decide +kernel
theorem test_eighth_spoil :
    let s := underWay (.condition 0) .notice [1, 2, 2] base
    let t : State := { s with toPart := s.toPart.updPort fun p => { p with spoilCount := 7 } }
    (after (.ownFrameSpoilSlot true) t).stationCond .busSilent = true ∧
      (after (.ownFrameSpoilSlot true) s).port.spoilCount = 1 ∧
      (after .busSilentExpiry (after (.ownFrameSpoilSlot true) t)).notices.events = 2 := by decide +kernel
/-- The frame of the inbound story in slot 3 under way. -/
def storyFrame (st : InState) (k : FrameKind) (payload : List Byte) : State :=
  underWay (.record 3) k payload (withRecord (inRec (inStory st)) base)
theorem wit_StoryFrameSent : (storyFrame .carrying .close [0, 5, 0, 3, 0, 3, 0, 0, 0]).port.drives = true ∧
    (storyFrame .carrying .close []).record 3 = some (inRec (inStory .carrying)) ∧
    (storyFrame .rerunning .close []).record 3 = some (inRec (inStory .rerunning)) ∧
    (storyFrame .carrying .close []).port.own.map (fun f => f.frame.body.station.toNat) = some 5 ∧
    (storyFrame .carrying .close []).number = 5 ∧
    (storyFrame .carrying .close [0]).port.own.map (fun f => aboutCall f.frame.body) = some false := by decide +kernel
theorem test_story_frame_sent :
    ((after (.ownFrameSpoilSlot false) (storyFrame .carrying .text [0, 5, 0, 3, 0, 0, 65, 66])).inRecord 3).map
      InRecord.cursor = some 2 ∧
    (after (.ownFrameSpoilSlot false) (storyFrame .carrying .close [0])).recent = [3] := by decide +kernel
/-- R64, R66: what the story of slot 3 asks for once its OFFER, or a TEXT of its three characters, is sent. -/
theorem wit_StoryFrameSent_next :
    let asks := fun (k : FrameKind) (payload : List Byte) (mem : Memory) (r : Record) =>
      ((after (.ownFrameSpoilSlot false) (underWay (.record 3) k payload
        { withRecord r base with mem := mem })).requestOf (.record 3)).map Request.kind
    let r := inRec (inStory .carrying)
    let sent := [0, 5, 0, 3, 0, 0, 65, 66, 67]
    asks .offer [] [] r = none ∧ asks .offer [] [] { r with line := none } = some .text ∧
      asks .offer [] [(767 * 64 + 2, 10)] { r with priority := 1 } = some .text ∧
      asks .offer [] [(767 * 64 + 2, 10)] { r with priority := 2 } = none ∧
      asks .offer [] [] { inRec { inStory .carrying with quiet := true } with line := none } = some .close ∧
      asks .text sent [] { r with line := none } = some .close ∧
      asks .text sent [] { r with line := none, count := 5 } = some .text ∧ asks .text sent [] r = none := by
  decide +kernel
/-- A WITHDRAW about the story of slot 3, heard by its own station. -/
theorem wit_StoryFrameSent_withdraw :
    let own : Entry := { entry400 with owner := { station := 5, slot := 3 } }
    let s := { storyFrame .withdrawing .withdraw [0, 5, 0, 3] with register := [own] }
    let f := heardOf 3 [0, 5, 0, 3]
    s.record 3 = some (inRec (inStory .withdrawing)) ∧ s.port.own.map (fun f => f.frame.kind) = some .withdraw ∧
      readWithdraw { f with station := 5 } = some (.story { station := 5, slot := 3 }) ∧
      (after (.ownFrameSpoilSlot false) s).record 3 = none := by decide +kernel
theorem wit_CallFrameSent :
    let s := underWay (.record 3) .claim [] (claiming base)
    s.port.drives = true ∧ s.record 3 = some (outRec pendingClaim) ∧
      s.port.own.map (fun f => f.frame.body.station.toNat) = some s.number ∧
      (pendingClaim.claim.bind Claim.ending) = none := by decide +kernel
theorem wit_CallFrameSent_endings :
    let s := fun e => underWay (.record 3) .claim [] (withRecord (outRec { pendingClaim with
      claim := some { bid := 5, since := none, ending := some e } }) base)
    ((after (.ownFrameSpoilSlot false) (s .abort)).outRecord 3).map OutRecord.state = some .aborting ∧
      (after (.ownFrameSpoilSlot false) (s .free)).record 3 = none ∧
      ((after (.ownFrameSpoilSlot false) (s .withdraw)).outRecord 3).map OutRecord.state = some .intake := by
  decide +kernel
theorem wit_CallFrameSent_withdraw :
    let s := underWay (.record 3) .withdraw [1, 9, 0, 7] (withRecord (outRec (outStory .aborting)) base)
    s.port.own.map (fun f => aboutCall f.frame.body) = some true ∧ (9 : Nat) ≠ s.number ∧
      (after (.ownFrameSpoilSlot false) s).record 3 = none := by decide +kernel
theorem test_claim_won :
    ((after (.ownFrameSpoilSlot false) (underWay (.record 3) .claim [] (claiming base))).outRecord 3).map
      OutRecord.state = some .intake := by decide +kernel
theorem wit_NoticeSent :
    let s := underWay (.condition 0) .notice [1, 2, 2] (noticeWaits)
    s.port.drives = true ∧ s.port.own.map (fun f => f.frame.kind) = some .notice ∧ (s.line 0).sup.changed = 2 ∧
      (underWay .station .notice [3, 0, 0, 1] base).port.own.map OwnFrame.owner = some .station ∧
      (underWay (.report 0) .notice [2, 0, 2, 0, 0, 0] base).port.own.map OwnFrame.owner = some (.report 0) := by
  decide +kernel
theorem test_notice_sent :
    ((after (.ownFrameSpoilSlot false) (underWay (.condition 0) .notice [1, 2, 2] noticeWaits)).line 0).sup.changed = 0 ∧
    (after (.ownFrameSpoilSlot false) (underWay (.condition 0) .notice [1, 2, 2] noticeWaits)).port.sendList = [] := by
  decide +kernel

/-! ### Heard frames -/

theorem wit_hears : base.toPart.hears ∧ fromStation (heardOf 7 []) = true := by
  unfold Part.hears; decide +kernel
/-- Call 7 of station 9 for group 1: ROUTINE, 3 characters. -/
def call7 : Heard := heardOf 7 [0, 7, 1, 3, 0, 3, 255, 255]
theorem wit_CallIsClaimed : (readCall call7).map CallFields.chars = some 3 ∧
    base.callSlot 9 7 = none ∧ (∀ c, readCall call7 = some c → base.eligible 0 c = true ∧ base.eligible 3 c = false ∧
      base.bid 0 3 = base.bid 1 3) ∧ base.lowestFree = some 0 ∧ boundBlocks (base.cfg 0) 3 = 1 := by
  refine ⟨by decide +kernel, by decide +kernel, ?_, by decide +kernel, by decide +kernel⟩
  intro c h
  have : c = (readCall call7).get (by decide) := by simp [h]
  subst this; decide +kernel
theorem wit_CallIsClaimed_held : (claiming base).callSlot 9 7 ≠ none := by decide +kernel
theorem test_call_claimed :
    ((after (.heardCall call7) base).outRecord 0).map OutRecord.reservation = some [0] ∧
    ((after (.heardCall call7) base).requestOf (.record 0)).map Request.kind = some .claim := by decide +kernel
theorem wit_ClaimHeardAndCallWithdrawn :
    (claiming base).callSlot 9 7 = some 3 ∧ readClaim (heardOf 5 [9, 0, 7, 0, 0, 5]) = some (9, 7) ∧
    (heardOf 5 []).station.toNat ≠ (claiming base).number ∧
    readWithdraw (heardOf 7 [1, 9, 0, 7]) = some (.call 9 7) ∧ (heardOf 7 []).station.toNat = 9 ∧
    (withRecord (outRec (outStory .queued)) base).callSlot 9 7 = some 3 ∧
    (underWay (.record 3) .claim [] (claiming base)).callSlot 9 7 = some 3 := by decide +kernel
theorem test_claim_heard : (after (.heardClaim (heardOf 5 [9, 0, 7, 0, 0, 5])) (claiming base)).record 3 = none := by
  decide +kernel
theorem test_call_withdrawn :
    (after (.heardWithdrawCall (heardOf 7 [1, 9, 0, 7])) (withRecord (outRec (outStory .intake)) base)).free.length =
      770 := by decide +kernel
/-- The intake of call 7 expects offset 0, in plane `p`. -/
def intaking (p : Plane) : State :=
  withRecord (outRec { outStory .intake with
    intake := some { expected := 0, plane := p, column := 0, since := 0 } }) base
def text7 (o : Byte) (cs : List Byte) : Heard := heardOf 7 ([1, 9, 0, 7, 0, o] ++ cs)
theorem wit_CallTextTaken : readText (text7 0 [65]) = some (.call 9 7, 0, [65]) ∧
    (intaking .ltrs).callSlot 9 7 = some 3 ∧ readText (text7 1 [65]) = some (.call 9 7, 1, [65]) ∧
    readText (text7 0 [13, 13]) = some (.call 9 7, 0, [13, 13]) ∧
    charClass ((intaking .ltrs).map 0) 65 = .letter ∧ primaryPlane ((intaking .ltrs).map 0) 65 = some .ltrs ∧
    codeIn ((intaking .ltrs).map 0) .ltrs 65 = some 1 ∧
    admissionOf (intaking .ltrs).settings.admission ((intaking .ltrs).cfg 0).profile true .letter = .pass := by
  decide +kernel
theorem test_call_text :
    let t := after (.heardTextCall (text7 0 [65])) (intaking .ltrs)
    t.mem.read (767 * 64 + 3) = 1 ∧ (t.record 3).map Record.count = some 4 ∧
      ((after (.heardTextCall (text7 1 [65])) (intaking .ltrs)).outRecord 3).map OutRecord.state = some .aborting := by
  decide +kernel
/-- The intake of `intaking` with other blocks, count and reservation. -/
def intakingOf (p : Plane) (count : Nat) (reservation : List Nat) : State :=
  withRecord { outRec { outStory .intake with
    reservation := reservation, intake := some { expected := 1, plane := p, column := 0, since := 0 } } with
      count := count } base
/-- The outbound admission of letters set. -/
def admitting (a : Admission) (s : State) : State :=
  { s with settings := { smallSettings with admission := smallSettings.admission.set 8 a } }
theorem wit_CallTextTaken_overlap : readText (text7 0 [65, 67]) = some (.call 9 7, 0, [65, 67]) ∧
    readText (text7 1 [67]) = some (.call 9 7, 1, [65, 67].drop (1 - 0)) ∧
    after (.heardTextCall (text7 0 [65, 67])) (intakingOf .ltrs 3 []) =
      after (.heardTextCall (text7 1 [67])) (intakingOf .ltrs 3 []) := by decide +kernel
theorem wit_CallTextTaken_admission :
    let t := fun a => after (.heardTextCall (text7 1 [67])) (admitting a (intakingOf .ltrs 3 [766]))
    let count := fun s : State => (s.record 3).map Record.count
    admissionOf (admitting .drop base).settings.admission 0 true .letter = .drop ∧
    count (t .pass) = some 4 ∧ count (t .substitute) = some 4 ∧ (t .substitute).mem.read (767 * 64 + 3) = 1 ∧
      count (t .drop) = some 3 ∧ ((t .refuse).outRecord 3).map OutRecord.state = some .aborting ∧
      ((t .drop).line 0).sup.faults.get 5 ≠ none ∧ ((t .pass).line 0).sup.faults.get 5 = none := by decide +kernel
theorem wit_CallTextTaken_block :
    let t := fun (c : Nat) (rs : List Nat) => after (.heardTextCall (text7 1 [67])) (intakingOf .figs c rs)
    ((t 63 [766]).record 3).map Record.blocks = some [767, 766] ∧ ((t 63 [766]).record 3).map Record.count = some 65 ∧
      ((t 63 []).record 3).map Record.blocks = some [767, 0] := by decide +kernel
theorem wit_CallTextTaken_overrun :
    let s := { intakingOf .figs 63 [] with free := [] }
    let t := after (.heardTextCall (text7 1 [67])) s
    s.free = [] ∧ s.recent = [] ∧ (encodeChar (s.map 0) (s.cfg 0) { plane := .figs, column := 0 } 67).1.length = 2 ∧
      (t.record 3).map Record.count = some 64 ∧ (t.outRecord 3).map OutRecord.state = some .aborting ∧
      ((t.line 0).sup.faults.get 7).isSome = true := by decide +kernel
/-- R41, R42: LINE END, a word fold at column W − F, a hard fold at column W. -/
theorem test_folds :
    let codes := fun (column : Nat) (ch : Byte) =>
      (encodeChar smallMap { smallLine with guardShift := true } { plane := .ltrs, column := column } ch).1.map
        fun e => (e.code.toNat, e.mark)
    codes 5 10 = [(8, false), (2, false), (31, true)] ∧ codes 59 32 = codes 5 10 ∧ codes 58 32 = [(4, false)] ∧
      codes 69 65 = codes 5 10 ++ [(1, false)] := by decide +kernel
/-- In FIGS, the letter 65 is stored behind the LTRS code 31, both leaving plane LTRS (R40). -/
theorem test_call_text_shift :
    let t := after (.heardTextCall (text7 0 [65])) (intaking .figs)
    t.mem.read (767 * 64 + 3) = 31 ∧ t.mem.read (767 * 64 + 4) = 1 := by decide +kernel
def close7 (total : Byte) : Heard := heardOf 7 [1, 9, 0, 7, 0, total, 0, 0, 0]
theorem wit_CallCloseTaken : readClose (close7 0) = some (.call 9 7, 0, 0) ∧ (close7 0).station.toNat = 9 ∧
    readClose (close7 2) = some (.call 9 7, 2, 0) ∧ base.senderFree 0 = false ∧
    ({ intaking .ltrs with
      toPart := (intaking .ltrs).toPart.updSched 0 fun k => { k with running := true } } : State).senderFree 0 = true := by
  decide +kernel
/-- A story in FIGS whose last code bears the mark gains the LTRS code, and the mark moves to it (R45). -/
theorem wit_CallCloseTaken_shift :
    let marked := { intakingOf .figs 3 [766] with
      mem := [(767 * 64 + 2, OutEntry.pack { code := 2, plane := .figs, mark := true })] }
    let t := after (.heardCloseCall (close7 1)) marked
    readClose (close7 1) = some (.call 9 7, 1, 0) ∧ (t.record 3).map Record.count = some 4 ∧
      t.mem.read (767 * 64 + 3) = OutEntry.pack { code := 31, plane := .ltrs, mark := true } ∧
      t.mem.read (767 * 64 + 2) = OutEntry.pack { code := 2, plane := .figs, mark := false } ∧
      t.free.getLast? = some 766 := by decide +kernel
theorem wit_CallCloseTaken_block :
    let t := fun (rs free : List Nat) => after (.heardCloseCall (close7 1)) { intakingOf .figs 64 rs with free := free }
    ((t [766, 765] [0, 1]).record 3).map Record.blocks = some [767, 766] ∧ (t [766, 765] [0, 1]).free = [0, 1, 765] ∧
      ((t [] [0, 1]).record 3).map Record.blocks = some [767, 0] ∧ (t [] [0, 1]).free = [1] ∧
      ((t [] []).outRecord 3).map OutRecord.state = some .aborting ∧
      (((t [] []).line 0).sup.faults.get 7).isSome = true := by decide +kernel
theorem test_call_close :
    let t := after (.heardCloseCall (close7 0)) (intaking .ltrs)
    (t.line 0).sched.queue = [3] ∧ t.free.getLast? = some 766 ∧
      ((after (.heardCloseCall (close7 2)) (intaking .ltrs)).outRecord 3).map OutRecord.state = some .aborting := by
  decide +kernel

/-- An OFFER of service 3, serial `n`, from slot 7 of station 9, with 12 characters sent. -/
def offer (n : Nat) (flags : Byte) : Heard :=
  heardOf 7 ([7, 3] ++ be16 n ++ [3, 2, flags, 0, 12, 0])
theorem wit_OfferTakenByRegister :
    (readOffer (offer 419 0)).map OfferFields.serial = some (some 419) ∧
    (readOffer (offer 419 0)).map OfferFields.owner = some { station := 9, slot := 7 } ∧
    (readOffer (offer 0 0)).map OfferFields.serial = some none ∧ RegisterLaw [entry400] := by
  refine ⟨by decide +kernel, by decide +kernel, by decide +kernel, by decide, List.pairwise_singleton _ _⟩
/-- 48 LIVE entries of other stations' stories. -/
def fullRegister : List Entry :=
  (List.range 48).map fun k => { entry400 with serial := 1 + k, heard := k, owner := { station := 10, slot := k } }
theorem wit_OfferTakenByRegister_full : fullRegister.length = 48 ∧
    fullRegister.all (fun e => e.state == .live && !(e.serial == 419)) = true := by decide +kernel
theorem test_offer_registered :
    (after (.heardOffer (offer 419 0)) { base with register := [entry400] }).register.map Entry.state =
      [.withdrawn, .live] := by decide +kernel
theorem test_offer_replaces :
    let t := after (.heardOffer (offer 419 0)) { base with register := fullRegister }
    t.register.length = 48 ∧ t.entryOf 3 1 = none ∧ (t.entryOf 3 2).isSome = true ∧
      (t.entryOf 3 419).map Entry.progress = some 12 := by decide +kernel
/-- R104, R105, R107: serial 490 where 418 is expected is a JUMP, recorded for line 0; a rerun's, an OFFER without a
serial and one of an untracked service reach no tracker. -/
theorem wit_OfferTakenByRegister_loss :
    let s : State := { base with toPart := (base.toPart.setCond 0 .gap true).setCond 3 .gap true }
    let t := after (.heardOffer (offer 490 0)) s
    let r := fun l : LineNo => (t.line l).sup.faults.get FaultKind.serialGap.idx
    (s.tracker 3).map (fun k => (k.take 490).2) = some true ∧
      t.trackers = [{ service := 3, expected := some 491, gaps := [] }] ∧
      (r 0).map FaultRecord.fields =
        some { handle := some { station := 9, slot := 7 }, serial := some 490, offset := 0, raw := none, plane := .ltrs } ∧
      r 1 = none ∧ r 3 = none ∧ t.cond 0 .gap = false ∧ t.cond 3 .gap = false := by decide +kernel
theorem wit_OfferTakenByRegister_untaken :
    (readOffer (offer 490 4)).map OfferFields.rerun = some true ∧
    (after (.heardOffer (offer 490 4)) base).trackers = base.trackers ∧
    (after (.heardOffer (offer 0 0)) base).trackers = base.trackers ∧
    (after (.heardOffer (offer 490 0)) { base with trackers := [] }).trackers = [] ∧
    base.toPart.leads 3 0 := by
  refine ⟨by decide +kernel, by decide +kernel, by decide +kernel, by decide +kernel, by decide +kernel, ?_⟩
  intro m h; exact absurd h (Nat.not_lt_zero _)
/-- The station holds serial 418 with its OFFER waiting. -/
def offering (quiet : Bool) : State :=
  let s := withRecord (inRec { inStory .carrying with quiet := quiet }) base
  { s with toPart := s.toPart.requestStory 3 .offer }
/-- The head request at a free port: an OFFER, a CLAIM, a WITHDRAW about a call, a report, the station notice. -/
theorem wit_FreePortBeginsHeadRequest_owners :
    let head := fun s : State => (port .free s).port.sendList.head?.map fun q => (q.owner, q.kind)
    let ask := fun (q : Request) => ({ base with toPart := base.toPart.addRequest q } : State)
    head (offering false) = some (.record 3, .offer) ∧ head (claiming base) = some (.record 3, .claim) ∧
      head (after (.intakeSilenceExpiry 3) (intaking .ltrs)) = some (.record 3, .withdraw) ∧
      head (ask (reportRequest 0)) = some (.report 0, .notice) ∧ head (ask stationRequest) = some (.station, .notice) ∧
      (port .free (claiming base)).toPart.maySend = true := by decide +kernel
/-- R114: the OFFER of serial 418 (1 × 256 + 162), ROUTINE, category 2. -/
theorem test_offer_frame :
    ((port .free (offering false)).toPart.serveBus).port.own.map (fun f => f.frame.body.payload) =
      some [3, 3, 1, 162, 3, 2, 0, 0, 0, 0] := by decide +kernel

theorem wit_OfferMeetsTheRecords : (readOffer (offer 418 0)).map (fun o => o.owner.station) = some 9 ∧
    base.number ≠ 9 ∧ ((offering false).requestOf (.record 3)).map Request.kind = some FrameKind.offer ∧
    (offering false).record 3 = some (inRec (inStory .carrying)) ∧
    (withRecord (inRec (standing 2)) base).record 3 = some (inRec (standing 2)) := by decide +kernel
/-- Slot 3 is being rerun, its OFFER sent. -/
theorem wit_OfferMeetsTheRecords_stays :
    let s := withRecord (inRec (inStory .rerunning)) base
    (after (.heardOffer (offer 418 0)) s).record 3 = s.record 3 ∧
    (s.requestOf (.record 3)).map Request.kind ≠ some FrameKind.offer ∧
    (after (.heardOffer (offer 418 0)) (claiming base)).record 3 = some (outRec pendingClaim) := by decide +kernel
theorem test_offer_yields :
    ((after (.heardOffer (offer 418 0)) (offering false)).inRecord 3).map InRecord.state = some .standby ∧
    ((after (.heardOffer (offer 418 1)) (offering false)).inRecord 3).map InRecord.state = some .carrying ∧
    ((after (.heardOffer (offer 419 0)) (withRecord (inRec (standing 2)) base)).inRecord 3).map InRecord.takeover =
      some true := by decide +kernel
def text7s : Heard := heardOf 7 [0, 9, 0, 7, 0, 12, 65, 66]
theorem wit_StoryFramesHeard :
    let h : Handle := { station := 9, slot := 7 }
    readText text7s = some (.story h, 12, [65, 66]) ∧
      readClose (heardOf 7 [0, 9, 0, 7, 0, 14, 0, 0, 0]) = some (.story h, 14, 0) ∧
      readWithdraw (heardOf 7 [0, 9, 0, 7]) = some (.story h) ∧
      (withRecord (inRec (standing 2)) base).standsBehind 3 h = true ∧ base.standsBehind 3 h = false := by
  decide +kernel
theorem test_story_text : ((after (.heardTextStory text7s) (withRecord (inRec (standing 2)) base)).inRecord 3).map
    (fun x => x.peer.map Peer.progress) = some (some 14) := by decide +kernel
/-- A TEXT of offset 15,999 with two characters: the progress is held at 16,000. -/
theorem test_progress_held :
    ((after (.heardTextStory { text7s with payload := [0, 9, 0, 7, 0x3E, 0x7F, 65, 66] })
      (withRecord (inRec (standing 2)) base)).inRecord 3).map (fun x => x.peer.map Peer.progress) =
      some (some 16000) := by decide +kernel
theorem test_story_close :
    let t := after (.heardCloseStory (heardOf 7 [0, 9, 0, 7, 0, 14, 0, 0, 0])) (withRecord (inRec (standing 2)) base)
    t.record 3 = none ∧ (t.line 0).recog.state = .discarding := by decide +kernel
theorem test_story_withdraw : ((after (.heardWithdrawStory (heardOf 7 [0, 9, 0, 7]))
    (withRecord (inRec (standing 2)) base)).inRecord 3).map InRecord.cursor = some 2 := by decide +kernel

/-! ### Orders -/

theorem wit_orders : base.toPart.takes .lines (orderOf 0 []) ∧ base.toPart.takes .lines (orderOf 255 []) ∧
    base.supervises (orderOf 0 []) = true ∧ base.toPart.takes (.station 1) (orderOf 0 [2]) ∧
    base.toPart.takes (.station 3) (orderOf 0 [3, 1, 162]) := by unfold Part.takes Part.hears; decide +kernel
theorem wit_LineOutTaken : names (orderOf 255 []) 0 ∧ base.active 0 = true ∧ (base.line 0).unit.state = .idle ∧
    base.active 4 = false ∧ orderLines (orderOf 0 []) = some [0] ∧
    ((sending 1 base).line 0).sched.piece = .story := by unfold names; decide +kernel
theorem test_line_out : ((after (.lineOut (orderOf 255 [])) (sending 1 base)).line 0).unit.state = .outOfService ∧
    ((after (.lineOut (orderOf 1 [])) (sending 1 base)).line 0).unit.state = .idle := by decide +kernel
theorem wit_LineInTestStopInsertError :
    (inState .outOfService base).toPart.takes .lines (orderOf 0 []) ∧ names (orderOf 0 []) 0 ∧
    ((inState .outOfService base).line 0).unit.state = .outOfService ∧
    ((inState .test base).line 0).unit.state = .test ∧ ((inState .test base).cfg 0).mode.sends = true := by
  unfold Part.takes Part.hears names; decide +kernel
theorem test_line_in : ((after (.lineIn (orderOf 0 [])) (inState .outOfService base)).line 0).unit.markSince =
    some 2000000 := by decide +kernel
theorem test_test_stop : ((after (.testStop (orderOf 0 [])) (sourced .test .generator)).line 0).unit.out = none := by
  decide +kernel
theorem test_insert_error : ((after (.insertError (orderOf 0 [])) (inState .test base)).line 0).sup.gen.insert = true := by
  decide +kernel
theorem wit_LineRestartTaken : names (orderOf 0 []) 0 ∧ base.active 0 = true ∧ (base.line 0).unit.state ≠ .unused ∧
    (3 : Slot) ∈ ((sending 1 base).line 0).sched.queue ∧ ((sending 1 base).line 0).sched.queue.Nodup ∧
    base.tracker 3 = some { service := 3, expected := some 418, gaps := [415] } := by unfold names; decide +kernel
/-- A claim and an intake on line 0, and a story in its queue. -/
theorem wit_LineRestartTaken_claims :
    let t := fun s => after (.lineRestart (orderOf 255 [])) s
    names (orderOf 255 []) 0 ∧ (outRec pendingClaim).line = some 0 ∧ (t (claiming base)).record 3 = none ∧
    ((t (underWay (.record 3) .claim [] (claiming base))).outRecord 3).map OutRecord.claim =
      some (some { bid := 5, since := none, ending := some .abort }) ∧
    ((t (intaking .ltrs)).outRecord 3).map OutRecord.state = some .aborting ∧
    ((t (sending 1 base)).outRecord 3).map OutRecord.outcome = some (some .abandoned) ∧
    ((3 : Slot) ∉ ((sending 1 base).line 1).sched.queue) := by unfold names; decide +kernel
theorem test_line_restart :
    let t := after (.lineRestart (orderOf 0 [])) (sending 1 base)
    (t.outRecord 3).map OutRecord.total = some 1 ∧ (t.line 0).unit.out = none ∧ t.cond 0 .gap = true := by
  decide +kernel
theorem wit_TestStartTaken : names (orderOf 0 []) 0 ∧ base.active 0 = true ∧ (base.line 0).unit.state = .idle ∧
    (base.cfg 0).mode.sends = true ∧ (base.cfg 0).mode.receives = true ∧ (base.line 0).unit.out = none ∧
    (base.cfg 3).mode.sends = false := by unfold names; decide +kernel
theorem test_test_start : ((after (.testStart (orderOf 0 [])) base).line 0).unit.out.map OutCode.source =
    some .generator := by decide +kernel
theorem wit_CountsAndQueriesTaken_query : base.supervises (orderOf 0 []) = true ∧ names (orderOf 0 []) 0 ∧
    base.hasRequest (.report 0) = false := by unfold names; decide +kernel
theorem test_query : ((after (.query { orderOf 0 [] with station := 9 }) base).line 0).sup.query = true ∧
    ((after (.queryAndClear (orderOf 0 [])) base).line 0).sup.clear = true := by decide +kernel
/-- A free sender on line 0 with a story waiting for group 2. -/
def waiting : State :=
  let t := withRecord (outRec { outStory .queued with release := some 2 }) base
  { t with toPart := t.toPart.updSched 0 fun k => { k with running := true, queue := [3] } }
theorem wit_GroupsReleasedAndHeld : (orderOf 0 [2]).arg = [BitVec.ofNat 8 (2 : Group).val] ∧
    waiting.senderFree 0 = true ∧ waiting.senderFree 1 = false ∧ base.senderFree 0 = false ∧
    (waiting.line 0).sched.queue = [3] ∧ 8 ≤ (8 : Byte).toNat := by decide +kernel
theorem test_release : ((after (.release (orderOf 0 [2])) waiting).line 0).sched.current = some 3 ∧
    ((after (.release (orderOf 0 [3])) waiting).line 0).sched.current = none := by decide +kernel
/-- R158, R190: the line field has no bearing on RELEASE, REHOLD, RERUN and STATION-RESTART; an order to lines with
a line byte of 8 to 254 is malformed. -/
theorem test_line_field :
    ((after (.release (orderOf 100 [2])) waiting).line 0).sched.current = some 3 ∧
    (after (.rehold (orderOf 8 [2])) { base with groups := Vector.replicate 8 true }).groups.get 2 = false ∧
    (after (.rerun (orderOf 254 [3, 1, 162])) { withRecord (inRec (inStory .recent)) base with recent := [3] }).recent =
      [] ∧
    (after (.stationRestart (orderOf 9 []) 5) base).loader = .reading ∧
    ((after (.lineOut (orderOf 8 [])) base).line 0).unit.state = .idle ∧
    ((after (.lineOut (orderOf 255 [])) base).line 0).unit.state = .outOfService := by decide +kernel
theorem test_rehold : (after (.rehold (orderOf 0 [2])) { base with groups := Vector.replicate 8 true }).groups.get 2 =
    false := by decide +kernel
theorem wit_RerunServed :
    let s : State := { withRecord (inRec (inStory .recent)) base with recent := [3] }
    s.toPart.takes (.station 3) (orderOf 0 [3, 1, 162]) ∧ s.inRecord 3 = some (inStory .recent) ∧ word 1 162 = 418 ∧
      s.recent = [] ++ 3 :: [] := by unfold Part.takes Part.hears; decide +kernel
theorem test_rerun :
    let s : State := { withRecord (inRec (inStory .recent)) base with recent := [3] }
    ((after (.rerun (orderOf 0 [3, 1, 162])) s).inRecord 3).map InRecord.state = some .rerunning ∧
      (after (.rerun (orderOf 0 [3, 1, 163])) s).recent = [3] := by decide +kernel

/-! ### Worked examples of spec/ -/

/-- 03, Disposition example: service 3 category C QUIET, services 4 to 7 DISCARD, the rest of 3 CARRY. -/
def exampleRanges : Part :=
  { Part.reset with settings := { Settings.blank with
      defaultDisp := .quiet
      ranges := [{ base := 768, size := 256, disp := .carry }, { base := 784, size := 8, disp := .quiet },
        { base := 1024, size := 1024, disp := .discard }] } }
theorem wit_DispositionsDecided : exampleRanges.disposition 3 2 3 = .quiet ∧ exampleRanges.disposition 3 3 3 = .carry ∧
    exampleRanges.disposition 5 0 1 = .discard ∧ exampleRanges.disposition 5 0 0 = .carry ∧
    exampleRanges.disposition 9 0 3 = .quiet := by decide +kernel
/-- R60, R63: a heading "X" in slot 3, and the key service × 256 + 251. -/
theorem wit_DispositionsDecided_failed :
    let s := (heading .heading [88] 2).toPart.completeHeading 0 3
    readHeading (s.map 0).subst [88] = none ∧ (inStory .opening).category = 2 ∧
      (s.inRecord 3).map InRecord.headingFault = some true ∧ ((s.line 0).sup.faults.get 2).isSome = true ∧
      dispositionOf [{ base := 3 * 256 + 251, size := 1, disp := .discard }] .carry (3 * 256 + 251) = .discard := by
  decide +kernel
theorem wit_DispositionsDecided_fields :
    let x := { inStory .opening with serial := none, category := 31 }
    let s := withRecord (inRec x) (heading .heading [88] 2)
    s.record 3 = some (inRec x) ∧ (inRec x).priority = 3 ∧ readHeading (s.map 0).subst (s.line 0).recog.heading = none := by
  decide +kernel
/-- R98: the first serial; 16 gaps that stay before the newly skipped; the fall of those more than 50 behind. -/
theorem wit_SerialsTaken_list :
    let full : Tracker := { service := 3, expected := some 100, gaps := (List.range 15).map fun k => 51 + k }
    (({ full with expected := none, gaps := [] } : Tracker).take 9999).1.expected = some 1 ∧
      (full.take 102).1.gaps = [53, 54, 55, 56, 57, 58, 59, 60, 61, 62, 63, 64, 65, 100, 101] ∧
      (full.take 101).1.gaps = [52, 53, 54, 55, 56, 57, 58, 59, 60, 61, 62, 63, 64, 65, 100] ∧
      ({ full with gaps := (List.range 15).map fun k => 60 + k } : Tracker).take 102 =
        ({ full with expected := some 103, gaps := (List.range 15).map (fun k => 60 + k) ++ [101] }, true) := by
  decide +kernel
theorem wit_SerialsTaken :
    let t : Tracker := { service := 3, expected := some 418, gaps := [415] }
    t.Law ∧ (t.take 420).1 = { t with expected := some 421, gaps := [415, 418, 419] } ∧
      (t.take 415).1 = { t with gaps := [] } ∧ (t.take 417).1 = t ∧ (t.take 470).2 = true := by
  refine ⟨by simp [Tracker.Law, Config.gapSize, serialBehind, serialDistance], ?_⟩; decide +kernel
/-- 09, Building a CLAIM frame: arbitration value 527,876, bytes, check byte 109. -/
theorem test_claim_frame :
    let f : Frame := { kind := .claim, body := { cls := 0, key := 56, station := 4, payload := [12, 1, 44, 2, 0, 56] } }
    frameValue f = 527876 ∧ frameBytes f = [8, 14, 4, 6, 12, 1, 44, 2, 0, 56, 109] := by decide +kernel
/-- 07, section 7.3, with a shorter story: 3 codes, one sent, the text line ends at offset 2; an interruption text
of 3 codes and a FLASH story of 2 codes waiting. -/
theorem wit_BidsAndEligibility :
    let s := (lineEndState .clear).toPart
    s.record 3 = some (outRec (outStory .sending)) ∧ (s.line 0).sched.position = some 1 ∧
      (s.outEntry (outRec (outStory .sending)) 0).mark = false ∧
      (s.outEntry (outRec (outStory .sending)) 1).mark = true ∧
      s.ahead 0 0 = 0 + (2 - 1) + 3 + 2 ∧ s.ahead 0 3 = 0 + (3 - 1) + 2 ∧ s.bid 0 0 = 9 ∧
      (heldStory true).toPart.ahead 0 1 = 3 - 2 ∧ (choosing [3]).toPart.ahead 0 3 = 3 - 2 + 3 := by decide +kernel
/-- The line end of `lineEndState` passed: at a boundary a preempted story counts nothing. -/
theorem wit_BidsAndEligibility_boundary :
    let s := (lineEndState .clear).toPart.updSched 0 fun k => { k with position := some 2 }
    (s.outEntry (outRec (outStory .sending)) (2 - 1)).mark = true ∧ s.ahead 0 0 = 0 + (2 - 2) + 3 + 2 := by
  decide +kernel
/-- R89, R85: a referenced record is passed over; a reservation evicts, or fails with the list empty. -/
theorem wit_EvictionAndReservation :
    let recent := fun f => some { inRec { inStory .recent with referenced := some f } with blocks := [700, 701] }
    let s := { (claiming base).toPart with recent := [5, 6], free := [9] }
    let s := (s.setRecord 5 (recent true)).setRecord 6 (recent false)
    s.recent.Nodup ∧ s.referenced 5 = true ∧ s.referenced 6 = false ∧ s.evictOne.recent = [5] ∧
      s.evictOne.free = [9, 700, 701] ∧ s.evictOne.evictOne.recent = [] ∧ (s.reserve 3 5).2 = true ∧
      (s.reserve 3 6).2 = false ∧ (s.reserve 3 6).1.free.length = 5 ∧ (s.reserve 3 1).1.recent = [5, 6] ∧
      s.findSlot.2 = some 0 ∧ (s.takeBlock 3).1.free = [] := by decide +kernel
/-- R91: STORE-LOW rises at 47 free blocks, keeps its level at 48 and 95, falls at 96. -/
theorem wit_EvictionAndReservation_storeLow :
    let s := fun (n : Nat) (low : Bool) =>
      ({ (claiming base).toPart with free := List.range n } : Part).putStationLevel .storeLow low
    let low := fun t : Part => t.stationCond .storeLow
    low ((s 48 false).takeBlock 3).1 = true ∧ low ((s 49 false).takeBlock 3).1 = false ∧
      low ((s 49 true).takeBlock 3).1 = true ∧ low ((s 96 true).takeBlock 3).1 = true ∧
      low ((s 97 true).takeBlock 3).1 = false ∧ low ((s 60 false).reserve 3 20).1 = true ∧
      low ((s 95 true).freeRecord 3) = false ∧ low ((s 95 true).returnSurplus 3) = false := by decide +kernel
theorem wit_EvictionAndReservation_oneEviction :
    let recent := some { inRec { inStory .recent with referenced := some false } with blocks := [700, 701] }
    let s := ({ (claiming base).toPart with recent := [5], free := [] } : Part).setRecord 5 recent
    s.free = [] ∧ s.recent ≠ [] ∧ s.evictOne.free ≠ [] ∧ (s.takeBlock 3).2 = true ∧
      (s.takeBlock 3).1.stationCond .storeLow = true := by decide +kernel
theorem wit_EvictionAndReservation_full :
    let s := (crowded [9, 2] base).toPart
    s.findSlot.2 = some 9 ∧ (crowded [] base).toPart.findSlot.2 = none := by decide +kernel
/-- 07, section 7.3: the bids of the worked cases. -/
theorem test_bids :
    let c := { smallLine with u := 20000, stop := 3 }
    bidOf c 37 = 56 ∧ bidOf c 619 = 929 ∧ bidOf c 1050 = 1575 ∧ bidOf { c with u := 13333 } 56 = 56 ∧
      bidOf c 3000 = 4095 := by decide +kernel
/-- 02, section 2.6 and 04, section 4.4: the reservations of the worked cases. -/
theorem test_bounds :
    let c := { smallLine with width := 69, fold := 0, guardShift := true }
    boundCodes c 10 = 23 ∧ boundBlocks c 10 = 1 ∧ boundCodes c 270 = 552 ∧ boundBlocks c 270 = 9 ∧
      boundBlocks { c with fold := 6 } 7812 = 250 := by decide +kernel
/-- R95's table. -/
theorem test_serial_distances : [serialDistance 420 418, serialDistance 417 418, serialDistance 3 9998,
    serialDistance 9999 2, serialDistance 470 418] = [2, 9998, 4, 9997, 52] := by decide
theorem wit_CheckerAndTestPattern_pattern :
    let c : Checker := { reg := 37, inSync := false, load := 0, run := 0, window := [] }
    c.inSync = false ∧ c.load = 0 ∧ c.run = 0 := by decide
/-- R195: the codes after the seed. -/
theorem test_generator_codes : (makeBits 20 511).1 =
    codeBits 0 ++ codeBits 15 ++ codeBits 31 ++ codeBits 8 := by decide +kernel

end Sys2Proof.Machine.Tests

end
end

section
/-! The timers of a line: when a command of `dueLine` is due (R3, R4). -/

namespace Sys2Proof.Machine

/-- A guarded command is due exactly when it stands in the list with a guard that holds. -/
theorem mem_dueOf_iff {c : Instr} {gs : List (Bool × Instr)} : c ∈ dueOf gs ↔ (true, c) ∈ gs := by
  induction gs with
  | nil => simp [dueOf]
  | cons g gs ih =>
    obtain ⟨b, d⟩ := g
    cases b <;> simp [dueOf, ih]

@[simp] theorem ranFrom_some_iff (now t n : Nat) : ranFrom now (some t) n = true ↔ t + n ≤ now := by
  simp [ranFrom]

/-- Code assembly runs only on a line in service. -/
theorem active_of_assembles {s : Part} {l : LineNo} (h : s.assembles l = true) : s.active l = true := by
  rw [Part.assembles, Bool.and_eq_true] at h
  exact h.1

section
variable {s : Part} {l : LineNo} (ha : s.active l = true)
include ha

theorem dataSample_mem_dueLine_iff : Instr.dataSample l ∈ s.dueLine l ↔
    (s.line l).unit.rcv = .data ∧
      (s.line l).unit.refTime + (3 + 2 * (s.line l).unit.sampled) * (s.cfg l).u ≤ s.now := by
  simp [Part.dueLine, ha, mem_dueOf_iff]

theorem receivedCode_mem_dueLine_iff : Instr.receivedCode l ∈ s.dueLine l ↔
    (s.line l).unit.rcv = .stop ∧ (s.line l).unit.refTime + 13 * (s.cfg l).u ≤ s.now := by
  simp [Part.dueLine, ha, mem_dueOf_iff]

end

end Sys2Proof.Machine
end

section
/-! The samples of the data elements and of the stop element (R4, R5). -/

namespace Sys2Proof.Machine

theorem exec_dataSample (l : LineNo) (s : State) :
    exec (.dataSample l) s = .next { s with toPart := s.toPart.sampleData l } := by
  rfl

theorem exec_receivedCode (l : LineNo) (s : State) :
    exec (.receivedCode l) s = .next { s with toPart := (s.toPart.sampleStop l).serveBus } := by
  rfl

section
variable {s : Part} {l : LineNo} (ha : s.assembles l = true)
include ha

/-- A data element adds its weight on mark; the fifth leads to the stop element. -/
theorem sampleData_of_data (hr : (s.line l).unit.rcv = .data) :
    s.sampleData l = s.updUnit l fun x =>
      { x with
        acc := if s.mark l then x.acc ||| BitVec.twoPow 5 x.sampled else x.acc
        sampled := x.sampled + 1, rcv := if x.sampled + 1 = 5 then .stop else .data } := by
  simp [Part.sampleData, ha, hr]

variable (hr : (s.line l).unit.rcv = .stop)
include hr

theorem sampleStop_of_mark (hm : s.mark l = true) :
    s.sampleStop l =
      (s.updUnit l fun x => { x with rcv := .hunt }).handOn l (s.line l).unit.acc false := by
  simp [Part.sampleStop, ha, hr, hm]

/-- On space a code of no mark element is held: it may be the beginning of a break. -/
theorem sampleStop_of_space_zero (hm : s.mark l = false) (hc : (s.line l).unit.acc = 0) :
    s.sampleStop l = s.updUnit l fun x => { x with rcv := .waitMark, held := true } := by
  simp [Part.sampleStop, ha, hr, hm, hc]

theorem sampleStop_of_space_ne_zero (hm : s.mark l = false) (hc : (s.line l).unit.acc ≠ 0) :
    s.sampleStop l =
      (s.updUnit l fun x => { x with rcv := .waitMark }).handOn l (s.line l).unit.acc true := by
  simp only [Part.sampleStop, ha, hr, hm, hc, beq_self_eq_true, Bool.and_self, if_true, if_false,
    Bool.false_eq_true]

end

/-- Settles O15, from the due times of the two samples and the cases of `Part.sampleData` and
`Part.sampleStop`. -/
theorem dataAndStopElements : Obligations.DataAndStopElements := by
  intro l s ha
  have hact := active_of_assembles ha
  refine ⟨fun hdata => ⟨?_, ?_⟩, fun hstop => ⟨?_, fun hm => ?_, fun hm hc => ?_, fun hm hc => ?_⟩⟩
  · rw [dataSample_mem_dueLine_iff hact]
    exact and_iff_right hdata
  · rw [exec_dataSample, sampleData_of_data ha hdata]
  · rw [receivedCode_mem_dueLine_iff hact]
    exact and_iff_right hstop
  · rw [exec_receivedCode, sampleStop_of_mark ha hstop hm]
  · rw [exec_receivedCode, sampleStop_of_space_zero ha hstop hm hc]
  · rw [exec_receivedCode, sampleStop_of_space_ne_zero ha hstop hm hc]

end Sys2Proof.Machine
end

section
/-! The register's entries: when a LIVE entry is due to age, and what ageing does (R112). -/

namespace Sys2Proof.Machine

@[simp] theorem Entry.hasKey_iff {e : Entry} {service serial : Nat} :
    e.hasKey service serial = true ↔ e.service = service ∧ e.serial = serial := by
  simp [Entry.hasKey]

/-- Only a LIVE entry of the command's own key makes an ENTRY_AGED due. -/
theorem entryAged_mem_dueEntries_iff {s : Part} {service serial : Nat} :
    Instr.entryAged service serial ∈ s.dueEntries ↔
      ∃ e ∈ s.register, e.state = .live ∧ e.service = service ∧ e.serial = serial ∧
        e.heard + Config.seconds 120 ≤ s.now := by
  simp only [Part.dueEntries, List.mem_map, List.mem_filter, Bool.and_eq_true, beq_iff_eq,
    ranFrom_some_iff, Instr.entryAged.injEq]
  constructor
  · rintro ⟨e, ⟨hmem, hlive, hran⟩, hservice, hserial⟩
    exact ⟨e, hmem, hlive, hservice, hserial, hran⟩
  · rintro ⟨e, hmem, hlive, hservice, hserial, hran⟩
    exact ⟨e, ⟨hmem, hlive, hran⟩, hservice, hserial⟩

/-- Ageing changes nothing but the state item of the entries it names. -/
theorem ageEntry_eq (s : Part) (service serial : Nat) :
    s.ageEntry service serial = { s with register := s.register.map fun e =>
      if e.state = .live ∧ e.service = service ∧ e.serial = serial then { e with state := .withdrawn }
      else e } := by
  simp only [Part.ageEntry, Entry.hasKey_iff]

theorem exec_entryAged (service serial : Nat) (s : State) :
    exec (.entryAged service serial) s = .next { s with toPart := s.toPart.ageEntry service serial } := by
  rfl

/-- Settles O34, from the entries that make ENTRY_AGED due and the effect of `Part.ageEntry`. -/
theorem liveEntriesAge : Obligations.LiveEntriesAge := by
  intro service serial s
  constructor
  · exact entryAged_mem_dueEntries_iff
  · rw [exec_entryAged, ageEntry_eq]

end Sys2Proof.Machine
end

section
/-! What every elementary change leaves as it was (Laws/Act.lean): the frames of `Act`. -/

namespace Sys2Proof.Machine

variable {K : Kind → Prop} {s t : Part}

/-- Settings, number, loader and clock, in one term: no elementary change reaches them. -/
def Part.standing (s : Part) : Settings × Nat × LoaderState × Nat × Option Nat × Nat × Bool × Bool :=
  (s.settings, s.number, s.loader, s.faultReason, s.repeatSince, s.now, s.powered, s.resetHeld)

theorem standing_addRequest (s : Part) (r : Request) : (s.addRequest r).standing = s.standing := by
  rw [addRequest_eq]; rfl

theorem Act.standing_eq (h : Act K s t) : t.standing = s.standing := by
  induction h with
  | refl => rfl
  | add r _ _ ih => exact (standing_addRequest _ r).trans ih
  | _ => assumption

theorem Act.settings_eq (h : Act K s t) : t.settings = s.settings := congrArg (·.1) h.standing_eq
theorem Act.number_eq (h : Act K s t) : t.number = s.number := congrArg (·.2.1) h.standing_eq
theorem Act.loader_eq (h : Act K s t) : t.loader = s.loader := congrArg (·.2.2.1) h.standing_eq
theorem Act.now_eq (h : Act K s t) : t.now = s.now := congrArg (·.2.2.2.2.2.1) h.standing_eq
theorem Act.cfg_eq (h : Act K s t) (l : LineNo) : t.cfg l = s.cfg l := by
  rw [Part.cfg, Part.cfg, h.settings_eq]
theorem Act.map_eq (h : Act K s t) (l : LineNo) : t.map l = s.map l := by
  rw [Part.map, Part.map, h.settings_eq, h.cfg_eq]
theorem Act.active_eq (h : Act K s t) (l : LineNo) : t.active l = s.active l := by
  rw [Part.active, Part.active, h.loader_eq, h.cfg_eq]

/-- An update of a line that keeps an item of every line keeps it on all lines. -/
theorem line_updLine_congr {α : Type} {p : Line → α} {f : Line → Line} (hf : ∀ x, p (f x) = p x) (s : Part)
    (l k : LineNo) : p ((s.updLine l f).line k) = p (s.line k) := by
  by_cases hk : k = l
  · subst hk; rw [line_updLine_self, hf]
  · rw [line_updLine_ne _ _ _ _ hk]

section
variable (s : Part) (l k : LineNo)

@[simp] theorem plane_line_updUnit (f) : ((s.updUnit l f).line k).plane = (s.line k).plane :=
  line_updLine_congr (p := Line.plane) (f := fun x => { x with unit := f x.unit }) (fun _ => rfl) s l k
@[simp] theorem recog_line_updUnit (f) : ((s.updUnit l f).line k).recog = (s.line k).recog :=
  line_updLine_congr (p := Line.recog) (f := fun x => { x with unit := f x.unit }) (fun _ => rfl) s l k
@[simp] theorem sched_line_updUnit (f) : ((s.updUnit l f).line k).sched = (s.line k).sched :=
  line_updLine_congr (p := Line.sched) (f := fun x => { x with unit := f x.unit }) (fun _ => rfl) s l k
@[simp] theorem texts_line_updUnit (f) : ((s.updUnit l f).line k).texts = (s.line k).texts :=
  line_updLine_congr (p := Line.texts) (f := fun x => { x with unit := f x.unit }) (fun _ => rfl) s l k
@[simp] theorem sup_line_updUnit (f) : ((s.updUnit l f).line k).sup = (s.line k).sup :=
  line_updLine_congr (p := Line.sup) (f := fun x => { x with unit := f x.unit }) (fun _ => rfl) s l k
theorem line_updUnit_ne (f) (h : k ≠ l) : (s.updUnit l f).line k = s.line k := line_updLine_ne _ _ _ _ h
@[simp] theorem unit_line_updRecog (f) : ((s.updRecog l f).line k).unit = (s.line k).unit :=
  line_updLine_congr (p := Line.unit) (f := fun x => { x with recog := f x.recog }) (fun _ => rfl) s l k
@[simp] theorem plane_line_updRecog (f) : ((s.updRecog l f).line k).plane = (s.line k).plane :=
  line_updLine_congr (p := Line.plane) (f := fun x => { x with recog := f x.recog }) (fun _ => rfl) s l k
@[simp] theorem sched_line_updRecog (f) : ((s.updRecog l f).line k).sched = (s.line k).sched :=
  line_updLine_congr (p := Line.sched) (f := fun x => { x with recog := f x.recog }) (fun _ => rfl) s l k
@[simp] theorem texts_line_updRecog (f) : ((s.updRecog l f).line k).texts = (s.line k).texts :=
  line_updLine_congr (p := Line.texts) (f := fun x => { x with recog := f x.recog }) (fun _ => rfl) s l k
@[simp] theorem sup_line_updRecog (f) : ((s.updRecog l f).line k).sup = (s.line k).sup :=
  line_updLine_congr (p := Line.sup) (f := fun x => { x with recog := f x.recog }) (fun _ => rfl) s l k
theorem line_updRecog_ne (f) (h : k ≠ l) : (s.updRecog l f).line k = s.line k := line_updLine_ne _ _ _ _ h
@[simp] theorem unit_line_updSched (f) : ((s.updSched l f).line k).unit = (s.line k).unit :=
  line_updLine_congr (p := Line.unit) (f := fun x => { x with sched := f x.sched }) (fun _ => rfl) s l k
@[simp] theorem plane_line_updSched (f) : ((s.updSched l f).line k).plane = (s.line k).plane :=
  line_updLine_congr (p := Line.plane) (f := fun x => { x with sched := f x.sched }) (fun _ => rfl) s l k
@[simp] theorem recog_line_updSched (f) : ((s.updSched l f).line k).recog = (s.line k).recog :=
  line_updLine_congr (p := Line.recog) (f := fun x => { x with sched := f x.sched }) (fun _ => rfl) s l k
@[simp] theorem texts_line_updSched (f) : ((s.updSched l f).line k).texts = (s.line k).texts :=
  line_updLine_congr (p := Line.texts) (f := fun x => { x with sched := f x.sched }) (fun _ => rfl) s l k
@[simp] theorem sup_line_updSched (f) : ((s.updSched l f).line k).sup = (s.line k).sup :=
  line_updLine_congr (p := Line.sup) (f := fun x => { x with sched := f x.sched }) (fun _ => rfl) s l k
theorem line_updSched_ne (f) (h : k ≠ l) : (s.updSched l f).line k = s.line k := line_updLine_ne _ _ _ _ h
@[simp] theorem unit_line_updSup (f) : ((s.updSup l f).line k).unit = (s.line k).unit :=
  line_updLine_congr (p := Line.unit) (f := fun x => { x with sup := f x.sup }) (fun _ => rfl) s l k
@[simp] theorem plane_line_updSup (f) : ((s.updSup l f).line k).plane = (s.line k).plane :=
  line_updLine_congr (p := Line.plane) (f := fun x => { x with sup := f x.sup }) (fun _ => rfl) s l k
@[simp] theorem recog_line_updSup (f) : ((s.updSup l f).line k).recog = (s.line k).recog :=
  line_updLine_congr (p := Line.recog) (f := fun x => { x with sup := f x.sup }) (fun _ => rfl) s l k
@[simp] theorem sched_line_updSup (f) : ((s.updSup l f).line k).sched = (s.line k).sched :=
  line_updLine_congr (p := Line.sched) (f := fun x => { x with sup := f x.sup }) (fun _ => rfl) s l k
@[simp] theorem texts_line_updSup (f) : ((s.updSup l f).line k).texts = (s.line k).texts :=
  line_updLine_congr (p := Line.texts) (f := fun x => { x with sup := f x.sup }) (fun _ => rfl) s l k
theorem line_updSup_ne (f) (h : k ≠ l) : (s.updSup l f).line k = s.line k := line_updLine_ne _ _ _ _ h
@[simp] theorem unit_line_setPlane (p) : ((s.setPlane l p).line k).unit = (s.line k).unit :=
  line_updLine_congr (p := Line.unit) (f := fun x => { x with plane := p }) (fun _ => rfl) s l k
@[simp] theorem recog_line_setPlane (p) : ((s.setPlane l p).line k).recog = (s.line k).recog :=
  line_updLine_congr (p := Line.recog) (f := fun x => { x with plane := p }) (fun _ => rfl) s l k
@[simp] theorem sched_line_setPlane (p) : ((s.setPlane l p).line k).sched = (s.line k).sched :=
  line_updLine_congr (p := Line.sched) (f := fun x => { x with plane := p }) (fun _ => rfl) s l k
@[simp] theorem texts_line_setPlane (p) : ((s.setPlane l p).line k).texts = (s.line k).texts :=
  line_updLine_congr (p := Line.texts) (f := fun x => { x with plane := p }) (fun _ => rfl) s l k
@[simp] theorem sup_line_setPlane (p) : ((s.setPlane l p).line k).sup = (s.line k).sup :=
  line_updLine_congr (p := Line.sup) (f := fun x => { x with plane := p }) (fun _ => rfl) s l k
theorem line_setPlane_ne (p) (h : k ≠ l) : (s.setPlane l p).line k = s.line k := line_updLine_ne _ _ _ _ h

end

theorem Act.texts_eq (h : Act K s t) (l : LineNo) : (t.line l).texts = (s.line l).texts := by
  induction h with
  | refl => rfl
  | unit _ _ _ _ ih | plane _ _ _ _ ih | recog _ _ _ _ ih | sched _ _ _ _ ih | sup _ _ _ _ _ ih | add _ _ _ ih =>
    simpa using ih
  | _ => assumption

theorem Act.mem_eq (h : Act K s t) (hk : ¬K .mem) : t.mem = s.mem := by
  induction h with
  | refl => rfl
  | add r _ _ ih => rw [addRequest_mem, ih]
  | write _ _ k => exact absurd k hk
  | _ => assumption

theorem Act.memoryLaw (h : Act K s t) (hs : s.MemoryLaw) : t.MemoryLaw := by
  induction h with
  | refl => exact hs
  | add r _ _ ih => rw [Part.MemoryLaw, addRequest_mem]; exact ih
  | write a b _ _ ih => exact Memory.wf_write ih a b
  | _ => assumption

end Sys2Proof.Machine
end

section
/-! The law of the blocks along elementary changes (R74, R75): how often a block is held. -/

namespace Sys2Proof.Machine

variable {K : Kind → Prop} {s t : Part}

theorem count_flatMap_set {α : Type} (g : α → List Nat) (b : Nat) (x : α) :
    ∀ (xs : List α) (i : Nat) (h : i < xs.length),
      ((xs.set i x).flatMap g).count b + (g xs[i]).count b = (xs.flatMap g).count b + (g x).count b
  | y :: ys, 0, _ => by simp only [List.set_cons_zero, List.flatMap_cons, List.count_append, List.getElem_cons_zero]; omega
  | y :: ys, i + 1, h => by
    have := count_flatMap_set g b x ys i (Nat.lt_of_succ_lt_succ h)
    simp only [List.set_cons_succ, List.flatMap_cons, List.count_append, List.getElem_cons_succ]
    omega

/-- A slot made to hold another record: what the old one held is held no more, what the new one holds is. -/
theorem count_allHeld_setRecord (s : Part) (i : Slot) (r : Option Record) (b : Nat) :
    (s.setRecord i r).allHeld.count b + (heldBlocks (s.record i)).count b =
      s.allHeld.count b + (heldBlocks r).count b := by
  have h := count_flatMap_set heldBlocks b r s.records.toList i (by simp)
  simpa [Part.allHeld, Part.setRecord, Vector.toList_set, Part.record, Vector.get] using h

/-- How often block `b` is free or held. -/
def Part.places (s : Part) (b : Nat) : Nat := s.free.count b + s.allHeld.count b

theorem blockLaw_iff_places (s : Part) :
    s.BlockLaw ↔ ∀ b, s.places b = (List.range Config.blocks).count b := by
  simp only [Part.BlockLaw, List.perm_iff_count, List.count_append, Part.places]

/-- A change of the free list and of one slot moves blocks without losing or doubling one, when between them they
hold each block as often as before. -/
theorem places_setRecord (s : Part) (free : List Nat) (i : Slot) (r : Option Record)
    (h : ∀ b, free.count b + (heldBlocks r).count b = s.free.count b + (heldBlocks (s.record i)).count b) (b : Nat) :
    (({ s with free := free } : Part).setRecord i r).places b = s.places b := by
  have hset : _ + (heldBlocks (s.record i)).count b = s.allHeld.count b + _ :=
    count_allHeld_setRecord { s with free := free } i r b
  have hmove := h b
  simp only [Part.places, setRecord_free]
  omega

theorem heldBlocks_map {f : Record → Record} (hf : ∀ r, (f r).blocks = r.blocks ∧ (f r).reservation = r.reservation)
    (r : Option Record) : heldBlocks (r.map f) = heldBlocks r := by
  cases r with
  | none => rfl
  | some r => simp [heldBlocks, hf r]

theorem outRecord_eq_some {s : Part} {i : Slot} {x : OutRecord} (h : s.outRecord i = some x) :
    ∃ r, s.record i = some r ∧ r.body = .outbound x := by
  obtain ⟨r, hr, hx⟩ := Option.bind_eq_some_iff.1 h
  refine ⟨r, hr, ?_⟩
  unfold Record.outbound? at hx
  split at hx
  · cases hx
  · next y hb => cases hx; exact hb

theorem Act.places_eq (h : Act K s t) (b : Nat) : t.places b = s.places b := by
  induction h with
  | refl => rfl
  | add r _ _ ih => rw [addRequest_eq]; exact ih
  | @record t i f hf _ _ ih =>
    exact (places_setRecord t t.free i _ (fun b => by rw [heldBlocks_map hf]) b).trans ih
  | @alloc t i r hn hb hr _ _ ih =>
    exact (places_setRecord t t.free i _ (fun b => by simp [heldBlocks, hn, hb, hr]) b).trans ih
  | @release t i r hr _ _ ih =>
    refine (places_setRecord { t with recent := _ } _ i none (fun b => ?_) b).trans ih
    change _ = _ + (heldBlocks (t.record i)).count b
    rw [hr]; simp [heldBlocks]
  | @take t i c rest hf hi _ _ ih =>
    obtain ⟨r, hr⟩ := Option.isSome_iff_exists.1 hi
    refine (places_setRecord t rest i _ (fun b => ?_) b).trans ih
    change _ + (heldBlocks ((t.record i).map _)).count b = _
    have : ({ r with blocks := r.blocks ++ [c] } : Record).reservation = r.reservation := rfl
    simp only [hr, hf, Option.map_some, heldBlocks, this, List.count_append, List.count_cons, List.count_nil]; omega
  | @reserve t i n hi _ _ ih =>
    obtain ⟨x, hx⟩ := Option.isSome_iff_exists.1 hi
    obtain ⟨r, hr, hb⟩ := outRecord_eq_some hx
    refine (places_setRecord t _ i _ (fun b => ?_) b).trans ih
    change _ + (heldBlocks ((t.record i).map _)).count b = _
    have := congrArg (List.count b) (List.take_append_drop n t.free)
    rw [List.count_append] at this
    simp only [hr, Option.map_some, heldBlocks, Record.mapOut, hb, Record.reservation, List.count_append]; omega
  | @assign t i r c rest hr hb _ _ ih =>
    refine (places_setRecord t t.free i _ (fun b => ?_) b).trans ih
    cases hc : r.body with
    | inbound x => simp [Record.reservation, hc] at hb
    | outbound x =>
      simp only [Record.reservation, hc] at hb
      simp only [hr, Option.map_some, heldBlocks, Record.mapOut, Record.reservation, hc, hb, List.count_append,
        List.count_cons, List.count_nil]
      omega
  | @surplus t i x hx _ _ ih =>
    obtain ⟨r, hr, hb⟩ := outRecord_eq_some hx
    refine (places_setRecord t _ i _ (fun b => ?_) b).trans ih
    change _ + (heldBlocks ((t.record i).map _)).count b = _
    simp only [hr, Option.map_some, heldBlocks, Record.mapOut, hb, Record.reservation, List.count_append,
      List.append_nil]
    omega
  | _ => assumption

theorem Act.blockLaw (h : Act K s t) (hs : s.BlockLaw) : t.BlockLaw := by
  rw [blockLaw_iff_places] at *
  exact fun b => (h.places_eq b).trans (hs b)

end Sys2Proof.Machine
end

section
/-! The laws of the lists, the counts and the gap lists along elementary changes. -/

namespace Sys2Proof.Machine

variable {K : Kind → Prop} {s t : Part}

theorem Act.registerLaw (h : Act K s t) (hs : RegisterLaw s.register) : RegisterLaw t.register := by
  induction h with
  | refl => exact hs
  | add r _ _ ih => rw [addRequest_eq]; exact ih
  | register es hes _ _ ih => exact hes ih
  | _ => assumption

/-- A request of an owner that has none keeps the order of the list and its one request for each owner. -/
theorem insertRequest_law {n : Nat} {r : Request} {rs : List Request} (h : SendListLaw n rs)
    (hr : ∀ q ∈ rs, q.owner ≠ r.owner) : SendListLaw n (insertRequest n r rs) := by
  unfold SendListLaw at *
  induction rs with
  | nil => exact List.pairwise_singleton _ _
  | cons q qs ih =>
    obtain ⟨hq, hqs⟩ := List.pairwise_cons.1 h
    unfold insertRequest
    split
    · next hlt =>
      refine List.pairwise_cons.2 ⟨fun a ha => ⟨?_, (hr a ha).symm⟩, h⟩
      rcases List.mem_cons.1 ha with rfl | ha
      · exact hlt.le
      · exact hlt.le.trans (hq a ha).1
    · next hge =>
      refine List.pairwise_cons.2 ⟨fun a ha => ?_, ih hqs fun a ha => hr a (List.mem_cons_of_mem _ ha)⟩
      rcases mem_insertRequest.1 ha with rfl | ha
      · exact ⟨Nat.le_of_not_lt hge, hr q List.mem_cons_self⟩
      · exact hq a ha

theorem hasRequest_eq_false {s : Part} {o : Owner} :
    s.hasRequest o = false ↔ ∀ q ∈ s.port.sendList, q.owner ≠ o := by
  simp [Part.hasRequest, Part.requestOf, Option.isSome_eq_false_iff]

theorem Act.sendListLaw (h : Act K s t) (hs : SendListLaw s.number s.port.sendList) :
    SendListLaw t.number t.port.sendList := by
  induction h with
  | refl => exact hs
  | @add t r _ _ ih =>
    rw [addRequest_eq]; dsimp only
    split
    · exact ih
    · next hn => exact insertRequest_law ih (hasRequest_eq_false.1 (Bool.eq_false_of_not_eq_true hn))
  | remove o _ _ ih => exact List.Pairwise.filter _ ih
  | drop o _ _ ih => exact List.Pairwise.filter _ ih
  | port f hf _ _ ih => rw [Part.updPort]; dsimp only; rw [(hf _).1]; exact ih
  | _ => assumption

/-- The bounds of every line's counts hold after an update of one line that keeps its own. -/
theorem bounded_updLine {f : Line → Line} (hf : ∀ x, x.sup.Bounded → (f x).sup.Bounded) {s : Part}
    (h : ∀ l, (s.line l).sup.Bounded) (k : LineNo) : ∀ l, ((s.updLine k f).line l).sup.Bounded := by
  intro l
  by_cases hl : l = k
  · subst hl; rw [line_updLine_self]; exact hf _ (h l)
  · rw [line_updLine_ne _ _ _ _ hl]; exact h l

theorem Act.countLaw (h : Act K s t) (hs : s.CountLaw) : t.CountLaw := by
  induction h with
  | refl => exact hs
  | unit _ _ _ _ ih | plane _ _ _ _ ih | recog _ _ _ _ ih | sched _ _ _ _ ih =>
    exact ⟨fun l => by simpa using ih.1 l, ih.2⟩
  | sup k f hf _ _ ih => exact ⟨bounded_updLine (fun _ h => hf _ h) ih.1 k, ih.2⟩
  | add r _ _ ih => rw [addRequest_eq]; exact ih
  | port f hf _ _ ih => exact ⟨ih.1, (hf _).2 ih.2.1, ih.2.2⟩
  | notices n hn _ _ ih => exact ⟨ih.1, ih.2.1, hn ih.2.2⟩
  | _ => assumption

theorem Act.gapLaw (h : Act K s t) (hs : s.GapLaw) : t.GapLaw := by
  induction h with
  | refl => exact hs
  | add r _ _ ih => rw [addRequest_eq]; exact ih
  | trackers ts hts _ _ ih => exact hts ih
  | _ => assumption

end Sys2Proof.Machine
end

section
/-! What one step can do to the part, and what every law asks of it: the loader's commands, the clock, and
elementary changes. -/

namespace Sys2Proof.Machine

variable {s t : Part}

/-- The part with what no law of Safety.lean speaks of set to its power-on value. -/
def Part.lawView (s : Part) : Part :=
  { Part.reset with
    number := s.number, lines := s.lines, mem := s.mem, free := s.free, records := s.records
    trackers := s.trackers, register := s.register, port := { s.port with state := .wait }, notices := s.notices }

/-- The part at entry to service, before its notice is placed (R212). -/
def Part.served (s : Part) (cfg : Settings) : Part :=
  { s.coldStart s.number with
    loader := .running, settings := cfg
    lines := Vector.ofFn fun l => lineAtEntry cfg l (s.mark l) s.now
    trackers := trackersFor cfg
    port := { s.port with sendList := [], sticky := none }
    reportSince := some s.now }

/-- A property of the part that every elementary change keeps, that holds of the part after power-on and at entry
to service, and that depends on the law view alone. -/
structure Kept (P : Part → Prop) : Prop where
  view : ∀ s, P s ↔ P s.lawView
  act : ∀ {s t}, Act (fun _ => True) s t → P s → P t
  reset : ∀ n, P { Part.reset with number := n }
  served : ∀ s cfg, P s → P (s.served cfg)

theorem lawView_loader (s : Part) (x : LoaderState) : ({ s with loader := x } : Part).lawView = s.lawView := rfl

section
variable {P : Part → Prop} (k : Kept P)
include k

theorem Kept.of_view (h : t.lawView = s.lawView) (hs : P s) : P t := (k.view t).2 (h ▸ (k.view s).1 hs)

theorem Kept.powerOn : P Part.reset := by simpa only [Part.reset] using k.reset 31

theorem Kept.coldStart (s : Part) (n : Nat) : P (s.coldStart n) := k.of_view (s := { Part.reset with number := n }) rfl (k.reset n)

theorem Kept.off (s : Part) : P s.off :=
  k.of_view (lawView_loader _ .off) (k.coldStart s 0)

theorem Kept.readComplete (img : List Byte) (h : P s) : P (s.readComplete img) := by
  have act {t u : Part} (g : Act (fun _ => True) t u) : P t → P u := k.act g
  unfold Part.readComplete
  dsimp only
  split
  · split
    · exact act (stationEvent_act trivial trivial _ .refl) (k.served s _ h)
    · refine act (stationEvent_act trivial trivial _ (stationChanged_act trivial trivial _
        (putStationLevel_act trivial _ _ .refl))) ?_
      exact k.of_view (s := s) rfl h
  · exact h

theorem Kept.repeatFault (h : P s) : P s.repeatFault := by
  unfold Part.repeatFault
  split
  · exact k.act (stationEvent_act trivial trivial _ .refl) (k.of_view (s := s) rfl h)
  · exact h

theorem Kept.hear {f : Part → Part} (hf : ∀ u, P u → P (f u)) (h : P s) : P (s.hear f) := by
  unfold Part.hear
  split
  · exact h
  · split
    · exact k.act (frameEnds_act trivial .refl) h
    · exact hf _ (k.act (heard_act trivial trivial .refl) h)

theorem Kept.stationRestart (o : Order) (straps : BitVec 5) (h : P s) : P (s.stationRestart o straps) := by
  unfold Part.stationRestart Part.orderTaken
  refine k.hear (fun u hu => ?_) h
  dsimp only
  split
  · split
    · split
      · exact k.coldStart _ _
      · exact k.act (stationEvent_act trivial trivial _ (.notices _ (fun _ => Nat.min_le_left _ _) trivial .refl)) hu
    · exact k.coldStart _ _
    · exact k.coldStart _ _
    · exact hu
  · exact hu

theorem Kept.serveBus (h : P s) : P s.serveBus := k.act (serveBus_act trivial trivial .refl) h

/-- Every command keeps such a property: the loader's one by one, the others by what they can change. -/
theorem Kept.exec {c : Instr} {s t : State} (h : exec c s = .next t) (hs : P s.toPart) : P t.toPart := by
  by_cases hc : ofLoader c = false
  · have ports : Ports fun _ => True := by repeat' constructor
    obtain ⟨u, hu, ha⟩ := exec_act (fun _ => True) ports trivial trivial c s hc fun _ => trivial
    rw [hu] at h; cases h
    exact k.act ha hs
  · have next {u : Part} (e : (.next { s with toPart := u } : Result) = .next t) (hu : P u) : P t.toPart := by
      cases e; exact hu
    cases c with
    | powerOn n =>
      refine next h ?_
      unfold Part.powerUp; dsimp only; split
      · exact k.off _
      · exact k.coldStart _ _
    | resetAssert => exact next h (k.off _)
    | resetRelease n =>
      refine next h ?_
      unfold Part.freeReset; dsimp only; split
      · exact k.coldStart _ _
      · exact k.off _
    | powerFail => exact next h (k.off _)
    | configReadComplete img => exact next h (k.serveBus (k.readComplete img hs))
    | configFaultRepeat => exact next h (k.serveBus (k.repeatFault hs))
    | stationRestart o n =>
      refine next h (k.serveBus ?_)
      unfold Part.live; split
      · exact hs
      · exact k.stationRestart o n hs
    | _ => exact absurd rfl hc

theorem Kept.step {s t : State} (h : step s = .next t) (hs : P s.toPart) : P t.toPart := by
  unfold Machine.step at h
  split at h
  · exact k.exec h hs
  · cases h
    unfold State.tick
    split
    · exact hs
    · refine k.of_view (s := s.toPart) ?_ hs
      rw [passTime_eq]; rfl

end

theorem memoryLaw_kept : Kept Part.MemoryLaw where
  view _ := Iff.rfl
  act h := h.memoryLaw
  reset _ := rfl
  served _ _ _ := rfl

theorem allHeld_of_no_record {s : Part} (h : s.records = Vector.replicate 64 none) : s.allHeld = [] := by
  rw [Part.allHeld, h]; decide

theorem blockLaw_of_blank {s : Part} (hr : s.records = Vector.replicate 64 none)
    (hf : s.free = List.range Config.blocks) : s.BlockLaw := by
  rw [Part.BlockLaw, allHeld_of_no_record hr, hf, List.append_nil]

theorem reset_free (n : Nat) : ({ Part.reset with number := n } : Part).free = List.range Config.blocks := by
  simp only [Part.reset]

theorem coldStart_free (s : Part) (n : Nat) : (s.coldStart n).free = List.range Config.blocks := by
  simp only [Part.coldStart, Part.reset]

theorem blockLaw_kept : Kept Part.BlockLaw where
  view _ := Iff.rfl
  act h := h.blockLaw
  reset n := blockLaw_of_blank rfl (reset_free n)
  served s _ _ := blockLaw_of_blank rfl (by simp only [Part.served, coldStart_free])

theorem registerLaw_nil : RegisterLaw [] := ⟨Nat.zero_le _, List.Pairwise.nil⟩

theorem registerLaw_kept : Kept fun s => RegisterLaw s.register where
  view _ := Iff.rfl
  act h := h.registerLaw
  reset _ := registerLaw_nil
  served _ _ _ := registerLaw_nil

theorem sendListLaw_kept : Kept fun s => SendListLaw s.number s.port.sendList where
  view _ := Iff.rfl
  act h := h.sendListLaw
  reset _ := List.Pairwise.nil
  served _ _ _ := List.Pairwise.nil

theorem blank_bounded : Supervision.blank.Bounded := by
  refine ⟨by decide, by decide, fun k r h => ?_⟩
  have : Supervision.blank.faults.get k = none := by fin_cases k <;> rfl
  rw [this] at h; cases h

theorem countLaw_kept : Kept Part.CountLaw where
  view _ := Iff.rfl
  act h := h.countLaw
  reset n := by
    refine ⟨fun l => ?_, Nat.zero_le _, Nat.zero_le _⟩
    have : (({ Part.reset with number := n } : Part).line l).sup = .blank := by fin_cases l <;> rfl
    rw [this]; exact blank_bounded
  served s cfg h := by
    refine ⟨fun l => ?_, h.2.1, Nat.zero_le _⟩
    have : ((s.served cfg).line l).sup = .blank := by simp [Part.line, Part.served, Vector.get, lineAtEntry, Line.blank]
    rw [this]; exact blank_bounded

theorem gapLaw_kept : Kept Part.GapLaw where
  view _ := Iff.rfl
  act h := h.gapLaw
  reset _ := List.forall_mem_nil _
  served s cfg _ := by
    intro t ht
    obtain ⟨n, _, rfl⟩ := List.mem_map.1 ht
    rfl

/-- Settles O4: a write of a cell keeps the form, and no other change reaches the cells. -/
theorem everyStepKeepsTheMemoryForm : Obligations.EveryStepKeepsTheMemoryForm :=
  fun _ _ => memoryLaw_kept.step

/-- Settles O5: every change moves blocks between the free list and one record, so that none is lost or doubled. -/
theorem everyStepKeepsTheBlocks : Obligations.EveryStepKeepsTheBlocks :=
  fun _ _ => blockLaw_kept.step

/-- Settles O6, from what each change does to the register and to the send list. -/
theorem everyStepKeepsTheLists : Obligations.EveryStepKeepsTheLists :=
  fun _ _ h => ⟨registerLaw_kept.step h, sendListLaw_kept.step h⟩

/-- Settles O7, from what each change does to the counts and to the trackers. -/
theorem everyStepKeepsCountsAndGaps : Obligations.EveryStepKeepsCountsAndGaps :=
  fun _ _ h => ⟨countLaw_kept.step h, gapLaw_kept.step h⟩

/-- Settles O8: the power-on state itself is evaluated. -/
theorem powerOnStateMeetsTheLaws : Obligations.PowerOnStateMeetsTheLaws := by
  have hfree : State.reset.free = List.range 768 := by simp only [State.reset, Part.reset, Config.blocks]
  refine ⟨⟨memoryLaw_kept.powerOn, blockLaw_kept.powerOn, registerLaw_kept.powerOn, sendListLaw_kept.powerOn,
    countLaw_kept.powerOn, gapLaw_kept.powerOn⟩, rfl, rfl, rfl, fun l => ?_, hfree, fun i => ?_, rfl, rfl,
    rfl, fun g => ?_, rfl, rfl, rfl, rfl⟩
  · fin_cases l <;> exact ⟨rfl, rfl, rfl, rfl, rfl⟩
  · exact Vector.getElem_replicate i.isLt
  · exact Vector.getElem_replicate g.isLt

/-- Settles O3, from what no elementary change reaches, and from the kinds of change of each command. -/
theorem commandsKeepSettingsAndEntries : Obligations.CommandsKeepSettingsAndEntries := by
  intro c s hc
  have ports : Ports fun x => x = .mem → writesEntries c = true := by
    repeat' constructor
    all_goals exact nofun
  obtain ⟨t, ht, ha⟩ := exec_act _ ports nofun nofun c s hc fun hw _ => hw
  have hst := ha.standing_eq
  simp only [Part.standing, Prod.mk.injEq] at hst
  obtain ⟨hset, hnum, hload, hreason, hrep, hnow, hpow, hres⟩ := hst
  exact ⟨t, ht, hset, hnum, hload, hreason, hrep, hnow, hpow, hres, ha.texts_eq,
    fun hw => ha.mem_eq fun hm => by rw [hm rfl] at hw; cases hw⟩

/-- Settles O1. -/
theorem stepRunsTheFrontCommand : Obligations.StepRunsTheFrontCommand := fun _ _ _ => rfl

end Sys2Proof.Machine
end

section
/-! The clock: what falls due on an empty queue (00, Time). -/

namespace Sys2Proof.Machine

variable {s : Part} {c : Instr}

theorem busFree_notMem_dueOf {gs : List (Bool × Instr)} (h : ∀ g ∈ gs, g.2 ≠ .busFree) : Instr.busFree ∉ dueOf gs :=
  fun hm => h _ (mem_dueOf_iff.1 hm) rfl

theorem busFree_notMem_dueLine (s : Part) (l : LineNo) : Instr.busFree ∉ s.dueLine l := by
  unfold Part.dueLine
  dsimp only
  split
  · exact busFree_notMem_dueOf (by simp)
  · exact List.not_mem_nil

theorem busFree_notMem_dueRecord (s : Part) (i : Slot) : Instr.busFree ∉ s.dueRecord i := by
  unfold Part.dueRecord
  split
  · exact busFree_notMem_dueOf (by simp)
  · exact busFree_notMem_dueOf (by simp)
  · exact List.not_mem_nil

theorem busFree_notMem_dueEntries (s : Part) : Instr.busFree ∉ s.dueEntries := by
  simp [Part.dueEntries]

theorem busFree_notMem_dueStation (s : Part) : Instr.busFree ∉ s.dueStation :=
  busFree_notMem_dueOf (by simp)

theorem mem_allLines (l : LineNo) : l ∈ allLines := by fin_cases l <;> decide

theorem mem_allSlots (i : Slot) : i ∈ allSlots := List.mem_finRange i

theorem dueCommand_eq_none_iff : s.dueCommand = none ↔
    (∀ l, s.dueLine l = []) ∧ (∀ i, s.dueRecord i = []) ∧ s.dueEntries = [] ∧ s.dueStation = [] := by
  simp only [Part.dueCommand, List.head?_eq_none_iff, List.append_eq_nil_iff, List.flatMap_eq_nil_iff, mem_allLines,
    mem_allSlots, true_imp_iff, and_assoc]

theorem mem_due_of_dueCommand (h : s.dueCommand = some c) :
    (∃ l, c ∈ s.dueLine l) ∨ (∃ i, c ∈ s.dueRecord i) ∨ c ∈ s.dueEntries ∨ c ∈ s.dueStation := by
  have hm := List.mem_of_head? h
  simp only [List.mem_append, List.mem_flatMap, or_assoc] at hm
  rcases hm with ⟨l, -, hl⟩ | ⟨i, -, hi⟩ | he | hs
  · exact .inl ⟨l, hl⟩
  · exact .inr (.inl ⟨i, hi⟩)
  · exact .inr (.inr (.inl he))
  · exact .inr (.inr (.inr hs))

theorem dueCommand_ne_busFree (h : s.dueCommand = some c) : c ≠ .busFree := by
  rintro rfl
  rcases mem_due_of_dueCommand h with ⟨l, hl⟩ | ⟨i, hi⟩ | he | hs
  · exact busFree_notMem_dueLine s l hl
  · exact busFree_notMem_dueRecord s i hi
  · exact busFree_notMem_dueEntries s he
  · exact busFree_notMem_dueStation s hs

/-- On an empty queue with nothing due, a step is the passing of time. -/
theorem step_of_nothing_due {s : State} (hq : s.pending = []) (hd : s.toPart.dueCommand = none) :
    step s = .next { s with toPart := s.toPart.passTime } := by
  simp [step, hq, State.tick, hd]

theorem fieldPassed_iff : s.fieldPassed = true ↔
    ∃ f, s.port.own = some f ∧ s.port.state = .contending ∧ f.began + 800 ≤ s.now := by
  unfold Part.fieldPassed
  split
  · next f hf =>
    rw [Bool.and_eq_true, beq_iff_eq, decide_eq_true_eq]
    simp [hf, Config.fieldTime, Config.bitTime]
  · next hf => simp [hf]

/-- Settles O2, from the lists of due commands and from `passTime_eq`. -/
theorem emptyQueueTicks : Obligations.EmptyQueueTicks := by
  refine ⟨fun s => ⟨dueCommand_eq_none_iff, fun c h => ⟨dueCommand_ne_busFree h, mem_due_of_dueCommand h⟩⟩,
    fun s hq => ⟨fun c hc => ?_, fun hd => ⟨fun hf => ?_, fun f ho hst hb => ?_⟩⟩⟩
  · simp [step, hq, State.tick, hc]
  · have hno : ¬({ s.toPart with now := s.now + 1 } : Part).fieldPassed = true := by
      rw [fieldPassed_iff]
      rintro ⟨f, ho, hst, hb⟩
      exact absurd hb (Nat.not_le.2 (hf f ho hst))
    rw [step_of_nothing_due hq hd, passTime_eq, if_neg hno]
  · have hyes : ({ s.toPart with now := s.now + 1 } : Part).fieldPassed = true := fieldPassed_iff.2 ⟨f, ho, hst, hb⟩
    rw [step_of_nothing_due hq hd, passTime_eq, if_pos hyes]

end Sys2Proof.Machine
end

section
/-! The state's operations on lines, requests and conditions: what each leaves as it was. -/

namespace Sys2Proof.Machine

/-! ### Updates of a line -/

section
variable (s : Part) (l k : LineNo) (i : Slot) (o : Owner) (c : StationCondition)

@[simp] theorem updUnit_now (f) : (s.updUnit l f).now = s.now := rfl
@[simp] theorem updUnit_rx (f) : (s.updUnit l f).rx = s.rx := rfl
@[simp] theorem updUnit_loader (f) : (s.updUnit l f).loader = s.loader := rfl
@[simp] theorem updUnit_number (f) : (s.updUnit l f).number = s.number := rfl
@[simp] theorem updUnit_settings (f) : (s.updUnit l f).settings = s.settings := rfl
@[simp] theorem updUnit_mem (f) : (s.updUnit l f).mem = s.mem := rfl
@[simp] theorem updUnit_free (f) : (s.updUnit l f).free = s.free := rfl
@[simp] theorem updUnit_records (f) : (s.updUnit l f).records = s.records := rfl
@[simp] theorem updUnit_recent (f) : (s.updUnit l f).recent = s.recent := rfl
@[simp] theorem updUnit_trackers (f) : (s.updUnit l f).trackers = s.trackers := rfl
@[simp] theorem updUnit_register (f) : (s.updUnit l f).register = s.register := rfl
@[simp] theorem updUnit_groups (f) : (s.updUnit l f).groups = s.groups := rfl
@[simp] theorem updUnit_port (f) : (s.updUnit l f).port = s.port := rfl
@[simp] theorem updUnit_notices (f) : (s.updUnit l f).notices = s.notices := rfl
@[simp] theorem updUnit_cfg (f) : (s.updUnit l f).cfg k = s.cfg k := rfl
@[simp] theorem updUnit_map (f) : (s.updUnit l f).map k = s.map k := rfl
@[simp] theorem updUnit_active (f) : (s.updUnit l f).active k = s.active k := rfl
@[simp] theorem updUnit_assembles (f) : (s.updUnit l f).assembles k = s.assembles k := rfl
@[simp] theorem updUnit_mark (f) : (s.updUnit l f).mark k = s.mark k := rfl
@[simp] theorem updUnit_record (f) : (s.updUnit l f).record i = s.record i := rfl
@[simp] theorem updUnit_inRecord (f) : (s.updUnit l f).inRecord i = s.inRecord i := rfl
@[simp] theorem updUnit_outRecord (f) : (s.updUnit l f).outRecord i = s.outRecord i := rfl
@[simp] theorem updUnit_requestOf (f) : (s.updUnit l f).requestOf o = s.requestOf o := rfl
@[simp] theorem updUnit_hasRequest (f) : (s.updUnit l f).hasRequest o = s.hasRequest o := rfl
@[simp] theorem updUnit_stationCond (f) : (s.updUnit l f).stationCond c = s.stationCond c := rfl
@[simp] theorem updUnit_cond (f) (d : Condition) : (s.updUnit l f).cond k d = s.cond k d := by simp [Part.cond]
@[simp] theorem updRecog_now (f) : (s.updRecog l f).now = s.now := rfl
@[simp] theorem updRecog_rx (f) : (s.updRecog l f).rx = s.rx := rfl
@[simp] theorem updRecog_loader (f) : (s.updRecog l f).loader = s.loader := rfl
@[simp] theorem updRecog_number (f) : (s.updRecog l f).number = s.number := rfl
@[simp] theorem updRecog_settings (f) : (s.updRecog l f).settings = s.settings := rfl
@[simp] theorem updRecog_mem (f) : (s.updRecog l f).mem = s.mem := rfl
@[simp] theorem updRecog_free (f) : (s.updRecog l f).free = s.free := rfl
@[simp] theorem updRecog_records (f) : (s.updRecog l f).records = s.records := rfl
@[simp] theorem updRecog_recent (f) : (s.updRecog l f).recent = s.recent := rfl
@[simp] theorem updRecog_trackers (f) : (s.updRecog l f).trackers = s.trackers := rfl
@[simp] theorem updRecog_register (f) : (s.updRecog l f).register = s.register := rfl
@[simp] theorem updRecog_groups (f) : (s.updRecog l f).groups = s.groups := rfl
@[simp] theorem updRecog_port (f) : (s.updRecog l f).port = s.port := rfl
@[simp] theorem updRecog_notices (f) : (s.updRecog l f).notices = s.notices := rfl
@[simp] theorem updRecog_cfg (f) : (s.updRecog l f).cfg k = s.cfg k := rfl
@[simp] theorem updRecog_map (f) : (s.updRecog l f).map k = s.map k := rfl
@[simp] theorem updRecog_active (f) : (s.updRecog l f).active k = s.active k := rfl
@[simp] theorem updRecog_assembles (f) : (s.updRecog l f).assembles k = s.assembles k := rfl
@[simp] theorem updRecog_mark (f) : (s.updRecog l f).mark k = s.mark k := rfl
@[simp] theorem updRecog_record (f) : (s.updRecog l f).record i = s.record i := rfl
@[simp] theorem updRecog_inRecord (f) : (s.updRecog l f).inRecord i = s.inRecord i := rfl
@[simp] theorem updRecog_outRecord (f) : (s.updRecog l f).outRecord i = s.outRecord i := rfl
@[simp] theorem updRecog_requestOf (f) : (s.updRecog l f).requestOf o = s.requestOf o := rfl
@[simp] theorem updRecog_hasRequest (f) : (s.updRecog l f).hasRequest o = s.hasRequest o := rfl
@[simp] theorem updRecog_stationCond (f) : (s.updRecog l f).stationCond c = s.stationCond c := rfl
@[simp] theorem updRecog_cond (f) (d : Condition) : (s.updRecog l f).cond k d = s.cond k d := by simp [Part.cond]
@[simp] theorem updSched_now (f) : (s.updSched l f).now = s.now := rfl
@[simp] theorem updSched_rx (f) : (s.updSched l f).rx = s.rx := rfl
@[simp] theorem updSched_loader (f) : (s.updSched l f).loader = s.loader := rfl
@[simp] theorem updSched_number (f) : (s.updSched l f).number = s.number := rfl
@[simp] theorem updSched_settings (f) : (s.updSched l f).settings = s.settings := rfl
@[simp] theorem updSched_mem (f) : (s.updSched l f).mem = s.mem := rfl
@[simp] theorem updSched_free (f) : (s.updSched l f).free = s.free := rfl
@[simp] theorem updSched_records (f) : (s.updSched l f).records = s.records := rfl
@[simp] theorem updSched_recent (f) : (s.updSched l f).recent = s.recent := rfl
@[simp] theorem updSched_trackers (f) : (s.updSched l f).trackers = s.trackers := rfl
@[simp] theorem updSched_register (f) : (s.updSched l f).register = s.register := rfl
@[simp] theorem updSched_groups (f) : (s.updSched l f).groups = s.groups := rfl
@[simp] theorem updSched_port (f) : (s.updSched l f).port = s.port := rfl
@[simp] theorem updSched_notices (f) : (s.updSched l f).notices = s.notices := rfl
@[simp] theorem updSched_cfg (f) : (s.updSched l f).cfg k = s.cfg k := rfl
@[simp] theorem updSched_map (f) : (s.updSched l f).map k = s.map k := rfl
@[simp] theorem updSched_active (f) : (s.updSched l f).active k = s.active k := rfl
@[simp] theorem updSched_assembles (f) : (s.updSched l f).assembles k = s.assembles k := rfl
@[simp] theorem updSched_mark (f) : (s.updSched l f).mark k = s.mark k := rfl
@[simp] theorem updSched_record (f) : (s.updSched l f).record i = s.record i := rfl
@[simp] theorem updSched_inRecord (f) : (s.updSched l f).inRecord i = s.inRecord i := rfl
@[simp] theorem updSched_outRecord (f) : (s.updSched l f).outRecord i = s.outRecord i := rfl
@[simp] theorem updSched_requestOf (f) : (s.updSched l f).requestOf o = s.requestOf o := rfl
@[simp] theorem updSched_hasRequest (f) : (s.updSched l f).hasRequest o = s.hasRequest o := rfl
@[simp] theorem updSched_stationCond (f) : (s.updSched l f).stationCond c = s.stationCond c := rfl
@[simp] theorem updSched_cond (f) (d : Condition) : (s.updSched l f).cond k d = s.cond k d := by simp [Part.cond]
@[simp] theorem updSup_now (f) : (s.updSup l f).now = s.now := rfl
@[simp] theorem updSup_rx (f) : (s.updSup l f).rx = s.rx := rfl
@[simp] theorem updSup_loader (f) : (s.updSup l f).loader = s.loader := rfl
@[simp] theorem updSup_number (f) : (s.updSup l f).number = s.number := rfl
@[simp] theorem updSup_settings (f) : (s.updSup l f).settings = s.settings := rfl
@[simp] theorem updSup_mem (f) : (s.updSup l f).mem = s.mem := rfl
@[simp] theorem updSup_free (f) : (s.updSup l f).free = s.free := rfl
@[simp] theorem updSup_records (f) : (s.updSup l f).records = s.records := rfl
@[simp] theorem updSup_recent (f) : (s.updSup l f).recent = s.recent := rfl
@[simp] theorem updSup_trackers (f) : (s.updSup l f).trackers = s.trackers := rfl
@[simp] theorem updSup_register (f) : (s.updSup l f).register = s.register := rfl
@[simp] theorem updSup_groups (f) : (s.updSup l f).groups = s.groups := rfl
@[simp] theorem updSup_port (f) : (s.updSup l f).port = s.port := rfl
@[simp] theorem updSup_notices (f) : (s.updSup l f).notices = s.notices := rfl
@[simp] theorem updSup_cfg (f) : (s.updSup l f).cfg k = s.cfg k := rfl
@[simp] theorem updSup_map (f) : (s.updSup l f).map k = s.map k := rfl
@[simp] theorem updSup_active (f) : (s.updSup l f).active k = s.active k := rfl
@[simp] theorem updSup_assembles (f) : (s.updSup l f).assembles k = s.assembles k := rfl
@[simp] theorem updSup_mark (f) : (s.updSup l f).mark k = s.mark k := rfl
@[simp] theorem updSup_record (f) : (s.updSup l f).record i = s.record i := rfl
@[simp] theorem updSup_inRecord (f) : (s.updSup l f).inRecord i = s.inRecord i := rfl
@[simp] theorem updSup_outRecord (f) : (s.updSup l f).outRecord i = s.outRecord i := rfl
@[simp] theorem updSup_requestOf (f) : (s.updSup l f).requestOf o = s.requestOf o := rfl
@[simp] theorem updSup_hasRequest (f) : (s.updSup l f).hasRequest o = s.hasRequest o := rfl
@[simp] theorem updSup_stationCond (f) : (s.updSup l f).stationCond c = s.stationCond c := rfl
@[simp] theorem setPlane_now (p) : (s.setPlane l p).now = s.now := rfl
@[simp] theorem setPlane_rx (p) : (s.setPlane l p).rx = s.rx := rfl
@[simp] theorem setPlane_loader (p) : (s.setPlane l p).loader = s.loader := rfl
@[simp] theorem setPlane_number (p) : (s.setPlane l p).number = s.number := rfl
@[simp] theorem setPlane_settings (p) : (s.setPlane l p).settings = s.settings := rfl
@[simp] theorem setPlane_mem (p) : (s.setPlane l p).mem = s.mem := rfl
@[simp] theorem setPlane_free (p) : (s.setPlane l p).free = s.free := rfl
@[simp] theorem setPlane_records (p) : (s.setPlane l p).records = s.records := rfl
@[simp] theorem setPlane_recent (p) : (s.setPlane l p).recent = s.recent := rfl
@[simp] theorem setPlane_trackers (p) : (s.setPlane l p).trackers = s.trackers := rfl
@[simp] theorem setPlane_register (p) : (s.setPlane l p).register = s.register := rfl
@[simp] theorem setPlane_groups (p) : (s.setPlane l p).groups = s.groups := rfl
@[simp] theorem setPlane_port (p) : (s.setPlane l p).port = s.port := rfl
@[simp] theorem setPlane_notices (p) : (s.setPlane l p).notices = s.notices := rfl
@[simp] theorem setPlane_cfg (p) : (s.setPlane l p).cfg k = s.cfg k := rfl
@[simp] theorem setPlane_map (p) : (s.setPlane l p).map k = s.map k := rfl
@[simp] theorem setPlane_active (p) : (s.setPlane l p).active k = s.active k := rfl
@[simp] theorem setPlane_assembles (p) : (s.setPlane l p).assembles k = s.assembles k := rfl
@[simp] theorem setPlane_mark (p) : (s.setPlane l p).mark k = s.mark k := rfl
@[simp] theorem setPlane_record (p) : (s.setPlane l p).record i = s.record i := rfl
@[simp] theorem setPlane_inRecord (p) : (s.setPlane l p).inRecord i = s.inRecord i := rfl
@[simp] theorem setPlane_outRecord (p) : (s.setPlane l p).outRecord i = s.outRecord i := rfl
@[simp] theorem setPlane_requestOf (p) : (s.setPlane l p).requestOf o = s.requestOf o := rfl
@[simp] theorem setPlane_hasRequest (p) : (s.setPlane l p).hasRequest o = s.hasRequest o := rfl
@[simp] theorem setPlane_stationCond (p) : (s.setPlane l p).stationCond c = s.stationCond c := rfl
@[simp] theorem setPlane_cond (p) (d : Condition) : (s.setPlane l p).cond k d = s.cond k d := by simp [Part.cond]

end

/-! ### Requests -/

section
variable (s : Part) (r : Request) (o : Owner) (k : LineNo) (i : Slot) (x : StationCondition)

@[simp] theorem addRequest_hearings : (s.addRequest r).hearings = s.hearings := by rw [addRequest_eq]
@[simp] theorem addRequest_rx : (s.addRequest r).rx = s.rx := by rw [addRequest_eq]
@[simp] theorem addRequest_recent : (s.addRequest r).recent = s.recent := by rw [addRequest_eq]
@[simp] theorem addRequest_trackers : (s.addRequest r).trackers = s.trackers := by rw [addRequest_eq]
@[simp] theorem addRequest_register : (s.addRequest r).register = s.register := by rw [addRequest_eq]
@[simp] theorem addRequest_groups : (s.addRequest r).groups = s.groups := by rw [addRequest_eq]
@[simp] theorem addRequest_cfg : (s.addRequest r).cfg k = s.cfg k := by rw [addRequest_eq]; rfl
@[simp] theorem addRequest_map : (s.addRequest r).map k = s.map k := by rw [addRequest_eq]; rfl
@[simp] theorem addRequest_active : (s.addRequest r).active k = s.active k := by rw [addRequest_eq]; rfl
@[simp] theorem addRequest_assembles : (s.addRequest r).assembles k = s.assembles k := by rw [addRequest_eq]; rfl
@[simp] theorem addRequest_mark : (s.addRequest r).mark k = s.mark k := by rw [addRequest_eq]; rfl
@[simp] theorem addRequest_inRecord : (s.addRequest r).inRecord i = s.inRecord i := by rw [addRequest_eq]; rfl
@[simp] theorem addRequest_outRecord : (s.addRequest r).outRecord i = s.outRecord i := by rw [addRequest_eq]; rfl
@[simp] theorem addRequest_stationCond : (s.addRequest r).stationCond x = s.stationCond x := by rw [addRequest_eq]; rfl
@[simp] theorem addRequest_cond (d : Condition) : (s.addRequest r).cond k d = s.cond k d := by rw [addRequest_eq]; rfl
@[simp] theorem removeRequest_now : (s.removeRequest o).now = s.now := rfl
@[simp] theorem removeRequest_hearings : (s.removeRequest o).hearings = s.hearings := rfl
@[simp] theorem removeRequest_rx : (s.removeRequest o).rx = s.rx := rfl
@[simp] theorem removeRequest_loader : (s.removeRequest o).loader = s.loader := rfl
@[simp] theorem removeRequest_number : (s.removeRequest o).number = s.number := rfl
@[simp] theorem removeRequest_settings : (s.removeRequest o).settings = s.settings := rfl
@[simp] theorem removeRequest_mem : (s.removeRequest o).mem = s.mem := rfl
@[simp] theorem removeRequest_free : (s.removeRequest o).free = s.free := rfl
@[simp] theorem removeRequest_records : (s.removeRequest o).records = s.records := rfl
@[simp] theorem removeRequest_recent : (s.removeRequest o).recent = s.recent := rfl
@[simp] theorem removeRequest_trackers : (s.removeRequest o).trackers = s.trackers := rfl
@[simp] theorem removeRequest_register : (s.removeRequest o).register = s.register := rfl
@[simp] theorem removeRequest_groups : (s.removeRequest o).groups = s.groups := rfl
@[simp] theorem removeRequest_notices : (s.removeRequest o).notices = s.notices := rfl
@[simp] theorem removeRequest_lines : (s.removeRequest o).lines = s.lines := rfl
@[simp] theorem removeRequest_cfg : (s.removeRequest o).cfg k = s.cfg k := rfl
@[simp] theorem removeRequest_map : (s.removeRequest o).map k = s.map k := rfl
@[simp] theorem removeRequest_active : (s.removeRequest o).active k = s.active k := rfl
@[simp] theorem removeRequest_assembles : (s.removeRequest o).assembles k = s.assembles k := rfl
@[simp] theorem removeRequest_mark : (s.removeRequest o).mark k = s.mark k := rfl
@[simp] theorem removeRequest_record : (s.removeRequest o).record i = s.record i := rfl
@[simp] theorem removeRequest_inRecord : (s.removeRequest o).inRecord i = s.inRecord i := rfl
@[simp] theorem removeRequest_outRecord : (s.removeRequest o).outRecord i = s.outRecord i := rfl
@[simp] theorem removeRequest_stationCond : (s.removeRequest o).stationCond x = s.stationCond x := rfl
@[simp] theorem removeRequest_line : (s.removeRequest o).line k = s.line k := rfl

theorem find?_insertRequest_ne {n : Nat} {r : Request} {o : Owner} (h : r.owner ≠ o) (rs : List Request) :
    (insertRequest n r rs).find? (fun q => q.owner == o) = rs.find? fun q => q.owner == o := by
  induction rs with
  | nil => simp [insertRequest, h]
  | cons q qs ih => 
    unfold insertRequest
    split
    · simp [h]
    · rw [List.find?_cons, List.find?_cons, ih]

theorem find?_insertRequest_self {n : Nat} {r : Request} {rs : List Request} (h : ∀ q ∈ rs, q.owner ≠ r.owner) :
    (insertRequest n r rs).find? (fun q => q.owner == r.owner) = some r := by
  induction rs with
  | nil => simp [insertRequest]
  | cons q qs ih =>
    have hq := h q List.mem_cons_self
    have ih := ih fun a ha => h a (List.mem_cons_of_mem _ ha)
    unfold insertRequest; split <;> simp [hq, ih]

/-- The request of an owner after a request is added: its own if it had none, and no other owner's changes. -/
theorem requestOf_addRequest : (s.addRequest r).requestOf o =
    if r.owner = o ∧ s.hasRequest o = false then some r else s.requestOf o := by
  rw [addRequest_eq, Part.requestOf]; dsimp only
  by_cases ho : r.owner = o
  · subst ho
    cases hr : s.hasRequest r.owner with
    | true => simp [Part.requestOf]
    | false => simp [find?_insertRequest_self (hasRequest_eq_false.1 hr)]
  · simp only [ho, false_and, if_false, Part.requestOf]
    split
    · rfl
    · exact find?_insertRequest_ne ho _

theorem requestOf_addRequest_ne (h : r.owner ≠ o) : (s.addRequest r).requestOf o = s.requestOf o := by
  rw [requestOf_addRequest, if_neg fun c => h c.1]

theorem requestOf_addRequest_self (h : s.hasRequest r.owner = false) : (s.addRequest r).requestOf r.owner = some r := by
  rw [requestOf_addRequest, if_pos ⟨rfl, h⟩]

theorem hasRequest_addRequest_ne (h : r.owner ≠ o) : (s.addRequest r).hasRequest o = s.hasRequest o := by
  rw [Part.hasRequest, requestOf_addRequest_ne s r o h, Part.hasRequest]

@[simp] theorem hasRequest_addRequest_self : (s.addRequest r).hasRequest r.owner = true := by
  rw [Part.hasRequest, requestOf_addRequest]
  cases h : s.hasRequest r.owner with
  | true => simpa [Part.hasRequest] using h
  | false => simp

theorem addRequest_of_hasRequest (h : s.hasRequest r.owner = true) : s.addRequest r = s := by
  simp [Part.addRequest, h]

theorem requestOf_removeRequest (o' : Owner) : (s.removeRequest o).requestOf o' = if o' = o then none else s.requestOf o' := by
  rw [Part.requestOf, Part.removeRequest]; dsimp only
  rw [List.find?_filter]
  split
  · next h => subst h; simp
  · next h =>
    rw [Part.requestOf]
    congr; funext q
    by_cases hq : q.owner = o' <;> simp [hq, h]

@[simp] theorem requestOf_removeRequest_self : (s.removeRequest o).requestOf o = none := by
  simp [requestOf_removeRequest]

theorem requestOf_removeRequest_ne {o' : Owner} (h : o' ≠ o) : (s.removeRequest o).requestOf o' = s.requestOf o' := by
  simp [requestOf_removeRequest, h]

@[simp] theorem hasRequest_removeRequest_self : (s.removeRequest o).hasRequest o = false := by
  simp [Part.hasRequest]

theorem hasRequest_removeRequest_ne {o' : Owner} (h : o' ≠ o) : (s.removeRequest o).hasRequest o' = s.hasRequest o' := by
  simp [Part.hasRequest, requestOf_removeRequest_ne s o h]

end

/-! ### Conditions of a line -/

/-- What neither an update of a line's supervision state nor a request changes, an edge does not change. -/
theorem setCond_congr {α : Type} {p : Part → α} {l : LineNo} (hu : ∀ s f, p (s.updSup l f) = p s)
    (ha : ∀ s r, p (s.addRequest r) = p s) (s : Part) (l' : LineNo) (c : Condition) (b : Bool) (h : l' = l := by rfl) :
    p (s.setCond l' c b) = p s := by
  subst h
  unfold Part.setCond; dsimp only
  split
  · rfl
  · split
    · rw [ha, hu, hu]
    · rw [hu]

section
variable (s : Part) (l k : LineNo) (c : Condition) (b : Bool) (i : Slot) (x : StationCondition)

theorem line_setCond_ne (h : k ≠ l) : (s.setCond l c b).line k = s.line k :=
  setCond_congr (p := fun s => s.line k) (fun s f => line_updSup_ne s l k f h) (by simp) s l c b

/-- A line's supervision state but for its flags. -/
def Supervision.unflagged (x : Supervision) : Supervision := { x with levels := 0, changed := 0 }

theorem unflagged_updSup {f : Supervision → Supervision} (hf : ∀ x, (f x).unflagged = x.unflagged) :
    ((s.updSup l f).line k).sup.unflagged = (s.line k).sup.unflagged := by
  by_cases h : k = l
  · subst h; rw [sup_updSup, hf]
  · rw [line_updSup_ne _ _ _ _ h]

/-- An edge changes the levels and the changed set of a line's supervision state alone. -/
theorem sup_line_setCond : ((s.setCond l c b).line k).sup.unflagged = (s.line k).sup.unflagged := by
  have levels : ((s.updSup l fun x => { x with levels := putBit x.levels c.idx b }).line k).sup.unflagged =
      (s.line k).sup.unflagged := unflagged_updSup s l k fun _ => rfl
  unfold Part.setCond; dsimp only
  split
  · rfl
  · split
    · rw [addRequest_line]; refine (unflagged_updSup _ l k ?_).trans levels; exact fun _ => rfl
    · exact levels

@[simp] theorem setCond_now : (s.setCond l c b).now = s.now :=
  setCond_congr (p := Part.now) (fun _ _ => rfl) (fun _ _ => by simp) s l c b
@[simp] theorem setCond_hearings : (s.setCond l c b).hearings = s.hearings :=
  setCond_congr (p := Part.hearings) (fun _ _ => rfl) (fun _ _ => by simp) s l c b
@[simp] theorem setCond_rx : (s.setCond l c b).rx = s.rx :=
  setCond_congr (p := Part.rx) (fun _ _ => rfl) (fun _ _ => by simp) s l c b
@[simp] theorem setCond_loader : (s.setCond l c b).loader = s.loader :=
  setCond_congr (p := Part.loader) (fun _ _ => rfl) (fun _ _ => by simp) s l c b
@[simp] theorem setCond_number : (s.setCond l c b).number = s.number :=
  setCond_congr (p := Part.number) (fun _ _ => rfl) (fun _ _ => by simp) s l c b
@[simp] theorem setCond_settings : (s.setCond l c b).settings = s.settings :=
  setCond_congr (p := Part.settings) (fun _ _ => rfl) (fun _ _ => by simp) s l c b
@[simp] theorem setCond_mem : (s.setCond l c b).mem = s.mem :=
  setCond_congr (p := Part.mem) (fun _ _ => rfl) (fun _ _ => by simp) s l c b
@[simp] theorem setCond_free : (s.setCond l c b).free = s.free :=
  setCond_congr (p := Part.free) (fun _ _ => rfl) (fun _ _ => by simp) s l c b
@[simp] theorem setCond_records : (s.setCond l c b).records = s.records :=
  setCond_congr (p := Part.records) (fun _ _ => rfl) (fun _ _ => by simp) s l c b
@[simp] theorem setCond_recent : (s.setCond l c b).recent = s.recent :=
  setCond_congr (p := Part.recent) (fun _ _ => rfl) (fun _ _ => by simp) s l c b
@[simp] theorem setCond_trackers : (s.setCond l c b).trackers = s.trackers :=
  setCond_congr (p := Part.trackers) (fun _ _ => rfl) (fun _ _ => by simp) s l c b
@[simp] theorem setCond_register : (s.setCond l c b).register = s.register :=
  setCond_congr (p := Part.register) (fun _ _ => rfl) (fun _ _ => by simp) s l c b
@[simp] theorem setCond_groups : (s.setCond l c b).groups = s.groups :=
  setCond_congr (p := Part.groups) (fun _ _ => rfl) (fun _ _ => by simp) s l c b
@[simp] theorem setCond_notices : (s.setCond l c b).notices = s.notices :=
  setCond_congr (p := Part.notices) (fun _ _ => rfl) (fun _ _ => by simp) s l c b
@[simp] theorem setCond_cfg : (s.setCond l c b).cfg k = s.cfg k :=
  setCond_congr (p := fun s => s.cfg k) (fun _ _ => rfl) (fun _ _ => by simp) s l c b
@[simp] theorem setCond_map : (s.setCond l c b).map k = s.map k :=
  setCond_congr (p := fun s => s.map k) (fun _ _ => rfl) (fun _ _ => by simp) s l c b
@[simp] theorem setCond_active : (s.setCond l c b).active k = s.active k :=
  setCond_congr (p := fun s => s.active k) (fun _ _ => rfl) (fun _ _ => by simp) s l c b
@[simp] theorem setCond_assembles : (s.setCond l c b).assembles k = s.assembles k :=
  setCond_congr (p := fun s => s.assembles k) (fun _ _ => rfl) (fun _ _ => by simp) s l c b
@[simp] theorem setCond_mark : (s.setCond l c b).mark k = s.mark k :=
  setCond_congr (p := fun s => s.mark k) (fun _ _ => rfl) (fun _ _ => by simp) s l c b
@[simp] theorem setCond_record : (s.setCond l c b).record i = s.record i :=
  setCond_congr (p := fun s => s.record i) (fun _ _ => rfl) (fun _ _ => by simp) s l c b
@[simp] theorem setCond_inRecord : (s.setCond l c b).inRecord i = s.inRecord i :=
  setCond_congr (p := fun s => s.inRecord i) (fun _ _ => rfl) (fun _ _ => by simp) s l c b
@[simp] theorem setCond_outRecord : (s.setCond l c b).outRecord i = s.outRecord i :=
  setCond_congr (p := fun s => s.outRecord i) (fun _ _ => rfl) (fun _ _ => by simp) s l c b
@[simp] theorem setCond_stationCond : (s.setCond l c b).stationCond x = s.stationCond x :=
  setCond_congr (p := fun s => s.stationCond x) (fun _ _ => rfl) (fun _ _ => by simp) s l c b
@[simp] theorem unit_line_setCond : ((s.setCond l c b).line k).unit = (s.line k).unit :=
  setCond_congr (p := fun s => (s.line k).unit) (by simp) (by simp) s l c b
@[simp] theorem plane_line_setCond : ((s.setCond l c b).line k).plane = (s.line k).plane :=
  setCond_congr (p := fun s => (s.line k).plane) (by simp) (by simp) s l c b
@[simp] theorem recog_line_setCond : ((s.setCond l c b).line k).recog = (s.line k).recog :=
  setCond_congr (p := fun s => (s.line k).recog) (by simp) (by simp) s l c b
@[simp] theorem sched_line_setCond : ((s.setCond l c b).line k).sched = (s.line k).sched :=
  setCond_congr (p := fun s => (s.line k).sched) (by simp) (by simp) s l c b
@[simp] theorem texts_line_setCond : ((s.setCond l c b).line k).texts = (s.line k).texts :=
  setCond_congr (p := fun s => (s.line k).texts) (by simp) (by simp) s l c b
@[simp] theorem counter_sup_setCond : ((s.setCond l c b).line k).sup.counter = (s.line k).sup.counter :=
  congrArg (·.counter) (sup_line_setCond s l k c b)
@[simp] theorem snapshot_sup_setCond : ((s.setCond l c b).line k).sup.snapshot = (s.line k).sup.snapshot :=
  congrArg (·.snapshot) (sup_line_setCond s l k c b)
@[simp] theorem unreported_sup_setCond : ((s.setCond l c b).line k).sup.unreported = (s.line k).sup.unreported :=
  congrArg (·.unreported) (sup_line_setCond s l k c b)
@[simp] theorem faults_sup_setCond : ((s.setCond l c b).line k).sup.faults = (s.line k).sup.faults :=
  congrArg (·.faults) (sup_line_setCond s l k c b)
@[simp] theorem query_sup_setCond : ((s.setCond l c b).line k).sup.query = (s.line k).sup.query :=
  congrArg (·.query) (sup_line_setCond s l k c b)
@[simp] theorem clear_sup_setCond : ((s.setCond l c b).line k).sup.clear = (s.line k).sup.clear :=
  congrArg (·.clear) (sup_line_setCond s l k c b)
@[simp] theorem lateSnapshot_sup_setCond : ((s.setCond l c b).line k).sup.lateSnapshot = (s.line k).sup.lateSnapshot :=
  congrArg (·.lateSnapshot) (sup_line_setCond s l k c b)
@[simp] theorem lateQuery_sup_setCond : ((s.setCond l c b).line k).sup.lateQuery = (s.line k).sup.lateQuery :=
  congrArg (·.lateQuery) (sup_line_setCond s l k c b)
@[simp] theorem lateClear_sup_setCond : ((s.setCond l c b).line k).sup.lateClear = (s.line k).sup.lateClear :=
  congrArg (·.lateClear) (sup_line_setCond s l k c b)
@[simp] theorem loopUpRun_sup_setCond : ((s.setCond l c b).line k).sup.loopUpRun = (s.line k).sup.loopUpRun :=
  congrArg (·.loopUpRun) (sup_line_setCond s l k c b)
@[simp] theorem loopDownRun_sup_setCond : ((s.setCond l c b).line k).sup.loopDownRun = (s.line k).sup.loopDownRun :=
  congrArg (·.loopDownRun) (sup_line_setCond s l k c b)
@[simp] theorem gen_sup_setCond : ((s.setCond l c b).line k).sup.gen = (s.line k).sup.gen :=
  congrArg (·.gen) (sup_line_setCond s l k c b)
@[simp] theorem chk_sup_setCond : ((s.setCond l c b).line k).sup.chk = (s.line k).sup.chk :=
  congrArg (·.chk) (sup_line_setCond s l k c b)

@[simp] theorem Condition.idx_lt : c.idx < 8 := by cases c <;> decide

theorem Condition.idx_inj {c d : Condition} : c.idx = d.idx ↔ c = d := by
  constructor
  · cases c <;> cases d <;> decide
  · rintro rfl; rfl

/-- The conditions of the lines after one takes a level. -/
theorem cond_setCond (d : Condition) : (s.setCond l c b).cond k d = if k = l ∧ d = c then b else s.cond k d := by
  by_cases hk : k = l
  · subst hk
    unfold Part.setCond; dsimp only
    split
    · next h => split
                · next e => rw [e.2, h]
                · rfl
    · have (t : Part) : (t.updSup k fun x => { x with levels := putBit x.levels c.idx b }).cond k d =
          if k = k ∧ d = c then b else t.cond k d := by
        simp only [Part.cond, sup_updSup]
        rw [getLsbD_putBit _ _ _ _ c.idx_lt d.idx_lt]
        simp only [Condition.idx_inj, true_and]
      split
      · rw [addRequest_cond, ← this s]; simp only [Part.cond, sup_updSup]
      · exact this s
  · rw [if_neg fun e => hk e.1, Part.cond, line_setCond_ne _ _ _ _ _ hk, Part.cond]

@[simp] theorem cond_setCond_self : (s.setCond l c b).cond l c = b := by simp [cond_setCond]
theorem cond_setCond_ne {d : Condition} (h : d ≠ c) : (s.setCond l c b).cond k d = s.cond k d := by
  simp [cond_setCond, h]

theorem requestOf_setCond_ne {o : Owner} (h : o ≠ .condition l) : (s.setCond l c b).requestOf o = s.requestOf o := by
  unfold Part.setCond; dsimp only
  split
  · rfl
  · split
    · rw [requestOf_addRequest_ne _ _ _ (by exact h.symm)]; rfl
    · rfl

@[simp] theorem requestOf_record_setCond : (s.setCond l c b).requestOf (.record i) = s.requestOf (.record i) :=
  requestOf_setCond_ne _ _ _ _ nofun

@[simp] theorem hasRequest_record_setCond : (s.setCond l c b).hasRequest (.record i) = s.hasRequest (.record i) := by
  simp [Part.hasRequest]

end

end Sys2Proof.Machine
end

section
/-! The frames of elementary changes, one for each kind (Laws/Act.lean): what changes of other kinds leave. -/

namespace Sys2Proof.Machine

variable {K : Kind → Prop} {s t : Part}

theorem Act.hearings_eq (h : Act K s t) (hk : ¬K .hearing) : t.hearings = s.hearings := by
  induction h with
  | refl => rfl
  | add r _ _ ih => rw [addRequest_eq]; exact ih
  | hearing k _ => exact absurd k hk
  | _ => assumption

theorem Act.rx_eq (h : Act K s t) (hk : ¬K .rx) : t.rx = s.rx := by
  induction h with
  | refl => rfl
  | add r _ _ ih => rw [addRequest_eq]; exact ih
  | rx _ _ k _ => exact absurd k hk
  | _ => assumption

theorem Act.recent_eq (h : Act K s t) (hk : ¬K .store) : t.recent = s.recent := by
  induction h with
  | refl => rfl
  | add r _ _ ih => rw [addRequest_eq]; exact ih
  | alloc _ _ _ _ _ k | release _ _ _ k | recent _ k | take _ _ _ _ _ k | reserve _ _ _ k | assign _ _ _ _ _ _ k | surplus _ _ _ k => exact absurd k hk
  | _ => assumption

theorem Act.free_eq (h : Act K s t) (hk : ¬K .store) : t.free = s.free := by
  induction h with
  | refl => rfl
  | add r _ _ ih => rw [addRequest_eq]; exact ih
  | alloc _ _ _ _ _ k | release _ _ _ k | recent _ k | take _ _ _ _ _ k | reserve _ _ _ k | assign _ _ _ _ _ _ k | surplus _ _ _ k => exact absurd k hk
  | _ => assumption

theorem Act.trackers_eq (h : Act K s t) (hk : ¬K .trackers) : t.trackers = s.trackers := by
  induction h with
  | refl => rfl
  | add r _ _ ih => rw [addRequest_eq]; exact ih
  | trackers _ _ k => exact absurd k hk
  | _ => assumption

theorem Act.register_eq (h : Act K s t) (hk : ¬K .register) : t.register = s.register := by
  induction h with
  | refl => rfl
  | add r _ _ ih => rw [addRequest_eq]; exact ih
  | register _ _ k => exact absurd k hk
  | _ => assumption

theorem Act.groups_eq (h : Act K s t) (hk : ¬K .groups) : t.groups = s.groups := by
  induction h with
  | refl => rfl
  | add r _ _ ih => rw [addRequest_eq]; exact ih
  | groups _ _ k => exact absurd k hk
  | _ => assumption

theorem Act.notices_eq (h : Act K s t) (hk : ¬K .notices) : t.notices = s.notices := by
  induction h with
  | refl => rfl
  | add r _ _ ih => rw [addRequest_eq]; exact ih
  | notices _ _ k => exact absurd k hk
  | _ => assumption

theorem Act.reportSince_eq (h : Act K s t) (hk : ¬K .period) : t.reportSince = s.reportSince := by
  induction h with
  | refl => rfl
  | add r _ _ ih => rw [addRequest_eq]; exact ih
  | period _ k => exact absurd k hk
  | _ => assumption

theorem Act.records_eq (h : Act K s t) (hr : ¬K .record) (hk : ¬K .store) : t.records = s.records := by
  induction h with
  | refl => rfl
  | add r _ _ ih => rw [addRequest_eq]; exact ih
  | record _ _ _ k => exact absurd k hr
  | alloc _ _ _ _ _ k | release _ _ _ k | take _ _ _ _ _ k | reserve _ _ _ k | assign _ _ _ _ _ _ k
  | surplus _ _ _ k => exact absurd k hk
  | _ => assumption

theorem Act.record_eq (h : Act K s t) (hr : ¬K .record) (hk : ¬K .store) (i : Slot) : t.record i = s.record i := by
  rw [Part.record, Part.record, h.records_eq hr hk]

theorem Act.port_eq (h : Act K s t) (hl : ¬K .list) (hp : ¬K .port) : t.port = s.port := by
  induction h with
  | refl => rfl
  | add _ k | remove _ k | drop _ k => exact absurd k hl
  | port _ _ k => exact absurd k hp
  | _ => assumption

theorem Act.unit_eq (h : Act K s t) (hk : ¬K .unit) (l : LineNo) : (t.line l).unit = (s.line l).unit := by
  induction h with
  | refl => rfl
  | unit _ _ k => exact absurd k hk
  | plane _ _ _ _ ih | recog _ _ _ _ ih | sched _ _ _ _ ih | sup _ _ _ _ _ ih | add _ _ _ ih => simpa using ih
  | _ => assumption

theorem Act.plane_eq (h : Act K s t) (hk : ¬K .plane) (l : LineNo) : (t.line l).plane = (s.line l).plane := by
  induction h with
  | refl => rfl
  | plane _ _ k => exact absurd k hk
  | unit _ _ _ _ ih | recog _ _ _ _ ih | sched _ _ _ _ ih | sup _ _ _ _ _ ih | add _ _ _ ih => simpa using ih
  | _ => assumption

theorem Act.recog_eq (h : Act K s t) (hk : ¬K .recog) (l : LineNo) : (t.line l).recog = (s.line l).recog := by
  induction h with
  | refl => rfl
  | recog _ _ k => exact absurd k hk
  | unit _ _ _ _ ih | plane _ _ _ _ ih | sched _ _ _ _ ih | sup _ _ _ _ _ ih | add _ _ _ ih => simpa using ih
  | _ => assumption

theorem Act.sched_eq (h : Act K s t) (hk : ¬K .sched) (l : LineNo) : (t.line l).sched = (s.line l).sched := by
  induction h with
  | refl => rfl
  | sched _ _ k => exact absurd k hk
  | unit _ _ _ _ ih | plane _ _ _ _ ih | recog _ _ _ _ ih | sup _ _ _ _ _ ih | add _ _ _ ih => simpa using ih
  | _ => assumption

theorem Act.sup_eq (h : Act K s t) (hk : ¬K .sup) (l : LineNo) : (t.line l).sup = (s.line l).sup := by
  induction h with
  | refl => rfl
  | sup _ _ _ k => exact absurd k hk
  | unit _ _ _ _ ih | plane _ _ _ _ ih | recog _ _ _ _ ih | sched _ _ _ _ ih | add _ _ _ ih => simpa using ih
  | _ => assumption

theorem Act.lines_eq (h : Act K s t) (hu : ¬K .unit) (hp : ¬K .plane) (hr : ¬K .recog) (hd : ¬K .sched)
    (hs : ¬K .sup) : t.lines = s.lines := by
  induction h with
  | refl => rfl
  | add r _ _ ih => rw [addRequest_lines, ih]
  | unit _ _ k => exact absurd k hu
  | plane _ _ k => exact absurd k hp
  | recog _ _ k => exact absurd k hr
  | sched _ _ k => exact absurd k hd
  | sup _ _ _ k => exact absurd k hs
  | _ => assumption

/-- Two parts with the same settings, number, loader, clock and supply are equal when their other fields are. -/
theorem Part.eq_of_standing (st : t.standing = s.standing) (hearings : t.hearings = s.hearings) (rx : t.rx = s.rx)
    (lines : t.lines = s.lines) (mem : t.mem = s.mem) (free : t.free = s.free) (records : t.records = s.records)
    (recent : t.recent = s.recent) (trackers : t.trackers = s.trackers) (register : t.register = s.register)
    (groups : t.groups = s.groups) (port : t.port = s.port) (notices : t.notices = s.notices)
    (period : t.reportSince = s.reportSince) : t = s := by
  cases s; cases t
  simp only [Part.standing, Prod.mk.injEq] at st
  simp_all

/-- Lines that agree one by one. -/
theorem lines_ext (h : ∀ l, t.line l = s.line l) : t.lines = s.lines :=
  Vector.ext fun i hi => h ⟨i, hi⟩

theorem line_ext {x y : Line} (unit : x.unit = y.unit) (plane : x.plane = y.plane) (recog : x.recog = y.recog)
    (sched : x.sched = y.sched) (texts : x.texts = y.texts) (sup : x.sup = y.sup) : x = y := by
  cases x; cases y; simp_all

end Sys2Proof.Machine
end

section
/-! Condition edges of the lines and of the station (R201, R202, R203). -/

namespace Sys2Proof.Machine

theorem selected_iff (s : Part) (l : LineNo) (c : Condition) (level : Bool) : s.selected l c level = true ↔
    (s.cfg l).mask.getLsbD c.idx = false ∧ (level = true ∨ (s.cfg l).both.getLsbD c.idx = true) := by
  simp only [Part.selected, Bool.and_eq_true, Bool.not_eq_true', Bool.or_eq_true]

section
variable {s : Part} {l : LineNo} {c : Condition} {level : Bool}

theorem setCond_of_eq (h : s.cond l c = level) : s.setCond l c level = s := by simp [Part.setCond, h]

theorem setCond_of_selected (h : s.cond l c ≠ level) (hs : s.selected l c level = true) :
    s.setCond l c level = ((s.updSup l fun x => { x with levels := putBit x.levels c.idx level }).updSup l fun x =>
      { x with changed := putBit x.changed c.idx true }).addRequest (conditionRequest l) := by
  simp [Part.setCond, h, hs]

theorem setCond_of_not_selected (h : s.cond l c ≠ level) (hs : ¬s.selected l c level = true) :
    s.setCond l c level = s.updSup l fun x => { x with levels := putBit x.levels c.idx level } := by
  simp [Part.setCond, h, hs]

end

/-- An edge changes the lines and the port alone. -/
theorem setCond_rest (s : Part) (l : LineNo) (c : Condition) (b : Bool) :
    { s.setCond l c b with lines := s.lines, port := s.port } = s := by
  unfold Part.setCond; dsimp only
  split
  · rfl
  · split
    · rw [addRequest_eq]; rfl
    · rfl

theorem unflagged_eq_iff {x y : Supervision} : x.unflagged = y.unflagged ↔
    { x with levels := y.levels, changed := y.changed } = y := by
  cases x; cases y; simp [Supervision.unflagged]

theorem line_setCond_rest (s : Part) (l k : LineNo) (c : Condition) (b : Bool) :
    { (s.setCond l c b).line k with sup := { ((s.setCond l c b).line k).sup with
      levels := (s.line k).sup.levels, changed := (s.line k).sup.changed } } = s.line k := by
  have hsup := unflagged_eq_iff.1 (sup_line_setCond s l k c b)
  exact line_ext (by simp) (by simp) (by simp) (by simp) (by simp) hsup

/-! ### Conditions of the station -/

section
variable (s : Part) (c d : StationCondition) (level : Bool)

@[simp] theorem StationCondition.idx_lt : c.idx < 8 := by cases c <;> decide

theorem StationCondition.idx_inj {c d : StationCondition} : c.idx = d.idx ↔ c = d := by
  constructor
  · cases c <;> cases d <;> decide
  · rintro rfl; rfl

theorem stationCond_putStationLevel : (s.putStationLevel c level).stationCond d =
    if d = c then level else s.stationCond d := by
  simp only [Part.stationCond, Part.putStationLevel]
  rw [getLsbD_putBit _ _ _ _ c.idx_lt d.idx_lt]
  simp only [StationCondition.idx_inj]

theorem stationChanged_eq : s.stationChanged c =
    ({ s with notices := { s.notices with changed := putBit s.notices.changed c.idx true } } : Part).addRequest
      stationRequest := rfl

theorem stationEvent_eq (e : StationEvent) : s.stationEvent e =
    ({ s with notices := { s.notices with events := putBit s.notices.events e.idx true } } : Part).addRequest
      stationRequest := rfl

@[simp] theorem stationCond_stationChanged : (s.stationChanged c).stationCond d = s.stationCond d := by
  rw [stationChanged_eq, addRequest_stationCond]; rfl

@[simp] theorem notices_stationChanged : (s.stationChanged c).notices =
    { s.notices with changed := putBit s.notices.changed c.idx true } := by
  rw [stationChanged_eq, addRequest_notices]

@[simp] theorem notices_stationEvent (e : StationEvent) : (s.stationEvent e).notices =
    { s.notices with events := putBit s.notices.events e.idx true } := by
  rw [stationEvent_eq, addRequest_notices]

@[simp] theorem hasRequest_stationChanged : (s.stationChanged c).hasRequest .station = true :=
  hasRequest_addRequest_self _ stationRequest

@[simp] theorem hasRequest_stationEvent (e : StationEvent) : (s.stationEvent e).hasRequest .station = true :=
  hasRequest_addRequest_self _ stationRequest

theorem stationChanged_rest : { s.stationChanged c with notices := s.notices, port := s.port } = s := by
  rw [stationChanged_eq, addRequest_eq]

theorem stationEvent_rest (e : StationEvent) : { s.stationEvent e with notices := s.notices, port := s.port } = s := by
  rw [stationEvent_eq, addRequest_eq]

/-- What neither the station notice's bits nor its request change, an edge of a station condition does not. -/
theorem setStationCond_congr {α : Type} {p : Part → α} (hp : ∀ s c b, p (s.putStationLevel c b) = p s)
    (hc : ∀ s c, p (s.stationChanged c) = p s) : p (s.setStationCond c level) = p s := by
  unfold Part.setStationCond
  split
  · rfl
  · split
    · rw [hc, hp]
    · rw [hp]

theorem setStationCond_rest : { s.setStationCond c level with notices := s.notices, port := s.port } = s := by
  unfold Part.setStationCond
  split
  · rfl
  · split
    · rw [stationChanged_eq, addRequest_eq]; rfl
    · rfl

theorem stationCond_setStationCond : (s.setStationCond c level).stationCond d =
    if d = c then level else s.stationCond d := by
  unfold Part.setStationCond
  split
  · next h =>
    split
    · next e => rw [e, h]
    · rfl
  · split
    · rw [stationCond_stationChanged, stationCond_putStationLevel]
    · rw [stationCond_putStationLevel]

theorem stationSelected_iff (h : s.loader = .running) : s.stationSelected c level = true ↔
    s.settings.mask.getLsbD c.idx = false ∧ (level = true ∨ s.settings.both.getLsbD c.idx = true) := by
  simp only [Part.stationSelected, h, Bool.or_eq_true, Bool.and_eq_true, Bool.not_eq_true', beq_iff_eq, reduceCtorEq,
    false_or]

end

/-- Settles O24, by the three cases of an edge: none, selected, not selected. -/
theorem conditionEdges : Obligations.ConditionEdges := by
  constructor
  · intro s l c level
    refine ⟨setCond_of_eq, fun hne => ⟨fun d => ?_, fun hs => ?_, fun hs => ?_⟩, fun m hm => line_setCond_ne _ _ _ _ _ hm,
      line_setCond_rest s l l c level, setCond_rest s l c level⟩
    · simp [cond_setCond]
    · have heq := setCond_of_selected hne ((selected_iff s l c level).2 hs)
      rw [heq]
      refine ⟨by simp [putBit], hasRequest_addRequest_self _ (conditionRequest l), fun hr => ?_, fun hr => ?_⟩
      · exact requestOf_addRequest_self _ (conditionRequest l) hr
      · rw [addRequest_of_hasRequest _ _ (by exact hr)]; rfl
    · rw [setCond_of_not_selected hne fun h => hs ((selected_iff s l c level).1 h)]
      exact ⟨by simp, rfl⟩
  · intro s c level hrun
    refine ⟨fun h => by simp [Part.setStationCond, h], fun hne => ⟨fun d => stationCond_setStationCond s c d level, fun hs => ?_,
      fun hs => ?_⟩, setStationCond_rest s c level, ?_⟩
    · rw [Part.setStationCond, if_neg hne, if_pos ((stationSelected_iff s c level hrun).2 hs)]
      exact ⟨by simp [putBit, Part.putStationLevel], hasRequest_stationChanged _ c⟩
    · rw [Part.setStationCond, if_neg hne, if_neg fun h => hs ((stationSelected_iff s c level hrun).1 h)]
      exact ⟨rfl, rfl⟩
    · unfold Part.setStationCond
      split
      · rfl
      · split
        · rw [notices_stationChanged]; rfl
        · rfl

end Sys2Proof.Machine
end

section
/-! Supply, reset, the loader, and orders without authority (11). -/

namespace Sys2Proof.Machine

/-! ### Supply and reset -/

/-- A part whose loader reads its image begins no frame (R188). -/
theorem serveBus_of_reading {s : Part} (h : s.loader = .reading) : s.serveBus = s := by
  simp [Part.serveBus, Part.maySend, h]

theorem live_of_ne_off {s t : Part} (h : s.loader ≠ .off) : s.live t = t := by simp [Part.live, h]

theorem off_eq (s : Part) : s.off = { Part.reset with
    now := s.now, hearings := s.hearings, rx := s.rx, number := 0, powered := s.powered,
    resetHeld := s.resetHeld, loader := .off } := by
  simp only [Part.off, Part.coldStart]

theorem coldStart_eq (s : Part) (n : Nat) : s.coldStart n = { Part.reset with
    now := s.now, hearings := s.hearings, rx := s.rx, powered := s.powered, resetHeld := s.resetHeld,
    number := n } := by
  simp only [Part.coldStart]

/-- With supply and RESET high a cold start is the power-on value of every block. -/
theorem coldStart_of_supplied {s : Part} (n : Nat) (hp : s.powered = true) (hr : s.resetHeld = false) :
    s.coldStart n = { Part.reset with now := s.now, hearings := s.hearings, rx := s.rx, number := n } := by
  simp only [Part.coldStart, hp, hr, Part.reset]

/-- An order for this station, of good form, reaches order handling. -/
theorem orderTaken_of_fits {s : Part} {k : OrderForm} {o : Order} {act : Part → Part} (hr : s.port.rejecting = false)
    (hd : s.port.deaf = false) (ha : s.addressed o = true) (hf : orderFits k o = true) :
    s.orderTaken k o act = act s.heard := by
  have ha' : s.heard.addressed o = true := ha
  simp [Part.orderTaken, Part.hear, hr, hd, ha', hf]

theorem heard_coldStart (s : Part) (n : Nat) : s.heard.coldStart n = { Part.reset with
    now := s.now, hearings := s.hearings + 1, rx := s.rx, powered := s.powered, resetHeld := s.resetHeld,
    number := n } := coldStart_eq s.heard n

theorem stationRestart_of_accepted {s : Part} {o : Order} (straps : BitVec 5) (hr : s.port.rejecting = false)
    (hd : s.port.deaf = false) (ha : s.addressed o = true) (hf : orderFits (.station 0) o = true)
    (hacc : s.loader = .reading ∨ s.loader = .configFault ∨ (s.loader = .running ∧ s.supervises o = true)) :
    s.stationRestart o straps = s.heard.coldStart straps.toNat := by
  rw [Part.stationRestart, orderTaken_of_fits hr hd ha hf]
  rcases hacc with h | h | ⟨h, hs⟩
  · simp [h]
  · simp [h]
  · have hs' : s.heard.supervises o = true := hs
    simp [h, hs']

theorem powerUp_of_reset_high {s : Part} (n : Nat) (h : s.resetHeld = false) :
    s.powerUp n = { Part.reset with now := s.now, hearings := s.hearings, rx := s.rx, number := n } := by
  rw [Part.powerUp, if_neg (by rw [h]; decide)]
  exact coldStart_of_supplied (s := { s with powered := true }) n rfl h

theorem freeReset_of_powered {s : Part} (n : Nat) (h : s.powered = true) :
    s.freeReset n = { Part.reset with now := s.now, hearings := s.hearings, rx := s.rx, number := n } := by
  rw [Part.freeReset, if_pos h]
  exact coldStart_of_supplied (s := { s with resetHeld := false }) n h rfl

/-- Settles O9, by evaluating each command of the supply, of the reset input and of the restart. -/
theorem supplyResetAndRestart : Obligations.SupplyResetAndRestart := by
  intro s straps
  refine ⟨fun h => ?_, fun h => ?_, ?_, fun h => ?_, fun h => ?_, ?_, fun o hr hd ha hf hacc => ?_⟩
  · rw [exec, execPowerOn, done, powerUp_of_reset_high _ h]
  · rw [exec, execPowerOn, done, Part.powerUp, if_pos h, off_eq]; dsimp only; rw [h]
  · rw [exec, execResetAssert, done, Part.holdReset, off_eq]
  · rw [exec, execResetRelease, done, freeReset_of_powered _ h]
  · rw [exec, execResetRelease, done, Part.freeReset, if_neg (by rw [h]; decide), off_eq]; dsimp only; rw [h]
  · rw [exec, execPowerFail, done, Part.losePower, off_eq]
  · have hoff : s.loader ≠ .off := by
      rcases hacc with h | h | ⟨h, -⟩ <;> simp [h]
    rw [exec, execStationRestart, complete, live_of_ne_off hoff, stationRestart_of_accepted straps hr hd ha hf hacc,
      heard_coldStart, serveBus_of_reading (by simp only [Part.reset])]

/-! ### Entry to service and CONFIG-FAULT -/

theorem exec_configReadComplete (image : List Byte) (s : State) :
    exec (.configReadComplete image) s = .next { s with toPart := (s.toPart.readComplete image).serveBus } := by
  rfl

theorem readComplete_of_good {s : Part} {image : List Byte} (h : s.loader = .reading) (hg : imageReason image = 0) :
    s.readComplete image = s.enterService (imageSettings (readImage image (imageLength image))) := by
  simp [Part.readComplete, h, hg]

theorem readComplete_of_bad {s : Part} {image : List Byte} (h : s.loader = .reading) (hb : imageReason image ≠ 0) :
    s.readComplete image = s.enterConfigFault (imageReason image) := by
  simp [Part.readComplete, h, hb]

theorem enterService_eq (s : Part) (cfg : Settings) : s.enterService cfg = { s.served cfg with
    notices := { Notices.blank with events := 1 }, port := { s.port with sendList := [stationRequest], sticky := none } } := by
  have hn : (s.coldStart s.number).notices = Notices.blank := rfl
  have hup : putBit Notices.blank.events StationEvent.stationUp.idx true = 1 := by decide
  rw [Part.enterService, stationEvent_eq, addRequest_eq]
  simp only [Part.hasRequest, Part.requestOf, List.find?_nil, Option.isSome_none, Bool.false_eq_true, if_false,
    insertRequest, Part.served, hn, hup]

theorem line_of_lines_ofFn {t : Part} {f : LineNo → Line} (h : t.lines = Vector.ofFn f) (l : LineNo) : t.line l = f l := by
  rw [Part.line, h]
  show (Vector.ofFn f)[l.val] = f l
  simp

theorem lineAtEntry_of_unused {cfg : Settings} {l : LineNo} (mark : Bool) (now : Nat)
    (h : (cfg.lines.get l).mode = .unused) : lineAtEntry cfg l mark now = Line.blank := by
  simp [lineAtEntry, unitAtEntry, h, LineMode.sends, Line.blank]

theorem lineAtEntry_of_used {cfg : Settings} {l : LineNo} (mark : Bool) (now : Nat)
    (h : (cfg.lines.get l).mode ≠ .unused) : lineAtEntry cfg l mark now = { Line.blank with
      unit := { LineUnit.blank with
        state := .idle, rcv := if mark then .hunt else .waitMark, awaitReady := true,
        spaceSince := if mark then none else some now, markSince := if mark then some now else none },
      texts := if (cfg.lines.get l).mode.sends then
          encodeTexts (cfg.maps.getD (cfg.lines.get l).map .blank) (cfg.lines.get l)
        else Line.blank.texts } := by
  simp [lineAtEntry, unitAtEntry, h, LineUnit.restarted, LineUnit.blank]

/-- The trackers at entry to service: one for each service of a receiving line (R94). -/
theorem service_trackersFor (cfg : Settings) : (trackersFor cfg).map Tracker.service =
    ((allLines.filter fun l => (cfg.lines.get l).mode.receives).map fun l => (cfg.lines.get l).service).eraseDups := by
  simp [trackersFor, Function.comp_def]

theorem mem_service_trackersFor {cfg : Settings} {n : Nat} : n ∈ (trackersFor cfg).map Tracker.service ↔
    ∃ l : LineNo, (cfg.lines.get l).mode.receives = true ∧ (cfg.lines.get l).service = n := by
  simp [service_trackersFor, mem_allLines]

theorem nodup_eraseDups (xs : List Nat) : xs.eraseDups.Nodup := by
  induction h : xs.length using Nat.strong_induction_on generalizing xs with
  | _ n ih =>
    cases xs with
    | nil => simp
    | cons a as =>
      rw [List.eraseDups_cons, List.nodup_cons]
      have hlen := List.length_filter_le (fun b => !b == a) as
      exact ⟨by simp, ih _ (by rw [← h, List.length_cons]; omega) _ rfl⟩

/-- Settles O11, from the part at entry to service and the notice of event STATION-UP. -/
theorem serviceEntry : Obligations.ServiceEntry := by
  intro image s hl hg
  refine ⟨s.enterService _, by rw [exec_configReadComplete, readComplete_of_good hl hg], ?_⟩
  rw [enterService_eq]
  refine ⟨rfl, rfl, rfl, rfl, fun l hm => ?_, fun l hm => ?_, rfl, ?_, fun i => Vector.getElem_replicate i.isLt, rfl, rfl,
    fun g => Vector.getElem_replicate g.isLt, fun k hk => ?_, ?_, fun n => mem_service_trackersFor, rfl, rfl, rfl, rfl,
    rfl, rfl, rfl, rfl, rfl⟩
  · exact (line_of_lines_ofFn rfl l).trans (lineAtEntry_of_unused _ _ hm)
  · exact (line_of_lines_ofFn rfl l).trans (lineAtEntry_of_used _ _ hm)
  · simp only [Part.served, coldStart_free, Config.blocks]
  · obtain ⟨n, -, rfl⟩ := List.mem_map.1 hk
    exact ⟨rfl, rfl⟩
  · exact (service_trackersFor _).symm ▸ nodup_eraseDups _

/-! ### CONFIG-FAULT -/

theorem exec_configFaultRepeat (s : State) :
    exec .configFaultRepeat s = .next { s with toPart := s.toPart.repeatFault.serveBus } := rfl

theorem configFaultRepeat_mem_dueStation_iff {s : Part} {since : Nat} (hl : s.loader = .configFault)
    (hs : s.repeatSince = some since) : Instr.configFaultRepeat ∈ s.dueStation ↔ since + 20000000 ≤ s.now := by
  simp [Part.dueStation, mem_dueOf_iff, hl, hs, Config.seconds]

theorem notices_enterConfigFault (s : Part) (reason : Nat) : (s.enterConfigFault reason).notices = { s.notices with
    levels := s.notices.levels ||| 1, changed := s.notices.changed ||| 1, events := s.notices.events ||| 8 } := by
  rw [Part.enterConfigFault, notices_stationEvent, notices_stationChanged]
  rfl

theorem enterConfigFault_eq (s : Part) (reason : Nat) : s.enterConfigFault reason = { s with
    loader := .configFault, faultReason := reason, repeatSince := some s.now,
    notices := (s.enterConfigFault reason).notices, port := (s.enterConfigFault reason).port } := by
  rw [Part.enterConfigFault, stationEvent_eq, addRequest_eq, stationChanged_eq, addRequest_eq]
  rfl

/-- Settles O12, from the entry to CONFIG-FAULT, its timer and its notice. -/
theorem configFaultEntryAndRepeat : Obligations.ConfigFaultEntryAndRepeat := by
  intro image s
  refine ⟨fun hl hb => ⟨_, by rw [exec_configReadComplete, readComplete_of_bad hl hb], ?_⟩, fun hl => ?_, fun hl =>
    ⟨fun since hs => configFaultRepeat_mem_dueStation_iff hl hs, _, exec_configFaultRepeat s, ?_⟩⟩
  · refine ⟨?_, ?_, ?_, notices_enterConfigFault _ _, hasRequest_stationEvent _ _, ?_⟩ <;> rw [enterConfigFault_eq]
  · simp [exec_configReadComplete, Part.readComplete, hl]
  · rw [Part.repeatFault, if_pos hl]
    refine ⟨?_, notices_stationEvent _ _, hasRequest_stationEvent _ _, fun hq => ?_, ?_⟩
    · rw [stationEvent_eq, addRequest_eq]
    · rw [stationEvent_eq, addRequest_of_hasRequest _ _ (by exact hq)]
    · rw [stationEvent_eq, addRequest_eq]

/-! ### Orders without authority -/

theorem supervisoryOrder_of_refused {s : Part} {code : Nat} {k : OrderForm} {o : Order} {act : Part → Part}
    (hh : s.hears) (ha : s.addressed o = true) (hs : s.supervises o = false) (hf : orderFits k o = true) :
    s.supervisoryOrder code k o act = s.heard.refuse code o.station.toNat := by
  obtain ⟨hl, hr, hd⟩ := hh
  have hs' : s.heard.supervises o = false := hs
  rw [Part.supervisoryOrder, orderTaken_of_fits hr hd ha hf]
  simp [hl, hs']

theorem stationRestart_of_refused {s : Part} {o : Order} (straps : BitVec 5)
    (hh : s.hears) (ha : s.addressed o = true) (hs : s.supervises o = false) (hf : orderFits (.station 0) o = true) :
    s.stationRestart o straps = s.heard.refuse 13 o.station.toNat := by
  obtain ⟨hl, hr, hd⟩ := hh
  have hs' : s.heard.supervises o = false := hs
  rw [Part.stationRestart, orderTaken_of_fits hr hd ha hf]
  simp [hl, hs']

theorem refuse_eq (s : Part) (code source : Nat) : s.refuse code source = ({ s with notices := { s.notices with
    events := s.notices.events ||| 4, refusedCode := code, refusedSource := source,
    refusals := min 65535 (s.notices.refusals + 1) } } : Part).addRequest stationRequest := rfl

/-- What a refusal, heard, leaves: the refusal fields and the notice, the port listening on (R216). -/
theorem refuse_heard {s : Part} (hr : s.port.rejecting = false) (code source : Nat) :
    let t := s.heard.refuse code source
    t.notices = { s.notices with
      events := s.notices.events ||| 4, refusedCode := code, refusedSource := source,
      refusals := min 65535 (s.notices.refusals + 1) } ∧
    t.hasRequest .station = true ∧ { t.port with state := s.port.state, sendList := s.port.sendList } = s.port ∧
    { t with notices := s.notices, port := s.port, hearings := s.hearings } = s := by
  dsimp only
  rw [refuse_eq]
  refine ⟨addRequest_notices _ _, hasRequest_addRequest_self _ stationRequest, ?_, ?_⟩
  · rw [addRequest_eq]
    show { s.port with rejecting := false } = s.port
    rw [← hr]
  · rw [addRequest_eq]; rfl

/-- Settles O13: each of the orders of the list is refused in the same way. -/
theorem supervisoryOrdersRefused : Obligations.SupervisoryOrdersRefused := by
  intro o straps s hh ha hs p hp hf
  have hoff : s.loader ≠ .off := by rw [hh.1]; decide
  refine ⟨s.heard.refuse p.1 o.station.toNat, ?_, refuse_heard hh.2.1 _ _⟩
  simp only [List.mem_cons, List.not_mem_nil, or_false] at hp
  rcases hp with rfl | rfl | rfl | rfl | rfl | rfl | rfl | rfl | rfl | rfl | rfl
  case inr.inr.inr.inr.inr.inr.inr.inr.inr.inr =>
    rw [exec, execStationRestart, complete, live_of_ne_off hoff, stationRestart_of_refused straps hh ha hs hf]
  all_goals
    refine congrArg (fun t : Part => Host.Outcome.next { s with toPart := t.serveBus }) ?_
    rw [live_of_ne_off hoff]
    exact supervisoryOrder_of_refused hh ha hs hf

end Sys2Proof.Machine
end

section
/-! The serial trackers (05.2, 05.3): what an advance leaves in a gap list. -/

namespace Sys2Proof.Machine

/-- The serial `k` places behind `n` (R95). -/
def serialBack (n k : Nat) : Nat := (n + 9998 - k) % 9999 + 1

theorem serialBehind_serialBack {n k : Nat} (h1 : 1 ≤ n) (h2 : n ≤ 9999) (hk : k < 9999) :
    serialBehind (serialBack n k) n = k := by
  unfold serialBehind serialDistance serialBack; omega

theorem serialSucc_serialBack {n k : Nat} (h1 : 1 ≤ n) (hk : k < 9998) :
    serialSucc (serialBack n (k + 1)) = serialBack n k := by
  unfold serialSucc serialBack; split <;> omega

/-- The `m` serials before the one last behind `n`, in order of age: 1 + `m` to 2 places behind `n`. -/
def backRun (n m : Nat) : List Nat := (List.range m).map fun j => serialBack n (m + 1 - j)

theorem length_backRun (n m : Nat) : (backRun n m).length = m := by simp [backRun]

theorem backRun_succ (n m : Nat) : backRun n (m + 1) = serialBack n (m + 2) :: backRun n m := by
  simp only [backRun, List.range_succ_eq_map, List.map_cons, List.map_map, Nat.sub_zero]
  congr 1
  refine List.map_congr_left fun j _ => ?_
  simp only [Function.comp_apply]
  congr 1
  omega

theorem skipped_eq_backRun {n : Nat} (h1 : 1 ≤ n) (d : Nat) (hd : d ≤ 50) :
    skipped (serialBack n (d + 1)) d = backRun n d := by
  induction d with
  | zero => rfl
  | succ d ih =>
    rw [skipped, serialSucc_serialBack h1 (by omega), ih (by omega), backRun_succ]

theorem serialBehind_of_mem_backRun {n m g : Nat} (h1 : 1 ≤ n) (h2 : n ≤ 9999) (hm : m ≤ 50)
    (h : g ∈ backRun n m) : serialBehind g n ≤ m + 1 := by
  obtain ⟨j, -, rfl⟩ := List.mem_map.mp h
  rw [serialBehind_serialBack h1 h2 (by omega)]
  omega

/-- Of at most 50 skipped serials only the first of 50 lies more than 50 behind the successor. -/
theorem filter_backRun {n d : Nat} (h1 : 1 ≤ n) (h2 : n ≤ 9999) (hd : d ≤ 50) :
    (backRun n d).filter (fun g => decide (serialBehind g n ≤ 50)) = backRun n (min d 49) := by
  have keep (m : Nat) (hm : m ≤ 49) :
      (backRun n m).filter (fun g => decide (serialBehind g n ≤ 50)) = backRun n m := by
    refine List.filter_eq_self.mpr fun g hg => decide_eq_true ?_
    have := serialBehind_of_mem_backRun h1 h2 (by omega) hg
    omega
  rcases Nat.lt_or_ge d 50 with h | h
  · rw [keep d (by omega), min_eq_left (by omega)]
  · obtain rfl : d = 50 := by omega
    have far : ¬ serialBehind (serialBack n 51) n ≤ 50 := by
      rw [serialBehind_serialBack h1 h2 (by omega)]; omega
    rw [backRun_succ, List.filter_cons_of_neg (by simpa using far), keep 49 le_rfl]
    rfl

theorem drop_backRun (n m k : Nat) : (backRun n m).drop k = backRun n (m - k) := by
  induction k generalizing m with
  | zero => rfl
  | succ k ih =>
    cases m with
    | zero => simp [backRun]
    | succ m => rw [backRun_succ, List.drop_succ_cons, ih, Nat.add_sub_add_right]

theorem mem_backRun_iff {n d g : Nat} (h1 : 1 ≤ n) (h2 : n ≤ 9999) (hd : d ≤ 50) (hg1 : 1 ≤ g) (hg2 : g ≤ 9999) :
    g ∈ backRun n d ↔ serialDistance g (serialBack n (d + 1)) < d := by
  constructor
  · intro h
    obtain ⟨j, hj, rfl⟩ := List.mem_map.mp h
    rw [List.mem_range] at hj
    unfold serialDistance serialBack; omega
  · intro h
    refine List.mem_map.mpr ⟨serialDistance g (serialBack n (d + 1)), List.mem_range.mpr h, ?_⟩
    unfold serialDistance serialBack at *; omega

/-- The expected serial as seen from the successor of a serial `d` ahead of it. -/
theorem eq_serialBack {s e : Nat} (hs : 1 ≤ s ∧ s ≤ 9999) (he : 1 ≤ e ∧ e ≤ 9999) (hd : serialDistance s e ≤ 50) :
    e = serialBack (serialSucc s) (serialDistance s e + 1) := by
  unfold serialBack serialSucc serialDistance at *; split <;> omega

/-- An advance (R98): the gaps still within 50 behind, and behind them the youngest of the skipped serials
that find room. -/
theorem advance_gaps (gaps : List Nat) {s e : Nat} (hs : 1 ≤ s ∧ s ≤ 9999) (he : 1 ≤ e ∧ e ≤ 9999)
    (hd : serialDistance s e ≤ 50) :
    let kept := gaps.filter fun g => decide (serialBehind g (serialSucc s) ≤ 50)
    (advance gaps e s (serialDistance s e)).1 =
      kept ++ backRun (serialSucc s) (min (min (serialDistance s e) 49) (16 - kept.length)) := by
  intro kept
  have hn := serialSucc_range hs
  have young : (skipped e (serialDistance s e)).filter
      (fun g => decide (serialBehind g (serialSucc s) ≤ 50)) =
      backRun (serialSucc s) (min (serialDistance s e) 49) := by
    conv_lhs => rw [show skipped e = skipped (serialBack (serialSucc s) (serialDistance s e + 1)) from
      congrArg skipped (eq_serialBack hs he hd)]
    rw [skipped_eq_backRun hn.1 _ hd, filter_backRun hn.1 hn.2 hd]
  rw [advance]
  dsimp only
  rw [young, length_backRun, drop_backRun, Nat.sub_sub_eq_min]
  rfl

theorem advance_lost (gaps : List Nat) (s e d : Nat) :
    (advance gaps e s d).2 = true ↔ (advance gaps e s d).1.length < gaps.length + d := by
  simp [advance]

/-! ### The serial by its distance from the expected one (R97) -/

theorem take_of_unexpected {t : Tracker} (s : Nat) (h : t.expected = none) :
    t.take s = ({ t with expected := some (serialSucc s) }, false) := by
  simp [Tracker.take, h]

theorem take_of_near {t : Tracker} {s e : Nat} (h : t.expected = some e) (hd : serialDistance s e ≤ 50) :
    t.take s = ({ t with expected := some (serialSucc s), gaps := (advance t.gaps e s (serialDistance s e)).1 },
      (advance t.gaps e s (serialDistance s e)).2) := by
  by_cases hz : serialDistance s e = 0 <;> simp [Tracker.take, Tracker.classify, h, hd, hz]

theorem take_of_late {t : Tracker} {s e : Nat} (h : t.expected = some e) (hd : 9949 ≤ serialDistance s e) :
    t.take s = if s ∈ t.gaps then ({ t with gaps := t.gaps.filter fun g => !(g == s) }, false) else (t, false) := by
  have h0 : ¬ serialDistance s e = 0 := by omega
  have h1 : ¬ serialDistance s e ≤ 50 := by omega
  by_cases hm : s ∈ t.gaps <;> simp [Tracker.take, Tracker.classify, h, hd, h0, h1, hm]

theorem take_of_far {t : Tracker} {s e : Nat} (h : t.expected = some e) (h1 : 51 ≤ serialDistance s e)
    (h2 : serialDistance s e ≤ 9948) :
    t.take s = ({ t with expected := some (serialSucc s), gaps := [] }, true) := by
  have h0 : ¬ serialDistance s e = 0 := by omega
  have h3 : ¬ serialDistance s e ≤ 50 := by omega
  have h4 : ¬ 9949 ≤ serialDistance s e := by omega
  simp [Tracker.take, Tracker.classify, h, h0, h3, h4]

theorem take_service (t : Tracker) (s : Nat) : (t.take s).1.service = t.service := by
  unfold Tracker.take
  split
  · rfl
  · split <;> rfl

/-- With room for every skipped serial, an advance keeps what is at most 50 behind of the gaps and the
serials skipped. -/
theorem mem_advance_iff {gaps : List Nat} {s e g : Nat} (hs : 1 ≤ s ∧ s ≤ 9999) (he : 1 ≤ e ∧ e ≤ 9999)
    (hd : serialDistance s e ≤ 50) (room : gaps.length + serialDistance s e ≤ 16) (hg : 1 ≤ g) (hg' : g ≤ 9999) :
    g ∈ (advance gaps e s (serialDistance s e)).1 ↔
      (g ∈ gaps ∨ serialDistance g e < serialDistance s e) ∧ serialBehind g (serialSucc s) ≤ 50 := by
  have hn := serialSucc_range hs
  have hk := List.length_filter_le (fun g => decide (serialBehind g (serialSucc s) ≤ 50)) gaps
  have skip : g ∈ backRun (serialSucc s) (serialDistance s e) ↔ serialDistance g e < serialDistance s e := by
    rw [mem_backRun_iff hn.1 hn.2 hd hg hg', ← eq_serialBack hs he hd]
  have near (h : g ∈ backRun (serialSucc s) (serialDistance s e)) : serialBehind g (serialSucc s) ≤ 50 := by
    have := serialBehind_of_mem_backRun hn.1 hn.2 hd h
    omega
  rw [advance_gaps gaps hs he hd, min_eq_left (by omega : serialDistance s e ≤ 49), min_eq_left (by omega),
    List.mem_append, List.mem_filter, decide_eq_true_iff, ← skip]
  tauto

/-- Settles O60, by the distance of the serial from the expected one. -/
theorem serialsTaken : Obligations.SerialsTaken := by
  refine ⟨fun t s he _ _ => take_of_unexpected s he, fun t s e law he h1 h2 => ?_⟩
  have hs : 1 ≤ s ∧ s ≤ 9999 := ⟨h1, h2⟩
  have bounds : 1 ≤ e ∧ e ≤ 9999 := by
    rw [Tracker.Law, he] at law
    exact ⟨law.1, law.2.1⟩
  have length : (t.take s).1.gaps.length ≤ 16 := by
    have after := take_law t s hs law
    rw [Tracker.Law] at after
    split at after
    · simp [after]
    · exact after.2.2.1
  refine ⟨take_service t s, length, fun near => ?_, fun late held => ?_, fun late free => ?_, fun far far' => ?_⟩
  · rw [take_of_near he near]
    refine ⟨rfl, advance_lost .., advance_gaps t.gaps hs bounds near, fun room g hg hg' => ?_⟩
    exact mem_advance_iff hs bounds near room hg hg'
  · rw [take_of_late he late, if_pos held]
    exact ⟨he, rfl, fun g => by simp⟩
  · rw [take_of_late he late, if_neg free]
    exact ⟨rfl, rfl⟩
  · rw [take_of_far he far far']
    exact ⟨rfl, rfl, rfl⟩

end Sys2Proof.Machine
end

section
/-! The records: an update of a slot whose record is known, the requests of a record, and a record freed. -/

namespace Sys2Proof.Machine

/-! ### What a record written leaves in the other fields -/

section
variable (s : Part) (i : Slot) (r q : Option Record) (l : LineNo) (o : Owner)

@[simp] theorem setRecord_now : (s.setRecord i r).now = s.now := rfl
@[simp] theorem setRecord_loader : (s.setRecord i r).loader = s.loader := rfl
@[simp] theorem setRecord_settings : (s.setRecord i r).settings = s.settings := rfl
@[simp] theorem setRecord_trackers : (s.setRecord i r).trackers = s.trackers := rfl
@[simp] theorem setRecord_register : (s.setRecord i r).register = s.register := rfl
@[simp] theorem setRecord_groups : (s.setRecord i r).groups = s.groups := rfl
@[simp] theorem setRecord_notices : (s.setRecord i r).notices = s.notices := rfl
@[simp] theorem setRecord_rx : (s.setRecord i r).rx = s.rx := rfl
@[simp] theorem setRecord_hearings : (s.setRecord i r).hearings = s.hearings := rfl
@[simp] theorem setRecord_cfg : (s.setRecord i r).cfg l = s.cfg l := rfl
@[simp] theorem setRecord_map : (s.setRecord i r).map l = s.map l := rfl
@[simp] theorem setRecord_active : (s.setRecord i r).active l = s.active l := rfl
@[simp] theorem setRecord_mark : (s.setRecord i r).mark l = s.mark l := rfl
@[simp] theorem setRecord_cond (c : Condition) : (s.setRecord i r).cond l c = s.cond l c := rfl
@[simp] theorem setRecord_stationCond (c : StationCondition) : (s.setRecord i r).stationCond c = s.stationCond c := rfl
@[simp] theorem setRecord_requestOf : (s.setRecord i r).requestOf o = s.requestOf o := rfl
@[simp] theorem setRecord_hasRequest : (s.setRecord i r).hasRequest o = s.hasRequest o := rfl

@[simp] theorem setRecord_setRecord : (s.setRecord i r).setRecord i q = s.setRecord i q := by
  simp [Part.setRecord]

end

/-! ### A record updated -/

section
variable {s : Part} {i : Slot} {r : Record}

theorem updRecord_eq (h : s.record i = some r) (f : Record → Record) :
    s.updRecord i f = s.setRecord i (some (f r)) := by
  rw [Part.updRecord, h]; rfl

theorem updIn_eq {x : InRecord} (h : s.record i = some r) (hb : r.body = .inbound x) (f : InRecord → InRecord) :
    s.updIn i f = s.setRecord i (some { r with body := .inbound (f x) }) := by
  rw [Part.updIn, updRecord_eq h, Record.mapIn, hb]

theorem updOut_eq {x : OutRecord} (h : s.record i = some r) (hb : r.body = .outbound x) (f : OutRecord → OutRecord) :
    s.updOut i f = s.setRecord i (some { r with body := .outbound (f x) }) := by
  rw [Part.updOut, updRecord_eq h, Record.mapOut, hb]

theorem inRecord_eq {x : InRecord} (h : s.record i = some r) (hb : r.body = .inbound x) : s.inRecord i = some x := by
  simp [Part.inRecord, h, Record.inbound?, hb]

theorem inRecord_eq_none {x : OutRecord} (h : s.record i = some r) (hb : r.body = .outbound x) :
    s.inRecord i = none := by
  simp [Part.inRecord, h, Record.inbound?, hb]

theorem outRecord_eq {x : OutRecord} (h : s.record i = some r) (hb : r.body = .outbound x) :
    s.outRecord i = some x := by
  simp [Part.outRecord, h, Record.outbound?, hb]

theorem outRecord_eq_none {x : InRecord} (h : s.record i = some r) (hb : r.body = .inbound x) :
    s.outRecord i = none := by
  simp [Part.outRecord, h, Record.outbound?, hb]

theorem requestStory_eq (h : s.record i = some r) (k : FrameKind) :
    s.requestStory i k = s.addRequest { owner := .record i, cls := r.priority, kind := k, key := i.val } := by
  rw [Part.requestStory, h]

theorem requestCall_eq {x : OutRecord} (h : s.record i = some r) (hb : r.body = .outbound x) (k : FrameKind) :
    s.requestCall i k = s.addRequest { owner := .record i, cls := r.priority, kind := k, key := x.call } := by
  simp only [Part.requestCall, h, hb]

end

theorem Record.reservation_inbound {r : Record} {x : InRecord} (h : r.body = .inbound x) : r.reservation = [] := by
  simp [Record.reservation, h]

theorem Record.reservation_outbound {r : Record} {x : OutRecord} (h : r.body = .outbound x) :
    r.reservation = x.reservation := by
  simp [Record.reservation, h]

theorem Record.closed_iff (r : Record) : r.closed = true ↔ r.line = none := by
  simp [Record.closed]

/-! ### STORE-LOW judged (R91) -/

/-- What an edge of a station condition keeps, the judging of STORE-LOW keeps. -/
theorem judgeStore_congr {α : Type} {p : Part → α} (hp : ∀ s c b, p (s.putStationLevel c b) = p s)
    (hc : ∀ s c, p (s.stationChanged c) = p s) (s : Part) : p s.judgeStore = p s := by
  unfold Part.judgeStore
  split
  · exact setStationCond_congr s _ _ hp hc
  · split
    · exact setStationCond_congr s _ _ hp hc
    · rfl

theorem judgeStore_eq (s : Part) :
    s.judgeStore = { s with notices := s.judgeStore.notices, port := s.judgeStore.port } := by
  have rest : { s.judgeStore with notices := s.notices, port := s.port } = s := by
    unfold Part.judgeStore
    split
    · exact setStationCond_rest ..
    · split
      · exact setStationCond_rest ..
      · rfl
  exact congrArg (fun t : Part => { t with notices := s.judgeStore.notices, port := s.judgeStore.port }) rest

section
variable (s : Part) (l : LineNo) (i : Slot)

@[simp] theorem judgeStore_now : s.judgeStore.now = s.now := by rw [judgeStore_eq]
@[simp] theorem judgeStore_number : s.judgeStore.number = s.number := by rw [judgeStore_eq]
@[simp] theorem judgeStore_settings : s.judgeStore.settings = s.settings := by rw [judgeStore_eq]
@[simp] theorem judgeStore_lines : s.judgeStore.lines = s.lines := by rw [judgeStore_eq]
@[simp] theorem judgeStore_line : s.judgeStore.line l = s.line l := by rw [judgeStore_eq]; rfl
@[simp] theorem judgeStore_cond (c : Condition) : s.judgeStore.cond l c = s.cond l c := by rw [judgeStore_eq]; rfl
@[simp] theorem judgeStore_mem : s.judgeStore.mem = s.mem := by rw [judgeStore_eq]
@[simp] theorem judgeStore_free : s.judgeStore.free = s.free := by rw [judgeStore_eq]
@[simp] theorem judgeStore_records : s.judgeStore.records = s.records := by rw [judgeStore_eq]
@[simp] theorem judgeStore_record : s.judgeStore.record i = s.record i := by rw [judgeStore_eq]; rfl
@[simp] theorem judgeStore_inRecord : s.judgeStore.inRecord i = s.inRecord i := by rw [judgeStore_eq]; rfl
@[simp] theorem judgeStore_recent : s.judgeStore.recent = s.recent := by rw [judgeStore_eq]
@[simp] theorem judgeStore_trackers : s.judgeStore.trackers = s.trackers := by rw [judgeStore_eq]
@[simp] theorem judgeStore_register : s.judgeStore.register = s.register := by rw [judgeStore_eq]
@[simp] theorem judgeStore_groups : s.judgeStore.groups = s.groups := by rw [judgeStore_eq]

theorem requestOf_judgeStore {o : Owner} (h : o ≠ .station) : s.judgeStore.requestOf o = s.requestOf o :=
  judgeStore_congr (p := fun t => t.requestOf o) (fun _ _ _ => rfl)
    (fun _ _ => requestOf_addRequest_ne _ stationRequest o h.symm) s

theorem hasRequest_judgeStore {o : Owner} (h : o ≠ .station) : s.judgeStore.hasRequest o = s.hasRequest o := by
  rw [Part.hasRequest, requestOf_judgeStore s h, Part.hasRequest]

end

/-- STORE-LOW judged on a part whose level it stood at in `s` (R91). -/
theorem storeJudged_judgeStore {s t : Part} (h : t.stationCond .storeLow = s.stationCond .storeLow) :
    StoreJudged s t.judgeStore := by
  rw [StoreJudged, judgeStore_free]
  have judge : t.judgeStore = if t.free.length < 48 then t.setStationCond .storeLow true
      else if 96 ≤ t.free.length then t.setStationCond .storeLow false else t := rfl
  by_cases low : t.free.length < 48
  · refine ⟨fun _ => ?_, fun c => absurd c (by omega), fun c => absurd c (by omega)⟩
    rw [judge, if_pos low, stationCond_setStationCond, if_pos rfl]
  · by_cases high : 96 ≤ t.free.length
    · refine ⟨fun c => absurd c low, fun _ => ?_, fun _ c => absurd c (by omega)⟩
      rw [judge, if_neg low, if_pos high, stationCond_setStationCond, if_pos rfl]
    · refine ⟨fun c => absurd c low, fun c => absurd c high, fun _ _ => ?_⟩
      rw [judge, if_neg low, if_neg high, h]

/-! ### A record freed (R81) -/

theorem freeRecord_eq {s : Part} {i : Slot} {r : Record} (h : s.record i = some r) :
    s.freeRecord i = ((({ s with
      free := s.free ++ (r.blocks ++ r.reservation)
      recent := s.recent.filter fun j => !(j == i) } : Part).setRecord i none).removeRequest (.record i)).judgeStore := by
  rw [Part.freeRecord, h]

section
variable (s : Part) (i : Slot) (l : LineNo)

/-- A record freed is an act of the store, which may place the station notice. -/
theorem freeRecord_stores : Act (· ∈ [.store, .list, .notices]) s (s.freeRecord i) :=
  freeRecord_act (by decide) (by decide) (by decide) i .refl

@[simp] theorem freeRecord_lines : (s.freeRecord i).lines = s.lines :=
  (freeRecord_stores s i).lines_eq (by decide) (by decide) (by decide) (by decide) (by decide)
@[simp] theorem freeRecord_line : (s.freeRecord i).line l = s.line l := by simp [Part.line]
@[simp] theorem freeRecord_cond (c : Condition) : (s.freeRecord i).cond l c = s.cond l c := by simp [Part.cond]
@[simp] theorem freeRecord_now : (s.freeRecord i).now = s.now := (freeRecord_stores s i).now_eq
@[simp] theorem freeRecord_number : (s.freeRecord i).number = s.number := (freeRecord_stores s i).number_eq
@[simp] theorem freeRecord_cfg : (s.freeRecord i).cfg l = s.cfg l := (freeRecord_stores s i).cfg_eq l
@[simp] theorem freeRecord_mem : (s.freeRecord i).mem = s.mem := (freeRecord_stores s i).mem_eq (by decide)
@[simp] theorem freeRecord_register : (s.freeRecord i).register = s.register :=
  (freeRecord_stores s i).register_eq (by decide)
@[simp] theorem freeRecord_trackers : (s.freeRecord i).trackers = s.trackers :=
  (freeRecord_stores s i).trackers_eq (by decide)
@[simp] theorem freeRecord_groups : (s.freeRecord i).groups = s.groups := (freeRecord_stores s i).groups_eq (by decide)

@[simp] theorem record_freeRecord_self : (s.freeRecord i).record i = none := by
  cases h : s.record i with
  | none => rw [Part.freeRecord, h]; exact h
  | some r => rw [freeRecord_eq h]; simp

theorem record_freeRecord_ne {j : Slot} (hj : j ≠ i) : (s.freeRecord i).record j = s.record j := by
  cases h : s.record i with
  | none => rw [Part.freeRecord, h]
  | some r => rw [freeRecord_eq h, judgeStore_record, removeRequest_record, record_setRecord_ne _ _ _ _ hj]; rfl

end

theorem freeRecord_frees {s : Part} {i : Slot} {r : Record} (h : s.record i = some r) : Frees s (s.freeRecord i) i r := by
  refine ⟨record_freeRecord_self s i, fun j hj => record_freeRecord_ne s i hj, ?_, ?_, ?_, by simp, by simp, by simp,
    by simp, by simp⟩
  · rw [freeRecord_eq h]; simp
  · rw [freeRecord_eq h]; simp
  · rw [freeRecord_eq h, hasRequest_judgeStore _ (by simp), hasRequest_removeRequest_self]

theorem freeRecord_judged {s : Part} {i : Slot} {r : Record} (h : s.record i = some r) :
    StoreJudged s (s.freeRecord i) := by
  rw [freeRecord_eq h]
  exact storeJudged_judgeStore rfl

/-- A record freed keeps the requests of the other records, lines and reports. -/
theorem requestOf_freeRecord_ne (s : Part) {i : Slot} {o : Owner} (hi : o ≠ .record i) (ho : o ≠ .station) :
    (s.freeRecord i).requestOf o = s.requestOf o := by
  cases h : s.record i with
  | none => rw [Part.freeRecord, h]
  | some r => rw [freeRecord_eq h, requestOf_judgeStore _ ho, requestOf_removeRequest_ne _ _ hi]; rfl

end Sys2Proof.Machine
end

section
/-! The receiver's edges (1.2, 1.3): the input to space and to mark, the start check, LINE-OPEN low. -/

namespace Sys2Proof.Machine

/-! ### When the timers of a line run out -/

section
variable {s : Part} {l : LineNo} (ha : s.active l = true)
include ha

theorem startCheck_mem_dueLine_iff : Instr.startCheck l ∈ s.dueLine l ↔
    (s.line l).unit.rcv = .start ∧ (s.line l).unit.refTime + (s.cfg l).u ≤ s.now := by
  simp [Part.dueLine, ha, mem_dueOf_iff]

theorem breakRise_mem_dueLine_iff : Instr.breakRise l ∈ s.dueLine l ↔
    s.cond l .brk = false ∧ ranFrom s.now (s.line l).unit.spaceSince (2 * (s.cfg l).period) = true := by
  simp [Part.dueLine, ha, mem_dueOf_iff]

theorem lineOpenRise_mem_dueLine_iff : Instr.lineOpenRise l ∈ s.dueLine l ↔
    (s.cond l .brk = true ∧ s.cond l .lineOpen = false) ∧
      ranFrom s.now (s.line l).unit.spaceSince 5000000 = true := by
  simp [Part.dueLine, ha, mem_dueOf_iff, Config.lineOpenTime]

theorem lineOpenFall_mem_dueLine_iff : Instr.lineOpenFall l ∈ s.dueLine l ↔
    s.cond l .lineOpen = true ∧ ranFrom s.now (s.line l).unit.clearSince 2000000 = true := by
  simp [Part.dueLine, ha, mem_dueOf_iff, Config.clearTime, Config.seconds]

theorem codeSent_mem_dueLine_iff : Instr.codeSent l ∈ s.dueLine l ↔
    ranFrom s.now ((s.line l).unit.out.map OutCode.began) (s.cfg l).period = true := by
  simp [Part.dueLine, ha, mem_dueOf_iff]

theorem ready_mem_dueLine_iff : Instr.ready l ∈ s.dueLine l ↔
    s.awaitsReady l = true ∧ ranFrom s.now (s.line l).unit.markSince 4000000 = true := by
  simp [Part.dueLine, ha, mem_dueOf_iff, Config.readyTime, Config.seconds]

theorem stallRise_mem_dueLine_iff : Instr.stallRise l ∈ s.dueLine l ↔
    s.cond l .stall = false ∧ ranFrom s.now (s.line l).recog.stallSince 120000000 = true := by
  simp [Part.dueLine, ha, mem_dueOf_iff, Config.seconds]

theorem stallExpiry_mem_dueLine_iff : Instr.stallExpiry l ∈ s.dueLine l ↔
    ranFrom s.now (s.line l).recog.stallSince 600000000 = true := by
  simp [Part.dueLine, ha, mem_dueOf_iff, Config.seconds]

end

/-! ### The input (R3, R5, R7, R8, R14) -/

section
variable (s : Part) (l k : LineNo) (b : Bool)

@[simp] theorem setRx_line : (s.setRx l b).line k = s.line k := rfl
@[simp] theorem setRx_now : (s.setRx l b).now = s.now := rfl
@[simp] theorem setRx_cond (c : Condition) : (s.setRx l b).cond k c = s.cond k c := rfl

theorem updUnit_updUnit (f g : LineUnit → LineUnit) :
    (s.updUnit l f).updUnit l g = s.updUnit l fun x => g (f x) := by
  simp [Part.updUnit, Part.updLine, Part.line]

end

section
variable {s : Part} {l : LineNo}

/-- The unit of a line as an update that depends on it alone leaves it. -/
theorem updUnit_congr {f g : LineUnit → LineUnit} (h : f (s.line l).unit = g (s.line l).unit) :
    s.updUnit l f = s.updUnit l g := by
  simp only [Part.updUnit, Part.updLine, h]

theorem toSpace_of_space (hm : s.mark l = false) : s.toSpace l = s := by simp [Part.toSpace, hm]

theorem toSpace_of_hunt (hm : s.mark l = true) (ha : s.assembles l = true) (hr : (s.line l).unit.rcv = .hunt) :
    s.toSpace l = (s.setRx l false).updUnit l fun x =>
      { x with rcv := .start, refTime := s.now, spaceSince := some s.now, markSince := none, clearSince := none } := by
  simp [Part.toSpace, hm, ha, hr, active_of_assembles ha, updUnit_updUnit]

theorem toSpace_of_not_hunt (hm : s.mark l = true) (ha : s.active l = true)
    (hr : s.assembles l = false ∨ (s.line l).unit.rcv ≠ .hunt) :
    s.toSpace l = (s.setRx l false).updUnit l fun x =>
      { x with spaceSince := some s.now, markSince := none, clearSince := none } := by
  have hunts : ¬((s.assembles l && (s.line l).unit.rcv == .hunt) = true) := by
    rcases hr with h | h <;> simp [h]
  simp only [Part.toSpace, hm, ha, if_true, if_neg hunts]

theorem toSpace_of_inactive (hm : s.mark l = true) (ha : s.active l = false) : s.toSpace l = s.setRx l false := by
  simp [Part.toSpace, hm, ha]

theorem toMark_eq (hm : s.mark l = false) (ha : s.active l = true)
    (hh : ¬((s.line l).unit.rcv = .waitMark ∧ (s.line l).unit.held = true)) :
    s.toMark l = ((s.setRx l true).updUnit l fun x =>
      { x with
        spaceSince := none, markSince := some s.now, held := false
        clearSince := if s.cond l .lineOpen then some s.now else none
        rcv := if x.rcv = .waitMark then .hunt else x.rcv }).setCond l .brk false := by
  simp only [Part.toMark, hm, ha, if_true, if_neg hh, Bool.false_eq_true, if_false]

theorem toMark_of_held (hm : s.mark l = false) (ha : s.active l = true) (hr : (s.line l).unit.rcv = .waitMark)
    (hh : (s.line l).unit.held = true) :
    s.toMark l = (((s.setRx l true).updUnit l fun x =>
      { x with
        spaceSince := none, markSince := some s.now, held := false
        clearSince := if s.cond l .lineOpen then some s.now else none
        rcv := if x.rcv = .waitMark then .hunt else x.rcv }).handOn l 0 true).setCond l .brk false := by
  simp only [Part.toMark, hm, ha, hr, hh, if_true, Bool.false_eq_true, if_false, and_self]

theorem checkStart_of_space (ha : s.assembles l = true) (hr : (s.line l).unit.rcv = .start) (hm : s.mark l = false) :
    s.checkStart l = s.updUnit l fun x => { x with rcv := .data, sampled := 0, acc := 0 } := by
  simp [Part.checkStart, ha, hr, hm]

theorem checkStart_of_mark (ha : s.assembles l = true) (hr : (s.line l).unit.rcv = .start) (hm : s.mark l = true) :
    s.checkStart l = s.updUnit l fun x => { x with rcv := .hunt } := by
  simp [Part.checkStart, ha, hr, hm]

theorem lowerLineOpen_eq (ha : s.active l = true) (hs : (s.line l).unit.clearSince.isSome = true)
    (hc : s.cond l .lineOpen = true) :
    s.lowerLineOpen l = (s.updUnit l fun x => { x with clearSince := none }).setCond l .lineOpen false := by
  simp [Part.lowerLineOpen, ha, hs, hc]

end

theorem exec_rxMarkToSpace (l : LineNo) (s : State) :
    exec (.rxMarkToSpace l) s = .next { s with toPart := s.toPart.toSpace l } := by rfl

theorem exec_rxSpaceToMark (l : LineNo) (s : State) :
    exec (.rxSpaceToMark l) s = .next { s with toPart := (s.toPart.toMark l).serveBus } := by rfl

theorem exec_startCheck (l : LineNo) (s : State) :
    exec (.startCheck l) s = .next { s with toPart := s.toPart.checkStart l } := by rfl

theorem exec_lineOpenFall (l : LineNo) (s : State) :
    exec (.lineOpenFall l) s = .next { s with toPart := (s.toPart.lowerLineOpen l).serveBus } := by rfl

/-- Settles O14, by the cases of `Part.toSpace` and `Part.checkStart`. -/
theorem startElement : Obligations.StartElement := by
  refine fun l s => ⟨fun ha => ?_, fun hact ha hm => ?_, fun ha hm => ?_, fun hm => ?_⟩
  · have hact := active_of_assembles ha
    refine ⟨fun hm hr => ?_, fun hm hr => ?_, fun hm hr => ?_, fun hr => ⟨?_, fun hm => ?_, fun hm => ?_⟩⟩
    · rw [exec_rxMarkToSpace, toSpace_of_hunt hm ha hr]
    · rw [exec_rxMarkToSpace, toSpace_of_not_hunt hm hact (.inr hr)]
    · have hw : (s.line l).unit.rcv ≠ .waitMark := by rcases hr with h | h | h <;> simp [h]
      refine ⟨_, exec_rxSpaceToMark l s, ?_⟩
      rw [toMark_eq hm hact fun h => hw h.1]
      simp [hw]
    · rw [startCheck_mem_dueLine_iff hact]
      exact and_iff_right hr
    · rw [exec_startCheck, checkStart_of_space ha hr hm]
    · rw [exec_startCheck, checkStart_of_mark ha hr hm]
  · rw [exec_rxMarkToSpace, toSpace_of_not_hunt hm hact (.inl ha)]
  · rw [exec_rxMarkToSpace, toSpace_of_inactive hm ha]
  · rw [exec_rxMarkToSpace, toSpace_of_space hm]

/-- Settles O16, by the cases of `Part.toMark`. -/
theorem returnToMark : Obligations.ReturnToMark := by
  refine fun l s ha => ⟨fun hm => ⟨fun hh => ?_, fun hr hh => ?_⟩, fun hs hc => ⟨fun since h => ?_, ?_⟩⟩
  · rw [exec_rxSpaceToMark, toMark_eq hm ha hh]
  · rw [exec_rxSpaceToMark, toMark_of_held hm ha hr hh]
  · rw [lineOpenFall_mem_dueLine_iff ha, h, ranFrom_some_iff]
    exact and_iff_right hc
  · rw [exec_lineOpenFall, lowerLineOpen_eq ha hs hc]

end Sys2Proof.Machine
end

section
/-! What a heard frame and an accepted order make the part do (R186, R187, R214). -/

namespace Sys2Proof.Machine

theorem loader_ne_off_of_hears {s : Part} (h : s.hears) : s.loader ≠ .off := by rw [h.1]; decide

section
variable {s : State} {f : Heard} (hh : s.toPart.hears) (hf : fromStation f = true)
include hh hf

theorem complete_hearRunning (act : Part → Part) :
    complete s (s.toPart.live (s.toPart.hearRunning f act)) =
      .next { s with toPart := (act s.toPart.heard).serveBus } := by
  rw [live_of_ne_off (loader_ne_off_of_hears hh), hearRunning_of_hears _ hh hf]; rfl

theorem exec_heardCall : exec (.heardCall f) s = .next { s with toPart := (s.toPart.heard.callHeard f).serveBus } :=
  complete_hearRunning hh hf _
theorem exec_heardClaim : exec (.heardClaim f) s = .next { s with toPart := (s.toPart.heard.claimHeard f).serveBus } :=
  complete_hearRunning hh hf _
theorem exec_heardOffer : exec (.heardOffer f) s = .next { s with toPart := (s.toPart.heard.offerHeard f).serveBus } :=
  complete_hearRunning hh hf _
theorem exec_heardTextStory :
    exec (.heardTextStory f) s = .next { s with toPart := (s.toPart.heard.storyTextHeard f).serveBus } :=
  complete_hearRunning hh hf _
theorem exec_heardCloseStory :
    exec (.heardCloseStory f) s = .next { s with toPart := (s.toPart.heard.storyCloseHeard f).serveBus } :=
  complete_hearRunning hh hf _
theorem exec_heardWithdrawStory :
    exec (.heardWithdrawStory f) s = .next { s with toPart := (s.toPart.heard.storyWithdrawHeard f).serveBus } :=
  complete_hearRunning hh hf _
theorem exec_heardTextCall :
    exec (.heardTextCall f) s = .next { s with toPart := (s.toPart.heard.callTextHeard f).serveBus } :=
  complete_hearRunning hh hf _
theorem exec_heardCloseCall :
    exec (.heardCloseCall f) s = .next { s with toPart := (s.toPart.heard.callCloseHeard f).serveBus } :=
  complete_hearRunning hh hf _
theorem exec_heardWithdrawCall :
    exec (.heardWithdrawCall f) s = .next { s with toPart := (s.toPart.heard.callWithdrawHeard f).serveBus } :=
  complete_hearRunning hh hf _

end

section
variable {s : State} {k : OrderForm} {o : Order} (ht : s.toPart.takes k o)
include ht

theorem complete_openOrder (act : Part → Part) :
    complete s (s.toPart.live (s.toPart.openOrder k o act)) =
      .next { s with toPart := (act s.toPart.heard).serveBus } := by
  obtain ⟨hh, ha, hf⟩ := ht
  rw [live_of_ne_off (loader_ne_off_of_hears hh), Part.openOrder, orderTaken_of_fits hh.2.1 hh.2.2 ha hf]
  simp [hh.1, complete]

variable (hs : s.toPart.supervises o = true)
include hs

theorem complete_supervisoryOrder (code : Nat) (act : Part → Part) :
    complete s (s.toPart.live (s.toPart.supervisoryOrder code k o act)) =
      .next { s with toPart := (act s.toPart.heard).serveBus } := by
  obtain ⟨hh, ha, hf⟩ := ht
  have hs' : s.toPart.heard.supervises o = true := hs
  rw [live_of_ne_off (loader_ne_off_of_hears hh), Part.supervisoryOrder, orderTaken_of_fits hh.2.1 hh.2.2 ha hf]
  simp [hh.1, hs', complete]

end

section
variable {s : State} {o : Order} (ht : s.toPart.takes .lines o)

theorem exec_query (ht : s.toPart.takes .lines o) : exec (.query o) s = .next { s with toPart :=
    (s.toPart.heard.onLines o fun l t => t.takeQuery l false).serveBus } := complete_openOrder ht _

variable (hs : s.toPart.supervises o = true)
include ht hs

theorem exec_lineOut : exec (.lineOut o) s = .next { s with toPart :=
    (s.toPart.heard.onLines o fun l t => t.lineOut l).serveBus } := complete_supervisoryOrder ht hs _ _
theorem exec_lineIn : exec (.lineIn o) s = .next { s with toPart :=
    (s.toPart.heard.onLines o fun l t => t.lineIn l).serveBus } := complete_supervisoryOrder ht hs _ _
theorem exec_lineRestart : exec (.lineRestart o) s = .next { s with toPart :=
    (s.toPart.heard.onLines o fun l t => t.lineRestart l).serveBus } := complete_supervisoryOrder ht hs _ _
theorem exec_testStart : exec (.testStart o) s = .next { s with toPart :=
    (s.toPart.heard.onLines o fun l t => t.testStart l).serveBus } := complete_supervisoryOrder ht hs _ _
theorem exec_testStop : exec (.testStop o) s = .next { s with toPart :=
    (s.toPart.heard.onLines o fun l t => t.testStop l).serveBus } := complete_supervisoryOrder ht hs _ _
theorem exec_insertError : exec (.insertError o) s = .next { s with toPart :=
    (s.toPart.heard.onLines o fun l t => t.insertError l).serveBus } := complete_supervisoryOrder ht hs _ _
theorem exec_countTransfer : exec (.countTransfer o) s = .next { s with toPart :=
    (s.toPart.heard.onLines o fun l t => t.countTransfer l).serveBus } := complete_supervisoryOrder ht hs _ _
theorem exec_queryAndClear : exec (.queryAndClear o) s = .next { s with toPart :=
    (s.toPart.heard.onLines o fun l t => t.takeQuery l true).serveBus } := complete_supervisoryOrder ht hs _ _

end

/-! ### What hearing leaves as it was -/

section
variable (s : Part)

theorem heard_rest : { s.heard with port := s.port, hearings := s.hearings } = s := rfl
@[simp] theorem heard_cfg (l : LineNo) : s.heard.cfg l = s.cfg l := rfl
@[simp] theorem heard_map (l : LineNo) : s.heard.map l = s.map l := rfl
@[simp] theorem heard_active (l : LineNo) : s.heard.active l = s.active l := rfl
@[simp] theorem heard_mark (l : LineNo) : s.heard.mark l = s.mark l := rfl
@[simp] theorem heard_rx : s.heard.rx = s.rx := rfl
@[simp] theorem heard_recent : s.heard.recent = s.recent := rfl
@[simp] theorem heard_groups : s.heard.groups = s.groups := rfl
@[simp] theorem heard_notices : s.heard.notices = s.notices := rfl
@[simp] theorem heard_hearings : s.heard.hearings = s.hearings + 1 := rfl
@[simp] theorem heard_hasRequest (o : Owner) : s.heard.hasRequest o = s.hasRequest o := rfl
@[simp] theorem heard_cond (l : LineNo) (c : Condition) : s.heard.cond l c = s.cond l c := rfl
@[simp] theorem heard_inRecord (i : Slot) : s.heard.inRecord i = s.inRecord i := rfl
@[simp] theorem heard_outRecord (i : Slot) : s.heard.outRecord i = s.outRecord i := rfl
@[simp] theorem heard_callSlot (caller call : Nat) : s.heard.callSlot caller call = s.callSlot caller call := rfl

/-- Hearing a frame ends no frame of the port's own. -/
@[simp] theorem heard_frameUnderWay (o : Owner) : s.heard.frameUnderWay o = s.frameUnderWay o := by
  by_cases h : s.port.state = .receiving
  · simp only [Part.frameUnderWay, heard_eq, Port.drives, h, if_true]; rfl
  · simp only [Part.frameUnderWay, heard_eq, Port.drives, h, if_false]

end

end Sys2Proof.Machine
end

section
/-! Calls: the endings of a claim and of an intake, and the frames that bring them (07.5 to 07.7). -/

namespace Sys2Proof.Machine

section
variable {s : Part} {i : Slot} {r : Record} {x : OutRecord} (hr : s.record i = some r) (hb : r.body = .outbound x)
include hr hb

theorem abortIntake_eq : s.abortIntake i = (s.setRecord i (some { r with body := .outbound { x with
    state := .aborting, chars := none, claim := none, intake := none } })).addRequest
      { owner := .record i, cls := r.priority, kind := .withdraw, key := x.call } := by
  rw [Part.abortIntake, updOut_eq hr hb, requestCall_eq (record_setRecord_self _ _ _) rfl]

theorem endClaim_of_idle (hc : x.state = .claiming) (hu : s.frameUnderWay (.record i) = false) (k : ClaimEnding) :
    s.endClaim i k = s.freeRecord i := by
  simp [Part.endClaim, outRecord_eq hr hb, hc, hu]

theorem endClaim_of_under_way {c : Claim} (hc : x.state = .claiming) (hm : x.claim = some c)
    (hu : s.frameUnderWay (.record i) = true) (k : ClaimEnding) :
    s.endClaim i k = s.setRecord i (some { r with body := .outbound { x with
      claim := some { c with since := none, ending := some (match c.ending with
        | some e => e.worse k
        | none => k) } } }) := by
  rw [Part.endClaim, outRecord_eq hr hb]
  dsimp only
  rw [if_pos hc, if_pos hu, updOut_eq hr hb, hm]
  rfl

theorem endClaim_of_not_claiming (hc : x.state ≠ .claiming) (k : ClaimEnding) : s.endClaim i k = s := by
  simp [Part.endClaim, outRecord_eq hr hb, hc]

end

/-- An intake aborted, its record not on the send list before, has its WITHDRAW requested (R150). -/
theorem abortIntake_aborts {s : Part} {i : Slot} {r : Record} {x : OutRecord} (hr : s.record i = some r)
    (hb : r.body = .outbound x) : Aborts s (s.abortIntake i) i r x := by
  rw [abortIntake_eq hr hb]
  refine ⟨⟨by simp, fun j hj => ?_, by simp, by simp, fun hq => ?_⟩, by simp⟩
  · rw [addRequest_record, record_setRecord_ne _ _ _ _ hj]
  · exact requestOf_addRequest_self _ { owner := .record i, cls := r.priority, kind := .withdraw, key := x.call } hq

theorem worse_free (e : ClaimEnding) : e.worse .free = .free := by cases e <;> rfl

theorem exec_claimPendingExpiry (i : Slot) (s : State) :
    exec (.claimPendingExpiry i) s = .next { s with toPart := (s.toPart.claimExpires i).serveBus } := by rfl

theorem exec_intakeSilenceExpiry (i : Slot) (s : State) :
    exec (.intakeSilenceExpiry i) s = .next { s with toPart := (s.toPart.intakeExpires i).serveBus } := by rfl

section
variable {s : Part} {i : Slot} {r : Record} {x : OutRecord} (hr : s.record i = some r) (hb : r.body = .outbound x)
include hr hb

theorem claimPendingExpiry_mem_dueRecord_iff : Instr.claimPendingExpiry i ∈ s.dueRecord i ↔
    ranFrom s.now (x.claim.bind Claim.since) 4000000 = true := by
  simp [Part.dueRecord, hr, hb, mem_dueOf_iff, Config.seconds]

theorem intakeSilenceExpiry_mem_dueRecord_iff : Instr.intakeSilenceExpiry i ∈ s.dueRecord i ↔
    ranFrom s.now (x.intake.map Intake.since) 20000000 = true := by
  simp [Part.dueRecord, hr, hb, mem_dueOf_iff, Config.seconds]

theorem claimExpires_eq {c : Claim} (hm : x.claim = some c) (hs : c.since.isSome = true) :
    s.claimExpires i = s.endClaim i .withdraw := by
  simp [Part.claimExpires, outRecord_eq hr hb, hm, hs]

theorem intakeExpires_eq (hx : x.state = .intake) : s.intakeExpires i = s.abortIntake i := by
  simp [Part.intakeExpires, outRecord_eq hr hb, hx]

theorem standDown_of_claiming (hc : x.state = .claiming) : s.standDown i = s.freeRecord i := by
  simp [Part.standDown, outRecord_eq hr hb, hc]

theorem standDown_of_not_claiming (hc : x.state ≠ .claiming) : s.standDown i = s := by
  simp [Part.standDown, outRecord_eq hr hb, hc]

theorem callerWithdraws_of_claiming (hc : x.state = .claiming) : s.callerWithdraws i = s.endClaim i .free := by
  simp [Part.callerWithdraws, outRecord_eq hr hb, hc]

theorem callerWithdraws_of_taken (hc : x.state = .intake ∨ x.state = .aborting) :
    s.callerWithdraws i = s.freeRecord i := by
  rcases hc with hc | hc <;> simp [Part.callerWithdraws, outRecord_eq hr hb, hc]

theorem callerWithdraws_of_sent (hc : x.state = .queued ∨ x.state = .sending ∨ x.state = .suspended ∨
    x.state = .heldBreak ∨ x.state = .reporting) : s.callerWithdraws i = s := by
  rcases hc with hc | hc | hc | hc | hc <;> simp [Part.callerWithdraws, outRecord_eq hr hb, hc]

end

/-- A record freed behind a heard frame is freed as the frame found it. -/
theorem frees_heard {s : Part} {i : Slot} {r : Record} (hr : s.record i = some r) :
    Frees s (s.heard.freeRecord i) i r := freeRecord_frees (s := s.heard) hr

theorem hearClaim_of_own (s : Part) {n : Nat} (hn : n = s.number) (caller call : Nat) :
    s.hearClaim n caller call = s := by simp [Part.hearClaim, hn]

theorem hearClaim_of_other {s : Part} {n caller call : Nat} {i : Slot} (hn : n ≠ s.number)
    (hi : s.callSlot caller call = some i) : s.hearClaim n caller call = s.standDown i := by
  simp [Part.hearClaim, hn, hi]

theorem callWithdrawHeard_of_caller {s : Part} {f : Heard} {caller call : Nat} {i : Slot}
    (hw : readWithdraw f = some (.call caller call)) (hc : f.station.toNat = caller)
    (hi : s.callSlot caller call = some i) : s.callWithdrawHeard f = s.callerWithdraws i := by
  simp [Part.callWithdrawHeard, hw, Part.fromCaller, hc, hi]

theorem callWithdrawHeard_of_other {s : Part} {f : Heard} {caller call : Nat}
    (hw : readWithdraw f = some (.call caller call)) (hc : f.station.toNat ≠ caller) : s.callWithdrawHeard f = s := by
  simp [Part.callWithdrawHeard, hw, Part.fromCaller, hc]

/-- Settles O47, by the state of the call's record. -/
theorem claimHeardAndCallWithdrawn : Obligations.ClaimHeardAndCallWithdrawn := by
  intro f i r x s hh hf hi hr hb
  have hr' : s.toPart.heard.record i = some r := hr
  have hi' : s.toPart.heard.callSlot x.caller x.call = some i := hi
  refine ⟨fun hclaim => ?_, fun hw => ?_⟩
  · have hheard : s.toPart.heard.claimHeard f =
        s.toPart.heard.hearClaim f.station.toNat x.caller x.call := by simp [Part.claimHeard, hclaim]
    rw [exec_heardClaim hh hf, hheard]
    refine ⟨fun hn hc => ⟨s.toPart.heard.freeRecord i, ?_, frees_heard hr⟩, fun ho => ?_⟩
    · rw [hearClaim_of_other (s := s.toPart.heard) hn hi', standDown_of_claiming hr' hb hc]
    · by_cases hn : f.station.toNat = s.number
      · rw [hearClaim_of_own s.toPart.heard hn]
      · rw [hearClaim_of_other (s := s.toPart.heard) hn hi',
          standDown_of_not_claiming hr' hb (ho.resolve_left hn)]
  · rw [exec_heardWithdrawCall hh hf]
    refine ⟨fun hc hx => ⟨s.toPart.heard.freeRecord i, ?_, frees_heard hr⟩, fun c hc hx hu hm => ?_, fun ho => ?_⟩
    · rw [callWithdrawHeard_of_caller hw hc hi']
      rcases hx with hx | hx | ⟨hx, hu⟩
      · rw [callerWithdraws_of_taken hr' hb (.inl hx)]
      · rw [callerWithdraws_of_taken hr' hb (.inr hx)]
      · rw [callerWithdraws_of_claiming hr' hb hx, endClaim_of_idle hr' hb hx (by simpa using hu)]
    · rw [callWithdrawHeard_of_caller hw hc hi', callerWithdraws_of_claiming hr' hb hx,
        endClaim_of_under_way hr' hb hx hm (by simpa using hu)]
      cases c.ending <;> simp [worse_free]
    · by_cases hc : f.station.toNat = x.caller
      · rw [callWithdrawHeard_of_caller hw hc hi', callerWithdraws_of_sent hr' hb (ho.resolve_left (by simp [hc]))]
      · rw [callWithdrawHeard_of_other hw hc]

end Sys2Proof.Machine
end

section
/-! Takeover and peer silence (06.4), and reruns (06.5). -/

namespace Sys2Proof.Machine

/-- Nothing but a record and the send list differs after a record is written and a request added. -/
theorem setRecord_addRequest_rest (s : Part) (i : Slot) (r : Option Record) (q : Request) :
    { (s.setRecord i r).addRequest q with records := s.records, port := s.port } = s := by
  rw [addRequest_eq]; rfl

section
variable {s : Part} {i : Slot} {r : Record} {x : InRecord} {p : Peer} (hr : s.record i = some r)
  (hb : r.body = .inbound x) (hp : x.peer = some p)
include hr hb hp

theorem takeover_eq : s.takeover i = (s.setRecord i (some { r with body := .inbound { x with
      state := .carrying, takeover := true, peer := none
      cursor := if r.closed = true ∧ r.count < p.progress then r.count else p.progress } })).addRequest
        { owner := .record i, cls := r.priority, kind := .offer, key := i.val } := by
  have lowered : lowerCursor { r with body := .inbound { x with
        state := .carrying, takeover := true, cursor := p.progress, peer := none } } =
      { r with body := .inbound { x with
        state := .carrying, takeover := true, peer := none
        cursor := if r.closed = true ∧ r.count < p.progress then r.count else p.progress } } := by
    by_cases hc : r.line = none ∧ r.count < p.progress <;> simp [lowerCursor, Record.mapIn, Record.closed, hc]
  rw [Part.takeover, updIn_eq hr hb, updRecord_eq (record_setRecord_self _ _ _), hp, setRecord_setRecord]
  simp only [Option.map_some, Option.getD_some]
  rw [lowered, requestStory_eq (record_setRecord_self _ _ _)]

theorem takeover_takesOver : TakesOver s (s.takeover i) i r x p := by
  rw [takeover_eq hr hb hp]
  refine ⟨by simp, hasRequest_addRequest_self _ _, fun hq => ?_⟩
  exact requestOf_addRequest_self _ { owner := .record i, cls := r.priority, kind := .offer, key := i.val } hq

theorem takeover_rest : { s.takeover i with records := s.records, port := s.port } = s := by
  rw [takeover_eq hr hb hp, setRecord_addRequest_rest]

theorem record_takeover_ne {j : Slot} (hj : j ≠ i) : (s.takeover i).record j = s.record j := by
  rw [takeover_eq hr hb hp, addRequest_record, record_setRecord_ne _ _ _ _ hj]

theorem peerSilence20s_mem_dueRecord_iff : Instr.peerSilence20s i ∈ s.dueRecord i ↔
    p.past20 = false ∧ p.since + 40000000 ≤ s.now := by
  simp [Part.dueRecord, hr, hb, hp, mem_dueOf_iff, Config.seconds]

theorem peerSilence120s_mem_dueRecord_iff : Instr.peerSilence120s i ∈ s.dueRecord i ↔
    p.since + 240000000 ≤ s.now := by
  simp [Part.dueRecord, hr, hb, hp, mem_dueOf_iff, Config.seconds]

theorem silentTakeover_of_more (hx : x.state = .standby ∨ x.state = .standbyComplete) (h20 : p.past20 = true)
    (hq : x.quiet = false) (hn : p.progress < r.count) : s.silentTakeover i = s.takeover i := by
  simp only [Part.silentTakeover, hr, hb, hp]
  rw [if_pos ⟨hx, h20, by simp [hq], hn⟩]

theorem silentTakeover_of_less (h : ¬((x.state = .standby ∨ x.state = .standbyComplete) ∧ p.past20 = true ∧
    x.quiet = false ∧ p.progress < r.count)) : s.silentTakeover i = s := by
  simp only [Part.silentTakeover, hr, hb, hp]
  rw [if_neg (by simpa using h)]

end

theorem silentTakeover_of_not_standing {s : Part} {i : Slot} {r : Record} {x : InRecord} (hr : s.record i = some r)
    (hb : r.body = .inbound x) (hx : ¬(x.state = .standby ∨ x.state = .standbyComplete)) :
    s.silentTakeover i = s := by
  simp only [Part.silentTakeover, hr, hb]
  split
  · rw [if_neg fun h => hx h.1]
  · rfl

section
variable {s : Part} {i : Slot} {r : Record} {x : InRecord} {p : Peer} (hr : s.record i = some r)
  (hb : r.body = .inbound x) (hx : x.state = .standby ∨ x.state = .standbyComplete)
include hr hb hx

theorem silence20_eq (hp : x.peer = some p) :
    s.silence20 i = (s.setRecord i (some { r with
      body := .inbound { x with peer := some { p with past20 := true } } })).silentTakeover i := by
  simp only [Part.silence20, inRecord_eq hr hb]
  rw [if_pos hx, updIn_eq hr hb, hp]
  rfl

theorem silence120_eq : s.silence120 i = s.takeover i := by
  simp only [Part.silence120, inRecord_eq hr hb]
  rw [if_pos hx]

end

theorem exec_peerSilence20s (i : Slot) (s : State) :
    exec (.peerSilence20s i) s = .next { s with toPart := (s.toPart.silence20 i).serveBus } := by rfl

theorem exec_peerSilence120s (i : Slot) (s : State) :
    exec (.peerSilence120s i) s = .next { s with toPart := (s.toPart.silence120 i).serveBus } := by rfl

/-- Settles O35, from the takeover and the cases of the 20 s expiry. -/
theorem peerSilenceTakesOver : Obligations.PeerSilenceTakesOver := by
  intro i r x p s hr hb hx hp
  refine ⟨peerSilence20s_mem_dueRecord_iff hr hb hp, peerSilence120s_mem_dueRecord_iff hr hb hp, fun hq hn => ?_,
    fun hw => ?_, s.toPart.takeover i, ?_, takeover_takesOver hr hb hp, fun j hj => record_takeover_ne hr hb hp hj,
    takeover_rest hr hb hp⟩
  · let t := s.toPart.setRecord i (some { r with body := .inbound { x with peer := some { p with past20 := true } } })
    have ht : t.record i = some { r with body := .inbound { x with peer := some { p with past20 := true } } } :=
      record_setRecord_self _ _ _
    refine ⟨t.takeover i, ?_, ?_, fun j hj => ?_, ?_⟩
    · rw [exec_peerSilence20s, silence20_eq hr hb hx hp, silentTakeover_of_more ht rfl rfl hx rfl hq hn]
    · have taken := takeover_takesOver ht rfl rfl
      exact taken
    · rw [record_takeover_ne ht rfl rfl hj, record_setRecord_ne _ _ _ _ hj]
    · exact congrArg (fun u : Part => { u with records := s.records, port := s.port }) (takeover_rest ht rfl rfl)
  · rw [exec_peerSilence20s, silence20_eq hr hb hx hp, silentTakeover_of_less (record_setRecord_self _ _ _) rfl rfl]
    rintro ⟨-, -, hq, hn⟩
    rcases hw with h | h
    · simp_all
    · exact absurd hn (by simpa using h)
  · rw [exec_peerSilence120s, silence120_eq hr hb hx]

/-! ### Reruns -/

theorem exec_rerun {o : Order} {s : State} (ht : s.toPart.takes (.station 3) o) :
    exec (.rerun o) s = .next { s with toPart := (s.toPart.heard.rerunOrder o).serveBus } := complete_openOrder ht _

/-- The slot holds a RECENT record of the key. -/
def Part.recentHolds (s : Part) (service serial : Nat) (i : Slot) : Bool :=
  match s.inRecord i with
  | some x => x.state == .recent && x.service == service && x.serial == some serial
  | none => false

theorem recentOf_eq (s : Part) (service serial : Nat) :
    s.recentOf service serial = s.recent.reverse.find? (s.recentHolds service serial) := rfl

theorem recentHolds_iff {s : Part} {service serial : Nat} {i : Slot} : s.recentHolds service serial i = true ↔
    ∃ x, s.inRecord i = some x ∧ x.state = .recent ∧ x.service = service ∧ x.serial = some serial := by
  unfold Part.recentHolds
  split
  · next x hx => simp [hx, and_assoc]
  · next hx => simp [hx]

theorem rerunStory_of_none {s : Part} {service serial : Nat}
    (h : ∀ i ∈ s.recent, ¬s.recentHolds service serial i = true) : s.rerunStory service serial = s := by
  have none : s.recentOf service serial = none := by
    rw [recentOf_eq, List.find?_eq_none]
    exact fun i hi => h i (List.mem_reverse.mp hi)
  rw [Part.rerunStory, none]

theorem recentOf_newest {s : Part} {service serial : Nat} {before after : List Slot} {i : Slot}
    (hs : s.recent = before ++ i :: after) (hi : s.recentHolds service serial i = true)
    (ha : ∀ j ∈ after, ¬s.recentHolds service serial j = true) : s.recentOf service serial = some i := by
  rw [recentOf_eq, hs, List.reverse_append, List.reverse_cons, List.append_assoc, List.find?_append,
    List.find?_eq_none.mpr fun j hj => ha j (List.mem_reverse.mp hj)]
  simp [hi]

theorem rerunStory_of_some {s : Part} {service serial : Nat} {i : Slot} {r : Record} {x : InRecord}
    (h : s.recentOf service serial = some i) (hr : s.record i = some r) (hb : r.body = .inbound x) :
    s.rerunStory service serial =
      (({ s with recent := s.recent.filter fun j => !(j == i) } : Part).setRecord i (some { r with
        body := .inbound { x with
          state := .rerunning, referenced := some true, rerun := true, cursor := 0 } })).addRequest
        { owner := .record i, cls := r.priority, kind := .offer, key := i.val } := by
  have hr' : ({ s with recent := s.recent.filter fun j => !(j == i) } : Part).record i = some r := hr
  rw [Part.rerunStory, h]
  dsimp only
  rw [updIn_eq hr' hb, requestStory_eq (record_setRecord_self _ _ _)]

/-- Settles O58, from the newest RECENT record of the key. -/
theorem rerunServed : Obligations.RerunServed := by
  intro o service s1 s0 s ht harg
  have hserve : s.toPart.heard.rerunOrder o = s.toPart.heard.rerunStory service.toNat (word s1 s0) := by
    rw [Part.rerunOrder, harg]
  rw [exec_rerun ht, hserve]
  refine ⟨fun hn => ?_, fun before i after r x hs ha hr hb hi => ⟨_, rfl, ?_⟩⟩
  · rw [rerunStory_of_none]
    intro i hi h
    obtain ⟨x, hx⟩ := recentHolds_iff.mp h
    exact hn i hi x hx
  · have newest : s.toPart.heard.recentOf service.toNat (word s1 s0) = some i := by
      refine recentOf_newest (s := s.toPart.heard) hs (recentHolds_iff.mpr ⟨x, hi⟩) fun j hj h => ?_
      obtain ⟨y, hy⟩ := recentHolds_iff.mp h
      exact ha j hj y hy
    rw [rerunStory_of_some newest hr hb]
    refine ⟨by simp, by simp, fun hq => ?_, fun j hj => ?_, ?_⟩
    · exact requestOf_addRequest_self _ { owner := .record i, cls := r.priority, kind := .offer, key := i.val } hq
    · rw [addRequest_record, record_setRecord_ne _ _ _ _ hj]; rfl
    · rw [addRequest_eq]; rfl

end Sys2Proof.Machine
end

section
/-! An operation repeated over lines or slots: what one repetition does to its own line or slot, the whole
does, and the rest stays. -/

namespace Sys2Proof.Machine

section
variable {ι α : Type} {f : ι → Part → Part} {p : Part → α} {k : ι}

/-- A view that the operation leaves alone but for `k` is left alone by a repetition without `k`. -/
theorem view_foldl_of_not_mem (hne : ∀ i s, i ≠ k → p (f i s) = p s) (is : List ι) (hk : k ∉ is) (s : Part) :
    p (is.foldl (fun s i => f i s) s) = p s := by
  induction is generalizing s with
  | nil => rfl
  | cons i is ih =>
    rw [List.mem_cons, not_or] at hk
    rw [List.foldl_cons, ih hk.2, hne i s (Ne.symm hk.1)]

theorem invariant_foldl {R : Part → Prop} (hR : ∀ i s, R s → R (f i s)) (is : List ι) {s : Part} (hs : R s) :
    R (is.foldl (fun s i => f i s) s) := by
  induction is generalizing s with
  | nil => exact hs
  | cons i is ih => exact ih (hR i s hs)

/-- A repetition that meets `k` once does there what the operation does to a part that differs from `s` only
by the repetitions before it. -/
theorem view_foldl_of_mem (hne : ∀ i s, i ≠ k → p (f i s) = p s) {R : Part → Prop} (hR : ∀ i s, R s → R (f i s))
    {is : List ι} (hn : is.Nodup) (hk : k ∈ is) {s : Part} (hs : R s) :
    ∃ u, R u ∧ p u = p s ∧ p (is.foldl (fun s i => f i s) s) = p (f k u) := by
  obtain ⟨before, after, rfl⟩ := List.append_of_mem hk
  rw [List.nodup_append] at hn
  have hb : k ∉ before := fun h => hn.2.2 k h k (by simp) rfl
  have ha : k ∉ after := (List.nodup_cons.mp hn.2.1).1
  refine ⟨before.foldl (fun s i => f i s) s, invariant_foldl hR before hs, view_foldl_of_not_mem hne before hb s, ?_⟩
  rw [List.foldl_append, List.foldl_cons, view_foldl_of_not_mem hne after ha]

end

theorem nodup_orderLines {o : Order} : ((orderLines o).getD []).Nodup := by
  unfold orderLines
  split
  · exact List.nodup_singleton _
  · split
    · exact (by decide : allLines.Nodup)
    · exact List.nodup_nil

theorem onLines_eq (s : Part) (o : Order) (act : LineNo → Part → Part) :
    s.onLines o act = ((orderLines o).getD []).foldl (fun s l => act l s) s := rfl

/-- Changes of the kinds of a line and of the send list leave the rest of the part. -/
theorem Act.rest_of_lines {s t : Part} (h : Act (· ∈ [.unit, .plane, .recog, .sched, .sup, .list]) s t) :
    { t with lines := s.lines, port := s.port } = s :=
  Part.eq_of_standing h.standing_eq (h.hearings_eq (by decide)) (h.rx_eq (by decide)) rfl (h.mem_eq (by decide))
    (h.free_eq (by decide)) (h.records_eq (by decide) (by decide)) (h.recent_eq (by decide))
    (h.trackers_eq (by decide)) (h.register_eq (by decide)) (h.groups_eq (by decide)) rfl
    (h.notices_eq (by decide)) (h.reportSince_eq (by decide))

/-- Changes of the kinds of a line alone leave the port as well. -/
theorem Act.rest_of_lines_only {s t : Part} (h : Act (· ∈ [.unit, .plane, .recog, .sched, .sup]) s t) :
    { t with lines := s.lines } = s :=
  Part.eq_of_standing h.standing_eq (h.hearings_eq (by decide)) (h.rx_eq (by decide)) rfl (h.mem_eq (by decide))
    (h.free_eq (by decide)) (h.records_eq (by decide) (by decide)) (h.recent_eq (by decide))
    (h.trackers_eq (by decide)) (h.register_eq (by decide)) (h.groups_eq (by decide))
    (h.port_eq (by decide) (by decide)) (h.notices_eq (by decide)) (h.reportSince_eq (by decide))

end Sys2Proof.Machine
end

section
/-! Transfers and queries of lines (10.4, 10.6), and the orders LINE-IN, TEST-STOP and INSERT-ERROR (01.6). -/

namespace Sys2Proof.Machine

section
variable (s : Part) (l k : LineNo)

/-- A transfer, a query and their orders change supervision states and the send list alone. -/
theorem transfer_supervises : Act (· ∈ [.unit, .plane, .recog, .sched, .sup, .list]) s (s.transfer l) :=
  transfer_act (by decide) (by decide) l .refl

theorem line_transfer_ne (h : k ≠ l) : (s.transfer l).line k = s.line k := by
  simp only [Part.transfer, addRequest_line]
  rw [line_setCond_ne _ _ _ _ _ h, line_setCond_ne _ _ _ _ _ h, line_updSup_ne _ _ _ _ h]

theorem requestOf_report_transfer_ne (h : k ≠ l) : (s.transfer l).requestOf (.report k) = s.requestOf (.report k) := by
  rw [Part.transfer, requestOf_addRequest_ne _ _ _ (by simpa [reportRequest] using h.symm),
    requestOf_setCond_ne _ _ _ _ (by simp), requestOf_setCond_ne _ _ _ _ (by simp)]
  rfl

theorem transfer_transferred : Transferred s (s.transfer l) l := by
  refine ⟨by simp [Part.transfer], by simp [Part.transfer], by simp [Part.transfer], by simp [Part.transfer], ?_, ?_,
    hasRequest_addRequest_self _ (reportRequest l), fun c h1 h2 => ?_, ?_, ?_⟩
  · simp [Part.transfer, cond_setCond]
  · simp [Part.transfer]
  · rw [Part.transfer, addRequest_cond, cond_setCond_ne _ _ _ _ _ h2, cond_setCond_ne _ _ _ _ _ h1]
    simp [Part.cond]
  · exact line_ext (by simp [Part.transfer]) (by simp [Part.transfer]) (by simp [Part.transfer])
      (by simp [Part.transfer]) (by simp [Part.transfer]) rfl
  · have rest := (sup_line_setCond _ l l .degraded (decide ((s.cfg l).degraded < (s.line l).sup.counter))).trans
      (sup_line_setCond (s.updSup l fun x =>
        { x with snapshot := x.counter, unreported := true, lateSnapshot := true, counter := 0 }) l l .countFull false)
    rw [unflagged_eq_iff, sup_updSup] at rest
    rw [Part.transfer, addRequest_line]
    let y := (s.line l).sup
    exact congrArg (fun w : Supervision => { w with
      snapshot := y.snapshot, counter := y.counter, unreported := y.unreported, lateSnapshot := y.lateSnapshot,
      levels := y.levels, changed := y.changed }) rest

theorem queryLine_supervises (clear : Bool) :
    Act (· ∈ [.unit, .plane, .recog, .sched, .sup, .list]) s (s.queryLine l clear) :=
  queryLine_act (by decide) (by decide) l clear .refl

theorem line_queryLine (clear : Bool) : (s.queryLine l clear).line l = { s.line l with sup := { (s.line l).sup with
    query := true, clear := (s.line l).sup.clear || clear, lateQuery := true,
    lateClear := (s.line l).sup.lateClear || clear } } := by
  rw [Part.queryLine, addRequest_line, Part.updSup, line_updLine_self]

theorem line_queryLine_ne (clear : Bool) (h : k ≠ l) : (s.queryLine l clear).line k = s.line k := by
  rw [Part.queryLine, addRequest_line, line_updSup_ne _ _ _ _ h]

theorem requestOf_report_queryLine_ne (clear : Bool) (h : k ≠ l) :
    (s.queryLine l clear).requestOf (.report k) = s.requestOf (.report k) := by
  rw [Part.queryLine, requestOf_addRequest_ne _ _ _ (by simpa [reportRequest] using h.symm)]
  rfl

theorem hasRequest_queryLine (clear : Bool) : (s.queryLine l clear).hasRequest (.report l) = true :=
  hasRequest_addRequest_self _ (reportRequest l)

theorem requestOf_queryLine (clear : Bool) (h : s.hasRequest (.report l) = false) :
    (s.queryLine l clear).requestOf (.report l) = some (reportRequest l) :=
  requestOf_addRequest_self _ (reportRequest l) h

end

/-- A line and its report request. -/
def Part.reportView (s : Part) (l : LineNo) : Line × Option Request := (s.line l, s.requestOf (.report l))

/-- Supervision acts reached from `s`. -/
abbrev Supervised (s t : Part) : Prop := Act (· ∈ [.unit, .plane, .recog, .sched, .sup, .list]) s t

section
variable {s t u v : Part} {l : LineNo}

theorem reportView_eq_iff : t.reportView l = u.reportView l ↔
    t.line l = u.line l ∧ t.requestOf (.report l) = u.requestOf (.report l) := by simp [Part.reportView]

theorem hasRequest_congr {o : Owner} (h : t.requestOf o = u.requestOf o) : t.hasRequest o = u.hasRequest o := by
  rw [Part.hasRequest, h, Part.hasRequest]

/-- A transfer is a matter of the line and its report request alone. -/
theorem Transferred.of_views (h : Transferred u v l) (hcfg : u.cfg l = s.cfg l) (hu : u.reportView l = s.reportView l)
    (ht : t.reportView l = v.reportView l) : Transferred s t l := by
  obtain ⟨hul, -⟩ := reportView_eq_iff.mp hu
  obtain ⟨htl, htq⟩ := reportView_eq_iff.mp ht
  unfold Transferred Part.cond at *
  rw [htl, hasRequest_congr htq, ← hul, ← hcfg]
  exact h

end

/-! ### Transfers repeated (R200) -/

section
variable (g : Part → LineNo → Bool) (hg : ∀ {s t : Part}, Supervised s t → ∀ l, g t l = g s l)
include hg

/-- Every line named that `g` admits transfers its counter, and every other line stays. -/
theorem transferred_foldl {s t : Part} {ls : List LineNo} (hn : ls.Nodup)
    (ht : t = ls.foldl (fun s l => if g s l then s.transfer l else s) s) :
    Supervised s t ∧ (∀ l ∈ ls, g s l = true → Transferred s t l) ∧
      ∀ l, l ∉ ls ∨ g s l = false → t.line l = s.line l := by
  subst ht
  have keeps (l : LineNo) (u : Part) (h : Supervised s u) :
      Supervised s (if g u l then u.transfer l else u) := by
    split
    · exact h.trans (transfer_supervises u l)
    · exact h
  have other (k l : LineNo) (u : Part) (h : l ≠ k) :
      (if g u l then u.transfer l else u).reportView k = u.reportView k := by
    split
    · rw [reportView_eq_iff]
      exact ⟨line_transfer_ne u l k h.symm, requestOf_report_transfer_ne u l k h.symm⟩
    · rfl
  refine ⟨invariant_foldl keeps ls .refl, fun l hl ha => ?_, fun l hl => ?_⟩
  · obtain ⟨u, hu, hus, htu⟩ := view_foldl_of_mem (p := fun t => t.reportView l) (other l) keeps hn hl .refl
    rw [hg hu l, if_pos ha] at htu
    exact (transfer_transferred u l).of_views (hu.cfg_eq l) hus htu
  · by_cases hm : l ∈ ls
    · obtain ⟨u, hu, hus, htu⟩ := view_foldl_of_mem (p := fun t => t.reportView l) (other l) keeps hn hm .refl
      have ha : ¬g s l = true := by simpa [hm] using hl
      rw [hg hu l, if_neg ha] at htu
      exact (reportView_eq_iff.mp (htu.trans hus)).1
    · exact (reportView_eq_iff.mp (view_foldl_of_not_mem (p := fun t => t.reportView l) (other l) ls hm s)).1

end

/-! ### Queries (R205) -/

theorem queried_foldl {s t : Part} {clear : Bool} {ls : List LineNo} (hn : ls.Nodup)
    (ht : t = ls.foldl (fun s l => s.takeQuery l clear) s) :
    Supervised s t ∧
      (∀ l ∈ ls, s.active l = true →
        t.hasRequest (.report l) = true ∧
        (s.hasRequest (.report l) = false → t.requestOf (.report l) = some (reportRequest l)) ∧
        t.line l = { s.line l with sup := { (s.line l).sup with
          query := true, clear := (s.line l).sup.clear || clear, lateQuery := true,
          lateClear := (s.line l).sup.lateClear || clear } }) ∧
      ∀ l, l ∉ ls ∨ s.active l = false → t.line l = s.line l := by
  subst ht
  have keeps (l : LineNo) (u : Part) (h : Supervised s u) : Supervised s (u.takeQuery l clear) := by
    unfold Part.takeQuery
    split
    · exact h.trans (queryLine_supervises u l clear)
    · exact h
  have other (k l : LineNo) (u : Part) (h : l ≠ k) : (u.takeQuery l clear).reportView k = u.reportView k := by
    unfold Part.takeQuery
    split
    · rw [reportView_eq_iff]
      exact ⟨line_queryLine_ne u l k clear h.symm, requestOf_report_queryLine_ne u l k clear h.symm⟩
    · rfl
  refine ⟨invariant_foldl keeps ls .refl, fun l hl ha => ?_, fun l hl => ?_⟩
  · obtain ⟨u, hu, hus, htu⟩ := view_foldl_of_mem (p := fun t => t.reportView l) (other l) keeps hn hl .refl
    rw [Part.takeQuery, hu.active_eq, if_pos ha] at htu
    obtain ⟨hul, huq⟩ := reportView_eq_iff.mp hus
    obtain ⟨htl, htq⟩ := reportView_eq_iff.mp htu
    refine ⟨?_, fun hq => ?_, ?_⟩
    · rw [hasRequest_congr htq, hasRequest_queryLine]
    · rw [htq, requestOf_queryLine u l clear (by rw [hasRequest_congr huq, hq])]
    · rw [htl, line_queryLine, hul]
  · by_cases hm : l ∈ ls
    · obtain ⟨u, hu, hus, htu⟩ := view_foldl_of_mem (p := fun t => t.reportView l) (other l) keeps hn hm .refl
      have ha : ¬s.active l = true := by simpa [hm] using hl
      rw [Part.takeQuery, hu.active_eq, if_neg ha] at htu
      exact (reportView_eq_iff.mp (htu.trans hus)).1
    · exact (reportView_eq_iff.mp (view_foldl_of_not_mem (p := fun t => t.reportView l) (other l) ls hm s)).1

theorem reportPeriodExpiry_mem_dueStation_iff {s : Part} {since : Nat} (hl : s.loader = .running)
    (hs : s.reportSince = some since) : Instr.reportPeriodExpiry ∈ s.dueStation ↔ since + 120000000 ≤ s.now := by
  simp [Part.dueStation, mem_dueOf_iff, hl, hs, Config.seconds]

theorem exec_reportPeriodExpiry (s : State) :
    exec .reportPeriodExpiry s = .next { s with toPart := s.toPart.reportPeriod.serveBus } := by rfl

theorem reportPeriod_eq {s : Part} (hl : s.loader = .running) : s.reportPeriod =
    allLines.foldl (fun s l => if s.active l && (s.cfg l).auto then s.transfer l else s)
      { s with reportSince := some s.now } := by
  rw [Part.reportPeriod, if_pos hl]; rfl

/-- Settles O37, by the transfer and the query of one line, repeated. -/
theorem countsAndQueriesTaken : Obligations.CountsAndQueriesTaken := by
  intro s
  refine ⟨fun hl => ⟨fun since hs => reportPeriodExpiry_mem_dueStation_iff hl hs, _, exec_reportPeriodExpiry s, ?_⟩,
    fun o ht => ⟨fun hs => ⟨_, exec_countTransfer ht hs, ?_⟩, fun clear hs => ?_⟩⟩
  · obtain ⟨hact, hin, hout⟩ := transferred_foldl (fun s l => s.active l && (s.cfg l).auto)
      (fun h l => by rw [h.active_eq, h.cfg_eq]) (by decide : allLines.Nodup) (reportPeriod_eq hl)
    refine ⟨hact.reportSince_eq (by decide), fun l ha hc => ?_, fun l h => ?_, ?_⟩
    · exact hin l (mem_allLines l) (Bool.and_eq_true_iff.mpr ⟨ha, hc⟩)
    · exact hout l (.inr (Bool.and_eq_false_iff.mpr h))
    · exact congrArg (fun t : Part => { t with reportSince := s.reportSince }) hact.rest_of_lines
  · obtain ⟨hact, hin, hout⟩ := transferred_foldl (fun s l => s.active l) (fun h l => h.active_eq l)
      (nodup_orderLines (o := o)) (onLines_eq s.toPart.heard o fun l t => t.countTransfer l)
    exact ⟨hin, fun l h => hout l h,
      congrArg (fun t : Part => { t with port := s.port, hearings := s.hearings }) hact.rest_of_lines⟩
  · obtain ⟨hact, hin, hout⟩ := queried_foldl (nodup_orderLines (o := o))
      (onLines_eq s.toPart.heard o fun l t => t.takeQuery l clear)
    refine ⟨_, ?_, hin, fun l h => hout l h,
      congrArg (fun t : Part => { t with port := s.port, hearings := s.hearings }) hact.rest_of_lines⟩
    cases clear with
    | false => exact exec_query ht
    | true => exact exec_queryAndClear ht (hs rfl)

end Sys2Proof.Machine
end

section
/-! The orders LINE-IN, TEST-STOP and INSERT-ERROR (01.6, 10.3). -/

namespace Sys2Proof.Machine

/-- An operation on one line each, repeated over lines. -/
theorem lines_foldl {K : Kind → Prop} {f : LineNo → Part → Part} {s t : Part} {ls : List LineNo} (hn : ls.Nodup)
    (hact : ∀ l s, Act K s (f l s)) (hne : ∀ l s k, k ≠ l → (f l s).line k = s.line k)
    (ht : t = ls.foldl (fun s l => f l s) s) :
    Act K s t ∧ (∀ l ∈ ls, ∃ u, Act K s u ∧ u.line l = s.line l ∧ t.line l = (f l u).line l) ∧
      ∀ l, l ∉ ls → t.line l = s.line l := by
  subst ht
  have keeps (l : LineNo) (u : Part) (h : Act K s u) : Act K s (f l u) := h.trans (hact l u)
  refine ⟨invariant_foldl keeps ls .refl, fun l hl => ?_, fun l hl => ?_⟩
  · exact view_foldl_of_mem (p := fun t => t.line l) (fun k u h => hne k u l h.symm) keeps hn hl .refl
  · exact view_foldl_of_not_mem (p := fun t => t.line l) (fun k u h => hne k u l h.symm) ls hl s

section
variable (s : Part) (l k : LineNo)

/-- The mark run of line `l` as its entry to IDLE starts it (R14). -/
def Part.markRun (s : Part) (l : LineNo) : Option Nat := if s.mark l then some s.now else none

theorem moveLine_eq (st : LineState) : s.moveLine l st = (s.updUnit l fun x => { x with state := st, resend := [] }).updSup l
    fun x => { x with loopUpRun := 0, loopDownRun := 0 } := rfl

theorem restartMarkRun_eq : s.restartMarkRun l = s.updUnit l fun x => { x with markSince := s.markRun l } := rfl

/-- The changes that move a line without an edge of a condition. -/
theorem lineIn_moves : Act (· ∈ [.unit, .plane, .recog, .sched, .sup]) s (s.lineIn l) := by
  unfold Part.lineIn
  split
  · rw [restartMarkRun_eq, moveLine_eq]
    exact .unit _ _ (by decide) (.plane _ _ (by decide) (.sup _ _ (fun _ h => h) (by decide)
      (.unit _ _ (by decide) .refl)))
  · exact .refl

theorem line_lineIn_ne (h : k ≠ l) : (s.lineIn l).line k = s.line k := by
  unfold Part.lineIn
  split
  · rw [restartMarkRun_eq, moveLine_eq, line_updUnit_ne _ _ _ _ h, line_setPlane_ne _ _ _ _ h,
      line_updSup_ne _ _ _ _ h, line_updUnit_ne _ _ _ _ h]
  · rfl

theorem line_lineIn (ha : s.active l = true) (ho : (s.line l).unit.state = .outOfService) :
    (s.lineIn l).line l = { s.line l with
      plane := .ltrs
      unit := { (s.line l).unit with state := .idle, resend := [], markSince := s.markRun l }
      sup := { (s.line l).sup with loopUpRun := 0, loopDownRun := 0 } } := by
  have hif : (s.active l && (s.line l).unit.state == .outOfService) = true := by simp [ha, ho]
  rw [Part.lineIn, if_pos hif, restartMarkRun_eq, moveLine_eq]
  exact line_ext (by simp; rfl) (by simp) (by simp) (by simp) (by simp) (by simp)

theorem lineIn_of_other (h : s.active l = false ∨ (s.line l).unit.state ≠ .outOfService) : s.lineIn l = s := by
  have hif : ¬(s.active l && (s.line l).unit.state == .outOfService) = true := by
    rcases h with h | h <;> simp [h]
  rw [Part.lineIn, if_neg hif]

theorem insertError_moves : Act (· ∈ [.unit, .plane, .recog, .sched, .sup]) s (s.insertError l) := by
  unfold Part.insertError
  split
  · exact .sup _ _ (fun _ h => h) (by decide) .refl
  · exact .refl

theorem line_insertError_ne (h : k ≠ l) : (s.insertError l).line k = s.line k := by
  unfold Part.insertError
  split
  · exact line_updSup_ne _ _ _ _ h
  · rfl

theorem line_insertError (ha : s.active l = true) (ht : (s.line l).unit.state = .test)
    (hs : (s.cfg l).mode.sends = true) : (s.insertError l).line l = { s.line l with
      sup := { (s.line l).sup with gen := { (s.line l).sup.gen with insert := true } } } := by
  have hif : (s.active l && (s.line l).unit.state == .test && (s.cfg l).mode.sends) = true := by simp [ha, ht, hs]
  rw [Part.insertError, if_pos hif, Part.updSup, line_updLine_self]

theorem insertError_of_other (h : s.active l = false ∨ (s.line l).unit.state ≠ .test ∨
    (s.cfg l).mode.sends = false) : s.insertError l = s := by
  have hif : ¬(s.active l && (s.line l).unit.state == .test && (s.cfg l).mode.sends) = true := by
    rcases h with h | h | h <;> simp [h]
  rw [Part.insertError, if_neg hif]

/-! ### A line leaving LOOP or TEST (R194, R198) -/

theorem endTest_eq : s.endTest l = (s.updSup l fun x =>
    { x with gen := { x.gen with insert := false }, chk := x.chk.out }).setCond l .testSync false := by
  simp only [Part.endTest, Part.checkerOut, Part.updSup, Part.updLine, Part.line, vector_get_set_self, Vector.set_set]

theorem leaveFor_of_test (st : LineState) (h : (s.line l).unit.state = .test) :
    s.leaveFor l st = (s.moveLine l st).endTest l := by simp [Part.leaveFor, h]

theorem leaveFor_of_loop (st : LineState) (h : (s.line l).unit.state = .loop) :
    s.leaveFor l st = (s.moveLine l st).setCond l .loop false := by simp [Part.leaveFor, h]

theorem leaveFor_of_other (st : LineState) (h : (s.line l).unit.state ≠ .loop) (h' : (s.line l).unit.state ≠ .test) :
    s.leaveFor l st = s.moveLine l st := by
  unfold Part.leaveFor
  split <;> simp_all

@[simp] theorem markRun_moveLine (st : LineState) : (s.moveLine k st).markRun l = s.markRun l := rfl
@[simp] theorem markRun_updSup (f) : (s.updSup k f).markRun l = s.markRun l := rfl
@[simp] theorem markRun_updUnit (f) : (s.updUnit k f).markRun l = s.markRun l := rfl
@[simp] theorem markRun_setCond (c : Condition) (b : Bool) : (s.setCond k c b).markRun l = s.markRun l := by
  simp [Part.markRun]

theorem testStop_eq (ha : s.active l = true) (ht : (s.line l).unit.state = .test) :
    s.testStop l = ((s.moveLine l .idle).endTest l).updUnit l fun x => { x with
      markSince := s.markRun l
      out := match x.out with
        | some o => if o.source = .generator then none else some o
        | none => none } := by
  have hif : (s.active l && (s.line l).unit.state == .test) = true := by simp [ha, ht]
  rw [Part.testStop, if_pos hif, leaveFor_of_test s l _ ht, restartMarkRun_eq, updUnit_updUnit]
  refine updUnit_congr ?_
  have hmark : ∀ f, (((s.moveLine l .idle).endTest l).updUnit l f).markRun l = s.markRun l := fun f => by
    rw [endTest_eq]; simp
  rw [hmark]
  cases ho : (((s.moveLine l .idle).endTest l).line l).unit.out with
  | none => simp [ho]
  | some o => by_cases hg : o.source = .generator <;> simp [ho, hg]

theorem testStop_of_other (h : s.active l = false ∨ (s.line l).unit.state ≠ .test) : s.testStop l = s := by
  have hif : ¬(s.active l && (s.line l).unit.state == .test) = true := by rcases h with h | h <;> simp [h]
  rw [Part.testStop, if_neg hif]

theorem testStop_moves : Act (· ∈ [.unit, .plane, .recog, .sched, .sup, .list]) s (s.testStop l) := by
  by_cases h : s.active l = true ∧ (s.line l).unit.state = .test
  · rw [testStop_eq s l h.1 h.2, endTest_eq, moveLine_eq]
    exact .unit _ _ (by decide) (setCond_act (by decide) (by decide) _ _ _ (.sup _ _ (fun _ h => h) (by decide)
      (.sup _ _ (fun _ h => h) (by decide) (.unit _ _ (by decide) .refl))))
  · rw [testStop_of_other s l (by simpa [imp_iff_not_or] using h)]
    exact .refl

theorem line_testStop_ne (h : k ≠ l) : (s.testStop l).line k = s.line k := by
  by_cases ht : s.active l = true ∧ (s.line l).unit.state = .test
  · rw [testStop_eq s l ht.1 ht.2, endTest_eq, moveLine_eq, line_updUnit_ne _ _ _ _ h, line_setCond_ne _ _ _ _ _ h,
      line_updSup_ne _ _ _ _ h, line_updSup_ne _ _ _ _ h, line_updUnit_ne _ _ _ _ h]
  · rw [testStop_of_other s l (by simpa [imp_iff_not_or] using ht)]

end

/-- Settles O54, by what each of the three orders does to one line. -/
theorem lineInTestStopInsertError : Obligations.LineInTestStopInsertError := by
  intro o s ht hs
  refine ⟨⟨_, exec_lineIn ht hs, ?_⟩, ⟨_, exec_testStop ht hs, ?_⟩, _, exec_insertError ht hs, ?_⟩
  · obtain ⟨hact, hin, hout⟩ := lines_foldl (nodup_orderLines (o := o)) (fun l s => lineIn_moves s l)
      (fun l s k h => line_lineIn_ne s l k h) (onLines_eq s.toPart.heard o fun l t => t.lineIn l)
    refine ⟨fun l hl ha hx => ?_, fun l hl => ?_, hact.rest_of_lines_only⟩
    · obtain ⟨u, hu, hus, htu⟩ := hin l hl
      have hmark : u.markRun l = if s.mark l then some s.now else none := by
        rw [Part.markRun, Part.mark, hu.rx_eq (by decide), hu.now_eq]; rfl
      rw [htu, line_lineIn u l (by rw [hu.active_eq]; exact ha) (by rw [hus]; exact hx), hus, hmark]
      rfl
    · by_cases hm : names o l
      · obtain ⟨u, hu, hus, htu⟩ := hin l hm
        rw [htu, lineIn_of_other, hus]; · rfl
        rw [hu.active_eq, hus]
        exact hl.resolve_left (not_not.mpr hm)
      · exact hout l hm
  · obtain ⟨hact, hin, hout⟩ := lines_foldl (nodup_orderLines (o := o)) (fun l s => testStop_moves s l)
      (fun l s k h => line_testStop_ne s l k h) (onLines_eq s.toPart.heard o fun l t => t.testStop l)
    refine ⟨fun l hl ha hx => ?_, fun l hl => ?_,
      congrArg (fun t : Part => { t with port := s.port, hearings := s.hearings }) hact.rest_of_lines⟩
    · obtain ⟨u, hu, hus, htu⟩ := hin l hl
      have hmark : u.markRun l = if s.mark l then some s.now else none := by
        rw [Part.markRun, Part.mark, hu.rx_eq (by decide), hu.now_eq]; rfl
      have hus' : u.line l = s.line l := hus
      rw [Part.cond, htu, testStop_eq u l (by rw [hu.active_eq]; exact ha) (by rw [hus]; exact hx), endTest_eq,
        moveLine_eq, hmark, ← hus']
      refine ⟨by simp <;> rfl, by simp, by simp [Checker.out], by simp [Checker.out], by simp [Checker.out], ?_, ?_⟩
      · rw [sup_line_updUnit]
        exact cond_setCond_self _ _ _ _
      · exact line_ext rfl (by simp) (by simp) (by simp) (by simp) rfl
    · by_cases hm : names o l
      · obtain ⟨u, hu, hus, htu⟩ := hin l hm
        rw [htu, testStop_of_other, hus]; · rfl
        rw [hu.active_eq, hus]
        exact hl.resolve_left (not_not.mpr hm)
      · exact hout l hm
  · obtain ⟨hact, hin, hout⟩ := lines_foldl (nodup_orderLines (o := o)) (fun l s => insertError_moves s l)
      (fun l s k h => line_insertError_ne s l k h) (onLines_eq s.toPart.heard o fun l t => t.insertError l)
    refine ⟨fun l hl ha hx hm => ?_, fun l hl => ?_, hact.rest_of_lines_only⟩
    · obtain ⟨u, hu, hus, htu⟩ := hin l hl
      rw [htu, line_insertError u l (by rw [hu.active_eq]; exact ha) (by rw [hus]; exact hx)
        (by rw [hu.cfg_eq]; exact hm), hus]
      rfl
    · by_cases hm : names o l
      · obtain ⟨u, hu, hus, htu⟩ := hin l hm
        rw [htu, insertError_of_other, hus]; · rfl
        rw [hu.active_eq, hu.cfg_eq, hus]
        exact hl.resolve_left (not_not.mpr hm)
      · exact hout l hm

end Sys2Proof.Machine
end

section
/-! The port's reception and its judgement of a frame (09.1, 09.2). -/

namespace Sys2Proof.Machine

/-! ### The check byte (R176, R180) -/

theorem byteSum_eq (bs : List Byte) : byteSum bs = (bs.map BitVec.toNat).sum % 256 := by
  have from_acc (n : Nat) : bs.foldl (fun n b => n + b.toNat) n = n + (bs.map BitVec.toNat).sum := by
    induction bs generalizing n with
    | nil => rfl
    | cons b bs ih => rw [List.foldl_cons, ih, List.map_cons, List.sum_cons, Nat.add_assoc]
  rw [byteSum, from_acc, Nat.zero_add]

theorem rejects_iff (bytes : List Byte) : rejects bytes = true ↔
    72 < (bytes.getD 3 0).toNat ∨ (bytes.map BitVec.toNat).sum % 256 ≠ 0 := by
  rw [rejects, byteSum_eq, Bool.or_eq_true, decide_eq_true_iff, Bool.not_eq_true', beq_eq_false_iff_ne]

/-- The bytes of a frame sum to 0. -/
theorem byteSum_frameBytes (f : Frame) : byteSum (frameBytes f) = 0 := by
  have hcheck : (frameCheckByte f).toNat = (256 - byteSum (frameUnchecked f)) % 256 := by
    rw [frameCheckByte, byteOf, BitVec.toNat_ofNat]
  rw [byteSum_eq, frameBytes, List.map_append, List.sum_append, List.map_singleton, List.sum_singleton, hcheck,
    byteSum_eq]
  omega

theorem getD_length_frameBytes (f : Frame) : (frameBytes f).getD 3 0 = byteOf f.body.payload.length := rfl

theorem rejects_frameBytes {f : Frame} (h : f.body.payload.length ≤ 72) : rejects (frameBytes f) = false := by
  have hlen : ((frameBytes f).getD 3 0).toNat = f.body.payload.length := by
    rw [getD_length_frameBytes, byteOf, BitVec.toNat_ofNat]
    omega
  simp only [rejects, hlen, byteSum_frameBytes, Bool.or_eq_false_iff, decide_eq_false_iff_not]
  exact ⟨by omega, rfl⟩

/-! ### The commands of the port -/

section
variable {s : State} (h : s.loader ≠ .off)
include h

theorem complete_live (t : Part) : complete s (s.toPart.live t) = .next { s with toPart := t.serveBus } := by
  rw [live_of_ne_off h]; rfl

theorem done_live (t : Part) : done s (s.toPart.live t) = .next { s with toPart := t } := by
  rw [live_of_ne_off h]; rfl

theorem exec_busFree : exec .busFree s = .next { s with toPart := s.toPart.busFreed.serveBus } :=
  complete_live h _
theorem exec_startBitRead : exec .startBitRead s = .next { s with toPart := s.toPart.startBit } :=
  done_live h _
theorem exec_frameCheck (bytes : List Byte) :
    exec (.frameCheck bytes) s = .next { s with toPart := s.toPart.judgeFrame bytes } :=
  done_live h _
theorem exec_spoilSlotReadDominant :
    exec .spoilSlotReadDominant s = .next { s with toPart := s.toPart.spoiledFrame } :=
  done_live h _
theorem exec_ownFrameSpoilSlot (dominant : Bool) :
    exec (.ownFrameSpoilSlot dominant) s = .next { s with toPart := (s.toPart.ownSlot dominant).serveBus } :=
  complete_live h _
theorem exec_arbitrationLost : exec .arbitrationLost s = .next { s with toPart := s.toPart.loseArbitration } :=
  done_live h _
theorem exec_busSilentExpiry : exec .busSilentExpiry s = .next { s with toPart := s.toPart.silenceEnds.serveBus } :=
  complete_live h _

end

/-- The commands that stand for one frame heard. -/
def isHearing : Instr → Bool
  | .heardCall _ | .heardClaim _ | .heardOffer _ | .heardTextStory _ | .heardCloseStory _ | .heardWithdrawStory _
  | .heardTextCall _ | .heardCloseCall _ | .heardWithdrawCall _ | .heardNotice _ | .lineOut _ | .query _ | .rerun _
  | .stationRestart _ _ => true
  | _ => false

theorem exec_hearing {s : State} (h : s.loader ≠ .off) {c : Instr} (hc : isHearing c = true) :
    ∃ act, exec c s = .next { s with toPart := (s.toPart.hear act).serveBus } := by
  cases c with
  | heardCall _ | heardClaim _ | heardOffer _ | heardTextStory _ | heardCloseStory _ | heardWithdrawStory _
  | heardTextCall _ | heardCloseCall _ | heardWithdrawCall _ | heardNotice _ | lineOut _ | query _ | rerun _
  | stationRestart _ _ => exact ⟨_, complete_live h _⟩
  | _ => cases hc

section
variable {s : Part}

theorem deaf_iff (p : Port) : p.deaf = true ↔ p.state = .wait ∧ p.synced = false := by simp [Port.deaf]

theorem serveBus_of_not_free (h : s.port.state ≠ .free) : s.serveBus = s := by
  have hsend : ¬s.maySend = true := by simp [Part.maySend, h]
  rw [Part.serveBus, if_neg hsend]

theorem frameEnds_of_receiving (h : s.port.state = .receiving) :
    s.frameEnds = s.updPort fun p => { p with state := .wait, rejecting := false } := by
  simp [Part.frameEnds, Part.updPort, h]

theorem loseArbitration_eq {f : OwnFrame} (hd : s.port.drives = true) (ho : s.port.own = some f) :
    s.loseArbitration =
      let t := s.updPort fun p => { p with state := .receiving, rejecting := false, own := none }
      if f.removed then t else t.ownerNotSent f.owner f.frame.kind := by
  simp only [Part.loseArbitration, hd, ho]

theorem ownerNotSent_of_not_claim (o : Owner) {k : FrameKind} (h : k ≠ .claim) : s.ownerNotSent o k = s := by
  unfold Part.ownerNotSent
  split
  · exact absurd rfl h
  · rfl

theorem ownerNotSent_claim (i : Slot) : s.ownerNotSent (.record i) .claim = s.claimNotSent i := rfl

section
variable {i : Slot} {r : Record} {x : OutRecord} {c : Claim} (hr : s.record i = some r) (hb : r.body = .outbound x)
  (hm : x.claim = some c)
include hr hb hm

theorem claimNotSent_of_pending (he : c.ending = none) : s.claimNotSent i = s := by
  simp [Part.claimNotSent, outRecord_eq hr hb, hm, he]

theorem claimNotSent_of_ended (he : c.ending ≠ none) : s.claimNotSent i = s.freeRecord i := by
  simp [Part.claimNotSent, outRecord_eq hr hb, hm, Option.isSome_iff_ne_none.mpr he]

end

end

/-- Settles O38, by the state of the port. -/
theorem portReceivesAndJudges : Obligations.PortReceivesAndJudges := by
  intro s h
  refine ⟨fun hw => ?_, fun hf => ?_, fun f g o bytes hw hy c hc => ?_, fun hr => ?_, fun f hd ho => ⟨fun hn => ?_,
    fun i r x c hrem hk how hr hb hm => ⟨fun he => ?_, fun he => ?_⟩⟩, fun hr hj g => ?_, fun hr bytes =>
      ⟨fun hbad => ?_, fun h1 h2 => ?_, fun f hf => ?_, fun f g o hj c hc => ?_⟩⟩
  · rw [exec_busFree h, Part.busFreed, if_pos hw]
  · rw [exec_startBitRead h, Part.startBit, if_pos hf]
  · have deaf : s.port.deaf = true := (deaf_iff _).mpr ⟨hw, hy⟩
    have quiet : s.toPart.serveBus = s.toPart := serveBus_of_not_free (by simp [hw])
    have unheard : isHearing c = true → exec c s = .next s := fun hc => by
      obtain ⟨act, he⟩ := exec_hearing h hc
      rw [he, hear_of_deaf _ deaf, quiet]
    simp only [List.mem_cons, List.not_mem_nil, or_false] at hc
    rcases hc with rfl | rfl | rfl | hc
    · rw [exec_startBitRead h, Part.startBit, if_neg (by simp [hw, hy])]
    · rw [exec_frameCheck h, Part.judgeFrame, if_neg (by simp [hw])]
    · rw [exec_spoilSlotReadDominant h, Part.spoiledFrame, if_neg (by simp [hw])]
    · rcases hc with rfl | rfl | rfl | rfl | rfl | rfl | rfl | rfl | rfl | rfl | rfl | rfl | rfl | rfl <;>
        exact unheard rfl
  · rw [exec_spoilSlotReadDominant h, Part.spoiledFrame, if_pos hr, frameEnds_of_receiving hr]
  · rw [exec_arbitrationLost h, loseArbitration_eq hd ho]
    dsimp only
    split
    · rfl
    · next hrem => rw [ownerNotSent_of_not_claim _ (hn.resolve_left hrem)]
  · rw [exec_arbitrationLost h, loseArbitration_eq hd ho, hrem, how, hk]
    dsimp only
    rw [if_neg Bool.false_ne_true, ownerNotSent_claim, claimNotSent_of_pending (s := s.toPart.updPort _) hr hb hm he]
  · refine ⟨_, ?_, freeRecord_frees hr⟩
    rw [exec_arbitrationLost h, loseArbitration_eq hd ho, hrem, how, hk]
    dsimp only
    rw [if_neg Bool.false_ne_true, ownerNotSent_claim, claimNotSent_of_ended (s := s.toPart.updPort _) hr hb hm he]
  · have hears : s.port.deaf = false := by simp [Port.deaf, hr]
    have heard : s.toPart.hearRunning g.body (fun t => t) = s.toPart.heard := by
      simp only [Part.hearRunning, Part.hear, Part.whileRunning, hears, hj, Bool.false_eq_true, if_false, ite_self]
    have wait : s.toPart.heard.port = { s.port with state := .wait } := by
      rw [heard_eq]
      simp [hr, ← hj]
    have quiet : s.toPart.heard.serveBus = s.toPart.heard := serveBus_of_not_free (by simp [wait])
    have result : exec (.heardNotice g) s =
        .next { s with toPart := (s.toPart.hearRunning g.body fun t => t).serveBus } := complete_live h _
    rw [result, heard, quiet, heard_eq]
    simp [hr, ← hj]
  · rw [exec_frameCheck h, Part.judgeFrame, if_pos hr, (rejects_iff bytes).mpr hbad]
  · have pass : rejects bytes = false := by
      rw [← Bool.not_eq_true, rejects_iff]
      omega
    rw [exec_frameCheck h, Part.judgeFrame, if_pos hr, pass]
  · rw [exec_frameCheck h, Part.judgeFrame, if_pos hr, rejects_frameBytes hf]
  · have hears : s.port.deaf = false := by simp [Port.deaf, hr]
    have spoiled : isHearing c = true → exec c s = .next { s with toPart :=
        (s.toPart.updPort fun p => { p with state := .wait, rejecting := false }).serveBus } := fun hc => by
      obtain ⟨act, he⟩ := exec_hearing h hc
      rw [he, hear_of_rejecting _ hears hj, frameEnds_of_receiving hr]
    simp only [List.mem_cons, List.not_mem_nil, or_false] at hc
    rcases hc with rfl | rfl | rfl | rfl | rfl | rfl | rfl | rfl | rfl | rfl | rfl | rfl | rfl <;>
      exact spoiled rfl

end Sys2Proof.Machine
end

section
/-! The own frame of the port: the drive pin, spoiled frames and the silence after eight of them (09.1 to 09.3). -/

namespace Sys2Proof.Machine

/-! ### The port beside its send list -/

/-- The port's items but for the send list. -/
def Port.unlisted (p : Port) : Port := { p with sendList := [] }

theorem unlisted_eq_iff {p q : Port} : p.unlisted = q.unlisted ↔ p = { q with sendList := p.sendList } := by
  cases p; cases q; simp [Port.unlisted]

section
variable (s : Part)

theorem unlisted_addRequest (r : Request) : (s.addRequest r).port.unlisted = s.port.unlisted := by
  rw [addRequest_eq]; rfl

theorem unlisted_setStationCond (c : StationCondition) (b : Bool) :
    (s.setStationCond c b).port.unlisted = s.port.unlisted :=
  setStationCond_congr (p := fun t => t.port.unlisted) s c b (fun _ _ _ => rfl) fun _ _ => unlisted_addRequest _ _

theorem unlisted_judgeStore : s.judgeStore.port.unlisted = s.port.unlisted :=
  judgeStore_congr (p := fun t => t.port.unlisted) (fun _ _ _ => rfl) (fun _ _ => unlisted_addRequest _ _) s

theorem mem_sendList_addRequest {q : Request} (r : Request) (h : q ∈ s.port.sendList) :
    q ∈ (s.addRequest r).port.sendList := by
  rw [addRequest_eq]
  dsimp only
  split
  · exact h
  · exact mem_insertRequest.mpr (.inr h)

theorem mem_sendList_setStationCond {q : Request} (c : StationCondition) (b : Bool) (h : q ∈ s.port.sendList) :
    q ∈ (s.setStationCond c b).port.sendList := by
  unfold Part.setStationCond
  split
  · exact h
  · split
    · exact mem_sendList_addRequest _ _ h
    · exact h

end

/-! ### The drive pin (R176, R178, R180, R184) -/

theorem length_byteBits (b : Byte) : (byteBits b).length = 8 := by simp [byteBits]

theorem length_flatMap_byteBits (bs : List Byte) : (bs.flatMap byteBits).length = 8 * bs.length := by
  induction bs with
  | nil => rfl
  | cons b bs ih => rw [List.flatMap_cons, List.length_append, length_byteBits, ih, List.length_cons]; omega

theorem length_frameBits (f : Frame) : (frameBits f).length = 41 + 8 * f.body.payload.length := by
  rw [frameBits, List.length_cons, length_flatMap_byteBits, frameBytes, frameUnchecked, frameHeader]
  simp only [List.length_append, List.length_cons, List.length_nil]
  omega

/-- A byte of a number, bit by bit. -/
theorem getLsbD_byteOf (n j : Nat) (hj : j < 8) (m : Nat) :
    (byteOf (n / 2 ^ m)).getLsbD j = n.testBit (m + j) := by
  rw [byteOf, BitVec.getLsbD_ofNat, Nat.testBit_div_two_pow, Nat.add_comm]
  simp [hj]

/-- The 24 bits behind the start bit are the arbitration field, most significant first. -/
theorem frameBits_field (f : Frame) (k : Nat) (hk : k < 24) :
    (frameBits f)[k + 1]? = some ((BitVec.ofNat 24 (frameValue f)).getLsbD (23 - k)) := by
  have split : frameBytes f = byteOf (frameValue f / 2 ^ 16) :: byteOf (frameValue f / 2 ^ 8) ::
      byteOf (frameValue f / 2 ^ 0) :: (byteOf f.body.payload.length :: f.body.payload ++ [frameCheckByte f]) := by
    simp [frameBytes, frameUnchecked, frameHeader]
  have bit (m j : Nat) (hj : j < 8) : (byteBits (byteOf (frameValue f / 2 ^ m)))[j]? =
      some ((frameValue f).testBit (m + (7 - j))) := by
    rw [byteBits, List.getElem?_map, List.getElem?_range hj, Option.map_some, getLsbD_byteOf _ _ (by omega)]
  have field : (BitVec.ofNat 24 (frameValue f)).getLsbD (23 - k) = (frameValue f).testBit (23 - k) := by
    rw [BitVec.getLsbD_ofNat]
    simp [show 23 - k < 24 by omega]
  rw [field, frameBits, List.getElem?_cons_succ, split, List.flatMap_cons, List.flatMap_cons, List.flatMap_cons]
  rcases Nat.lt_or_ge k 8 with h | h
  · rw [List.getElem?_append_left (by rw [length_byteBits]; exact h), bit _ _ h]
    congr 2; omega
  rw [List.getElem?_append_right (by rw [length_byteBits]; exact h), length_byteBits]
  rcases Nat.lt_or_ge k 16 with h' | h'
  · rw [List.getElem?_append_left (by rw [length_byteBits]; omega), bit _ _ (by omega)]
    congr 2; omega
  rw [List.getElem?_append_right (by rw [length_byteBits]; omega), length_byteBits,
    List.getElem?_append_left (by rw [length_byteBits]; omega), bit _ _ (by omega)]
  congr 2; omega

section
variable {s : Part}

theorem cbd_of_receiving (h : s.port.state = .receiving) : s.cbd = s.port.rejecting := by
  simp [Part.cbd, Port.drives, Port.drivesSpoil, h]

section
variable {f : OwnFrame} (hd : s.port.drives = true) (ho : s.port.own = some f)
include hd ho

theorem drivesSpoil_of_drives : s.port.drivesSpoil = f.removed := by
  have hr : s.port.state ≠ .receiving := by
    rcases (drives_iff _).mp hd with h | h <;> simp [h]
  simp [Port.drivesSpoil, hd, ho, hr]

theorem cbd_of_bit {b : Bool} (h : (frameBits f.frame)[(s.now - f.began) / 32]? = some b) : s.cbd = !b := by
  simp [Part.cbd, hd, ho, Config.bitTime, h]

theorem cbd_of_slot (h : (frameBits f.frame)[(s.now - f.began) / 32]? = none) : s.cbd = f.removed := by
  have spoil := drivesSpoil_of_drives hd ho
  simp [Part.cbd, hd, ho, Config.bitTime, h, spoil]

end

/-! ### The spoil slot (R179, R184, R185) -/

theorem ownSlot_of_removed {f : OwnFrame} (hd : s.port.drives = true) (ho : s.port.own = some f)
    (hr : f.removed = true) (b : Bool) :
    s.ownSlot b = s.updPort fun p => { p with state := .wait, own := none, rejecting := false } := by
  simp only [Part.ownSlot, hd, ho, hr, if_true]

theorem ownSlot_of_spoiled {f : OwnFrame} (hd : s.port.drives = true) (ho : s.port.own = some f)
    (hr : f.removed = false) :
    s.ownSlot true = ((s.updPort fun p => { p with state := .wait, own := none, rejecting := false }).countSpoil
      f.owner).ownerNotSent f.owner f.frame.kind := by
  simp only [Part.ownSlot, hd, ho, hr, if_true, Bool.false_eq_true, if_false]

theorem countSpoil_of_few {o : Owner} (h : s.port.spoilCount < 7) :
    s.countSpoil o = s.updPort fun p => { p with sticky := some o, spoilCount := p.spoilCount + 1 } := by
  have hn : satSucc 8 s.port.spoilCount = s.port.spoilCount + 1 := by unfold satSucc; omega
  rw [Part.countSpoil, hn, if_neg (by omega)]
  rfl

theorem countSpoil_of_seven {o : Owner} (h : 7 ≤ s.port.spoilCount) :
    s.countSpoil o = ((s.updPort fun p => { p with sticky := some o, spoilCount := 8 }).setStationCond .busSilent
      true).updPort fun p => { p with silentSince := some s.now } := by
  have hn : satSucc 8 s.port.spoilCount = 8 := by unfold satSucc; omega
  rw [Part.countSpoil, hn]
  rfl

/-- The port after one more spoiled frame, but for its send list. -/
theorem unlisted_countSpoil (o : Owner) : (s.countSpoil o).port.unlisted =
    { s.port with
      sendList := [], sticky := some o, spoilCount := min 8 (s.port.spoilCount + 1)
      silentSince := if 7 ≤ s.port.spoilCount then some s.now else s.port.silentSince } := by
  rcases Nat.lt_or_ge s.port.spoilCount 7 with h | h
  · rw [countSpoil_of_few h, if_neg (by omega), min_eq_right (by omega)]; rfl
  · rw [countSpoil_of_seven h, if_pos h, min_eq_left (by omega)]
    have same := unlisted_setStationCond
      (s.updPort fun p => { p with sticky := some o, spoilCount := 8 }) .busSilent true
    exact congrArg (fun p : Port => { p with silentSince := some s.now }) same

theorem countSpoil_rest (o : Owner) : { s.countSpoil o with port := s.port, notices := s.notices } = s := by
  rcases Nat.lt_or_ge s.port.spoilCount 7 with h | h
  · rw [countSpoil_of_few h]; rfl
  · rw [countSpoil_of_seven h]
    exact congrArg (fun t : Part => { t with port := s.port }) (setStationCond_rest
      (s.updPort fun p => { p with sticky := some o, spoilCount := 8 }) .busSilent true)

theorem busSilent_countSpoil {o : Owner} (h : 7 ≤ s.port.spoilCount) :
    (s.countSpoil o).stationCond .busSilent = true := by
  rw [countSpoil_of_seven h]
  exact stationCond_setStationCond (s.updPort fun p => { p with sticky := some o, spoilCount := 8 }) .busSilent
    .busSilent true

theorem mem_sendList_countSpoil {q : Request} (o : Owner) (h : q ∈ s.port.sendList) :
    q ∈ (s.countSpoil o).port.sendList := by
  rcases Nat.lt_or_ge s.port.spoilCount 7 with hn | hn
  · rw [countSpoil_of_few hn]; exact h
  · rw [countSpoil_of_seven hn]
    exact mem_sendList_setStationCond (s.updPort fun p => { p with sticky := some o, spoilCount := 8 }) _ _ h

theorem busSilentExpiry_mem_dueStation_iff {since : Nat} (h : s.port.silentSince = some since) :
    Instr.busSilentExpiry ∈ s.dueStation ↔ since + 2000000 ≤ s.now := by
  simp [Part.dueStation, mem_dueOf_iff, h, Config.seconds]

theorem silenceEnds_eq (h : s.port.silentSince.isSome = true) :
    s.silenceEnds = (((s.updPort fun p => { p with silentSince := none, spoilCount := 0 }).putStationLevel .busSilent
      false).stationChanged .busSilent).stationEvent .recovered := by
  rw [Part.silenceEnds, if_pos h]

end

/-- A part that differs from `s` by port and notices alone, written from `s`. -/
theorem eq_of_port_notices {s t : Part} (h : { t with port := s.port, notices := s.notices } = s) :
    t = { s with port := t.port, notices := t.notices } :=
  congrArg (fun u : Part => { u with port := t.port, notices := t.notices }) h

/-- What a record freed leaves depends on no item of the port or the notices. -/
theorem Frees.of_port_notices {s t u : Part} {i : Slot} {r : Record} (h : Frees u t i r)
    (hu : { u with port := s.port, notices := s.notices } = s) : Frees s t i r := by
  rw [eq_of_port_notices hu] at h
  exact h

/-- A record freed leaves the port as its request's removal does, but for the send list. -/
theorem unlisted_freeRecord {s : Part} {i : Slot} {r : Record} (hr : s.record i = some r) :
    (s.freeRecord i).port.unlisted = (s.removeRequest (.record i)).port.unlisted := by
  rw [freeRecord_eq hr, unlisted_judgeStore]; rfl

theorem busSilent_freeRecord (s : Part) (i : Slot) :
    (s.freeRecord i).stationCond .busSilent = s.stationCond .busSilent := by
  have judged (t : Part) : t.judgeStore.stationCond .busSilent = t.stationCond .busSilent := by
    unfold Part.judgeStore
    split
    · rw [stationCond_setStationCond, if_neg (by decide)]
    · split
      · rw [stationCond_setStationCond, if_neg (by decide)]
      · rfl
  cases h : s.record i with
  | none => rw [Part.freeRecord, h]
  | some r => rw [freeRecord_eq h, judged]; rfl

/-- Settles O40, by the state of the port, the spoil count and the claim of the frame. -/
theorem spoiledFramesAndSilence : Obligations.SpoiledFramesAndSilence := by
  intro s h
  refine ⟨fun hr => cbd_of_receiving hr, fun f hd ho => ⟨fun hn => ?_, fun k hk h1 h2 => ?_, fun hn => ?_⟩,
    fun f b hd ho hr => ?_, fun f hd ho hr hk => ?_, fun f i r x c hd ho hr hk how hi hb hm he => ?_, fun hs =>
      ⟨fun since => busSilentExpiry_mem_dueStation_iff, _, exec_busSilentExpiry h, ?_⟩⟩
  · have start : (s.now - f.began) / 32 = 0 := by omega
    exact cbd_of_bit hd ho (b := false) (by rw [start]; rfl)
  · have place : (s.now - f.began) / 32 = k + 1 := by omega
    exact cbd_of_bit hd ho (by rw [place]; exact frameBits_field f.frame k hk)
  · refine cbd_of_slot hd ho (List.getElem?_eq_none ?_)
    rw [length_frameBits]
    omega
  · rw [exec_ownFrameSpoilSlot h, ownSlot_of_removed hd ho hr]
  · let u := s.toPart.updPort fun p => { p with state := .wait, own := none, rejecting := false }
    have pending : (u.countSpoil f.owner).ownerNotSent f.owner f.frame.kind = u.countSpoil f.owner := by
      rcases hk with hk | ⟨i, r, x, c, how, hi, hb, hm, he⟩
      · exact ownerNotSent_of_not_claim _ hk
      · by_cases hk : f.frame.kind = .claim
        · have hrec : (u.countSpoil f.owner).record i = some r := by
            rw [eq_of_port_notices (countSpoil_rest (s := u) f.owner)]
            exact hi
          rw [how, hk, ownerNotSent_claim, ← how, claimNotSent_of_pending hrec hb hm he]
        · exact ownerNotSent_of_not_claim _ hk
    have port := unlisted_countSpoil (s := u) f.owner
    refine ⟨u.countSpoil f.owner, by rw [exec_ownFrameSpoilSlot h, ownSlot_of_spoiled hd ho hr, pending],
      (congrArg Port.state port :), (congrArg Port.own port :), (congrArg Port.rejecting port :),
      (congrArg Port.sticky port :), (congrArg Port.spoilCount port :), (congrArg Port.synced port :), fun hn => ?_, fun hn => ⟨busSilent_countSpoil hn, ?_,
        fun q hq => mem_sendList_countSpoil f.owner hq⟩, ?_⟩
    · rw [countSpoil_of_few (s := u) hn]
      exact ⟨rfl, rfl, rfl⟩
    · exact (congrArg Port.silentSince port).trans (if_pos hn)
    · exact congrArg (fun t : Part => { t with port := s.port }) (countSpoil_rest (s := u) f.owner)
  · let u := s.toPart.updPort fun p => { p with state := .wait, own := none, rejecting := false }
    have rest := countSpoil_rest (s := u) f.owner
    have hrec : (u.countSpoil f.owner).record i = some r := by
      rw [eq_of_port_notices rest]
      exact hi
    have ended : (u.countSpoil f.owner).ownerNotSent f.owner f.frame.kind = (u.countSpoil f.owner).freeRecord i := by
      rw [how, hk, ownerNotSent_claim, ← how, claimNotSent_of_ended hrec hb hm he]
    have port : ((u.countSpoil f.owner).freeRecord i).port.unlisted = _ := unlisted_freeRecord hrec
    have spoiled := unlisted_countSpoil (s := u) f.owner
    have frees : Frees u ((u.countSpoil f.owner).freeRecord i) i r := (freeRecord_frees hrec).of_port_notices rest
    refine ⟨_, by rw [exec_ownFrameSpoilSlot h, ownSlot_of_spoiled hd ho hr, ended], frees, ?_, ?_, ?_, ?_,
      fun hn => ⟨?_, ?_⟩⟩
    · exact (congrArg Port.state port).trans (congrArg Port.state spoiled)
    · refine (congrArg Port.own port).trans ?_
      have own : (u.countSpoil f.owner).port.own = none := congrArg Port.own spoiled
      simp [Part.removeRequest, Port.unlisted, own]
    · refine (congrArg Port.sticky port).trans ?_
      have sticky : (u.countSpoil f.owner).port.sticky = some (.record i) := by
        rw [← how]; exact congrArg Port.sticky spoiled
      simp [Part.removeRequest, Port.unlisted, sticky]
    · exact (congrArg Port.spoilCount port).trans (congrArg Port.spoilCount spoiled)
    · rw [busSilent_freeRecord, busSilent_countSpoil (s := u) hn]
    · have since : (u.countSpoil f.owner).port.silentSince = some u.now :=
        (congrArg Port.silentSince spoiled).trans (if_pos hn)
      exact (congrArg Port.silentSince port).trans since
  · rw [silenceEnds_eq hs]
    refine ⟨?_, ?_, ?_, hasRequest_stationEvent _ _, ?_⟩
    · rw [stationEvent_eq, addRequest_eq, stationChanged_eq, addRequest_eq]; rfl
    · rw [stationEvent_eq, addRequest_eq, stationChanged_eq, addRequest_eq]; rfl
    · rw [notices_stationEvent, notices_stationChanged]; rfl
    · rw [stationEvent_eq, addRequest_eq, stationChanged_eq, addRequest_eq]; rfl

end Sys2Proof.Machine
end

section
/-! Heard TEXT, CLOSE and WITHDRAW frames about stories (06.1, 06.4). -/

namespace Sys2Proof.Machine

/-- What the operation establishes at `k` and never undoes holds after a repetition that meets `k` once. -/
theorem foldl_establishes {ι α : Type} {f : ι → Part → Part} {p : Part → α} {k : ι}
    (hne : ∀ i s, i ≠ k → p (f i s) = p s) {R Q : Part → Prop} (hR : ∀ i s, R s → R (f i s))
    (hQ : ∀ i s, R s → Q s → Q (f i s)) {is : List ι} (hn : is.Nodup) (hk : k ∈ is) {s : Part} (hs : R s)
    (hest : ∀ u, R u → p u = p s → Q (f k u)) : Q (is.foldl (fun s i => f i s) s) := by
  obtain ⟨before, after, rfl⟩ := List.append_of_mem hk
  rw [List.nodup_append] at hn
  have hb : k ∉ before := fun h => hn.2.2 k h k (by simp) rfl
  rw [List.foldl_append, List.foldl_cons]
  have hu := invariant_foldl (f := f) hR before hs
  refine (invariant_foldl (f := f) (R := fun t => R t ∧ Q t) (fun i t ht => ⟨hR i t ht.1, hQ i t ht.1 ht.2⟩) after
    ⟨hR k _ hu, hest _ hu (view_foldl_of_not_mem hne before hb s)⟩).2

theorem forSlots_eq (s : Part) (is : List Slot) (f : Slot → Part → Part) :
    s.forSlots is f = is.foldl (fun s i => f i s) s := rfl

theorem nodup_allSlots : allSlots.Nodup := List.nodup_finRange 64

/-- The slots as a list without repetition that holds each of them: all that a repetition over them needs. -/
theorem exists_allSlots_eq : ∃ is : List Slot, is.Nodup ∧ (∀ i, i ∈ is) ∧ allSlots = is :=
  ⟨allSlots, nodup_allSlots, mem_allSlots, rfl⟩

/-- A record and its request. -/
def Part.slotView (s : Part) (i : Slot) : Option Record × Option Request := (s.record i, s.requestOf (.record i))

section
variable {s t u : Part} {i j : Slot}

theorem slotView_eq_iff : t.slotView i = s.slotView i ↔
    t.record i = s.record i ∧ t.requestOf (.record i) = s.requestOf (.record i) := by simp [Part.slotView]

theorem TakesOver.of_views {v : Part} {r : Record} {x : InRecord} {p : Peer} (h : TakesOver u v i r x p)
    (hu : u.slotView i = s.slotView i) (ht : t.slotView i = v.slotView i) : TakesOver s t i r x p := by
  obtain ⟨-, huq⟩ := slotView_eq_iff.mp hu
  obtain ⟨htr, htq⟩ := slotView_eq_iff.mp ht
  unfold TakesOver at *
  rw [htr, hasRequest_congr htq, htq, ← hasRequest_congr huq]
  exact h

end

/-! ### One standby record -/

section
variable (s : Part) (i j : Slot) (h : Handle)

theorem standsBehind_congr {t u : Part} (hr : t.record i = u.record i) :
    t.standsBehind i h = u.standsBehind i h := by
  rw [Part.standsBehind, Part.standsBehind, Part.inRecord, Part.inRecord, hr]

theorem standsBehind_iff : s.standsBehind i h = true ↔ ∃ x, s.inRecord i = some x ∧
    (x.state = .standby ∨ x.state = .standbyComplete) ∧ x.peer.map Peer.owner = some h := by
  unfold Part.standsBehind
  split
  · next x hx => simp [hx]
  · next hx => simp [hx]

/-- A record that stands by holds its owner. -/
theorem exists_peer_of_standsBehind (hs : s.standsBehind i h = true) :
    ∃ r x p, s.record i = some r ∧ r.body = .inbound x ∧ x.peer = some p := by
  obtain ⟨x, hx, -, hp⟩ := (standsBehind_iff s i h).mp hs
  obtain ⟨p, hp, -⟩ := Option.map_eq_some_iff.mp hp
  obtain ⟨r, hr, hb⟩ := Option.bind_eq_some_iff.mp hx
  refine ⟨r, x, p, hr, ?_, hp⟩
  unfold Record.inbound? at hb
  split at hb
  · next y hy => rw [hy, Option.some_inj.mp hb]
  · cases hb

theorem requestOf_freeRecord_record {j : Slot} (hj : i ≠ j) :
    (s.freeRecord j).requestOf (.record i) = s.requestOf (.record i) :=
  requestOf_freeRecord_ne s (by simpa using hj) (by simp)

theorem hasRequest_freeRecord_self (hr : (s.record i).isSome = true) :
    (s.freeRecord i).hasRequest (.record i) = false := by
  obtain ⟨r, hr⟩ := Option.isSome_iff_exists.mp hr
  exact (freeRecord_frees hr).2.2.2.2.1

theorem standbyText_records (n : Nat) : Act (· ∈ [.record]) s (s.standbyText h n i) := by
  unfold Part.standbyText
  split
  · exact updIn_act (by decide) _ _ .refl
  · exact .refl

theorem slotView_updIn_ne (f : InRecord → InRecord) (hj : j ≠ i) : (s.updIn i f).slotView j = s.slotView j :=
  slotView_eq_iff.mpr ⟨record_updRecord_ne _ _ _ _ hj, rfl⟩

theorem slotView_standbyText_ne (n : Nat) (hj : j ≠ i) : (s.standbyText h n i).slotView j = s.slotView j := by
  unfold Part.standbyText
  split
  · exact slotView_updIn_ne s i j _ hj
  · rfl

theorem requestOf_record_requestStory_ne (k : FrameKind) (hj : j ≠ i) :
    (s.requestStory i k).requestOf (.record j) = s.requestOf (.record j) := by
  unfold Part.requestStory
  split
  · exact requestOf_addRequest_ne _ _ _ (by simpa using hj.symm)
  · rfl

theorem record_requestStory (k : FrameKind) : (s.requestStory i k).record j = s.record j := by
  unfold Part.requestStory
  split
  · exact addRequest_record _ _ _
  · rfl

theorem slotView_takeover_ne (hj : j ≠ i) : (s.takeover i).slotView j = s.slotView j := by
  refine slotView_eq_iff.mpr ⟨?_, ?_⟩
  · rw [Part.takeover, record_requestStory, record_updRecord_ne _ _ _ _ hj]
    exact record_updRecord_ne _ _ _ _ hj
  · rw [Part.takeover, requestOf_record_requestStory_ne _ _ _ _ hj]; rfl

theorem takeover_takes : Act (· ∈ [.record, .list]) s (s.takeover i) :=
  requestStory_act (by decide) _ _ (.record _ _ (fun r => Record.mapIn_blocks _ r) (by decide) (updIn_act (by decide) _ _ .refl))

theorem standbyWithdraw_takes : Act (· ∈ [.record, .list]) s (s.standbyWithdraw h i) := by
  unfold Part.standbyWithdraw
  split
  · exact takeover_takes s i
  · exact .refl

theorem slotView_standbyWithdraw_ne (hj : j ≠ i) : (s.standbyWithdraw h i).slotView j = s.slotView j := by
  unfold Part.standbyWithdraw
  split
  · exact slotView_takeover_ne s i j hj
  · rfl

/-- The kinds of a record's end. -/
theorem freeRecord_ends : Act (· ∈ [.store, .list, .notices, .recog]) s (s.freeRecord i) :=
  freeRecord_act (by decide) (by decide) (by decide) i .refl

theorem standbyClose_ends : Act (· ∈ [.store, .list, .notices, .recog]) s (s.standbyClose h i) := by
  unfold Part.standbyClose
  split
  · split
    · exact .recog _ _ (by decide) (.recog _ _ (by decide) (freeRecord_ends s i))
    · exact freeRecord_ends s i
  · exact .refl

theorem slotView_freeRecord_ne (hj : j ≠ i) : (s.freeRecord i).slotView j = s.slotView j :=
  slotView_eq_iff.mpr ⟨record_freeRecord_ne s i hj, requestOf_freeRecord_record s j hj⟩

theorem slotView_standbyClose_ne (hj : j ≠ i) : (s.standbyClose h i).slotView j = s.slotView j := by
  unfold Part.standbyClose
  split
  · split
    · exact slotView_freeRecord_ne s i j hj
    · exact slotView_freeRecord_ne s i j hj
  · rfl

/-- The recognizer of line `l` is in DISCARDING with no story tied, its stall timer started now (R121). -/
def Part.discards (s : Part) (l : LineNo) : Prop :=
  (s.line l).recog.state = .discarding ∧ (s.line l).recog.tied = none ∧ (s.line l).recog.stallSince = some s.now

theorem discards_goDiscarding (l : LineNo) : (s.goDiscarding l).discards l := by
  simp [Part.discards, Part.goDiscarding]

theorem discards_standbyClose (l : LineNo) (hd : s.discards l) : (s.standbyClose h i).discards l := by
  unfold Part.standbyClose
  split
  · split
    · next m _ =>
      by_cases hm : l = m
      · subst hm
        exact discards_goDiscarding _ l
      · have line : (((s.freeTied m i).goDiscarding m).line l) = s.line l := by
          rw [Part.goDiscarding, line_updRecog_ne _ _ _ _ hm, Part.freeTied, line_updRecog_ne _ _ _ _ hm,
            freeRecord_line]
        rw [Part.discards, line]
        simpa [Part.discards, Part.goDiscarding, Part.freeTied] using hd
    · simpa [Part.discards] using hd
  · exact hd

theorem standbyClose_of_line {r : Record} {l : LineNo} (hs : s.standsBehind i h = true) (hr : s.record i = some r)
    (hl : r.line = some l) : s.standbyClose h i = (s.freeTied l i).goDiscarding l := by
  simp [Part.standbyClose, hs, hr, hl]

/-- The record that stands by is freed at the CLOSE, whether tied to a line or not. -/
theorem slotView_standbyClose_self (hs : s.standsBehind i h = true) :
    (s.standbyClose h i).slotView i = (s.freeRecord i).slotView i := by
  unfold Part.standbyClose
  rw [if_pos hs]
  split <;> rfl

end

/-! ### The frames (R111, R120 to R122) -/

theorem storyTextHeard_eq {s : Part} {f : Heard} {h : Handle} {o : Nat} {cs : List Byte}
    (hf : readText f = some (.story h, o, cs)) : s.storyTextHeard f = s.hearStoryText h (o + cs.length) := by
  rw [Part.storyTextHeard, hf]

theorem storyCloseHeard_eq {s : Part} {f : Heard} {h : Handle} {n : Nat} {b : Byte}
    (hf : readClose f = some (.story h, n, b)) : s.storyCloseHeard f = s.hearStoryClose h := by
  rw [Part.storyCloseHeard, hf]

theorem storyWithdrawHeard_eq {s : Part} {f : Heard} {h : Handle} (hf : readWithdraw f = some (.story h)) :
    s.storyWithdrawHeard f = s.hearStoryWithdraw h := by
  rw [Part.storyWithdrawHeard, hf]

section
variable (s : Part) (h : Handle)

theorem hearStoryText_eq (n : Nat) : s.hearStoryText h n =
    allSlots.foldl (fun s i => s.standbyText h (heldProgress n) i)
      (s.registerFrame h (Entry.progressTo (heldProgress n))) := rfl

theorem hearStoryClose_eq : s.hearStoryClose h =
    allSlots.foldl (fun s i => s.standbyClose h i) (s.registerFrame h fun e => { e with state := .closed }) := rfl

theorem hearStoryWithdraw_eq : s.hearStoryWithdraw h =
    allSlots.foldl (fun s i => s.standbyWithdraw h i) (s.registerFrame h fun e => { e with state := .withdrawn }) := rfl

variable {t : Part}

/-- A heard TEXT at the records: those behind the handle take the progress, the others stay. -/
theorem hearStoryText_effect {n : Nat} (ht : t = s.hearStoryText h n) :
    Act (· ∈ [.record]) (s.registerFrame h (Entry.progressTo (heldProgress n))) t ∧
      (∀ i, s.standsBehind i h = false → t.slotView i = s.slotView i) ∧
      ∀ i r x p, s.standsBehind i h = true → s.record i = some r → r.body = .inbound x → x.peer = some p →
        t.record i = some { r with body := .inbound { x with
          peer := some { p with progress := max p.progress (heldProgress n), since := s.now, past20 := false } } } := by
  obtain ⟨is, hn, hm, hall⟩ := exists_allSlots_eq
  rw [hearStoryText_eq, hall] at ht
  subst ht
  have keeps (j : Slot) (u : Part) (hu : Act (· ∈ [.record]) (s.registerFrame h (Entry.progressTo (heldProgress n))) u) :=
    hu.trans (standbyText_records u j h (heldProgress n))
  have other (i j : Slot) (u : Part) (hj : j ≠ i) := slotView_standbyText_ne u j i h (heldProgress n) hj.symm
  refine ⟨invariant_foldl keeps is .refl, fun i hs => ?_, fun i r x p hs hr hb hp => ?_⟩
  · obtain ⟨u, hu, hus, htu⟩ := view_foldl_of_mem (p := fun t => t.slotView i) (other i) keeps hn (hm i) .refl
    have stays : ¬u.standsBehind i h = true := by
      rw [standsBehind_congr i h (u := s) (slotView_eq_iff.mp hus).1, hs]; decide
    rw [Part.standbyText, if_neg stays] at htu
    exact htu.trans hus
  · obtain ⟨u, hu, hus, htu⟩ := view_foldl_of_mem (p := fun t => t.slotView i) (other i) keeps hn (hm i) .refl
    have hur : u.record i = some r := (slotView_eq_iff.mp hus).1.trans hr
    have stands : u.standsBehind i h = true := by
      rw [standsBehind_congr i h (u := s) (slotView_eq_iff.mp hus).1, hs]
    rw [Part.standbyText, if_pos stands, updIn_eq hur hb, hp, hu.now_eq] at htu
    exact (slotView_eq_iff.mp htu).1.trans (record_setRecord_self _ _ _)

/-- A heard WITHDRAW at the records: those behind the handle take over, the others stay. -/
theorem hearStoryWithdraw_effect (ht : t = s.hearStoryWithdraw h) :
    Act (· ∈ [.record, .list]) (s.registerFrame h fun e => { e with state := .withdrawn }) t ∧
      (∀ i, s.standsBehind i h = false → t.slotView i = s.slotView i) ∧
      ∀ i r x p, s.standsBehind i h = true → s.record i = some r → r.body = .inbound x → x.peer = some p →
        TakesOver s t i r x p := by
  obtain ⟨is, hn, hm, hall⟩ := exists_allSlots_eq
  rw [hearStoryWithdraw_eq, hall] at ht
  subst ht
  have keeps (j : Slot) (u : Part)
      (hu : Act (· ∈ [.record, .list]) (s.registerFrame h fun e => { e with state := .withdrawn }) u) :=
    hu.trans (standbyWithdraw_takes u j h)
  have other (i j : Slot) (u : Part) (hj : j ≠ i) := slotView_standbyWithdraw_ne u j i h hj.symm
  refine ⟨invariant_foldl keeps is .refl, fun i hs => ?_, fun i r x p hs hr hb hp => ?_⟩
  · obtain ⟨u, hu, hus, htu⟩ := view_foldl_of_mem (p := fun t => t.slotView i) (other i) keeps hn (hm i) .refl
    have stays : ¬u.standsBehind i h = true := by
      rw [standsBehind_congr i h (u := s) (slotView_eq_iff.mp hus).1, hs]; decide
    rw [Part.standbyWithdraw, if_neg stays] at htu
    exact htu.trans hus
  · obtain ⟨u, hu, hus, htu⟩ := view_foldl_of_mem (p := fun t => t.slotView i) (other i) keeps hn (hm i) .refl
    have hur : u.record i = some r := (slotView_eq_iff.mp hus).1.trans hr
    have stands : u.standsBehind i h = true := by
      rw [standsBehind_congr i h (u := s) (slotView_eq_iff.mp hus).1, hs]
    rw [Part.standbyWithdraw, if_pos stands] at htu
    exact (takeover_takesOver hur hb hp).of_views (s := s) hus htu

/-- A heard CLOSE at the records: those behind the handle are freed, and their lines discard. -/
theorem hearStoryClose_effect (ht : t = s.hearStoryClose h) :
    Act (· ∈ [.store, .list, .notices, .recog]) (s.registerFrame h fun e => { e with state := .closed }) t ∧
      (∀ i, s.standsBehind i h = false → t.slotView i = s.slotView i) ∧
      (∀ i, s.standsBehind i h = true → t.record i = none ∧ t.hasRequest (.record i) = false) ∧
      ∀ i r l, s.standsBehind i h = true → s.record i = some r → r.line = some l → t.discards l := by
  obtain ⟨is, hn, hm, hall⟩ := exists_allSlots_eq
  rw [hearStoryClose_eq, hall] at ht
  subst ht
  have keeps (j : Slot) (u : Part) (hu : Act (· ∈ [.store, .list, .notices, .recog])
      (s.registerFrame h fun e => { e with state := .closed }) u) := hu.trans (standbyClose_ends u j h)
  have other (i j : Slot) (u : Part) (hj : j ≠ i) := slotView_standbyClose_ne u j i h hj.symm
  refine ⟨invariant_foldl keeps is .refl, fun i hs => ?_, fun i hs => ?_, fun i r l hs hr hl => ?_⟩
  · obtain ⟨u, hu, hus, htu⟩ := view_foldl_of_mem (p := fun t => t.slotView i) (other i) keeps hn (hm i) .refl
    have stays : ¬u.standsBehind i h = true := by
      rw [standsBehind_congr i h (u := s) (slotView_eq_iff.mp hus).1, hs]; decide
    rw [Part.standbyClose, if_neg stays] at htu
    exact htu.trans hus
  · obtain ⟨u, hu, hus, htu⟩ := view_foldl_of_mem (p := fun t => t.slotView i) (other i) keeps hn (hm i) .refl
    have stands : u.standsBehind i h = true := by
      rw [standsBehind_congr i h (u := s) (slotView_eq_iff.mp hus).1, hs]
    obtain ⟨r, x, p, hr, -, -⟩ := exists_peer_of_standsBehind u i h stands
    obtain ⟨htr, htq⟩ := slotView_eq_iff.mp (htu.trans (slotView_standbyClose_self u i h stands))
    exact ⟨htr.trans (record_freeRecord_self u i),
      (hasRequest_congr htq).trans (hasRequest_freeRecord_self u i (by rw [hr]; rfl))⟩
  · refine foldl_establishes (p := fun t => t.slotView i) (other i) (R := fun _ => True) (fun _ _ _ => trivial)
      (fun j u _ hd => discards_standbyClose u j h l hd) hn (hm i) trivial fun u _ hus => ?_
    have stands : u.standsBehind i h = true := by
      rw [standsBehind_congr i h (u := s) (slotView_eq_iff.mp hus).1, hs]
    rw [standbyClose_of_line u i h stands ((slotView_eq_iff.mp hus).1.trans hr) hl]
    exact discards_goDiscarding _ l

end

/-- Settles O52, from what each of the three frames does at the register and at the records. -/
theorem storyFramesHeard : Obligations.StoryFramesHeard := by
  intro f h s hh hf
  refine ⟨fun o cs hr => ?_, fun n b hr => ?_, fun hr => ?_⟩
  · obtain ⟨t, ht⟩ : ∃ t, t = s.toPart.heard.hearStoryText h (o + cs.length) := ⟨_, rfl⟩
    obtain ⟨hact, hout, hin⟩ := hearStoryText_effect s.toPart.heard h ht
    have held : heldProgress (o + cs.length) = min 16000 (o + cs.length) := Nat.min_comm _ _
    rw [held] at hact hin
    refine ⟨t, by rw [exec_heardTextStory hh hf, storyTextHeard_eq hr, ht], hact.register_eq (by decide),
      fun i hs => (slotView_eq_iff.mp (hout i hs)).1, hin, ?_⟩
    exact Part.eq_of_standing hact.standing_eq (hact.hearings_eq (by decide)) (hact.rx_eq (by decide))
      (hact.lines_eq (by decide) (by decide) (by decide) (by decide) (by decide)) (hact.mem_eq (by decide))
      (hact.free_eq (by decide)) rfl (hact.recent_eq (by decide)) (hact.trackers_eq (by decide)) rfl
      (hact.groups_eq (by decide)) (hact.port_eq (by decide) (by decide)) (hact.notices_eq (by decide))
      (hact.reportSince_eq (by decide))
  · obtain ⟨hact, hout, hin, hlines⟩ := hearStoryClose_effect s.toPart.heard h rfl
    exact ⟨s.toPart.heard.hearStoryClose h, by rw [exec_heardCloseStory hh hf, storyCloseHeard_eq hr],
      hact.register_eq (by decide),
      fun i hs => (slotView_eq_iff.mp (hout i hs)).1, hin,
      fun i r l hs hr hl => by
        have discards := hlines i r l hs hr hl
        rw [Part.discards, hact.now_eq] at discards
        exact discards,
      hact.mem_eq (by decide), hact.trackers_eq (by decide), hact.groups_eq (by decide), hact.rx_eq (by decide)⟩
  · obtain ⟨hact, hout, hin⟩ := hearStoryWithdraw_effect s.toPart.heard h rfl
    exact ⟨s.toPart.heard.hearStoryWithdraw h, by rw [exec_heardWithdrawStory hh hf, storyWithdrawHeard_eq hr],
      hact.register_eq (by decide),
      fun i hs => (slotView_eq_iff.mp (hout i hs)).1, hin,
      hact.mem_eq (by decide), hact.trackers_eq (by decide), hact.groups_eq (by decide),
      hact.lines_eq (by decide) (by decide) (by decide) (by decide) (by decide)⟩

end Sys2Proof.Machine
end

section
/-! The notices of the station (10.5, 10.6): what a sent one takes from its sets. -/

namespace Sys2Proof.Machine

/-! ### The own frame sent (R179) -/

/-- The part once the spoil slot of the own frame of `o` was read recessive and before the owner acts. -/
def Part.slotPassed (s : Part) (o : Owner) : Part :=
  ((s.updPort fun p => { p with state := .wait, own := none, rejecting := false }).dropSent o).updPort fun p =>
    { p with spoilCount := 0 }

section
variable {s : Part} {o : Owner}

theorem ownSlot_of_sent {f : OwnFrame} (hd : s.port.drives = true) (ho : s.port.own = some f)
    (hr : f.removed = false) :
    s.ownSlot false = ((s.slotPassed f.owner).ownerSent f.owner f.frame).ownHeard f.frame := by
  simp only [Part.ownSlot, hd, ho, hr, Bool.false_eq_true, if_false]
  rfl

theorem slotPassed_rest : { s.slotPassed o with port := s.port } = s := rfl

theorem requestOf_slotPassed (o' : Owner) :
    (s.slotPassed o).requestOf o' = if o' = o then none else s.requestOf o' :=
  requestOf_removeRequest (s := s) (o := o) o'

theorem hasRequest_slotPassed : (s.slotPassed o).hasRequest o = false := by
  rw [Part.hasRequest, requestOf_slotPassed, if_pos rfl]; rfl

end

section
variable {s : Part}

theorem ownHeard_of_notice {f : Frame} (h : f.kind = .notice) : s.ownHeard f = s.heard := by
  unfold Part.ownHeard Part.whileRunning
  rw [h, ite_self]

theorem recordFrameSent_of_notice (i : Slot) {f : Frame} (h : f.kind = .notice) : s.recordFrameSent i f = s := by
  unfold Part.recordFrameSent
  rw [h]
  split
  · rfl
  · split <;> first | contradiction | rfl

/-! ### The notices -/

/-- A request placed where one is due. -/
theorem addRequest_if_eq (p : Prop) [Decidable p] (r : Request) : (if p then s else s.addRequest r) =
    { s with port := (if p then s else s.addRequest r).port } := by
  split
  · rfl
  · rw [addRequest_eq]

theorem hasRequest_addRequest_if {p : Prop} [Decidable p] {r : Request} (h : s.hasRequest r.owner = false) :
    (if p then s else s.addRequest r).hasRequest r.owner = true ↔ ¬p := by
  split
  · next hp => simp [h, hp]
  · next hp => simp [hp]

theorem unlisted_addRequest_if (p : Prop) [Decidable p] (r : Request) :
    (if p then s else s.addRequest r).port.unlisted = s.port.unlisted := by
  split
  · rfl
  · exact unlisted_addRequest _ _

theorem addRequest_if_rest (p : Prop) [Decidable p] (r : Request) :
    { (if p then s else s.addRequest r) with port := s.port } = s := by
  rw [addRequest_if_eq]

/-- What becomes of a notice's sets once it was sent: `t` is the part with the sets left, `u` the part with the
notice asked for again unless `p` says that nothing is left. -/
theorem notice_sent {t u : Part} {p : Prop} [Decidable p] {r : Request} (hu : u = if p then t else t.addRequest r)
    (h : t.hasRequest r.owner = false) :
    (u.hasRequest r.owner = true ↔ ¬p) ∧ { u with port := t.port } = t ∧
      u.port.unlisted = t.port.unlisted := by
  subst hu
  exact ⟨hasRequest_addRequest_if h, addRequest_if_rest _ _, unlisted_addRequest_if _ _⟩

section
variable {u : Part} (l : LineNo)

theorem conditionSent_effect {bits : BitVec 8} (hu : u = s.conditionSent l bits)
    (h : s.hasRequest (.condition l) = false) :
    (u.line l).sup = { (s.line l).sup with changed := (s.line l).sup.changed &&& ~~~bits } ∧
      (u.hasRequest (.condition l) = true ↔ (u.line l).sup.changed ≠ 0) ∧ (∀ m, m ≠ l → u.line m = s.line m) ∧
      { u with lines := s.lines, port := s.port } = s ∧ u.port.unlisted = s.port.unlisted := by
  let t := s.updSup l fun x => { x with changed := x.changed &&& ~~~bits }
  obtain ⟨has, rest, port⟩ :=
    notice_sent (t := t) (p := (t.line l).sup.changed = 0) (r := conditionRequest l) hu h
  have line (m : LineNo) : u.line m = t.line m :=
    (congrArg (fun p : Part => p.line m) rest :)
  refine ⟨by rw [line]; exact sup_updSup s l _, by rw [line]; exact has, fun m hm => ?_,
    congrArg (fun p : Part => { p with lines := s.lines }) rest, port⟩
  rw [line]
  exact line_updSup_ne _ _ _ _ hm

theorem reportNoticeSent_effect {flags mask : Byte} (hu : u = s.reportNoticeSent l flags mask)
    (h : s.hasRequest (.report l) = false) :
    (u.line l).sup = (s.line l).sup.reportSent flags mask ∧
      (u.hasRequest (.report l) = true ↔ (s.line l).sup.lateSnapshot = true ∨ (s.line l).sup.lateQuery = true) ∧
      (∀ m, m ≠ l → u.line m = s.line m) ∧
      { u with lines := s.lines, port := s.port } = s ∧ u.port.unlisted = s.port.unlisted := by
  let t := s.updSup l fun x => x.reportSent flags mask
  have hu : u = if ¬((s.line l).sup.lateSnapshot = true ∨ (s.line l).sup.lateQuery = true) then t
      else t.addRequest (reportRequest l) := by
    subst hu
    simp only [Part.reportNoticeSent, sup_updSup, ite_not, Supervision.reportSent, Bool.or_eq_true]
    rfl
  obtain ⟨has, rest, port⟩ := notice_sent hu h
  have line (m : LineNo) : u.line m = t.line m :=
    (congrArg (fun p : Part => p.line m) rest :)
  refine ⟨by rw [line]; exact sup_updSup s l _, has.trans not_not, fun m hm => ?_,
    congrArg (fun p : Part => { p with lines := s.lines }) rest, port⟩
  rw [line]
  exact line_updSup_ne _ _ _ _ hm

theorem stationSent_effect {changed events : BitVec 8} (hu : u = s.stationSent changed events)
    (h : s.hasRequest .station = false) :
    u.notices = { s.notices with
        changed := s.notices.changed &&& ~~~changed, events := s.notices.events &&& ~~~events } ∧
      (u.hasRequest .station = true ↔ u.notices.changed ≠ 0 ∨ u.notices.events ≠ 0) ∧
      { u with notices := s.notices, port := s.port } = s ∧ u.port.unlisted = s.port.unlisted := by
  let n := { s.notices with
    changed := s.notices.changed &&& ~~~changed, events := s.notices.events &&& ~~~events }
  obtain ⟨has, rest, port⟩ := notice_sent (t := { s with notices := n }) (p := n.changed = 0 ∧ n.events = 0)
    (r := stationRequest) hu h
  have notices : u.notices = n := (congrArg Part.notices rest :)
  refine ⟨notices, ?_, congrArg (fun p : Part => { p with notices := s.notices }) rest, port⟩
  rw [notices]
  exact has.trans not_and_or

end

theorem get_clearSent (mask : Byte) (fs : Vector (Option FaultRecord) 8) (k : Fin 8) :
    (clearSent mask fs).get k =
      if mask.getLsbD k.val = true ∧ (fs.get k).map FaultRecord.changed = some false then none else fs.get k := by
  rw [clearSent, Vector.get_ofFn]
  cases fs.get k with
  | none => simp
  | some r => simp

/-- The fault records after a report of flags `flags` and record mask `mask` was sent. -/
theorem faults_reportSent (x : Supervision) (flags mask : Byte) (k : Fin 8) :
    (x.reportSent flags mask).faults.get k =
      if flags.getLsbD 2 = true ∧ mask.getLsbD k.val = true ∧
        (x.faults.get k).map FaultRecord.changed = some false then none else x.faults.get k := by
  rw [Supervision.reportSent]
  by_cases h : flags.getLsbD 2 = true
  · simp only [h, if_true, get_clearSent, true_and]
  · rw [if_neg h, if_neg fun hk => h hk.1]

end

/-- Settles O43, by the owner of the notice. -/
theorem noticeSent : Obligations.NoticeSent := by
  intro f s h hd ho hr hk
  obtain ⟨u, hu⟩ : ∃ u, u = s.toPart.slotPassed f.owner := ⟨_, rfl⟩
  obtain ⟨t, ht⟩ : ∃ t, t = u.ownerSent f.owner f.frame := ⟨_, rfl⟩
  have sent : exec (.ownFrameSpoilSlot false) s = .next { s with toPart := t.heard.serveBus } := by
    rw [exec_ownFrameSpoilSlot h, ownSlot_of_sent hd ho hr, ← hu, ← ht, ownHeard_of_notice hk]
  have passed : { u with port := s.port } = s.toPart := hu ▸ slotPassed_rest
  have port (same : t.port.unlisted = u.port.unlisted) :
      t.heard.port.state = .wait ∧ t.heard.port.own = none ∧ t.heard.port.spoilCount = 0 := by
    subst hu
    have hs : t.port.state = .wait := congrArg Port.state same
    refine ⟨?_, congrArg Port.own same, congrArg Port.spoilCount same⟩
    simp [Part.heard, Part.frameEnds, Part.updPort, hs]
  have free : u.hasRequest f.owner = false := hu ▸ hasRequest_slotPassed
  have line (m : LineNo) : u.line m = s.line m :=
    (congrArg (fun p : Part => p.line m) passed :)
  have lines : u.lines = s.lines := (congrArg Part.lines passed :)
  have notices : u.notices = s.notices := (congrArg Part.notices passed :)
  have within (same : { t with lines := u.lines, port := u.port, notices := u.notices } = u) :
      { t with lines := s.lines, port := s.port, notices := s.notices, hearings := s.hearings } = s.toPart :=
    (congrArg (fun p : Part =>
      { p with lines := s.lines, port := s.port, notices := s.notices, hearings := s.hearings }) same :).trans
      (congrArg (fun p : Part =>
        { p with lines := s.lines, notices := s.notices, hearings := s.hearings }) passed :)
  refine ⟨t.heard, sent, ?_⟩
  cases hw : f.owner with
  | record i =>
    have same : t = u := by rw [ht, hw]; exact recordFrameSent_of_notice i hk
    obtain ⟨hs, hn, hc⟩ := port (by rw [same])
    exact ⟨hs, hn, hc, nofun, nofun, nofun, fun hi => absurd rfl (hi i)⟩
  | condition l =>
    rw [hw] at ht free
    obtain ⟨sup, has, others, rest, same⟩ := conditionSent_effect l ht free
    obtain ⟨hs, hn, hc⟩ := port same
    refine ⟨hs, hn, hc, ?_, nofun, nofun, fun _ => ?_⟩
    · rintro _ ⟨⟩
      rw [← line l]
      exact ⟨sup, has, (congrArg Part.notices rest :).trans notices, fun m hm => (others m hm).trans (line m)⟩
    · exact within (congrArg (fun p : Part => { p with notices := u.notices }) rest :)
  | report l =>
    rw [hw] at ht free
    obtain ⟨sup, has, others, rest, same⟩ := reportNoticeSent_effect l ht free
    obtain ⟨hs, hn, hc⟩ := port same
    refine ⟨hs, hn, hc, nofun, nofun, ?_, fun _ => ?_⟩
    · rintro _ ⟨⟩
      dsimp only
      rw [heard_line, sup, ← line l]
      exact ⟨rfl, rfl, rfl, faults_reportSent _ _ _, has, rfl, (congrArg Part.notices rest :).trans notices,
        fun m hm => (others m hm).trans (line m)⟩
    · exact within (congrArg (fun p : Part => { p with notices := u.notices }) rest :)
  | station =>
    rw [hw] at ht free
    obtain ⟨set, has, rest, same⟩ := stationSent_effect ht free
    obtain ⟨hs, hn, hc⟩ := port same
    refine ⟨hs, hn, hc, nofun, fun _ => ⟨?_, has, (congrArg Part.lines rest :).trans lines⟩, nofun, fun _ => ?_⟩
    · rw [← notices]; exact set
    · exact within (congrArg (fun p : Part => { p with lines := u.lines }) rest :)

end Sys2Proof.Machine
end

section
/-! Fault records (10.6) and the dispositions of stories, with the headings that fail the form of R59 (03.4, 03.5). -/

namespace Sys2Proof.Machine

/-! ### Faults recorded (R204) -/

section
variable {s t u : Part} {l : LineNo} {k : FaultKind} {f : FaultFields}

theorem fault_updSup : s.fault l k f = s.updSup l fun x =>
    { x with faults := x.faults.set k.idx (some (faultOccurrence (x.faults.get k.idx) f)) } := rfl

theorem sup_fault : ((s.fault l k f).line l).sup = { (s.line l).sup with
    faults := (s.line l).sup.faults.set k.idx (some (faultOccurrence ((s.line l).sup.faults.get k.idx) f)) } :=
  sup_updSup s l _

theorem faultRecorded_fault : FaultRecorded s (s.fault l k f) l k f := by
  rw [FaultRecorded, sup_fault]
  exact vector_get_set_self _ _ _

theorem FaultRecorded.congr (h : FaultRecorded s t l k f)
    (hu : (u.line l).sup.faults = (t.line l).sup.faults) : FaultRecorded s u l k f := by
  rw [FaultRecorded, hu]; exact h

theorem faults_fault_ne {j : Fin 8} (h : j ≠ k.idx) :
    ((s.fault l k f).line l).sup.faults.get j = (s.line l).sup.faults.get j := by
  rw [sup_fault]
  exact vector_get_set_ne _ _ h

theorem line_fault_ne {m : LineNo} (h : m ≠ l) : (s.fault l k f).line m = s.line m := line_updSup_ne _ _ _ _ h

section
variable {i : Slot} {r : Option Record}
@[simp] theorem fault_record : (s.fault l k f).record i = s.record i := rfl
@[simp] theorem fault_inRecord : (s.fault l k f).inRecord i = s.inRecord i := rfl
@[simp] theorem fault_outRecord : (s.fault l k f).outRecord i = s.outRecord i := rfl
@[simp] theorem fault_free : (s.fault l k f).free = s.free := rfl
@[simp] theorem fault_recent : (s.fault l k f).recent = s.recent := rfl
@[simp] theorem fault_mem : (s.fault l k f).mem = s.mem := rfl
@[simp] theorem fault_register : (s.fault l k f).register = s.register := rfl
@[simp] theorem fault_trackers : (s.fault l k f).trackers = s.trackers := rfl
@[simp] theorem fault_groups : (s.fault l k f).groups = s.groups := rfl
@[simp] theorem fault_now : (s.fault l k f).now = s.now := rfl
@[simp] theorem fault_rx : (s.fault l k f).rx = s.rx := rfl
@[simp] theorem fault_settings : (s.fault l k f).settings = s.settings := rfl
@[simp] theorem fault_cfg {m : LineNo} : (s.fault l k f).cfg m = s.cfg m := rfl
@[simp] theorem fault_map {m : LineNo} : (s.fault l k f).map m = s.map m := rfl
@[simp] theorem fault_requestOf {o : Owner} : (s.fault l k f).requestOf o = s.requestOf o := rfl
@[simp] theorem fault_hasRequest {o : Owner} : (s.fault l k f).hasRequest o = s.hasRequest o := rfl
@[simp] theorem fault_unit {m : LineNo} : ((s.fault l k f).line m).unit = (s.line m).unit := unit_line_updSup _ _ _ _
@[simp] theorem fault_plane {m : LineNo} : ((s.fault l k f).line m).plane = (s.line m).plane := plane_line_updSup _ _ _ _
@[simp] theorem fault_recog {m : LineNo} : ((s.fault l k f).line m).recog = (s.line m).recog := recog_line_updSup _ _ _ _
@[simp] theorem fault_sched {m : LineNo} : ((s.fault l k f).line m).sched = (s.line m).sched := sched_line_updSup _ _ _ _
@[simp] theorem fault_texts {m : LineNo} : ((s.fault l k f).line m).texts = (s.line m).texts := texts_line_updSup _ _ _ _
theorem setRecord_fault : (s.setRecord i r).fault l k f = (s.fault l k f).setRecord i r := rfl
end

end

/-! ### Records freed from their line (R57), and DISCARDING (R48) -/

section
variable {s : Part} {l : LineNo} {i : Slot}

theorem freeTied_eq : s.freeTied l i = (s.freeRecord i).updRecog l fun r => { r with tied := none } := rfl

@[simp] theorem recog_goDiscarding : ((s.goDiscarding l).line l).recog = { (s.line l).recog with
    state := .discarding, window := [], heading := [], tied := none, overrun := false, stallSince := some s.now } :=
  recog_updRecog s l _

end

/-! ### Dispositions (R62, R63) -/

section
variable {ranges : List DispRange} {dflt : Disposition} {key : Nat}

theorem contains_hits_iff (d : Disposition) :
    (((ranges.filter fun r => decide (r.base ≤ key) && decide (key < r.base + r.size)).map DispRange.disp).contains d)
      = true ↔ ∃ g ∈ ranges, g.base ≤ key ∧ key < g.base + g.size ∧ g.disp = d := by
  simp [and_assoc]

/-- A disposition is the first of DISCARD, QUIET and CARRY that a range of the key gives, else the default. -/
theorem dispositionOf_cases (hit : Disposition → Prop)
    (hh : ∀ d, hit d ↔ ∃ g ∈ ranges, g.base ≤ key ∧ key < g.base + g.size ∧ g.disp = d) :
    (hit .discard → dispositionOf ranges dflt key = .discard) ∧
    (¬hit .discard → hit .quiet → dispositionOf ranges dflt key = .quiet) ∧
    (¬hit .discard → ¬hit .quiet → hit .carry → dispositionOf ranges dflt key = .carry) ∧
    (¬hit .discard → ¬hit .quiet → ¬hit .carry → dispositionOf ranges dflt key = dflt) := by
  simp only [hh, ← contains_hits_iff, dispositionOf]
  exact ⟨fun h => if_pos h, fun h h' => by rw [if_neg h, if_pos h'],
    fun h h' h'' => by rw [if_neg h, if_neg h', if_pos h''], fun h h' h'' => by rw [if_neg h, if_neg h', if_neg h'']⟩

end

/-! ### Headings that fail the form of R59 (R60, R61) -/

section
variable {s : Part} {l : LineNo} {i : Slot} {r : Record} {x : InRecord} (hr : s.record i = some r)
  (hb : r.body = .inbound x) (hh : readHeading (s.map l).subst (s.line l).recog.heading = none)
include hr hb hh

/-- A heading that fails the form of R59: HEADING-FAULT is set and fault HEADING recorded, and the disposition of the key
decides. -/
theorem completeHeading_of_none : s.completeHeading l i =
    let t := (s.fault l .heading (s.storyFields l i none)).setRecord i (some { r with
      body := .inbound { x with headingFault := true } })
    if s.disposition (s.cfg l).service 31 3 = .discard then (t.freeTied l i).goDiscarding l
    else (t.updIn i fun x => { x with disp := some (s.disposition (s.cfg l).service 31 3) }).carryOut l i none
      (.carry (s.disposition (s.cfg l).service 31 3 == .quiet)) := by
  unfold Part.completeHeading
  dsimp only
  rw [hh, updIn_eq hr hb, setRecord_fault]
  cases s.disposition (s.cfg l).service 31 3 <;> rfl

end

/-- A story carried: CARRYING, quiet or not, its OFFER requested, the recognizer in TEXT (R61, R114). -/
theorem carryOut_carry {s : Part} {l : LineNo} {i : Slot} {r : Record} {x : InRecord} (hr : s.record i = some r)
    (hb : r.body = .inbound x) (serial : Option Nat) (quiet : Bool) : s.carryOut l i serial (.carry quiet) =
    ((s.setRecord i (some { r with body := .inbound { x with state := .carrying, quiet := quiet } })).addRequest
      { owner := .record i, cls := r.priority, kind := .offer, key := i.val }).updRecog l
        fun g => { g with state := .text } := by
  simp only [Part.carryOut, updIn_eq hr hb, requestStory_eq (record_setRecord_self _ _ _)]

/-- Settles O59: a failed heading by the disposition of its key, and the order of the dispositions. -/
theorem dispositionsDecided : Obligations.DispositionsDecided := by
  refine ⟨fun s l i r x hr hb _ _ _ hp hh => ?_, fun s service category priority => ?_⟩
  · have hd : s.disposition (s.cfg l).service 31 3 =
        dispositionOf s.settings.ranges s.settings.defaultDisp ((s.cfg l).service * 256 + 251) := rfl
    have eq := completeHeading_of_none hr hb hh
    rw [hd] at eq
    dsimp only
    generalize dispositionOf s.settings.ranges s.settings.defaultDisp ((s.cfg l).service * 256 + 251) = d at eq ⊢
    have fields : s.storyFields l i none =
        { handle := some (s.handle i), serial := none, offset := r.count, raw := none, plane := (s.line l).plane } := by
      simp [Part.storyFields, hr]
    rw [fields] at eq
    have recorded : FaultRecorded s (s.fault l .heading
      { handle := some (s.handle i), serial := none, offset := r.count, raw := none, plane := (s.line l).plane }) l
      .heading _ := faultRecorded_fault
    by_cases hdis : d = .discard
    · rw [eq]
      simp only [hdis, if_true]
      refine ⟨recorded.congr ?_, ?_, nofun, fun j hj => ?_, ?_, ?_, ?_⟩
      · simp [Part.goDiscarding, freeTied_eq]
      · simp [Part.goDiscarding, freeTied_eq]
      · simp [Part.goDiscarding, freeTied_eq, record_freeRecord_ne _ _ hj, record_setRecord_ne _ _ _ _ hj]
      · simp [Part.goDiscarding, freeTied_eq]
      · simp [Part.goDiscarding, freeTied_eq]
      · simp [Part.goDiscarding, freeTied_eq]
    · rw [eq]
      dsimp only
      rw [if_neg hdis, updIn_eq (record_setRecord_self _ _ _) rfl, setRecord_setRecord,
        carryOut_carry (record_setRecord_self _ _ _) rfl, setRecord_setRecord]
      refine ⟨recorded.congr ?_, fun h => absurd h hdis, fun _ => ⟨?_, ?_, fun hq => ?_⟩, fun j hj => ?_, ?_, ?_, ?_⟩
      · simp
      · simp
      · simp
      · rw [← hp]
        exact requestOf_addRequest_self _ { owner := .record i, cls := r.priority, kind := .offer, key := i.val } hq
      · simp [record_setRecord_ne _ _ _ _ hj]
      · simp
      · simp
      · simp
  · dsimp only
    have hk : priority ≠ 0 → s.disposition service category priority =
        dispositionOf s.settings.ranges s.settings.defaultDisp (service * 256 + category * 8 + priority) :=
      fun hp => by rw [Part.disposition, if_neg hp]; rfl
    obtain ⟨h1, h2, h3, h4⟩ := dispositionOf_cases (ranges := s.settings.ranges) (dflt := s.settings.defaultDisp)
      (key := service * 256 + category * 8 + priority) _ fun _ => .rfl
    refine ⟨fun hp => if_pos hp, fun hp h => ?_, fun hp h h' => ?_, fun hp h h' h'' => ?_, fun hp h h' h'' => ?_⟩
    · rw [hk hp]; exact h1 h
    · rw [hk hp]; exact h2 h h'
    · rw [hk hp]; exact h3 h h' h''
    · rw [hk hp]; exact h4 h h' h''

end Sys2Proof.Machine
end

section
/-! The eviction scan, requests for slots and blocks, and reservations (04.1 to 04.6). -/

namespace Sys2Proof.Machine

/-! ### The eviction scan (R89) -/

/-- The records of the slots `is` with their referenced flags cleared. -/
def Part.unreference (s : Part) (is : List Slot) : Part :=
  is.foldl (fun s j => s.updIn j fun x => { x with referenced := some false }) s

section
variable (s : Part) {i j : Slot} {is : List Slot}

theorem unreference_cons : s.unreference (j :: is) =
    (s.updIn j fun x => { x with referenced := some false }).unreference is := rfl

theorem unreference_rest : { s.unreference is with records := s.records } = s := by
  induction is generalizing s with
  | nil => rfl
  | cons j is ih =>
    exact (congrArg (fun t : Part => { t with records := s.records }) (ih (s.updIn j _)) :)

theorem unreference_eq : s.unreference is = { s with records := (s.unreference is).records } :=
  (congrArg (fun t : Part => { t with records := (s.unreference is).records }) (unreference_rest s) :)

theorem unreference_recent (js : List Slot) :
    ({ s with recent := js } : Part).unreference is = { s.unreference is with recent := js } := by
  induction is generalizing s with
  | nil => rfl
  | cons j is ih => exact ih (s.updIn j _)

theorem record_unreference_ne (h : j ∉ is) : (s.unreference is).record j = s.record j :=
  view_foldl_of_not_mem (p := fun t => t.record j) (fun _ _ hi => record_updRecord_ne _ _ _ _ (Ne.symm hi)) is h s

theorem record_unreference_of_mem {q : Record} {x : InRecord} (hn : is.Nodup) (h : j ∈ is)
    (hq : s.record j = some q) (hb : q.body = .inbound x) : (s.unreference is).record j =
      some { q with body := .inbound { x with referenced := some false } } := by
  obtain ⟨u, -, hu, ht⟩ := view_foldl_of_mem (p := fun t => t.record j)
    (f := fun j s => s.updIn j fun x => { x with referenced := some false })
    (fun _ _ hi => record_updRecord_ne _ _ _ _ (Ne.symm hi)) (R := fun _ => True) (fun _ _ _ => trivial) hn h trivial
  refine ht.trans ?_
  rw [updIn_eq (hu.trans hq) hb, record_setRecord_self]

theorem referenced_congr {t : Part} (h : t.record i = s.record i) : t.referenced i = s.referenced i := by
  simp [Part.referenced, Part.inRecord, h]

/-- A referenced record is an inbound one. -/
theorem exists_inbound_of_referenced (h : s.referenced i = true) :
    ∃ q x, s.record i = some q ∧ q.body = .inbound x := by
  unfold Part.referenced Part.inRecord at h
  cases hr : s.record i with
  | none => simp [hr] at h
  | some q =>
    cases hb : q.body with
    | inbound x => exact ⟨q, x, rfl, hb⟩
    | outbound x => simp [hr, Record.inbound?, hb] at h

end

/-- The scan passes over the referenced records `before` and frees the first that is not referenced. -/
theorem evictScan_eq {s : Part} {before after : List Slot} {i : Slot} {n : Nat}
    (hs : s.recent = before ++ i :: after) (hn : before.Nodup) (hi : i ∉ before)
    (href : ∀ j ∈ before, s.referenced j = true) (hun : s.referenced i = false) (hlen : before.length < n) :
    evictScan n s = ({ s.unreference before with recent := after ++ before } : Part).freeRecord i := by
  induction before generalizing s after n with
  | nil =>
    obtain ⟨n, rfl⟩ := Nat.exists_eq_succ_of_ne_zero (Nat.pos_iff_ne_zero.mp hlen)
    simp only [evictScan, hs, List.nil_append, hun, List.append_nil, Bool.false_eq_true, if_false]
    rfl
  | cons j before ih =>
    obtain ⟨n, rfl⟩ := Nat.exists_eq_succ_of_ne_zero (Nat.ne_zero_of_lt hlen)
    obtain ⟨hj, hn⟩ := List.nodup_cons.mp hn
    have hij : i ≠ j := fun h => hi (by simp [h])
    have hi' : i ∉ before := fun h => hi (by simp [h])
    let v := s.updIn j fun x => { x with referenced := some false }
    let u : Part := { v with recent := before ++ i :: (after ++ [j]) }
    have hu (k : Slot) (hk : k ≠ j) : u.referenced k = s.referenced k :=
      referenced_congr s (record_updRecord_ne _ _ _ _ hk)
    have step : evictScan (n + 1) s = evictScan n u := by
      have recent : before ++ i :: after ++ [j] = before ++ i :: (after ++ [j]) := List.append_assoc _ _ _
      simp only [evictScan, hs, List.cons_append, href j (by simp), if_true]
      exact congrArg (fun is => evictScan n { v with recent := is }) recent
    rw [step, ih (s := u) (after := after ++ [j]) rfl hn hi'
      (fun k hk => (hu k (fun h => hj (h ▸ hk))).trans (href k (by simp [hk])))
      ((hu i hij).trans hun) (by simpa using hlen), unreference_cons, unreference_recent, List.append_assoc]
    rfl

/-- One eviction frees slot `i`, having passed over `before` (R89): its blocks go to the tail of the free list, the
records passed over lose their flag and stand at the newest end. -/
structure Evicts (s t : Part) (before : List Slot) (i : Slot) (after : List Slot) (r : Record) : Prop where
  gone : t.record i = none
  free : t.free = s.free ++ (r.blocks ++ r.reservation)
  recent : t.recent = after ++ before
  unasked : t.hasRequest (.record i) = false
  passed : ∀ j ∈ before, ∀ q x, s.record j = some q → q.body = .inbound x →
    t.record j = some { q with body := .inbound { x with referenced := some false } }
  others : ∀ j, j ≠ i → j ∉ before → t.record j = s.record j
  mem : t.mem = s.mem
  lines : t.lines = s.lines
  register : t.register = s.register
  trackers : t.trackers = s.trackers
  judged : StoreJudged s t

/-- What the scan leaves is an eviction of `i`, whether or not it cleared the flag of `i` on its way. -/
theorem evicts_freeRecord {s : Part} {before after is : List Slot} {i : Slot} {r q : Record}
    (hn : (after ++ before).Nodup) (hi : i ∉ after ++ before) (his : is = before ∨ is = i :: before)
    (hq : (s.unreference is).record i = some q) (hb : q.blocks = r.blocks) (hv : q.reservation = r.reservation) :
    Evicts s (({ s.unreference is with recent := after ++ before } : Part).freeRecord i) before i after r := by
  have hbefore : before.Nodup := (List.nodup_append.mp hn).2.1
  have hib : i ∉ before := fun h => hi (List.mem_append_right _ h)
  have hnis : is.Nodup := by
    rcases his with rfl | rfl
    · exact hbefore
    · exact List.nodup_cons.mpr ⟨hib, hbefore⟩
  have frees := freeRecord_frees (s := { s.unreference is with recent := after ++ before }) hq
  have judged := freeRecord_judged (s := { s.unreference is with recent := after ++ before }) hq
  obtain ⟨gone, others, free, recent, unasked, mem, lines, register, trackers, -⟩ := frees
  have hu := unreference_eq s (is := is)
  generalize ({ s.unreference is with recent := after ++ before } : Part).freeRecord i = t at *
  rw [hb, hv] at free
  refine ⟨gone, ?_, ?_, unasked, fun j hj p x hp hpb => ?_, fun j hji hj => ?_, ?_, ?_, ?_, ?_, ?_⟩
  · rw [free, hu]
  · rw [recent]
    exact List.filter_eq_self.mpr fun j hj => by simpa using fun h : j = i => hi (h ▸ hj)
  · have hji : j ≠ i := fun h => hib (h ▸ hj)
    refine (others j hji).trans (record_unreference_of_mem s hnis ?_ hp hpb)
    rcases his with rfl | rfl
    · exact hj
    · exact List.mem_cons_of_mem _ hj
  · refine (others j hji).trans (record_unreference_ne s ?_)
    rcases his with rfl | rfl
    · exact hj
    · exact fun h => (List.mem_cons.mp h).elim hji hj
  · rw [mem, hu]
  · rw [lines, hu]
  · rw [register, hu]
  · rw [trackers, hu]
  · rw [hu] at judged
    exact judged

section
variable {s : Part} {before after : List Slot} {i : Slot} {r : Record}

theorem evictOne_of_nil (h : s.recent = []) : s.evictOne = s := by
  simp only [Part.evictOne, evictScan, h]

/-- One eviction, by the records that the scan meets. -/
theorem evictOne_evicts (hn : s.recent.Nodup)
    (hs : (s.recent = before ++ i :: after ∧ s.referenced i = false) ∨
      (s.recent = i :: before ∧ after = [] ∧ s.referenced i = true))
    (href : ∀ j ∈ before, s.referenced j = true) (hr : s.record i = some r) :
    Evicts s s.evictOne before i after r := by
  rcases hs with ⟨hs, hun⟩ | ⟨hs, rfl, hi⟩
  · rw [hs, List.nodup_middle, List.nodup_cons] at hn
    have hib : i ∉ before := fun h => hn.1 (List.mem_append_left _ h)
    have hn' : (after ++ before).Nodup := (List.perm_append_comm.nodup_iff).mp hn.2
    rw [Part.evictOne, evictScan_eq hs (List.nodup_append.mp hn.2).1 hib href hun (by rw [hs]; simp)]
    exact evicts_freeRecord hn' (fun h => hn.1 (List.mem_append.mpr (List.mem_append.mp h).symm)) (.inl rfl)
      ((record_unreference_ne s hib).trans hr) rfl rfl
  · rw [hs, List.nodup_cons] at hn
    obtain ⟨q, x, hq, hb⟩ := exists_inbound_of_referenced s hi
    obtain rfl : q = r := Option.some.inj (hq.symm.trans hr)
    let v := s.updIn i fun x => { x with referenced := some false }
    let u : Part := { v with recent := before ++ [i] }
    have hv : v.record i = some { q with body := .inbound { x with referenced := some false } } := by
      simp only [v, updIn_eq hq hb, record_setRecord_self]
    have step : s.evictOne = evictScan (before.length + 1) u := by
      rw [Part.evictOne, hs]
      simp only [evictScan, hs, hi, if_true, List.length_cons]
      rfl
    have hu (k : Slot) (hk : k ≠ i) : u.referenced k = s.referenced k :=
      referenced_congr s (record_updRecord_ne _ _ _ _ hk)
    have hun : u.referenced i = false := by
      rw [Part.referenced, inRecord_eq (s := u) hv rfl]; rfl
    rw [step, evictScan_eq (s := u) (after := []) rfl hn.2 hn.1
      (fun k hk => (hu k (fun h => hn.1 (h ▸ hk))).trans (href k hk)) hun (Nat.lt_succ_self _), unreference_recent]
    exact evicts_freeRecord (s := s) (is := i :: before) (q := { q with body := .inbound { x with referenced := some false } })
      hn.2 hn.1 (.inr rfl) ((record_unreference_ne v hn.1).trans hv) rfl
      (by rw [Record.reservation_inbound rfl, Record.reservation_inbound hb])

/-- A recent list that holds a record has one for the scan to free. -/
theorem exists_evicted (h : s.recent ≠ []) : ∃ before i after,
    ((s.recent = before ++ i :: after ∧ s.referenced i = false) ∨
      (s.recent = i :: before ∧ after = [] ∧ s.referenced i = true)) ∧ ∀ j ∈ before, s.referenced j = true := by
  by_cases hall : ∀ j ∈ s.recent, s.referenced j = true
  · obtain ⟨i, before, hs⟩ := List.exists_cons_of_ne_nil h
    rw [hs] at hall
    exact ⟨before, i, [], .inr ⟨hs, rfl, hall i (by simp)⟩, fun j hj => hall j (by simp [hj])⟩
  · have hsome : (s.recent.find? fun j => !s.referenced j).isSome = true := by
      simpa [List.find?_isSome] using hall
    obtain ⟨i, hi⟩ := Option.isSome_iff_exists.mp hsome
    obtain ⟨hun, before, after, hs, href⟩ := List.find?_eq_some_iff_append.mp hi
    exact ⟨before, i, after, .inl ⟨hs, by simpa using hun⟩, fun j hj => by simpa using href j hj⟩

end

/-! ### Requests for a slot (R77) -/

section
variable {s : Part} {i : Slot}

theorem lowestFree_eq_some (hi : s.record i = none) (hj : ∀ j : Slot, j.val < i.val → s.record j ≠ none) :
    s.lowestFree = some i := by
  rw [Part.lowestFree, List.find?_eq_some_iff_getElem]
  refine ⟨by simp [hi], i.val, by simp [allSlots], by simp [allSlots], fun k hk => ?_⟩
  have hkj := hj ⟨k, hk.trans i.isLt⟩ hk
  simpa [allSlots, Option.isSome_iff_ne_none] using hkj

theorem lowestFree_isSome_iff : s.lowestFree.isSome = true ↔ ∃ i, s.record i = none := by
  rw [Part.lowestFree, List.find?_isSome]
  simp [mem_allSlots]

theorem findSlot_of_full (h : ∀ i, s.record i ≠ none) : s.findSlot = (s.evictOne, s.evictOne.lowestFree) := by
  have none : s.lowestFree = none := by
    rw [← Option.not_isSome_iff_eq_none, lowestFree_isSome_iff]
    exact fun ⟨i, hi⟩ => h i hi
  rw [Part.findSlot, none]

theorem record_of_lowestFree (h : s.lowestFree = some i) : s.record i = none := by
  simpa using List.find?_some h

end

/-! ### Evictions one after another (R76, R85) -/

/-- The blocks of the record in slot `j`, by number. -/
def Part.blocksOf (s : Part) (j : Slot) : Nat := ((s.record j).map fun r => r.blocks.length).getD 0

theorem recentBlocks_eq (s : Part) : s.recentBlocks = (s.recent.map s.blocksOf).sum := rfl

theorem blocksOf_eq {s : Part} {j : Slot} {r : Record} (h : s.record j = some r) : s.blocksOf j = r.blocks.length := by
  simp [Part.blocksOf, h]

theorem exists_inbound {s : Part} {j : Slot} (h : s.inRecord j ≠ none) : ∃ q x, s.record j = some q ∧ q.body = .inbound x := by
  unfold Part.inRecord at h
  cases hr : s.record j with
  | none => simp [hr] at h
  | some q =>
    cases hb : q.body with
    | inbound x => exact ⟨q, x, rfl, hb⟩
    | outbound x => simp [hr, Record.inbound?, hb] at h

/-- The part `u` after some evictions from `s` for the record in slot `i`, which is not on the recent list: the blocks
free and on that list number what they did. -/
structure Evicting (s : Part) (i : Slot) (u : Part) : Prop where
  nodup : u.recent.Nodup
  inbound : ∀ j ∈ u.recent, u.inRecord j ≠ none
  off : i ∉ u.recent
  same : u.record i = s.record i
  total : u.free.length + u.recentBlocks = s.free.length + s.recentBlocks
  more : ∃ more, u.free = s.free ++ more

theorem evicting_refl {s : Part} {i : Slot} (hn : s.recent.Nodup) (hin : ∀ j ∈ s.recent, s.inRecord j ≠ none)
    (hi : i ∉ s.recent) : Evicting s i s := ⟨hn, hin, hi, rfl, rfl, [], by simp⟩

/-- The records that an eviction leaves on the recent list are inbound ones with their blocks. -/
theorem Evicts.kept {u t : Part} {before after : List Slot} {e : Slot} {r : Record} (h : Evicts u t before e after r)
    {j : Slot} (hj : j ≠ e) (hin : u.inRecord j ≠ none) : t.inRecord j ≠ none ∧ t.blocksOf j = u.blocksOf j := by
  obtain ⟨q, x, hq, hb⟩ := exists_inbound hin
  by_cases hjb : j ∈ before
  · have ht := h.passed j hjb q x hq hb
    exact ⟨by rw [inRecord_eq ht rfl]; exact nofun, by rw [blocksOf_eq ht, blocksOf_eq hq]⟩
  · have ht := h.others j hj hjb
    exact ⟨by rwa [Part.inRecord, ht], by rw [Part.blocksOf, ht]; rfl⟩

theorem Evicting.evictOne {s u : Part} {i : Slot} (h : Evicting s i u) (hne : u.recent ≠ []) :
    Evicting s i u.evictOne ∧ u.evictOne.recent.length + 1 = u.recent.length := by
  obtain ⟨before, e, after, hs, href⟩ := exists_evicted hne
  have hperm : u.recent.Perm (e :: (after ++ before)) := by
    rcases hs with ⟨hs, -⟩ | ⟨hs, rfl, -⟩
    · rw [hs]
      exact List.perm_middle.trans (List.Perm.cons _ List.perm_append_comm)
    · rw [hs]; rfl
  have he : e ∈ u.recent := hperm.mem_iff.mpr (by simp)
  obtain ⟨hnot, hn⟩ := List.nodup_cons.mp (hperm.nodup_iff.mp h.nodup)
  have hie : i ≠ e := fun hie => h.off (hie ▸ he)
  have hmem (j : Slot) (hj : j ∈ after ++ before) : j ∈ u.recent ∧ j ≠ e :=
    ⟨hperm.mem_iff.mpr (List.mem_cons_of_mem _ hj), fun hje => hnot (hje ▸ hj)⟩
  obtain ⟨r, x, hr, hb⟩ := exists_inbound (h.inbound e he)
  have ev := evictOne_evicts h.nodup hs href hr
  have off : i ∉ after ++ before := fun hi => h.off (hmem i hi).1
  have blocks : ((after ++ before).map u.evictOne.blocksOf).sum = ((after ++ before).map u.blocksOf).sum :=
    congrArg List.sum (List.map_congr_left fun j hj =>
      (ev.kept (hmem j hj).2 (h.inbound j (hmem j hj).1)).2)
  refine ⟨⟨by rw [ev.recent]; exact hn, fun j hj => ?_, by rw [ev.recent]; exact off, ?_, ?_, ?_⟩, ?_⟩
  · rw [ev.recent] at hj
    exact (ev.kept (hmem j hj).2 (h.inbound j (hmem j hj).1)).1
  · exact (ev.others i hie fun hi => off (List.mem_append_right _ hi)).trans h.same
  · have sum := (hperm.map u.blocksOf).sum_eq
    rw [List.map_cons, List.sum_cons, blocksOf_eq hr] at sum
    rw [← h.total, recentBlocks_eq, recentBlocks_eq, ev.recent, blocks, sum, ev.free,
      Record.reservation_inbound hb, List.append_nil, List.length_append]
    omega
  · obtain ⟨more, hmore⟩ := h.more
    exact ⟨more ++ (r.blocks ++ r.reservation), by rw [ev.free, hmore, List.append_assoc]⟩
  · rw [ev.recent, hperm.length_eq, List.length_cons]

/-- Evictions end where they may, or with an empty recent list. -/
theorem evictUntil_ends {s : Part} {i : Slot} {p : Part → Bool} {n : Nat} {u : Part} (h : Evicting s i u)
    (hn : u.recent.length ≤ n) :
    Evicting s i (evictUntil p n u) ∧ (p (evictUntil p n u) = true ∨ (evictUntil p n u).recent = []) := by
  induction n generalizing u with
  | zero => exact ⟨h, .inr (List.eq_nil_of_length_eq_zero (Nat.le_zero.mp hn))⟩
  | succ n ih =>
    rw [evictUntil]
    split
    · next hp => exact ⟨h, (Bool.or_eq_true _ _ ▸ hp).imp id List.isEmpty_iff.mp⟩
    · next hp =>
      have hne : u.recent ≠ [] := fun hnil => hp (by simp [hnil])
      obtain ⟨h', hlen⟩ := h.evictOne hne
      exact ih h' (by omega)

theorem evictUntil_of_met {p : Part → Bool} {s : Part} (h : p s = true) (n : Nat) : evictUntil p n s = s := by
  cases n with
  | zero => rfl
  | succ n => rw [evictUntil, if_pos (by simp [h])]

/-! ### Requests for a block and reservations (R76, R84 to R86) -/

section
variable {s : Part} {i : Slot} {r : Record} (hr : s.record i = some r)
include hr

theorem takeBlock_of_free {b : Nat} {rest : List Nat} (hf : s.free = b :: rest) : s.takeBlock i =
    ((({ s with free := rest } : Part).setRecord i (some { r with blocks := r.blocks ++ [b] })).judgeStore, true) := by
  have met : evictUntil (fun s => !s.free.isEmpty) s.recent.length s = s := evictUntil_of_met (by simp [hf]) _
  simp only [Part.takeBlock, met, hf, hr]
  rw [updRecord_eq (s := { s with free := rest }) hr]

theorem returnSurplus_eq {x : OutRecord} (hb : r.body = .outbound x) : s.returnSurplus i =
    (({ s with free := s.free ++ x.reservation } : Part).setRecord i (some { r with
      body := .outbound { x with reservation := [] } })).judgeStore := by
  simp only [Part.returnSurplus, outRecord_eq hr hb]
  rw [updOut_eq (s := { s with free := s.free ++ x.reservation }) hr hb]

end

/-- A reservation, by what the evictions leave free. -/
theorem reserve_eq {s : Part} {i : Slot} {r : Record} {x : OutRecord} (hb : r.body = .outbound x) (b : Nat) {t : Part}
    (ht : t = evictUntil (fun s => decide (b ≤ s.free.length)) s.recent.length s) (htr : t.record i = some r) :
    s.reserve i b = if b ≤ t.free.length then
      ((({ t with free := t.free.drop b } : Part).setRecord i (some { r with
        body := .outbound { x with reservation := x.reservation ++ t.free.take b } })).judgeStore, true)
      else (t, false) := by
  have out : (t.outRecord i).isSome = true := by rw [outRecord_eq htr hb]; rfl
  simp only [Part.reserve, ← ht, out, and_true]
  rw [updOut_eq (s := { t with free := t.free.drop b }) htr hb]

theorem evictUntil_free_of_nil {s : Part} (h : s.free = []) (hne : s.recent ≠ []) (he : s.evictOne.free ≠ []) :
    evictUntil (fun s => !s.free.isEmpty) s.recent.length s = s.evictOne := by
  obtain ⟨n, hn⟩ := Nat.exists_eq_succ_of_ne_zero (mt List.eq_nil_of_length_eq_zero hne)
  rw [hn, evictUntil, if_neg (by simp [h, hne]), evictUntil_of_met (by simpa using he)]

theorem takeBlock_judged {s : Part} {i : Slot} {t : Part}
    (ht : evictUntil (fun s => !s.free.isEmpty) s.recent.length s = t) (hs : (s.takeBlock i).2 = true) :
    StoreJudged t (s.takeBlock i).1 := by
  unfold Part.takeBlock at hs ⊢
  rw [ht] at hs ⊢
  dsimp only at hs ⊢
  split at hs
  · next => exact storeJudged_judgeStore rfl
  · cases hs

/-- Settles O46: the scan by the records it meets, the requests by the free list. -/
theorem evictionAndReservation : Obligations.EvictionAndReservation := by
  intro s hn
  refine ⟨evictOne_of_nil, fun before i after r hs href hr => ?_, fun i hi hj => ?_, fun hfull => ⟨?_, ?_, ?_⟩,
    fun i r hr => ⟨freeRecord_judged hr, fun b rest hf => ?_, fun hf hne he hs => ?_, fun hf hnil => ?_,
      fun x b hb hi hin => ?_⟩⟩
  · obtain ⟨h1, h2, h3, h4, h5, h6, h7, h8, h9, h10, h11⟩ := evictOne_evicts hn hs href hr
    exact ⟨h1, h2, h3, h4, h5, h6, h7, h8, h9, h10, h11⟩
  · rw [Part.findSlot, lowestFree_eq_some hi hj]
  · rw [findSlot_of_full hfull, lowestFree_isSome_iff]
    refine ⟨fun ⟨i, hi⟩ hnil => hfull i (by rwa [evictOne_of_nil hnil] at hi), fun hne => ?_⟩
    obtain ⟨before, i, after, hs, href⟩ := exists_evicted hne
    obtain ⟨r, hr⟩ := Option.ne_none_iff_exists'.mp (hfull i)
    exact ⟨i, (evictOne_evicts hn hs href hr).gone⟩
  · rw [findSlot_of_full hfull]
  · rw [findSlot_of_full hfull]
    exact fun i hi => record_of_lowestFree hi
  · rw [takeBlock_of_free hr hf]
    exact ⟨rfl, by simp, by simp, by simp, storeJudged_judgeStore rfl⟩
  · exact takeBlock_judged (evictUntil_free_of_nil hf hne he) hs
  · have stays : evictUntil (fun s => !s.free.isEmpty) s.recent.length s = s := by rw [hnil]; rfl
    simp only [Part.takeBlock, stays, hf]
  · obtain ⟨t, ht⟩ : ∃ t, t = evictUntil (fun s => decide (b ≤ s.free.length)) s.recent.length s := ⟨_, rfl⟩
    obtain ⟨⟨-, -, -, same, total, more⟩, hend⟩ :=
      evictUntil_ends (p := fun s => decide (b ≤ s.free.length)) (evicting_refl hn hin hi) (Nat.le_refl _)
    rw [← ht] at same total more hend
    have htr : t.record i = some r := same.trans hr
    have eq := reserve_eq hb b ht htr
    have enough : b ≤ t.free.length ↔ b ≤ s.free.length + s.recentBlocks := by
      rcases hend with hend | hend
      · rw [decide_eq_true_eq] at hend
        exact ⟨fun _ => by omega, fun _ => hend⟩
      · rw [recentBlocks_eq t, hend] at total
        simp only [List.map_nil, List.sum_nil] at total
        omega
    dsimp only
    rw [eq]
    refine ⟨?_, fun hle => ?_, fun hno => ?_, fun hyes => ?_, ?_, ?_⟩
    · refine Iff.trans ?_ enough
      split <;> simp_all
    · have hts : t = s := ht.trans (evictUntil_of_met (by simpa using hle) _)
      rw [hts, if_pos hle]
      exact ⟨by simp, by simp, by simp, storeJudged_judgeStore rfl⟩
    · split at hno
      · cases hno
      · next hlt =>
        rw [if_neg hlt]
        exact ⟨htr, hend.resolve_left (by simpa using hlt), more⟩
    · split at hyes
      · next hle =>
        rw [if_pos hle]
        obtain ⟨low, high, -⟩ := storeJudged_judgeStore (s := t) (t := ({ t with free := t.free.drop b } : Part).setRecord
          i (some { r with body := .outbound { x with reservation := x.reservation ++ t.free.take b } })) rfl
        exact ⟨t.free.take b, by simp [hle], by simp, low, high⟩
      · cases hyes
    · rw [returnSurplus_eq hr hb]; simp
    · rw [returnSurplus_eq hr hb]
      exact storeJudged_judgeStore rfl

end Sys2Proof.Machine
end

section
/-! The send scheduler (08): the choice, the codes of a piece, the free sender, and the settling of lines. -/

namespace Sys2Proof.Machine

/-! ### Changes of one line in a row -/

section
variable (s : Part) (l : LineNo)

theorem updLine_updLine (f g : Line → Line) : (s.updLine l f).updLine l g = s.updLine l fun x => g (f x) := by
  rw [Part.updLine, line_updLine_self]
  simp [Part.updLine]

theorem updSched_updSched (f g : Sched → Sched) :
    (s.updSched l f).updSched l g = s.updSched l fun x => g (f x) := updLine_updLine _ _ _ _

theorem setRecord_updSched (i : Slot) (r : Option Record) (f : Sched → Sched) :
    (s.setRecord i r).updSched l f = (s.updSched l f).setRecord i r := rfl

theorem setRecord_updLine (i : Slot) (r : Option Record) (f : Line → Line) :
    (s.setRecord i r).updLine l f = (s.updLine l f).setRecord i r := rfl

end

/-! ### The order of the queue (R154, R155, R158) -/

section
variable {s : Part} {l : LineNo} {i : Slot} {r : Record} {x : OutRecord}

/-- A record is choosable when it is SUSPENDED, or QUEUED with its release group, if any, open (R155). -/
theorem choosable_iff : s.choosable x = true ↔
    x.state = .suspended ∨ x.state = .queued ∧ ∀ g, x.release = some g → s.groups.get g = true := by
  unfold Part.choosable Part.groupOpen
  cases x.release <;> simp

section
variable {p : Record → OutRecord → Bool}

theorem firstInQueue_cons_of_not {js : List Slot} (h : ∀ r x, s.record i = some r → r.body = .outbound x → p r x = false) :
    s.firstInQueue p (i :: js) = s.firstInQueue p js := by
  rw [Part.firstInQueue]
  split
  · next r hr =>
    split
    · next x hb => rw [if_neg (by rw [h r x hr hb]; exact Bool.false_ne_true)]
    · rfl
  · rfl

theorem firstInQueue_cons {js : List Slot} (hr : s.record i = some r) (hb : r.body = .outbound x) (hp : p r x = true) :
    s.firstInQueue p (i :: js) =
      match s.firstInQueue p js with
      | some (n, j) => if n < queueRank r x then some (n, j) else some (queueRank r x, i)
      | none => some (queueRank r x, i) := by
  rw [Part.firstInQueue]
  simp only [hr, hb, hp, if_true] <;> rfl

theorem firstInQueue_eq_none {js : List Slot}
    (h : ∀ j ∈ js, ∀ r x, s.record j = some r → r.body = .outbound x → p r x = false) :
    s.firstInQueue p js = none := by
  induction js with
  | nil => rfl
  | cons j js ih =>
    rw [firstInQueue_cons_of_not (h j (by simp)), ih fun k hk => h k (by simp [hk])]

/-- What stands first among `js` is a record of them that `p` admits, of the rank given. -/
theorem firstInQueue_mem {js : List Slot} {n : Nat} {j : Slot} (h : s.firstInQueue p js = some (n, j)) :
    j ∈ js ∧ ∃ r x, s.record j = some r ∧ r.body = .outbound x ∧ p r x = true ∧ queueRank r x = n := by
  induction js with
  | nil => cases h
  | cons k js ih =>
    by_cases hk : ∃ r x, s.record k = some r ∧ r.body = .outbound x ∧ p r x = true
    · obtain ⟨r, x, hr, hb, hp⟩ := hk
      rw [firstInQueue_cons hr hb hp] at h
      have self : (queueRank r x, k) = (n, j) → j ∈ k :: js ∧ ∃ r x, s.record j = some r ∧ r.body = .outbound x ∧
          p r x = true ∧ queueRank r x = n := by
        rintro ⟨⟩
        exact ⟨by simp, r, x, hr, hb, hp, rfl⟩
      split at h
      · next hrest =>
        split at h
        · obtain ⟨⟩ := h
          obtain ⟨hm, hex⟩ := ih hrest
          exact ⟨by simp [hm], hex⟩
        · exact self (Option.some.inj h)
      · exact self (Option.some.inj h)
    · rw [firstInQueue_cons_of_not fun r x hr hb => by
        rw [← Bool.not_eq_true]; exact fun hp => hk ⟨r, x, hr, hb, hp⟩] at h
      obtain ⟨hm, hex⟩ := ih h
      exact ⟨by simp [hm], hex⟩

/-- The record that `p` admits at a rank below those before it and not above those behind it stands first. -/
theorem firstInQueue_eq_some {before after : List Slot} (hr : s.record i = some r) (hb : r.body = .outbound x)
    (hp : p r x = true)
    (hbefore : ∀ j q y, j ∈ before → s.record j = some q → q.body = .outbound y → p q y = true →
      queueRank r x < queueRank q y)
    (hafter : ∀ j q y, j ∈ after → s.record j = some q → q.body = .outbound y → p q y = true →
      queueRank r x ≤ queueRank q y) :
    s.firstInQueue p (before ++ i :: after) = some (queueRank r x, i) := by
  induction before with
  | nil =>
    rw [List.nil_append, firstInQueue_cons hr hb hp]
    split
    · next n j hj =>
      obtain ⟨hm, q, y, hq, hqb, hqp, rfl⟩ := firstInQueue_mem hj
      rw [if_neg (Nat.not_lt.mpr (hafter j q y hm hq hqb hqp))]
    · rfl
  | cons k before ih =>
    have rest := ih fun j q y hj => hbefore j q y (by simp [hj])
    by_cases hk : ∃ q y, s.record k = some q ∧ q.body = .outbound y ∧ p q y = true
    · obtain ⟨q, y, hq, hqb, hqp⟩ := hk
      rw [List.cons_append, firstInQueue_cons hq hqb hqp, rest]
      exact if_pos (hbefore k q y (by simp) hq hqb hqp)
    · rw [List.cons_append, firstInQueue_cons_of_not fun q y hq hqb => by
        rw [← Bool.not_eq_true]; exact fun hqp => hk ⟨q, y, hq, hqb, hqp⟩]
      exact rest

end

/-- What a line chooses stands in its queue and is choosable. -/
theorem exists_of_choice (h : s.choice l = some i) : i ∈ (s.line l).sched.queue ∧
    ∃ r x, s.record i = some r ∧ r.body = .outbound x ∧ s.choosable x = true := by
  obtain ⟨⟨n, j⟩, hj, hji⟩ := Option.map_eq_some_iff.mp h
  obtain rfl : j = i := hji
  obtain ⟨hm, r, x, hr, hb, hp, -⟩ := firstInQueue_mem hj
  exact ⟨hm, r, x, hr, hb, hp⟩

end

/-! ### The plane of the current story (R164) -/

section
variable {s : Part} {l : LineNo} {i : Slot} {r : Record} {x : OutRecord} {n : Nat} {p : Plane}

theorem currentPlane_of_none (hc : (s.line l).sched.current = none) : s.currentPlane l = .ltrs := by
  rw [Part.currentPlane, hc]

section
variable (hc : (s.line l).sched.current = some i) (hr : s.record i = some r) (hb : r.body = .outbound x)
include hc hr hb

theorem currentPlane_of_resume (hx : x.resume = some (n, p))
    (hp : (s.line l).sched.position = none ∨ (s.line l).sched.position = some n) : s.currentPlane l = p := by
  rcases hp with hp | hp <;> simp [Part.currentPlane, hc, hr, hp, Record.outbound?, hb, hx]

theorem currentPlane_of_position (hx : ∀ m q, x.resume = some (m, q) → (s.line l).sched.position ≠ some m)
    (hp : (s.line l).sched.position = some n) : s.currentPlane l = (s.lineStart r n).2 := by
  cases hxr : x.resume with
  | none => simp [Part.currentPlane, hc, hr, hp, Record.outbound?, hb, hxr]
  | some mq =>
    obtain ⟨m, q⟩ := mq
    have hne : n ≠ m := fun h => hx m q hxr (h ▸ hp)
    simp [Part.currentPlane, hc, hr, hp, Record.outbound?, hb, hxr, hne]

end

theorem lineStart_of_mark (h : (s.outEntry r n).mark = true) :
    s.lineStart r (n + 1) = (n + 1, (s.outEntry r n).plane) := by rw [Part.lineStart, if_pos h]

end

/-! ### The next code (R157) -/

section
variable {s : Part} {l : LineNo} {p : Plane} {b : Bool} {u : ShiftUse}

theorem nextCode_of_story {i : Slot} {r : Record} {n : Nat} (hp : (s.line l).sched.piece = .story)
    (hc : (s.line l).sched.current = some i) (hr : s.record i = some r) (hn : (s.line l).sched.position = some n)
    (hlt : n < r.count) : s.nextCode l = some (s.outEntry r n).code := by
  simp [Part.nextCode, hp, hc, hr, hn, hlt]

theorem nextCode_of_piece (hp : (s.line l).sched.piece ≠ .story) :
    s.nextCode l = (s.pieceCodes l)[(s.line l).sched.progress]? := by
  rw [Part.nextCode]
  cases h : (s.line l).sched.piece <;> first | exact absurd h hp | rfl

theorem pieceCodes_interruption (h : (s.line l).sched.piece = .interruption) :
    s.pieceCodes l = (s.line l).texts.interruption := by rw [Part.pieceCodes, h]

theorem pieceCodes_resumption (h : (s.line l).sched.piece = .resumption) :
    s.pieceCodes l = (s.line l).texts.resumption := by rw [Part.pieceCodes, h]

theorem pieceCodes_answerBack (h : (s.line l).sched.piece = .answerBack b) :
    s.pieceCodes l = (s.line l).texts.answerBack ++ [shiftCode (s.map l) (s.currentPlane l)] := by
  rw [Part.pieceCodes, h]

theorem pieceCodes_shift (h : (s.line l).sched.piece = .shift p u) : s.pieceCodes l = [shiftCode (s.map l) p] := by
  rw [Part.pieceCodes, h]

/-- The sender of line `l` can begin a code: in IDLE, running, nothing on the output (R10, R15). -/
def Part.readyToSend (s : Part) (l : LineNo) : Prop :=
  (s.line l).unit.state = .idle ∧ (s.line l).sched.running = true ∧ (s.line l).unit.out = none

theorem offerCode_of_code {c : Code} (h : s.readyToSend l) (hc : s.nextCode l = some c) :
    s.offerCode l = s.beginCode l c .scheduler := by
  obtain ⟨hidle, hrun, hout⟩ := h
  rw [Part.offerCode, if_pos ⟨hidle, hrun, hout⟩, hc]

theorem offerCode_of_not_ready (h : ¬s.readyToSend l) : s.offerCode l = s := by
  rw [Part.offerCode]
  exact if_neg h

theorem startPiece_eq (q : Piece) :
    s.startPiece l q = (s.updSched l fun k => { k with piece := q, progress := 0 }).offerCode l := rfl

/-- Line `l` with piece `q` put on its sender and code `c` begun. -/
def Part.begins (s : Part) (l : LineNo) (q : Piece) (c : Code) : Part :=
  (s.updSched l fun k => { k with piece := q, progress := 0 }).beginCode l c .scheduler

theorem begins_eq (q : Piece) (c : Code) : s.begins l q c = s.updLine l fun x => { x with
    unit := { x.unit with out := some (s.begun c) }, sched := { x.sched with piece := q, progress := 0 } } :=
  updLine_updLine s l (fun x => { x with sched := { x.sched with piece := q, progress := 0 } })
    fun x => { x with unit := { x.unit with out := some (s.begun c) } }

/-- A piece other than a story begins with its first code. -/
theorem startPiece_of_code {q : Piece} {c : Code} {cs : List Code} (h : s.readyToSend l) (hq : q ≠ .story)
    (hc : (s.updSched l fun k => { k with piece := q, progress := 0 }).pieceCodes l = c :: cs) :
    s.startPiece l q = s.begins l q c := by
  rw [startPiece_eq, offerCode_of_code (by simpa [Part.readyToSend] using h)]
  · rfl
  · rw [nextCode_of_piece (by simpa using hq), hc]
    simp

theorem startPiece_interruption {c : Code} {cs : List Code} (h : s.readyToSend l)
    (ht : (s.line l).texts.interruption = c :: cs) : s.startPiece l .interruption = s.begins l .interruption c :=
  startPiece_of_code (cs := cs) h nofun (by rw [pieceCodes_interruption (by simp)]; simpa using ht)

theorem startPiece_resumption {c : Code} {cs : List Code} (h : s.readyToSend l)
    (ht : (s.line l).texts.resumption = c :: cs) : s.startPiece l .resumption = s.begins l .resumption c :=
  startPiece_of_code (cs := cs) h nofun (by rw [pieceCodes_resumption (by simp)]; simpa using ht)

theorem startPiece_answerBack {c : Code} {cs : List Code} (h : s.readyToSend l)
    (ht : (s.line l).texts.answerBack = c :: cs) (b : Bool) :
    s.startPiece l (.answerBack b) = s.begins l (.answerBack b) c :=
  startPiece_of_code h nofun (by rw [pieceCodes_answerBack (b := b) (by simp)]; simp [ht]; rfl)

theorem startPiece_shift (h : s.readyToSend l) (p : Plane) (u : ShiftUse) :
    s.startPiece l (.shift p u) = s.begins l (.shift p u) (shiftCode (s.map l) p) :=
  startPiece_of_code (cs := []) h nofun (pieceCodes_shift (u := u) (by simp))

/-- A story begins at its position, when a code stands there. -/
theorem startPiece_story {i : Slot} {r : Record} {n : Nat} (h : s.readyToSend l)
    (hc : (s.line l).sched.current = some i) (hr : s.record i = some r) (hn : (s.line l).sched.position = some n)
    (hlt : n < r.count) : s.startPiece l .story = s.begins l .story (s.outEntry r n).code := by
  rw [startPiece_eq, offerCode_of_code (by simpa [Part.readyToSend] using h)]
  · rfl
  · exact nextCode_of_story (s := s.updSched l _) (by simp) (by simpa using hc) hr (by simpa using hn) hlt

end

/-! ### The free sender (R155, R156, R164) -/

section
variable {s t : Part} {l : LineNo} {i : Slot} {r : Record} {x : OutRecord}

theorem senderFree_iff : s.senderFree l = true ↔ (s.line l).sched.running = true ∧
    (s.line l).sched.piece = .none ∧ (s.line l).sched.current = none := by
  simp [Part.senderFree, and_assoc]

theorem freeStep_of_not_free (h : s.senderFree l = false) : s.freeStep l = none := by
  rw [Part.freeStep, h]; rfl

theorem freeStep_of_no_choice (ha : (s.line l).sched.answerBack ≠ .pending) (hc : s.choice l = none) :
    s.freeStep l = none := by
  rw [Part.freeStep, if_neg ha, hc, ite_self]

theorem freeStep_of_pending (hf : s.senderFree l = true) (ha : (s.line l).sched.answerBack = .pending) :
    s.freeStep l = some ((s.updSched l fun k => { k with answerBack := .beingSent }).startPiece l
      (.answerBack false), false) := by
  rw [Part.freeStep, if_pos hf, if_pos ha]

theorem freeStep_of_choice (hf : s.senderFree l = true) (ha : (s.line l).sched.answerBack ≠ .pending)
    (hc : s.choice l = some i) : s.freeStep l = some (s.choose l i) := by
  rw [Part.freeStep, if_pos hf, if_neg ha, hc]

/-- What a free sender does: begin its pending answer-back, or choose a choosable record of its queue. -/
theorem freeStep_cases {b : Bool} (h : s.freeStep l = some (t, b)) :
    s.senderFree l = true ∧
    ((s.line l).sched.answerBack = .pending ∧ b = false ∧
        t = (s.updSched l fun k => { k with answerBack := .beingSent }).startPiece l (.answerBack false) ∨
      ∃ i, s.choice l = some i ∧ s.choose l i = (t, b)) := by
  unfold Part.freeStep at h
  split at h
  · next hf =>
    refine ⟨hf, ?_⟩
    split at h
    · next ha => cases h; exact .inl ⟨ha, rfl, rfl⟩
    · split at h
      · next i hi => exact .inr ⟨i, hi, Option.some.inj h⟩
      · cases h
  · cases h

theorem settle_of_idle {n : Nat} {ls : List LineNo} (h : ∀ l ∈ ls, s.freeStep l = none) : settle n ls s = s := by
  induction ls generalizing n with
  | nil => cases n <;> rfl
  | cons l ls ih =>
    cases n with
    | zero => rfl
    | succ n =>
      rw [settle, h l (by simp)]
      exact ih fun m hm => h m (by simp [hm])

/-- What every step of a free sender keeps, the settling of lines keeps. -/
theorem settle_keeps {P : Part → Prop} (h : ∀ s l t b, P s → s.freeStep l = some (t, b) → P t) (n : Nat)
    (ls : List LineNo) (hs : P s) : P (settle n ls s) := by
  induction n generalizing ls s with
  | zero => cases ls <;> exact hs
  | succ n ih =>
    induction ls with
    | nil => exact hs
    | cons l ls ihls =>
      rw [settle]
      split
      · exact ih ls hs
      · next t b ht => exact ih _ (h s l t b hs ht)

theorem settle_of_step {n : Nat} {ls : List LineNo} {b : Bool} (h : s.freeStep l = some (t, b)) :
    settle (n + 1) (l :: ls) s = settle n (l :: if b then allLines ++ ls else ls) t := by
  rw [settle, h]

theorem settleLines_eq (ls : List LineNo) : s.settleLines ls = settle 1024 ls s := rfl

/-- A free sender that takes one step, which opens no group and after which it is free no longer. -/
theorem settleLines_of_step (h : s.freeStep l = some (t, false)) (ht : t.senderFree l = false) :
    s.settleLines [l] = t := by
  rw [settleLines_eq, settle_of_step h]
  exact settle_of_idle fun m hm => by
    obtain rfl : m = l := by simpa using hm
    exact freeStep_of_not_free ht

theorem settleLines_of_idle {ls : List LineNo} (h : ∀ l ∈ ls, s.freeStep l = none) : s.settleLines ls = s :=
  settle_of_idle h

section
variable (hr : s.record i = some r) (hb : r.body = .outbound x)
include hr hb

/-- Slot `i` in SENDING. -/
theorem choose_eq : s.choose l i =
    let t := s.setRecord i (some { r with body := .outbound { x with state := .sending } })
    if x.state = .suspended then
      ((t.updSched l fun k => { k with
        current := some i, position := some ((x.resume.map Prod.fst).getD 0),
        resumptionOwed := true }).startResumption l, false)
    else if r.count = 0 then (t.updSched l fun k => { k with current := some i, position := some 0 }).completeStory l i
    else ((t.updSched l fun k => { k with current := some i, position := some 0 }).startPiece l .story, false) := by
  have hout : r.outbound? = some x := by simp [Record.outbound?, hb]
  simp only [Part.choose, hr, hout, updOut_eq hr hb]

/-- An outbound record enters REPORTING (R154, R171, R172). -/
theorem report_eq (o : SendOutcome) (n : Nat) : s.report l i o n =
    ((s.setRecord i (some { r with body := .outbound { x with
        state := .reporting, outcome := some o, total := n, resume := none } })).updSched l fun k =>
          { k with queue := k.queue.filter fun j => !(j == i) }).addRequest
      { owner := .record i, cls := r.priority, kind := .close, key := x.call } := by
  rw [Part.report, updOut_eq hr hb, setRecord_updSched]
  exact requestCall_eq (r := { r with body := .outbound { x with
    state := .reporting, outcome := some o, total := n, resume := none } }) (record_setRecord_self _ i _) rfl _

end

end

/-- The completion group of a story, if any, opened (R159). -/
def Part.opens (s : Part) (g : Option Group) : Part :=
  match g with
  | some g => s.setGroup g true
  | none => s

theorem opens_rest (s : Part) (g : Option Group) : { s.opens g with groups := s.groups } = s := by cases g <;> rfl

theorem opens_eq (s : Part) (g : Option Group) : s.opens g = { s with groups := (s.opens g).groups } := by
  cases g <;> rfl

/-- A group open before stays open, and the one opened is open. -/
theorem get_groups_opens {s : Part} {g : Option Group} (h : Group) :
    (s.opens g).groups.get h = true ↔ s.groups.get h = true ∨ g = some h := by
  cases g with
  | none => simp [Part.opens]
  | some g =>
    by_cases hg : h = g
    · subst hg; simp [Part.opens, Part.setGroup]
    · simp [Part.opens, Part.setGroup, vector_get_set_ne _ _ hg, Ne.symm hg]

/-- The current story completed (R171, R159). -/
theorem completeStory_eq {s : Part} {l : LineNo} {i : Slot} {r : Record} {x : OutRecord} (hr : s.record i = some r)
    (hb : r.body = .outbound x) : s.completeStory l i =
    ((((s.opens x.completion).setRecord i (some { r with body := .outbound { x with
          state := .reporting, outcome := some .sent, total := r.count, resume := none } })).updSched l fun k =>
        { k with current := none, position := none, piece := .none, progress := 0, resumptionOwed := false,
                 queue := k.queue.filter fun j => !(j == i) }).addRequest
        { owner := .record i, cls := r.priority, kind := .close, key := x.call }, x.completion.isSome) := by
  have hout : r.outbound? = some x := by simp [Record.outbound?, hb]
  have eq : s.completeStory l i = (((s.opens x.completion).updSched l fun k =>
      { k with current := none, position := none, piece := .none, progress := 0, resumptionOwed := false }).report
      l i .sent r.count, x.completion.isSome) := by
    rw [Part.completeStory, hr]
    dsimp only
    rw [hout]
    rfl
  have hro : (s.opens x.completion).record i = some r := by rw [opens_eq]; exact hr
  rw [eq, report_eq (s := (s.opens x.completion).updSched l _) hro hb]
  simp only [setRecord_updSched, updSched_updSched]

end Sys2Proof.Machine
end

section
/-! Release groups (08.2): a group opened lets the free senders choose, and none closes while they do. -/

namespace Sys2Proof.Machine

section
variable {s t : Part} {l : LineNo} {i : Slot} {r : Record} {x : OutRecord}

/-- One free sender among lines of which no other has anything to begin. -/
theorem settle_of_sole {n : Nat} {ls : List LineNo} (hs : ∀ m ∈ ls, m ≠ l → s.freeStep m = none) (hl : l ∈ ls)
    (hstep : s.freeStep l = some (t, false)) (ht : ∀ m, t.freeStep m = none) (hn : ls.length ≤ n) :
    settle n ls s = t := by
  induction ls generalizing n with
  | nil => cases hl
  | cons m ls ih =>
    obtain ⟨n, rfl⟩ := Nat.exists_eq_succ_of_ne_zero (Nat.ne_zero_of_lt (Nat.lt_of_lt_of_le (Nat.succ_pos _) hn))
    by_cases hm : m = l
    · subst hm
      rw [settle_of_step hstep]
      exact settle_of_idle fun k _ => ht k
    · rw [settle, hs m (by simp) hm]
      exact ih (fun k hk => hs k (by simp [hk])) ((List.mem_cons.mp hl).resolve_left (Ne.symm hm))
        (Nat.le_of_succ_le_succ hn)

theorem settleLines_of_sole {ls : List LineNo} (hs : ∀ m ∈ ls, m ≠ l → s.freeStep m = none) (hl : l ∈ ls)
    (hstep : s.freeStep l = some (t, false)) (ht : ∀ m, t.freeStep m = none) (hn : ls.length ≤ 1024) :
    s.settleLines ls = t := by
  rw [settleLines_eq]
  exact settle_of_sole hs hl hstep ht hn

/-- A QUEUED story of codes chosen by a free sender begins at its first code (R156). -/
theorem choose_of_queued (hr : s.record i = some r) (hb : r.body = .outbound x) (hx : x.state = .queued)
    (hc : 0 < r.count) (hready : s.readyToSend l) : s.choose l i =
    (((s.setRecord i (some { r with body := .outbound { x with state := .sending } })).updSched l fun k =>
      { k with current := some i, position := some 0 }).begins l .story (s.outEntry r 0).code, false) := by
  rw [choose_eq hr hb]
  dsimp only
  rw [if_neg (by simp [hx]), if_neg (Nat.ne_of_gt hc)]
  refine congrArg (fun t : Part => (t, false)) ?_
  exact startPiece_story (r := { r with body := .outbound { x with state := .sending } })
    (by simpa [Part.readyToSend] using hready) (by simp) (record_setRecord_self s i _) (by simp) hc

theorem line_begins_ne {m : LineNo} (hm : m ≠ l) (p : Piece) (c : Code) : (s.begins l p c).line m = s.line m := by
  rw [begins_eq]; exact line_updLine_ne _ _ _ _ hm

theorem line_begins (p : Piece) (c : Code) : (s.begins l p c).line l = { s.line l with
    unit := { (s.line l).unit with out := some (s.begun c) }
    sched := { (s.line l).sched with piece := p, progress := 0 } } := by
  rw [begins_eq]; exact line_updLine_self _ _ _

theorem begins_rest (p : Piece) (c : Code) : { s.begins l p c with lines := s.lines } = s := rfl

theorem senderFree_congr (h : t.line l = s.line l) : t.senderFree l = s.senderFree l := by
  simp [Part.senderFree, h]

theorem not_senderFree_begins {p : Piece} (hp : p ≠ .none) (c : Code) : (s.begins l p c).senderFree l = false := by
  simp [Part.senderFree, line_begins, hp]

/-! ### Groups that open (R158, R159) -/

/-- Every group open in `s` is open in `t`. -/
def GroupsKept (s t : Part) : Prop := ∀ g, s.groups.get g = true → t.groups.get g = true

theorem groupsKept_of_eq (h : t.groups = s.groups) : GroupsKept s t := fun _ hg => by rw [h]; exact hg

theorem groupsKept_completeStory (s : Part) (l : LineNo) (i : Slot) : GroupsKept s (s.completeStory l i).1 := by
  unfold Part.completeStory
  split
  · exact groupsKept_of_eq rfl
  · next r hr =>
    dsimp only
    generalize r.outbound?.bind OutRecord.completion = g
    have kept : GroupsKept s (s.opens g) := fun h hh => (get_groups_opens h).mpr (.inl hh)
    intro h hh
    have same := (report_act (K := (· ∈ [.record, .sched, .list])) (by decide) (by decide) (by decide) l i .sent
      r.count (.sched l (fun k => { k with
        current := none, position := none, piece := .none, progress := 0, resumptionOwed := false }) (by decide)
        (.refl (s := s.opens g)))).groups_eq (by decide)
    exact same ▸ kept h hh

theorem groupsKept_choose (hr : s.record i = some r) (hb : r.body = .outbound x) : GroupsKept s (s.choose l i).1 := by
  rw [choose_eq hr hb]
  dsimp only
  split
  · exact groupsKept_of_eq ((startResumption_act (K := (· ∈ [.unit, .sched, .record])) (by decide) (by decide) l
      .refl).groups_eq (by decide))
  · split
    · exact fun g hg => groupsKept_completeStory _ l i g hg
    · exact groupsKept_of_eq ((startPiece_act (K := (· ∈ [.unit, .sched, .record])) (by decide) (by decide) l .story
        .refl).groups_eq (by decide))

theorem groupsKept_settle (n : Nat) (ls : List LineNo) (s : Part) : GroupsKept s (settle n ls s) := by
  refine settle_keeps (P := GroupsKept s) (fun u l t b hu hstep => ?_) n ls fun _ hg => hg
  obtain ⟨-, ⟨-, -, rfl⟩ | ⟨i, hi, heq⟩⟩ := freeStep_cases hstep
  · have same := (startPiece_act (K := (· ∈ [.unit, .sched])) (by decide) (by decide) l (.answerBack false)
      (.sched l (fun k => { k with answerBack := .beingSent }) (by decide) (.refl (s := u)))).groups_eq (by decide)
    exact fun g hg => same ▸ hu g hg
  · obtain ⟨-, r, x, hr, hb, -⟩ := exists_of_choice hi
    have kept := groupsKept_choose (l := l) hr hb
    rw [heq] at kept
    exact fun g hg => kept g (hu g hg)

end

/-! ### RELEASE and REHOLD (R158) -/

section
variable {s : Part} {o : Order} {g : Group} (h : o.arg = [BitVec.ofNat 8 g.val])
include h

theorem toNat_group_argument : (o.arg.headD 255).toNat = g.val := by
  rw [h, List.headD_cons, BitVec.toNat_ofNat]
  omega

theorem releaseGroup_of_group : s.releaseGroup o = (s.setGroup g true).settleLines allLines := by
  have hg := toNat_group_argument h
  rw [Part.releaseGroup, dif_pos (by omega)]
  congr 2
  exact Fin.ext hg

theorem reholdGroup_of_group : s.reholdGroup o = s.setGroup g false := by
  have hg := toNat_group_argument h
  rw [Part.reholdGroup, dif_pos (by omega)]
  congr 1
  exact Fin.ext hg

end

theorem group_out_of_range {s : Part} {o : Order} {b : Byte} (h : o.arg = [b]) (hb : 8 ≤ b.toNat) :
    s.releaseGroup o = s ∧ s.reholdGroup o = s := by
  have hlt : ¬(o.arg.headD 255).toNat < 8 := by rw [h]; exact Nat.not_lt.mpr hb
  exact ⟨dif_neg hlt, dif_neg hlt⟩

theorem exec_release {o : Order} {s : State} (ht : s.toPart.takes (.station 1) o) (hs : s.supervises o = true) :
    exec (.release o) s = .next { s with toPart := (s.toPart.heard.releaseGroup o).serveBus } :=
  complete_supervisoryOrder ht hs 10 _

theorem exec_rehold {o : Order} {s : State} (ht : s.toPart.takes (.station 1) o) (hs : s.supervises o = true) :
    exec (.rehold o) s = .next { s with toPart := (s.toPart.heard.reholdGroup o).serveBus } :=
  complete_supervisoryOrder ht hs 11 _

/-- A sole free sender, whose queue holds one story that waits for group `g`, when that group opens. -/
theorem settleLines_of_released {s : Part} {g : Group} {l : LineNo} {i : Slot} {r : Record} {x : OutRecord}
    (hf : s.senderFree l = true) (hsole : ∀ m, m ≠ l → s.senderFree m = false)
    (hq : (s.line l).sched.queue = [i]) (ha : (s.line l).sched.answerBack = .clear)
    (hidle : (s.line l).unit.state = .idle) (hout : (s.line l).unit.out = none) (hr : s.record i = some r)
    (hb : r.body = .outbound x) (hx : x.state = .queued) (hrel : x.release = some g) (hc : 0 < r.count) :
    (s.setGroup g true).settleLines allLines =
      ((((s.setGroup g true).setRecord i (some { r with body := .outbound { x with state := .sending } })).updSched l
        fun k => { k with current := some i, position := some 0 }).begins l .story (s.outEntry r 0).code) := by
  have choosable : (s.setGroup g true).choosable x = true := by
    refine choosable_iff.mpr (.inr ⟨hx, fun g' hg' => ?_⟩)
    rw [hrel] at hg'
    cases hg'
    exact vector_get_set_self _ _ _
  have choice : (s.setGroup g true).choice l = some i := by
    have first := firstInQueue_eq_some (s := s.setGroup g true) (p := fun _ y => (s.setGroup g true).choosable y)
      (before := []) (after := []) hr hb choosable (fun _ _ _ h => absurd h List.not_mem_nil)
      fun _ _ _ h => absurd h List.not_mem_nil
    rw [Part.choice, show ((s.setGroup g true).line l).sched.queue = [] ++ i :: [] from hq, first]
    rfl
  have step := freeStep_of_choice (s := s.setGroup g true) hf
    (fun hp => nomatch ha.symm.trans hp) choice
  rw [choose_of_queued (s := s.setGroup g true) hr hb hx hc ⟨hidle, (senderFree_iff.mp hf).1, hout⟩] at step
  have others (m : LineNo) (_ : m ∈ allLines) (hm : m ≠ l) : (s.setGroup g true).freeStep m = none :=
    freeStep_of_not_free (hsole m hm)
  have few : allLines.length ≤ 1024 := by decide
  refine settleLines_of_sole others (mem_allLines l) step (fun m => ?_) few
  refine freeStep_of_not_free ?_
  by_cases hm : m = l
  · subst hm; exact not_senderFree_begins (p := .story) nofun _
  · exact (senderFree_congr ((line_begins_ne hm _ _).trans (line_updSched_ne _ _ _ _ hm))).trans (hsole m hm)

/-- Settles O57: the group of the argument, and the one sender that it frees to choose. -/
theorem groupsReleasedAndHeld : Obligations.GroupsReleasedAndHeld := by
  intro o s ht hs
  refine ⟨fun g hg => ⟨?_, fun hbusy => ?_, (s.toPart.heard.setGroup g true).settleLines allLines, ?_, ?_, fun h hh => ?_,
    fun l i r x hf hsole hq ha hidle hout hr hb hx hrel hc => ?_⟩, fun b hb hlt => ?_⟩
  · rw [exec_rehold ht hs, reholdGroup_of_group hg]
  · rw [exec_release ht hs, releaseGroup_of_group hg,
      settleLines_of_idle fun l _ => freeStep_of_not_free (s := s.toPart.heard.setGroup g true) (hbusy l)]
  · rw [exec_release ht hs, releaseGroup_of_group hg]
  · exact groupsKept_settle _ _ _ g (vector_get_set_self _ _ _)
  · refine groupsKept_settle _ _ _ h ?_
    by_cases hgh : h = g
    · subst hgh; exact vector_get_set_self _ _ _
    · exact (vector_get_set_ne s.toPart.groups true hgh).trans hh
  · rw [settleLines_of_released (s := s.toPart.heard) hf hsole hq ha hidle hout hr hb hx hrel hc, line_begins]
    refine ⟨record_setRecord_self _ _ _, by simp, by simp, rfl, fun h hgh => ?_⟩
    exact vector_get_set_ne s.toPart.groups true hgh
  · obtain ⟨hrel, hreh⟩ := group_out_of_range (s := s.toPart.heard) hb hlt
    rw [exec_release ht hs, exec_rehold ht hs, hrel, hreh]
    exact ⟨rfl, rfl⟩

end Sys2Proof.Machine
end

section
/-! The sender of a line once a code has been sent (08.1 to 08.4): a piece ends, and a free sender chooses. -/

namespace Sys2Proof.Machine

/-! ### What the operations of a sender leave alone -/

section
variable (s : Part) (l : LineNo) {m : LineNo}

theorem offerCode_unit : Act (· ∈ [.unit]) s (s.offerCode l) := offerCode_act (by decide) l .refl

@[simp] theorem sched_offerCode : ((s.offerCode l).line m).sched = (s.line m).sched :=
  (offerCode_unit s l).sched_eq (by decide) m

@[simp] theorem offerCode_record (i : Slot) : (s.offerCode l).record i = s.record i :=
  (offerCode_unit s l).record_eq (by decide) (by decide) i

theorem requestOf_offerCode (o : Owner) : (s.offerCode l).requestOf o = s.requestOf o := by
  rw [Part.requestOf, (offerCode_unit s l).port_eq (by decide) (by decide)]; rfl

theorem line_offerCode_ne (h : m ≠ l) : (s.offerCode l).line m = s.line m := by
  unfold Part.offerCode
  split
  · split
    · exact line_updUnit_ne _ _ _ _ h
    · rfl
  · rfl

variable (p : Piece)

theorem sched_startPiece : ((s.startPiece l p).line l).sched = { (s.line l).sched with piece := p, progress := 0 } := by
  rw [startPiece_eq, sched_offerCode, sched_updSched]

@[simp] theorem startPiece_record (i : Slot) : (s.startPiece l p).record i = s.record i :=
  offerCode_record _ _ _

theorem requestOf_startPiece (o : Owner) : (s.startPiece l p).requestOf o = s.requestOf o := requestOf_offerCode _ _ _

theorem line_startPiece_ne (h : m ≠ l) : (s.startPiece l p).line m = s.line m := by
  rw [startPiece_eq, line_offerCode_ne _ _ h, line_updSched_ne _ _ _ _ h]

end

/-! ### What a choice and the settling leave alone (R155, R156) -/

section
variable {s t : Part} {l m : LineNo} {i j : Slot} {r : Record} {x : OutRecord}

section
variable (s : Part) (g : Option Group)
@[simp] theorem opens_line (m : LineNo) : (s.opens g).line m = s.line m := by rw [opens_eq]; rfl
@[simp] theorem opens_record (j : Slot) : (s.opens g).record j = s.record j := by rw [opens_eq]; rfl
@[simp] theorem opens_requestOf (o : Owner) : (s.opens g).requestOf o = s.requestOf o := by rw [opens_eq]; rfl
@[simp] theorem opens_hasRequest (o : Owner) : (s.opens g).hasRequest o = s.hasRequest o := by rw [opens_eq]; rfl
end

/-- The choice of slot `i` by line `l`: other lines, other records and their requests stay, no record joins the queue,
and the sender stands at that record or at none. -/
structure Chosen (s t : Part) (l : LineNo) (i : Slot) : Prop where
  lines : ∀ m, m ≠ l → t.line m = s.line m
  records : ∀ j, j ≠ i → t.record j = s.record j
  requests : ∀ j, j ≠ i → t.requestOf (.record j) = s.requestOf (.record j)
  queue : ∀ j ∈ (t.line l).sched.queue, j ∈ (s.line l).sched.queue
  current : (t.line l).sched.current = none ∨ (t.line l).sched.current = some i

section
variable {u : Part} (h : Chosen s u l i)
include h

theorem chosen_updSched (f : Sched → Sched) (hf : ∀ k, (f k).queue = k.queue ∧ (f k).current = k.current) :
    Chosen s (u.updSched l f) l i where
  lines m hm := by rw [line_updSched_ne _ _ _ _ hm, h.lines m hm]
  records := h.records
  requests := h.requests
  queue j hj := by
    rw [sched_updSched] at hj
    exact h.queue j ((hf _).1 ▸ hj)
  current := by
    rw [sched_updSched]
    exact (hf (u.line l).sched).2 ▸ h.current

theorem chosen_startPiece (q : Piece) : Chosen s (u.startPiece l q) l i where
  lines m hm := by rw [line_startPiece_ne _ _ _ hm, h.lines m hm]
  records j hj := (startPiece_record _ _ _ _).trans (h.records j hj)
  requests j hj := (requestOf_startPiece _ _ _ _).trans (h.requests j hj)
  queue j hj := by
    rw [sched_startPiece] at hj
    exact h.queue j hj
  current := by
    rw [sched_startPiece]
    exact h.current

theorem chosen_startResumption : Chosen s (u.startResumption l) l i := by
  unfold Part.startResumption
  split
  · exact chosen_startPiece (chosen_updSched h (fun k => { k with resumptionOwed := false }) fun _ => ⟨rfl, rfl⟩) _
  · exact chosen_startPiece h _

theorem chosen_completeStory (hr : u.record i = some r) (hb : r.body = .outbound x) :
    Chosen s (u.completeStory l i).1 l i := by
  rw [completeStory_eq hr hb]
  constructor
  case lines => exact fun m hm => by simpa [line_updSched_ne _ _ _ _ hm] using h.lines m hm
  case records => exact fun j hj => by simpa [record_setRecord_ne _ _ _ _ hj] using h.records j hj
  case requests =>
    intro j hj
    rw [requestOf_addRequest_ne _ _ _ (by simpa using Ne.symm hj)]
    simpa using h.requests j hj
  case queue =>
    intro j hj
    simp only [addRequest_line, sched_updSched, setRecord_line, opens_line, List.mem_filter] at hj
    exact h.queue j hj.1
  case current => exact .inl (by simp)

end

theorem choose_chosen (hr : s.record i = some r) (hb : r.body = .outbound x) : Chosen s (s.choose l i).1 l i := by
  have seated (n : Nat) (b : Sched → Bool) : Chosen s ((s.setRecord i (some { r with
      body := .outbound { x with state := .sending } })).updSched l fun k =>
        { k with current := some i, position := some n, resumptionOwed := b k }) l i :=
    ⟨fun m hm => line_updSched_ne _ _ _ _ hm, fun j hj => record_setRecord_ne _ _ _ _ hj, fun _ _ => rfl,
      fun j hj => by simpa using hj, .inr (by simp)⟩
  rw [choose_eq hr hb]
  dsimp only
  split
  · exact chosen_startResumption (seated _ fun _ => true)
  · split
    · exact chosen_completeStory (seated 0 Sched.resumptionOwed) (record_setRecord_self s i _) rfl
    · exact chosen_startPiece (seated 0 Sched.resumptionOwed) .story

/-- What a free sender's step can do: nothing beside its line at an answer-back, else the choice of a choosable record
of its queue. -/
theorem freeStep_changes {b : Bool} (h : s.freeStep l = some (t, b)) :
    (∀ m, m ≠ l → t.line m = s.line m) ∧
    ((t.line l).sched.queue = (s.line l).sched.queue ∧ (t.line l).sched.current = none ∧
        (∀ j, t.record j = s.record j) ∧ (∀ j, t.requestOf (.record j) = s.requestOf (.record j)) ∨
      ∃ i r x, i ∈ (s.line l).sched.queue ∧ s.record i = some r ∧ r.body = .outbound x ∧ s.choosable x = true ∧
        Chosen s t l i) := by
  obtain ⟨hf, ⟨-, -, rfl⟩ | ⟨i, hi, heq⟩⟩ := freeStep_cases h
  · refine ⟨fun m hm => by rw [line_startPiece_ne _ _ _ hm, line_updSched_ne _ _ _ _ hm], .inl ⟨?_, ?_, fun j => ?_,
      fun j => ?_⟩⟩
    · rw [sched_startPiece, sched_updSched]
    · rw [sched_startPiece, sched_updSched]; exact (senderFree_iff.mp hf).2.2
    · exact startPiece_record _ _ _ _
    · exact requestOf_startPiece _ _ _ _
  · obtain ⟨hm, r, x, hr, hb, hc⟩ := exists_of_choice hi
    have chosen := choose_chosen (l := l) hr hb
    rw [heq] at chosen
    exact ⟨chosen.lines, .inr ⟨i, r, x, hm, hr, hb, hc, chosen⟩⟩

/-- A record that is neither QUEUED nor SUSPENDED, with what line `l` makes of it: no free sender takes it up. -/
structure Settled (l : LineNo) (i : Slot) (r : Record) (q : Option Request) (s : Part) : Prop where
  record : s.record i = some r
  request : s.requestOf (.record i) = q
  queue : i ∉ (s.line l).sched.queue
  current : (s.line l).sched.current ≠ some i

theorem Settled.freeStep {q : Option Request} {b : Bool} (h : Settled l i r q s) (hb : r.body = .outbound x)
    (hq : x.state ≠ .queued) (hs : x.state ≠ .suspended) (hstep : s.freeStep m = some (t, b)) :
    Settled l i r q t := by
  obtain ⟨hlines, ⟨hqueue, hcurrent, hrecords, hrequests⟩ | ⟨j, p, y, hj, hp, hpb, hy, hc⟩⟩ := freeStep_changes hstep
  · have same : i ∉ (t.line l).sched.queue ∧ (t.line l).sched.current ≠ some i := by
      by_cases hl : l = m
      · subst hl; rw [hqueue, hcurrent]; exact ⟨h.queue, nofun⟩
      · rw [hlines l hl]; exact ⟨h.queue, h.current⟩
    exact ⟨(hrecords i).trans h.record, (hrequests i).trans h.request, same.1, same.2⟩
  · have hij : i ≠ j := by
      rintro rfl
      obtain rfl : p = r := Option.some.inj (hp.symm.trans h.record)
      obtain rfl : y = x := Body.outbound.inj (hpb.symm.trans hb)
      exact (choosable_iff.mp hy).elim hs fun hy => hq hy.1
    have same : i ∉ (t.line l).sched.queue ∧ (t.line l).sched.current ≠ some i := by
      by_cases hl : l = m
      · subst hl
        refine ⟨fun hi => h.queue (hc.queue i hi), ?_⟩
        rcases hc.current with hn | hn <;> rw [hn]
        · exact nofun
        · exact fun e => hij (Option.some.inj e).symm
      · rw [hlines l hl]; exact ⟨h.queue, h.current⟩
    exact ⟨(hc.records i hij).trans h.record, (hc.requests i hij).trans h.request, same.1, same.2⟩

theorem Settled.settle {q : Option Request} (h : Settled l i r q s) (hb : r.body = .outbound x)
    (hq : x.state ≠ .queued) (hs : x.state ≠ .suspended) (n : Nat) (ls : List LineNo) :
    Settled l i r q (settle n ls s) :=
  settle_keeps (P := Settled l i r q) (fun _ _ _ _ hu hstep => hu.freeStep hb hq hs hstep) n ls h

end

/-! ### CODE_SENT (R10, R157) -/

theorem exec_codeSent {l : LineNo} {s : State} (ha : s.active l = true) :
    exec (.codeSent l) s = .next { s with toPart := (s.toPart.codeSent l).serveBus } := by
  have eq : exec (.codeSent l) s = complete s (if s.toPart.active l then s.toPart.codeSent l else s.toPart) := rfl
  rw [eq, if_pos ha]; rfl

/-- The output of line `l` free again, its scheduler told SENT (R10). -/
def Part.reported (s : Part) (l : LineNo) : Part :=
  s.updUnit l fun x => { x with lastReport := some .sent, out := none }

section
variable {s : Part} {l : LineNo} {o : OutCode}

theorem codeSent_of_counted (ho : (s.line l).unit.out = some o) (hs : o.source = .scheduler) (hc : o.counts = true) :
    s.codeSent l = ((s.reported l).reportSent l).pump l := by
  simp only [Part.codeSent, ho, hs, hc, if_true, updUnit_updUnit]
  rfl

theorem pump_of_idle (h : (s.line l).unit.state = .idle) : s.pump l = s.offerCode l := by rw [Part.pump, h]

theorem pump_of_out {c : OutCode} (h : (s.line l).unit.out = some c) : s.pump l = s := by
  have hout : (s.line l).unit.out ≠ none := by rw [h]; exact nofun
  unfold Part.pump
  split
  · exact offerCode_of_not_ready fun hr => hout hr.2.2
  · unfold Part.startResend
    dsimp only
    split
    · rfl
    · exact if_neg fun hr => hout hr.2
  · exact if_neg fun hr => hout hr.2.2
  · rfl
  · rfl

theorem offerCode_of_no_code (h : s.nextCode l = none) : s.offerCode l = s := by
  rw [Part.offerCode, h, ite_self]

theorem nextCode_of_none (h : (s.line l).sched.piece = .none) : s.nextCode l = none := by
  rw [nextCode_of_piece (by rw [h]; exact nofun), Part.pieceCodes, h]; rfl

/-- A code of a piece other than a story sent, more of it left. -/
theorem reportSent_of_more {q : Piece} (hq : (s.line l).sched.piece = q) (hn : q ≠ .none) (hst : q ≠ .story)
    (hlt : (s.line l).sched.progress + 1 < (s.pieceCodes l).length) :
    s.reportSent l = (s.updSched l fun k => { k with progress := k.progress + 1 }).offerCode l := by
  unfold Part.reportSent
  dsimp only
  split
  · next h => exact absurd (hq.symm.trans h) hn
  · next h => exact absurd (hq.symm.trans h) hst
  · exact if_pos hlt

/-- The last code of a piece other than a story sent. -/
theorem reportSent_of_last {q : Piece} (hq : (s.line l).sched.piece = q) (hn : q ≠ .none) (hst : q ≠ .story)
    (hlt : (s.pieceCodes l).length ≤ (s.line l).sched.progress + 1) :
    s.reportSent l = (s.updSched l fun k => { k with progress := k.progress + 1 }).endPiece l := by
  unfold Part.reportSent
  dsimp only
  split
  · next h => exact absurd (hq.symm.trans h) hn
  · next h => exact absurd (hq.symm.trans h) hst
  · exact if_neg (Nat.not_lt.mpr hlt)

section
variable {i : Slot} {r : Record} {n : Nat} (hq : (s.line l).sched.piece = .story)
  (hcur : (s.line l).sched.current = some i) (hr : s.record i = some r) (hp : (s.line l).sched.position = some n)
include hq hcur hr hp

theorem reportSent_of_story : s.reportSent l =
    let t := s.updSched l fun k => { k with position := some (n + 1) }
    if n + 1 = r.count then
      (t.completeStory l i).1.settleLines (l :: if (t.completeStory l i).2 then allLines else [])
    else if (s.outEntry r n).mark then t.atLineEnd l i r (n + 1) (s.outEntry r n).plane
    else t.offerCode l := by
  unfold Part.reportSent
  simp only [hq, hcur, hp, hr]

end

end

end Sys2Proof.Machine
end

section
/-! A story completed, and the choice of a free sender (08.1, 08.2, 08.6). -/

namespace Sys2Proof.Machine

section
variable {s : Part} {l : LineNo} {i : Slot} {r : Record} {x : OutRecord}

/-- What the next source of the output does touches the line unit and the generator alone. -/
theorem pump_changes {K : Kind → Prop} {s0 : Part} (hu : K .unit) (hs : K .sup) (l : LineNo) (h : Act K s0 s) :
    Act K s0 (s.pump l) := by
  unfold Part.pump
  split
  · exact offerCode_act hu l h
  · unfold Part.startResend
    dsimp only
    split
    · exact h
    · split
      · exact beginCode_act hu l _ _ (.unit l _ hu h)
      · exact h
  · unfold Part.startGenerator
    dsimp only
    split
    · exact beginCode_act hu l _ _ (.sup l _ (fun _ h => h) hs h)
    · exact h
  · exact h
  · exact h

theorem pump_unit (s : Part) (l : LineNo) : Act (· ∈ [.unit, .sup]) s (s.pump l) :=
  pump_changes (by decide) (by decide) l .refl

theorem pump_requestOf (o : Owner) : (s.pump l).requestOf o = s.requestOf o := by
  rw [Part.requestOf, (pump_unit s l).port_eq (by decide) (by decide)]; rfl

theorem Settled.pump {m : LineNo} {q : Option Request} (h : Settled l i r q s) : Settled l i r q (s.pump m) := by
  have hs := (pump_unit s m).sched_eq (by decide) l
  exact ⟨((pump_unit s m).record_eq (by decide) (by decide) i).trans h.record, (pump_requestOf _).trans h.request,
    hs ▸ h.queue, hs ▸ h.current⟩

/-- The record of a story that has completed with all its codes sent (R171). -/
def Record.sentOut (r : Record) (x : OutRecord) : Record :=
  { r with body := .outbound { x with
      state := .reporting, outcome := some .sent, total := r.count, resume := none } }

/-- A completed story: REPORTING, out of its queue, its CLOSE requested (R171). -/
theorem settled_completeStory (hr : s.record i = some r) (hb : r.body = .outbound x) :
    Settled l i (r.sentOut x) ((s.completeStory l i).1.requestOf (.record i)) (s.completeStory l i).1 := by
  rw [completeStory_eq hr hb]
  exact ⟨by simp [Record.sentOut], rfl, by simp, by simp⟩

theorem requestOf_completeStory (hr : s.record i = some r) (hb : r.body = .outbound x)
    (hq : s.hasRequest (.record i) = false) : (s.completeStory l i).1.requestOf (.record i) =
      some { owner := .record i, cls := r.priority, kind := .close, key := x.call } := by
  rw [completeStory_eq hr hb]
  exact requestOf_addRequest_self _ { owner := .record i, cls := r.priority, kind := .close, key := x.call }
    (by simpa using hq)

theorem get_groups_completeStory (hr : s.record i = some r) (hb : r.body = .outbound x) {g : Group}
    (hg : x.completion = some g) : (s.completeStory l i).1.groups.get g = true := by
  rw [completeStory_eq hr hb, addRequest_groups]
  exact (get_groups_opens g).mpr (.inr hg)

/-- What lasts of a completion through the settling of lines and the next code (R159, R171). -/
theorem completed_lasts {n : Nat} {ls : List LineNo} {m : LineNo} {t : Part} (hr : s.record i = some r)
    (hb : r.body = .outbound x) (ht : t = (settle n ls (s.completeStory l i).1).pump m) :
    t.record i = some (r.sentOut x) ∧ i ∉ (t.line l).sched.queue ∧ (t.line l).sched.current ≠ some i ∧
      (∀ g, x.completion = some g → t.groups.get g = true) ∧ GroupsKept s t ∧
      (s.hasRequest (.record i) = false → t.requestOf (.record i) =
        some { owner := .record i, cls := r.priority, kind := .close, key := x.call }) ∧
      Act (· ∈ [.unit, .sched, .sup, .record, .list, .groups]) s t := by
  have settled := ((settled_completeStory (l := l) hr hb).settle rfl (by exact nofun) (by exact nofun) n ls).pump
    (m := m)
  have act : Act (· ∈ [.unit, .sched, .sup, .record, .list, .groups]) s (settle n ls (s.completeStory l i).1) :=
    settle_act (by decide) (by decide) (by decide) (by decide) (by decide) n ls
      (completeStory_act (by decide) (by decide) (by decide) (by decide) l i .refl)
  have groups : t.groups = (settle n ls (s.completeStory l i).1).groups :=
    ht ▸ (pump_unit _ m).groups_eq (by decide)
  have kept : GroupsKept (s.completeStory l i).1 t := fun g hg => groups ▸ groupsKept_settle n ls _ g hg
  rw [← ht] at settled
  refine ⟨settled.record, settled.queue, settled.current, fun g hg => kept g (get_groups_completeStory hr hb hg),
    fun g hg => kept g (groupsKept_completeStory s l i g hg),
    fun hq => settled.request.trans (requestOf_completeStory hr hb hq), ?_⟩
  rw [ht]
  exact pump_changes (by decide) (by decide) m act

end

/-- Settles O32: the completion, and what the settling of lines leaves of it. -/
theorem storyCompletes : Obligations.StoryCompletes := by
  intro l i r x o s ha hidle hout hsrc hcounts k hrun hpiece hcur hr hb hpos hp
  have hn : r.count - 1 + 1 = r.count := Nat.sub_add_cancel hpos
  have story := reportSent_of_story (s := s.toPart.reported l) (l := l) (i := i) (r := r) (n := r.count - 1)
    (by simpa [Part.reported] using hpiece) (by simpa [Part.reported] using hcur) hr
    (by simpa [Part.reported] using hp)
  dsimp only at story
  rw [if_pos hn] at story
  obtain ⟨u, hu⟩ : ∃ u, u = (s.toPart.reported l).updSched l fun k => { k with position := some (r.count - 1 + 1) } :=
    ⟨_, rfl⟩
  obtain ⟨t, ht⟩ : ∃ t, t = (((u.completeStory l i).1.settleLines
      (l :: if (u.completeStory l i).2 then allLines else [])).pump l) := ⟨_, rfl⟩
  have result : exec (.codeSent l) s = .next { s with toPart := t.serveBus } := by
    rw [exec_codeSent ha, codeSent_of_counted hout hsrc hcounts, story, ht, hu]
  have hru : u.record i = some r := hu ▸ hr
  have groups : u.groups = s.groups := by rw [hu]; rfl
  have requests : u.hasRequest (.record i) = s.hasRequest (.record i) := by rw [hu]; rfl
  have actu : Act (· ∈ [.unit, .sched, .sup, .record, .list, .groups]) s.toPart u := by
    rw [hu]
    exact .sched l _ (by decide) (.unit l _ (by decide) .refl)
  rw [settleLines_eq] at ht
  obtain ⟨record, queue, current, opened, kept, request, act⟩ := completed_lasts hru hb ht
  have act := actu.trans act
  refine ⟨t, result, record, queue, current, opened, fun g hg => kept g (groups ▸ hg),
    fun hq => request (requests ▸ hq), fun hqueue hback hcomp => ?_, act.mem_eq (by decide), act.free_eq (by decide),
    act.register_eq (by decide), act.trackers_eq (by decide), act.rx_eq (by decide)⟩
  obtain ⟨v, hv⟩ : ∃ v, v = (u.completeStory l i).1 := ⟨_, rfl⟩
  have eq := completeStory_eq (l := l) hru hb
  rw [hcomp] at eq
  have sched : (v.line l).sched = { (u.line l).sched with
      current := none, position := none, piece := .none, progress := 0, resumptionOwed := false,
      queue := (u.line l).sched.queue.filter fun j => !(j == i) } := by
    rw [hv, eq]; simp
  have empty : (v.line l).sched.queue = [] := by
    rw [sched, show (u.line l).sched.queue = [i] by rw [hu]; simpa [Part.reported] using hqueue]
    simp
  have clear : (v.line l).sched.answerBack ≠ .pending := by
    rw [sched, show (u.line l).sched.answerBack = .clear by rw [hu]; simpa [Part.reported] using hback]
    exact nofun
  have none : v.choice l = none := by rw [Part.choice, empty]; rfl
  have idle : v.freeStep l = Option.none := freeStep_of_no_choice clear none
  have same : t = v := by
    have opened : (u.completeStory l i).2 = false := by rw [eq]; rfl
    have still : settle 1024 [l] v = v := settle_of_idle fun m hm => by
      obtain rfl : m = l := by simpa using hm
      exact idle
    rw [ht, opened, ← hv]
    rw [if_neg Bool.false_ne_true, still]
    have state : (v.line l).unit.state = .idle := by
      rw [hv, eq]; simpa [hu, Part.reported] using hidle
    rw [pump_of_idle state, offerCode_of_no_code (nextCode_of_none (by rw [sched]))]
  rw [same]
  refine ⟨by rw [hv, eq]; simp [hu, Part.reported], by rw [sched], by rw [sched], fun j hj => ?_, fun m hm => ?_⟩
  · rw [hv, eq]; simp [record_setRecord_ne _ _ _ _ hj, hu]; rfl
  · rw [hv, eq]; simp [hu, line_updSched_ne _ _ _ _ hm, Part.reported, line_updUnit_ne _ _ _ _ hm]

end Sys2Proof.Machine
end

section
/-! The pieces on a sender end, and its free sender chooses (08.1 to 08.4). -/

namespace Sys2Proof.Machine

/-! ### The end of a piece (R156, R157, R161, R164, R170) -/

section
variable {s : Part} {l : LineNo} {p : Plane} {ready : Bool}

theorem endPiece_of_interruption (h : (s.line l).sched.piece = .interruption) : s.endPiece l =
    (s.updSched l fun k => { k with piece := .none, progress := 0, interruptionOwed := none }).settleLines [l] := by
  simp only [Part.endPiece, h, updSched_updSched]

theorem endPiece_of_shift_interruption (h : (s.line l).sched.piece = .shift p .interruption) : s.endPiece l =
    (s.updSched l fun k => { k with piece := .none, progress := 0, interruptionOwed := none }).settleLines [l] := by
  simp only [Part.endPiece, h, updSched_updSched]

theorem endPiece_of_shift_ready (h : (s.line l).sched.piece = .shift p .ready) : s.endPiece l =
    (s.updSched l fun k => { k with piece := .none, progress := 0 }).settleLines [l] := by
  simp only [Part.endPiece, h]

theorem endPiece_of_resumption (h : (s.line l).sched.piece = .resumption) : s.endPiece l =
    (s.updSched l fun k => { k with piece := .none, progress := 0, resumptionOwed := false }).startPiece l
      (.shift ((s.updSched l fun k => { k with piece := .none, progress := 0 }).currentPlane l) .resumed) := by
  simp only [Part.endPiece, h, updSched_updSched]

theorem endPiece_of_shift_story {u : ShiftUse} (h : (s.line l).sched.piece = .shift p u) (hu : u = .resumed ∨ u = .held) :
    s.endPiece l = (s.updSched l fun k => { k with piece := .none, progress := 0 }).startPiece l .story := by
  rcases hu with rfl | rfl <;> simp only [Part.endPiece, h]

theorem endPiece_of_answerBack (h : (s.line l).sched.piece = .answerBack ready) : s.endPiece l =
    let t := s.updSched l fun k => { k with piece := .none, progress := 0, answerBack := .clear }
    if ready then t.resumeAtReady l
    else if t.senderFree l then
      if (t.line l).sched.interruptionOwed.isSome then t.startInterruption l false else t.settleLines [l]
    else t.startPiece l .story := by
  simp only [Part.endPiece, h, updSched_updSched]

theorem startInterruption_of_text {c : Code} {cs : List Code} (h : (s.line l).texts.interruption = c :: cs)
    (hr : s.readyToSend l) (always : Bool) : s.startInterruption l always = s.begins l .interruption c := by
  rw [Part.startInterruption, if_neg (by rw [h]; exact nofun), startPiece_interruption hr h]

theorem startInterruption_of_shift {always : Bool} (h : (s.line l).texts.interruption = []) (hr : s.readyToSend l)
    (ha : always = true ∨ (s.line l).sched.interruptionOwed ≠ some .ltrs) : s.startInterruption l always =
      s.begins l (.shift .ltrs .interruption) (shiftCode (s.map l) .ltrs) := by
  rw [Part.startInterruption, if_pos h, if_pos ha, startPiece_shift hr]

theorem startInterruption_of_nothing (h : (s.line l).texts.interruption = [])
    (ho : (s.line l).sched.interruptionOwed = some .ltrs) : s.startInterruption l false =
      (s.updSched l fun k => { k with interruptionOwed := none, piece := .none, progress := 0 }).settleLines [l] := by
  rw [Part.startInterruption, if_pos h, if_neg (by simp [ho])]

end

/-! ### A free sender with the output of its line free (R155, R156) -/

section
variable {s : Part} {l : LineNo} {i : Slot} {r : Record} {x : OutRecord} (hready : s.readyToSend l)
  (hfree : s.senderFree l = true) (hback : (s.line l).sched.answerBack ≠ .pending)
include hfree hback

include hready in
theorem settle_nothing (hc : s.choice l = none) : (s.settleLines [l]).pump l = s := by
  have still : s.settleLines [l] = s := settleLines_of_idle fun m hm => by
    obtain rfl : m = l := by simpa using hm
    exact freeStep_of_no_choice hback hc
  rw [still, pump_of_idle hready.1, offerCode_of_no_code (nextCode_of_none (senderFree_iff.mp hfree).2.1)]

theorem settle_chosen {u : Part} {q : Piece} {c : Code} (hc : s.choice l = some i)
    (heq : s.choose l i = (u.begins l q c, false)) (hq : q ≠ .none) :
    (s.settleLines [l]).pump l = u.begins l q c := by
  have step := freeStep_of_choice hfree hback hc
  rw [heq] at step
  rw [settleLines_of_step step (not_senderFree_begins hq c), pump_of_out (c := u.begun c) (by rw [line_begins])]

end

@[simp] theorem begins_record (s : Part) (l : LineNo) (q : Piece) (c : Code) (i : Slot) :
    (s.begins l q c).record i = s.record i := rfl

/-- A SUSPENDED story chosen by a free sender (R156): its resumption text, or a shift of its resume point's plane. -/
theorem choose_of_suspended {s : Part} {l : LineNo} {i : Slot} {r : Record} {x : OutRecord} {n : Nat} {p : Plane}
    (hready : s.readyToSend l) (hr : s.record i = some r) (hb : r.body = .outbound x) (hx : x.state = .suspended)
    (hres : x.resume = some (n, p)) :
    let u := s.setRecord i (some { r with body := .outbound { x with state := .sending } })
    (∀ c cs, (s.line l).texts.resumption = c :: cs → s.choose l i =
      ((u.updSched l fun k => { k with current := some i, position := some n, resumptionOwed := true }).begins l
        .resumption c, false)) ∧
    ((s.line l).texts.resumption = [] → s.choose l i =
      ((u.updSched l fun k => { k with current := some i, position := some n, resumptionOwed := false }).begins l
        (.shift p .resumed) (shiftCode (s.map l) p), false)) := by
  have eq := choose_eq (l := l) hr hb
  dsimp only at eq
  have point : (x.resume.map Prod.fst).getD 0 = n := by rw [hres]; rfl
  rw [if_pos hx, point] at eq
  have hready' (f : Sched → Sched) (hf : ∀ k, (f k).running = k.running) :
      ((s.setRecord i (some { r with body := .outbound { x with state := .sending } })).updSched l f).readyToSend l := by
    simpa [Part.readyToSend, hf] using hready
  refine ⟨fun c cs ht => ?_, fun ht => ?_⟩
  · rw [eq, Part.startResumption, if_neg (by simp [ht])]
    refine congrArg (fun t : Part => (t, false)) ?_
    exact startPiece_resumption (cs := cs) (hready' (fun k => { k with
      current := some i, position := some n, resumptionOwed := true }) fun _ => rfl) (by simpa using ht)
  · rw [eq, Part.startResumption, if_pos (by simp [ht])]
    have plane := currentPlane_of_resume (s := (s.setRecord i (some { r with
      body := .outbound { x with state := .sending } })).updSched l fun k => { k with
        current := some i, position := some n, resumptionOwed := true }) (l := l) (by simp)
      (record_setRecord_self s i _) rfl hres (.inr (by simp))
    refine congrArg (fun t : Part => (t, false)) ?_
    rw [plane, updSched_updSched]
    exact startPiece_shift (hready' (fun k => { k with
      current := some i, position := some n, resumptionOwed := false }) fun _ => rfl) p .resumed

/-- The outbound fields of a record changed, beside its reservation. -/
theorem setRecord_outbound_act {K : Kind → Prop} {s0 s : Part} {i : Slot} {r : Record} {x : OutRecord}
    {f : OutRecord → OutRecord} (hk : K .record) (hr : s.record i = some r) (hb : r.body = .outbound x)
    (hf : ∀ x, (f x).reservation = x.reservation) (h : Act K s0 s) :
    Act K s0 (s.setRecord i (some { r with body := .outbound (f x) })) :=
  updOut_eq hr hb f ▸ updOut_act hk i hf h

/-- How the last code of a piece frees the sender of line `l`: the interruption and its shift, the shift after READY,
or the answer-back with no interruption piece to follow (R161, R164, R170). -/
def Part.freeingPiece (s : Part) (l : LineNo) : Prop :=
  let k := (s.line l).sched
  k.answerBack = .clear ∧
      (k.piece = .interruption ∧ k.progress + 1 = (s.line l).texts.interruption.length ∨
        (k.piece = .shift .ltrs .ready ∨ k.piece = .shift .ltrs .interruption) ∧ k.progress = 0) ∨
    k.piece = .answerBack false ∧ k.progress = (s.line l).texts.answerBack.length ∧
      (k.interruptionOwed = none ∨ k.interruptionOwed = some .ltrs ∧ (s.line l).texts.interruption = [])

/-- A scheduler with nothing on it, free to choose from the queue of `k`. -/
structure Sched.Freed (k k' : Sched) : Prop where
  queue : k'.queue = k.queue
  current : k'.current = none
  piece : k'.piece = .none
  running : k'.running = true
  answerBack : k'.answerBack = .clear

/-- The piece that frees the sender ends, and the line settles. -/
theorem reportSent_of_freeingPiece {s : Part} {l : LineNo} (h : s.freeingPiece l)
    (hrun : (s.line l).sched.running = true) (hcur : (s.line l).sched.current = none) :
    ∃ f : Sched → Sched, s.reportSent l = (s.updSched l f).settleLines [l] ∧
      (s.line l).sched.Freed (f (s.line l).sched) := by
  rcases h with ⟨hback, ⟨hp, hlen⟩ | ⟨hp | hp, hlen⟩⟩ | ⟨hp, hlen, howed⟩
  · rw [reportSent_of_last hp nofun nofun (by rw [pieceCodes_interruption hp]; omega),
      endPiece_of_interruption (by simpa using hp), updSched_updSched]
    exact ⟨_, rfl, rfl, hcur, rfl, hrun, hback⟩
  · rw [reportSent_of_last hp nofun nofun (by rw [pieceCodes_shift hp, hlen]; exact Nat.le_refl 1),
      endPiece_of_shift_ready (p := .ltrs) (by simpa using hp), updSched_updSched]
    exact ⟨_, rfl, rfl, hcur, rfl, hrun, hback⟩
  · rw [reportSent_of_last hp nofun nofun (by rw [pieceCodes_shift hp, hlen]; exact Nat.le_refl 1),
      endPiece_of_shift_interruption (p := .ltrs) (by simpa using hp), updSched_updSched]
    exact ⟨_, rfl, rfl, hcur, rfl, hrun, hback⟩
  · rw [reportSent_of_last hp nofun nofun (by rw [pieceCodes_answerBack hp, hlen]; simp),
      endPiece_of_answerBack (ready := false) (by simpa using hp)]
    simp only [updSched_updSched, Bool.false_eq_true, if_false]
    rw [if_pos (senderFree_iff.mpr ⟨by simpa using hrun, by simp, by simpa using hcur⟩)]
    rcases howed with ho | ⟨ho, ht⟩
    · rw [if_neg (by simp [ho])]
      exact ⟨_, rfl, rfl, hcur, rfl, hrun, rfl⟩
    · rw [if_pos (by simp [ho]), startInterruption_of_nothing (by simpa using ht) (by simpa using ho),
        updSched_updSched]
      exact ⟨_, rfl, rfl, hcur, rfl, hrun, rfl⟩

/-- Settles O31: the piece ends in one of three ways, and the choice is the record first in the order of the queue. -/
theorem freeSenderChooses : Obligations.FreeSenderChooses := by
  intro l o s ha hidle hout hsrc hcounts k hrun hcur hpiece
  have hpiece : (s.toPart.reported l).freeingPiece l := by
    simpa [Part.freeingPiece, Part.reported] using hpiece
  obtain ⟨f, hf, freed⟩ := reportSent_of_freeingPiece hpiece (by simpa [Part.reported] using hrun)
    (by simpa [Part.reported] using hcur)
  obtain ⟨u, hu⟩ : ∃ u, u = (s.toPart.reported l).updSched l f := ⟨_, rfl⟩
  have result : exec (.codeSent l) s = .next { s with toPart := ((u.settleLines [l]).pump l).serveBus } := by
    rw [exec_codeSent ha, codeSent_of_counted hout hsrc hcounts, hf, hu]
  have sched : (u.line l).sched = f ((s.toPart.reported l).line l).sched := by rw [hu, sched_updSched]
  have ready : u.readyToSend l := by
    refine ⟨?_, by rw [sched]; exact freed.running, ?_⟩ <;> simp [hu, Part.reported]
    exact hidle
  have free : u.senderFree l = true :=
    senderFree_iff.mpr ⟨by rw [sched]; exact freed.running, by rw [sched]; exact freed.piece,
      by rw [sched]; exact freed.current⟩
  have back : (u.line l).sched.answerBack ≠ .pending := by rw [sched, freed.answerBack]; exact nofun
  have queue : (u.line l).sched.queue = k.queue := by
    rw [sched, freed.queue]; simp [Part.reported, k]
  have texts : (u.line l).texts = (s.line l).texts := by simp [hu, Part.reported]
  have others (m : LineNo) (hm : m ≠ l) : u.line m = s.line m := by
    rw [hu, line_updSched_ne _ _ _ _ hm]; exact line_updUnit_ne _ _ _ _ hm
  have rest : { u with lines := s.lines } = s.toPart := by rw [hu]; rfl
  refine ⟨_, result, fun hnone => ?_, fun before i after r x hq hr hb hopen hbefore hafter =>
    ⟨fun hx hc => ?_, fun hx hc => ?_, fun n p hx hres => ?_⟩⟩
  · have none : u.choice l = Option.none := by
      rw [Part.choice, firstInQueue_eq_none]
      · rfl
      · intro j hj r x hr hb
        rw [queue] at hj
        rw [← Bool.not_eq_true, choosable_iff]
        rw [hu] at hr ⊢
        exact hnone j r x hj hr hb
    rw [settle_nothing ready free back none]
    obtain ⟨-, hpc, hcc⟩ := senderFree_iff.mp free
    exact ⟨ready.2.2, hcc, hpc, by rw [hu]; rfl⟩
  all_goals
    have hru : u.record i = some r := by rw [hu]; exact hr
    have choice : u.choice l = some i := by
      have first := firstInQueue_eq_some (s := u) (p := fun _ y => u.choosable y) hru hb
        (choosable_iff.mpr (by rw [hu]; exact hopen))
        (fun j q y hj hq hqb hqp => hbefore j q y hj (by rw [hu] at hq; exact hq) hqb
          (by rw [hu] at hqp; exact choosable_iff.mp hqp))
        (fun j q y hj hq hqb hqp => hafter j q y hj (by rw [hu] at hq; exact hq) hqb
          (by rw [hu] at hqp; exact choosable_iff.mp hqp))
      rw [Part.choice, queue, hq, first]
      rfl
  · have hchoose := choose_of_queued hru hb hx hc ready
    rw [settle_chosen free back choice hchoose (fun h => nomatch h)]
    refine ⟨by simp, ?_, ?_, ?_, ?_, fun j hj => ?_, fun m hm => ?_, ?_⟩
    · rw [line_begins]; simp
    · rw [line_begins]; simp
    · rw [line_begins]
    · rw [line_begins, hu]; rfl
    · rw [begins_record, updSched_record, record_setRecord_ne _ _ _ _ hj, hu]; rfl
    · rw [line_begins_ne hm, line_updSched_ne _ _ _ _ hm]; exact others m hm
    · exact (congrArg (fun p : Part => { p with records := s.records }) rest :)
  · obtain ⟨v, hv⟩ : ∃ v, v = (u.setRecord i (some { r with body := .outbound { x with state := .sending } })).updSched
        l fun k => { k with current := some i, position := some 0 } := ⟨_, rfl⟩
    have chosen : u.choose l i = v.completeStory l i := by
      rw [choose_eq hru hb]
      dsimp only
      rw [if_neg (by simp [hx]), if_pos hc, hv]
    have hrv : v.record i = some { r with body := .outbound { x with state := .sending } } := by
      rw [hv]; exact record_setRecord_self u i _
    have step : u.freeStep l = some ((v.completeStory l i).1, (v.completeStory l i).2) := by
      rw [freeStep_of_choice free back choice, chosen]
    have requests : v.hasRequest (.record i) = s.hasRequest (.record i) := by rw [hv, hu]; rfl
    have act : Act (· ∈ [.unit, .sched, .sup, .record, .list, .groups]) u v := by
      rw [hv]
      exact .sched l _ (by decide) (setRecord_outbound_act (f := fun x => { x with state := .sending }) (by decide) hru
        hb (fun _ => rfl) .refl)
    obtain ⟨record, queue, current, opened, -, request, act'⟩ := completed_lasts (l := l) (m := l) (n := 1023)
      (ls := l :: if (v.completeStory l i).2 then allLines ++ [] else []) hrv rfl rfl
    rw [← settle_of_step step, ← settleLines_eq] at record queue current opened request act'
    have act := act.trans act'
    refine ⟨?_, queue, current, opened, fun hq => request (requests.trans hq), ?_, ?_, ?_, ?_⟩
    · rw [record, Record.sentOut]
      simp only [hc]
    · rw [act.mem_eq (by decide), hu]; rfl
    · rw [act.free_eq (by decide), hu]; rfl
    · rw [act.register_eq (by decide), hu]; rfl
    · rw [act.trackers_eq (by decide), hu]; rfl
  · obtain ⟨text, empty⟩ := choose_of_suspended ready hru hb hx hres
    rw [texts] at text empty
    have map : u.map l = s.map l := by rw [hu]; rfl
    have now (c : Code) : u.begun c = s.begun c := by rw [hu]; rfl
    cases ht : (s.line l).texts.resumption with
    | cons c cs =>
      rw [settle_chosen free back choice (text c cs ht) (fun h => nomatch h)]
      refine ⟨by simp, ?_, ?_, ?_, ?_, nofun, fun j hj => ?_, fun m hm => ?_, ?_⟩
      · rw [line_begins]; simp
      · rw [line_begins]; simp
      · rw [line_begins]
      · rintro _ _ ⟨⟩
        rw [line_begins]
        exact ⟨rfl, by simp, congrArg some (now c)⟩
      · rw [begins_record, updSched_record, record_setRecord_ne _ _ _ _ hj, hu]; rfl
      · rw [line_begins_ne hm, line_updSched_ne _ _ _ _ hm]; exact others m hm
      · exact (congrArg (fun p : Part => { p with records := s.records }) rest :)
    | nil =>
      rw [settle_chosen free back choice (empty ht) (fun h => nomatch h)]
      refine ⟨by simp, ?_, ?_, ?_, nofun, fun _ => ?_, fun j hj => ?_, fun m hm => ?_, ?_⟩
      · rw [line_begins]; simp
      · rw [line_begins]; simp
      · rw [line_begins]
      · rw [line_begins]
        exact ⟨rfl, by simp, congrArg some (map ▸ now _)⟩
      · rw [begins_record, updSched_record, record_setRecord_ne _ _ _ _ hj, hu]; rfl
      · rw [line_begins_ne hm, line_updSched_ne _ _ _ _ hm]; exact others m hm
      · exact (congrArg (fun p : Part => { p with records := s.records }) rest :)

end Sys2Proof.Machine
end

section
/-! READY (08.5): what a sender takes up again. -/

namespace Sys2Proof.Machine

/-! ### The steps of R170 -/

section
variable {s : Part} {l : LineNo} {i : Slot} {r : Record} {x : OutRecord} {n : Nat} {p : Plane}

/-- The held story of line `l` taken up at its resume point (R170, step 2). -/
def Part.takenUp (s : Part) (l : LineNo) (i : Slot) (r : Record) (x : OutRecord) (n : Nat) : Part :=
  (s.setRecord i (some { r with body := .outbound { x with state := .sending } })).updSched l fun k =>
    { k with position := some n }

theorem readyToSend_takenUp (hready : s.readyToSend l) : (s.takenUp l i r x n).readyToSend l := by
  simpa [Part.readyToSend, Part.takenUp] using hready

section
variable (hready : s.readyToSend l) (hcur : (s.line l).sched.current = some i) (hr : s.record i = some r)
  (hb : r.body = .outbound x) (hres : x.resume = some (n, p))
include hcur hr hb hres

theorem resumeAtReady_of_story : s.resumeAtReady l =
    if (s.line l).sched.resumptionOwed then (s.takenUp l i r x n).startResumption l
    else (s.takenUp l i r x n).startPiece l (.shift p .held) := by
  have point : ((s.outRecord i).bind OutRecord.resume).map Prod.fst = some n := by
    simp [outRecord_eq hr hb, hres]
  have plane : (s.takenUp l i r x n).currentPlane l = p :=
    currentPlane_of_resume (s := s.takenUp l i r x n) (by simpa [Part.takenUp] using hcur)
      (record_setRecord_self s i _) rfl hres (.inr (by simp [Part.takenUp]))
  simp only [Part.resumeAtReady, hcur, point, updOut_eq hr hb]
  rw [← plane]
  rfl

include hready

theorem resumeAtReady_of_shift (ho : (s.line l).sched.resumptionOwed = false) : s.resumeAtReady l =
    (s.takenUp l i r x n).begins l (.shift p .held) (shiftCode (s.map l) p) := by
  rw [resumeAtReady_of_story hcur hr hb hres, if_neg (by simp [ho]),
    startPiece_shift (readyToSend_takenUp hready)]
  rfl

theorem resumeAtReady_of_text {c : Code} {cs : List Code} (ho : (s.line l).sched.resumptionOwed = true)
    (ht : (s.line l).texts.resumption = c :: cs) : s.resumeAtReady l =
      (s.takenUp l i r x n).begins l .resumption c := by
  have ht' : ((s.takenUp l i r x n).line l).texts.resumption = c :: cs := by simpa [Part.takenUp] using ht
  rw [resumeAtReady_of_story hcur hr hb hres, if_pos ho, Part.startResumption, if_neg (by simp [ht']),
    startPiece_resumption (readyToSend_takenUp hready) ht']

theorem resumeAtReady_of_no_text (ho : (s.line l).sched.resumptionOwed = true)
    (ht : (s.line l).texts.resumption = []) : s.resumeAtReady l =
      ((s.takenUp l i r x n).updSched l fun k => { k with resumptionOwed := false }).begins l (.shift p .resumed)
        (shiftCode (s.map l) p) := by
  have ht' : ((s.takenUp l i r x n).line l).texts.resumption = [] := by simpa [Part.takenUp] using ht
  have plane : (s.takenUp l i r x n).currentPlane l = p :=
    currentPlane_of_resume (s := s.takenUp l i r x n) (by simpa [Part.takenUp] using hcur)
      (record_setRecord_self s i _) rfl hres (.inr (by simp [Part.takenUp]))
  have ready : ((s.takenUp l i r x n).updSched l fun k => { k with resumptionOwed := false }).readyToSend l := by
    simpa [Part.readyToSend] using readyToSend_takenUp hready
  rw [resumeAtReady_of_story hcur hr hb hres, if_pos ho, Part.startResumption, if_pos ht', plane,
    startPiece_shift ready]
  rfl

end

theorem resumeAtReady_of_owed (hcur : (s.line l).sched.current = none)
    (ho : (s.line l).sched.interruptionOwed = some p) : s.resumeAtReady l = s.startInterruption l true := by
  simp only [Part.resumeAtReady, hcur, ho, Option.isSome_some, if_true]

theorem resumeAtReady_of_nothing (hready : s.readyToSend l) (hcur : (s.line l).sched.current = none)
    (ho : (s.line l).sched.interruptionOwed = none) :
    s.resumeAtReady l = s.begins l (.shift .ltrs .ready) (shiftCode (s.map l) .ltrs) := by
  simp only [Part.resumeAtReady, hcur, ho, Option.isSome_none, Bool.false_eq_true, if_false]
  exact startPiece_shift hready _ _

end

/-! ### What the steps leave alone -/

/-- The sender of line `l` has taken something up: other lines, its queue, its status and the await of READY stay. -/
structure TakesUp (s t : Part) (l : LineNo) : Prop where
  lines : ∀ m, m ≠ l → t.line m = s.line m
  queue : (t.line l).sched.queue = (s.line l).sched.queue
  running : (t.line l).sched.running = (s.line l).sched.running
  awaitReady : (t.line l).unit.awaitReady = (s.line l).unit.awaitReady
  act : Act (· ∈ [.unit, .sched, .record]) s t

section
variable {s t : Part} {l : LineNo}

theorem TakesUp.trans {u : Part} (h : TakesUp s t l) (g : TakesUp t u l) : TakesUp s u l :=
  ⟨fun m hm => (g.lines m hm).trans (h.lines m hm), g.queue.trans h.queue, g.running.trans h.running,
    g.awaitReady.trans h.awaitReady, h.act.trans g.act⟩

theorem takesUp_updSched (s : Part) (l : LineNo) (f : Sched → Sched)
    (hf : ∀ k, (f k).queue = k.queue ∧ (f k).running = k.running) : TakesUp s (s.updSched l f) l :=
  ⟨fun _ hm => line_updSched_ne _ _ _ _ hm, by simp [(hf _).1], by simp [(hf _).2], by simp,
    .sched l f (by decide) .refl⟩

theorem takesUp_offerCode (s : Part) (l : LineNo) : TakesUp s (s.offerCode l) l := by
  refine ⟨fun m hm => line_offerCode_ne _ _ hm, by simp, by simp, ?_, offerCode_act (by decide) l .refl⟩
  unfold Part.offerCode
  split
  · split
    · simp [Part.beginCode]
    · rfl
  · rfl

theorem takesUp_startPiece (s : Part) (l : LineNo) (q : Piece) : TakesUp s (s.startPiece l q) l :=
  (takesUp_updSched s l (fun k => { k with piece := q, progress := 0 }) fun _ => ⟨rfl, rfl⟩).trans
    (takesUp_offerCode _ l)

theorem takesUp_startResumption (s : Part) (l : LineNo) : TakesUp s (s.startResumption l) l := by
  unfold Part.startResumption
  split
  · exact (takesUp_updSched s l (fun k => { k with resumptionOwed := false }) fun _ => ⟨rfl, rfl⟩).trans
      (takesUp_startPiece _ l _)
  · exact takesUp_startPiece _ l _

theorem takesUp_resumeAtReady (s : Part) (l : LineNo) : TakesUp s (s.resumeAtReady l) l := by
  unfold Part.resumeAtReady
  dsimp only
  split
  · next i _ =>
    have taken (n : Option Nat) : TakesUp s ((s.updOut i fun x => { x with state := .sending }).updSched l fun k =>
        { k with position := n }) l :=
      have sending : TakesUp s (s.updOut i fun x => { x with state := .sending }) l :=
        ⟨fun _ _ => rfl, rfl, rfl, rfl, updOut_act (by decide) i (fun _ => rfl) .refl⟩
      sending.trans (takesUp_updSched _ l (fun k => { k with position := n }) fun _ => ⟨rfl, rfl⟩)
    split
    · exact (taken _).trans (takesUp_startResumption _ l)
    · exact (taken _).trans (takesUp_startPiece _ l _)
  · split
    · unfold Part.startInterruption
      split
      · rw [if_pos (.inl rfl)]
        exact takesUp_startPiece s l _
      · exact takesUp_startPiece s l _
    · exact takesUp_startPiece s l _

theorem TakesUp.rest (h : TakesUp s t l) : { t with lines := s.lines, records := s.records } = s :=
  have h := h.act
  Part.eq_of_standing h.standing_eq (h.hearings_eq (by decide)) (h.rx_eq (by decide)) rfl (h.mem_eq (by decide))
    (h.free_eq (by decide)) rfl (h.recent_eq (by decide)) (h.trackers_eq (by decide)) (h.register_eq (by decide))
    (h.groups_eq (by decide)) (h.port_eq (by decide) (by decide)) (h.notices_eq (by decide))
    (h.reportSince_eq (by decide))

end

theorem exec_ready (l : LineNo) (s : State) :
    exec (.ready l) s = .next { s with toPart := (s.toPart.giveReady l).serveBus } := rfl

/-- The sender of line `l` running again after READY (R14, R170). -/
def Part.readied (s : Part) (l : LineNo) : Part :=
  (s.updUnit l fun x => { x with awaitReady := false }).updSched l fun k => { k with running := true }

theorem giveReady_of_sends {s : Part} {l : LineNo} (ha : s.awaitsReady l = true) (hm : (s.cfg l).mode.sends = true) :
    s.giveReady l = if (s.line l).sched.answerBack = .pending then (s.readied l).startAnswerBack l true
      else (s.readied l).resumeAtReady l := by
  simp only [Part.giveReady, ha, hm, if_true, Part.schedReady, sched_updSched, sched_updUnit]
  rfl

/-- Settles O28, by what stands first of the steps of R170. -/
theorem readyResumesTheSender : Obligations.ReadyResumesTheSender := by
  intro l s ha hout k texts
  refine ⟨fun since hs => ?_, fun hm => ?_, fun hm => ?_⟩
  · have active : s.active l = true := by
      simp only [Part.awaitsReady, Bool.and_eq_true] at ha
      exact ha.1.1.1.1.1
    rw [ready_mem_dueLine_iff active, hs]
    simp [ha, ranFrom]
  · rw [exec_ready, Part.giveReady, if_pos ha, if_neg (by simp [hm])]
  · obtain ⟨u, hu⟩ : ∃ u, u = s.toPart.readied l := ⟨_, rfl⟩
    obtain ⟨t, ht⟩ : ∃ t, t = s.toPart.giveReady l := ⟨_, rfl⟩
    have eq := ht.trans (giveReady_of_sends ha hm)
    rw [← hu] at eq
    have ready : u.readyToSend l := by
      have idle : (s.line l).unit.state = .idle := by
        simp only [Part.awaitsReady, Bool.and_eq_true] at ha
        simpa using ha.1.1.1.1.2
      exact ⟨by simp [hu, Part.readied, idle], by simp [hu, Part.readied], by simp [hu, Part.readied, hout]⟩
    have sched : (u.line l).sched = { k with running := true } := by simp [hu, Part.readied, k]
    have htexts : (u.line l).texts = texts := by simp [hu, Part.readied, texts]
    have begun (c : Code) : u.begun c = s.begun c := by rw [hu]; rfl
    have shift (p : Plane) : shiftCode (u.map l) p = shiftCode (s.map l) p := by rw [hu]; rfl
    have records : u.records = s.records := by rw [hu]; rfl
    have takes : TakesUp u t l := by
      rw [eq]
      split
      · exact (takesUp_updSched u l (fun k => { k with answerBack := .beingSent }) fun _ => ⟨rfl, rfl⟩).trans
          (takesUp_startPiece _ l _)
      · exact takesUp_resumeAtReady u l
    have started {v : Part} {p : Piece} {c : Code} (hv : t = v.begins l p c) (hb : v.begun c = s.begun c) :
        (t.line l).sched.piece = p ∧ (t.line l).sched.progress = 0 ∧ (t.line l).unit.out = some (s.begun c) := by
      rw [hv, line_begins]
      exact ⟨rfl, rfl, congrArg some hb⟩
    refine ⟨t, by rw [exec_ready, ht], by rw [takes.running, sched], by rw [takes.awaitReady, hu]; simp [Part.readied],
      fun c cs hp htext => ?_, fun i r x n p hp hcur hr hb hres => ?_, fun p hp hcur ho => ?_, fun hp hcur ho => ?_,
      by rw [takes.queue, sched], fun m hm => ?_, ?_⟩
    · rw [if_pos hp] at eq
      have ready' : (u.updSched l fun k => { k with answerBack := .beingSent }).readyToSend l := by
        simpa [Part.readyToSend] using ready
      have begins := eq.trans (startPiece_answerBack (cs := cs) ready' (by simpa [htexts] using htext) true)
      refine ⟨started begins (begun c), ?_, ?_⟩
      · rw [begins, line_begins]; simp
      · rw [begins]; exact records
    · rw [if_neg hp] at eq
      have hcur' : (u.line l).sched.current = some i := by rw [sched]; exact hcur
      have hr' : u.record i = some r := by rw [hu]; exact hr
      have taken (j : Slot) (hj : j ≠ i) : (u.takenUp l i r x n).record j = s.record j :=
        (record_setRecord_ne u i j _ hj).trans (by rw [hu]; rfl)
      have self : (u.takenUp l i r x n).record i = some { r with body := .outbound { x with state := .sending } } :=
        record_setRecord_self u i _
      have position : ((u.takenUp l i r x n).line l).sched.position = some n := by simp [Part.takenUp]
      have owed : ((u.line l).sched.resumptionOwed) = k.resumptionOwed := by rw [sched]
      cases ho : k.resumptionOwed with
      | false =>
        have begins := eq.trans (resumeAtReady_of_shift ready hcur' hr' hb hres (owed.trans ho))
        rw [shift] at begins
        refine ⟨by rw [begins]; exact self, fun j hj => by rw [begins]; exact taken j hj,
          by rw [begins, line_begins]; exact position, fun _ => started begins (begun _), nofun, nofun⟩
      | true =>
        cases htext : texts.resumption with
        | cons c cs =>
          have begins := eq.trans (resumeAtReady_of_text ready hcur' hr' hb hres (owed.trans ho)
            ((congrArg Texts.resumption htexts).trans htext))
          refine ⟨by rw [begins]; exact self, fun j hj => by rw [begins]; exact taken j hj,
            by rw [begins, line_begins]; exact position, nofun, ?_, nofun⟩
          rintro _ _ - ⟨⟩
          exact started begins (begun _)
        | nil =>
          have begins := eq.trans (resumeAtReady_of_no_text ready hcur' hr' hb hres (owed.trans ho)
            ((congrArg Texts.resumption htexts).trans htext))
          rw [shift] at begins
          refine ⟨by rw [begins]; exact self, fun j hj => by rw [begins]; exact taken j hj,
            by rw [begins, line_begins]; simpa using position, nofun, nofun, fun _ _ => ⟨started begins (begun _), ?_⟩⟩
          rw [begins, line_begins]; simp
    · rw [if_neg hp, resumeAtReady_of_owed (by rw [sched]; exact hcur) (by rw [sched]; exact ho)] at eq
      cases htext : texts.interruption with
      | cons c cs =>
        have begins := eq.trans (startInterruption_of_text ((congrArg Texts.interruption htexts).trans htext) ready true)
        refine ⟨by rw [begins]; exact records, ?_, nofun⟩
        rintro _ _ ⟨⟩
        exact started begins (begun _)
      | nil =>
        have begins := eq.trans (startInterruption_of_shift ((congrArg Texts.interruption htexts).trans htext) ready
          (.inl rfl))
        rw [shift] at begins
        exact ⟨by rw [begins]; exact records, nofun, fun _ => started begins (begun _)⟩
    · rw [if_neg hp, resumeAtReady_of_nothing ready (by rw [sched]; exact hcur) (by rw [sched]; exact ho)] at eq
      rw [shift] at eq
      exact ⟨by rw [eq]; exact records, started eq (begun _)⟩
    · rw [takes.lines m hm, hu]
      exact (line_updSched_ne _ _ _ _ hm).trans (line_updUnit_ne _ _ _ _ hm)
    · have rest : { u with lines := s.lines, records := s.records } = s.toPart := by rw [hu]; rfl
      exact (congrArg (fun p : Part => { p with lines := s.lines, records := s.records }) takes.rest :).trans rest

end Sys2Proof.Machine
end

section
/-! CODE_SENT (08.1, 10.3, 01.5): the next code of the line's source, and the level of the send output. -/

namespace Sys2Proof.Machine

section
variable {s : Part} {l : LineNo}

/-! ### The next code begun in the act that reports the last one -/

/-- The scheduler told SENT and its next code begun, its state changed by `f` (R10, R157). -/
def Part.goesOn (s : Part) (l : LineNo) (c : Code) (f : Sched → Sched) : Part :=
  (s.updUnit l fun x => { x with lastReport := some .sent, out := some (s.begun c) }).updSched l f

theorem beginCode_reported (c : Code) (f : Sched → Sched) :
    ((s.reported l).updSched l f).beginCode l c .scheduler = s.goesOn l c f := by
  simp only [Part.goesOn, Part.reported, Part.beginCode, Part.updUnit, Part.updSched, updLine_updLine]
  rfl

theorem begins_reported (c : Code) (q : Piece) (f : Sched → Sched) :
    ((s.reported l).updSched l f).begins l q c = s.goesOn l c fun k => { f k with piece := q, progress := 0 } := by
  rw [Part.begins, updSched_updSched, beginCode_reported]

theorem unit_goesOn (c : Code) (f : Sched → Sched) : ((s.goesOn l c f).line l).unit.out = some (s.begun c) := by
  simp [Part.goesOn]

end

/-- CODE_SENT for a counted code, when the sender goes on with `c`. -/
theorem exec_codeSent_goesOn {s : State} {l : LineNo} {o : OutCode} (ha : s.active l = true)
    (ho : (s.line l).unit.out = some o) (hs : o.source = .scheduler) (hc : o.counts = true) {c : Code}
    {f : Sched → Sched} (h : (s.toPart.reported l).reportSent l = s.toPart.goesOn l c f) :
    exec (.codeSent l) s = .next { s with toPart := (s.toPart.goesOn l c f).serveBus } := by
  rw [exec_codeSent ha, codeSent_of_counted ho hs hc, h, pump_of_out (unit_goesOn c f)]

/-! ### The preemptor (R160) -/

theorem firstInQueue_congr {s t : Part} {p q : Record → OutRecord → Bool} (hr : ∀ i, t.record i = s.record i)
    (hp : ∀ r x, p r x = q r x) (is : List Slot) : t.firstInQueue p is = s.firstInQueue q is := by
  induction is with
  | nil => rfl
  | cons i is ih =>
    rw [Part.firstInQueue, Part.firstInQueue, hr, ih]
    simp only [hp]

theorem preemptor_congr {s t : Part} {l : LineNo} {n : Nat} (hr : ∀ i, t.record i = s.record i)
    (hg : t.groups = s.groups) (hq : (t.line l).sched.queue = (s.line l).sched.queue) :
    t.preemptor l n = s.preemptor l n := by
  rw [Part.preemptor, Part.preemptor, hq]
  refine congrArg Option.isSome (firstInQueue_congr hr (fun r x => ?_) _)
  simp only [Part.choosable, Part.groupOpen, hg]

/-! ### Where a story stands -/

/-- The plane `p` in which the current story of line `l` stands: LTRS with none, that of the resume point it stands at,
else that of a line end (R164). -/
def Part.standsIn (s : Part) (l : LineNo) (p : Plane) : Prop :=
  let k := (s.line l).sched
  (k.current = none ∧ p = .ltrs) ∨
    ∃ i r x, k.current = some i ∧ s.record i = some r ∧ r.body = .outbound x ∧
      ((∃ n, x.resume = some (n, p) ∧ (k.position = none ∨ k.position = some n)) ∨
        ((∀ n q, x.resume = some (n, q) → k.position ≠ some n) ∧
          ((k.position = some 0 ∧ p = .ltrs) ∨
            ∃ n, k.position = some (n + 1) ∧ (s.outEntry r n).mark = true ∧ (s.outEntry r n).plane = p)))

theorem currentPlane_of_standsIn {s : Part} {l : LineNo} {p : Plane} (h : s.standsIn l p) : s.currentPlane l = p := by
  rcases h with ⟨hc, rfl⟩ | ⟨i, r, x, hc, hr, hb, ⟨n, hx, hp⟩ | ⟨hx, ⟨hp, rfl⟩ | ⟨n, hp, hm, rfl⟩⟩⟩
  · exact currentPlane_of_none hc
  · exact currentPlane_of_resume hc hr hb hx hp
  · exact currentPlane_of_position hc hr hb hx hp
  · rw [currentPlane_of_position hc hr hb hx hp, lineStart_of_mark hm]

/-! ### The send output (R10) -/

section
variable {s : Part} {l : LineNo}

theorem tx_of_idle (h : (s.line l).unit.out = none ∨ (s.cfg l).mode = .receive ∨ (s.cfg l).mode = .unused ∨
    s.loader ≠ .running) : s.tx l = true := by
  unfold Part.tx
  split
  · next o hd ho =>
    rcases h with h | h | h | h
    · rw [h] at ho; cases ho
    · simp [h, LineMode.sends] at hd
    · simp [h, LineMode.sends] at hd
    · simp [h] at hd
  · rfl

theorem tx_of_code {o : OutCode} (ho : (s.line l).unit.out = some o)
    (hm : (s.cfg l).mode = .send ∨ (s.cfg l).mode = .twoWay) (hl : s.loader = .running) :
    s.tx l = if (s.now - o.began) / (2 * (s.cfg l).u) = 0 then false
      else if (s.now - o.began) / (2 * (s.cfg l).u) ≤ 5 then
        o.code.getLsbD ((s.now - o.began) / (2 * (s.cfg l).u) - 1)
      else true := by
  have hd : ((s.cfg l).mode.sends && s.loader == .running) = true := by
    rcases hm with hm | hm <;> simp [hm, hl, LineMode.sends]
  simp only [Part.tx, hd, ho]

/-- The element that the output stands in, `e` half-microseconds long. -/
theorem element_eq {now began e k : Nat} (h : began + e * k ≤ now) (h' : now < began + e * (k + 1)) :
    (now - began) / e = k := by
  have he : 0 < e := by
    rcases Nat.eq_zero_or_pos e with rfl | he
    · omega
    · exact he
  rw [Nat.div_eq_iff he]
  constructor
  · rw [Nat.mul_comm]; omega
  · rw [Nat.mul_add, Nat.mul_comm] at h'
    omega

end

theorem updLine_congr {f g : Line → Line} (s : Part) (l : LineNo) (h : f (s.line l) = g (s.line l)) :
    s.updLine l f = s.updLine l g := by rw [Part.updLine, Part.updLine, h]

/-! ### CODE_SENT by the source of the code (R10, R15, R16, R195) -/

section
variable {s : Part} {l : LineNo} {o : OutCode} (ho : (s.line l).unit.out = some o)
include ho

/-- A code that a STOP has overtaken. -/
theorem codeSent_of_overtaken (hs : o.source = .scheduler) (hc : o.counts = false)
    (hidle : (s.line l).unit.state = .idle) (hrun : (s.line l).sched.running = false) :
    s.codeSent l = s.updUnit l fun x => { x with lastReport := some .sent, out := none } := by
  have state : ((s.reported l).line l).unit.state = .idle := by simpa [Part.reported] using hidle
  have stopped : ¬(s.reported l).readyToSend l := fun h => by
    have run := h.2.1
    simp [Part.reported, hrun] at run
  have eq : s.codeSent l = (s.reported l).pump l := by
    simp only [Part.codeSent, ho, hs, hc, if_true, updUnit_updUnit, Bool.false_eq_true, if_false]
    rfl
  rw [eq, pump_of_idle state, offerCode_of_not_ready stopped]
  rfl

/-- A code of another source than the scheduler. -/
theorem codeSent_of_other (hs : o.source ≠ .scheduler) :
    s.codeSent l = (s.updUnit l fun x => { x with out := none }).pump l := by
  simp only [Part.codeSent, ho, hs, if_false]

theorem codeSent_of_generator (hs : o.source = .generator) (ht : (s.line l).unit.state = .test)
    (hm : (s.cfg l).mode.sends = true) :
    s.codeSent l = (s.updSup l fun y => { y with gen := y.gen.make.2 }).updUnit l fun x => { x with
      out := some { code := (s.line l).sup.gen.make.1, source := .generator, began := s.now, counts := true } } := by
  have gen : (s.updUnit l fun x => { x with out := none }).pump l =
      ((s.updUnit l fun x => { x with out := none }).updSup l fun y =>
        { y with gen := (s.line l).sup.gen.make.2 }).beginCode l (s.line l).sup.gen.make.1 .generator := by
    simp [Part.pump, Part.startGenerator, ht, hm]
  rw [codeSent_of_other ho (by rw [hs]; exact nofun), gen]
  simp only [Part.beginCode, Part.updUnit, Part.updSup, updLine_updLine]
  exact updLine_congr s l rfl

theorem codeSent_of_resend (hs : o.source = .loopResend) (hl : (s.line l).unit.state = .loop) :
    s.codeSent l = s.updUnit l fun x => { x with
      resend := x.resend.drop 1
      out := x.resend.head?.map fun c => { code := c, source := .loopResend, began := s.now, counts := true } } := by
  rw [codeSent_of_other ho (by rw [hs]; exact nofun)]
  cases hr : (s.line l).unit.resend with
  | nil =>
    have none : (s.updUnit l fun x => { x with out := Option.none }).pump l =
        s.updUnit l fun x => { x with out := Option.none } := by
      simp [Part.pump, Part.startResend, hl, hr]
    rw [none]
    refine updUnit_congr ?_
    simp [hr]
  | cons c cs =>
    have next : (s.updUnit l fun x => { x with out := none }).pump l =
        ((s.updUnit l fun x => { x with out := none }).updUnit l fun x => { x with resend := cs }).beginCode l c
          .loopResend := by
      simp [Part.pump, Part.startResend, hl, hr]
    rw [next, Part.beginCode, updUnit_updUnit, updUnit_updUnit]
    refine updUnit_congr ?_
    simp [hr]

end

end Sys2Proof.Machine
end

section
/-! CODE_SENT (08.1 to 08.5): the pieces on a sender go on, end and follow one another. -/

namespace Sys2Proof.Machine

section
variable {s : Part} {l : LineNo} {c : Code} {cs : List Code} {p : Plane} {f : Sched → Sched}

@[simp] theorem reported_sched : ((s.reported l).line l).sched = (s.line l).sched := by simp [Part.reported]

@[simp] theorem reported_texts : ((s.reported l).line l).texts = (s.line l).texts := by simp [Part.reported]

/-! ### One code after another on a free output -/

section
variable (hidle : (s.line l).unit.state = .idle) (hrun : (f (s.line l).sched).running = true)
include hidle hrun

theorem readyToSend_reported : ((s.reported l).updSched l f).readyToSend l :=
  ⟨by simpa [Part.reported] using hidle, by simpa using hrun, by simp [Part.reported]⟩

theorem offerCode_goesOn (h : ((s.reported l).updSched l f).nextCode l = some c) :
    ((s.reported l).updSched l f).offerCode l = s.goesOn l c f := by
  rw [offerCode_of_code (readyToSend_reported hidle hrun) h, beginCode_reported]

theorem startPiece_shift_goesOn (u : ShiftUse) :
    ((s.reported l).updSched l f).startPiece l (.shift p u) =
      s.goesOn l (shiftCode (s.map l) p) fun k => { f k with piece := .shift p u, progress := 0 } := by
  rw [startPiece_shift (readyToSend_reported hidle hrun), begins_reported]
  rfl

theorem startPiece_interruption_goesOn (ht : (s.line l).texts.interruption = c :: cs) :
    ((s.reported l).updSched l f).startPiece l .interruption =
      s.goesOn l c fun k => { f k with piece := .interruption, progress := 0 } := by
  rw [startPiece_interruption (readyToSend_reported hidle hrun) (by simpa using ht), begins_reported]

theorem startPiece_answerBack_goesOn (ht : (s.line l).texts.answerBack = c :: cs) (b : Bool) :
    ((s.reported l).updSched l f).startPiece l (.answerBack b) =
      s.goesOn l c fun k => { f k with piece := .answerBack b, progress := 0 } := by
  rw [startPiece_answerBack (readyToSend_reported hidle hrun) (by simpa using ht), begins_reported]

theorem startPiece_story_goesOn {i : Slot} {r : Record} {n : Nat} (hcur : (f (s.line l).sched).current = some i)
    (hr : s.record i = some r) (hn : (f (s.line l).sched).position = some n) (hlt : n < r.count) :
    ((s.reported l).updSched l f).startPiece l .story =
      s.goesOn l (s.outEntry r n).code fun k => { f k with piece := .story, progress := 0 } := by
  rw [startPiece_story (readyToSend_reported hidle hrun) (by simpa using hcur) hr (by simpa using hn) hlt,
    begins_reported]
  rfl

/-- A pending answer-back on a sender that has come free (R164). -/
theorem settleLines_answerBack_goesOn (hpiece : (f (s.line l).sched).piece = .none)
    (hcur : (f (s.line l).sched).current = none) (hback : (f (s.line l).sched).answerBack = .pending)
    (ht : (s.line l).texts.answerBack = c :: cs) :
    ((s.reported l).updSched l f).settleLines [l] =
      s.goesOn l c fun k => { f k with answerBack := .beingSent, piece := .answerBack false, progress := 0 } := by
  have free : ((s.reported l).updSched l f).senderFree l = true :=
    senderFree_iff.mpr ⟨by simpa using hrun, by simpa using hpiece, by simpa using hcur⟩
  have begun := startPiece_answerBack_goesOn (f := fun k => { f k with answerBack := .beingSent }) hidle hrun ht false
  have step := freeStep_of_pending free (by simpa using hback)
  rw [updSched_updSched, begun] at step
  have busy : (s.goesOn l c fun k =>
      { f k with answerBack := .beingSent, piece := .answerBack false, progress := 0 }).senderFree l = false := by
    rw [← Bool.not_eq_true, senderFree_iff]
    rintro ⟨-, h, -⟩
    simp [Part.goesOn] at h
  exact settleLines_of_step step busy

end

/-! ### A story's next code (R157) -/

theorem reportSent_story_goesOn {i : Slot} {r : Record} {n : Nat} (hidle : (s.line l).unit.state = .idle)
    (hrun : (s.line l).sched.running = true) (hq : (s.line l).sched.piece = .story)
    (hcur : (s.line l).sched.current = some i) (hr : s.record i = some r) (hp : (s.line l).sched.position = some n)
    (hlt : n + 1 < r.count) (hend : (s.outEntry r n).mark = false ∨
      (s.preemptor l r.priority = false ∧ (s.line l).sched.answerBack ≠ .pending)) :
    (s.reported l).reportSent l = s.goesOn l (s.outEntry r (n + 1)).code fun k => { k with position := some (n + 1) } := by
  have goes : ((s.reported l).updSched l fun k => { k with position := some (n + 1) }).offerCode l =
      s.goesOn l (s.outEntry r (n + 1)).code fun k => { k with position := some (n + 1) } :=
    offerCode_goesOn (f := fun k => { k with position := some (n + 1) }) hidle hrun
      (nextCode_of_story (s := (s.reported l).updSched l _) (by simpa using hq) (by simpa using hcur) hr (by simp) hlt)
  rw [reportSent_of_story (s := s.reported l) (by simpa using hq) (by simpa using hcur) hr (by simpa using hp)]
  dsimp only
  rw [if_neg (by omega)]
  rcases hend with hm | ⟨hpre, hback⟩
  · rw [if_neg (by rw [show (s.reported l).outEntry r n = s.outEntry r n from rfl, hm]; simp), goes]
  · have pre : ((s.reported l).updSched l fun k => { k with position := some (n + 1) }).preemptor l r.priority = false :=
      (preemptor_congr (s := s) (t := (s.reported l).updSched l _) (fun _ => rfl) rfl (by simp)).trans hpre
    split
    · simp only [Part.atLineEnd, pre, Bool.false_eq_true, if_false, sched_updSched, reported_sched]
      rw [if_neg hback, goes]
    · exact goes

/-! ### More of a piece (R157) -/

/-- Code `c` stands next in the piece on the sender of line `l`. -/
def Part.goesOnWith (s : Part) (l : LineNo) (c : Code) : Prop :=
  let k := (s.line l).sched
  let texts := (s.line l).texts
  (k.piece = .interruption ∧ texts.interruption[k.progress + 1]? = some c) ∨
    (k.piece = .resumption ∧ texts.resumption[k.progress + 1]? = some c) ∨
    ((∃ ready, k.piece = .answerBack ready) ∧
      (texts.answerBack[k.progress + 1]? = some c ∨
        (k.progress + 1 = texts.answerBack.length ∧ ∃ p, s.standsIn l p ∧ c = shiftCode (s.map l) p)))

theorem pieceCodes_of_goesOnWith (h : s.goesOnWith l c) : (s.line l).sched.piece ≠ .none ∧
    (s.line l).sched.piece ≠ .story ∧ (s.pieceCodes l)[(s.line l).sched.progress + 1]? = some c := by
  rcases h with ⟨hp, hc⟩ | ⟨hp, hc⟩ | ⟨⟨ready, hp⟩, hc⟩
  · exact ⟨by rw [hp]; exact nofun, by rw [hp]; exact nofun, by rw [pieceCodes_interruption hp, hc]⟩
  · exact ⟨by rw [hp]; exact nofun, by rw [hp]; exact nofun, by rw [pieceCodes_resumption hp, hc]⟩
  · refine ⟨by rw [hp]; exact nofun, by rw [hp]; exact nofun, ?_⟩
    rw [pieceCodes_answerBack hp]
    rcases hc with hc | ⟨hlen, p, hst, rfl⟩
    · rw [List.getElem?_append_left (List.getElem?_eq_some_iff.mp hc).1, hc]
    · rw [currentPlane_of_standsIn hst, hlen, List.getElem?_concat_length]

theorem lineStart_congr {t : Part} (h : ∀ r n, t.outEntry r n = s.outEntry r n) (r : Record) (n : Nat) :
    t.lineStart r n = s.lineStart r n := by
  induction n with
  | zero => rfl
  | succ n ih => rw [Part.lineStart, Part.lineStart, h, ih]

theorem currentPlane_congr {t : Part} (hc : (t.line l).sched.current = (s.line l).sched.current)
    (hp : (t.line l).sched.position = (s.line l).sched.position)
    (hr : ∀ i, t.record i = s.record i) (he : ∀ r n, t.outEntry r n = s.outEntry r n) :
    t.currentPlane l = s.currentPlane l := by
  have hrecord : t.record = s.record := funext hr
  simp only [Part.currentPlane, hc, hp, hrecord, lineStart_congr he]

theorem pieceCodes_congr {t : Part} (hp : (t.line l).sched.piece = (s.line l).sched.piece)
    (ht : (t.line l).texts = (s.line l).texts) (hm : t.map l = s.map l) (hc : t.currentPlane l = s.currentPlane l) :
    t.pieceCodes l = s.pieceCodes l := by
  rw [Part.pieceCodes, Part.pieceCodes, hp, ht, hm, hc]

theorem reportSent_more_goesOn (hidle : (s.line l).unit.state = .idle) (hrun : (s.line l).sched.running = true)
    (h : s.goesOnWith l c) :
    (s.reported l).reportSent l = s.goesOn l c fun k => { k with progress := k.progress + 1 } := by
  obtain ⟨hn, hst, hc⟩ := pieceCodes_of_goesOnWith h
  have codes : (s.reported l).pieceCodes l = s.pieceCodes l :=
    pieceCodes_congr (by simp) (by simp) rfl (currentPlane_congr (by simp) (by simp) (fun _ => rfl) fun _ _ => rfl)
  have next : ((s.reported l).updSched l fun k => { k with progress := k.progress + 1 }).nextCode l = some c := by
    rw [nextCode_of_piece (by simpa using hst)]
    have same : ((s.reported l).updSched l fun k => { k with progress := k.progress + 1 }).pieceCodes l =
        s.pieceCodes l :=
      pieceCodes_congr (by simp) (by simp) rfl (currentPlane_congr (by simp) (by simp) (fun _ => rfl) fun _ _ => rfl)
    rw [same]
    simpa using hc
  rw [reportSent_of_more (q := (s.line l).sched.piece) (by simp) hn hst
    (by rw [codes]; simpa using (List.getElem?_eq_some_iff.mp hc).1)]
  exact offerCode_goesOn (f := fun k => { k with progress := k.progress + 1 }) hidle hrun next

end

end Sys2Proof.Machine
end

section
/-! CODE_SENT (08.3 to 08.5): what follows the last code of a piece. -/

namespace Sys2Proof.Machine

theorem endPiece_of_resumption_same {s : Part} {l : LineNo} (h : (s.line l).sched.piece = .resumption) :
    s.endPiece l = (s.updSched l fun k => { k with piece := .none, progress := 0, resumptionOwed := false }).startPiece
      l (.shift (s.currentPlane l) .resumed) := by
  have plane : (s.updSched l fun k => { k with piece := .none, progress := 0 }).currentPlane l = s.currentPlane l :=
    currentPlane_congr (by simp) (by simp) (fun _ => rfl) fun _ _ => rfl
  rw [endPiece_of_resumption h, plane]

section
variable {s : Part} {l : LineNo} {c : Code} {cs : List Code} {p : Plane} {i : Slot} {r : Record} {x : OutRecord}
  {n : Nat} {ready : Bool} (hidle : (s.line l).unit.state = .idle) (hrun : (s.line l).sched.running = true)
include hidle hrun

/-! ### A pending answer-back (R164) -/

theorem reportSent_answerBack_of_interruption (hcur : (s.line l).sched.current = none)
    (hback : (s.line l).sched.answerBack = .pending) (ht : (s.line l).texts.answerBack = c :: cs)
    (h : (s.line l).sched.piece = .interruption ∧
        (s.line l).sched.progress + 1 = (s.line l).texts.interruption.length ∨
      (s.line l).sched.piece = .shift p .interruption ∧ (s.line l).sched.progress = 0) :
    (s.reported l).reportSent l = s.goesOn l c fun k =>
      { k with interruptionOwed := none, answerBack := .beingSent, piece := .answerBack false, progress := 0 } := by
  have settles := settleLines_answerBack_goesOn (f := fun k => { { k with progress := k.progress + 1 } with
    piece := .none, progress := 0, interruptionOwed := none }) hidle hrun rfl hcur hback ht
  rcases h with ⟨hp, hlen⟩ | ⟨hp, hlen⟩
  · have codes : (s.reported l).pieceCodes l = (s.line l).texts.interruption := by
      rw [pieceCodes_interruption (by simpa using hp), reported_texts]
    rw [reportSent_of_last (q := .interruption) (by simpa using hp) nofun nofun
        (by rw [codes, reported_sched, hlen]),
      endPiece_of_interruption (by simpa using hp), updSched_updSched]
    exact settles
  · rw [reportSent_of_last (q := .shift p .interruption) (by simpa using hp) nofun nofun
        (by rw [pieceCodes_shift (p := p) (u := .interruption) (by simpa using hp), reported_sched, hlen]
            exact Nat.le_refl 1),
      endPiece_of_shift_interruption (p := p) (by simpa using hp), updSched_updSched]
    exact settles

theorem reportSent_answerBack_of_ready (hcur : (s.line l).sched.current = none)
    (hback : (s.line l).sched.answerBack = .pending) (ht : (s.line l).texts.answerBack = c :: cs)
    (hp : (s.line l).sched.piece = .shift p .ready) (hlen : (s.line l).sched.progress = 0) :
    (s.reported l).reportSent l = s.goesOn l c fun k =>
      { k with answerBack := .beingSent, piece := .answerBack false, progress := 0 } := by
  have settles := settleLines_answerBack_goesOn (f := fun k => { { k with progress := k.progress + 1 } with
    piece := .none, progress := 0 }) hidle hrun rfl hcur hback ht
  rw [reportSent_of_last (q := .shift p .ready) (by simpa using hp) nofun nofun
      (by rw [pieceCodes_shift (p := p) (u := .ready) (by simpa using hp), reported_sched, hlen]; exact Nat.le_refl 1),
    endPiece_of_shift_ready (p := p) (by simpa using hp), updSched_updSched]
  exact settles

/-! ### A story begun or resumed (R156) -/

section
variable (hcur : (s.line l).sched.current = some i) (hr : s.record i = some r)
include hcur hr

theorem reportSent_of_resumption_end (hb : r.body = .outbound x) (hpos : (s.line l).sched.position = some n)
    (hp : (s.line l).sched.piece = .resumption)
    (hlen : (s.line l).sched.progress + 1 = (s.line l).texts.resumption.length) (hres : x.resume = some (n, p)) :
    (s.reported l).reportSent l = s.goesOn l (shiftCode (s.map l) p) fun k =>
      { k with piece := .shift p .resumed, progress := 0, resumptionOwed := false } := by
  have plane : ((s.reported l).updSched l fun k => { k with progress := k.progress + 1 }).currentPlane l = p :=
    currentPlane_of_resume (by simpa using hcur) hr hb hres (.inr (by simpa using hpos))
  have codes : (s.reported l).pieceCodes l = (s.line l).texts.resumption := by
    rw [pieceCodes_resumption (by simpa using hp), reported_texts]
  rw [reportSent_of_last (q := .resumption) (by simpa using hp) nofun nofun
      (by rw [codes, reported_sched, hlen]),
    endPiece_of_resumption_same (by simpa using hp), plane, updSched_updSched]
  exact startPiece_shift_goesOn (f := fun k => { { k with progress := k.progress + 1 } with
    piece := .none, progress := 0, resumptionOwed := false }) hidle hrun .resumed

variable (hpos : (s.line l).sched.position = some n) (hlt : n < r.count)
include hpos hlt

theorem reportSent_of_shift_end {u : ShiftUse} (hp : (s.line l).sched.piece = .shift p u) (hu : u = .resumed ∨ u = .held)
    (hlen : (s.line l).sched.progress = 0) :
    (s.reported l).reportSent l = s.goesOn l (s.outEntry r n).code fun k => { k with piece := .story, progress := 0 } := by
  have begun := startPiece_story_goesOn (f := fun k => { { k with progress := k.progress + 1 } with
    piece := .none, progress := 0 }) hidle hrun hcur hr hpos hlt
  rw [reportSent_of_last (q := .shift p u) (by simpa using hp) nofun nofun
      (by rw [pieceCodes_shift (p := p) (u := u) (by simpa using hp), reported_sched, hlen]; exact Nat.le_refl 1),
    endPiece_of_shift_story (p := p) (by simpa using hp) hu, updSched_updSched]
  exact begun

end

/-! ### The end of an answer-back (R164, R161, R170) -/

section
variable (hp : (s.line l).sched.piece = .answerBack ready)
  (hlen : (s.line l).sched.progress = (s.line l).texts.answerBack.length)
include hp hlen

omit hidle hrun in
theorem reportSent_of_answerBack_end : (s.reported l).reportSent l =
    let t := (s.reported l).updSched l fun k => { k with piece := .none, progress := 0, answerBack := .clear }
    if ready then t.resumeAtReady l
    else if t.senderFree l then
      if (t.line l).sched.interruptionOwed.isSome then t.startInterruption l false else t.settleLines [l]
    else t.startPiece l .story := by
  rw [reportSent_of_last (q := .answerBack ready) (by simpa using hp) nofun nofun
      (by rw [pieceCodes_answerBack (b := ready) (by simpa using hp), reported_sched, reported_texts, hlen]; simp),
    endPiece_of_answerBack (ready := ready) (by simpa using hp), updSched_updSched]

theorem reportSent_story_of_answerBack (hready : ready = false) (hcur : (s.line l).sched.current = some i)
    (hr : s.record i = some r) (hpos : (s.line l).sched.position = some n) (hlt : n < r.count) :
    (s.reported l).reportSent l = s.goesOn l (s.outEntry r n).code fun k =>
      { k with answerBack := .clear, piece := .story, progress := 0 } := by
  have busy : ¬((s.reported l).updSched l fun k =>
      { k with piece := .none, progress := 0, answerBack := .clear }).senderFree l = true := by
    rw [senderFree_iff]
    rintro ⟨-, -, h⟩
    simp [hcur] at h
  rw [reportSent_of_answerBack_end hp hlen]
  dsimp only
  rw [if_neg (by simp [hready]), if_neg busy]
  exact startPiece_story_goesOn (f := fun k => { k with piece := .none, progress := 0, answerBack := .clear })
    hidle hrun hcur hr hpos hlt

variable (hcur : (s.line l).sched.current = none)
include hcur

omit hidle in
theorem reportSent_of_owed (ho : (s.line l).sched.interruptionOwed = some p) : (s.reported l).reportSent l =
    ((s.reported l).updSched l fun k => { k with piece := .none, progress := 0, answerBack := .clear }).startInterruption
      l ready := by
  rw [reportSent_of_answerBack_end hp hlen]
  dsimp only
  cases ready with
  | true => rw [if_pos rfl, resumeAtReady_of_owed (p := p) (by simpa using hcur) (by simpa using ho)]
  | false =>
    rw [if_neg Bool.false_ne_true, if_pos (senderFree_iff.mpr ⟨by simpa using hrun, by simp, by simpa using hcur⟩),
      if_pos (by simp [ho])]

theorem reportSent_interruption_of_answerBack (ho : (s.line l).sched.interruptionOwed = some p)
    (ht : (s.line l).texts.interruption = c :: cs) : (s.reported l).reportSent l =
      s.goesOn l c fun k => { k with answerBack := .clear, piece := .interruption, progress := 0 } := by
  rw [reportSent_of_owed hrun hp hlen hcur ho,
    startInterruption_of_text (by simpa using ht) (readyToSend_reported hidle hrun), begins_reported]

theorem reportSent_shift_of_answerBack (ho : (s.line l).sched.interruptionOwed = some p)
    (ht : (s.line l).texts.interruption = []) (h : p ≠ .ltrs ∨ ready = true) : (s.reported l).reportSent l =
      s.goesOn l (shiftCode (s.map l) .ltrs) fun k =>
        { k with answerBack := .clear, piece := .shift .ltrs .interruption, progress := 0 } := by
  have owed : ready = true ∨ (((s.reported l).updSched l fun k =>
      { k with piece := .none, progress := 0, answerBack := .clear }).line l).sched.interruptionOwed ≠ some .ltrs :=
    h.symm.imp_right fun h => by simpa [ho] using h
  rw [reportSent_of_owed hrun hp hlen hcur ho,
    startInterruption_of_shift (by simpa using ht) (readyToSend_reported hidle hrun) owed, begins_reported]
  rfl

theorem reportSent_ready_of_answerBack (ho : (s.line l).sched.interruptionOwed = none) (hready : ready = true) :
    (s.reported l).reportSent l = s.goesOn l (shiftCode (s.map l) .ltrs) fun k =>
        { k with answerBack := .clear, piece := .shift .ltrs .ready, progress := 0 } := by
  rw [reportSent_of_answerBack_end hp hlen]
  dsimp only
  rw [if_pos hready, resumeAtReady_of_nothing (readyToSend_reported hidle hrun) (by simpa using hcur)
    (by simpa using ho), begins_reported]
  rfl

end

end

end Sys2Proof.Machine
end

section
/-! CODE_SENT (R10, R157): the obligation on the next code. -/

namespace Sys2Proof.Machine

section
variable {s : Part} {l : LineNo} {c : Code} {p : Plane} {i : Slot} {r : Record} {x : OutRecord} {n : Nat}

theorem setRecord_goesOn (f : Sched → Sched) (q : Option Record) :
    (s.goesOn l c f).setRecord i q = (s.setRecord i q).goesOn l c f := rfl

/-- The held story taken up after an answer-back (R170, R164). -/
theorem takenUp_reported (f : Sched → Sched) : ((s.reported l).updSched l f).takenUp l i r x n =
    ((s.setRecord i (some { r with body := .outbound { x with state := .sending } })).reported l).updSched l fun k =>
      { f k with position := some n } := by
  rw [Part.takenUp, setRecord_updSched, updSched_updSched]
  rfl

theorem takenUp_begins (f : Sched → Sched) (q : Piece) :
    (((s.reported l).updSched l f).takenUp l i r x n).begins l q c =
      (s.goesOn l c fun k => { { f k with position := some n } with piece := q, progress := 0 }).setRecord i
        (some { r with body := .outbound { x with state := .sending } }) := by
  rw [takenUp_reported, begins_reported, setRecord_goesOn]

theorem takenUp_updSched_begins (f g : Sched → Sched) (q : Piece) :
    ((((s.reported l).updSched l f).takenUp l i r x n).updSched l g).begins l q c =
      (s.goesOn l c fun k => { g { f k with position := some n } with piece := q, progress := 0 }).setRecord i
        (some { r with body := .outbound { x with state := .sending } }) := by
  rw [takenUp_reported, updSched_updSched, begins_reported, setRecord_goesOn]

end

/-! ### The held story taken up at the end of an answer-back sent at READY (R164, R170) -/

section
variable {s : Part} {l : LineNo} {c : Code} {cs : List Code} {p : Plane} {i : Slot} {r : Record} {x : OutRecord}
  {n : Nat} (hidle : (s.line l).unit.state = .idle) (hrun : (s.line l).sched.running = true)
  (hp : (s.line l).sched.piece = .answerBack true)
  (hlen : (s.line l).sched.progress = (s.line l).texts.answerBack.length) (hcur : (s.line l).sched.current = some i)
  (hr : s.record i = some r) (hb : r.body = .outbound x) (hres : x.resume = some (n, p))
include hidle hrun hp hlen hcur hr hb hres

theorem reportSent_takes_text (ho : (s.line l).sched.resumptionOwed = true)
    (ht : (s.line l).texts.resumption = c :: cs) : (s.reported l).reportSent l =
      (s.goesOn l c fun k => { k with
        answerBack := .clear, position := some n, progress := 0, piece := .resumption }).setRecord i
          (some { r with body := .outbound { x with state := .sending } }) := by
  rw [reportSent_of_answerBack_end hp hlen]
  dsimp only
  rw [if_pos rfl, resumeAtReady_of_text (readyToSend_reported hidle hrun) (by simpa using hcur) hr hb hres
    (by simpa using ho) (by simpa using ht)]
  exact takenUp_begins _ .resumption

theorem reportSent_takes_shift (ho : (s.line l).sched.resumptionOwed = true)
    (ht : (s.line l).texts.resumption = []) : (s.reported l).reportSent l =
      (s.goesOn l (shiftCode (s.map l) p) fun k => { k with
        answerBack := .clear, position := some n, progress := 0, piece := .shift p .resumed,
        resumptionOwed := false }).setRecord i (some { r with body := .outbound { x with state := .sending } }) := by
  rw [reportSent_of_answerBack_end hp hlen]
  dsimp only
  rw [if_pos rfl, resumeAtReady_of_no_text (readyToSend_reported hidle hrun) (by simpa using hcur) hr hb hres
    (by simpa using ho) (by simpa using ht)]
  exact takenUp_updSched_begins _ (fun k => { k with resumptionOwed := false }) (.shift p .resumed)

theorem reportSent_takes_held (ho : (s.line l).sched.resumptionOwed = false) : (s.reported l).reportSent l =
      (s.goesOn l (shiftCode (s.map l) p) fun k => { k with
        answerBack := .clear, position := some n, progress := 0, piece := .shift p .held }).setRecord i
          (some { r with body := .outbound { x with state := .sending } }) := by
  rw [reportSent_of_answerBack_end hp hlen]
  dsimp only
  rw [if_pos rfl, resumeAtReady_of_shift (readyToSend_reported hidle hrun) (by simpa using hcur) hr hb hres
    (by simpa using ho)]
  exact takenUp_begins _ (.shift p .held)

end

section
variable {s : State} {l : LineNo} {o : OutCode}

/-- CODE_SENT on a line in IDLE for the story of a running sender (R157). -/
theorem exec_codeSent_story (ha : s.active l = true) (ho : (s.line l).unit.out = some o) {i : Slot} {r : Record} {n : Nat}
    (hidle : (s.line l).unit.state = .idle) (hs : o.source = .scheduler) (hc : o.counts = true)
    (hrun : (s.line l).sched.running = true) (hq : (s.line l).sched.piece = .story)
    (hcur : (s.line l).sched.current = some i) (hr : s.record i = some r) (hp : (s.line l).sched.position = some n)
    (hlt : n + 1 < r.count) (hend : (s.outEntry r n).mark = false ∨
      (s.preemptor l r.priority = false ∧ (s.line l).sched.answerBack ≠ .pending)) :
    exec (.codeSent l) s = .next { s with toPart :=
      (s.toPart.goesOn l (s.outEntry r (n + 1)).code fun k => { k with position := some (n + 1) }).serveBus } :=
  exec_codeSent_goesOn ha ho hs hc (reportSent_story_goesOn hidle hrun hq hcur hr hp hlt hend)

theorem exec_codeSent_takenUp {i : Slot} (ha : s.active l = true) (ho : (s.line l).unit.out = some o)
    (hs : o.source = .scheduler) (hc : o.counts = true) {c : Code} {f : Sched → Sched} {q : Option Record}
    (h : (s.toPart.reported l).reportSent l = (s.toPart.goesOn l c f).setRecord i q) :
    exec (.codeSent l) s = .next { s with toPart := ((s.toPart.goesOn l c f).setRecord i q).serveBus } := by
  rw [exec_codeSent ha, codeSent_of_counted ho hs hc, h, pump_of_out (c := s.begun c)]
  exact (congrArg (fun x : Line => x.unit.out) rfl).trans (unit_goesOn c f)

end

/-- Settles O29: the source of the code, and for a scheduler's code the piece it was of, give the next one. -/
theorem codeSentBeginsTheNext : Obligations.CodeSentBeginsTheNext := by
  refine ⟨?_, fun l s => ⟨tx_of_idle, fun o ho hm hl hnow => ?_⟩, ?_⟩
  · intro l o s ha ho k
    refine ⟨?_, fun i r n hidle hs hc hrun hq hcur hr hp hlt hend =>
      exec_codeSent_story ha ho hidle hs hc hrun hq hcur hr hp hlt hend, fun hidle hs hc hrun => ?_,
      fun ht hs hm => ?_, fun hl hs => ?_⟩
    · rw [codeSent_mem_dueLine_iff ha, ho]
      exact decide_eq_true_iff
    · rw [exec_codeSent ha, codeSent_of_overtaken ho hs hc hidle hrun]
    · rw [exec_codeSent ha, codeSent_of_generator ho hs ht hm]
    · rw [exec_codeSent ha, codeSent_of_resend ho hs hl]
  · intro element
    rw [tx_of_code ho hm hl]
    refine ⟨fun h => ?_, fun k hk h h' => ?_, fun he h => ?_⟩
    · rw [if_pos (element_eq (k := 0) (by omega) (by omega))]
    · rw [element_eq h h', if_neg (by omega), if_pos (by omega), Nat.add_sub_cancel]
    · have six : 6 ≤ (s.now - o.began) / (2 * (s.cfg l).u) := (Nat.le_div_iff_mul_le he).mpr (by omega)
      rw [if_neg (by omega), if_neg (by omega)]
  · intro l o s ha ho hidle hs hc hrun k texts shift begins goes standsIn
    have next {c : Code} {f : Sched → Sched} (h : (s.toPart.reported l).reportSent l = s.toPart.goesOn l c f) :
        goes c f := exec_codeSent_goesOn ha ho hs hc h
    refine ⟨fun c h => next (reportSent_more_goesOn hidle hrun h), fun c cs p hcur hback ht =>
        ⟨fun h => next (reportSent_answerBack_of_interruption hidle hrun hcur hback ht h),
          fun hp hlen => next (reportSent_answerBack_of_ready hidle hrun hcur hback ht hp hlen)⟩,
      fun i r x n p hcur hr hb hpos =>
        ⟨fun hp hlen hres => next (reportSent_of_resumption_end hidle hrun hcur hr hb hpos hp hlen hres),
          fun hlt hp hlen => ?_,
          fun hlt hp hlen => next (reportSent_story_of_answerBack hidle hrun hp hlen rfl hcur hr hpos hlt)⟩,
      fun ready p hp hlen hcur =>
        ⟨fun c cs ho ht => next (reportSent_interruption_of_answerBack hidle hrun hp hlen hcur ho ht),
          fun ho ht h => next (reportSent_shift_of_answerBack hidle hrun hp hlen hcur ho ht h),
          fun ho hready => next (reportSent_ready_of_answerBack hidle hrun hp hlen hcur ho hready)⟩,
      fun i r x n p hp hlen hcur hr hb hres => ?_⟩
    · rcases hp with hp | hp
      · exact next (reportSent_of_shift_end hidle hrun hcur hr hpos hlt hp (.inl rfl) hlen)
      · exact next (reportSent_of_shift_end hidle hrun hcur hr hpos hlt hp (.inr rfl) hlen)
    · intro resumes
      refine ⟨fun c cs ho' ht => ?_, fun ho' ht => ?_, fun ho' => ?_⟩
      · have sent := exec_codeSent_takenUp ha ho hs hc
          (reportSent_takes_text hidle hrun hp hlen hcur hr hb hres ho' ht)
        exact sent
      · have sent := exec_codeSent_takenUp ha ho hs hc
          (reportSent_takes_shift hidle hrun hp hlen hcur hr hb hres ho' ht)
        exact sent
      · have sent := exec_codeSent_takenUp ha ho hs hc (reportSent_takes_held hidle hrun hp hlen hcur hr hb hres ho')
        exact sent

end Sys2Proof.Machine
end

section
/-! CODE_SENT at a line end (08.3, 08.4): the preemption test, the answer-back, the interruption. -/

namespace Sys2Proof.Machine

section
variable {s : Part} {l : LineNo} {i : Slot} {r : Record} {x : OutRecord} {n : Nat} {p : Plane}

/-- An answer-back begins: with the first code of its text, or at once with the shift behind an empty one. -/
theorem exists_startPiece_answerBack (h : s.readyToSend l) (b : Bool) :
    ∃ c, s.startPiece l (.answerBack b) = s.begins l (.answerBack b) c ∧
      ∀ d ds, (s.line l).texts.answerBack = d :: ds → c = d := by
  have codes := pieceCodes_answerBack (s := s.updSched l fun k => { k with piece := .answerBack b, progress := 0 })
    (l := l) (b := b) (by simp)
  cases ht : (s.line l).texts.answerBack with
  | nil =>
    rw [texts_updSched, ht] at codes
    exact ⟨_, startPiece_of_code h nofun codes, nofun⟩
  | cons c cs => exact ⟨c, startPiece_answerBack h ht b, by rintro _ _ ⟨⟩; rfl⟩

/-- The record of a story suspended before offset `n` in plane `p` (R160). -/
def Record.suspendedAt (r : Record) (x : OutRecord) (n : Nat) (p : Plane) : Record :=
  { r with body := .outbound { x with state := .suspended, resume := some (n, p) } }

/-- The sender of line `l` with nothing on it, its story in slot `i` suspended and interruption owed (R160). -/
def Part.suspended (s : Part) (l : LineNo) (i : Slot) (r : Record) (x : OutRecord) (n : Nat) (p : Plane) : Part :=
  ((s.reported l).setRecord i (some (r.suspendedAt x n p))).updSched l fun k =>
    { k with current := none, position := none, piece := .none, progress := 0, interruptionOwed := some p }

theorem suspend_eq (hr : s.record i = some r) (hb : r.body = .outbound x) :
    ((s.reported l).updSched l fun k => { k with position := some n }).suspend l i n p = s.suspended l i r x n p := by
  rw [Part.suspend, updOut_eq (s := (s.reported l).updSched l _) hr hb, ← setRecord_updSched, updSched_updSched]
  rfl

section
variable (hready : (s.line l).unit.state = .idle ∧ (s.line l).sched.running = true)

theorem sched_suspended : ((s.suspended l i r x n p).line l).sched = { (s.line l).sched with
    current := none, position := none, piece := .none, progress := 0, interruptionOwed := some p } := by
  rw [Part.suspended, sched_updSched]
  exact congrArg (fun k : Sched => { k with
    current := none, position := none, piece := .none, progress := 0, interruptionOwed := some p }) reported_sched

theorem texts_suspended : ((s.suspended l i r x n p).line l).texts = (s.line l).texts := by
  rw [Part.suspended, texts_updSched]
  exact reported_texts

include hready in
theorem readyToSend_suspended : (s.suspended l i r x n p).readyToSend l := by
  refine ⟨?_, by rw [sched_suspended]; exact hready.2, ?_⟩
  · rw [Part.suspended, unit_updSched]
    simpa [Part.reported] using hready.1
  · rw [Part.suspended, unit_updSched]
    simp [Part.reported]

theorem record_suspended : (s.suspended l i r x n p).record i = some (r.suspendedAt x n p) :=
  record_setRecord_self _ i _

theorem record_suspended_ne {j : Slot} (hj : j ≠ i) : (s.suspended l i r x n p).record j = s.record j :=
  record_setRecord_ne (s.reported l) i j _ hj

theorem line_suspended_ne {m : LineNo} (hm : m ≠ l) : (s.suspended l i r x n p).line m = s.line m := by
  rw [Part.suspended, line_updSched_ne _ _ _ _ hm]
  exact (line_updUnit_ne s l m _ hm : (s.reported l).line m = s.line m)

theorem suspended_rest : { s.suspended l i r x n p with lines := s.lines, records := s.records } = s := rfl

end

/-- CODE_SENT for the code at a line end, the story going on. -/
theorem reportSent_at_line_end (hq : (s.line l).sched.piece = .story) (hcur : (s.line l).sched.current = some i)
    (hr : s.record i = some r) (hp : (s.line l).sched.position = some n) (hlt : n + 1 < r.count)
    (hm : (s.outEntry r n).mark = true) (hb : r.body = .outbound x) : (s.reported l).reportSent l =
      let v := (s.reported l).updSched l fun k => { k with position := some (n + 1) }
      let u := s.suspended l i r x (n + 1) (s.outEntry r n).plane
      if (s.line l).sched.answerBack = .pending then
        if s.preemptor l r.priority then u.startAnswerBack l false else v.startAnswerBack l false
      else if s.preemptor l r.priority then u.startInterruption l false else v.offerCode l := by
  have pre : ((s.reported l).updSched l fun k => { k with position := some (n + 1) }).preemptor l r.priority =
      s.preemptor l r.priority := preemptor_congr (fun _ => rfl) rfl (by simp)
  rw [reportSent_of_story (s := s.reported l) (by simpa using hq) (by simpa using hcur) hr (by simpa using hp)]
  dsimp only
  have entry : (s.reported l).outEntry r n = s.outEntry r n := rfl
  rw [entry, if_neg (by omega), if_pos hm, Part.atLineEnd, pre]
  have suspend : ((s.reported l).updSched l fun k => { k with position := some (n + 1) }).suspend l i (n + 1)
      (s.outEntry r n).plane = s.suspended l i r x (n + 1) (s.outEntry r n).plane := suspend_eq hr hb
  rw [suspend]
  cases s.preemptor l r.priority with
  | true => simp [sched_suspended]
  | false => simp

/-- At a line end with no preemptor a pending answer-back begins, or the story goes on (R157, R164). -/
theorem exists_goesOn_of_unpreempted (hidle : (s.line l).unit.state = .idle) (hrun : (s.line l).sched.running = true)
    (hq : (s.line l).sched.piece = .story) (hcur : (s.line l).sched.current = some i) (hr : s.record i = some r)
    (hp : (s.line l).sched.position = some n) (hlt : n + 1 < r.count) (hm : (s.outEntry r n).mark = true)
    (hb : r.body = .outbound x) (hpre : s.preemptor l r.priority = false) :
    ∃ (c : Code) (f : Sched → Sched), (s.reported l).reportSent l = s.goesOn l c f ∧ (∀ k, (f k).queue = k.queue) ∧
      ((s.line l).sched.answerBack = .pending →
        (∀ k, f k = { k with
          position := some (n + 1), answerBack := .beingSent, piece := .answerBack false, progress := 0 }) ∧
        ∀ d ds, (s.line l).texts.answerBack = d :: ds → c = d) := by
  by_cases hback : (s.line l).sched.answerBack = .pending
  · have ready := readyToSend_reported (f := fun k => { k with position := some (n + 1), answerBack := .beingSent })
      hidle hrun
    obtain ⟨c, hc, hd⟩ := exists_startPiece_answerBack ready false
    rw [texts_updSched, reported_texts] at hd
    rw [begins_reported] at hc
    have sent := reportSent_at_line_end hq hcur hr hp hlt hm hb
    dsimp only at sent
    rw [if_pos hback, hpre, if_neg Bool.false_ne_true, Part.startAnswerBack, updSched_updSched, hc] at sent
    exact ⟨c, _, sent, fun _ => rfl, fun _ => ⟨fun _ => rfl, hd⟩⟩
  · exact ⟨_, _, reportSent_story_goesOn hidle hrun hq hcur hr hp hlt (.inr ⟨hpre, hback⟩), fun _ => rfl,
      fun h => absurd h hback⟩

/-- What a suspended story's sender begins: the pending answer-back, else the interruption text, else its LTRS shift
(R160, R161, R164). -/
theorem exists_begins_of_preempted (hready : (s.line l).unit.state = .idle ∧ (s.line l).sched.running = true)
    (howed : (s.line l).texts.interruption ≠ [] ∨ (s.line l).sched.answerBack = .pending ∨ p ≠ .ltrs) :
    let u := s.suspended l i r x n p
    ∃ (f : Sched → Sched) (q : Piece) (c : Code),
      (if (s.line l).sched.answerBack = .pending then u.startAnswerBack l false else u.startInterruption l false) =
        (u.updSched l f).begins l q c ∧
      (∀ k, ∃ a, f k = { k with answerBack := a }) ∧
      ((s.line l).sched.answerBack = .pending → q = .answerBack false ∧ (∀ k, (f k).answerBack = .beingSent) ∧
        ∀ d ds, (s.line l).texts.answerBack = d :: ds → c = d) ∧
      ((s.line l).sched.answerBack ≠ .pending →
        (∀ d ds, (s.line l).texts.interruption = d :: ds → q = .interruption ∧ c = d) ∧
        ((s.line l).texts.interruption = [] → q = .shift .ltrs .interruption ∧ c = shiftCode (s.map l) .ltrs)) := by
  intro u
  have ready : u.readyToSend l := readyToSend_suspended hready
  have texts : (u.line l).texts = (s.line l).texts := texts_suspended
  have same (q : Piece) (c : Code) : u.begins l q c = (u.updSched l fun k => k).begins l q c := by
    rw [Part.begins, Part.begins, updSched_updSched]
  by_cases hback : (s.line l).sched.answerBack = .pending
  · have ready' : (u.updSched l fun k => { k with answerBack := .beingSent }).readyToSend l := by
      simpa [Part.readyToSend] using ready
    obtain ⟨c, hc, hd⟩ := exists_startPiece_answerBack ready' false
    rw [texts_updSched, texts] at hd
    exact ⟨_, _, c, (if_pos hback).trans hc, fun k => ⟨.beingSent, rfl⟩, fun _ => ⟨rfl, fun _ => rfl, hd⟩,
      fun h => absurd hback h⟩
  · cases ht : (s.line l).texts.interruption with
    | cons c cs =>
      refine ⟨_, _, c, (if_neg hback).trans ((startInterruption_of_text (by rw [texts, ht]) ready false).trans (same _ _)),
        fun k => ⟨_, rfl⟩, fun h => absurd h hback, fun _ => ⟨?_, nofun⟩⟩
      rintro _ _ ⟨⟩
      exact ⟨rfl, rfl⟩
    | nil =>
      have hp : p ≠ .ltrs := (howed.resolve_left fun h => h ht).resolve_left hback
      have owed : (u.line l).sched.interruptionOwed ≠ some .ltrs := by
        rw [sched_suspended]
        simpa using hp
      exact ⟨_, _, _, (if_neg hback).trans ((startInterruption_of_shift (by rw [texts, ht]) ready (.inr owed)).trans
        (same _ _)), fun k => ⟨_, rfl⟩, fun h => absurd h hback, fun _ => ⟨nofun, fun _ => ⟨rfl, rfl⟩⟩⟩

end

/-! ### The result of a begun piece -/

theorem begins_updSched_lines {s : Part} {l m : LineNo} (f : Sched → Sched) (q : Piece) (c : Code) (hm : m ≠ l) :
    ((s.updSched l f).begins l q c).line m = s.line m := by
  rw [line_begins_ne hm, line_updSched_ne _ _ _ _ hm]

theorem begins_updSched_line (s : Part) (l : LineNo) (f : Sched → Sched) (q : Piece) (c : Code) :
    (((s.updSched l f).begins l q c).line l).sched = { f (s.line l).sched with piece := q, progress := 0 } ∧
      (((s.updSched l f).begins l q c).line l).unit.out = some (s.begun c) := by
  rw [line_begins]
  exact ⟨by simp, rfl⟩

/-- A part that differs in its lines from one that differs in its lines and records from `s`. -/
theorem rest_of_lines {s t u : Part} (h : { t with lines := u.lines } = u)
    (h' : { u with lines := s.lines, records := s.records } = s) :
    { t with lines := s.lines, records := s.records } = s :=
  (congrArg (fun p : Part => { p with lines := s.lines, records := s.records }) h :).trans h'

/-- The first code `c` of a story in slot `j`, its record now `q`, begun on line `l` (R156). -/
def Part.storyBegun (w : Part) (l : LineNo) (j : Slot) (q : Option Record) (c : Code) : Part :=
  ((w.setRecord j q).updSched l fun k => { k with current := some j, position := some 0 }).begins l .story c

section
variable (w : Part) (l : LineNo) (j : Slot) (q : Option Record) (c : Code)

theorem storyBegun_record : (w.storyBegun l j q c).record j = q := record_setRecord_self w j q

theorem storyBegun_record_ne {m : Slot} (hm : m ≠ j) : (w.storyBegun l j q c).record m = w.record m :=
  record_setRecord_ne w j m q hm

theorem storyBegun_sched : ((w.storyBegun l j q c).line l).sched =
    { (w.line l).sched with current := some j, position := some 0, piece := .story, progress := 0 } :=
  (begins_updSched_line (w.setRecord j q) l _ .story c).1

theorem storyBegun_out : ((w.storyBegun l j q c).line l).unit.out = some (w.begun c) :=
  (begins_updSched_line (w.setRecord j q) l _ .story c).2

theorem storyBegun_rest (s : Part) (h : { w with lines := s.lines, records := s.records } = s) :
    { w.storyBegun l j q c with lines := s.lines, records := s.records } = s :=
  rest_of_lines (begins_rest (s := (w.setRecord j q).updSched l fun k =>
    { k with current := some j, position := some 0 }) (l := l) .story c) h

theorem storyBegun_line_ne {m : LineNo} (hm : m ≠ l) : (w.storyBegun l j q c).line m = w.line m :=
  begins_updSched_lines (s := w.setRecord j q) _ .story c hm

end

/-! ### The preempting story (R155, R161) -/

/-- The sender with nothing on it after a suspension at which nothing is owed (R161). -/
def Part.yielded (s : Part) (l : LineNo) (i : Slot) (r : Record) (x : OutRecord) (n : Nat) : Part :=
  (s.suspended l i r x n .ltrs).updSched l fun k => { k with interruptionOwed := none, piece := .none, progress := 0 }

section
variable {s : Part} {l : LineNo} {i j : Slot} {r q : Record} {x y : OutRecord} {n : Nat} {before after : List Slot}

theorem sched_yielded : ((s.yielded l i r x n).line l).sched = { (s.line l).sched with
    current := none, position := none, piece := .none, progress := 0, interruptionOwed := none } := by
  rw [Part.yielded, sched_updSched, sched_suspended]

theorem record_yielded : (s.yielded l i r x n).record i = some (r.suspendedAt x n .ltrs) := record_suspended

theorem record_yielded_ne {m : Slot} (hm : m ≠ i) : (s.yielded l i r x n).record m = s.record m :=
  record_suspended_ne hm

theorem line_yielded_ne {m : LineNo} (hm : m ≠ l) : (s.yielded l i r x n).line m = s.line m :=
  (line_updSched_ne (s.suspended l i r x n .ltrs) l m _ hm).trans (line_suspended_ne hm)

theorem yielded_rest : { s.yielded l i r x n with lines := s.lines, records := s.records } = s :=
  rest_of_lines (u := s.suspended l i r x n .ltrs) rfl suspended_rest

/-- The record that stands first of the choosable beside the suspended story is chosen, when it preempts that story. -/
theorem choice_yielded (hq : (s.line l).sched.queue = before ++ j :: after) (hj : j ≠ i) (hr : s.record j = some q)
    (hb : q.body = .outbound y) (hy : s.choosable y = true) (hpre : preempts q.priority r.priority = true)
    (hqueued : y.state = .queued)
    (hbefore : ∀ m p z, m ∈ before → m ≠ i → s.record m = some p → p.body = .outbound z → s.choosable z = true →
      queueRank q y < queueRank p z)
    (hafter : ∀ m p z, m ∈ after → m ≠ i → s.record m = some p → p.body = .outbound z → s.choosable z = true →
      queueRank q y ≤ queueRank p z) : (s.yielded l i r x n).choice l = some j := by
  have self : (s.yielded l i r x n).record i = some (r.suspendedAt x n .ltrs) := record_suspended
  have others {m : Slot} (hm : m ≠ i) : (s.yielded l i r x n).record m = s.record m := record_suspended_ne hm
  have less : queueRank q y < 2 * r.priority := by
    have lower : q.priority < r.priority := by
      simp only [preempts, Bool.or_eq_true, Bool.and_eq_true, beq_iff_eq, decide_eq_true_eq] at hpre
      omega
    rw [queueRank, if_neg (by rw [hqueued]; exact nofun)]
    omega
  have behind {p : Record} {z : OutRecord} (hp : (s.yielded l i r x n).record i = some p) :
      queueRank q y < queueRank p z := by
    obtain rfl : r.suspendedAt x n .ltrs = p := Option.some.inj (self.symm.trans hp)
    exact Nat.lt_of_lt_of_le less (Nat.le_add_right _ _)
  have first := firstInQueue_eq_some (s := s.yielded l i r x n) (p := fun _ y => (s.yielded l i r x n).choosable y)
    (before := before) (after := after) ((others hj).trans hr) hb hy
    (fun m p z hm hp hz hc => by
      by_cases hi : m = i
      · exact behind (hi ▸ hp)
      · exact hbefore m p z hm hi ((others hi).symm.trans hp) hz hc)
    (fun m p z hm hp hz hc => by
      by_cases hi : m = i
      · exact Nat.le_of_lt (behind (hi ▸ hp))
      · exact hafter m p z hm hi ((others hi).symm.trans hp) hz hc)
  rw [Part.choice, sched_yielded, hq, first]
  rfl

/-- The preempting story begins in the act of the suspension. -/
theorem startInterruption_yielded (hready : (s.line l).unit.state = .idle ∧ (s.line l).sched.running = true)
    (ht : (s.line l).texts.interruption = []) (hback : (s.line l).sched.answerBack ≠ .pending)
    (hchoice : (s.yielded l i r x n).choice l = some j) (hj : j ≠ i) (hr : s.record j = some q)
    (hb : q.body = .outbound y) (hqueued : y.state = .queued) (hcount : 0 < q.count) :
    ((s.suspended l i r x n .ltrs).startInterruption l false).pump l =
      (s.yielded l i r x n).storyBegun l j (some { q with body := .outbound { y with state := .sending } })
        (s.outEntry q 0).code := by
  have ready : (s.yielded l i r x n).readyToSend l := by
    simpa [Part.readyToSend, Part.yielded] using readyToSend_suspended (i := i) (r := r) (x := x) (n := n)
      (p := .ltrs) hready
  have record : (s.yielded l i r x n).record j = some q := (record_suspended_ne hj).trans hr
  have nothing := startInterruption_of_nothing (s := s.suspended l i r x n .ltrs) (by rw [texts_suspended, ht])
    (by rw [sched_suspended])
  have free : (s.yielded l i r x n).senderFree l = true :=
    senderFree_iff.mpr ⟨by rw [sched_yielded]; exact hready.2, by rw [sched_yielded], by rw [sched_yielded]⟩
  rw [nothing]
  exact settle_chosen free (by rw [sched_yielded]; exact hback) hchoice
    (choose_of_queued record hb hqueued hcount ready) nofun

end

/-- Settles O30, by whether a preemptor stands in the queue, and what the line then owes. -/
theorem lineEndPreemption : Obligations.LineEndPreemption := by
  intro l i r x n o s ha hidle ho hs hc k plane interruption hrun hq hcur hr hb hp hlt hm suspended
  have sent := reportSent_at_line_end hq hcur hr hp hlt hm hb
  have result {t : Part} (ht : ((s.toPart.reported l).reportSent l).pump l = t) :
      exec (.codeSent l) s = .next { s with toPart := t.serveBus } := by
    rw [exec_codeSent ha, codeSent_of_counted ho hs hc, ht]
  have started {t : Part} {f : Sched → Sched} {q : Piece} {c : Code}
      (ht : (s.toPart.reported l).reportSent l = (t.updSched l f).begins l q c) :
      ((s.toPart.reported l).reportSent l).pump l = (t.updSched l f).begins l q c := by
    rw [ht, pump_of_out (begins_updSched_line t l f q c).2]
  obtain ⟨u, hu⟩ : ∃ u, u = s.toPart.suspended l i r x (n + 1) plane := ⟨_, rfl⟩
  have sched : (u.line l).sched = { k with
      current := none, position := none, piece := .none, progress := 0, interruptionOwed := some plane } := by
    rw [hu]; exact sched_suspended
  have self : u.record i = some suspended := by rw [hu]; exact record_suspended
  have records (j : Slot) (hj : j ≠ i) : u.record j = s.record j := by rw [hu]; exact record_suspended_ne hj
  have lines (m : LineNo) (hm : m ≠ l) : u.line m = s.line m := by rw [hu]; exact line_suspended_ne hm
  have rest : { u with lines := s.lines, records := s.records } = s.toPart := by rw [hu]; rfl
  have now (c : Code) : u.begun c = s.begun c := by rw [hu]; rfl
  cases hpre : s.preemptor l r.priority with
  | false =>
    obtain ⟨c, f, eq, hf, hback⟩ := exists_goesOn_of_unpreempted hidle hrun hq hcur hr hp hlt hm hb hpre
    have out := unit_goesOn (s := s.toPart) (l := l) c f
    have line : ((s.toPart.goesOn l c f).line l).sched = f k := by simp [Part.goesOn, k]
    refine ⟨s.toPart.goesOn l c f, result (by rw [eq, pump_of_out out]), nofun, nofun, fun d ds _ h ht => ?_, fun _ =>
      ⟨by rw [line]; exact hf k, fun j _ => rfl, fun m hm => ?_, rfl⟩⟩
    · rw [line, (hback h).1, out, (hback h).2 d ds ht]
      exact ⟨hr, hcur, rfl, rfl, rfl, rfl⟩
    · rw [Part.goesOn, line_updSched_ne _ _ _ _ hm, line_updUnit_ne _ _ _ _ hm]
  | true =>
    rw [hpre] at sent
    simp only [if_true] at sent
    by_cases howed : interruption ≠ [] ∨ k.answerBack = .pending ∨ plane ≠ .ltrs
    · obtain ⟨f, q, c, begun, hf, hpend, hnot⟩ := exists_begins_of_preempted (i := i) (r := r) (x := x) (n := n + 1)
        ⟨hidle, hrun⟩ howed
      rw [← hu] at begun
      have eq := started (sent.trans (by rw [← hu]; exact begun))
      obtain ⟨line, out⟩ := begins_updSched_line u l f q c
      obtain ⟨a, ha'⟩ := hf (u.line l).sched
      have back : k.answerBack = .pending → a = .beingSent := fun h => by
        have sending := (hpend h).2.1 (u.line l).sched
        rwa [ha'] at sending
      rw [ha', sched] at line
      rw [now] at out
      refine ⟨_, result eq, fun _ _ => ⟨self, by rw [line], by rw [line], by rw [line], by rw [line],
        fun d ds hd ht => ?_, fun d ds hd ht => ?_, fun hd ht => ?_⟩, fun _ h h' h'' => ?_, nofun,
        fun _ => ⟨by rw [line], records, fun m hm => ?_, rest⟩⟩
      · obtain ⟨hq', -, hc'⟩ := hpend hd
        rw [line, out, hq', hc' d ds ht, back hd]
        exact ⟨rfl, rfl, rfl⟩
      · obtain ⟨hq', hc'⟩ := (hnot hd).1 d ds ht
        rw [line, out, hq', hc']
        exact ⟨rfl, rfl⟩
      · obtain ⟨hq', hc'⟩ := (hnot hd).2 ht
        rw [line, out, hq', hc']
        exact ⟨rfl, rfl⟩
      · exact absurd howed (by simp [h, h', h''])
      · rw [begins_updSched_lines _ _ _ hm, lines m hm]
    · have ht : interruption = [] := not_not.mp fun h => howed (.inl h)
      have hback : k.answerBack ≠ .pending := fun h => howed (.inr (.inl h))
      have hltrs : plane = .ltrs := not_not.mp fun h => howed (.inr (.inr h))
      have eq : (s.toPart.reported l).reportSent l =
          (s.toPart.suspended l i r x (n + 1) .ltrs).startInterruption l false :=
        sent.trans ((if_neg hback).trans (by rw [← hltrs]))
      refine ⟨_, result rfl, fun _ h => absurd h howed, fun _ _ _ _ => ?_, nofun, fun h => ?_⟩
      · intro open' rank before j after q y hqueue hj hqr hqb hy hopen hpre' hcount hbefore hafter
        have chosen := startInterruption_yielded (i := i) (r := r) (x := x) (n := n + 1) ⟨hidle, hrun⟩ ht hback
          (choice_yielded hqueue hj hqr hqb (choosable_iff.mpr (.inr ⟨hy, hopen⟩)) hpre' hy
            (fun m p z hm hi hp hz hc => hbefore m p z hm hi hp hz (choosable_iff.mp hc))
            fun m p z hm hi hp hz hc => hafter m p z hm hi hp hz (choosable_iff.mp hc)) hj hqr hqb hy hcount
        rw [eq, chosen, storyBegun_sched, storyBegun_out, sched_yielded]
        exact ⟨(storyBegun_record_ne _ l j _ _ hj.symm).trans (by rw [record_yielded, ← hltrs]; rfl),
          storyBegun_record _ l j _ _, rfl, rfl, rfl, rfl, rfl, rfl,
          fun m hi hm => (storyBegun_record_ne _ l j _ _ hm).trans (record_yielded_ne hi),
          fun m hm => (storyBegun_line_ne _ l j _ _ hm).trans (line_yielded_ne hm), storyBegun_rest _ l j _ _ _ yielded_rest⟩
      · exact absurd (h.resolve_left Bool.noConfusion) howed

end Sys2Proof.Machine
end

section
/-! What the events of a line leave alone about a record: the record, its request, and whether its frame is under
way. -/

namespace Sys2Proof.Machine

/-- A record, its request, and whether its frame is under way. -/
def Part.recordView (s : Part) (i : Slot) : Option Record × Option Request × Bool :=
  (s.record i, s.requestOf (.record i), s.frameUnderWay (.record i))

theorem recordView_eq_iff {s t : Part} {i : Slot} : t.recordView i = s.recordView i ↔
    t.record i = s.record i ∧ t.requestOf (.record i) = s.requestOf (.record i) ∧
      t.frameUnderWay (.record i) = s.frameUnderWay (.record i) := by simp [Part.recordView]

section
variable (s : Part) (l : LineNo) (i j : Slot)

theorem frameUnderWay_addRequest (r : Request) (o : Owner) :
    (s.addRequest r).frameUnderWay o = s.frameUnderWay o := by
  unfold Part.addRequest
  split <;> rfl

theorem frameUnderWay_removeRequest_ne {o o' : Owner} (h : o' ≠ o) :
    (s.removeRequest o').frameUnderWay o = s.frameUnderWay o := by
  unfold Part.frameUnderWay Part.removeRequest Port.drives
  cases s.port.own with
  | none => rfl
  | some f =>
    by_cases hf : f.owner = o'
    · have hne : f.owner ≠ o := fun e => h (hf.symm.trans e)
      have hne' : o' ≠ o := h
      simp [hf, hne']
    · simp [hf]

@[simp] theorem recordView_updLine (f : Line → Line) : (s.updLine l f).recordView i = s.recordView i := rfl
@[simp] theorem recordView_updUnit (f : LineUnit → LineUnit) : (s.updUnit l f).recordView i = s.recordView i := rfl
@[simp] theorem recordView_updSched (f : Sched → Sched) : (s.updSched l f).recordView i = s.recordView i := rfl
@[simp] theorem recordView_updSup (f : Supervision → Supervision) : (s.updSup l f).recordView i = s.recordView i := rfl
@[simp] theorem recordView_updRecog (f : Recog → Recog) : (s.updRecog l f).recordView i = s.recordView i := rfl
@[simp] theorem recordView_setPlane (p : Plane) : (s.setPlane l p).recordView i = s.recordView i := rfl

theorem recordView_addRequest_ne {r : Request} (h : r.owner ≠ .record i) :
    (s.addRequest r).recordView i = s.recordView i :=
  recordView_eq_iff.mpr ⟨addRequest_record _ _ _, requestOf_addRequest_ne s r _ h, frameUnderWay_addRequest _ _ _⟩

theorem recordView_removeRequest_ne {o : Owner} (h : o ≠ .record i) :
    (s.removeRequest o).recordView i = s.recordView i :=
  recordView_eq_iff.mpr ⟨rfl, requestOf_removeRequest_ne _ _ h.symm, frameUnderWay_removeRequest_ne _ h⟩

@[simp] theorem recordView_setCond (c : Condition) (b : Bool) : (s.setCond l c b).recordView i = s.recordView i := by
  unfold Part.setCond
  dsimp only
  split
  · rfl
  · split
    · exact recordView_addRequest_ne _ i nofun
    · rfl

@[simp] theorem recordView_judgeStore : s.judgeStore.recordView i = s.recordView i :=
  judgeStore_congr (p := fun t => t.recordView i) (fun _ _ _ => rfl)
    (fun _ _ => recordView_addRequest_ne _ i nofun) s

section
variable {i j} (h : i ≠ j)
include h

theorem recordView_setRecord_ne (r : Option Record) : (s.setRecord j r).recordView i = s.recordView i :=
  recordView_eq_iff.mpr ⟨record_setRecord_ne _ _ _ _ h, rfl, rfl⟩

theorem recordView_freeRecord_ne : (s.freeRecord j).recordView i = s.recordView i := by
  unfold Part.freeRecord
  split
  · rfl
  · rw [recordView_judgeStore, recordView_removeRequest_ne _ _ (fun e => h (Owner.record.inj e).symm)]
    exact recordView_setRecord_ne (s := { s with free := _, recent := _ }) h none

theorem recordView_updRecord_ne (f : Record → Record) : (s.updRecord j f).recordView i = s.recordView i :=
  recordView_eq_iff.mpr ⟨record_updRecord_ne _ _ _ _ h, rfl, rfl⟩

theorem recordView_requestCall_ne (k : FrameKind) : (s.requestCall j k).recordView i = s.recordView i := by
  unfold Part.requestCall
  split
  · split
    · exact recordView_addRequest_ne _ _ fun e => h (Owner.record.inj e).symm
    · rfl
  · rfl

theorem recordView_requestStory_ne (k : FrameKind) : (s.requestStory j k).recordView i = s.recordView i := by
  unfold Part.requestStory
  split
  · exact recordView_addRequest_ne _ _ fun e => h (Owner.record.inj e).symm
  · rfl

theorem recordView_report_ne (o : SendOutcome) (n : Nat) : (s.report l j o n).recordView i = s.recordView i := by
  rw [Part.report, recordView_requestCall_ne _ h, recordView_updSched]
  exact recordView_updRecord_ne s h _

theorem recordView_endClaim_ne (k : ClaimEnding) : (s.endClaim j k).recordView i = s.recordView i := by
  unfold Part.endClaim
  split
  · rfl
  · split
    · split
      · exact recordView_updRecord_ne s h _
      · exact recordView_freeRecord_ne s h
    · rfl

end

end

/-! ### A STOP (R165 to R168) -/

section
variable {s : Part} {l : LineNo} {i : Slot}

/-- The record in slot `i` is not a story being sent. -/
def Part.notSending (s : Part) (i : Slot) : Prop :=
  ∀ r x, s.record i = some r → r.body = .outbound x → x.state ≠ .sending

theorem notSending_of_record {r : Record} {x : OutRecord} (hr : s.record i = some r) (hb : r.body = .outbound x)
    (hx : x.state ≠ .sending) : s.notSending i := by
  intro r' x' hr' hb'
  obtain rfl : r = r' := Option.some.inj (hr.symm.trans hr')
  obtain rfl : x = x' := Body.outbound.inj (hb.symm.trans hb')
  exact hx

theorem body_of_outbound? {r : Record} {x : OutRecord} (h : r.outbound? = some x) : r.body = .outbound x := by
  unfold Record.outbound? at h
  cases hb : r.body with
  | inbound y => rw [hb] at h; cases h
  | outbound y => rw [hb] at h; cases h; rfl

theorem recordView_holdStory (h : s.notSending i) (q : Piece) : (s.holdStory l q).recordView i = s.recordView i := by
  unfold Part.holdStory
  split
  · rfl
  · next j _ =>
    split
    · rfl
    · next r hr =>
      split
      · rfl
      · next x hx =>
        split
        · next hs =>
          have hij : i ≠ j := by
            rintro rfl
            exact h r x hr (body_of_outbound? hx) hs
          rw [recordView_updSched]
          exact recordView_updRecord_ne s hij _
        · rfl

theorem recordView_abandonStory (h : s.notSending i) : (s.abandonStory l).recordView i = s.recordView i := by
  unfold Part.abandonStory
  split
  · rfl
  · next j _ =>
    split
    · rfl
    · next x hx =>
      split
      · next hs =>
        have hij : i ≠ j := by
          rintro rfl
          obtain ⟨r, hr, hx⟩ := Option.bind_eq_some_iff.mp hx
          exact h r x hr (body_of_outbound? hx) hs
        exact recordView_report_ne _ l hij _ _
      · rfl

theorem recordView_schedStop (h : s.notSending i) {c : StopCause} (hc : c ≠ .lineRestart) :
    (s.schedStop l c).recordView i = s.recordView i := by
  have pieces : (s.stopPieces l).notSending i := h
  unfold Part.schedStop
  dsimp only
  cases c with
  | brk =>
    dsimp only
    split
    · exact recordView_abandonStory pieces
    · exact recordView_holdStory pieces _
  | lineOpen => rfl
  | lineOut => exact recordView_holdStory pieces _
  | loop => exact recordView_holdStory pieces _
  | test => exact recordView_holdStory pieces _
  | lineRestart => exact absurd rfl hc

/-- The line unit as a STOP of cause `c` leaves it (R11 to R13). -/
def Part.stopUnit (s : Part) (l : LineNo) (c : StopCause) (x : LineUnit) : LineUnit :=
  { (match x.out with
      | some o =>
        if o.source = .scheduler then
          if c = .lineRestart then { x with out := none, lastReport := some .cut }
          else if o.counts then
            if (s.cfg l).immediate then { x with
              out := none
              lastReport := some (if 12 * (s.cfg l).u ≤ s.now - o.began then .sent else .cut) }
            else { x with out := some { o with counts := false } }
          else x
        else x
      | none => x : LineUnit) with awaitReady := true, lastStop := some c }

theorem stop_eq (c : StopCause) : s.stop l c = (s.updUnit l (s.stopUnit l c)).schedStop l c := by
  rw [Part.stop, updUnit_updUnit]
  rfl

theorem recordView_stop (h : s.notSending i) {c : StopCause} (hc : c ≠ .lineRestart) :
    (s.stop l c).recordView i = s.recordView i := by
  have unit : (s.updUnit l (s.stopUnit l c)).notSending i := h
  rw [stop_eq, recordView_schedStop unit hc, recordView_updUnit]

/-! ### The ends of claims and of the assembly (R144, R71) -/

/-- The pending claims of a line ended: at each of its slots as `endClaim` does alone. -/
theorem recordView_endClaims (s : Part) (l : LineNo) (k : ClaimEnding) (i : Slot) :
    ∃ u : Part, u.recordView i = s.recordView i ∧ (s.endClaims l k).recordView i =
      (if (u.record i).bind Record.line = some l then u.endClaim i k else u).recordView i := by
  obtain ⟨is, hn, hm, his⟩ := exists_allSlots_eq
  rw [Part.endClaims, his, Part.forSlots]
  obtain ⟨u, -, hu, heq⟩ := view_foldl_of_mem (R := fun _ => True) (p := fun t => t.recordView i) (k := i)
    (f := fun j t => if (t.record j).bind Record.line = some l then t.endClaim j k else t)
    (fun j t hj => by
      split
      · exact recordView_endClaim_ne t (Ne.symm hj) k
      · rfl) (fun _ _ _ => trivial) hn (hm i) (s := s) trivial
  exact ⟨u, hu, heq⟩

theorem recordView_goOutside (s : Part) (l : LineNo) (i : Slot) : (s.goOutside l).recordView i = s.recordView i := by
  rw [Part.goOutside, recordView_setCond, recordView_updRecog]

/-- A line cause touches no slot but that of a story being received. -/
theorem recordView_lineCause (h : s.inRecord i = none) : (s.lineCause l).recordView i = s.recordView i := by
  unfold Part.lineCause
  dsimp only
  rw [recordView_goOutside]
  split
  · rfl
  · next j _ =>
    split
    · next hj =>
      have hij : i ≠ j := by rintro rfl; rw [h] at hj; cases hj
      split
      · exact recordView_freeRecord_ne s hij
      · rw [recordView_requestStory_ne _ hij]
        refine (recordView_updRecord_ne _ hij _).trans ((recordView_updRecord_ne _ hij _).trans ?_)
        exact recordView_removeRequest_ne _ _ fun e => hij (Owner.record.inj e).symm
    · next hj =>
      have hij : i ≠ j := by rintro rfl; rw [h] at hj; cases hj
      exact recordView_freeRecord_ne s hij
    · next hj =>
      have hij : i ≠ j := by rintro rfl; rw [h] at hj; cases hj
      exact recordView_freeRecord_ne s hij
    · rfl

section
variable (s : Part) (l : LineNo) (i : Slot)

@[simp] theorem recordView_moveLine (st : LineState) : (s.moveLine l st).recordView i = s.recordView i := rfl

@[simp] theorem recordView_checkerOut : (s.checkerOut l).recordView i = s.recordView i := by
  rw [Part.checkerOut, recordView_setCond, recordView_updSup]

@[simp] theorem recordView_leaveFor (st : LineState) : (s.leaveFor l st).recordView i = s.recordView i := by
  unfold Part.leaveFor
  dsimp only
  split
  · rw [recordView_setCond, recordView_moveLine]
  · rw [Part.endTest, recordView_checkerOut, recordView_updSup, recordView_moveLine]
  · rfl

@[simp] theorem recordView_exitLoop : (s.exitLoop l).recordView i = s.recordView i := by
  rw [Part.exitLoop, Part.restartMarkRun, recordView_updUnit, recordView_setCond, recordView_moveLine]

@[simp] theorem recordView_seedTest : (s.seedTest l).recordView i = s.recordView i := rfl

@[simp] theorem recordView_startGenerator : (s.startGenerator l).recordView i = s.recordView i := by
  unfold Part.startGenerator
  dsimp only
  split <;> rfl

end

end

end Sys2Proof.Machine
end

section
/-! Claims ended by their timer or by an event of their line, and intakes by silence (07.5 to 07.7). -/

namespace Sys2Proof.Machine

/-- The claim of the record in slot `i`, `r` in `s`, ended in `t` (R143): the record freed with its request, or, its
CLAIM under way, marked for that frame's end; no story is being received in its slot. -/
def ClaimEnded (s t : Part) (i : Slot) (r : Record) (x : OutRecord) (m : Claim) : Prop :=
  (s.frameUnderWay (.record i) = false → t.record i = none ∧ t.hasRequest (.record i) = false) ∧
    (s.frameUnderWay (.record i) = true → m.ending = none →
      t.record i = some { r with body := .outbound { x with
        claim := some { m with since := none, ending := some .withdraw } } }) ∧
    t.inRecord i = none

section
variable {s t : Part} {l : LineNo} {i : Slot} {r : Record} {x : OutRecord} {m : Claim}

theorem ClaimEnded.of_view {u v : Part} (h : ClaimEnded u v i r x m) (hu : u.recordView i = s.recordView i)
    (ht : t.recordView i = v.recordView i) : ClaimEnded s t i r x m := by
  obtain ⟨-, -, huw⟩ := recordView_eq_iff.mp hu
  obtain ⟨hr, hq, -⟩ := recordView_eq_iff.mp ht
  unfold ClaimEnded at *
  rw [← huw, hr, hasRequest_congr hq, Part.inRecord, hr]
  exact h

theorem claimEnded_endClaim (hr : s.record i = some r) (hb : r.body = .outbound x) (hx : x.state = .claiming)
    (hm : x.claim = some m) : ClaimEnded s (s.endClaim i .withdraw) i r x m := by
  refine ⟨fun hu => ?_, fun hu he => ?_, ?_⟩
  · rw [endClaim_of_idle hr hb hx hu]
    exact ⟨record_freeRecord_self _ _, hasRequest_freeRecord_self s i (by rw [hr]; rfl)⟩
  · rw [endClaim_of_under_way hr hb hx hm hu, record_setRecord_self, he]
  · cases hu : s.frameUnderWay (.record i) with
    | false => rw [endClaim_of_idle hr hb hx hu, Part.inRecord, record_freeRecord_self]; rfl
    | true => rw [endClaim_of_under_way hr hb hx hm hu, Part.inRecord, record_setRecord_self]; rfl

/-- The pending claims of line `l` withdrawn: each as its timer would (R144). -/
theorem claimEnded_endClaims (hr : s.record i = some r) (hb : r.body = .outbound x) (hl : r.line = some l)
    (hx : x.state = .claiming) (hm : x.claim = some m) : ClaimEnded s (s.endClaims l .withdraw) i r x m := by
  obtain ⟨u, hu, heq⟩ := recordView_endClaims s l .withdraw i
  have hru : u.record i = some r := (recordView_eq_iff.mp hu).1.trans hr
  rw [if_pos (by rw [hru]; exact hl)] at heq
  exact (claimEnded_endClaim hru hb hx hm).of_view hu heq

/-! ### The events of a line that withdraw its claims (R144) -/

section
variable (hr : s.record i = some r) (hb : r.body = .outbound x) (hl : r.line = some l) (hx : x.state = .claiming)
  (hm : x.claim = some m)
include hr hb hl hx hm

/-- A part whose record, request and frame stand as in `s`. -/
theorem claimEnded_endClaims_of_view {u : Part} (hu : u.recordView i = s.recordView i) :
    ClaimEnded s (u.endClaims l .withdraw) i r x m :=
  (claimEnded_endClaims ((recordView_eq_iff.mp hu).1.trans hr) hb hl hx hm).of_view hu rfl

omit hl hm in
theorem recordView_stop_of_claiming {c : StopCause} (hc : c ≠ .lineRestart) (k : LineNo) :
    (s.stop k c).recordView i = s.recordView i :=
  recordView_stop (notSending_of_record hr hb (by rw [hx]; exact nofun)) hc

theorem claimEnded_raiseBreak (ha : s.active l = true) (hs : (s.line l).unit.spaceSince.isSome = true)
    (hc : s.cond l .brk = false) : ClaimEnded s (s.raiseBreak l) i r x m := by
  rw [Part.raiseBreak, if_pos (by simp [ha, hs, hc])]
  refine claimEnded_endClaims_of_view hr hb hl hx hm ?_
  have before : ((s.updUnit l fun x => { x with held := false }).setCond l .brk true).recordView i = s.recordView i := by
    rw [recordView_setCond, recordView_updUnit]
  split
  · rw [recordView_stop_of_claiming ((recordView_eq_iff.mp before).1.trans hr) hb hx (by decide), before]
  · exact before

theorem claimEnded_raiseLineOpen (ha : s.active l = true) (hs : (s.line l).unit.spaceSince.isSome = true)
    (hc : s.cond l .brk = true) (ho : s.cond l .lineOpen = false) : ClaimEnded s (s.raiseLineOpen l) i r x m := by
  rw [Part.raiseLineOpen, if_pos (by simp [ha, hs, hc, ho])]
  have before : (s.setCond l .lineOpen true).recordView i = s.recordView i := recordView_setCond _ _ _ _ _
  have ended {u : Part} (hu : u.recordView i = s.recordView i) :
      ClaimEnded s ((u.endClaims l .withdraw).lineCause l) i r x m := by
    have h := claimEnded_endClaims_of_view hr hb hl hx hm hu
    exact h.of_view rfl (recordView_lineCause h.2.2)
  dsimp only
  refine ended ?_
  split
  · rw [recordView_stop_of_claiming ((recordView_eq_iff.mp before).1.trans hr) hb hx (by decide), before]
  · rw [recordView_exitLoop, before]
  · rw [recordView_checkerOut, before]
  · exact before

theorem claimEnded_lineOut (ha : s.active l = true) (hi : (s.line l).unit.state = .idle) :
    ClaimEnded s (s.lineOut l) i r x m := by
  rw [Part.lineOut, if_pos ha, hi]
  dsimp only
  have h := claimEnded_endClaims_of_view hr hb hl hx hm (u := (s.stop l .lineOut).leaveFor l .outOfService)
    (by rw [recordView_leaveFor, recordView_stop_of_claiming hr hb hx (by decide)])
  exact h.of_view rfl (recordView_lineCause h.2.2)

theorem claimEnded_testStart (ha : s.active l = true) (hi : (s.line l).unit.state = .idle) :
    ClaimEnded s (s.testStart l) i r x m := by
  rw [Part.testStart, if_pos ha, hi]
  dsimp only
  have h := claimEnded_endClaims_of_view hr hb hl hx hm (u := s.stop l .test)
    (recordView_stop_of_claiming hr hb hx (by decide) l)
  exact h.of_view rfl (by rw [recordView_startGenerator, recordView_seedTest, recordView_leaveFor])

end

end

theorem exec_breakRise (l : LineNo) (s : State) :
    exec (.breakRise l) s = .next { s with toPart := (s.toPart.raiseBreak l).serveBus } := rfl

theorem exec_lineOpenRise (l : LineNo) (s : State) :
    exec (.lineOpenRise l) s = .next { s with toPart := (s.toPart.raiseLineOpen l).serveBus } := rfl

theorem onLines_single {o : Order} {l : LineNo} (h : orderLines o = some [l]) (s : Part) (act : LineNo → Part → Part) :
    s.onLines o act = act l s := by
  rw [onLines_eq, h]
  rfl

theorem recordView_heard (s : Part) (i : Slot) : s.heard.recordView i = s.recordView i :=
  recordView_eq_iff.mpr ⟨rfl, rfl, heard_frameUnderWay s _⟩

/-- An event of line `l` that withdraws its claims, on the part it meets: an order is heard first. -/
theorem exists_claimsEnded {s : State} {l : LineNo} {c : Instr} (h : s.toPart.stopsClaims l c) :
    ∃ t : Part, exec c s = .next { s with toPart := t.serveBus } ∧
      ∀ i r x m, s.record i = some r → r.body = .outbound x → r.line = some l → x.state = .claiming →
        x.claim = some m → ClaimEnded s.toPart t i r x m := by
  rcases h with ⟨rfl, ha, hs, hc⟩ | ⟨rfl, ha, hs, hc, ho⟩ | ⟨o, rfl | rfl, ht, hsup, ha, hone, hi⟩
  · exact ⟨_, exec_breakRise l s, fun i r x m hr hb hl hx hm => claimEnded_raiseBreak hr hb hl hx hm ha hs hc⟩
  · exact ⟨_, exec_lineOpenRise l s, fun i r x m hr hb hl hx hm => claimEnded_raiseLineOpen hr hb hl hx hm ha hs hc ho⟩
  · refine ⟨_, exec_lineOut ht hsup, fun i r x m hr hb hl hx hm => ?_⟩
    rw [onLines_single hone]
    exact (claimEnded_lineOut (s := s.toPart.heard) hr hb hl hx hm ha hi).of_view
      (recordView_heard _ _) rfl
  · refine ⟨_, exec_testStart ht hsup, fun i r x m hr hb hl hx hm => ?_⟩
    rw [onLines_single hone]
    exact (claimEnded_testStart (s := s.toPart.heard) hr hb hl hx hm ha hi).of_view
      (recordView_heard _ _) rfl

/-- Settles O36: a claim's timer, and the events of its line, end it alike. -/
theorem claimsAndIntakesEnd : Obligations.ClaimsAndIntakesEnd := by
  refine ⟨fun i r x s hr hb => ⟨fun c hx hm hs => ?_, fun hx => ?_⟩, fun l c s h => ?_⟩
  · rw [exec_claimPendingExpiry, claimExpires_eq hr hb hm hs]
    refine ⟨fun since hsince => ?_, fun hu => ⟨_, rfl, ?_⟩, fun hu he => ?_⟩
    · rw [claimPendingExpiry_mem_dueRecord_iff hr hb, hm]
      simp [ranFrom, hsince]
    · rw [endClaim_of_idle hr hb hx hu]
      exact freeRecord_frees hr
    · rw [endClaim_of_under_way hr hb hx hm hu, he]
  · rw [exec_intakeSilenceExpiry, intakeExpires_eq hr hb hx]
    refine ⟨fun k hk => ?_, _, rfl, abortIntake_aborts hr hb⟩
    rw [intakeSilenceExpiry_mem_dueRecord_iff hr hb, hk]
    simp [ranFrom]
  · obtain ⟨t, ht, ended⟩ := exists_claimsEnded h
    exact ⟨t, ht, fun i r x m hr hb hl hx hm =>
      have h := ended i r x m hr hb hl hx hm
      ⟨h.1, h.2.1⟩⟩

end Sys2Proof.Machine
end

section
/-! A STOP at the sender, and what the end of the claims and of the assembly of a line leave alone (R11, R71, R144,
R165 to R168). -/

namespace Sys2Proof.Machine

/-! ### The kinds of a line's events -/

/-- Changes of fewer kinds are changes of more. -/
theorem Act.mono {K K' : Kind → Prop} {s t : Part} (hK : ∀ k, K k → K' k) (h : Act K s t) : Act K' s t := by
  induction h with
  | refl => exact .refl
  | unit l f k _ ih => exact .unit l f (hK _ k) ih
  | plane l p k _ ih => exact .plane l p (hK _ k) ih
  | recog l f k _ ih => exact .recog l f (hK _ k) ih
  | sched l f k _ ih => exact .sched l f (hK _ k) ih
  | sup l f b k _ ih => exact .sup l f b (hK _ k) ih
  | add r k _ ih => exact .add r (hK _ k) ih
  | remove o k _ ih => exact .remove o (hK _ k) ih
  | drop o k _ ih => exact .drop o (hK _ k) ih
  | port f b k _ ih => exact .port f b (hK _ k) ih
  | record i f b k _ ih => exact .record i f b (hK _ k) ih
  | alloc i r a b c k _ ih => exact .alloc i r a b c (hK _ k) ih
  | release i r a k _ ih => exact .release i r a (hK _ k) ih
  | recent is k _ ih => exact .recent is (hK _ k) ih
  | take i b rest a c k _ ih => exact .take i b rest a c (hK _ k) ih
  | reserve i b a k _ ih => exact .reserve i b a (hK _ k) ih
  | assign i r b rest a c k _ ih => exact .assign i r b rest a c (hK _ k) ih
  | surplus i x a k _ ih => exact .surplus i x a (hK _ k) ih
  | write a b k _ ih => exact .write a b (hK _ k) ih
  | register es a k _ ih => exact .register es a (hK _ k) ih
  | trackers ts a k _ ih => exact .trackers ts a (hK _ k) ih
  | groups g b k _ ih => exact .groups g b (hK _ k) ih
  | notices n a k _ ih => exact .notices n a (hK _ k) ih
  | period x k _ ih => exact .period x (hK _ k) ih
  | hearing k _ ih => exact .hearing (hK _ k) ih
  | rx l b k _ ih => exact .rx l b (hK _ k) ih

section
variable (s : Part) (l : LineNo)

theorem stop_takes (c : StopCause) : Act (· ∈ [.unit, .sched, .record, .list]) s (s.stop l c) :=
  stop_act (by decide) (by decide) (by decide) (by decide) l c .refl

theorem schedStop_takes (c : StopCause) : Act (· ∈ [.sched, .record, .list]) s (s.schedStop l c) :=
  schedStop_act (by decide) (by decide) (by decide) l c .refl

/-- The kinds of the end of a claim. -/
abbrev claimKinds : Kind → Prop := (· ∈ [.record, .store, .list, .notices])

theorem endClaim_takes {s0 s : Part} (i : Slot) (k : ClaimEnding) (h : Act claimKinds s0 s) :
    Act claimKinds s0 (s.endClaim i k) := by
  unfold Part.endClaim
  split
  · exact h
  · split
    · split
      · exact updOut_act (by decide) i (fun _ => rfl) h
      · exact freeRecord_act (by decide) (by decide) (by decide) i h
    · exact h

theorem endClaims_takes (k : ClaimEnding) : Act claimKinds s (s.endClaims l k) := by
  refine forSlots_act (fun i s h => ?_) _ .refl
  split
  · exact endClaim_takes i k h
  · exact h

theorem goOutside_takes : Act (· ∈ [.recog, .sup, .list]) s (s.goOutside l) :=
  setCond_act (by decide) (by decide) _ _ _ (.recog _ _ (by decide) .refl)

theorem lineCause_takes : Act (· ∈ [.recog, .sup, .list, .record, .store, .notices]) s (s.lineCause l) := by
  unfold Part.lineCause
  dsimp only
  refine setCond_act (by decide) (by decide) _ _ _ (.recog _ _ (by decide) ?_)
  split
  · exact .refl
  · split
    · split
      · exact freeRecord_act (by decide) (by decide) (by decide) _ .refl
      · exact requestStory_act (by decide) _ _ (updIn_act (by decide) _ _
          (.record _ _ (fun _ => ⟨rfl, rfl⟩) (by decide) (.remove _ (by decide) .refl)))
    · exact freeRecord_act (by decide) (by decide) (by decide) _ .refl
    · exact freeRecord_act (by decide) (by decide) (by decide) _ .refl
    · exact .refl

end

/-! ### Lines beside the one concerned -/

section
variable (s : Part) {l m : LineNo}

@[simp] theorem endClaims_lines (k : ClaimEnding) : (s.endClaims l k).lines = s.lines :=
  (endClaims_takes s l k).lines_eq (by decide) (by decide) (by decide) (by decide) (by decide)

@[simp] theorem endClaims_line (k : ClaimEnding) : (s.endClaims l k).line m = s.line m := by simp [Part.line]

@[simp] theorem endClaims_cond (k : ClaimEnding) (c : Condition) : (s.endClaims l k).cond m c = s.cond m c := by
  simp [Part.cond]

theorem requestCall_line (i : Slot) (k : FrameKind) : (s.requestCall i k).line m = s.line m := by
  simp [Part.line, (requestCall_act (K := (· ∈ [.list])) (by decide) i k .refl).lines_eq (s := s) (by decide)
    (by decide) (by decide) (by decide) (by decide)]

theorem requestStory_line (i : Slot) (k : FrameKind) : (s.requestStory i k).line m = s.line m := by
  simp [Part.line, (requestStory_act (K := (· ∈ [.list])) (by decide) i k .refl).lines_eq (s := s) (by decide)
    (by decide) (by decide) (by decide) (by decide)]

theorem line_report (i : Slot) (o : SendOutcome) (n : Nat) : (s.report l i o n).line m =
    ((s.updSched l fun k => { k with queue := k.queue.filter fun j => !(j == i) }).line m) := by
  rw [Part.report, requestCall_line]
  rfl

theorem line_holdStory_ne (h : m ≠ l) (q : Piece) : (s.holdStory l q).line m = s.line m := by
  unfold Part.holdStory
  split
  · rfl
  · split
    · rfl
    · split
      · rfl
      · split
        · exact line_updSched_ne _ _ _ _ h
        · rfl

theorem line_abandonStory_ne (h : m ≠ l) : (s.abandonStory l).line m = s.line m := by
  unfold Part.abandonStory
  split
  · rfl
  · split
    · rfl
    · split
      · rw [line_report, line_updSched_ne _ _ _ _ h, line_updSched_ne _ _ _ _ h]
      · rfl

theorem line_abandonQueue_ne (h : m ≠ l) : (s.abandonQueue l).line m = s.line m := by
  rw [Part.abandonQueue]
  rw [line_updSched_ne _ _ _ _ h]
  refine invariant_foldl (R := fun t => t.line m = s.line m) (fun i t ht => ?_) _ rfl
  split
  · rw [line_report, line_updSched_ne _ _ _ _ h, ht]
  · exact ht

theorem line_schedStop_ne (h : m ≠ l) (c : StopCause) : (s.schedStop l c).line m = s.line m := by
  have pieces : (s.stopPieces l).line m = s.line m := line_updSched_ne _ _ _ _ h
  rw [← pieces]
  unfold Part.schedStop
  cases c with
  | brk =>
    dsimp only
    split
    · exact line_abandonStory_ne _ h
    · exact line_holdStory_ne _ h _
  | lineOpen => rfl
  | lineOut => exact line_holdStory_ne _ h _
  | loop => exact line_holdStory_ne _ h _
  | test => exact line_holdStory_ne _ h _
  | lineRestart => exact line_abandonQueue_ne _ h

theorem line_stop_ne (h : m ≠ l) (c : StopCause) : (s.stop l c).line m = s.line m := by
  rw [stop_eq, line_schedStop_ne _ h, line_updUnit_ne _ _ _ _ h]

theorem line_lineCause_ne (h : m ≠ l) : (s.lineCause l).line m = s.line m := by
  unfold Part.lineCause Part.goOutside
  dsimp only
  rw [line_setCond_ne _ _ _ _ _ h, line_updRecog_ne _ _ _ _ h]
  split
  · rfl
  · split
    · split
      · exact freeRecord_line _ _ _
      · exact requestStory_line _ _ _
    · exact freeRecord_line _ _ _
    · exact freeRecord_line _ _ _
    · rfl

end

/-! ### The line stopped (R11, R165) -/

section
variable (s : Part) (l : LineNo)

theorem unit_stop (c : StopCause) : ((s.stop l c).line l).unit = s.stopUnit l c (s.line l).unit := by
  rw [stop_eq, (schedStop_takes _ l c).unit_eq (by decide)]
  simp

theorem sched_stopPieces : ((s.stopPieces l).line l).sched = { (s.line l).sched with
    running := false, piece := .none, progress := 0,
    answerBack := if (s.line l).sched.answerBack = .beingSent then .pending else (s.line l).sched.answerBack } := by
  rw [Part.stopPieces, sched_updSched]

/-- The sender STOPPED with no piece on it (R165). -/
def Part.senderStopped (s : Part) (l : LineNo) : Prop :=
  (s.line l).sched.running = false ∧ (s.line l).sched.piece = .none

theorem senderStopped_updSched {s : Part} {l : LineNo} {f : Sched → Sched}
    (hf : ∀ k, (f k).running = k.running ∧ (f k).piece = k.piece) (h : s.senderStopped l) :
    (s.updSched l f).senderStopped l := by
  simpa [Part.senderStopped, (hf _).1, (hf _).2] using h

theorem senderStopped_holdStory (q : Piece) (h : s.senderStopped l) : (s.holdStory l q).senderStopped l := by
  unfold Part.holdStory
  split
  · exact h
  · split
    · exact h
    · split
      · exact h
      · split
        · dsimp only
          exact senderStopped_updSched (fun _ => ⟨rfl, rfl⟩) h
        · exact h

theorem senderStopped_abandonStory (h : s.senderStopped l) : (s.abandonStory l).senderStopped l := by
  unfold Part.abandonStory
  split
  · exact h
  · split
    · exact h
    · split
      · rw [Part.senderStopped, line_report]
        exact senderStopped_updSched (fun _ => ⟨rfl, rfl⟩) (senderStopped_updSched (fun _ => ⟨rfl, rfl⟩) h)
      · exact h

theorem senderStopped_abandonQueue : (s.abandonQueue l).senderStopped l := by
  rw [Part.abandonQueue]
  exact ⟨by rw [sched_updSched]; rfl, by rw [sched_updSched]; rfl⟩

theorem senderStopped_stop (c : StopCause) : (s.stop l c).senderStopped l := by
  have pieces (t : Part) : (t.stopPieces l).senderStopped l := ⟨by rw [sched_stopPieces], by rw [sched_stopPieces]⟩
  rw [stop_eq]
  unfold Part.schedStop
  dsimp only
  cases c with
  | brk =>
    dsimp only
    split
    · exact senderStopped_abandonStory _ _ (pieces _)
    · exact senderStopped_holdStory _ _ _ (pieces _)
  | lineOpen => exact pieces _
  | lineOut => exact senderStopped_holdStory _ _ _ (pieces _)
  | loop => exact senderStopped_holdStory _ _ _ (pieces _)
  | test => exact senderStopped_holdStory _ _ _ (pieces _)
  | lineRestart => exact senderStopped_abandonQueue _ _

end

/-! ### The story on the sender (R166, R167) -/

section
variable {s : Part} {l : LineNo} {i : Slot} {r : Record} {x : OutRecord} {n : Nat}
  (hcur : (s.line l).sched.current = some i) (hr : s.record i = some r) (hb : r.body = .outbound x)
  (hx : x.state = .sending)
include hcur hr hb hx

/-- A story whose own codes are sent is held at the start of its text line. -/
theorem holdStory_of_story (hp : (s.line l).sched.position = some n) : s.holdStory l .story =
    (s.setRecord i (some { r with body := .outbound { x with
      state := .heldBreak, resume := some (s.lineStart r n) } })).updSched l fun k => { k with position := none } := by
  have hout : r.outbound? = some x := by simp [Record.outbound?, hb]
  unfold Part.holdStory
  simp only [hcur, hr, hout, hx, if_true, hp]
  rw [updOut_eq hr hb]
  rfl

theorem abandonStory_eq : s.abandonStory l = (s.updSched l fun k =>
    { k with current := none, position := none, resumptionOwed := false }).report l i .abandoned
      ((s.line l).sched.position.getD 0) := by
  simp only [Part.abandonStory, hcur, outRecord_eq hr hb, hx, if_true]

end

end Sys2Proof.Machine
end

section
/-! BREAK and LINE-OPEN rise (01.3, 01.4, 08.5). -/

namespace Sys2Proof.Machine

/-! ### What the end of the claims leaves alone -/

section
variable {s : Part} {l : LineNo} {i : Slot}

/-- The record in slot `i` is not a claim. -/
def Part.notClaiming (s : Part) (i : Slot) : Prop :=
  ∀ r x, s.record i = some r → r.body = .outbound x → x.state ≠ .claiming

theorem notClaiming_of_record {r : Record} {x : OutRecord} (hr : s.record i = some r) (hb : r.body = .outbound x)
    (hx : x.state ≠ .claiming) : s.notClaiming i := by
  intro r' x' hr' hb'
  obtain rfl : r = r' := Option.some.inj (hr.symm.trans hr')
  obtain rfl : x = x' := Body.outbound.inj (hb.symm.trans hb')
  exact hx

theorem endClaim_of_notClaiming (h : s.notClaiming i) (k : ClaimEnding) : s.endClaim i k = s := by
  unfold Part.endClaim
  split
  · rfl
  · next x hx =>
    obtain ⟨r, hr, hx⟩ := Option.bind_eq_some_iff.mp hx
    exact if_neg (h r x hr (body_of_outbound? hx))

theorem recordView_endClaims_of_notClaiming (h : s.notClaiming i) (k : ClaimEnding) :
    (s.endClaims l k).recordView i = s.recordView i := by
  obtain ⟨u, hu, heq⟩ := recordView_endClaims s l k i
  have hru : u.record i = s.record i := (recordView_eq_iff.mp hu).1
  have hun : u.notClaiming i := by rw [Part.notClaiming, hru]; exact h
  rw [heq, endClaim_of_notClaiming hun, ite_self, hu]

end

/-! ### A STOP by BREAK -/

section
variable {s : Part} {l : LineNo} {i : Slot} {r : Record} {x : OutRecord} {n : Nat}

/-- The part at which the scheduler of line `l` meets a STOP: its line stopped, its pieces off (R11, R165). -/
def Part.stopping (s : Part) (l : LineNo) (c : StopCause) : Part := (s.updUnit l (s.stopUnit l c)).stopPieces l

theorem sched_stopping (c : StopCause) : ((s.stopping l c).line l).sched = { (s.line l).sched with
    running := false, piece := .none, progress := 0,
    answerBack := if (s.line l).sched.answerBack = .beingSent then .pending else (s.line l).sched.answerBack } := by
  rw [Part.stopping, sched_stopPieces, sched_updUnit]

theorem stop_brk : s.stop l .brk = if (s.cfg l).abandon then (s.stopping l .brk).abandonStory l
    else (s.stopping l .brk).holdStory l (s.line l).sched.piece := by
  rw [stop_eq, Part.schedStop, sched_updUnit]
  rfl

section
variable (hcur : (s.line l).sched.current = some i) (hr : s.record i = some r) (hb : r.body = .outbound x)
  (hx : x.state = .sending) (hp : (s.line l).sched.position = some n)
include hcur hr hb hx hp

/-- The story held at a STOP: HELD-BREAK at the start of its text line, still current and in its queue (R166). -/
theorem holdStory_stopping (c : StopCause) :
    let t := (s.stopping l c).holdStory l .story
    t.record i = some { r with body := .outbound { x with state := .heldBreak, resume := some (s.lineStart r n) } } ∧
      (t.line l).sched.current = some i ∧ (t.line l).sched.position = none ∧
      (t.line l).sched.queue = (s.line l).sched.queue := by
  have sched := sched_stopping (s := s) (l := l) c
  have start : (s.stopping l c).lineStart r n = s.lineStart r n :=
    lineStart_congr (s := s) (t := s.stopping l c) (fun _ _ => rfl) r n
  intro t
  have eq : t = _ := holdStory_of_story (s := s.stopping l c) (by rw [sched]; exact hcur) hr hb hx
    (by rw [sched]; exact hp)
  rw [start] at eq
  refine ⟨by rw [eq]; exact record_setRecord_self _ i _, ?_, ?_, ?_⟩ <;> rw [eq, sched_updSched]
  · exact (congrArg Sched.current sched :).trans hcur
  · exact (congrArg Sched.queue sched :)

/-- The story abandoned at a STOP: REPORTING with the total reached, off its queue, its CLOSE requested (R167, R172). -/
theorem abandonStory_stopping (c : StopCause) :
    let t := (s.stopping l c).abandonStory l
    t.record i = some { r with body := .outbound { x with
        state := .reporting, resume := none, outcome := some .abandoned, total := n } } ∧
      (t.line l).sched.current = none ∧
      (t.line l).sched.queue = (s.line l).sched.queue.filter (fun j => !(j == i)) ∧
      (s.hasRequest (.record i) = false → t.requestOf (.record i) =
        some { owner := .record i, cls := r.priority, kind := .close, key := x.call }) := by
  have sched := sched_stopping (s := s) (l := l) c
  obtain ⟨u, hu⟩ : ∃ u, u = s.stopping l c := ⟨_, rfl⟩
  have record : u.record i = some r := by rw [hu]; exact hr
  have requests : u.hasRequest (.record i) = s.hasRequest (.record i) := by rw [hu]; rfl
  rw [← hu] at sched ⊢
  intro t
  have position : (u.line l).sched.position.getD 0 = n := by rw [sched, hp]; rfl
  have eq : t = _ := (abandonStory_eq (s := u) (by rw [sched]; exact hcur) record hb hx).trans
    (report_eq (s := u.updSched l _) record hb .abandoned ((u.line l).sched.position.getD 0))
  rw [position] at eq
  refine ⟨?_, ?_, ?_, fun hq => ?_⟩
  · rw [eq, addRequest_record, updSched_record, record_setRecord_self]
  · rw [eq, addRequest_line, sched_updSched, ← setRecord_updSched]
    simp
  · rw [eq, addRequest_line, sched_updSched, ← setRecord_updSched, sched_updSched]
    exact (congrArg (fun q : List Slot => q.filter fun j => !(j == i)) (congrArg Sched.queue sched) :)
  · rw [eq]
    exact requestOf_addRequest_self _ { owner := .record i, cls := r.priority, kind := .close, key := x.call }
      (requests.trans hq)

end

end

/-- The part at which the end of a line's claims meets a BREAK (R7, R11). -/
def Part.broken (s : Part) (l : LineNo) : Part := (s.updUnit l fun x => { x with held := false }).setCond l .brk true

theorem raiseBreak_eq {s : Part} {l : LineNo} (ha : s.active l = true) (hs : (s.line l).unit.spaceSince.isSome = true)
    (hc : s.cond l .brk = false) : s.raiseBreak l =
      (if (s.line l).unit.state = .idle then (s.broken l).stop l .brk else s.broken l).endClaims l .withdraw := by
  rw [Part.raiseBreak, if_pos (by simp [ha, hs, hc])]
  rfl

theorem outEntry_of_mem {s t : Part} (h : t.mem = s.mem) (r : Record) (n : Nat) : t.outEntry r n = s.outEntry r n := by
  simp only [Part.outEntry, Part.entry, h]

theorem cond_of_sup {s t : Part} {l : LineNo} {c : Condition} (h : (t.line l).sup = (s.line l).sup) :
    t.cond l c = s.cond l c := by rw [Part.cond, Part.cond, h]

section
variable {s : Part} {l : LineNo} {c : StopCause} {x : LineUnit}

theorem stopUnit_held : (s.stopUnit l c x).held = x.held := by
  unfold Part.stopUnit
  dsimp only
  repeat' split
  all_goals rfl

theorem stopUnit_state : (s.stopUnit l c x).state = x.state := by
  unfold Part.stopUnit
  dsimp only
  repeat' split
  all_goals rfl

theorem stopUnit_rcv : (s.stopUnit l c x).rcv = x.rcv := by
  unfold Part.stopUnit
  dsimp only
  repeat' split
  all_goals rfl

section
variable {o : OutCode} (ho : x.out = some o) (hs : o.source = .scheduler) (hc : o.counts = true)
include ho hs hc

theorem stopUnit_out_of_immediate (hi : (s.cfg l).immediate = true) (hr : c ≠ .lineRestart) :
    (s.stopUnit l c x).out = none := by simp [Part.stopUnit, ho, hs, hc, hi, hr]

theorem stopUnit_out_of_character (hi : (s.cfg l).immediate = false) (hr : c ≠ .lineRestart) :
    (s.stopUnit l c x).out = some { o with counts := false } := by simp [Part.stopUnit, ho, hs, hc, hi, hr]

end

end

/-- Settles O25: BREAK rises, the sender is told, the line's claims end. -/
theorem breakStopsTheSender : Obligations.BreakStopsTheSender := by
  intro l s ha hspace hc k
  refine ⟨fun since hs => ?_, ?_⟩
  · rw [breakRise_mem_dueLine_iff ha, hs]
    simp only [hc, ranFrom, LineSettings.period, true_and]
    exact decide_eq_true_iff
  obtain ⟨v, hv⟩ : ∃ v, v = s.toPart.broken l := ⟨_, rfl⟩
  obtain ⟨u, hu⟩ : ∃ u, u = if (s.line l).unit.state = .idle then v.stop l .brk else v := ⟨_, rfl⟩
  have result : s.toPart.raiseBreak l = u.endClaims l .withdraw := by rw [raiseBreak_eq ha hspace hc, hu, hv]
  have vunit : (v.line l).unit = { (s.line l).unit with held := false } := by rw [hv]; simp [Part.broken]
  have vsched : (v.line l).sched = k := by rw [hv]; simp [Part.broken, k]
  have vline (m : LineNo) (hm : m ≠ l) : v.line m = s.line m := by
    rw [hv, Part.broken, line_setCond_ne _ _ _ _ _ hm, line_updUnit_ne _ _ _ _ hm]
  have vtakes : Act (· ∈ [.unit, .sup, .list]) s.toPart v := by
    rw [hv]
    exact setCond_act (by decide) (by decide) _ _ _ (.unit _ _ (by decide) .refl)
  have utakes : Act (· ∈ [.unit, .sched, .record, .list]) v u := by
    rw [hu]
    split
    · exact stop_takes v l .brk
    · exact .refl
  have vrecord (i : Slot) : v.record i = s.record i := vtakes.record_eq (by decide) (by decide) i
  have vstart (r : Record) (n : Nat) : v.lineStart r n = s.lineStart r n :=
    lineStart_congr (s := s.toPart) (t := v) (fun r n => outEntry_of_mem (vtakes.mem_eq (by decide)) r n) r n
  have ends {i : Slot} (h : u.notClaiming i) : (u.endClaims l .withdraw).record i = u.record i :=
    (recordView_eq_iff.mp (recordView_endClaims_of_notClaiming h .withdraw)).1
  have takes := endClaims_takes u l .withdraw
  have idle (hi : (s.line l).unit.state = .idle) : u = v.stop l .brk := by rw [hu, if_pos hi]
  have uunit (hi : (s.line l).unit.state = .idle) : (u.line l).unit = v.stopUnit l .brk (v.line l).unit := by
    rw [idle hi, unit_stop]
  refine ⟨_, by rw [exec_breakRise, result], ?_, ?_, ?_, fun hi => ?_, fun hi => ⟨?_, ?_, ?_, ?_, fun o ho hs hcount => ?_,
    fun i r x n hcur hr hb hx hq hp => ⟨fun hab => ?_, fun hab => ?_⟩⟩, fun m hm => ?_, ?_, ?_, ?_, ?_, ?_⟩
  · rw [endClaims_cond, cond_of_sup (utakes.sup_eq (by decide) l), hv, Part.broken, cond_setCond_self]
  · rw [endClaims_line, hu]
    split
    · rw [unit_stop, stopUnit_held, vunit]
    · rw [vunit]
  · rw [endClaims_line, hu]
    split
    · rw [unit_stop, stopUnit_rcv, vunit]
    · rw [vunit]
  · rw [endClaims_line, hu, if_neg hi, vunit, vsched]
    exact ⟨rfl, rfl⟩
  · rw [endClaims_line, uunit hi]; rfl
  · rw [endClaims_line, uunit hi]; rfl
  · rw [endClaims_line, idle hi]; exact (senderStopped_stop v l .brk).1
  · rw [endClaims_line, idle hi]; exact (senderStopped_stop v l .brk).2
  · have out : (v.line l).unit.out = some o := by rw [vunit]; exact ho
    rw [endClaims_line, uunit hi]
    exact ⟨fun him => stopUnit_out_of_immediate out hs hcount (by rw [vtakes.cfg_eq]; exact him) nofun,
      fun him => stopUnit_out_of_character out hs hcount (by rw [vtakes.cfg_eq]; exact him) nofun⟩
  · have held := holdStory_stopping (by rw [vsched]; exact hcur) (by rw [vrecord]; exact hr) hb hx
      (by rw [vsched]; exact hp) .brk
    rw [vstart, vsched] at held
    have stop : u = (v.stopping l .brk).holdStory l .story := by
      rw [idle hi, stop_brk, if_neg (by rw [vtakes.cfg_eq, hab]; exact Bool.false_ne_true), vsched, hq]
    rw [← stop] at held
    obtain ⟨hrec, hheld⟩ := held
    rw [endClaims_line]
    exact ⟨(ends (notClaiming_of_record hrec rfl nofun)).trans hrec, hheld⟩
  · obtain ⟨hrec, hcurrent, hqueue, hreq⟩ := abandonStory_stopping (by rw [vsched]; exact hcur)
      (by rw [vrecord]; exact hr) hb hx (by rw [vsched]; exact hp) .brk
    have stop : u = (v.stopping l .brk).abandonStory l := by
      rw [idle hi, stop_brk, if_pos (by rw [vtakes.cfg_eq, hab])]
    rw [← stop] at hrec hcurrent hqueue hreq
    have not : u.notClaiming i := notClaiming_of_record hrec rfl nofun
    have requests : v.hasRequest (.record i) = s.hasRequest (.record i) := by
      rw [hv, Part.broken, hasRequest_record_setCond]; rfl
    rw [endClaims_line]
    refine ⟨(ends not).trans hrec, hcurrent, by rw [hqueue, vsched], fun hn => ?_⟩
    exact (recordView_eq_iff.mp (recordView_endClaims_of_notClaiming not .withdraw)).2.1.trans
      (hreq (requests.trans hn))
  · rw [endClaims_line, hu, ← vline m hm]
    split
    · exact line_stop_ne v hm .brk
    · rfl
  · rw [takes.mem_eq (by decide), utakes.mem_eq (by decide), vtakes.mem_eq (by decide)]
  · rw [takes.register_eq (by decide), utakes.register_eq (by decide), vtakes.register_eq (by decide)]
  · rw [takes.trackers_eq (by decide), utakes.trackers_eq (by decide), vtakes.trackers_eq (by decide)]
  · rw [takes.groups_eq (by decide), utakes.groups_eq (by decide), vtakes.groups_eq (by decide)]
  · rw [takes.rx_eq (by decide), utakes.rx_eq (by decide), vtakes.rx_eq (by decide)]

end Sys2Proof.Machine
end

section
/-! LINE-OPEN rises, and a line cause ends the story being received (01.3, 03.8). -/

namespace Sys2Proof.Machine

/-! ### A line cause on the assembly (R71) -/

/-- The story received in slot `i` dropped at a line cause (R71). -/
def Part.dropTied (s : Part) (i : Slot) : Part :=
  match (s.inRecord i).map InRecord.state with
  | some .carrying =>
    if (s.requestOf (.record i)).map Request.kind = some FrameKind.offer then s.freeRecord i
    else (((s.removeRequest (.record i)).updRecord i fun r => { r with line := none }).updIn i fun x =>
      { x with state := .withdrawing }).requestStory i .withdraw
  | some .opening | some .standby => s.freeRecord i
  | _ => s

/-- The story that line `l` receives, if any, dropped. -/
def Part.storyDropped (s : Part) (l : LineNo) : Part :=
  match (s.line l).recog.tied with
  | none => s
  | some i => s.dropTied i

theorem dropTied_takes (s : Part) (i : Slot) : Act claimKinds s (s.dropTied i) := by
  unfold Part.dropTied
  split
  · split
    · exact freeRecord_act (by decide) (by decide) (by decide) _ .refl
    · exact requestStory_act (by decide) _ _ (updIn_act (by decide) _ _
        (.record _ _ (fun _ => ⟨rfl, rfl⟩) (by decide) (.remove _ (by decide) .refl)))
  · exact freeRecord_act (by decide) (by decide) (by decide) _ .refl
  · exact freeRecord_act (by decide) (by decide) (by decide) _ .refl
  · exact .refl

section
variable {s : Part} {i : Slot} {r : Record} {x : InRecord} (hr : s.record i = some r) (hb : r.body = .inbound x)
include hr hb

theorem dropTied_of_freed (hx : x.state = .opening ∨ x.state = .standby ∨ x.state = .carrying ∧
    (s.requestOf (.record i)).map Request.kind = some FrameKind.offer) : s.dropTied i = s.freeRecord i := by
  rcases hx with hx | hx | ⟨hx, hq⟩ <;> simp only [Part.dropTied, inRecord_eq hr hb, Option.map_some, hx]
  exact if_pos hq

theorem dropTied_of_carrying (hx : x.state = .carrying)
    (hq : (s.requestOf (.record i)).map Request.kind ≠ some FrameKind.offer) : s.dropTied i =
      ((s.removeRequest (.record i)).setRecord i (some { r with
        line := none, body := .inbound { x with state := .withdrawing } })).addRequest
          { owner := .record i, cls := r.priority, kind := .withdraw, key := i.val } := by
  simp only [Part.dropTied, inRecord_eq hr hb, Option.map_some, hx]
  rw [if_neg hq, updRecord_eq (s := s.removeRequest _) hr, updIn_eq (r := { r with line := none }) (record_setRecord_self _ _ _) hb,
    setRecord_setRecord, requestStory_eq (record_setRecord_self _ _ _)]

theorem dropTied_of_other (hx : x.state ≠ .carrying ∧ x.state ≠ .opening ∧ x.state ≠ .standby) : s.dropTied i = s := by
  obtain ⟨hc, ho, hs⟩ := hx
  have state : (s.inRecord i).map InRecord.state = some x.state := by rw [inRecord_eq hr hb]; rfl
  unfold Part.dropTied
  split
  · next h => exact absurd (Option.some.inj (state.symm.trans h)) hc
  · next h => exact absurd (Option.some.inj (state.symm.trans h)) ho
  · next h => exact absurd (Option.some.inj (state.symm.trans h)) hs
  · rfl

end

section
variable (s : Part) (l m : LineNo)

theorem lineCause_eq : s.lineCause l = (s.storyDropped l).goOutside l := rfl

theorem storyDropped_takes : Act claimKinds s (s.storyDropped l) := by
  unfold Part.storyDropped
  split
  · exact .refl
  · exact dropTied_takes s _

@[simp] theorem storyDropped_line : (s.storyDropped l).line m = s.line m := by
  simp [Part.line, (storyDropped_takes s l).lines_eq (by decide) (by decide) (by decide) (by decide) (by decide)]

theorem recog_goOutside : ((s.goOutside l).line l).recog = Recog.blank := by
  rw [Part.goOutside, recog_line_setCond, recog_updRecog]

theorem cond_goOutside (c : Condition) : (s.goOutside l).cond m c = if m = l ∧ c = .stall then false else s.cond m c := by
  rw [Part.goOutside, cond_setCond]
  refine congrArg (fun b => if m = l ∧ c = .stall then false else b) ?_
  simp [Part.cond]

@[simp] theorem unit_lineCause : ((s.lineCause l).line m).unit = (s.line m).unit :=
  (lineCause_takes s l).unit_eq (by decide) m

@[simp] theorem sched_lineCause : ((s.lineCause l).line m).sched = (s.line m).sched :=
  (lineCause_takes s l).sched_eq (by decide) m

theorem recog_lineCause : ((s.lineCause l).line l).recog = Recog.blank := recog_goOutside _ l

theorem cond_lineCause (c : Condition) : (s.lineCause l).cond m c = if m = l ∧ c = .stall then false else s.cond m c := by
  rw [lineCause_eq, cond_goOutside]
  refine congrArg (fun b => if m = l ∧ c = .stall then false else b) ?_
  simp [Part.cond]

theorem chk_lineCause : ((s.lineCause l).line m).sup.chk = (s.line m).sup.chk := by
  rw [lineCause_eq, Part.goOutside, chk_sup_setCond]
  simp

end

/-! ### LINE-OPEN rises (R8, R11, R194, R197) -/

/-- The line's own answer to LINE-OPEN, before its claims and its story end (R11, R194, R197). -/
def Part.opened (s : Part) (l : LineNo) : Part :=
  let t := s.setCond l .lineOpen true
  match (s.line l).unit.state with
  | .idle => t.stop l .lineOpen
  | .loop => t.exitLoop l
  | .test => t.checkerOut l
  | _ => t

section
variable {s : Part} {l : LineNo}

theorem raiseLineOpen_eq (ha : s.active l = true) (hs : (s.line l).unit.spaceSince.isSome = true)
    (hc : s.cond l .brk = true) (ho : s.cond l .lineOpen = false) :
    s.raiseLineOpen l = ((s.opened l).endClaims l .withdraw).lineCause l := by
  rw [Part.raiseLineOpen, if_pos (by simp [ha, hs, hc, ho])]
  rfl

theorem exitLoop_takes (s : Part) (l : LineNo) : Act (· ∈ [.unit, .sup, .list]) s (s.exitLoop l) := by
  unfold Part.exitLoop Part.restartMarkRun Part.moveLine Part.clearRuns
  refine .unit _ _ (by decide) (setCond_act (by decide) (by decide) _ _ _ ?_)
  exact .sup _ _ (fun _ h => h) (by decide) (.unit _ _ (by decide) .refl)

theorem checkerOut_takes (s : Part) (l : LineNo) : Act (· ∈ [.sup, .list]) s (s.checkerOut l) :=
  setCond_act (by decide) (by decide) _ _ _ (.sup _ _ (fun _ h => h) (by decide) .refl)

theorem opened_takes (s : Part) (l : LineNo) : Act (· ∈ [.unit, .sched, .record, .list, .sup]) s (s.opened l) := by
  have open' : Act (· ∈ [.unit, .sched, .record, .list, .sup]) s (s.setCond l .lineOpen true) :=
    setCond_act (by decide) (by decide) _ _ _ .refl
  unfold Part.opened
  dsimp only
  split
  · exact open'.trans ((stop_takes _ l .lineOpen).mono (by decide))
  · exact open'.trans ((exitLoop_takes _ l).mono (by decide))
  · exact open'.trans ((checkerOut_takes _ l).mono (by decide))
  · exact open'

theorem line_exitLoop_ne {m : LineNo} (hm : m ≠ l) : (s.exitLoop l).line m = s.line m := by
  rw [Part.exitLoop, Part.restartMarkRun, line_updUnit_ne _ _ _ _ hm, line_setCond_ne _ _ _ _ _ hm, Part.moveLine,
    Part.clearRuns, line_updSup_ne _ _ _ _ hm, line_updUnit_ne _ _ _ _ hm]

theorem line_checkerOut_ne {m : LineNo} (hm : m ≠ l) : (s.checkerOut l).line m = s.line m := by
  rw [Part.checkerOut, line_setCond_ne _ _ _ _ _ hm, line_updSup_ne _ _ _ _ hm]

theorem line_opened_ne {m : LineNo} (hm : m ≠ l) : (s.opened l).line m = s.line m := by
  have open' : (s.setCond l .lineOpen true).line m = s.line m := line_setCond_ne _ _ _ _ _ hm
  unfold Part.opened
  dsimp only
  split
  · rw [line_stop_ne _ hm, open']
  · rw [line_exitLoop_ne hm, open']
  · rw [line_checkerOut_ne hm, open']
  · exact open'

end

theorem cond_exitLoop (s : Part) (l : LineNo) (c : Condition) :
    (s.exitLoop l).cond l c = if c = .loop then false else s.cond l c := by
  have keeps : (s.exitLoop l).cond l c = ((s.moveLine l .idle).setCond l .loop false).cond l c := by
    rw [Part.exitLoop, Part.restartMarkRun]
    simp [Part.cond]
  rw [keeps, cond_setCond]
  simp [Part.moveLine, Part.clearRuns, Part.cond]

theorem cond_checkerOut (s : Part) (l : LineNo) (c : Condition) :
    (s.checkerOut l).cond l c = if c = .testSync then false else s.cond l c := by
  rw [Part.checkerOut, cond_setCond]
  simp [Part.cond]

/-- Settles O26, by the state of the line. -/
theorem lineOpenRises : Obligations.LineOpenRises := by
  intro l s ha hspace hc ho
  refine ⟨fun since hs => ?_, ?_⟩
  · rw [lineOpenRise_mem_dueLine_iff ha, hs]
    simp only [hc, ho, ranFrom, true_and]
    exact decide_eq_true_iff
  obtain ⟨v, hv⟩ : ∃ v, v = s.toPart.setCond l .lineOpen true := ⟨_, rfl⟩
  have vunit : (v.line l).unit = (s.line l).unit := by rw [hv]; simp
  have vsched : (v.line l).sched = (s.line l).sched := by rw [hv]; simp
  have vopen : v.cond l .lineOpen = true := by rw [hv, cond_setCond_self]
  have vbrk : v.cond l .brk = true := by rw [hv, cond_setCond_ne _ _ _ _ _ (by decide)]; exact hc
  obtain ⟨u, hu⟩ : ∃ u, u = s.toPart.opened l := ⟨_, rfl⟩
  have cond (c : Condition) (hne : c ≠ .stall) : ((u.endClaims l .withdraw).lineCause l).cond l c = u.cond l c := by
    rw [cond_lineCause, if_neg (fun h => hne h.2), endClaims_cond]
  have kept : u.cond l .lineOpen = true ∧ u.cond l .brk = true := by
    rw [hu]
    unfold Part.opened
    dsimp only
    rw [← hv]
    split
    · have sup := (stop_takes v l .lineOpen).sup_eq (by decide) l
      exact ⟨(cond_of_sup sup).trans vopen, (cond_of_sup sup).trans vbrk⟩
    · rw [cond_exitLoop, cond_exitLoop]
      exact ⟨vopen, vbrk⟩
    · rw [cond_checkerOut, cond_checkerOut]
      exact ⟨vopen, vbrk⟩
    · exact ⟨vopen, vbrk⟩
  have takes := opened_takes s.toPart l
  have claims := endClaims_takes u l .withdraw
  have causes := lineCause_takes (u.endClaims l .withdraw) l
  rw [← hu] at takes
  refine ⟨(u.endClaims l .withdraw).lineCause l, by rw [exec_lineOpenRise, raiseLineOpen_eq ha hspace hc ho, hu],
    (cond _ (by decide)).trans kept.1, (cond _ (by decide)).trans kept.2, fun hi => ?_, fun hi => ?_, fun hi => ?_,
    fun hi => ?_, fun m hm => ?_, ?_, ?_, ?_, ?_, ?_⟩
  · have stop : u = v.stop l .lineOpen := by rw [hu, Part.opened, hi, hv]
    obtain ⟨hrun, hpiece⟩ := senderStopped_stop v l .lineOpen
    have sched : ((v.stop l .lineOpen).line l).sched = { (v.line l).sched with
        running := false, piece := .none, progress := 0,
        answerBack := if (v.line l).sched.answerBack = .beingSent then .pending else (v.line l).sched.answerBack } := by
      rw [stop_eq]
      exact sched_stopping .lineOpen
    rw [unit_lineCause, sched_lineCause, endClaims_line, stop]
    refine ⟨?_, ?_, ?_, hrun, hpiece, ?_, ?_⟩
    · rw [unit_stop, stopUnit_state, vunit, hi]
    · rw [unit_stop]; rfl
    · rw [unit_stop]; rfl
    · rw [sched, vsched]
    · rw [sched, vsched]
  · have exit : u = v.exitLoop l := by rw [hu, Part.opened, hi, hv]
    rw [cond _ (by decide), unit_lineCause, sched_lineCause, endClaims_line, exit]
    refine ⟨?_, ?_, ?_, ?_⟩
    · simp [Part.exitLoop, Part.restartMarkRun, Part.moveLine, Part.clearRuns]
    · simp [Part.exitLoop, Part.restartMarkRun, Part.moveLine, Part.clearRuns]
    · rw [cond_exitLoop, if_pos rfl]
    · rw [(exitLoop_takes v l).sched_eq (by decide), vsched]
  · have out : u = v.checkerOut l := by rw [hu, Part.opened, hi, hv]
    have chk : ((v.checkerOut l).line l).sup.chk = (v.line l).sup.chk.out := by
      rw [Part.checkerOut, chk_sup_setCond]
      simp
    rw [cond _ (by decide), unit_lineCause, sched_lineCause, chk_lineCause, endClaims_line, out, chk,
      (checkerOut_takes v l).unit_eq (by decide), (checkerOut_takes v l).sched_eq (by decide), vunit, vsched,
      cond_checkerOut, if_pos rfl]
    exact ⟨rfl, rfl, rfl, rfl, rfl, rfl⟩
  · have still : u = v := by rw [hu, Part.opened, hi, hv]
    rw [unit_lineCause, sched_lineCause, endClaims_line, still, vunit, vsched]
    exact ⟨rfl, rfl⟩
  · rw [line_lineCause_ne _ hm, endClaims_line, hu, line_opened_ne hm]
  · rw [causes.mem_eq (by decide), claims.mem_eq (by decide), takes.mem_eq (by decide)]
  · rw [causes.register_eq (by decide), claims.register_eq (by decide), takes.register_eq (by decide)]
  · rw [causes.trackers_eq (by decide), claims.trackers_eq (by decide), takes.trackers_eq (by decide)]
  · rw [causes.groups_eq (by decide), claims.groups_eq (by decide), takes.groups_eq (by decide)]
  · rw [causes.rx_eq (by decide), claims.rx_eq (by decide), takes.rx_eq (by decide)]

end Sys2Proof.Machine
end

section
/-! LINE-RESTART of one line (R19), piece by piece, and the story that a line cause ends (R71). -/

namespace Sys2Proof.Machine

section
variable (s : Part) (l m : LineNo) (i j : Slot)

/-! ### A record of the queue abandoned (R173) -/

/-- What LINE-RESTART does to slot `i` of a queue whose position is `n` (R173). -/
def Part.abandonSlot (s : Part) (l : LineNo) (n : Option Nat) (i : Slot) : Part :=
  match s.outRecord i with
  | some x => s.report l i .abandoned (abandonTotal x n)
  | none => s

theorem abandonQueue_eq : s.abandonQueue l =
    ((s.line l).sched.queue.foldl (fun t i => t.abandonSlot l (s.line l).sched.position i) s).updSched l
      fun _ => Sched.blank := rfl

section
variable {s l i j}

theorem recordView_abandonSlot_ne (h : i ≠ j) (n : Option Nat) :
    (s.abandonSlot l n j).recordView i = s.recordView i := by
  unfold Part.abandonSlot
  split
  · exact recordView_report_ne s l h _ _
  · rfl

theorem abandonSlot_of_not_outbound (h : s.outRecord i = none) (n : Option Nat) : s.abandonSlot l n i = s := by
  rw [Part.abandonSlot, h]

theorem outRecord_of_view {t : Part} (h : t.recordView i = s.recordView i) : t.outRecord i = s.outRecord i := by
  rw [Part.outRecord, Part.outRecord, (recordView_eq_iff.mp h).1]

theorem recordView_abandonQueue (h : i ∉ (s.line l).sched.queue ∨ s.outRecord i = none) :
    (s.abandonQueue l).recordView i = s.recordView i := by
  rw [abandonQueue_eq, recordView_updSched]
  rcases h with h | h
  · exact view_foldl_of_not_mem (p := fun t => t.recordView i)
      (fun j t hj => recordView_abandonSlot_ne (Ne.symm hj) _) _ h s
  · refine invariant_foldl (R := fun t => t.recordView i = s.recordView i) (fun j t ht => ?_) _ rfl
    by_cases hj : i = j
    · subst hj
      rw [abandonSlot_of_not_outbound ((outRecord_of_view ht).trans h), ht]
    · rw [recordView_abandonSlot_ne hj, ht]

/-- A record that stands in the queue once is abandoned once. -/
theorem recordView_abandonQueue_of_mem (hn : (s.line l).sched.queue.Nodup) (hi : i ∈ (s.line l).sched.queue) :
    ∃ u : Part, u.recordView i = s.recordView i ∧
      (s.abandonQueue l).recordView i = (u.abandonSlot l (s.line l).sched.position i).recordView i := by
  rw [abandonQueue_eq, recordView_updSched]
  obtain ⟨u, -, hu, heq⟩ := view_foldl_of_mem (R := fun _ => True) (p := fun t => t.recordView i) (k := i)
    (f := fun j t => t.abandonSlot l (s.line l).sched.position j)
    (fun j t hj => recordView_abandonSlot_ne (Ne.symm hj) _) (fun _ _ _ => trivial) hn hi (s := s) trivial
  exact ⟨u, hu, heq⟩

end

/-! ### Its claims and intakes (R144, R152) -/

/-- What LINE-RESTART does to an intake of line `l` in slot `i` (R152). -/
def Part.restartIntake (s : Part) (l : LineNo) (i : Slot) : Part :=
  match s.record i with
  | some r =>
    match r.outbound? with
    | some x => if r.line = some l ∧ x.state = .intake then s.abortIntake i else s
    | none => s
  | none => s

theorem restartClaims_eq : s.restartClaims l =
    (s.endClaims l .abort).forSlots allSlots fun i t => t.restartIntake l i := rfl

section
variable {s l i j}

theorem recordView_restartIntake_ne (h : i ≠ j) : (s.restartIntake l j).recordView i = s.recordView i := by
  unfold Part.restartIntake
  split
  · split
    · split
      · rw [Part.abortIntake, recordView_requestCall_ne _ h]
        exact recordView_updRecord_ne s h _
      · rfl
    · rfl
  · rfl

theorem restartIntake_of_not (h : ∀ r x, s.record i = some r → r.body = .outbound x → r.line = some l →
    x.state ≠ .intake) : s.restartIntake l i = s := by
  unfold Part.restartIntake
  split
  · next r hr =>
    split
    · next x hx => exact if_neg fun hc => h r x hr (body_of_outbound? hx) hc.1 hc.2
    · rfl
  · rfl

theorem restartIntake_of_intake {r : Record} {x : OutRecord} (hr : s.record i = some r) (hb : r.body = .outbound x)
    (hl : r.line = some l) (hx : x.state = .intake) : s.restartIntake l i = s.abortIntake i := by
  have hout : r.outbound? = some x := by simp [Record.outbound?, hb]
  simp only [Part.restartIntake, hr, hout, hl, hx, and_self, if_true]

/-- The claims and intakes of a line ended: at each slot as for that slot alone. -/
theorem recordView_restartClaims : ∃ u : Part, u.recordView i = (s.endClaims l .abort).recordView i ∧
    (s.restartClaims l).recordView i = (u.restartIntake l i).recordView i := by
  obtain ⟨is, hn, hm, his⟩ := exists_allSlots_eq
  rw [restartClaims_eq, his, Part.forSlots]
  obtain ⟨u, -, hu, heq⟩ := view_foldl_of_mem (R := fun _ => True) (p := fun t => t.recordView i) (k := i)
    (f := fun j t => t.restartIntake l j)
    (fun j t hj => recordView_restartIntake_ne (Ne.symm hj)) (fun _ _ _ => trivial) hn (hm i)
    (s := s.endClaims l .abort) trivial
  exact ⟨u, hu, heq⟩

/-- A record that is no claim and no intake of the line. -/
theorem recordView_restartClaims_of_not (h : ∀ r x, s.record i = some r → r.body = .outbound x → r.line = some l →
    x.state ≠ .claiming ∧ x.state ≠ .intake) : (s.restartClaims l).recordView i = s.recordView i := by
  have claims : (s.endClaims l .abort).recordView i = s.recordView i := by
    obtain ⟨u, hu, heq⟩ := recordView_endClaims s l .abort i
    rw [heq]
    split
    · next hl =>
      have hru := (recordView_eq_iff.mp hu).1
      rw [endClaim_of_notClaiming (fun r x hr hb => (h r x (hru ▸ hr) hb (by rw [hr] at hl; exact hl)).1), hu]
    · exact hu
  obtain ⟨u, hu, heq⟩ := recordView_restartClaims (s := s) (l := l) (i := i)
  have hru := (recordView_eq_iff.mp (hu.trans claims)).1
  rw [heq, restartIntake_of_not (fun r x hr hb hl => (h r x (hru ▸ hr) hb hl).2), hu, claims]

end

theorem restartIntake_takes {s0 s : Part} (i : Slot) (h : Act claimKinds s0 s) : Act claimKinds s0 (s.restartIntake l i) := by
  unfold Part.restartIntake
  split
  · split
    · split
      · exact requestCall_act (by decide) _ _ (updOut_act (by decide) _ (fun _ => rfl) h)
      · exact h
    · exact h
  · exact h

theorem restartClaims_takes : Act claimKinds s (s.restartClaims l) := by
  rw [restartClaims_eq]
  exact forSlots_act (fun i t h => restartIntake_takes l i h) _ (endClaims_takes s l .abort)

@[simp] theorem restartClaims_line : (s.restartClaims l).line m = s.line m := by
  simp [Part.line, (restartClaims_takes s l).lines_eq (by decide) (by decide) (by decide) (by decide) (by decide)]

/-! ### Its supervision (R207, R107) -/

/-- The conditions of line `l` in `cs` low. -/
def Part.lowered (s : Part) (l : LineNo) (cs : List Condition) : Part := cs.foldl (fun t c => t.setCond l c false) s

theorem restartSupervision_eq : s.restartSupervision l =
    (((s.updSup l Supervision.restarted).removeRequest (.report l)).lowered l allConditions).followGap l := rfl

theorem recordView_lowered (cs : List Condition) : (s.lowered l cs).recordView i = s.recordView i :=
  invariant_foldl (R := fun t => t.recordView i = s.recordView i)
    (fun c t ht => (recordView_setCond t l i c false).trans ht) cs rfl

theorem lowered_takes (cs : List Condition) : Act (· ∈ [.sup, .list]) s (s.lowered l cs) :=
  invariant_foldl (R := Act (· ∈ [.sup, .list]) s)
    (fun c _ ht => setCond_act (by decide) (by decide) l c false ht) cs .refl

theorem line_lowered_ne (h : m ≠ l) (cs : List Condition) : (s.lowered l cs).line m = s.line m :=
  invariant_foldl (R := fun t => t.line m = s.line m)
    (fun c t ht => (line_setCond_ne t l m c false h).trans ht) cs rfl

theorem cond_lowered (cs : List Condition) (c : Condition) :
    (s.lowered l cs).cond l c = (s.cond l c && !decide (c ∈ cs)) := by
  induction cs generalizing s with
  | nil => simp [Part.lowered]
  | cons d cs ih =>
    rw [Part.lowered, List.foldl_cons]
    exact (ih (s.setCond l d false)).trans (by rw [cond_setCond]; by_cases hd : c = d <;> simp [hd])

theorem recordView_followGap : (s.followGap l).recordView i = s.recordView i := by
  unfold Part.followGap
  split
  · split
    · exact recordView_setCond _ _ _ _ _
    · rfl
  · rfl

theorem followGap_takes : Act (· ∈ [.sup, .list]) s (s.followGap l) := followGap_act (by decide) (by decide) l .refl

theorem line_followGap_ne (h : m ≠ l) : (s.followGap l).line m = s.line m := by
  unfold Part.followGap
  split
  · split
    · exact line_setCond_ne _ _ _ _ _ h
    · rfl
  · rfl

theorem cond_followGap_ne {c : Condition} (h : c ≠ .gap) : (s.followGap l).cond l c = s.cond l c := by
  unfold Part.followGap
  split
  · split
    · exact cond_setCond_ne _ _ _ _ _ h
    · rfl
  · rfl

theorem recordView_restartSupervision : (s.restartSupervision l).recordView i = s.recordView i := by
  rw [restartSupervision_eq, recordView_followGap, recordView_lowered,
    recordView_removeRequest_ne (o := .report l) _ _ (fun e => nomatch e), recordView_updSup]

theorem restartSupervision_takes : Act (· ∈ [.sup, .list]) s (s.restartSupervision l) := by
  rw [restartSupervision_eq]
  have reset : Act (· ∈ [.sup, .list]) s ((s.updSup l Supervision.restarted).removeRequest (.report l)) :=
    .remove _ (by decide) (.sup _ _ (fun x hx => restarted_bounded x hx) (by decide) .refl)
  exact (reset.trans (lowered_takes _ l allConditions)).trans (followGap_takes _ l)

theorem line_restartSupervision_ne (h : m ≠ l) : (s.restartSupervision l).line m = s.line m := by
  rw [restartSupervision_eq, line_followGap_ne _ _ _ h, line_lowered_ne _ _ _ h, removeRequest_line,
    line_updSup_ne _ _ _ _ h]

theorem cond_restartSupervision {c : Condition} (h : c ≠ .gap) : (s.restartSupervision l).cond l c = false := by
  rw [restartSupervision_eq, cond_followGap_ne _ _ h, cond_lowered]
  cases c <;> simp [allConditions]

end

/-! ### The whole of it (R19) -/

/-- Line `l` at LINE-RESTART, before its story and its claims end: its scheduler cleared, its unit and plane as at
entry to service. -/
def Part.restarting (s : Part) (l : LineNo) : Part :=
  ((s.stop l .lineRestart).updUnit l fun x => x.restarted (s.mark l) s.now).setPlane l .ltrs

section
variable {s : Part} {l m : LineNo} {i : Slot}

theorem lineRestart_eq (ha : s.active l = true) (hu : (s.line l).unit.state ≠ .unused) :
    s.lineRestart l = (((s.restarting l).lineCause l).restartClaims l).restartSupervision l := by
  rw [Part.lineRestart, if_pos (by simp [ha, hu])]
  rfl

theorem restarting_takes (s : Part) (l : LineNo) :
    Act (· ∈ [.unit, .sched, .record, .list, .plane]) s (s.restarting l) :=
  .plane _ _ (by decide) (.unit _ _ (by decide) (stop_act (by decide) (by decide) (by decide) (by decide) _ _ .refl))

theorem line_restarting_ne (h : m ≠ l) : (s.restarting l).line m = s.line m := by
  rw [Part.restarting, line_setPlane_ne _ _ _ _ h, line_updUnit_ne _ _ _ _ h, line_stop_ne _ h]

/-- The part at which LINE-RESTART meets the queue of line `l`. -/
theorem stop_lineRestart : s.stop l .lineRestart = (s.stopping l .lineRestart).abandonQueue l := by
  rw [stop_eq]
  rfl

theorem recordView_restarting : (s.restarting l).recordView i = ((s.stopping l .lineRestart).abandonQueue l).recordView i := by
  rw [Part.restarting, recordView_setPlane, recordView_updUnit, stop_lineRestart]

theorem recordView_restarting_of_not (h : i ∉ (s.line l).sched.queue ∨ s.outRecord i = none) :
    (s.restarting l).recordView i = s.recordView i := by
  rw [recordView_restarting, recordView_abandonQueue]
  · rfl
  · exact h.imp_left fun h => by rw [sched_stopping]; exact h

end

/-! ### The story that a line cause ends (R71) -/

/-- The story of record `r` in slot `i`, received in `s`, as a line cause leaves it in `t` (R71). -/
def StoryDropped (s t : Part) (i : Slot) (r : Record) (x : InRecord) : Prop :=
  (x.state = .opening ∨ x.state = .standby → t.record i = none) ∧
    (x.state = .carrying → (s.requestOf (.record i)).map Request.kind = some FrameKind.offer →
      t.record i = none ∧ t.hasRequest (.record i) = false) ∧
    (x.state = .carrying → (s.requestOf (.record i)).map Request.kind ≠ some FrameKind.offer →
      t.record i = some { r with line := none, body := .inbound { x with state := .withdrawing } } ∧
      t.requestOf (.record i) = some { owner := .record i, cls := r.priority, kind := .withdraw, key := i.val })

section
variable {s t : Part} {l : LineNo} {i : Slot} {r : Record} {x : InRecord}

theorem StoryDropped.of_view {u v : Part} (h : StoryDropped u v i r x) (hu : u.recordView i = s.recordView i)
    (ht : t.recordView i = v.recordView i) : StoryDropped s t i r x := by
  obtain ⟨-, huq, -⟩ := recordView_eq_iff.mp hu
  obtain ⟨hr, hq, -⟩ := recordView_eq_iff.mp ht
  unfold StoryDropped at *
  rw [← huq, hr, hasRequest_congr hq, hq]
  exact h

theorem inRecord_of_inbound (hr : s.record i = some r) (hb : r.body = .inbound x) : s.inRecord i = some x :=
  inRecord_eq hr hb

/-- The tied story ends at a line cause. -/
theorem storyDropped_lineCause (ht : (s.line l).recog.tied = some i) (hr : s.record i = some r)
    (hb : r.body = .inbound x) : StoryDropped s (s.lineCause l) i r x := by
  have dropped : s.storyDropped l = s.dropTied i := by rw [Part.storyDropped, ht]
  have view {u : Part} (hu : s.dropTied i = u) (h : StoryDropped s u i r x) : StoryDropped s (s.lineCause l) i r x :=
    h.of_view rfl (by rw [lineCause_eq, recordView_goOutside, dropped, hu])
  have freed : (s.freeRecord i).record i = none ∧ (s.freeRecord i).hasRequest (.record i) = false :=
    ⟨record_freeRecord_self _ _, hasRequest_freeRecord_self s i (by rw [hr]; rfl)⟩
  by_cases hx : x.state = .carrying
  · have other : ¬(x.state = .opening ∨ x.state = .standby) := by simp [hx]
    by_cases hq : (s.requestOf (.record i)).map Request.kind = some FrameKind.offer
    · exact view (dropTied_of_freed hr hb (.inr (.inr ⟨hx, hq⟩)))
        ⟨fun h => absurd h other, fun _ _ => freed, fun _ h => absurd hq h⟩
    · refine view (dropTied_of_carrying hr hb hx hq) ⟨fun h => absurd h other, fun _ h => absurd h hq,
        fun _ _ => ⟨by rw [addRequest_record, record_setRecord_self], ?_⟩⟩
      exact requestOf_addRequest_self _ { owner := .record i, cls := r.priority, kind := .withdraw, key := i.val }
        (hasRequest_removeRequest_self s (.record i))
  · by_cases ho : x.state = .opening ∨ x.state = .standby
    · exact view (dropTied_of_freed hr hb (ho.imp_right .inl)) ⟨fun _ => freed.1, fun h => absurd h hx, fun h => absurd h hx⟩
    · exact ⟨fun h => absurd h ho, fun h => absurd h hx, fun h => absurd h hx⟩

end

theorem outRecord_eq_none_iff {s : Part} {i : Slot} :
    s.outRecord i = none ↔ ∀ r x, s.record i = some r → r.body ≠ .outbound x := by
  refine ⟨fun h r x hr hb => ?_, fun h => ?_⟩
  · rw [outRecord_eq hr hb] at h
    cases h
  · cases hr : s.record i with
    | none => simp [Part.outRecord, hr]
    | some r =>
      cases hb : r.body with
      | inbound x => exact outRecord_eq_none hr hb
      | outbound x => exact absurd hb (h r x hr)

theorem outRecord_dropTied {s : Part} {i j : Slot} (h : s.outRecord i = none) : (s.dropTied j).outRecord i = none := by
  have freed : (s.freeRecord j).outRecord i = none := by
    by_cases hi : i = j
    · subst hi
      rw [Part.outRecord, record_freeRecord_self]
      rfl
    · rw [outRecord_of_view (recordView_freeRecord_ne s hi), h]
  cases hr : s.record j with
  | none =>
    have still : s.dropTied j = s := by simp only [Part.dropTied, Part.inRecord, hr, Option.bind_none, Option.map_none]
    rw [still, h]
  | some r =>
    cases hb : r.body with
    | outbound x =>
      have still : s.dropTied j = s := by
        simp only [Part.dropTied, Part.inRecord, hr, Option.bind_some, Record.inbound?, hb, Option.map_none]
      rw [still, h]
    | inbound x =>
      by_cases hx : x.state = .carrying
      · by_cases hq : (s.requestOf (.record j)).map Request.kind = some FrameKind.offer
        · rw [dropTied_of_freed hr hb (.inr (.inr ⟨hx, hq⟩)), freed]
        · rw [dropTied_of_carrying hr hb hx hq, addRequest_outRecord]
          by_cases hi : i = j
          · subst hi
            simp [Part.outRecord, Record.outbound?]
          · rw [Part.outRecord, record_setRecord_ne _ _ _ _ hi]
            exact h
      · by_cases ho : x.state = .opening ∨ x.state = .standby
        · rw [dropTied_of_freed hr hb (ho.imp_right .inl), freed]
        · rw [dropTied_of_other hr hb ⟨hx, not_or.mp ho⟩, h]

/-- A line cause makes no record outbound. -/
theorem outRecord_lineCause {s : Part} {l : LineNo} {i : Slot} (h : s.outRecord i = none) :
    (s.lineCause l).outRecord i = none := by
  rw [lineCause_eq, outRecord_of_view (recordView_goOutside _ l i)]
  unfold Part.storyDropped
  split
  · exact h
  · exact outRecord_dropTied h

/-- What a line cause leaves of line `l`: its recognizer OUTSIDE, STALL low, and the tied story ended. -/
def LineEnded (s t : Part) (l : LineNo) : Prop :=
  (t.line l).recog = Recog.blank ∧ t.cond l .stall = false ∧
    ∀ i r x, (s.line l).recog.tied = some i → s.record i = some r → r.body = .inbound x → StoryDropped s t i r x

section
variable {s : Part} {l : LineNo}

/-- A line cause met by a part in which the line's recognizer and its story stand as in `s`. -/
theorem lineEnded_lineCause {u : Part} (hg : (u.line l).recog = (s.line l).recog)
    (hv : ∀ i, s.outRecord i = none → u.recordView i = s.recordView i) : LineEnded s (u.lineCause l) l := by
  refine ⟨recog_lineCause u l, by rw [cond_lineCause, if_pos ⟨rfl, rfl⟩], fun i r x ht hr hb => ?_⟩
  have view := hv i (outRecord_eq_none hr hb)
  exact (storyDropped_lineCause (by rw [hg]; exact ht) ((recordView_eq_iff.mp view).1.trans hr) hb).of_view view rfl

theorem notSending_of_outRecord {i : Slot} (h : s.outRecord i = none) : s.notSending i := by
  intro r x hr hb
  rw [outRecord_eq hr hb] at h
  cases h

theorem notClaiming_of_outRecord {i : Slot} (h : s.outRecord i = none) : s.notClaiming i := by
  intro r x hr hb
  rw [outRecord_eq hr hb] at h
  cases h

theorem recordView_endClaims_of_outRecord {i : Slot} (h : s.outRecord i = none) (k : ClaimEnding) :
    (s.endClaims l k).recordView i = s.recordView i :=
  recordView_endClaims_of_notClaiming (notClaiming_of_outRecord h) k

theorem recordView_opened {i : Slot} (h : s.outRecord i = none) : (s.opened l).recordView i = s.recordView i := by
  have open' : (s.setCond l .lineOpen true).recordView i = s.recordView i := recordView_setCond _ _ _ _ _
  unfold Part.opened
  dsimp only
  split
  · rw [recordView_stop (notSending_of_outRecord ((outRecord_of_view open').trans h)) (by decide), open']
  · rw [recordView_exitLoop, open']
  · rw [recordView_checkerOut, open']
  · exact open'

theorem lineEnded_raiseLineOpen (ha : s.active l = true) (hs : (s.line l).unit.spaceSince.isSome = true)
    (hc : s.cond l .brk = true) (ho : s.cond l .lineOpen = false) : LineEnded s (s.raiseLineOpen l) l := by
  rw [raiseLineOpen_eq ha hs hc ho]
  refine lineEnded_lineCause ?_ fun i hi => ?_
  · rw [endClaims_line, (opened_takes s l).recog_eq (by decide)]
  · rw [recordView_endClaims_of_outRecord ((outRecord_of_view (recordView_opened hi)).trans hi), recordView_opened hi]

theorem leaveFor_takes (s : Part) (l : LineNo) (st : LineState) : Act (· ∈ [.unit, .sup, .list]) s (s.leaveFor l st) := by
  have moves : Act (· ∈ [.unit, .sup, .list]) s (s.moveLine l st) := by
    unfold Part.moveLine Part.clearRuns
    exact .sup _ _ (fun _ h => h) (by decide) (.unit _ _ (by decide) .refl)
  unfold Part.leaveFor
  dsimp only
  split
  · exact setCond_act (by decide) (by decide) _ _ _ moves
  · unfold Part.endTest Part.checkerOut
    refine setCond_act (by decide) (by decide) _ _ _ (.sup _ _ (fun _ h => h) (by decide) ?_)
    exact .sup _ _ (fun _ h => h) (by decide) moves
  · exact moves

theorem lineEnded_lineOut (ha : s.active l = true) (hi : (s.line l).unit.state = .idle) : LineEnded s (s.lineOut l) l := by
  rw [Part.lineOut, if_pos ha, hi]
  dsimp only
  refine lineEnded_lineCause ?_ fun i hi => ?_
  · rw [endClaims_line, (leaveFor_takes _ l _).recog_eq (by decide), (stop_takes s l _).recog_eq (by decide)]
  · have view : ((s.stop l .lineOut).leaveFor l .outOfService).recordView i = s.recordView i := by
      rw [recordView_leaveFor, recordView_stop (notSending_of_outRecord hi) (by decide)]
    rw [recordView_endClaims_of_outRecord ((outRecord_of_view view).trans hi), view]

theorem lineEnded_lineRestart (ha : s.active l = true) (hi : (s.line l).unit.state = .idle) :
    LineEnded s (s.lineRestart l) l := by
  rw [lineRestart_eq ha (by rw [hi]; exact nofun)]
  obtain ⟨hg, -, hstory⟩ := lineEnded_lineCause (s := s) (u := s.restarting l) (l := l)
    ((restarting_takes s l).recog_eq (by decide) l) fun i hi => recordView_restarting_of_not (.inr hi)
  refine ⟨?_, cond_restartSupervision _ l (by decide), fun i r x ht hr hb => ?_⟩
  · rw [(restartSupervision_takes _ l).recog_eq (by decide), restartClaims_line, hg]
  · refine (hstory i r x ht hr hb).of_view rfl ?_
    have keep : ((s.restarting l).lineCause l).outRecord i = none := outRecord_lineCause
      ((outRecord_of_view (recordView_restarting_of_not (.inr (outRecord_eq_none hr hb)))).trans
        (outRecord_eq_none hr hb))
    rw [recordView_restartSupervision, recordView_restartClaims_of_not]
    intro r' x' hr' hb'
    rw [outRecord_eq hr' hb'] at keep
    cases keep

end

/-- Settles O27: each of the commands comes to the line cause with the line's recognizer and its story as they stood. -/
theorem storyEndsWithTheLine : Obligations.StoryEndsWithTheLine := by
  intro l c s h
  have stated {t : Part} (ht : exec c s = .next { s with toPart := t.serveBus }) (he : LineEnded s.toPart t l) :
      ∃ t : Part, exec c s = .next { s with toPart := t.serveBus } ∧ LineEnded s.toPart t l := ⟨t, ht, he⟩
  rcases h with ⟨rfl, ha, hs, hc, ho⟩ | ⟨o, rfl | rfl, ht, hsup, ha, hone, hi⟩
  · exact stated (exec_lineOpenRise l s) (lineEnded_raiseLineOpen ha hs hc ho)
  · refine stated (exec_lineOut ht hsup) ?_
    rw [onLines_single hone]
    exact lineEnded_lineOut (s := s.toPart.heard) ha hi
  · refine stated (exec_lineRestart ht hsup) ?_
    rw [onLines_single hone]
    exact lineEnded_lineRestart (s := s.toPart.heard) ha hi

end Sys2Proof.Machine
end

section
/-! LINE-OUT (R17): what it does to one line, and to the lines an order names. -/

namespace Sys2Proof.Machine

section
variable {s t : Part} {l m : LineNo}

/-! ### A line leaves its state (R16, R192, R194, R198) -/

theorem unit_leaveFor (st : LineState) :
    ((s.leaveFor l st).line l).unit = { (s.line l).unit with state := st, resend := [] } := by
  have moved : ((s.moveLine l st).line l).unit = { (s.line l).unit with state := st, resend := [] } := by
    simp [moveLine_eq]
  unfold Part.leaveFor
  dsimp only
  split
  · rw [unit_line_setCond, moved]
  · rw [endTest_eq, unit_line_setCond, unit_updSup, moved]
  · exact moved

theorem line_leaveFor_ne (st : LineState) (h : m ≠ l) : (s.leaveFor l st).line m = s.line m := by
  have moved : (s.moveLine l st).line m = s.line m := by
    rw [moveLine_eq, line_updSup_ne _ _ _ _ h, line_updUnit_ne _ _ _ _ h]
  unfold Part.leaveFor
  dsimp only
  split
  · rw [line_setCond_ne _ _ _ _ _ h, moved]
  · rw [endTest_eq, line_setCond_ne _ _ _ _ _ h, line_updSup_ne _ _ _ _ h, moved]
  · exact moved

theorem cond_leaveFor_ne (st : LineState) {c : Condition} (hl : c ≠ .loop) (ht : c ≠ .testSync) :
    (s.leaveFor l st).cond l c = s.cond l c := by
  have moved : (s.moveLine l st).cond l c = s.cond l c := by simp [moveLine_eq, Part.cond]
  unfold Part.leaveFor
  dsimp only
  split
  · rw [cond_setCond_ne _ _ _ _ _ hl, moved]
  · rw [endTest_eq, cond_setCond_ne _ _ _ _ _ ht, ← moved]
    simp [Part.cond]
  · exact moved

theorem cond_leaveFor_loop (st : LineState) (h : (s.line l).unit.state = .loop) :
    (s.leaveFor l st).cond l .loop = false := by rw [leaveFor_of_loop _ _ _ h, cond_setCond_self]

theorem cond_leaveFor_test (st : LineState) (h : (s.line l).unit.state = .test) :
    (s.leaveFor l st).cond l .testSync = false := by
  rw [leaveFor_of_test _ _ _ h, endTest_eq, cond_setCond_self]

theorem sup_leaveFor_test (st : LineState) (h : (s.line l).unit.state = .test) :
    ((s.leaveFor l st).line l).sup.chk = (s.line l).sup.chk.out ∧ ((s.leaveFor l st).line l).sup.gen.insert = false := by
  rw [leaveFor_of_test _ _ _ h, endTest_eq]
  refine ⟨?_, ?_⟩
  · rw [chk_sup_setCond]
    simp [moveLine_eq]
  · rw [gen_sup_setCond]
    simp [moveLine_eq]

/-! ### The line unit at a STOP -/

theorem stopUnit_out_of_other {c : StopCause} {x : LineUnit} {o : OutCode} (ho : x.out = some o)
    (hs : o.source ≠ .scheduler) : (s.stopUnit l c x).out = some o := by
  simp [Part.stopUnit, ho, hs]

theorem stopUnit_run {c : StopCause} {x : LineUnit} : (s.stopUnit l c x).spaceSince = x.spaceSince ∧
    (s.stopUnit l c x).markSince = x.markSince ∧ (s.stopUnit l c x).clearSince = x.clearSince := by
  unfold Part.stopUnit
  dsimp only
  repeat' split
  all_goals exact ⟨rfl, rfl, rfl⟩

theorem queue_holdStory (q : Piece) : ((s.holdStory l q).line l).sched.queue = (s.line l).sched.queue := by
  unfold Part.holdStory
  split
  · rfl
  · split
    · rfl
    · split
      · rfl
      · split
        · dsimp only
          rw [sched_updSched]
          rfl
        · rfl

theorem stop_of_hold {c : StopCause} (hc : c = .lineOut ∨ c = .loop ∨ c = .test) :
    s.stop l c = (s.stopping l c).holdStory l (s.line l).sched.piece := by
  rcases hc with rfl | rfl | rfl
  · rw [stop_eq, Part.schedStop, sched_updUnit]; rfl
  · rw [stop_eq, Part.schedStop, sched_updUnit]; rfl
  · rw [stop_eq, Part.schedStop, sched_updUnit]; rfl

theorem queue_stop_of_hold {c : StopCause} (hc : c = .lineOut ∨ c = .loop ∨ c = .test) :
    ((s.stop l c).line l).sched.queue = (s.line l).sched.queue := by
  rw [stop_of_hold hc, queue_holdStory, sched_stopping]

/-! ### LINE-OUT at one line (R17) -/

/-- Line `l` of `s` out of service in `t` (R17). -/
def LeftService (s t : Part) (l : LineNo) : Prop :=
  let u := (s.line l).unit
  (t.line l).unit.state = .outOfService ∧ (t.line l).unit.resend = [] ∧
  (t.line l).unit.awaitReady = true ∧ (t.line l).unit.lastStop = some .lineOut ∧
  (∀ c, u.out = some c → c.source ≠ .scheduler → (t.line l).unit.out = some c) ∧
  (∀ c, u.out = some c → c.source = .scheduler → c.counts = true →
    (t.line l).unit.out = if (s.cfg l).immediate then none else some { c with counts := false }) ∧
  (t.line l).unit.rcv = u.rcv ∧ (t.line l).unit.spaceSince = u.spaceSince ∧
  (t.line l).unit.markSince = u.markSince ∧ (t.line l).unit.clearSince = u.clearSince ∧
  (t.line l).plane = (s.line l).plane ∧ (t.line l).sched.running = false ∧
  (t.line l).sched.piece = .none ∧ (t.line l).sched.queue = (s.line l).sched.queue ∧
  (t.line l).recog = Recog.blank ∧ t.cond l .stall = false ∧
  t.cond l .brk = s.cond l .brk ∧ t.cond l .lineOpen = s.cond l .lineOpen ∧
  (u.state = .loop → t.cond l .loop = false) ∧
  (u.state = .test → t.cond l .testSync = false ∧ (t.line l).sup.chk.inSync = false ∧
    (t.line l).sup.gen.insert = false)

/-- What is said of a line rests on that line and its settings. -/
theorem LeftService.of_lines {u v : Part} (h : LeftService u v l) (hu : u.line l = s.line l) (hc : u.cfg l = s.cfg l)
    (ht : t.line l = v.line l) : LeftService s t l := by
  unfold LeftService at *
  rw [hu, hc] at h
  simp only [Part.cond, ht, hu] at h ⊢
  exact h

theorem lineOut_eq (ha : s.active l = true) (h : (s.line l).unit.state = .idle ∨ (s.line l).unit.state = .loop ∨
    (s.line l).unit.state = .test) :
    s.lineOut l = (((s.stop l .lineOut).leaveFor l .outOfService).endClaims l .withdraw).lineCause l := by
  rw [Part.lineOut, if_pos ha]
  rcases h with h | h | h <;> rw [h]

theorem lineOut_of_other (h : s.active l = false ∨ (s.line l).unit.state = .outOfService ∨
    (s.line l).unit.state = .unused) : s.lineOut l = s := by
  rw [Part.lineOut]
  rcases h with h | h | h
  · rw [if_neg (by rw [h]; exact Bool.false_ne_true)]
  · rw [h]; exact ite_self _
  · rw [h]; exact ite_self _

theorem leftService_lineOut (ha : s.active l = true) (h : (s.line l).unit.state = .idle ∨
    (s.line l).unit.state = .loop ∨ (s.line l).unit.state = .test) : LeftService s (s.lineOut l) l := by
  rw [lineOut_eq ha h]
  obtain ⟨v, hv⟩ : ∃ v, v = s.stop l .lineOut := ⟨_, rfl⟩
  obtain ⟨u, hu⟩ : ∃ u, u = v.leaveFor l .outOfService := ⟨_, rfl⟩
  rw [← hv, ← hu]
  have vunit : (v.line l).unit = s.stopUnit l .lineOut (s.line l).unit := by rw [hv, unit_stop]
  have vstate : (v.line l).unit.state = (s.line l).unit.state := by rw [vunit, stopUnit_state]
  have uunit : (u.line l).unit = { (v.line l).unit with state := .outOfService, resend := [] } := by
    rw [hu, unit_leaveFor]
  have leaves := leaveFor_takes v l .outOfService
  rw [← hu] at leaves
  have stops := stop_takes s l .lineOut
  rw [← hv] at stops
  have usched : (u.line l).sched = (v.line l).sched := leaves.sched_eq (by decide) l
  have stopped : v.senderStopped l := hv ▸ senderStopped_stop s l .lineOut
  have vcond (c : Condition) : v.cond l c = s.cond l c := cond_of_sup (stops.sup_eq (by decide) l)
  have cond {c : Condition} (hc : c ≠ .stall) : ((u.endClaims l .withdraw).lineCause l).cond l c = u.cond l c := by
    rw [cond_lineCause, if_neg fun h => hc h.2, endClaims_cond]
  have sup : (((u.endClaims l .withdraw).lineCause l).line l).sup.gen = (u.line l).sup.gen := by
    rw [lineCause_eq, Part.goOutside, gen_sup_setCond]
    simp
  have run := stopUnit_run (s := s) (l := l) (c := .lineOut) (x := (s.line l).unit)
  unfold LeftService
  simp only [unit_lineCause, sched_lineCause, endClaims_line, uunit, usched]
  refine ⟨trivial, trivial, by rw [vunit]; rfl, by rw [vunit]; rfl, fun c hc hs => ?_, fun c hc hs hn => ?_, ?_, ?_, ?_, ?_, ?_,
    stopped.1, stopped.2, ?_, recog_lineCause _ l, by rw [cond_lineCause, if_pos ⟨rfl, rfl⟩], ?_, ?_, fun hl => ?_,
    fun ht => ?_⟩
  · rw [vunit, stopUnit_out_of_other hc hs]
  · rw [vunit]
    cases hi : (s.cfg l).immediate with
    | true => rw [stopUnit_out_of_immediate hc hs hn hi (by decide)]; rfl
    | false => rw [stopUnit_out_of_character hc hs hn hi (by decide)]; rfl
  · rw [vunit, stopUnit_rcv]
  · rw [vunit, run.1]
  · rw [vunit, run.2.1]
  · rw [vunit, run.2.2]
  · rw [(lineCause_takes _ l).plane_eq (by decide), endClaims_line, leaves.plane_eq (by decide),
      stops.plane_eq (by decide)]
  · rw [hv, queue_stop_of_hold (.inl rfl)]
  · rw [cond (by decide), hu, cond_leaveFor_ne _ (by decide) (by decide), vcond]
  · rw [cond (by decide), hu, cond_leaveFor_ne _ (by decide) (by decide), vcond]
  · rw [cond (by decide), hu, cond_leaveFor_loop _ (vstate.trans hl)]
  · obtain ⟨hchk, hgen⟩ := sup_leaveFor_test (s := v) .outOfService (vstate.trans ht)
    rw [cond (by decide), chk_lineCause, endClaims_line, sup, hu, cond_leaveFor_test _ (vstate.trans ht), hchk, hgen]
    exact ⟨rfl, rfl, rfl⟩

/-- The kinds of LINE-OUT. -/
theorem lineOut_takes (s : Part) (l : LineNo) :
    Act (· ∈ [.unit, .sched, .record, .list, .sup, .recog, .store, .notices]) s (s.lineOut l) := by
  have all : Act (· ∈ [.unit, .sched, .record, .list, .sup, .recog, .store, .notices]) s
      ((((s.stop l .lineOut).leaveFor l .outOfService).endClaims l .withdraw).lineCause l) :=
    ((((stop_takes s l .lineOut).mono (by decide)).trans ((leaveFor_takes _ l .outOfService).mono (by decide))).trans
      ((endClaims_takes _ l .withdraw).mono (by decide))).trans ((lineCause_takes _ l).mono (by decide))
  unfold Part.lineOut
  split
  · split
    · exact all
    · exact all
    · exact all
    · exact .refl
    · exact .refl
  · exact .refl

theorem line_lineOut_ne (h : m ≠ l) : (s.lineOut l).line m = s.line m := by
  have all : ((((s.stop l .lineOut).leaveFor l .outOfService).endClaims l .withdraw).lineCause l).line m = s.line m := by
    rw [line_lineCause_ne _ h, endClaims_line, line_leaveFor_ne _ h, line_stop_ne _ h]
  unfold Part.lineOut
  split
  · split
    · exact all
    · exact all
    · exact all
    · rfl
    · rfl
  · rfl

/-- The story that a line going out was sending (R166). -/
theorem lineOut_holds {i : Slot} {r : Record} {x : OutRecord} {n : Nat} (ha : s.active l = true)
    (hi : (s.line l).unit.state = .idle) (hcur : (s.line l).sched.current = some i) (hr : s.record i = some r)
    (hb : r.body = .outbound x) (hx : x.state = .sending) (hq : (s.line l).sched.piece = .story)
    (hp : (s.line l).sched.position = some n) :
    (s.lineOut l).record i = some { r with body := .outbound { x with
        state := .heldBreak, resume := some (s.lineStart r n) } } ∧
      ((s.lineOut l).line l).sched.current = some i ∧ ((s.lineOut l).line l).sched.position = none := by
  obtain ⟨hrec, hcurrent, hposition, -⟩ := holdStory_stopping hcur hr hb hx hp .lineOut
  rw [← hq, ← stop_of_hold (.inl rfl)] at hrec hcurrent hposition
  have view : ((((s.stop l .lineOut).leaveFor l .outOfService).endClaims l .withdraw).lineCause l).recordView i =
      (s.stop l .lineOut).recordView i := by
    have left := recordView_leaveFor (s.stop l .lineOut) l i .outOfService
    have leftRec := (recordView_eq_iff.mp left).1.trans hrec
    have ended : (((s.stop l .lineOut).leaveFor l .outOfService).endClaims l .withdraw).recordView i =
        (s.stop l .lineOut).recordView i :=
      (recordView_endClaims_of_notClaiming (notClaiming_of_record leftRec rfl nofun) _).trans left
    have outbound := inRecord_eq_none ((recordView_eq_iff.mp ended).1.trans hrec) rfl
    rw [recordView_lineCause outbound, ended]
  rw [lineOut_eq ha (.inl hi), sched_lineCause, endClaims_line, (leaveFor_takes _ l _).sched_eq (by decide)]
  exact ⟨(recordView_eq_iff.mp view).1.trans hrec, hcurrent, hposition⟩

end

/-- Settles O53, by what LINE-OUT does to one line. -/
theorem lineOutTaken : Obligations.LineOutTaken := by
  intro o s ht hs
  obtain ⟨hact, hin, hout⟩ := lines_foldl (nodup_orderLines (o := o)) (fun l s => lineOut_takes s l)
    (fun l s k h => line_lineOut_ne h) (onLines_eq s.toPart.heard o fun l t => t.lineOut l)
  refine ⟨_, exec_lineOut ht hs, fun l hl ha hx => ?_, fun l hl => ?_,
    fun l i r x n hone ha hi hcur hr hb hx hq hp => ?_, hact.mem_eq (by decide), hact.register_eq (by decide),
    hact.trackers_eq (by decide), hact.groups_eq (by decide), hact.rx_eq (by decide)⟩
  · obtain ⟨u, hu, hus, htu⟩ := hin l hl
    exact (leftService_lineOut (by rw [hu.active_eq]; exact ha) (by rw [hus]; exact hx)).of_lines
      (s := s.toPart) hus (hu.cfg_eq l) htu
  · by_cases hm : names o l
    · obtain ⟨u, hu, hus, htu⟩ := hin l hm
      rw [htu, lineOut_of_other, hus]; · rfl
      rw [hu.active_eq, hus]
      exact hl.resolve_left (not_not.mpr hm)
    · exact hout l hm
  · rw [onLines_single hone]
    have start : s.toPart.heard.lineStart r n = s.lineStart r n :=
      lineStart_congr (s := s.toPart) (t := s.toPart.heard) (fun _ _ => rfl) r n
    rw [← start]
    exact lineOut_holds (s := s.toPart.heard) ha hi hcur hr hb hx hq hp

end Sys2Proof.Machine
end

section
/-! TEST-START (R20): what it does to one line, and to the lines an order names. -/

namespace Sys2Proof.Machine

section
variable {s t : Part} {l m : LineNo}

theorem startGenerator_takes (s : Part) (l : LineNo) : Act (· ∈ [.unit, .sup]) s (s.startGenerator l) := by
  unfold Part.startGenerator
  dsimp only
  split
  · exact .unit _ _ (by decide) (.sup _ _ (fun _ h => h) (by decide) .refl)
  · exact .refl

theorem startGenerator_of_free (ht : (s.line l).unit.state = .test) (hm : (s.cfg l).mode.sends = true)
    (ho : (s.line l).unit.out = none) : s.startGenerator l =
      (s.updSup l fun y => { y with gen := (s.line l).sup.gen.make.2 }).beginCode l (s.line l).sup.gen.make.1 .generator := by
  rw [Part.startGenerator, if_pos ⟨ht, hm, ho⟩]

theorem startGenerator_of_silent (hm : (s.cfg l).mode.sends = false) : s.startGenerator l = s := by
  rw [Part.startGenerator, if_neg (by simp [hm])]

/-- The generator begins anew, or nothing does: the rest of the line's unit and its checker stay. -/
theorem line_startGenerator : ((s.startGenerator l).line l).sup.chk = (s.line l).sup.chk ∧
    ∃ c, ((s.startGenerator l).line l).unit = { (s.line l).unit with out := c } := by
  unfold Part.startGenerator
  dsimp only
  split
  · exact ⟨by simp [Part.beginCode], _, by simp [Part.beginCode]; rfl⟩
  · exact ⟨rfl, _, rfl⟩

theorem cond_startGenerator (c : Condition) : (s.startGenerator l).cond l c = s.cond l c := by
  unfold Part.startGenerator
  dsimp only
  split
  · simp [Part.beginCode, Part.cond]
  · rfl

theorem line_startGenerator_ne (h : m ≠ l) : (s.startGenerator l).line m = s.line m := by
  unfold Part.startGenerator
  dsimp only
  split
  · rw [Part.beginCode, line_updUnit_ne _ _ _ _ h, line_updSup_ne _ _ _ _ h]
  · rfl

theorem stopUnit_out_of_none {c : StopCause} {x : LineUnit} (ho : x.out = none) : (s.stopUnit l c x).out = none := by
  simp [Part.stopUnit, ho]

/-- Line `l` put into TEST from where it stands, its STOP given (R20). -/
def Part.enterTest (s : Part) (l : LineNo) : Part := ((s.leaveFor l .test).seedTest l).startGenerator l

theorem testStart_of_idle (ha : s.active l = true) (h : (s.line l).unit.state = .idle) :
    s.testStart l = ((s.stop l .test).endClaims l .withdraw).enterTest l := by
  rw [Part.testStart, if_pos ha, h]
  rfl

theorem testStart_of_out (ha : s.active l = true) (h : (s.line l).unit.state = .outOfService ∨
    (s.line l).unit.state = .loop) : s.testStart l = s.enterTest l := by
  rw [Part.testStart, if_pos ha]
  rcases h with h | h <;> rw [h] <;> rfl

theorem testStart_of_other (h : s.active l = false ∨ (s.line l).unit.state = .test ∨
    (s.line l).unit.state = .unused) : s.testStart l = s := by
  rw [Part.testStart]
  rcases h with h | h | h
  · rw [if_neg (by rw [h]; exact Bool.false_ne_true)]
  · rw [h]; exact ite_self _
  · rw [h]; exact ite_self _

theorem enterTest_takes (s : Part) (l : LineNo) : Act (· ∈ [.unit, .sup, .list]) s (s.enterTest l) := by
  refine Act.trans (t := (s.leaveFor l .test).seedTest l) ?_ ((startGenerator_takes _ l).mono (by decide))
  exact .sup _ _ (fun _ h => h) (by decide) (leaveFor_takes s l .test)

theorem line_enterTest_ne (h : m ≠ l) : (s.enterTest l).line m = s.line m := by
  rw [Part.enterTest, line_startGenerator_ne h, Part.seedTest, line_updSup_ne _ _ _ _ h, line_leaveFor_ne _ h]

/-- The first code of a generator from its seed (R195). -/
theorem seedCode : ({ reg := 511, insert := false } : Generator).make.1 = 0 ∧
    ({ reg := 511, insert := false } : Generator).make.2.insert = false := by decide

/-- Line `l` of `s` in TEST in `t`, its generator and checker from their start (R195, R196). -/
def EntersTest (s t : Part) (l : LineNo) : Prop :=
  (t.line l).unit.state = .test ∧ (t.line l).unit.resend = [] ∧
  (t.line l).unit.rcv = (s.line l).unit.rcv ∧ (t.line l).plane = (s.line l).plane ∧
  (t.line l).recog = (s.line l).recog ∧ (t.line l).sched = (s.line l).sched ∧
  (t.line l).unit.lastStop = (s.line l).unit.lastStop ∧ (t.line l).unit.awaitReady = (s.line l).unit.awaitReady ∧
  ((s.line l).unit.state = .loop → t.cond l .loop = false) ∧
  ((s.cfg l).mode.receives = true → (t.line l).sup.chk.inSync = false ∧ (t.line l).sup.chk.load = 0 ∧
    (t.line l).sup.chk.run = 0) ∧
  ((s.cfg l).mode.sends = true → (s.line l).unit.out = none →
    (t.line l).unit.out = some { code := 0, source := .generator, began := s.now, counts := true } ∧
    (t.line l).sup.gen.insert = false) ∧
  ((s.cfg l).mode.sends = false → (s.line l).unit.out = none → (t.line l).unit.out = none)

theorem entersTest_enterTest : EntersTest s (s.enterTest l) l := by
  obtain ⟨u, hu⟩ : ∃ u, u = (s.leaveFor l .test).seedTest l := ⟨_, rfl⟩
  have uunit : (u.line l).unit = { (s.line l).unit with state := .test, resend := [] } := by
    rw [hu, Part.seedTest, unit_updSup, unit_leaveFor]
  have seeded : (u.line l).sup = { ((s.leaveFor l .test).line l).sup with
      gen := if (s.cfg l).mode.sends then { reg := 511, insert := false } else ((s.leaveFor l .test).line l).sup.gen
      chk := if (s.cfg l).mode.receives then ((s.leaveFor l .test).line l).sup.chk.out
        else ((s.leaveFor l .test).line l).sup.chk } := by
    rw [hu, Part.seedTest, sup_updSup, (leaveFor_takes s l .test).cfg_eq]
  have takes : Act (· ∈ [.unit, .sup, .list]) s u := by
    rw [hu]
    exact (leaveFor_takes s l .test).trans (.sup _ _ (fun _ h => h) (by decide) .refl)
  have eq : s.enterTest l = u.startGenerator l := by rw [Part.enterTest, hu]
  have all := enterTest_takes s l
  obtain ⟨chk, c, unit⟩ := line_startGenerator (s := u) (l := l)
  refine ⟨?_, ?_, ?_, all.plane_eq (by decide) l, all.recog_eq (by decide) l, all.sched_eq (by decide) l, ?_, ?_,
    fun hl => ?_, fun hm => ?_, fun hm ho => ?_, fun hm ho => ?_⟩
  · rw [eq, unit, uunit]
  · rw [eq, unit, uunit]
  · rw [eq, unit, uunit]
  · rw [eq, unit, uunit]
  · rw [eq, unit, uunit]
  · have before : u.cond l .loop = (s.leaveFor l .test).cond l .loop := by rw [Part.cond, seeded]; rfl
    rw [eq, cond_startGenerator, before, cond_leaveFor_loop _ hl]
  · rw [eq, chk, seeded, if_pos hm]
    exact ⟨rfl, rfl, rfl⟩
  · have gen : (u.line l).sup.gen = { reg := 511, insert := false } := by rw [seeded, if_pos hm]
    rw [eq, startGenerator_of_free (by rw [uunit]) (by rw [takes.cfg_eq]; exact hm) (by rw [uunit]; exact ho), gen]
    have now : u.now = s.now := takes.now_eq
    refine ⟨?_, ?_⟩
    · simp only [Part.beginCode, unit_updUnit, updSup_now, now]
      rw [seedCode.1]
    · simp only [Part.beginCode, sup_updUnit, sup_updSup]
      exact seedCode.2
  · rw [eq, startGenerator_of_silent (by rw [takes.cfg_eq]; exact hm), uunit]
    exact ho

end

section
variable {s t : Part} {l : LineNo}

/-- Line `l` of `s` in TEST in `t` at TEST-START, its sender stopped from IDLE (R20). -/
def TestStarted (s t : Part) (l : LineNo) : Prop :=
  (t.line l).unit.state = .test ∧ (t.line l).unit.resend = [] ∧
  (t.line l).unit.rcv = (s.line l).unit.rcv ∧ (t.line l).plane = (s.line l).plane ∧
  (t.line l).recog = (s.line l).recog ∧
  ((s.line l).unit.state = .idle →
    (t.line l).sched.running = false ∧ (t.line l).sched.piece = .none ∧
    (t.line l).unit.lastStop = some .test ∧ (t.line l).unit.awaitReady = true) ∧
  ((s.line l).unit.state ≠ .idle → (t.line l).sched = (s.line l).sched) ∧
  ((s.line l).unit.state = .loop → t.cond l .loop = false) ∧
  ((s.cfg l).mode.receives = true → (t.line l).sup.chk.inSync = false ∧ (t.line l).sup.chk.load = 0 ∧
    (t.line l).sup.chk.run = 0) ∧
  ((s.cfg l).mode.sends = true → (s.line l).unit.out = none →
    (t.line l).unit.out = some { code := 0, source := .generator, began := s.now, counts := true } ∧
    (t.line l).sup.gen.insert = false) ∧
  ((s.cfg l).mode.sends = false → (s.line l).unit.out = none → (t.line l).unit.out = none)

theorem TestStarted.of_lines {u v : Part} (h : TestStarted u v l) (hu : u.line l = s.line l) (hc : u.cfg l = s.cfg l)
    (hn : u.now = s.now) (ht : t.line l = v.line l) : TestStarted s t l := by
  unfold TestStarted at *
  rw [hu, hc, hn] at h
  simp only [Part.cond, ht] at h ⊢
  exact h

theorem testStarted_testStart (ha : s.active l = true) (h : (s.line l).unit.state = .idle ∨
    (s.line l).unit.state = .outOfService ∨ (s.line l).unit.state = .loop) : TestStarted s (s.testStart l) l := by
  by_cases hi : (s.line l).unit.state = .idle
  · obtain ⟨u, hu⟩ : ∃ u, u = (s.stop l .test).endClaims l .withdraw := ⟨_, rfl⟩
    have uline : u.line l = (s.stop l .test).line l := by rw [hu, endClaims_line]
    have uunit : (u.line l).unit = s.stopUnit l .test (s.line l).unit := by rw [uline, unit_stop]
    have stops := stop_takes s l .test
    have takes : Act (· ∈ [.unit, .sched, .record, .list, .store, .notices]) s u := by
      rw [hu]
      exact (stops.mono (by decide)).trans ((endClaims_takes _ l .withdraw).mono (by decide))
    obtain ⟨hstate, hresend, hrcv, hplane, hrecog, hsched, hlast, hawait, -, hchk, hout, hsilent⟩ :=
      entersTest_enterTest (s := u) (l := l)
    have out (ho : (s.line l).unit.out = none) : (u.line l).unit.out = none := by
      rw [uunit, stopUnit_out_of_none ho]
    rw [testStart_of_idle ha hi, ← hu]
    refine ⟨hstate, hresend, by rw [hrcv, uunit, stopUnit_rcv],
      by rw [hplane, uline, stops.plane_eq (by decide)], by rw [hrecog, uline, stops.recog_eq (by decide)],
      fun _ => ⟨?_, ?_, by rw [hlast, uunit]; rfl, by rw [hawait, uunit]; rfl⟩, fun h => absurd hi h,
      fun h => (by rw [hi] at h; cases h), fun hm => hchk (by rw [takes.cfg_eq]; exact hm),
      fun hm ho => ?_, fun hm ho => hsilent (by rw [takes.cfg_eq]; exact hm) (out ho)⟩
    · rw [hsched, uline]; exact (senderStopped_stop s l .test).1
    · rw [hsched, uline]; exact (senderStopped_stop s l .test).2
    · rw [← takes.now_eq]
      exact hout (by rw [takes.cfg_eq]; exact hm) (out ho)
  · obtain ⟨hstate, hresend, hrcv, hplane, hrecog, hsched, -, -, hloop, hchk, hout, hsilent⟩ :=
      entersTest_enterTest (s := s) (l := l)
    rw [testStart_of_out ha (h.resolve_left hi)]
    exact ⟨hstate, hresend, hrcv, hplane, hrecog, fun h => absurd h hi, fun _ => hsched, hloop, hchk, hout, hsilent⟩

theorem testStart_takes (s : Part) (l : LineNo) :
    Act (· ∈ [.unit, .sched, .record, .list, .sup, .store, .notices]) s (s.testStart l) := by
  by_cases h : s.active l = false ∨ (s.line l).unit.state = .test ∨ (s.line l).unit.state = .unused
  · rw [testStart_of_other h]
    exact .refl
  · obtain ⟨ha, ht⟩ := not_or.mp h
    obtain ⟨ht, hu⟩ := not_or.mp ht
    have ha : s.active l = true := by simpa using ha
    by_cases hi : (s.line l).unit.state = .idle
    · rw [testStart_of_idle ha hi]
      exact (((stop_takes s l .test).mono (by decide)).trans ((endClaims_takes _ l .withdraw).mono (by decide))).trans
        ((enterTest_takes _ l).mono (by decide))
    · rw [testStart_of_out ha (by cases hx : (s.line l).unit.state <;> simp_all)]
      exact (enterTest_takes _ l).mono (by decide)

theorem line_testStart_ne {m : LineNo} (hm : m ≠ l) : (s.testStart l).line m = s.line m := by
  by_cases h : s.active l = false ∨ (s.line l).unit.state = .test ∨ (s.line l).unit.state = .unused
  · rw [testStart_of_other h]
  · obtain ⟨ha, ht⟩ := not_or.mp h
    obtain ⟨ht, hu⟩ := not_or.mp ht
    have ha : s.active l = true := by simpa using ha
    by_cases hi : (s.line l).unit.state = .idle
    · rw [testStart_of_idle ha hi, line_enterTest_ne hm, endClaims_line, line_stop_ne _ hm]
    · rw [testStart_of_out ha (by cases hx : (s.line l).unit.state <;> simp_all), line_enterTest_ne hm]

end

/-- Settles O56, by what TEST-START does to one line. -/
theorem testStartTaken : Obligations.TestStartTaken := by
  intro o s ht hs
  obtain ⟨hact, hin, hout⟩ := lines_foldl (nodup_orderLines (o := o)) (fun l s => testStart_takes s l)
    (fun l s k h => line_testStart_ne h) (onLines_eq s.toPart.heard o fun l t => t.testStart l)
  refine ⟨_, exec_testStart ht hs, fun l hl ha hx => ?_, fun l hl => ?_, hact.mem_eq (by decide),
    hact.register_eq (by decide), hact.trackers_eq (by decide), hact.groups_eq (by decide), hact.rx_eq (by decide)⟩
  · obtain ⟨u, hu, hus, htu⟩ := hin l hl
    exact (testStarted_testStart (by rw [hu.active_eq]; exact ha) (by rw [hus]; exact hx)).of_lines
      (s := s.toPart) hus (hu.cfg_eq l) hu.now_eq htu
  · by_cases hm : names o l
    · obtain ⟨u, hu, hus, htu⟩ := hin l hm
      rw [htu, testStart_of_other, hus]; · rfl
      rw [hu.active_eq, hus]
      exact hl.resolve_left (not_not.mpr hm)
    · exact hout l hm

end Sys2Proof.Machine
end

section
/-! LINE-RESTART (R19): what it does to its line, to the records, and to the lines an order names. -/

namespace Sys2Proof.Machine

/-! ### The report request of a line -/

section
variable (s : Part) (l m : LineNo) (i : Slot)

theorem requestOf_report_requestCall (k : FrameKind) :
    (s.requestCall i k).requestOf (.report m) = s.requestOf (.report m) := by
  unfold Part.requestCall
  split
  · split
    · exact requestOf_addRequest_ne _ _ _ nofun
    · rfl
  · rfl

theorem requestOf_report_freeRecord : (s.freeRecord i).requestOf (.report m) = s.requestOf (.report m) :=
  requestOf_freeRecord_ne s nofun nofun

theorem requestOf_report_abandonSlot (n : Option Nat) :
    (s.abandonSlot l n i).requestOf (.report m) = s.requestOf (.report m) := by
  unfold Part.abandonSlot
  split
  · exact requestOf_report_requestCall _ m i _
  · rfl

theorem requestOf_report_endClaim (k : ClaimEnding) :
    (s.endClaim i k).requestOf (.report m) = s.requestOf (.report m) := by
  unfold Part.endClaim
  split
  · rfl
  · split
    · split
      · rfl
      · exact requestOf_report_freeRecord s m i
    · rfl

theorem requestOf_report_restartIntake :
    (s.restartIntake l i).requestOf (.report m) = s.requestOf (.report m) := by
  unfold Part.restartIntake
  split
  · split
    · split
      · exact requestOf_report_requestCall _ m i _
      · rfl
    · rfl
  · rfl

theorem requestOf_report_restartClaims : (s.restartClaims l).requestOf (.report m) = s.requestOf (.report m) := by
  have claims : (s.endClaims l .abort).requestOf (.report m) = s.requestOf (.report m) :=
    invariant_foldl (R := fun t => t.requestOf (.report m) = s.requestOf (.report m)) (fun i t ht => by
      split
      · rw [requestOf_report_endClaim, ht]
      · exact ht) _ rfl
  rw [restartClaims_eq]
  exact invariant_foldl (R := fun t => t.requestOf (.report m) = s.requestOf (.report m))
    (fun i t ht => (requestOf_report_restartIntake t l m i).trans ht) _ claims

theorem requestOf_report_dropTied : (s.dropTied i).requestOf (.report m) = s.requestOf (.report m) := by
  unfold Part.dropTied
  split
  · split
    · exact requestOf_report_freeRecord s m i
    · unfold Part.requestStory
      split
      · refine (requestOf_addRequest_ne _ _ (.report m) (by simp)).trans ?_
        exact requestOf_removeRequest_ne s (.record i) (by simp)
      · exact requestOf_removeRequest_ne s (.record i) (by simp)
  · exact requestOf_report_freeRecord s m i
  · exact requestOf_report_freeRecord s m i
  · rfl

theorem requestOf_report_lineCause : (s.lineCause l).requestOf (.report m) = s.requestOf (.report m) := by
  have dropped : (s.storyDropped l).requestOf (.report m) = s.requestOf (.report m) := by
    unfold Part.storyDropped
    split
    · rfl
    · exact requestOf_report_dropTied s m _
  rw [lineCause_eq, Part.goOutside, requestOf_setCond_ne (o := .report m) _ _ _ _ (by simp)]
  exact dropped

theorem requestOf_report_restarting : (s.restarting l).requestOf (.report m) = s.requestOf (.report m) := by
  have abandoned (t : Part) : (t.abandonQueue l).requestOf (.report m) = t.requestOf (.report m) := by
    rw [abandonQueue_eq]
    exact invariant_foldl (R := fun u => u.requestOf (.report m) = t.requestOf (.report m))
      (fun i u hu => (requestOf_report_abandonSlot u l m i _).trans hu) _ rfl
  have stopped : (s.stop l .lineRestart).requestOf (.report m) = s.requestOf (.report m) := by
    rw [stop_lineRestart, abandoned]; rfl
  have same (t : Part) (f : LineUnit → LineUnit) (p : Plane) :
      ((t.updUnit l f).setPlane l p).requestOf (.report m) = t.requestOf (.report m) := rfl
  rw [Part.restarting, same, stopped]

theorem requestOf_report_lowered (cs : List Condition) :
    (s.lowered l cs).requestOf (.report m) = s.requestOf (.report m) :=
  invariant_foldl (R := fun t => t.requestOf (.report m) = s.requestOf (.report m))
    (fun c t ht => (requestOf_setCond_ne (o := .report m) t l c false (by simp)).trans ht) cs rfl

theorem requestOf_report_restartSupervision : (s.restartSupervision l).requestOf (.report m) =
    if m = l then none else s.requestOf (.report m) := by
  have gap (t : Part) : (t.followGap l).requestOf (.report m) = t.requestOf (.report m) := by
    unfold Part.followGap
    split
    · split
      · exact requestOf_setCond_ne (o := .report m) _ _ _ _ (by simp)
      · rfl
    · rfl
  rw [restartSupervision_eq, gap, requestOf_report_lowered, requestOf_removeRequest]
  simp only [Owner.report.injEq]
  rfl

end

section
variable {s t : Part} {l m : LineNo} {i : Slot}

theorem lineRestart_of_other (h : s.active l = false ∨ (s.line l).unit.state = .unused) : s.lineRestart l = s := by
  rw [Part.lineRestart, if_neg]
  rcases h with h | h <;> simp [h]

theorem requestOf_report_lineRestart (ha : s.active l = true) (hu : (s.line l).unit.state ≠ .unused) :
    (s.lineRestart l).requestOf (.report m) = if m = l then none else s.requestOf (.report m) := by
  rw [lineRestart_eq ha hu, requestOf_report_restartSupervision, requestOf_report_restartClaims,
    requestOf_report_lineCause, requestOf_report_restarting]

theorem requestOf_report_lineRestart_ne (h : m ≠ l) :
    (s.lineRestart l).requestOf (.report m) = s.requestOf (.report m) := by
  by_cases hx : s.active l = false ∨ (s.line l).unit.state = .unused
  · rw [lineRestart_of_other hx]
  · obtain ⟨ha, hu⟩ := not_or.mp hx
    rw [requestOf_report_lineRestart (by simpa using ha) hu, if_neg h]

/-- The kinds of LINE-RESTART. -/
abbrev restartKinds : Kind → Prop :=
  (· ∈ [.unit, .sched, .record, .list, .plane, .recog, .sup, .store, .notices])

theorem lineRestart_takes (s : Part) (l : LineNo) : Act restartKinds s (s.lineRestart l) := by
  by_cases hx : s.active l = false ∨ (s.line l).unit.state = .unused
  · rw [lineRestart_of_other hx]
    exact .refl
  · obtain ⟨ha, hu⟩ := not_or.mp hx
    rw [lineRestart_eq (by simpa using ha) hu]
    exact ((((restarting_takes s l).mono (by decide)).trans ((lineCause_takes _ l).mono (by decide))).trans
      ((restartClaims_takes _ l).mono (by decide))).trans ((restartSupervision_takes _ l).mono (by decide))

theorem line_lineRestart_ne (h : m ≠ l) : (s.lineRestart l).line m = s.line m := by
  by_cases hx : s.active l = false ∨ (s.line l).unit.state = .unused
  · rw [lineRestart_of_other hx]
  · obtain ⟨ha, hu⟩ := not_or.mp hx
    rw [lineRestart_eq (by simpa using ha) hu, line_restartSupervision_ne _ _ _ h, restartClaims_line,
      line_lineCause_ne _ h, line_restarting_ne h]

/-! ### The line (R19, R207) -/

/-- Line `l` of `s` as LINE-RESTART leaves it in `t` (R19, R207). -/
def Restarted (s t : Part) (l : LineNo) : Prop :=
  let u := (s.line l).unit
  (t.line l).unit = { u with
    state := .idle, rcv := if s.mark l then .hunt else .waitMark, sampled := 0, acc := 0, held := false,
    spaceSince := if s.mark l then none else some s.now,
    markSince := if s.mark l then some s.now else none,
    clearSince := none, awaitReady := true, out := none, resend := [], lastStop := some .lineRestart,
    lastReport := if u.out.map OutCode.source = some Source.scheduler then some .cut else u.lastReport } ∧
  (t.line l).plane = .ltrs ∧ (t.line l).recog = Recog.blank ∧ (t.line l).sched = Sched.blank ∧
  (∀ c, c ≠ .gap → t.cond l c = false) ∧
  (t.cond l .gap = true ↔ (s.cfg l).mode.receives = true ∧
    ∃ k, s.tracker (s.cfg l).service = some k ∧ k.gaps ≠ []) ∧
  (t.line l).sup.counter = 0 ∧ (t.line l).sup.snapshot = 0 ∧ (t.line l).sup.unreported = false ∧
  (∀ k : Fin 8, (t.line l).sup.faults.get k = none) ∧ (t.line l).sup.query = false ∧
  (t.line l).sup.clear = false ∧ (t.line l).sup.loopUpRun = 0 ∧ (t.line l).sup.loopDownRun = 0 ∧
  (t.line l).sup.chk.inSync = false ∧ (t.line l).sup.gen.insert = false

theorem Restarted.of_lines {u v : Part} (h : Restarted u v l) (hu : u.line l = s.line l) (hc : u.cfg l = s.cfg l)
    (hn : u.now = s.now) (hm : u.mark l = s.mark l) (hk : u.trackers = s.trackers) (ht : t.line l = v.line l) :
    Restarted s t l := by
  unfold Restarted at *
  rw [hu, hc, hn, hm] at h
  simp only [Part.cond, Part.tracker, ht, hk] at h ⊢
  exact h

theorem unit_restarting : ((s.restarting l).line l).unit =
    (s.stopUnit l .lineRestart (s.line l).unit).restarted (s.mark l) s.now := by
  rw [Part.restarting, unit_setPlane, unit_updUnit, unit_stop]

theorem sched_restarting : ((s.restarting l).line l).sched = Sched.blank := by
  rw [Part.restarting, sched_setPlane, sched_updUnit, stop_lineRestart, abandonQueue_eq, sched_updSched]

theorem cond_followGap_gap (h : s.cond l .gap = false) : (s.followGap l).cond l .gap = true ↔
    (s.cfg l).mode.receives = true ∧ ∃ k, s.tracker (s.cfg l).service = some k ∧ k.gaps ≠ [] := by
  unfold Part.followGap
  split
  · next k hk =>
    split
    · next hm => simp [cond_setCond_self, hm, hk]
    · next hm => simp [h, hm]
  · next hk => simp [h, hk]

theorem sup_restartSupervision : ((s.restartSupervision l).line l).sup.unflagged =
    (s.line l).sup.restarted.unflagged := by
  have lowered (t : Part) (cs : List Condition) : ((t.lowered l cs).line l).sup.unflagged = (t.line l).sup.unflagged :=
    invariant_foldl (R := fun u => (u.line l).sup.unflagged = (t.line l).sup.unflagged)
      (fun c u hu => (sup_line_setCond u l l c false).trans hu) cs rfl
  have gap (t : Part) : ((t.followGap l).line l).sup.unflagged = (t.line l).sup.unflagged := by
    unfold Part.followGap
    split
    · split
      · exact sup_line_setCond _ _ _ _ _
      · rfl
    · rfl
  rw [restartSupervision_eq, gap, lowered, removeRequest_line, sup_updSup]

end

end Sys2Proof.Machine
end

section
/-! LINE-RESTART (R19, R173, R144, R152): its line, its records, and the order. -/

namespace Sys2Proof.Machine

section
variable {s t : Part} {l m : LineNo} {i : Slot} {r : Record} {x : OutRecord}

theorem restarted_lineRestart (ha : s.active l = true) (hu : (s.line l).unit.state ≠ .unused) :
    Restarted s (s.lineRestart l) l := by
  obtain ⟨u, hu'⟩ : ∃ u, u = ((s.restarting l).lineCause l).restartClaims l := ⟨_, rfl⟩
  have eq : s.lineRestart l = u.restartSupervision l := by rw [lineRestart_eq ha hu, hu']
  have supervises := restartSupervision_takes u l
  have takes : Act (· ∈ [.unit, .sched, .record, .list, .plane, .recog, .sup, .store, .notices]) s u := by
    rw [hu']
    exact (((restarting_takes s l).mono (by decide)).trans ((lineCause_takes _ l).mono (by decide))).trans
      ((restartClaims_takes _ l).mono (by decide))
  have sup := sup_restartSupervision (s := u) (l := l)
  have field {α : Type} (f : Supervision → α) (hf : ∀ x, f x.unflagged = f x) :
      f ((u.restartSupervision l).line l).sup = f (u.line l).sup.restarted :=
    (hf _).symm.trans ((congrArg f sup).trans (hf _))
  have lowered : (((u.updSup l Supervision.restarted).removeRequest (.report l)).lowered l allConditions).cond l .gap =
      false := by rw [cond_lowered]; simp [allConditions]
  have unit : ((s.lineRestart l).line l).unit =
      (s.stopUnit l .lineRestart (s.line l).unit).restarted (s.mark l) s.now := by
    rw [eq, supervises.unit_eq (by decide), hu', restartClaims_line, unit_lineCause, unit_restarting]
  refine ⟨?_, ?_, ?_, ?_, fun c hc => ?_, ?_, ?_, ?_, ?_, fun k => ?_, ?_, ?_, ?_, ?_, ?_, ?_⟩
  · rw [unit, Part.stopUnit]
    cases hout : (s.line l).unit.out with
    | none => simp [LineUnit.restarted]
    | some o =>
      by_cases hs : o.source = .scheduler
      · simp [LineUnit.restarted, hs]
      · simp [LineUnit.restarted, hs]
  · rw [eq, supervises.plane_eq (by decide), hu', restartClaims_line, (lineCause_takes _ l).plane_eq (by decide)]
    simp [Part.restarting]
  · rw [eq, supervises.recog_eq (by decide), hu', restartClaims_line, recog_lineCause]
  · rw [eq, supervises.sched_eq (by decide), hu', restartClaims_line, sched_lineCause, sched_restarting]
  · rw [eq, cond_restartSupervision _ _ hc]
  · have reset : Act (· ∈ [.sup, .list]) u
        (((u.updSup l Supervision.restarted).removeRequest (.report l)).lowered l allConditions) :=
      Act.trans (.remove _ (by decide) (.sup _ _ (fun x hx => restarted_bounded x hx) (by decide) .refl))
        (lowered_takes _ l allConditions)
    rw [eq, restartSupervision_eq, cond_followGap_gap lowered, reset.cfg_eq, takes.cfg_eq, Part.tracker,
      reset.trackers_eq (by decide), takes.trackers_eq (by decide)]
    rfl
  all_goals rw [eq]
  · exact (field (·.counter) fun _ => rfl)
  · exact (field (·.snapshot) fun _ => rfl)
  · exact (field (·.unreported) fun _ => rfl)
  · rw [field (·.faults) fun _ => rfl]
    simp [Supervision.restarted]
  · exact (field (·.query) fun _ => rfl)
  · exact (field (·.clear) fun _ => rfl)
  · exact (field (·.loopUpRun) fun _ => rfl)
  · exact (field (·.loopDownRun) fun _ => rfl)
  · exact (field (·.chk.inSync) fun _ => rfl)
  · exact (field (·.gen.insert) fun _ => rfl)

/-! ### A record at LINE-RESTART -/

/-- The outbound record `r` of slot `i` in `s` as LINE-RESTART of line `l` leaves it in `t` (R173, R144, R152). -/
def RecordRestarted (s t : Part) (l : LineNo) (i : Slot) (r : Record) (x : OutRecord) : Prop :=
  (i ∈ (s.line l).sched.queue →
    t.record i = some { r with body := .outbound { x with
      state := .reporting, resume := none, outcome := some .abandoned
      total := match x.state with
        | .sending => (s.line l).sched.position.getD 0
        | .heldBreak | .suspended => (x.resume.map Prod.fst).getD 0
        | _ => 0 } } ∧
    (s.hasRequest (.record i) = false → t.requestOf (.record i) =
      some { owner := .record i, cls := r.priority, kind := .close, key := x.call })) ∧
  (i ∉ (s.line l).sched.queue → r.line = some l → x.state = .intake →
    t.record i = some { r with body := .outbound { x with
      state := .aborting, chars := none, claim := none, intake := none } } ∧
    (s.hasRequest (.record i) = false → t.requestOf (.record i) =
      some { owner := .record i, cls := r.priority, kind := .withdraw, key := x.call })) ∧
  (i ∉ (s.line l).sched.queue → r.line = some l → x.state = .claiming →
    (s.frameUnderWay (.record i) = false → t.record i = none ∧ t.hasRequest (.record i) = false) ∧
    (∀ c, s.frameUnderWay (.record i) = true → x.claim = some c → c.ending ≠ some .free →
      t.record i = some { r with body := .outbound { x with
        claim := some { c with since := none, ending := some .abort } } }))

theorem RecordRestarted.of_view {u v : Part} (h : RecordRestarted u v l i r x) (hl : u.line l = s.line l)
    (hu : u.recordView i = s.recordView i) (ht : t.recordView i = v.recordView i) : RecordRestarted s t l i r x := by
  obtain ⟨-, huq, huw⟩ := recordView_eq_iff.mp hu
  obtain ⟨hr, hq, -⟩ := recordView_eq_iff.mp ht
  unfold RecordRestarted at *
  rw [hl, hasRequest_congr huq, huw] at h
  rw [hr, hasRequest_congr hq, hq]
  exact h

/-- What the last two steps of LINE-RESTART leave of a record's part. -/
theorem recordView_lineRestart (ha : s.active l = true) (hu : (s.line l).unit.state ≠ .unused) :
    (s.lineRestart l).recordView i = (((s.restarting l).lineCause l).restartClaims l).recordView i := by
  rw [lineRestart_eq ha hu, recordView_restartSupervision]

section
variable (hr : s.record i = some r) (hb : r.body = .outbound x)
include hr hb

/-- A story of the queue is abandoned (R173, R172). -/
theorem lineRestart_abandons (ha : s.active l = true) (hu : (s.line l).unit.state ≠ .unused)
    (hn : (s.line l).sched.queue.Nodup) (hi : i ∈ (s.line l).sched.queue) :
    (s.lineRestart l).record i = some { r with body := .outbound { x with
      state := .reporting, resume := none, outcome := some .abandoned
      total := abandonTotal x (s.line l).sched.position } } ∧
    (s.hasRequest (.record i) = false → (s.lineRestart l).requestOf (.record i) =
      some { owner := .record i, cls := r.priority, kind := .close, key := x.call }) := by
  have queue : ((s.stopping l .lineRestart).line l).sched.queue = (s.line l).sched.queue := by rw [sched_stopping]
  have position : ((s.stopping l .lineRestart).line l).sched.position = (s.line l).sched.position := by
    rw [sched_stopping]
  obtain ⟨u, hv, heq⟩ := recordView_abandonQueue_of_mem (s := s.stopping l .lineRestart) (l := l) (i := i)
    (by rw [queue]; exact hn) (by rw [queue]; exact hi)
  obtain ⟨hur, huq, -⟩ := recordView_eq_iff.mp hv
  have hur : u.record i = some r := hur.trans hr
  have slot : u.abandonSlot l ((s.stopping l .lineRestart).line l).sched.position i =
      u.report l i .abandoned (abandonTotal x (s.line l).sched.position) := by
    rw [Part.abandonSlot, outRecord_eq hur hb, position]
  rw [slot, report_eq hur hb] at heq
  have restarting := recordView_restarting (s := s) (l := l) (i := i) |>.trans heq
  obtain ⟨hrec, hreq, -⟩ := recordView_eq_iff.mp restarting
  rw [addRequest_record, updSched_record, record_setRecord_self] at hrec
  have view : (((s.restarting l).lineCause l).restartClaims l).recordView i = (s.restarting l).recordView i := by
    have caused := recordView_lineCause (l := l) (inRecord_eq_none hrec rfl)
    refine (recordView_restartClaims_of_not fun q y hq hy _ => ?_).trans caused
    have hq := (recordView_eq_iff.mp caused).1.symm.trans hq
    rw [hrec] at hq
    cases hq
    cases hy
    exact ⟨nofun, nofun⟩
  obtain ⟨hrec', hreq', -⟩ := recordView_eq_iff.mp ((recordView_lineRestart ha hu).trans view)
  refine ⟨hrec'.trans hrec, fun hq => (hreq'.trans hreq).trans ?_⟩
  exact requestOf_addRequest_self _ { owner := .record i, cls := r.priority, kind := .close, key := x.call }
    ((hasRequest_congr huq).trans hq)

variable (hi : i ∉ (s.line l).sched.queue)
include hi

/-- A record outside the queue comes to the end of the claims and intakes as it stood. -/
theorem recordView_lineCause_restarting : ((s.restarting l).lineCause l).recordView i = s.recordView i := by
  have view := recordView_restarting_of_not (s := s) (l := l) (i := i) (.inl hi)
  rw [recordView_lineCause (inRecord_eq_none ((recordView_eq_iff.mp view).1.trans hr) hb), view]

variable (ha : s.active l = true) (hu : (s.line l).unit.state ≠ .unused) (hl : r.line = some l)
include ha hu hl

theorem lineRestart_aborts (hx : x.state = .intake) :
    (s.lineRestart l).record i = some { r with body := .outbound { x with
      state := .aborting, chars := none, claim := none, intake := none } } ∧
    (s.hasRequest (.record i) = false → (s.lineRestart l).requestOf (.record i) =
      some { owner := .record i, cls := r.priority, kind := .withdraw, key := x.call }) := by
  have caused := recordView_lineCause_restarting hr hb hi
  obtain ⟨u, hv, heq⟩ := recordView_restartClaims (s := (s.restarting l).lineCause l) (l := l) (i := i)
  have claims := recordView_endClaims_of_notClaiming (l := l) (notClaiming_of_record
    ((recordView_eq_iff.mp caused).1.trans hr) hb (by rw [hx]; exact nofun)) .abort
  obtain ⟨hur, huq, -⟩ := recordView_eq_iff.mp (hv.trans (claims.trans caused))
  rw [restartIntake_of_intake (hur.trans hr) hb hl hx] at heq
  obtain ⟨hrec, hreq, -⟩ := recordView_eq_iff.mp ((recordView_lineRestart ha hu).trans heq)
  rw [abortIntake_eq (hur.trans hr) hb] at hrec hreq
  rw [addRequest_record, record_setRecord_self] at hrec
  refine ⟨hrec, fun hq => hreq.trans ?_⟩
  exact requestOf_addRequest_self _ { owner := .record i, cls := r.priority, kind := .withdraw, key := x.call }
    ((hasRequest_congr huq).trans hq)

theorem lineRestart_ends_claim (hx : x.state = .claiming) :
    (s.frameUnderWay (.record i) = false →
      (s.lineRestart l).record i = none ∧ (s.lineRestart l).hasRequest (.record i) = false) ∧
    (∀ c, s.frameUnderWay (.record i) = true → x.claim = some c → c.ending ≠ some .free →
      (s.lineRestart l).record i = some { r with body := .outbound { x with
        claim := some { c with since := none, ending := some .abort } } }) := by
  have caused := recordView_lineCause_restarting hr hb hi
  obtain ⟨u, hv, heq⟩ := recordView_restartClaims (s := (s.restarting l).lineCause l) (l := l) (i := i)
  obtain ⟨w, hw, hclaims⟩ := recordView_endClaims ((s.restarting l).lineCause l) l .abort i
  obtain ⟨hwr, -, hww⟩ := recordView_eq_iff.mp (hw.trans caused)
  have hwr := hwr.trans hr
  rw [if_pos (by rw [hwr]; exact hl)] at hclaims
  have view (h : ∀ q y, (w.endClaim i .abort).record i = some q → q.body = .outbound y → q.line = some l →
      y.state ≠ .intake) : (s.lineRestart l).recordView i = (w.endClaim i .abort).recordView i := by
    have hue := hv.trans hclaims
    rw [recordView_lineRestart ha hu, heq, restartIntake_of_not, hue]
    rw [(recordView_eq_iff.mp hue).1]
    exact h
  refine ⟨fun hidle => ?_, fun c hc hm he => ?_⟩
  · rw [endClaim_of_idle hwr hb hx (hww.trans hidle)] at view
    obtain ⟨hrec, hreq, -⟩ := recordView_eq_iff.mp (view fun q y hq => by
      rw [record_freeRecord_self] at hq; cases hq)
    exact ⟨hrec.trans (record_freeRecord_self w i),
      (hasRequest_congr hreq).trans (hasRequest_freeRecord_self w i (by rw [hwr]; rfl))⟩
  · rw [endClaim_of_under_way hwr hb hx hm (hww.trans hc)] at view
    obtain ⟨hrec, -, -⟩ := recordView_eq_iff.mp (view fun q y hq hy _ => by
      rw [record_setRecord_self] at hq
      cases hq
      cases hy
      rw [hx]
      exact nofun)
    rw [hrec, record_setRecord_self]
    cases hend : c.ending with
    | none => rfl
    | some e =>
      cases e with
      | withdraw => rfl
      | abort => rfl
      | free => exact absurd hend he

end

theorem recordRestarted_lineRestart (hr : s.record i = some r) (hb : r.body = .outbound x) (ha : s.active l = true)
    (hu : (s.line l).unit.state ≠ .unused) (hn : (s.line l).sched.queue.Nodup) :
    RecordRestarted s (s.lineRestart l) l i r x := by
  refine ⟨fun hi => ?_, fun hi hl hx => lineRestart_aborts hr hb hi ha hu hl hx,
    fun hi hl hx => lineRestart_ends_claim hr hb hi ha hu hl hx⟩
  have h := lineRestart_abandons hr hb ha hu hn hi
  exact h

end

/-! ### A record of one line at LINE-RESTART of several -/

/-- Slot `i` holds nothing but an outbound record of line `l`. -/
def Part.outboundOf (s : Part) (l : LineNo) (i : Slot) : Prop :=
  ∀ q, s.record i = some q → q.line = some l ∧ ∃ y, q.body = .outbound y

section
variable {s t : Part} {l m : LineNo} {i j : Slot}

theorem outboundOf_of_record (h : s.outboundOf l i) (ht : t.record i = s.record i) : t.outboundOf l i := by
  rw [Part.outboundOf, ht]
  exact h

theorem outboundOf_freeRecord (h : s.outboundOf l i) : (s.freeRecord j).outboundOf l i := by
  by_cases hi : i = j
  · subst hi
    intro q hq
    rw [record_freeRecord_self] at hq
    cases hq
  · exact outboundOf_of_record h (record_freeRecord_ne s j hi)

theorem outboundOf_updOut (f : OutRecord → OutRecord) (h : s.outboundOf l i) : (s.updOut j f).outboundOf l i := by
  by_cases hi : i = j
  · subst hi
    cases hr : s.record i with
    | none =>
      intro q hq
      rw [Part.updOut, record_updRecord_self, hr] at hq
      cases hq
    | some r =>
      obtain ⟨hl, y, hy⟩ := h r hr
      rw [updOut_eq hr hy]
      intro q hq
      rw [record_setRecord_self] at hq
      cases hq
      exact ⟨hl, _, rfl⟩
  · exact outboundOf_of_record h (record_updRecord_ne _ _ _ _ hi)

theorem outboundOf_requestCall (k : FrameKind) (h : s.outboundOf l i) : (s.requestCall j k).outboundOf l i :=
  outboundOf_of_record h ((requestCall_act (K := (· ∈ [.list])) (by decide) j k .refl).record_eq (by decide) (by decide) i)

theorem outboundOf_abandonSlot (n : Option Nat) (h : s.outboundOf l i) : (s.abandonSlot m n j).outboundOf l i := by
  unfold Part.abandonSlot
  split
  · exact outboundOf_requestCall _ (outboundOf_of_record (outboundOf_updOut _ h) rfl)
  · exact h

theorem outboundOf_endClaim (k : ClaimEnding) (h : s.outboundOf l i) : (s.endClaim j k).outboundOf l i := by
  unfold Part.endClaim
  split
  · exact h
  · split
    · split
      · exact outboundOf_updOut _ h
      · exact outboundOf_freeRecord h
    · exact h

theorem outboundOf_restartIntake (h : s.outboundOf l i) : (s.restartIntake m j).outboundOf l i := by
  unfold Part.restartIntake
  split
  · split
    · split
      · exact outboundOf_requestCall _ (outboundOf_updOut _ h)
      · exact h
    · exact h
  · exact h

theorem inRecord_of_outboundOf (h : s.outboundOf l i) : s.inRecord i = none := by
  cases hr : s.record i with
  | none => simp [Part.inRecord, hr]
  | some r =>
    obtain ⟨-, y, hy⟩ := h r hr
    exact inRecord_eq_none hr hy

theorem outboundOf_lineRestart (h : s.outboundOf l i) : (s.lineRestart m).outboundOf l i := by
  by_cases hx : s.active m = false ∨ (s.line m).unit.state = .unused
  · rw [lineRestart_of_other hx]
    exact h
  · obtain ⟨ha, hu⟩ := not_or.mp hx
    have stopped : (s.stopping m .lineRestart).outboundOf l i := h
    have abandoned : ((s.stopping m .lineRestart).abandonQueue m).outboundOf l i := by
      rw [abandonQueue_eq]
      exact outboundOf_of_record (invariant_foldl (R := fun t => t.outboundOf l i)
        (fun j t ht => outboundOf_abandonSlot _ ht) _ stopped) rfl
    have restarting : (s.restarting m).outboundOf l i :=
      outboundOf_of_record abandoned (recordView_eq_iff.mp recordView_restarting).1
    have caused : ((s.restarting m).lineCause m).outboundOf l i :=
      outboundOf_of_record restarting (recordView_eq_iff.mp (recordView_lineCause (inRecord_of_outboundOf restarting))).1
    have claims : (((s.restarting m).lineCause m).endClaims m .abort).outboundOf l i :=
      invariant_foldl (R := fun t => t.outboundOf l i) (fun j t ht => by
        split
        · exact outboundOf_endClaim _ ht
        · exact ht) _ caused
    have intakes : (((s.restarting m).lineCause m).restartClaims m).outboundOf l i := by
      rw [restartClaims_eq]
      exact invariant_foldl (R := fun t => t.outboundOf l i) (fun j t ht => outboundOf_restartIntake ht) _ claims
    exact outboundOf_of_record intakes (recordView_eq_iff.mp (recordView_lineRestart (by simpa using ha) hu)).1

/-- LINE-RESTART of another line leaves alone a record that is none of its queue's and none of its claims. -/
theorem recordView_lineRestart_ne (hm : m ≠ l) (hi : i ∉ (s.line m).sched.queue)
    (h : s.outboundOf l i) :
    (s.lineRestart m).recordView i = s.recordView i := by
  by_cases hx : s.active m = false ∨ (s.line m).unit.state = .unused
  · rw [lineRestart_of_other hx]
  · obtain ⟨ha, hu⟩ := not_or.mp hx
    have view := recordView_restarting_of_not (s := s) (l := m) (i := i) (.inl hi)
    have record := (recordView_eq_iff.mp view).1
    have none : (s.restarting m).inRecord i = none := inRecord_of_outboundOf (outboundOf_of_record h record)
    have caused := (recordView_lineCause (l := m) none).trans view
    rw [recordView_lineRestart (by simpa using ha) hu]
    refine (recordView_restartClaims_of_not fun q y hq _ hl => ?_).trans caused
    rw [(recordView_eq_iff.mp caused).1] at hq
    rw [(h q hq).1] at hl
    exact absurd (Option.some.inj hl).symm hm

/-- LINE-RESTART of other lines leaves alone the records of line `l` that stand in none of their queues. -/
theorem lineRestarts_ne (ms : List LineNo) (hms : ∀ k ∈ ms, k ≠ l) (hq : ∀ m, m ≠ l → i ∉ (s.line m).sched.queue)
    (h : s.outboundOf l i) : let t := ms.foldl (fun s l => s.lineRestart l) s
      t.recordView i = s.recordView i ∧ t.line l = s.line l ∧ (∀ m, m ≠ l → i ∉ (t.line m).sched.queue) ∧
        t.outboundOf l i := by
  induction ms generalizing s with
  | nil => exact ⟨rfl, rfl, hq, h⟩
  | cons k ms ih =>
    have hk := hms k (by simp)
    have step := recordView_lineRestart_ne hk (hq k hk) h
    have queues (m : LineNo) (hm : m ≠ l) : i ∉ ((s.lineRestart k).line m).sched.queue := by
      by_cases hkm : m = k
      · subst hkm
        by_cases hx : s.active m = false ∨ (s.line m).unit.state = .unused
        · rw [lineRestart_of_other hx]
          exact hq m hm
        · obtain ⟨ha, hx⟩ := not_or.mp hx
          rw [(restarted_lineRestart (by simpa using ha) hx).2.2.2.1]
          exact List.not_mem_nil
      · rw [line_lineRestart_ne hkm]
        exact hq m hm
    obtain ⟨hv, hl, hqs, ho⟩ := ih (fun m hm => hms m (by simp [hm])) queues (outboundOf_lineRestart h)
    exact ⟨hv.trans step, hl.trans (line_lineRestart_ne hk.symm), hqs, ho⟩

end

/-- LINE-RESTART of several lines at a record of line `l` alone. -/
theorem recordRestarted_of_lines {s t : Part} {l : LineNo} {ls : List LineNo} {i : Slot} {r : Record} {x : OutRecord}
    (hls : ls.Nodup) (hl : l ∈ ls) (ht : t = ls.foldl (fun s l => s.lineRestart l) s) (ha : s.active l = true)
    (hu : (s.line l).unit.state ≠ .unused) (hr : s.record i = some r) (hb : r.body = .outbound x)
    (hn : (s.line l).sched.queue.Nodup) (hline : r.line = some l) (hq : ∀ m, m ≠ l → i ∉ (s.line m).sched.queue) :
    RecordRestarted s t l i r x := by
  obtain ⟨before, after, rfl⟩ := List.append_of_mem hl
  rw [List.nodup_append, List.nodup_cons] at hls
  obtain ⟨-, ⟨hafter, -⟩, hdis⟩ := hls
  have outbound : s.outboundOf l i := by
    intro q h
    obtain rfl : r = q := Option.some.inj (hr.symm.trans h)
    exact ⟨hline, x, hb⟩
  obtain ⟨hview, hsame, hqs, ho⟩ := lineRestarts_ne before (fun k hk h => hdis k hk l (by simp) h) hq outbound
  have active : (before.foldl (fun s l => s.lineRestart l) s).active l = s.active l :=
    (invariant_foldl (R := Act restartKinds s) (fun k t ht => ht.trans (lineRestart_takes t k)) before .refl).active_eq l
  rw [List.foldl_append, List.foldl_cons] at ht
  generalize before.foldl (fun s l => s.lineRestart l) s = v at hview hsame hqs ho active ht
  obtain ⟨hview', -⟩ := lineRestarts_ne (s := v.lineRestart l) (l := l) (i := i) after
    (fun k hk h => hafter (h ▸ hk)) (fun m hm => by rw [line_lineRestart_ne hm]; exact hqs m hm)
    (outboundOf_lineRestart ho)
  have restarted := recordRestarted_lineRestart ((recordView_eq_iff.mp hview).1.trans hr) hb (active.trans ha)
    (by rw [hsame]; exact hu) (by rw [hsame]; exact hn)
  exact restarted.of_view hsame hview (by rw [ht]; exact hview')

/-- The report request of a line that restarts is off the list (R207). -/
theorem requestOf_report_lineRestarts {s : Part} {l : LineNo} {ls : List LineNo} (hls : ls.Nodup) (hl : l ∈ ls)
    (ha : s.active l = true) (hu : (s.line l).unit.state ≠ .unused) :
    (ls.foldl (fun s l => s.lineRestart l) s).requestOf (.report l) = none := by
  obtain ⟨u, hact, hview, heq⟩ := view_foldl_of_mem (R := Act restartKinds s)
    (p := fun t => (t.requestOf (.report l), t.line l)) (k := l) (f := fun l s => s.lineRestart l)
    (fun k t hk => Prod.ext (requestOf_report_lineRestart_ne (Ne.symm hk)) (line_lineRestart_ne (Ne.symm hk)))
    (fun k t ht => ht.trans (lineRestart_takes t k)) hls hl .refl
  have line : u.line l = s.line l := congrArg Prod.snd hview
  refine (congrArg Prod.fst heq).trans ?_
  exact (requestOf_report_lineRestart (by rw [hact.active_eq, ha]) (by rw [line]; exact hu)).trans (if_pos rfl)

/-- Settles O55, by what LINE-RESTART does to one line and to one record. -/
theorem lineRestartTaken : Obligations.LineRestartTaken := by
  intro o s ht hs
  have lines := onLines_eq s.toPart.heard o fun l t => t.lineRestart l
  obtain ⟨hact, hin, hout⟩ := lines_foldl (nodup_orderLines (o := o)) (fun l s => lineRestart_takes s l)
    (fun l s k h => line_lineRestart_ne h) lines
  refine ⟨_, exec_lineRestart ht hs, fun l hl ha hx => ?_, fun l hl => ?_, fun l i r x hl ha hx hr hb hn hown => ?_,
    hact.mem_eq (by decide), hact.register_eq (by decide), hact.trackers_eq (by decide), hact.groups_eq (by decide),
    hact.rx_eq (by decide)⟩
  · obtain ⟨u, hu, hus, htu⟩ := hin l hl
    have restarted := (restarted_lineRestart (l := l) (s := u) (by rw [hu.active_eq]; exact ha)
      (by rw [hus]; exact hx)).of_lines (s := s.toPart) hus (hu.cfg_eq l) hu.now_eq
      (by rw [Part.mark, hu.rx_eq (by decide)]; rfl) (hu.trackers_eq (by decide)) htu
    obtain ⟨hunit, hplane, hrecog, hsched, hconds, hgap, hcounter, hsnapshot, hunreported, hfaults, hquery, hclear,
      hup, hdown, hchk, hgen⟩ := restarted
    have report : (s.toPart.heard.onLines o fun l t => t.lineRestart l).hasRequest (.report l) = false := by
      rw [Part.hasRequest, lines]
      exact congrArg Option.isSome (requestOf_report_lineRestarts (s := s.toPart.heard) nodup_orderLines hl ha hx)
    exact ⟨hunit, hplane, hrecog, hsched, hconds, hgap, hcounter, hsnapshot, hunreported, hfaults, hquery, hclear,
      hup, hdown, hchk, hgen, report⟩
  · by_cases hm : names o l
    · obtain ⟨u, hu, hus, htu⟩ := hin l hm
      rw [htu, lineRestart_of_other, hus]; · rfl
      rw [hu.active_eq, hus]
      exact hl.resolve_left (not_not.mpr hm)
    · exact hout l hm
  · rcases hown with hone | ⟨hline, hq⟩
    · rw [onLines_single hone]
      exact (recordRestarted_lineRestart (s := s.toPart.heard) hr hb ha hx hn).of_view rfl (recordView_heard _ _) rfl
    · exact (recordRestarted_of_lines (s := s.toPart.heard) nodup_orderLines hl lines ha hx hr hb hn hline hq).of_view
        rfl (recordView_heard _ _) rfl

end Sys2Proof.Machine
end

section
/-! The close of a story (03.8), and the stall timer (03.7). -/

namespace Sys2Proof.Machine

/-! ### What an inbound record asks for next (R64, R66) -/

section
variable {s : Part} {i : Slot} {r : Record} {x : InRecord} (hr : s.record i = some r) (hb : r.body = .inbound x)
include hr hb

theorem requestNext_of_carrying (hx : x.state = .carrying) (hn : s.hasRequest (.record i) = false) : s.requestNext i =
    if !x.quiet && s.textDue r x then s.requestStory i .text
    else if r.closed && (x.quiet || x.cursor == r.count) then s.requestStory i .close else s := by
  simp only [Part.requestNext, hn, hr, hb, hx]
  rfl

theorem requestNext_of_not_sending (hc : x.state ≠ .carrying) (hr' : x.state ≠ .rerunning) : s.requestNext i = s := by
  unfold Part.requestNext
  rw [hr]
  dsimp only
  rw [hb]
  dsimp only
  split
  · rfl
  · split
    · next h => exact absurd h hc
    · next h => exact absurd h hr'
    · rfl

end

section
variable (s : Part) (i : Slot)

theorem requestNext_of_hasRequest (h : s.hasRequest (.record i) = true) : s.requestNext i = s := if_pos h

theorem requestNext_lists : Act (· ∈ [.list]) s (s.requestNext i) := by
  unfold Part.requestNext
  repeat' split
  all_goals first | exact .refl | exact requestStory_act (by decide) _ _ .refl

@[simp] theorem requestNext_line (m : LineNo) : (s.requestNext i).line m = s.line m := by
  simp [Part.line, (requestNext_lists s i).lines_eq (by decide) (by decide) (by decide) (by decide) (by decide)]

@[simp] theorem requestNext_records : (s.requestNext i).records = s.records :=
  (requestNext_lists s i).records_eq (by decide) (by decide)

@[simp] theorem requestNext_record (j : Slot) : (s.requestNext i).record j = s.record j := by simp [Part.record]

end

/-- A closed carried story asks for its CLOSE once its characters are sent, or if it is quiet, and for a TEXT
until then (R64, R66). -/
theorem requestNext_of_closed {s : Part} {i : Slot} {r : Record} {x : InRecord} (hr : s.record i = some r)
    (hb : r.body = .inbound x) (hx : x.state = .carrying) (hl : r.line = none) (hc : x.cursor ≤ r.count)
    (hn : s.hasRequest (.record i) = false) : s.requestNext i =
    s.requestStory i (if x.quiet = false ∧ x.cursor < r.count then .text else .close) := by
  have closed : r.closed = true := by rw [Record.closed, hl]; rfl
  have due : s.textDue r x = decide (x.cursor < r.count) := by
    simp only [Part.textDue, closed, Bool.or_true, Bool.true_or, Bool.and_true]
    exact decide_eq_decide.mpr (by omega)
  rw [requestNext_of_carrying hr hb hx hn, closed, due]
  cases hq : x.quiet
  · by_cases h : x.cursor < r.count
    · simp [h]
    · have : x.cursor = r.count := by omega
      simp [this]
  · simp

/-! ### The close of a story (R57, R70) -/

/-- The inbound record of a story that is closed in CARRYING (R57, R124). -/
def Record.ended (r : Record) (x : InRecord) (tr : Bool) : Record :=
  { r with
    line := none
    body := .inbound { x with truncated := x.truncated || tr, cursor := if r.count < x.cursor then r.count else x.cursor } }

/-- The inbound record of a story that is closed in STANDBY (R57). -/
def Record.completed (r : Record) (x : InRecord) (tr : Bool) : Record :=
  { r with line := none, body := .inbound { x with truncated := x.truncated || tr, state := .standbyComplete } }

/-- The fault that the close of a story of slot `i` records on line `l`: TRUNCATED, or HEADING for one that is
still in OPENING. -/
def Part.endNoted (s : Part) (l : LineNo) (i : Slot) (x : InRecord) (tr : Bool) : Part :=
  if tr then s.fault l .truncated (s.storyFields l i x.serial)
  else if x.state = .opening then s.fault l .heading (s.storyFields l i none) else s

/-- The story of slot `i` closed for line `l`, its tie apart. -/
def Part.endStory (s : Part) (l : LineNo) (i : Slot) (tr : Bool) : Part :=
  let serial := (s.inRecord i).bind InRecord.serial
  let t := if tr then
      (s.updIn i fun x => { x with truncated := true }).fault l .truncated (s.storyFields l i serial)
    else s
  match (s.inRecord i).map InRecord.state with
    | some .opening =>
      (if tr then t else t.fault l .heading (s.storyFields l i none)).freeRecord i
    | some .carrying =>
      ((t.updRecord i fun r => { r with line := none }).updRecord i lowerCursor).requestNext i
    | some .standby =>
      (t.updRecord i fun r => { r with line := none }).updIn i fun x => { x with state := .standbyComplete }
    | _ => t

/-- A slot written with what it holds. -/
theorem setRecord_self {s : Part} {i : Slot} {r : Option Record} (h : s.record i = r) : s.setRecord i r = s := by
  have same : s.records.set i r = s.records := by
    apply Vector.ext
    intro j hj
    rw [Vector.getElem_set]
    split
    · next e => subst e; exact h.symm
    · rfl
  rw [Part.setRecord, same]

section
variable (s : Part) (l : LineNo) (i : Slot) (tr : Bool)

theorem closeStory_of_tied (h : (s.line l).recog.tied = some i) : s.closeStory l tr =
    (s.endStory l i tr).updRecog l fun r => { r with tied := none } := by
  unfold Part.closeStory
  rw [h]
  rfl

theorem closeStory_of_untied (h : (s.line l).recog.tied = none) : s.closeStory l tr = s := by
  unfold Part.closeStory
  rw [h]

/-- The kinds of change that a story's close makes. -/
abbrev endKinds : Kind → Prop := (· ∈ [.sup, .list, .record, .store, .notices])

theorem endStory_takes : Act endKinds s (s.endStory l i tr) := by
  have hs : endKinds .sup := by decide
  have hl : endKinds .list := by decide
  have hr : endKinds .record := by decide
  have hst : endKinds .store := by decide
  have hn : endKinds .notices := by decide
  unfold Part.endStory
  extract_lets serial t
  have noted : Act endKinds s t := by
    dsimp only [t]
    split
    · exact fault_act hs _ _ _ (updIn_act hr _ _ .refl)
    · exact .refl
  clear_value t
  split
  · refine freeRecord_act hst hl hn _ ?_
    split
    · exact noted
    · exact fault_act hs _ _ _ noted
  · have lowered : Act endKinds s ((t.updRecord i fun r => { r with line := none }).updRecord i lowerCursor) :=
      .record i lowerCursor (fun r => Record.mapIn_blocks _ r) hr (.record _ _ (fun _ => ⟨rfl, rfl⟩) hr noted)
    exact lowered.trans ((requestNext_lists _ i).mono (by decide))
  · exact updIn_act hr _ _ (.record _ _ (fun _ => ⟨rfl, rfl⟩) hr noted)
  · exact noted

@[simp] theorem endNoted_record (x : InRecord) (j : Slot) : (s.endNoted l i x tr).record j = s.record j := by
  unfold Part.endNoted; split <;> [rfl; (split <;> rfl)]

@[simp] theorem endNoted_free (x : InRecord) : (s.endNoted l i x tr).free = s.free := by
  unfold Part.endNoted; split <;> [rfl; (split <;> rfl)]

@[simp] theorem endNoted_recordView (x : InRecord) (j : Slot) : (s.endNoted l i x tr).recordView j = s.recordView j := by
  unfold Part.endNoted; split <;> [rfl; (split <;> rfl)]

@[simp] theorem endNoted_hasRequest (x : InRecord) (o : Owner) :
    (s.endNoted l i x tr).hasRequest o = s.hasRequest o := by
  unfold Part.endNoted; split <;> [rfl; (split <;> rfl)]

theorem endNoted_line_ne (x : InRecord) {m : LineNo} (h : m ≠ l) : (s.endNoted l i x tr).line m = s.line m := by
  unfold Part.endNoted
  split
  · exact line_fault_ne h
  · split
    · exact line_fault_ne h
    · rfl

end

section
variable {s : Part} {l : LineNo} {i : Slot} {tr : Bool} {r : Record} {x : InRecord}

theorem faults_endNoted_of_not_truncated : ((s.endNoted l i x false).line l).sup.faults.get FaultKind.truncated.idx =
    (s.line l).sup.faults.get FaultKind.truncated.idx := by
  simp only [Part.endNoted, Bool.false_eq_true, if_false]
  split
  · exact faults_fault_ne (by decide)
  · rfl

theorem faultRecorded_truncated : FaultRecorded s (s.endNoted l i x true) l .truncated (s.storyFields l i x.serial) :=
  faultRecorded_fault

theorem faults_endNoted_heading : ((s.endNoted l i x true).line l).sup.faults.get FaultKind.heading.idx =
    (s.line l).sup.faults.get FaultKind.heading.idx := faults_fault_ne (by decide)

theorem faultRecorded_heading (hx : x.state = .opening) :
    FaultRecorded s (s.endNoted l i x false) l .heading (s.storyFields l i none) := by
  have : s.endNoted l i x false = s.fault l .heading (s.storyFields l i none) := if_pos hx
  rw [this]
  exact faultRecorded_fault

end

section
variable {s : Part} {l : LineNo} {i : Slot} {tr : Bool} {r : Record} {x : InRecord}
variable (hr : s.record i = some r) (hb : r.body = .inbound x)
include hr hb

theorem inRecord_state {q : InState} (hx : x.state = q) : (s.inRecord i).map InRecord.state = some q := by
  rw [inRecord_eq hr hb, ← hx]; rfl

theorem inRecord_serial : (s.inRecord i).bind InRecord.serial = x.serial := by rw [inRecord_eq hr hb]; rfl

/-- The record and the fault of a close, before what follows from its state. -/
theorem endStory_noted (hx : x.state ≠ .opening) :
    (if tr then (s.updIn i fun x => { x with truncated := true }).fault l .truncated (s.storyFields l i x.serial) else s) =
      (s.endNoted l i x tr).setRecord i (some { r with body := .inbound { x with truncated := x.truncated || tr } }) := by
  have same : r = { r with body := .inbound x } := by rw [← hb]
  cases tr
  · simp only [Part.endNoted, Bool.false_eq_true, if_false, if_neg hx, Bool.or_false]
    rw [← same]
    exact (setRecord_self hr).symm
  · simp only [Part.endNoted, if_true, updIn_eq hr hb, setRecord_fault, Bool.or_true]

theorem endStory_opening (hx : x.state = .opening) : ∃ q : Record, q.blocks = r.blocks ∧ q.reservation = [] ∧
    s.endStory l i tr = ((s.endNoted l i x tr).setRecord i (some q)).freeRecord i := by
  have res : r.reservation = [] := by rw [Record.reservation, hb]
  simp only [Part.endStory, inRecord_state hr hb hx, inRecord_serial hr hb]
  cases tr
  · refine ⟨r, rfl, res, ?_⟩
    have kept : s.fault l .heading (s.storyFields l i none) =
        (s.endNoted l i x false).setRecord i (some r) := by
      rw [show s.endNoted l i x false = s.fault l .heading (s.storyFields l i none) from if_pos hx]
      exact (setRecord_self (s := s.fault l .heading (s.storyFields l i none)) hr).symm
    rw [← kept]
    rfl
  · refine ⟨{ r with body := .inbound { x with truncated := true } }, rfl, rfl, ?_⟩
    simp only [if_true, updIn_eq hr hb, setRecord_fault]
    rfl

theorem endStory_carrying (hx : x.state = .carrying) : s.endStory l i tr =
    ((s.endNoted l i x tr).setRecord i (some (r.ended x tr))).requestNext i := by
  have noted := endStory_noted (l := l) (tr := tr) hr hb (by rw [hx]; decide)
  have lowered : lowerCursor { r with line := none, body := .inbound { x with truncated := x.truncated || tr } } =
      r.ended x tr := by
    simp only [lowerCursor, Record.mapIn, Record.closed, Record.ended, hx]
    split
    · next h => rw [if_pos h.2.2]
    · next h => rw [if_neg fun hlt => h ⟨trivial, by decide, hlt⟩]
  simp only [Part.endStory, inRecord_state hr hb hx, inRecord_serial hr hb, noted]
  rw [updRecord_eq (record_setRecord_self _ _ _), setRecord_setRecord, updRecord_eq (record_setRecord_self _ _ _),
    setRecord_setRecord, lowered]

theorem endStory_standby (hx : x.state = .standby) : s.endStory l i tr =
    (s.endNoted l i x tr).setRecord i (some (r.completed x tr)) := by
  have noted := endStory_noted (l := l) (tr := tr) hr hb (by rw [hx]; decide)
  simp only [Part.endStory, inRecord_state hr hb hx, inRecord_serial hr hb, noted]
  rw [updRecord_eq (record_setRecord_self _ _ _), setRecord_setRecord, updIn_eq (record_setRecord_self _ _ _) rfl,
    setRecord_setRecord]
  rfl

theorem endStory_other (ho : x.state ≠ .opening) (hc : x.state ≠ .carrying) (hs : x.state ≠ .standby) :
    s.endStory l i tr =
      (s.endNoted l i x tr).setRecord i (some { r with body := .inbound { x with truncated := x.truncated || tr } }) := by
  rw [← endStory_noted hr hb ho]
  have state := inRecord_state hr hb (rfl : x.state = x.state)
  simp only [Part.endStory, inRecord_serial hr hb]
  split
  · next h => exact absurd (Option.some.inj (state.symm.trans h)) ho
  · next h => exact absurd (Option.some.inj (state.symm.trans h)) hc
  · next h => exact absurd (Option.some.inj (state.symm.trans h)) hs
  · rfl

theorem line_endStory (m : LineNo) : (s.endStory l i tr).line m = (s.endNoted l i x tr).line m := by
  by_cases ho : x.state = .opening
  · obtain ⟨q, -, -, h⟩ := endStory_opening (l := l) (tr := tr) hr hb ho
    rw [h, freeRecord_line]; rfl
  · by_cases hc : x.state = .carrying
    · rw [endStory_carrying hr hb hc, requestNext_line]; rfl
    · by_cases hs : x.state = .standby
      · rw [endStory_standby hr hb hs]; rfl
      · rw [endStory_other hr hb ho hc hs]; rfl

theorem record_endStory_ne {j : Slot} (hj : j ≠ i) : (s.endStory l i tr).record j = s.record j := by
  by_cases ho : x.state = .opening
  · obtain ⟨q, -, -, h⟩ := endStory_opening (l := l) (tr := tr) hr hb ho
    rw [h, record_freeRecord_ne _ _ hj, record_setRecord_ne _ _ _ _ hj, endNoted_record]
  · by_cases hc : x.state = .carrying
    · rw [endStory_carrying hr hb hc, requestNext_record, record_setRecord_ne _ _ _ _ hj, endNoted_record]
    · by_cases hs : x.state = .standby
      · rw [endStory_standby hr hb hs, record_setRecord_ne _ _ _ _ hj, endNoted_record]
      · rw [endStory_other hr hb ho hc hs, record_setRecord_ne _ _ _ _ hj, endNoted_record]

theorem endStory_frees (hx : x.state = .opening) :
    (s.endStory l i tr).record i = none ∧ (s.endStory l i tr).free = s.free ++ r.blocks := by
  obtain ⟨q, hqb, hqr, h⟩ := endStory_opening (l := l) (tr := tr) hr hb hx
  refine ⟨by rw [h]; exact record_freeRecord_self _ _, ?_⟩
  rw [h, freeRecord_eq (record_setRecord_self _ _ _), judgeStore_free, removeRequest_free, hqb, hqr, List.append_nil]
  exact congrArg (· ++ r.blocks) (endNoted_free s l i tr x)

theorem endStory_ends : StoryEnded s (s.endStory l i tr) i r x tr := by
  refine ⟨fun hx => ?_, fun hx => ⟨?_, fun hn => ?_⟩⟩
  · rw [endStory_standby hr hb hx, record_setRecord_self]; rfl
  · rw [endStory_carrying hr hb hx, requestNext_record, record_setRecord_self]; rfl
  · have none_there : ((s.endNoted l i x tr).setRecord i (some (r.ended x tr))).hasRequest (.record i) = false :=
      (endNoted_hasRequest s l i tr x _).trans hn
    rw [endStory_carrying hr hb hx, requestNext_of_closed (r := r.ended x tr)
      (x := { x with truncated := x.truncated || tr, cursor := if r.count < x.cursor then r.count else x.cursor })
      (record_setRecord_self _ _ _) rfl hx rfl ?_ none_there,
      requestStory_eq (record_setRecord_self _ _ _), requestOf_addRequest_self _ _ none_there]
    · simp only [Option.map_some, Record.ended]
      congr 2
      apply propext
      split <;> simp <;> omega
    · simp only [Record.ended]; split <;> omega

end
end Sys2Proof.Machine
end

section
/-! Lines beside the one whose characters are taken, and the stall timer (03.7). -/

namespace Sys2Proof.Machine

/-! ### Records and the store, which touch no line -/

section
variable (s : Part) (i : Slot) (c : Byte)

theorem silentTakeover_takes : Act (· ∈ [.record, .list]) s (s.silentTakeover i) := by
  unfold Part.silentTakeover
  repeat' split
  all_goals first | exact .refl | exact takeover_takes s i

theorem storeChar_takes : Act (· ∈ [.mem, .record, .store, .list, .notices]) s (s.storeChar i c).1 :=
  storeChar_act (by decide) (by decide) (by decide) (by decide) (by decide) _ _ .refl

@[simp] theorem silentTakeover_line (m : LineNo) : (s.silentTakeover i).line m = s.line m := by
  simp [Part.line, (silentTakeover_takes s i).lines_eq (by decide) (by decide) (by decide) (by decide) (by decide)]

@[simp] theorem storeChar_line (m : LineNo) : (s.storeChar i c).1.line m = s.line m := by
  simp [Part.line, (storeChar_takes s i c).lines_eq (by decide) (by decide) (by decide) (by decide) (by decide)]

@[simp] theorem standBehind_line (o : Handle) (n : Nat) (q : Bool) (m : LineNo) :
    (s.standBehind i o n q).line m = s.line m := rfl

end

/-! ### Lines beside the one whose character is taken -/

section
variable (s : Part) {l m : LineNo} (h : m ≠ l)
include h

theorem line_goOutside_ne : (s.goOutside l).line m = s.line m := by
  rw [Part.goOutside, line_setCond_ne _ _ _ _ _ h, line_updRecog_ne _ _ _ _ h]

theorem line_goDiscarding_ne : (s.goDiscarding l).line m = s.line m := line_updRecog_ne _ _ _ _ h

theorem line_endStory_ne (i : Slot) (tr : Bool) : (s.endStory l i tr).line m = s.line m := by
  unfold Part.endStory
  extract_lets serial t
  have noted : t.line m = s.line m := by
    dsimp only [t]
    split
    · exact line_fault_ne h
    · rfl
  split
  · rw [freeRecord_line]
    split
    · exact noted
    · exact (line_fault_ne h).trans noted
  · exact (requestNext_line _ i m).trans noted
  · exact noted
  · exact noted

theorem line_closeStory_ne (tr : Bool) : (s.closeStory l tr).line m = s.line m := by
  cases ht : (s.line l).recog.tied with
  | none => rw [closeStory_of_untied s l tr ht]
  | some i => rw [closeStory_of_tied s l i tr ht, line_updRecog_ne _ _ _ _ h, line_endStory_ne s h]

theorem line_loseChar_ne (i : Slot) : (s.loseChar l i).line m = s.line m := by
  unfold Part.loseChar
  dsimp only
  split
  · rfl
  · rw [line_updRecog_ne _ _ _ _ h, line_fault_ne h]; rfl

theorem line_takeInto_ne (i : Slot) (c : Byte) : (s.takeInto l i c).1.line m = s.line m := by
  unfold Part.takeInto
  split
  · rw [line_goDiscarding_ne _ h, line_closeStory_ne s h]
  · have stored := storeChar_line s i c m
    split
    · next e => rw [e] at stored; rw [requestNext_line, silentTakeover_line, line_updRecog_ne _ _ _ _ h, stored]
    · next e => rw [e] at stored; exact (line_loseChar_ne _ h i).trans stored

theorem line_carryOut_ne (i : Slot) (n : Option Nat) (d : Decision) : (s.carryOut l i n d).line m = s.line m := by
  unfold Part.carryOut
  split
  · rw [line_updRecog_ne _ _ _ _ h, requestStory_line]; rfl
  · rw [line_updRecog_ne _ _ _ _ h]; rfl
  · rw [line_goDiscarding_ne _ h, freeTied_eq, line_updRecog_ne _ _ _ _ h, freeRecord_line]
  · rw [line_goDiscarding_ne _ h, freeTied_eq, line_updRecog_ne _ _ _ _ h, freeRecord_line, line_fault_ne h]

/-- A heading completed touches no other line but for the supervision state (R101, R107). -/
theorem recog_completeHeading_ne (i : Slot) : ((s.completeHeading l i).line m).recog = (s.line m).recog := by
  unfold Part.completeHeading
  cases hx : readHeading (s.map l).subst (s.line l).recog.heading with
  | none =>
    dsimp only [Option.map]
    split
    · rw [line_goDiscarding_ne _ h, freeTied_eq, line_updRecog_ne _ _ _ _ h, freeRecord_line, line_fault_ne h]; rfl
    · rw [line_carryOut_ne _ h]
      exact congrArg Line.recog (line_fault_ne h)
  | some x =>
    have taken (t : Part) (f : FaultFields) (k : LineNo) :
        ((t.takeSerial (s.cfg l).service x.serial (some l) f).line k).recog = (t.line k).recog :=
      (takeSerial_act (K := (· ∈ [.trackers, .sup, .list])) (by decide) (by decide) (by decide) _ _
        (readHeading_serial hx) _ _ .refl).recog_eq (by decide) k
    dsimp only [Option.map]
    split
    · rw [line_goDiscarding_ne _ h, freeTied_eq, line_updRecog_ne _ _ _ _ h, freeRecord_line, taken]; rfl
    · rw [line_carryOut_ne _ h]
      exact taken _ _ m

theorem recog_takeText_ne (c : Byte) : ((s.takeText l c).line m).recog = (s.line m).recog := by
  unfold Part.takeText
  extract_lets u g
  have started : (u.line m).recog = (s.line m).recog := congrArg Line.recog (line_updRecog_ne _ _ _ _ h)
  have taken (i : Slot) : ((u.takeInto l i c).1.line m).recog = (s.line m).recog := by
    rw [line_takeInto_ne u h, started]
  clear_value u g
  split
  · next i _ _ =>
    have taken := taken i
    split
    · next e =>
      rw [e] at taken
      split
      · exact taken
      · rw [line_updRecog_ne _ _ _ _ h, taken]
    · next e => rw [e] at taken; exact taken
  · next i _ _ =>
    have taken := taken i
    split
    · next e =>
      rw [e] at taken
      split
      · rw [recog_completeHeading_ne _ h, taken]
      · dsimp only
        split
        · rw [recog_completeHeading_ne _ h, line_updRecog_ne _ _ _ _ h, taken]
        · rw [line_updRecog_ne _ _ _ _ h, taken]
    · next e => rw [e] at taken; exact taken
  · exact taken _
  · exact started

theorem recog_releaseLookahead_ne : ((s.releaseLookahead l).line m).recog = (s.line m).recog := by
  have folded (cs : List Byte) (u : Part) : ((cs.foldl (fun s c => s.takeText l c) u).line m).recog = (u.line m).recog := by
    induction cs generalizing u with
    | nil => rfl
    | cons c cs ih => rw [List.foldl_cons, ih, recog_takeText_ne u h]
  rw [Part.releaseLookahead, folded, line_updRecog_ne _ _ _ _ h]

end

/-! ### The stall timer (R67, R68) -/

theorem StoryEnded.congr {s t s' t' : Part} {i : Slot} {r : Record} {x : InRecord} {tr : Bool}
    (h : StoryEnded s t i r x tr) (hs : s'.hasRequest (.record i) = s.hasRequest (.record i))
    (ht : t'.recordView i = t.recordView i) : StoryEnded s' t' i r x tr := by
  obtain ⟨record, request, -⟩ := recordView_eq_iff.mp ht
  simp only [StoryEnded, record, request, hs]
  exact h

theorem assembles_kinds : Assembles (· ∈ [.recog, .sup, .list, .record, .store, .notices, .trackers, .mem]) :=
  ⟨by decide, by decide, by decide, by decide, by decide, by decide, by decide⟩

theorem stallExpire_takes (s : Part) (l : LineNo) :
    Act (· ∈ [.recog, .sup, .list, .record, .store, .notices, .trackers, .mem]) s (s.stallExpire l) :=
  stallExpire_act assembles_kinds (by decide) l .refl

theorem exec_stallRise {l : LineNo} {s : State} (ha : s.active l = true)
    (hs : (s.line l).recog.stallSince.isSome = true) :
    exec (.stallRise l) s = .next { s with toPart := (s.toPart.setCond l .stall true).serveBus } := by
  have runs : s.toPart.stallRuns l = true := by rw [Part.stallRuns, ha, hs]; rfl
  show complete s (if s.toPart.stallRuns l then s.toPart.setCond l .stall true else s.toPart) = _
  rw [runs]
  rfl

theorem exec_stallExpiry {l : LineNo} {s : State} (ha : s.active l = true)
    (hs : (s.line l).recog.stallSince.isSome = true) :
    exec (.stallExpiry l) s = .next { s with toPart := (s.toPart.stallExpire l).serveBus } := by
  have runs : s.toPart.stallRuns l = true := by rw [Part.stallRuns, ha, hs]; rfl
  show complete s (if s.toPart.stallRuns l then s.toPart.stallExpire l else s.toPart) = _
  rw [runs]
  rfl

theorem faults_goOutside (s : Part) (l m : LineNo) : ((s.goOutside l).line m).sup.faults = (s.line m).sup.faults := by
  rw [Part.goOutside]
  exact (congrArg (·.faults) (sup_line_setCond _ l m _ _) : _).trans (congrArg Supervision.faults (sup_line_updRecog _ _ _ _))

section
variable {s : Part} {l : LineNo}

/-- Nothing held: the lookahead's release clears the line-start mark alone. -/
theorem releaseLookahead_of_nil (h : (s.line l).recog.lookahead = []) : s.releaseLookahead l =
    s.updRecog l fun r => { r with lookahead := [], lineStart := false } := by
  rw [Part.releaseLookahead, h]; rfl

theorem stallExpire_of_nil (h : (s.line l).recog.lookahead = []) : s.stallExpire l =
    ((s.updRecog l fun r => { r with lookahead := [], lineStart := false }).closeStory l true).goOutside l := by
  rw [Part.stallExpire, releaseLookahead_of_nil h]

theorem stallExpire_of_untied (h : (s.line l).recog.lookahead = []) (ht : (s.line l).recog.tied = none) :
    ((s.stallExpire l).line l).sup.faults = (s.line l).sup.faults ∧
      { s.stallExpire l with lines := s.lines, port := s.port } = s := by
  have untied : ((s.updRecog l fun r => { r with lookahead := [], lineStart := false }).line l).recog.tied = none := by
    rw [recog_updRecog]; exact ht
  have takes : Act (· ∈ [.recog, .sup, .list]) s (s.stallExpire l) := by
    rw [stallExpire_of_nil h, closeStory_of_untied _ _ _ untied]
    exact Act.trans (.recog l _ (by decide) .refl) (goOutside_takes _ l)
  refine ⟨?_, (takes.mono (by decide)).rest_of_lines⟩
  rw [stallExpire_of_nil h, closeStory_of_untied _ _ _ untied, faults_goOutside]
  exact congrArg Supervision.faults (sup_line_updRecog _ _ _ _)

/-- The stall timer's expiry with nothing held closes the story as truncated (R68, R70). -/
theorem stallExpire_of_tied {i : Slot} {r : Record} {x : InRecord} (h : (s.line l).recog.lookahead = [])
    (ht : (s.line l).recog.tied = some i) (hr : s.record i = some r) (hb : r.body = .inbound x) :
    FaultRecorded s (s.stallExpire l) l .truncated
      { handle := some (s.handle i), serial := x.serial, offset := r.count, raw := none, plane := (s.line l).plane } ∧
    (x.state = .opening → (s.stallExpire l).record i = none ∧ (s.stallExpire l).free = s.free ++ r.blocks) ∧
    StoryEnded s (s.stallExpire l) i r x true ∧
    (∀ j, j ≠ i → (s.stallExpire l).record j = s.record j) ∧
    (s.stallExpire l).mem = s.mem ∧ (s.stallExpire l).register = s.register ∧
    (s.stallExpire l).trackers = s.trackers ∧ (s.stallExpire l).groups = s.groups := by
  obtain ⟨u, hu⟩ : ∃ u, u = s.updRecog l fun r => { r with lookahead := [], lineStart := false } := ⟨_, rfl⟩
  have utied : (u.line l).recog.tied = some i := by rw [hu, recog_updRecog]; exact ht
  have usup : (u.line l).sup = (s.line l).sup := by rw [hu]; exact sup_line_updRecog _ _ _ _
  have uplane : (u.line l).plane = (s.line l).plane := by rw [hu]; exact plane_line_updRecog _ _ _ _
  have ur (j : Slot) : u.record j = s.record j := by rw [hu]; rfl
  obtain ⟨v, hv⟩ : ∃ v, v = (u.endStory l i true).updRecog l fun r => { r with tied := none } := ⟨_, rfl⟩
  have eq : s.stallExpire l = v.goOutside l := by
    rw [stallExpire_of_nil h, ← hu, closeStory_of_tied u l i true utied, hv]
  have view (j : Slot) : (v.goOutside l).recordView j = (u.endStory l i true).recordView j := by
    rw [recordView_goOutside, hv, recordView_updRecog]
  have record (j : Slot) : (v.goOutside l).record j = (u.endStory l i true).record j :=
    (recordView_eq_iff.mp (view j)).1
  have takes : Act (· ∈ [.recog, .sup, .list, .record, .store, .notices]) s (v.goOutside l) := by
    have ended := (endStory_takes u l i true).mono (K' := (· ∈ [.recog, .sup, .list, .record, .store, .notices])) (by decide)
    have last := (goOutside_takes v l).mono (K' := (· ∈ [.recog, .sup, .list, .record, .store, .notices])) (by decide)
    subst hv hu
    exact ((Act.recog l _ (by decide) .refl).trans ended).trans ((Act.recog l _ (by decide) .refl).trans last)
  have free : (v.goOutside l).free = (u.endStory l i true).free := by
    rw [(goOutside_takes v l).free_eq (by decide), hv]; rfl
  have ended := endStory_ends (l := l) (tr := true) ((ur i).trans hr) hb
  have faults : ((v.goOutside l).line l).sup.faults = ((u.endNoted l i x true).line l).sup.faults := by
    rw [faults_goOutside, hv, ← line_endStory ((ur i).trans hr) hb]
    exact congrArg Supervision.faults (sup_line_updRecog _ _ _ _)
  have handle : u.handle i = s.handle i := by rw [hu]; rfl
  rw [eq]
  refine ⟨?_, fun hx => ?_, ?_, fun j hj => ?_, takes.mem_eq (by decide), takes.register_eq (by decide),
    takes.trackers_eq (by decide), takes.groups_eq (by decide)⟩
  · have noted := faultRecorded_truncated (s := u) (l := l) (i := i) (x := x)
    rw [FaultRecorded, usup, Part.storyFields, uplane, (ur i).trans hr, handle] at noted
    rw [FaultRecorded, faults]
    exact noted
  · obtain ⟨gone, freed⟩ := endStory_frees (l := l) (tr := true) ((ur i).trans hr) hb hx
    exact ⟨(record i).trans gone, free.trans (freed.trans (by rw [hu]; rfl))⟩
  · subst hu
    exact StoryEnded.congr ended rfl (view i)
  · rw [record, record_endStory_ne ((ur i).trans hr) hb hj, ur]

end

/-- Settles O33. -/
theorem stallEndsTheStory : Obligations.StallEndsTheStory := by
  intro l s ha hs
  have takes := stallExpire_takes s.toPart l
  have cond : (s.toPart.stallExpire l).cond l .stall = false := by
    rw [Part.stallExpire, cond_goOutside, if_pos ⟨rfl, rfl⟩]
  refine ⟨fun since hsince => ⟨?_, ?_⟩, exec_stallRise ha hs, _, exec_stallExpiry ha hs, recog_goOutside _ l, cond,
    takes.unit_eq (by decide) l, takes.sched_eq (by decide) l, fun m hm => ?_, stallExpire_of_untied,
    fun i r x hl ht hr hb => ?_⟩
  · rw [stallRise_mem_dueLine_iff ha, hsince]
    exact and_congr_right fun _ => decide_eq_true_iff
  · rw [stallExpiry_mem_dueLine_iff ha, hsince]
    exact decide_eq_true_iff
  · rw [Part.stallExpire, line_goOutside_ne _ hm, line_closeStory_ne _ hm, recog_releaseLookahead_ne _ hm]
  · obtain ⟨fault, freed, ⟨standby, carrying⟩, rest⟩ := stallExpire_of_tied hl ht hr hb
    simp only [Bool.or_true] at standby carrying
    exact ⟨fault, freed, standby, carrying, rest⟩

end Sys2Proof.Machine
end

section
/-! Occurrences at the quality counter (10.4), the checker and the test pattern (10.3). -/

namespace Sys2Proof.Machine

/-! ### Occurrences (R199) -/

/-- A line's supervision state but for its flags and its counter. -/
def Supervision.uncounted (x : Supervision) : Supervision := { x with levels := 0, changed := 0, counter := 0 }

section
variable (s : Part) (l k : LineNo) (o : Occurrence)

theorem occur_takes : Act (· ∈ [.sup, .list]) s (s.occur l o) := occur_act (by decide) (by decide) _ _ .refl

theorem occur_eq : s.occur l o = s ∨ ∃ t : Part, t = s.updSup l (fun x => { x with counter := satSucc 65535 x.counter }) ∧
    (s.occur l o = t ∨ s.occur l o = t.setCond l .countFull true) := by
  unfold Part.occur
  dsimp only
  split
  · refine .inr ⟨_, rfl, ?_⟩
    split
    · exact .inr rfl
    · exact .inl rfl
  · exact .inl rfl

theorem line_occur_ne (h : k ≠ l) : (s.occur l o).line k = s.line k := by
  rcases occur_eq s l o with e | ⟨t, rfl, e | e⟩
  · rw [e]
  · rw [e, line_updSup_ne _ _ _ _ h]
  · rw [e, line_setCond_ne _ _ _ _ _ h, line_updSup_ne _ _ _ _ h]

theorem uncounted_occur : ((s.occur l o).line k).sup.uncounted = (s.line k).sup.uncounted := by
  by_cases h : k = l
  · subst h
    rcases occur_eq s k o with e | ⟨t, rfl, e | e⟩
    · rw [e]
    · rw [e, sup_updSup]; rfl
    · rw [e]
      have edge := congrArg (fun x : Supervision => { x with counter := 0 })
        (sup_line_setCond (s.updSup k fun x => { x with counter := satSucc 65535 x.counter }) k k .countFull true)
      rw [sup_updSup] at edge
      exact edge
  · rw [line_occur_ne s l k o h]

theorem cond_occur {c : Condition} (h : c ≠ .countFull) : (s.occur l o).cond k c = s.cond k c := by
  have levels : (s.updSup l fun x => { x with counter := satSucc 65535 x.counter }).cond k c = s.cond k c := by
    by_cases hk : k = l
    · subst hk; simp [Part.cond]
    · rw [Part.cond, line_updSup_ne _ _ _ _ hk, Part.cond]
  rcases occur_eq s l o with e | ⟨t, rfl, e | e⟩
  · rw [e]
  · rw [e, levels]
  · rw [e, cond_setCond_ne _ _ _ _ _ h, levels]

/-- The counter counts an occurrence of its counted kind, and no other. -/
theorem counter_occur : ((s.occur l o).line l).sup.counter =
    if CountedKind.counts (s.cfg l).counted o then min 65535 ((s.line l).sup.counter + 1) else (s.line l).sup.counter := by
  unfold Part.occur
  dsimp only
  split
  · split
    · rw [counter_sup_setCond, sup_updSup]; rfl
    · rw [sup_updSup]; rfl
  · rfl

@[simp] theorem faults_occur : ((s.occur l o).line k).sup.faults = (s.line k).sup.faults :=
  congrArg (·.faults) (uncounted_occur s l k o)

@[simp] theorem chk_occur : ((s.occur l o).line k).sup.chk = (s.line k).sup.chk :=
  congrArg (·.chk) (uncounted_occur s l k o)

@[simp] theorem loopUpRun_occur : ((s.occur l o).line k).sup.loopUpRun = (s.line k).sup.loopUpRun :=
  congrArg (·.loopUpRun) (uncounted_occur s l k o)

@[simp] theorem loopDownRun_occur : ((s.occur l o).line k).sup.loopDownRun = (s.line k).sup.loopDownRun :=
  congrArg (·.loopDownRun) (uncounted_occur s l k o)

end

/-! ### The test pattern (R195, R196) -/

/-- The register one bit on. -/
def shiftNext (r : BitVec 9) : BitVec 9 := shiftIn r (nextBit r)

theorem makeBits_register (n : Nat) (r : BitVec 9) : (makeBits n r).2 = shiftNext^[n] r := by
  induction n generalizing r with
  | zero => rfl
  | succ n ih => exact ih (shiftNext r)

theorem makeBits_length (n : Nat) (r : BitVec 9) : (makeBits n r).1.length = n := by
  induction n generalizing r with
  | zero => rfl
  | succ n ih => exact congrArg (· + 1) (ih (shiftNext r))

/-- The sequence comes back to its seed after 511 bits, and as 511 = 7 · 73 and neither 7 nor 73 bits bring it
back, not before. -/
theorem seed_period : shiftNext^[511] 511 = 511 := by decide +kernel

theorem seed_not_period {n : Nat} (h0 : 0 < n) (h : n < 511) : shiftNext^[n] 511 ≠ 511 := by
  intro hn
  have back : Function.IsPeriodicPt shiftNext 511 511 := seed_period
  have least : Function.minimalPeriod shiftNext (511 : BitVec 9) ∣ 511 := back.minimalPeriod_dvd
  have le : Function.minimalPeriod shiftNext (511 : BitVec 9) ≤ n := Function.IsPeriodicPt.minimalPeriod_le h0 hn
  have fixed := Function.isPeriodicPt_minimalPeriod shiftNext (511 : BitVec 9)
  have divisors : Nat.divisors 511 = {1, 7, 73, 511} := by decide +kernel
  have mem : Function.minimalPeriod shiftNext (511 : BitVec 9) ∈ Nat.divisors 511 := Nat.mem_divisors.mpr ⟨least, by decide⟩
  rw [divisors] at mem
  simp only [Finset.mem_insert, Finset.mem_singleton] at mem
  rcases mem with e | e | e | e
  · rw [e] at fixed; exact absurd fixed (by decide)
  · rw [e] at fixed; exact absurd fixed (by decide)
  · rw [e] at fixed; exact absurd fixed (by unfold Function.IsPeriodicPt Function.IsFixedPt; decide +kernel)
  · omega

end Sys2Proof.Machine
end

section
/-! The checker takes the codes received in TEST, and follows a generator within ten codes (10.3). -/

namespace Sys2Proof.Machine

/-! ### Bits into a register (R195, R196) -/

theorem feedBits_register (bs : List Bool) (r : BitVec 9) : (feedBits bs r).2 = bs.foldl shiftIn r := by
  induction bs generalizing r with
  | nil => rfl
  | cons b bs ih => exact ih (shiftIn r b)

theorem makeBits_foldl (n : Nat) (r : BitVec 9) : (makeBits n r).2 = (makeBits n r).1.foldl shiftIn r := by
  induction n generalizing r with
  | zero => rfl
  | succ n ih => exact ih (shiftNext r)

/-- The bits that a register makes are those that it predicts. -/
theorem feedBits_makeBits (n : Nat) (r : BitVec 9) : feedBits (makeBits n r).1 r = (true, (makeBits n r).2) := by
  induction n generalizing r with
  | zero => rfl
  | succ n ih =>
    have rest := ih (shiftNext r)
    have head : shiftIn r (nextBit r) = shiftNext r := rfl
    simp only [makeBits, feedBits, head, rest, beq_self_eq_true, Bool.and_self]

/-- What stood in the register before is shifted towards its end. -/
theorem foldl_shiftIn (bs : List Bool) (r : BitVec 9) :
    bs.foldl shiftIn r = (r <<< bs.length) ||| bs.foldl shiftIn 0 := by
  induction bs generalizing r with
  | nil => simp
  | cons b bs ih =>
    have split : shiftIn r b = (r <<< 1) ||| shiftIn 0 b := by simp [shiftIn]
    rw [List.foldl_cons, List.foldl_cons, ih, ih (shiftIn 0 b), split, ← BitVec.or_assoc, BitVec.shiftLeft_or_distrib,
      List.length_cons, ← BitVec.shiftLeft_add, Nat.add_comm 1]

/-- Nine bits or more leave nothing of what stood there. -/
theorem foldl_shiftIn_of_long {bs : List Bool} (h : 9 ≤ bs.length) (r q : BitVec 9) :
    bs.foldl shiftIn r = bs.foldl shiftIn q := by
  rw [foldl_shiftIn, foldl_shiftIn bs q, BitVec.shiftLeft_eq_zero h, BitVec.shiftLeft_eq_zero h]

theorem codeBits_codeOfBits {bs : List Bool} (h : bs.length = 5) : codeBits (codeOfBits bs) = bs := by
  match bs, h with
  | [a, b, c, d, e], _ => revert a b c d e; decide

/-! ### The checker behind a generator (R196) -/

section
variable {g : Generator} {c : Checker}

theorem make_of_true (h : g.insert = false) :
    g.make = (codeOfBits (makeBits 5 g.reg).1, { reg := (makeBits 5 g.reg).2, insert := false }) := by
  simp [Generator.make, h]

theorem codeBits_make (h : g.insert = false) : codeBits g.make.1 = (makeBits 5 g.reg).1 := by
  rw [make_of_true h]
  exact codeBits_codeOfBits (makeBits_length 5 g.reg)

theorem takeOut_loads (h : c.load < 2) (code : Code) :
    c.takeOut code = { c with reg := (codeBits code).foldl shiftIn c.reg, load := c.load + 1 } := by
  simp only [Checker.takeOut, feedBits_register, if_pos h]

/-- A checker with the generator's register takes its code as correct. -/
theorem takeOut_correct (hg : g.insert = false) (hl : 2 ≤ c.load) (hr : c.reg = g.reg) :
    c.takeOut g.make.1 = if c.run + 1 = 8 then { c with reg := g.make.2.reg, run := 8, inSync := true, window := [] }
      else { c with reg := g.make.2.reg, run := c.run + 1 } := by
  rw [Checker.takeOut, codeBits_make hg, hr, feedBits_makeBits, make_of_true hg]
  dsimp only
  rw [if_neg (by omega), if_pos rfl]

/-- Generator and checker one code on. -/
def followCode (p : Generator × Checker) : Generator × Checker := (p.1.make.2, p.2.takeOut p.1.make.1)

/-- A checker that holds the generator's register after `n` correct codes. -/
def Follows (n : Nat) (p : Generator × Checker) : Prop :=
  p.1.insert = false ∧ 2 ≤ p.2.load ∧ p.2.reg = p.1.reg ∧ p.2.run = n

theorem follows_followCode {n : Nat} {p : Generator × Checker} (h : Follows n p) (hn : n < 7) :
    Follows (n + 1) (followCode p) := by
  obtain ⟨hg, hl, hr, hrun⟩ := h
  have next := takeOut_correct hg hl hr
  rw [hrun, if_neg (by omega)] at next
  refine ⟨?_, ?_, ?_, ?_⟩ <;> simp only [followCode, next]
  · rw [make_of_true hg]
  · exact hl

/-- The eighth correct code brings the checker IN. -/
theorem inSync_followCode {p : Generator × Checker} (h : Follows 7 p) :
    (followCode p).2.inSync = true ∧ (followCode p).2.reg = (followCode p).1.reg ∧ (followCode p).2.window = [] := by
  obtain ⟨hg, hl, hr, hrun⟩ := h
  have next := takeOut_correct hg hl hr
  rw [hrun, if_pos rfl] at next
  simp [followCode, next]

/-- The first two codes load the generator's register. -/
theorem follows_of_two (hg : g.insert = false) (hl : c.load = 0) (hr : c.run = 0) :
    Follows 0 (followCode (followCode (g, c))) := by
  have hg' : g.make.2.insert = false := by rw [make_of_true hg]
  have first := takeOut_loads (c := c) (by omega) g.make.1
  have second := takeOut_loads (c := c.takeOut g.make.1) (by rw [first]; dsimp only; omega) g.make.2.make.1
  have made : g.make.2.make.2.reg =
      ((makeBits 5 g.reg).1 ++ (makeBits 5 g.make.2.reg).1).foldl shiftIn g.reg := by
    rw [make_of_true hg', List.foldl_append, ← makeBits_foldl, make_of_true hg, ← makeBits_foldl]
  refine ⟨?_, ?_, ?_, ?_⟩ <;> simp only [followCode]
  · rw [make_of_true hg']
  · rw [second, first]; dsimp only; omega
  · rw [second, first, made, codeBits_make hg, codeBits_make hg', ← List.foldl_append]
    exact foldl_shiftIn_of_long (by simp [makeBits_length]) _ _
  · rw [second, first]; exact hr

theorem sync_in_ten (hg : g.insert = false) (hl : c.load = 0) (hr : c.run = 0) :
    let pair := (List.range 10).foldl (fun (p : Generator × Checker) _ => followCode p) (g, c)
    pair.2.inSync = true ∧ pair.2.reg = pair.1.reg ∧ pair.2.window = [] := by
  have start := follows_of_two hg hl hr
  have h3 := follows_followCode (follows_followCode (follows_followCode start (by decide)) (by decide)) (by decide)
  have h6 := follows_followCode (follows_followCode (follows_followCode h3 (by decide)) (by decide)) (by decide)
  exact inSync_followCode (follows_followCode h6 (by decide))

end

/-! ### The checker takes a code (R196, R197) -/

section
variable {s : Part} {l : LineNo} {code : Code}

/-- The checker after a code, and whether that was a test error. -/
def Checker.takes (c : Checker) (code : Code) : Checker × Bool :=
  if c.inSync then c.takeIn code else (c.takeOut code, false)

theorem checkCode_eq : s.checkCode l code =
    ((if ((s.line l).sup.chk.takes code).2 then
        (s.updSup l fun x => { x with chk := ((s.line l).sup.chk.takes code).1 }).occur l .testError
      else s.updSup l fun x => { x with chk := ((s.line l).sup.chk.takes code).1 }).setCond l .testSync
        ((s.line l).sup.chk.takes code).1.inSync) := by
  unfold Part.checkCode Checker.takes
  dsimp only
  split
  · rfl
  · rfl

end

section
variable {s : Part} {l : LineNo}

/-- A stop sample that holds no code hands it on, flagged on space (R4). -/
theorem sampleStop_handed (ha : s.assembles l = true) (hr : (s.line l).unit.rcv = .stop)
    (h : s.mark l = true ∨ (s.line l).unit.acc ≠ 0) : s.sampleStop l =
      (s.updUnit l fun x => { x with rcv := if s.mark l then .hunt else .waitMark }).handOn l (s.line l).unit.acc (!s.mark l) := by
  cases hm : s.mark l
  · rw [sampleStop_of_space_ne_zero ha hr hm (h.resolve_left (by rw [hm]; decide))]
    rfl
  · rw [sampleStop_of_mark ha hr hm]
    rfl

theorem framingOccurs_takes (b : Bool) : Act (· ∈ [.sup, .list]) s (s.framingOccurs l b) := by
  unfold Part.framingOccurs
  split
  · exact occur_takes s l _
  · exact .refl

theorem line_framingOccurs_ne {m : LineNo} (h : m ≠ l) (b : Bool) : (s.framingOccurs l b).line m = s.line m := by
  unfold Part.framingOccurs
  split
  · exact line_occur_ne s l m _ h
  · rfl

theorem uncounted_framingOccurs (m : LineNo) (b : Bool) :
    ((s.framingOccurs l b).line m).sup.uncounted = (s.line m).sup.uncounted := by
  unfold Part.framingOccurs
  split
  · exact uncounted_occur s l m _
  · rfl

@[simp] theorem chk_framingOccurs (m : LineNo) (b : Bool) :
    ((s.framingOccurs l b).line m).sup.chk = (s.line m).sup.chk := congrArg (·.chk) (uncounted_framingOccurs m b)

@[simp] theorem faults_framingOccurs (m : LineNo) (b : Bool) :
    ((s.framingOccurs l b).line m).sup.faults = (s.line m).sup.faults := congrArg (·.faults) (uncounted_framingOccurs m b)

theorem counter_framingOccurs (b : Bool) : ((s.framingOccurs l b).line l).sup.counter =
    if b = true ∧ CountedKind.counts (s.cfg l).counted .framing = true then min 65535 ((s.line l).sup.counter + 1)
    else (s.line l).sup.counter := by
  unfold Part.framingOccurs
  cases b
  · simp
  · simp [counter_occur]

/-- A code of `CheckerAndTestPattern` at the checker: what changes is the checker, its condition and the counter. -/
theorem checkCode_takes (code : Code) : Act (· ∈ [.sup, .list]) s (s.checkCode l code) :=
  checkCode_act (by decide) (by decide) _ _ .refl

theorem line_checkCode_ne {m : LineNo} (h : m ≠ l) (code : Code) : (s.checkCode l code).line m = s.line m := by
  rw [checkCode_eq, line_setCond_ne _ _ _ _ _ h]
  split
  · rw [line_occur_ne _ _ _ _ h, line_updSup_ne _ _ _ _ h]
  · rw [line_updSup_ne _ _ _ _ h]

theorem uncounted_checkCode (code : Code) : ((s.checkCode l code).line l).sup.uncounted =
    { (s.line l).sup.uncounted with chk := ((s.line l).sup.chk.takes code).1 } := by
  have edge (t : Part) (b : Bool) : ((t.setCond l .testSync b).line l).sup.uncounted = (t.line l).sup.uncounted :=
    congrArg (fun x : Supervision => { x with counter := 0 }) (sup_line_setCond t l l .testSync b)
  rw [checkCode_eq, edge]
  split
  · rw [uncounted_occur, sup_updSup]; rfl
  · rw [sup_updSup]; rfl

theorem cond_checkCode (code : Code) : (s.checkCode l code).cond l .testSync = ((s.line l).sup.chk.takes code).1.inSync := by
  rw [checkCode_eq, cond_setCond_self]

theorem counter_checkCode (code : Code) : ((s.checkCode l code).line l).sup.counter =
    if ((s.line l).sup.chk.takes code).2 = true ∧ CountedKind.counts (s.cfg l).counted .testError = true then
      min 65535 ((s.line l).sup.counter + 1) else (s.line l).sup.counter := by
  rw [checkCode_eq, counter_sup_setCond]
  cases h : ((s.line l).sup.chk.takes code).2
  · simp
  · simp only [if_true, counter_occur, true_and, sup_updSup]
    rfl

end

end Sys2Proof.Machine
end

section
/-! A code received in TEST (10.3). -/

namespace Sys2Proof.Machine

section
variable {c : Checker} {code : Code}

theorem takes_of_out (h : c.inSync = false) : c.takes code = (c.takeOut code, false) := by simp [Checker.takes, h]

theorem takes_of_in (h : c.inSync = true) : c.takes code = c.takeIn code := by simp [Checker.takes, h]

/-- A checker that is IN goes OUT at the fourth error among the last 16 codes (R197). -/
theorem takeIn_eq : c.takeIn code =
    (let err := !(codeOfBits (makeBits 5 c.reg).1 == code)
     let window := (err :: c.window).take 16
     ({ c with
        reg := (makeBits 5 c.reg).2, window := window
        inSync := if err = true ∧ 4 ≤ window.count true then false else c.inSync
        load := if err = true ∧ 4 ≤ window.count true then 0 else c.load
        run := if err = true ∧ 4 ≤ window.count true then 0 else c.run }, err)) := by
  unfold Checker.takeIn
  dsimp only
  by_cases h : (!(codeOfBits (makeBits 5 c.reg).1 == code)) = true ∧
      4 ≤ (((!(codeOfBits (makeBits 5 c.reg).1 == code)) :: c.window).take 16).count true
  · rw [if_pos (by rw [Bool.and_eq_true, decide_eq_true_iff]; exact h), if_pos h, if_pos h, if_pos h, h.1]
    rfl
  · rw [if_neg (by rw [Bool.and_eq_true, decide_eq_true_iff]; exact h), if_neg h, if_neg h, if_neg h]

end

/-- The rest of a line's supervision state beside checker, counter and flags. -/
theorem sup_of_uncounted {x y : Supervision} {c : Checker} (h : x.uncounted = { y.uncounted with chk := c }) :
    { x with chk := y.chk, counter := y.counter, levels := y.levels, changed := y.changed } = y := by
  cases x; cases y
  simp only [Supervision.uncounted, Supervision.mk.injEq] at h
  simp_all

section
variable {s : Part} {l : LineNo} (ha : s.assembles l = true) (hr : (s.line l).unit.rcv = .stop)
variable (hm : s.mark l = true ∨ (s.line l).unit.acc ≠ 0) (ht : (s.line l).unit.state = .test)
include ha hr hm ht

/-- A code in TEST goes to the checker, its framing flag to the counter alone. -/
theorem sampleStop_of_test : s.sampleStop l = ((s.updUnit l fun x =>
    { x with rcv := if s.mark l then .hunt else .waitMark }).framingOccurs l (!s.mark l)).checkCode l (s.line l).unit.acc := by
  have state : ((s.updUnit l fun x => { x with rcv := if s.mark l then .hunt else .waitMark }).line l).unit.state = .test := by
    rw [unit_updUnit]; exact ht
  rw [sampleStop_handed ha hr hm, Part.handOn, state]

end

theorem counts_testError_iff (k : CountedKind) : CountedKind.counts k .testError = true ↔ k = .testErrors := by
  cases k <;> decide

theorem counts_framing_iff (k : CountedKind) : CountedKind.counts k .framing = true ↔ k = .framing ∨ k = .framingMutilated := by
  cases k <;> decide

theorem counts_mutilated_iff (k : CountedKind) :
    CountedKind.counts k .mutilated = true ↔ k = .mutilated ∨ k = .framingMutilated := by
  cases k <;> decide

section
variable (s : Part) (l : LineNo) (framing : Bool) (code : Code) (f : LineUnit → LineUnit)

/-- A code at the checker behind the occurrence of its framing flag: the counter counts the one or the other. -/
theorem counter_checked : ((((s.updUnit l f).framingOccurs l framing).checkCode l code).line l).sup.counter =
    if (framing = true ∧ ((s.cfg l).counted = .framing ∨ (s.cfg l).counted = .framingMutilated)) ∨
      (((s.line l).sup.chk.takes code).2 = true ∧ (s.cfg l).counted = .testErrors) then
      min 65535 ((s.line l).sup.counter + 1) else (s.line l).sup.counter := by
  obtain ⟨v, hv⟩ : ∃ v, v = (s.updUnit l f).framingOccurs l framing := ⟨_, rfl⟩
  have chk : (v.line l).sup.chk = (s.line l).sup.chk := by
    rw [hv, chk_framingOccurs]
    exact congrArg Supervision.chk (sup_line_updUnit s l l f)
  have cfg : v.cfg l = s.cfg l := by rw [hv]; exact (framingOccurs_takes framing).cfg_eq l
  have counter : (v.line l).sup.counter =
      if framing = true ∧ CountedKind.counts (s.cfg l).counted .framing = true then min 65535 ((s.line l).sup.counter + 1)
      else (s.line l).sup.counter := by
    rw [hv, counter_framingOccurs, sup_line_updUnit]
    rfl
  rw [← hv, counter_checkCode, chk, cfg, counter]
  simp only [counts_testError_iff, counts_framing_iff]
  cases (s.cfg l).counted <;> cases framing <;> simp

theorem cond_checked : (((s.updUnit l f).framingOccurs l framing).checkCode l code).cond l .testSync =
    ((s.line l).sup.chk.takes code).1.inSync := by
  rw [cond_checkCode, chk_framingOccurs]
  exact congrArg (fun x : Supervision => (x.chk.takes code).1.inSync) (sup_line_updUnit s l l f)

theorem uncounted_checked : ((((s.updUnit l f).framingOccurs l framing).checkCode l code).line l).sup.uncounted =
    { (s.line l).sup.uncounted with chk := ((s.line l).sup.chk.takes code).1 } := by
  rw [uncounted_checkCode, chk_framingOccurs, uncounted_framingOccurs,
    sup_line_updUnit]

theorem checked_takes : Act (· ∈ [.unit, .sup, .list]) s (((s.updUnit l f).framingOccurs l framing).checkCode l code) :=
  ((Act.unit l f (by decide) .refl).trans ((framingOccurs_takes framing).mono (by decide))).trans
    ((checkCode_takes code).mono (by decide))

theorem unit_checked : ((((s.updUnit l f).framingOccurs l framing).checkCode l code).line l).unit = f (s.line l).unit := by
  rw [(checkCode_takes code).unit_eq (by decide), (framingOccurs_takes framing).unit_eq (by decide), unit_updUnit]

theorem line_checked_ne {m : LineNo} (h : m ≠ l) :
    (((s.updUnit l f).framingOccurs l framing).checkCode l code).line m = s.line m := by
  rw [line_checkCode_ne h, line_framingOccurs_ne h, line_updUnit_ne _ _ _ _ h]

end

/-- Settles O18. -/
theorem checkerAndTestPattern : Obligations.CheckerAndTestPattern := by
  refine ⟨fun l s ha hr hm ht => ?_, ⟨by decide, by rw [makeBits_register]; exact seed_period,
    fun n h0 hn => by rw [makeBits_register]; exact seed_not_period h0 hn, fun r => ⟨rfl, rfl⟩,
    fun g c hg hs hl hrun => sync_in_ten hg hl hrun⟩⟩
  obtain ⟨f, hf⟩ : ∃ f : LineUnit → LineUnit, f = fun x => { x with rcv := if s.mark l then .hunt else .waitMark } := ⟨_, rfl⟩
  have exec : exec (.receivedCode l) s = .next { s with toPart :=
      (((s.toPart.updUnit l f).framingOccurs l (!s.mark l)).checkCode l (s.line l).unit.acc).serveBus } := by
    rw [exec_receivedCode, sampleStop_of_test ha hr hm ht, hf]
  have takes := checked_takes s.toPart l (!s.mark l) (s.line l).unit.acc f
  have uncounted := uncounted_checked s.toPart l (!s.mark l) (s.line l).unit.acc f
  have chk : ((((s.toPart.updUnit l f).framingOccurs l (!s.mark l)).checkCode l (s.line l).unit.acc).line l).sup.chk =
      ((s.line l).sup.chk.takes (s.line l).unit.acc).1 := (congrArg (·.chk) uncounted :)
  have counter := counter_checked s.toPart l (!s.mark l) (s.line l).unit.acc f
  have out (h : (s.line l).sup.chk.inSync = false) := congrArg Prod.fst (takes_of_out (code := (s.line l).unit.acc) h)
  have in' (h : (s.line l).sup.chk.inSync = true) :=
    congrArg Prod.fst ((takes_of_in (code := (s.line l).unit.acc) h).trans takeIn_eq)
  have counts : ((s.mark l = false ∧ ((s.cfg l).counted = .framing ∨ (s.cfg l).counted = .framingMutilated)) ∨
      ((s.line l).sup.chk.inSync = true ∧
        (!(codeOfBits (makeBits 5 (s.line l).sup.chk.reg).1 == (s.line l).unit.acc)) = true ∧
        (s.cfg l).counted = .testErrors)) ↔
      ((!s.mark l) = true ∧ ((s.cfg l).counted = .framing ∨ (s.cfg l).counted = .framingMutilated)) ∨
      (((s.line l).sup.chk.takes (s.line l).unit.acc).2 = true ∧ (s.cfg l).counted = .testErrors) := by
    refine or_congr (by simp) ?_
    cases h : (s.line l).sup.chk.inSync
    · simp [takes_of_out h]
    · rw [takes_of_in h, takeIn_eq]
      simp
  refine ⟨_, exec, fun h hl => ?_, fun h hl hk => ?_, fun h hl hk hn => ?_, fun h hl hk hn => ?_, fun h he => ?_,
    fun h he hw => ?_, ?_, fun h => ?_, fun h => ?_, ?_, ?_, ?_, fun m hm => ?_, ?_⟩
  · refine chk.trans ((out h).trans ?_)
    simp only [Checker.takeOut, if_pos hl]
  · refine chk.trans ((out h).trans ?_)
    simp only [Checker.takeOut, if_neg (Nat.not_lt.mpr hl), hk, Bool.false_eq_true, if_false]
  · refine chk.trans ((out h).trans ?_)
    simp only [Checker.takeOut, if_neg (Nat.not_lt.mpr hl), hk, if_true]
    exact if_neg (by omega)
  · refine chk.trans ((out h).trans ?_)
    simp only [Checker.takeOut, if_neg (Nat.not_lt.mpr hl), hk, if_true]
    exact if_pos (by omega)
  · refine chk.trans ((in' h).trans ?_)
    dsimp only
    rw [if_neg he, if_neg he, if_neg he]
  · refine chk.trans ((in' h).trans ?_)
    dsimp only
    rw [if_pos ⟨he, hw⟩, if_pos ⟨he, hw⟩, if_pos ⟨he, hw⟩]
  · rw [cond_checked, chk]
  · rw [counter, if_pos (counts.mp h)]
  · rw [counter, if_neg fun hc => h (counts.mpr hc)]
  · exact line_ext rfl (takes.plane_eq (by decide) l) (takes.recog_eq (by decide) l) (takes.sched_eq (by decide) l)
      (takes.texts_eq l) rfl
  · rw [unit_checked, hf]; rfl
  · exact sup_of_uncounted uncounted
  · exact line_checked_ne _ _ _ _ _ hm
  · exact (takes.mono (by decide)).rest_of_lines

end Sys2Proof.Machine
end

section
/-! The converter: what a received code is read as, and what its reading leaves behind (02.3, 01.2). -/

namespace Sys2Proof.Machine

/-! ### A code read (R27 to R34) -/

/-- The converter reads `code` on line `l` as character `c`, or as nothing, with fault `k`, or none; no enquiry. -/
def Part.yields (s : Part) (l : LineNo) (code : Code) (framing : Bool) (c : Option Byte) (k : Option FaultKind) : Prop :=
  let shift := shiftPlane (s.map l) code.toNat
  let e := mapEntry (s.map l) (s.line l).plane code.toNat
  let action := admissionOf s.settings.admission (s.cfg l).profile false e.cls
  (framing = true ∧ c = some (s.map l).subst ∧ k = some .framing) ∨
    (framing = false ∧ shift.isSome = true ∧ c = none ∧ k = none) ∨
    (framing = false ∧ shift = none ∧ e.cls = .unassigned ∧ c = some (s.map l).subst ∧ k = some .mutilated) ∨
    (framing = false ∧ shift = none ∧ e.cls ≠ .unassigned ∧ s.enquires l e = false ∧
      ((action = .pass ∧ k = none ∧ c = formatChar e) ∨
        (action = .substitute ∧ c = some (s.map l).subst ∧ k = some .admission) ∨
        ((action = .drop ∨ action = .refuse) ∧ c = none ∧ k = some .admission)))

/-- The decode plane of line `l` after `code` (R27, R28). -/
def Part.planeBehind (s : Part) (l : LineNo) (code : Code) : Plane :=
  (shiftPlane (s.map l) code.toNat).getD
    (planeAfter (s.cfg l) (mapEntry (s.map l) (s.line l).plane code.toNat) (s.line l).plane)

/-- Line `l` after the converter has read `code` with fault `k`. -/
def Part.decoded (s : Part) (l : LineNo) (code : Code) (k : Option FaultKind) : Part :=
  let f := s.inboundFields l code (s.line l).plane
  let t := s.setPlane l (s.planeBehind l code)
  match k with
  | none => t
  | some .framing => (t.fault l .framing f).mutilate l
  | some .mutilated => ((t.fault l .mutilated f).occur l .mutilated).mutilate l
  | some k => t.fault l k f

section
variable {s : Part} {l : LineNo} {code : Code} {framing : Bool} {c : Option Byte} {k : Option FaultKind}

theorem decode_of_yields (h : s.yields l code framing c k) : s.decode l code framing = (s.decoded l code k, c) := by
  rcases h with ⟨rfl, rfl, rfl⟩ | ⟨rfl, hs, rfl, rfl⟩ | ⟨rfl, hs, hu, rfl, rfl⟩ | ⟨rfl, hs, hu, hq, h⟩
  · cases hs : shiftPlane (s.map l) code.toNat <;> simp [Part.decode, Part.decoded, Part.planeBehind, hs]
  · obtain ⟨p, hp⟩ := Option.isSome_iff_exists.mp hs
    simp [Part.decode, Part.decoded, Part.planeBehind, hp]
  · simp [Part.decode, Part.decoded, Part.planeBehind, hs, hu]
  · have quiet (p : Plane) : (s.setPlane l p).enquires l (mapEntry (s.map l) (s.line l).plane code.toNat) = false := by
      rw [← hq, Part.enquires, Part.enquires, unit_line_setPlane]; rfl
    rcases h with ⟨ha, rfl, rfl⟩ | ⟨ha, rfl, rfl⟩ | ⟨ha | ha, rfl, rfl⟩ <;>
      simp [Part.decode, Part.decoded, Part.planeBehind, hs, hu, quiet, ha]

theorem mutilate_takes : Act (· ∈ [.record]) s (s.mutilate l) := mutilate_act (by decide) l .refl

@[simp] theorem mutilate_line (m : LineNo) : (s.mutilate l).line m = s.line m := by
  simp [Part.line, mutilate_takes.lines_eq (by decide) (by decide) (by decide) (by decide) (by decide)]

theorem decoded_takes : Act (· ∈ [.plane, .sup, .list, .record]) s (s.decoded l code k) := by
  have plane : Act (· ∈ [.plane, .sup, .list, .record]) s (s.setPlane l (s.planeBehind l code)) :=
    .plane l _ (by decide) .refl
  have fault (k : FaultKind) := fault_act (K := (· ∈ [.plane, .sup, .list, .record])) (by decide) l k
    (s.inboundFields l code (s.line l).plane) plane
  unfold Part.decoded
  dsimp only
  split
  · exact plane
  · exact mutilate_act (by decide) l (fault _)
  · exact mutilate_act (by decide) l (occur_act (by decide) (by decide) _ _ (fault _))
  · exact fault _

theorem line_decoded_ne {m : LineNo} (h : m ≠ l) : (s.decoded l code k).line m = s.line m := by
  unfold Part.decoded
  dsimp only
  split
  · rw [line_setPlane_ne _ _ _ _ h]
  · rw [mutilate_line, line_fault_ne h, line_setPlane_ne _ _ _ _ h]
  · rw [mutilate_line, line_occur_ne _ _ _ _ h, line_fault_ne h, line_setPlane_ne _ _ _ _ h]
  · rw [line_fault_ne h, line_setPlane_ne _ _ _ _ h]

theorem plane_decoded : ((s.decoded l code k).line l).plane = s.planeBehind l code := by
  unfold Part.decoded
  dsimp only
  split
  · exact plane_setPlane _ _ _
  · rw [mutilate_line, fault_plane, plane_setPlane]
  · rw [mutilate_line, (occur_takes _ l _).plane_eq (by decide), fault_plane, plane_setPlane]
  · rw [fault_plane, plane_setPlane]

theorem faults_decoded_none : ((s.decoded l code none).line l).sup = (s.line l).sup := sup_line_setPlane _ _ _ _

theorem faults_decoded_some (k : FaultKind) : ((s.decoded l code (some k)).line l).sup.faults =
    ((s.fault l k (s.inboundFields l code (s.line l).plane)).line l).sup.faults := by
  have plane (k : FaultKind) : (((s.setPlane l (s.planeBehind l code)).fault l k
      (s.inboundFields l code (s.line l).plane)).line l).sup.faults =
      ((s.fault l k (s.inboundFields l code (s.line l).plane)).line l).sup.faults := by
    rw [sup_fault, sup_fault, sup_line_setPlane]
  cases k <;> simp [Part.decoded, plane]

/-- The converter's fault is recorded and no other. -/
theorem faultRecorded_decoded {k : FaultKind} :
    FaultRecorded s (s.decoded l code (some k)) l k (s.inboundFields l code (s.line l).plane) :=
  faultRecorded_fault.congr (faults_decoded_some k)

theorem faults_decoded_ne {j : Fin 8} (h : k.map FaultKind.idx ≠ some j) :
    ((s.decoded l code k).line l).sup.faults.get j = (s.line l).sup.faults.get j := by
  cases k with
  | none => rw [faults_decoded_none]
  | some k => rw [faults_decoded_some, faults_fault_ne fun e => h (congrArg some e.symm)]

theorem counter_decoded : ((s.decoded l code k).line l).sup.counter =
    if k = some .mutilated ∧ ((s.cfg l).counted = .mutilated ∨ (s.cfg l).counted = .framingMutilated) then
      min 65535 ((s.line l).sup.counter + 1) else (s.line l).sup.counter := by
  have plane (k : FaultKind) (f : FaultFields) : (((s.setPlane l (s.planeBehind l code)).fault l k f).line l).sup.counter =
      (s.line l).sup.counter := by rw [sup_fault, sup_line_setPlane]
  have cfg (k : FaultKind) (f : FaultFields) : ((s.setPlane l (s.planeBehind l code)).fault l k f).cfg l = s.cfg l := rfl
  unfold Part.decoded
  dsimp only
  split
  · rw [sup_line_setPlane]; simp
  · rw [mutilate_line, plane]; simp
  · rw [mutilate_line, counter_occur, plane, cfg]
    simp only [counts_mutilated_iff, true_and]
  · next hm =>
    rw [plane, if_neg]
    rintro ⟨e, -⟩
    exact hm (Option.some.inj e)

theorem cond_decoded {d : Condition} (h : d ≠ .countFull) (m : LineNo) : (s.decoded l code k).cond m d = s.cond m d := by
  have plane (k : FaultKind) (f : FaultFields) : ((s.setPlane l (s.planeBehind l code)).fault l k f).cond m d = s.cond m d := by
    by_cases hm : m = l
    · subst hm
      simp only [Part.cond, sup_fault, sup_line_setPlane]
    · rw [Part.cond, line_fault_ne hm, line_setPlane_ne _ _ _ _ hm, Part.cond]
  unfold Part.decoded
  dsimp only
  split
  · exact cond_of_sup (sup_line_setPlane _ _ _ _)
  · rw [Part.cond, mutilate_line]; exact plane _ _
  · rw [Part.cond, mutilate_line, ← Part.cond, cond_occur _ _ _ _ h]; exact plane _ _
  · exact plane _ _

/-- A line's supervision state but for its flags, its counter and its fault records. -/
def Supervision.faultless (x : Supervision) : Supervision := { x.uncounted with faults := Vector.replicate 8 none }

theorem faultless_fault (t : Part) (m : LineNo) (k : FaultKind) (f : FaultFields) :
    ((t.fault l k f).line m).sup.faultless = (t.line m).sup.faultless := by
  by_cases hm : m = l
  · subst hm; rw [sup_fault]; rfl
  · rw [line_fault_ne hm]

theorem faultless_occur (t : Part) (m : LineNo) (o : Occurrence) :
    ((t.occur l o).line m).sup.faultless = (t.line m).sup.faultless :=
  congrArg (fun x : Supervision => { x with faults := Vector.replicate 8 none }) (uncounted_occur t l m o)

theorem faultless_decoded (m : LineNo) : ((s.decoded l code k).line m).sup.faultless = (s.line m).sup.faultless := by
  unfold Part.decoded
  dsimp only
  split
  · rw [sup_line_setPlane]
  · rw [mutilate_line, faultless_fault, sup_line_setPlane]
  · rw [mutilate_line, faultless_occur, faultless_fault, sup_line_setPlane]
  · rw [faultless_fault, sup_line_setPlane]

theorem sup_of_faultless {x y : Supervision} (h : x.faultless = y.faultless) :
    { x with levels := y.levels, changed := y.changed, faults := y.faults, counter := y.counter } = y := by
  cases x; cases y
  simp only [Supervision.faultless, Supervision.uncounted, Supervision.mk.injEq] at h
  simp_all

end

/-! ### The mutilation count (R29, R30) -/

/-- The inbound fields of a story after fault `k` of a code of it. -/
def InRecord.mutilatedBy (x : InRecord) (k : Option FaultKind) : InRecord :=
  if k = some .framing ∨ k = some .mutilated then { x with mutilation := min 65535 (x.mutilation + 1) } else x

section
variable {s : Part} {l : LineNo} {code : Code} {k : Option FaultKind}

theorem mutilate_of_untied (h : (s.line l).recog.tied = none) : s.mutilate l = s := by
  unfold Part.mutilate
  rw [h]

theorem mutilate_of_tied {i : Slot} {r : Record} {x : InRecord} (ht : (s.line l).recog.tied = some i)
    (hr : s.record i = some r) (hb : r.body = .inbound x) : s.mutilate l =
      s.setRecord i (some { r with body := .inbound { x with mutilation := min 65535 (x.mutilation + 1) } }) := by
  unfold Part.mutilate
  rw [ht]
  exact updIn_eq hr hb _

/-- A record request stands as it did. -/
theorem requestOf_occur {o : Owner} (h : o ≠ .condition l) (q : Occurrence) : (s.occur l q).requestOf o = s.requestOf o := by
  rcases occur_eq s l q with e | ⟨t, rfl, e | e⟩
  · rw [e]
  · rw [e]; rfl
  · rw [e, requestOf_setCond_ne (o := o) _ _ _ _ h]; rfl

theorem record_occur (q : Occurrence) (i : Slot) : (s.occur l q).record i = s.record i :=
  (occur_takes s l q).record_eq (by decide) (by decide) i

theorem decoded_of_untied (h : (s.line l).recog.tied = none) : Act (· ∈ [.plane, .sup, .list]) s (s.decoded l code k) := by
  have plane : Act (· ∈ [.plane, .sup, .list]) s (s.setPlane l (s.planeBehind l code)) := .plane l _ (by decide) .refl
  have fault (k : FaultKind) := fault_act (K := (· ∈ [.plane, .sup, .list])) (by decide) l k
    (s.inboundFields l code (s.line l).plane) plane
  unfold Part.decoded
  dsimp only
  split
  · exact plane
  · rw [mutilate_of_untied (by rw [fault_recog, recog_line_setPlane, h])]
    exact fault _
  · rw [mutilate_of_untied (by rw [(occur_takes _ l _).recog_eq (by decide), fault_recog, recog_line_setPlane, h])]
    exact occur_act (by decide) (by decide) _ _ (fault _)
  · exact fault _

section
variable {i : Slot} {r : Record} {x : InRecord} (ht : (s.line l).recog.tied = some i) (hr : s.record i = some r)
variable (hb : r.body = .inbound x)
include ht hr hb

theorem record_decoded : (s.decoded l code k).record i = some { r with body := .inbound (x.mutilatedBy k) } := by
  have same : s.record i = some { r with body := .inbound x } := by rw [hr, ← hb]
  unfold Part.decoded InRecord.mutilatedBy
  dsimp only
  split
  · exact same
  · rw [mutilate_of_tied (by rw [fault_recog, recog_line_setPlane, ht]) (by exact hr) hb, record_setRecord_self]
    rfl
  · rw [mutilate_of_tied (by rw [(occur_takes _ l _).recog_eq (by decide), fault_recog, recog_line_setPlane, ht])
      ((record_occur _ _).trans (by exact hr)) hb, record_setRecord_self]
    rfl
  · next hf hm =>
    rw [if_neg (by rintro (e | e); exacts [hf (Option.some.inj e), hm (Option.some.inj e)])]
    exact same

end

theorem record_decoded_ne {j : Slot} (h : (s.line l).recog.tied ≠ some j) : (s.decoded l code k).record j = s.record j := by
  have kept (t : Part) (ht : (t.line l).recog = (s.line l).recog) : (t.mutilate l).record j = t.record j := by
    unfold Part.mutilate
    split
    · next i e =>
      exact record_setRecord_ne _ _ _ _ fun hj => h (by rw [← ht, e, hj])
    · rfl
  unfold Part.decoded
  dsimp only
  split
  · rfl
  · rw [kept _ (by rw [fault_recog, recog_line_setPlane])]; rfl
  · rw [kept _ (by rw [(occur_takes _ l _).recog_eq (by decide), fault_recog, recog_line_setPlane]), record_occur]; rfl
  · rfl

theorem requestOf_decoded {o : Owner} (h : o ≠ .condition l) : (s.decoded l code k).requestOf o = s.requestOf o := by
  have counted (t : Part) : (t.mutilate l).requestOf o = t.requestOf o := by
    unfold Part.mutilate
    split <;> rfl
  unfold Part.decoded
  dsimp only
  split
  · rfl
  · exact counted _
  · rw [counted, requestOf_occur h]; rfl
  · rfl

end
end Sys2Proof.Machine
end

section
/-! A received code handed on: in IDLE to the converter and the recognizer, in LOOP to the resend as well (01.2). -/

namespace Sys2Proof.Machine

/-- A character, or nothing, handed to the recognizer. -/
def Part.recogOption (s : Part) (l : LineNo) : Option Byte → Part
  | some c => s.recogChar l c
  | none => s

section
variable {s u : Part} {l : LineNo} {code : Code} {framing : Bool} {c : Option Byte} {k : Option FaultKind}

theorem takeCode_of_yields (h : s.yields l code framing c k) :
    s.takeCode l code framing = (s.decoded l code k).recogOption l c := by
  have kept : ((s.decoded l code k).line l).sched = (s.line l).sched := decoded_takes.sched_eq (by decide) l
  simp only [Part.takeCode, decode_of_yields h, kept, if_true]
  cases c <;> rfl

/-- Line `l` after its unit's change `f`, the occurrence of a framing flag, and its unit's change `g`. -/
def Part.arrived (s : Part) (l : LineNo) (f g : LineUnit → LineUnit) (framing : Bool) : Part :=
  ((s.updUnit l f).framingOccurs l framing).updUnit l g

variable (f g : LineUnit → LineUnit)

theorem arrived_takes : Act (· ∈ [.unit, .sup, .list]) s (s.arrived l f g framing) :=
  .unit l g (by decide) ((Act.unit l f (by decide) .refl).trans ((framingOccurs_takes framing).mono (by decide)))

theorem unit_arrived : ((s.arrived l f g framing).line l).unit = g (f (s.line l).unit) := by
  rw [Part.arrived, unit_updUnit, (framingOccurs_takes framing).unit_eq (by decide), unit_updUnit]

theorem line_arrived_ne {m : LineNo} (h : m ≠ l) : (s.arrived l f g framing).line m = s.line m := by
  rw [Part.arrived, line_updUnit_ne _ _ _ _ h, line_framingOccurs_ne h, line_updUnit_ne _ _ _ _ h]

theorem uncounted_arrived (m : LineNo) : ((s.arrived l f g framing).line m).sup.uncounted = (s.line m).sup.uncounted := by
  rw [Part.arrived, sup_line_updUnit, uncounted_framingOccurs, sup_line_updUnit]

theorem counter_arrived : ((s.arrived l f g framing).line l).sup.counter =
    if framing = true ∧ ((s.cfg l).counted = .framing ∨ (s.cfg l).counted = .framingMutilated) then
      min 65535 ((s.line l).sup.counter + 1) else (s.line l).sup.counter := by
  rw [Part.arrived, sup_line_updUnit, counter_framingOccurs, sup_line_updUnit]
  simp only [counts_framing_iff]
  rfl

theorem cond_framingOccurs {d : Condition} (h : d ≠ .countFull) (m : LineNo) :
    (s.framingOccurs l framing).cond m d = s.cond m d := by
  unfold Part.framingOccurs
  split
  · exact cond_occur _ _ _ _ h
  · rfl

theorem cond_arrived {d : Condition} (h : d ≠ .countFull) (m : LineNo) :
    (s.arrived l f g framing).cond m d = s.cond m d := by
  rw [Part.arrived, cond_of_sup (sup_line_updUnit _ _ _ _), cond_framingOccurs h, cond_of_sup (sup_line_updUnit _ _ _ _)]

theorem requestOf_arrived {o : Owner} (h : o ≠ .condition l) : (s.arrived l f g framing).requestOf o = s.requestOf o := by
  show ((s.updUnit l f).framingOccurs l framing).requestOf o = s.requestOf o
  unfold Part.framingOccurs
  split
  · exact requestOf_occur h _
  · rfl

theorem record_arrived (i : Slot) : (s.arrived l f g framing).record i = s.record i :=
  (arrived_takes f g).record_eq (by decide) (by decide) i

theorem inboundFields_congr {p : Plane} (hg : (u.line l).recog.tied = (s.line l).recog.tied)
    (hr : ∀ i, u.record i = s.record i) (hn : u.number = s.number) :
    u.inboundFields l code p = s.inboundFields l code p := by
  unfold Part.inboundFields
  rw [hg]
  split
  · simp only [Part.handle, Part.inRecord, hr, hn]
  · rfl

theorem inboundFields_arrived {p : Plane} : (s.arrived l f g framing).inboundFields l code p = s.inboundFields l code p :=
  inboundFields_congr (congrArg Recog.tied ((arrived_takes f g).recog_eq (by decide) l)) (record_arrived f g)
    (arrived_takes f g).number_eq

theorem plane_arrived : ((s.arrived l f g framing).line l).plane = (s.line l).plane :=
  (arrived_takes f g).plane_eq (by decide) l

theorem planeBehind_arrived : (s.arrived l f g framing).planeBehind l code = s.planeBehind l code := by
  have takes := arrived_takes (s := s) (l := l) (framing := framing) f g
  simp only [Part.planeBehind, takes.map_eq, takes.cfg_eq, plane_arrived]

end

section
variable {s : Part} {l : LineNo} {c : Option Byte} {k : Option FaultKind} {f g : LineUnit → LineUnit}

theorem formatChar_eq (e : MapEntry) : formatChar e = if e.cls = .format ∧ e.char ≠ 10 then none else some e.char := by
  unfold formatChar lineEnd
  by_cases hf : e.cls = .format
  · by_cases hc : e.char = 10
    · rw [if_pos hf, if_pos hc, if_neg fun h => h.2 hc, hc]
    · rw [if_pos hf, if_neg hc, if_pos ⟨hf, hc⟩]
  · rw [if_neg hf, if_neg fun h => hf h.1]

/-- A code handed to the recognizer alone is one that is converted with no fault. -/
theorem converts_of_delivers {ch : Byte} (h : s.delivers l ch) : s.converts l (some ch) none := by
  obtain ⟨ha, hr, hm, hs, hu, hq, hp, hc⟩ := h
  exact ⟨ha, hr, .inr (.inr (.inr ⟨hm, hs, hu, hq, .inl ⟨hp, rfl, by rw [← hc, formatChar_eq]⟩⟩))⟩

theorem framing_of_converts (h : s.converts l c k) : (s.mark l = false ↔ k = some .framing) := by
  obtain ⟨-, -, ⟨hm, -, -, rfl⟩ | ⟨hm, -, -, rfl⟩ | ⟨hm, -, -, -, rfl⟩ | ⟨hm, -, -, -, h⟩⟩ := h
  · simp [hm]
  · simp [hm]
  · simp [hm]
  · rcases h with ⟨-, rfl, -⟩ | ⟨-, -, rfl⟩ | ⟨-, -, rfl⟩ <;> simp [hm]

theorem handed_of_converts (h : s.converts l c k) : s.mark l = true ∨ (s.line l).unit.acc ≠ 0 := by
  obtain ⟨-, -, ⟨-, ha, -⟩ | ⟨hm, -⟩ | ⟨hm, -⟩ | ⟨hm, -⟩⟩ := h
  · exact .inr ha
  · exact .inl hm
  · exact .inl hm
  · exact .inl hm

theorem yields_arrived (h : s.converts l c k) (hst : ∀ x, (g (f x)).state = x.state) :
    (s.arrived l f g (!s.mark l)).yields l (s.line l).unit.acc (!s.mark l) c k := by
  have takes := arrived_takes (s := s) (l := l) (framing := !s.mark l) f g
  have enq (e : MapEntry) : (s.arrived l f g (!s.mark l)).enquires l e = s.enquires l e := by
    rw [Part.enquires, unit_arrived, hst, takes.cfg_eq]
    rfl
  obtain ⟨-, -, h⟩ := h
  simp only [Part.yields, takes.map_eq, takes.cfg_eq, takes.settings_eq, plane_arrived, enq]
  rcases h with ⟨hm, -, hc, hk⟩ | ⟨hm, hs, hc, hk⟩ | ⟨hm, hs, hu, hc, hk⟩ | ⟨hm, hs, hu, hq, h⟩
  · exact .inl ⟨by rw [hm]; rfl, hc, hk⟩
  · exact .inr (.inl ⟨by rw [hm]; rfl, hs, hc, hk⟩)
  · exact .inr (.inr (.inl ⟨by rw [hm]; rfl, hs, hu, hc, hk⟩))
  · refine .inr (.inr (.inr ⟨by rw [hm]; rfl, hs, hu, hq, ?_⟩))
    rw [formatChar_eq]
    exact h

/-- What the conversion of the code of line `l` with fault `k` leaves, the recognizer aside. -/
def Part.conversion (s : Part) (l : LineNo) (f g : LineUnit → LineUnit) (k : Option FaultKind) : Part :=
  (s.arrived l f g (!s.mark l)).decoded l (s.line l).unit.acc k

theorem conversion_takes : Act (· ∈ [.unit, .plane, .sup, .list, .record]) s (s.conversion l f g k) :=
  ((arrived_takes f g).mono (by decide)).trans (decoded_takes.mono (by decide))

theorem conversion_of_untied (h : (s.line l).recog.tied = none) :
    Act (· ∈ [.unit, .plane, .sup, .list]) s (s.conversion l f g k) := by
  refine ((arrived_takes f g).mono (by decide)).trans ((decoded_of_untied ?_).mono (by decide))
  rw [(arrived_takes f g).recog_eq (by decide), h]

theorem unit_conversion : ((s.conversion l f g k).line l).unit = g (f (s.line l).unit) := by
  rw [Part.conversion, decoded_takes.unit_eq (by decide), unit_arrived]

theorem line_conversion_ne {m : LineNo} (h : m ≠ l) : (s.conversion l f g k).line m = s.line m := by
  rw [Part.conversion, line_decoded_ne h, line_arrived_ne _ _ h]

theorem plane_conversion : ((s.conversion l f g k).line l).plane = s.planeBehind l (s.line l).unit.acc := by
  rw [Part.conversion, plane_decoded, planeBehind_arrived]

theorem cond_conversion {d : Condition} (h : d ≠ .countFull) (m : LineNo) : (s.conversion l f g k).cond m d = s.cond m d := by
  rw [Part.conversion, cond_decoded h, cond_arrived _ _ h]

theorem requestOf_conversion {o : Owner} (h : o ≠ .condition l) :
    (s.conversion l f g k).requestOf o = s.requestOf o := by
  rw [Part.conversion, requestOf_decoded h, requestOf_arrived _ _ h]

theorem hasRequest_conversion {o : Owner} (h : o ≠ .condition l) :
    (s.conversion l f g k).hasRequest o = s.hasRequest o := by
  rw [Part.hasRequest, requestOf_conversion h, Part.hasRequest]

theorem faultless_conversion (m : LineNo) : ((s.conversion l f g k).line m).sup.faultless = (s.line m).sup.faultless := by
  rw [Part.conversion, faultless_decoded]
  exact congrArg (fun x : Supervision => { x with faults := Vector.replicate 8 none }) (uncounted_arrived f g m)

theorem record_conversion_ne {j : Slot} (h : (s.line l).recog.tied ≠ some j) :
    (s.conversion l f g k).record j = s.record j := by
  rw [Part.conversion, record_decoded_ne (by rw [(arrived_takes f g).recog_eq (by decide)]; exact h), record_arrived]

theorem record_conversion {i : Slot} {r : Record} {x : InRecord} (ht : (s.line l).recog.tied = some i)
    (hr : s.record i = some r) (hb : r.body = .inbound x) :
    (s.conversion l f g k).record i = some { r with body := .inbound (x.mutilatedBy k) } :=
  record_decoded (by rw [(arrived_takes f g).recog_eq (by decide)]; exact ht) ((record_arrived f g i).trans hr) hb

theorem Converted.congr {s t u : Part} {l : LineNo} {k : Option FaultKind} {x : FaultFields} (h : Converted s t l k x)
    (hp : (u.line l).plane = (t.line l).plane) (hf : (u.line l).sup.faults = (t.line l).sup.faults)
    (hc : (u.line l).sup.counter = (t.line l).sup.counter) : Converted s u l k x := by
  simp only [Converted, FaultRecorded, hp, hf, hc]
  exact h

/-- The fields that a converter fault of the code of line `l` bears (R34). -/
theorem converted_conversion (h : s.converts l c k) :
    Converted s (s.conversion l f g k) l k (s.inboundFields l (s.line l).unit.acc (s.line l).plane) := by
  have faults : ((s.arrived l f g (!s.mark l)).line l).sup.faults = (s.line l).sup.faults :=
    congrArg (·.faults) (uncounted_arrived f g l)
  have cfg : (s.arrived l f g (!s.mark l)).cfg l = s.cfg l := (arrived_takes f g).cfg_eq l
  have fields : (s.arrived l f g (!s.mark l)).inboundFields l (s.line l).unit.acc
      ((s.arrived l f g (!s.mark l)).line l).plane = s.inboundFields l (s.line l).unit.acc (s.line l).plane := by
    rw [plane_arrived, inboundFields_arrived]
  refine ⟨plane_conversion, fun q hq => ?_, fun j hj => ?_, ?_⟩
  · subst hq
    have recorded := faultRecorded_decoded (s := s.arrived l f g (!s.mark l)) (l := l) (code := (s.line l).unit.acc) (k := q)
    rw [FaultRecorded, faults, fields] at recorded
    exact recorded
  · rw [Part.conversion, faults_decoded_ne hj, faults]
  · rw [Part.conversion, counter_decoded, counter_arrived, cfg]
    have mark : (!s.mark l) = true ↔ k = some .framing := by
      rw [← framing_of_converts h]
      cases s.mark l <;> decide
    simp only [mark]
    by_cases hk : k = some .framing
    · subst hk
      simp
    · simp [hk]

/-- A code received in IDLE (R6). -/
theorem sampleStop_of_idle (h : s.converts l c k) (hi : (s.line l).unit.state = .idle) : s.sampleStop l =
    (s.conversion l (fun x => { x with rcv := if s.mark l then .hunt else .waitMark }) id k).recogOption l c := by
  have yields := yields_arrived (f := fun x => { x with rcv := if s.mark l then .hunt else .waitMark }) (g := id) h
    fun _ => rfl
  have same (t : Part) : t.updUnit l id = t := by
    have lines : (t.updUnit l id).lines = t.lines := by
      refine lines_ext fun m => ?_
      by_cases hm : m = l
      · subst hm
        exact line_ext (unit_updUnit t m id) (plane_line_updUnit _ _ _ _) (recog_line_updUnit _ _ _ _)
          (sched_line_updUnit _ _ _ _) (texts_line_updUnit _ _ _ _) (sup_line_updUnit _ _ _ _)
      · exact line_updUnit_ne _ _ _ _ hm
    exact congrArg (fun ls => { t with lines := ls }) lines
  have state : ((s.updUnit l fun x => { x with rcv := if s.mark l then .hunt else .waitMark }).line l).unit.state = .idle := by
    rw [unit_updUnit]; exact hi
  rw [Part.conversion, ← takeCode_of_yields yields, Part.arrived, same, sampleStop_handed h.1 h.2.1 (handed_of_converts h),
    Part.handOn, state]

end
end Sys2Proof.Machine
end

section
/-! Codes received out of service and in LOOP (01.2, 01.5). -/

namespace Sys2Proof.Machine

/-! ### The resend of a loop (R16) -/

/-- A line unit with the codes `q` to resend, the oldest begun on a free output. -/
def Part.resendFrom (s : Part) (q : List Code) (x : LineUnit) : LineUnit :=
  match q with
  | [] => { x with resend := [] }
  | c :: cs =>
    if x.state = .loop ∧ x.out = none then
      { x with resend := cs, out := some { code := c, source := .loopResend, began := s.now, counts := true } }
    else { x with resend := c :: cs }

/-- A line unit with `code` among the codes to resend, where they are fewer than two. -/
def Part.resendUnit (s : Part) (code : Code) (x : LineUnit) : LineUnit :=
  s.resendFrom (if x.resend.length < 2 then x.resend ++ [code] else x.resend) x

section
variable {s : Part} {l : LineNo} {code : Code} {x : LineUnit}

theorem resendUnit_state (x : LineUnit) : (s.resendUnit code x).state = x.state := by
  unfold Part.resendUnit Part.resendFrom
  split
  · rfl
  · split <;> rfl

theorem resendUnit_of_free (hl : x.state = .loop) (ho : x.out = none) (hr : x.resend = []) : s.resendUnit code x =
    { x with out := some { code := code, source := .loopResend, began := s.now, counts := true } } := by
  simp [Part.resendUnit, Part.resendFrom, hl, ho, hr]

theorem resendUnit_of_busy (ho : x.out ≠ none) : s.resendUnit code x =
    { x with resend := if x.resend.length < 2 then x.resend ++ [code] else x.resend } := by
  have busy (q : List Code) : s.resendFrom q x = { x with resend := q } := by
    unfold Part.resendFrom
    split
    · rfl
    · rw [if_neg fun h => ho h.2]
  exact busy _

theorem startResend_filled (q : List Code) : (s.updUnit l fun x => { x with resend := q }).startResend l =
    s.updUnit l (s.resendFrom q) := by
  rw [Part.startResend, unit_updUnit]
  dsimp only
  cases q with
  | nil => rfl
  | cons c cs =>
    dsimp only
    split
    · next h =>
      rw [updUnit_updUnit, Part.beginCode, updUnit_updUnit]
      exact updUnit_congr (if_pos h).symm
    · next h => exact updUnit_congr (if_neg h).symm

theorem appendResend_eq : s.appendResend l code = s.updUnit l (s.resendUnit code) := by
  rw [Part.appendResend]
  refine Eq.trans ?_ ((startResend_filled _).trans (updUnit_congr rfl))
  exact congrArg (Part.startResend · l) (updUnit_congr rfl)

/-- The unit of a line whose code has been resent, its output free only with nothing to resend. -/
theorem resendUnit_eq (hl : x.state = .loop) (h : x.out = none → x.resend = []) : s.resendUnit code x =
    if x.out = none then { x with out := some { code := code, source := .loopResend, began := s.now, counts := true } }
    else { x with resend := if x.resend.length < 2 then x.resend ++ [code] else x.resend } := by
  by_cases ho : x.out = none
  · rw [if_pos ho, resendUnit_of_free hl ho (h ho)]
  · rw [if_neg ho, resendUnit_of_busy ho]

end

/-! ### A code received in LOOP (R6, R192) -/

section
variable {s : Part} {l : LineNo} {c : Option Byte} {k : Option FaultKind}

/-- A code received in LOOP is resent, and its character is counted by the detector. -/
theorem sampleStop_of_loop (h : s.converts l c k) (hi : (s.line l).unit.state = .loop) : s.sampleStop l =
    (s.conversion l (fun x => { x with rcv := if s.mark l then .hunt else .waitMark })
      (s.resendUnit (s.line l).unit.acc) k).recogOption l c := by
  have yields := yields_arrived (f := fun x => { x with rcv := if s.mark l then .hunt else .waitMark })
    (g := s.resendUnit (s.line l).unit.acc) h fun x => resendUnit_state _
  have state : ((s.updUnit l fun x => { x with rcv := if s.mark l then .hunt else .waitMark }).line l).unit.state = .loop := by
    rw [unit_updUnit]; exact hi
  have resend (t : Part) (ht : t.now = s.now) : t.resendUnit (s.line l).unit.acc = s.resendUnit (s.line l).unit.acc := by
    funext x
    simp only [Part.resendUnit, Part.resendFrom, ht]
  rw [Part.conversion, ← takeCode_of_yields yields, Part.arrived, sampleStop_handed h.1 h.2.1 (handed_of_converts h),
    Part.handOn, state]
  dsimp only
  rw [appendResend_eq, resend ((s.updUnit l _).framingOccurs l (!s.mark l)) (framingOccurs_takes (s := s.updUnit l _) _).now_eq]

theorem recogOption_of_loop (h : (s.line l).unit.state = .loop) : s.recogOption l c =
    match c with
    | some ch => s.loopChar l ch
    | none => s := by
  cases c with
  | none => rfl
  | some ch => exact if_pos h

/-- In LOOP every code read on mark is converted: none is an enquiry (R33). -/
theorem exists_converts_of_loop (ha : s.assembles l = true) (hr : (s.line l).unit.rcv = .stop) (hm : s.mark l = true)
    (hl : (s.line l).unit.state = .loop) : ∃ c k, s.converts l c k := by
  have quiet (e : MapEntry) : s.enquires l e = false := by simp [Part.enquires, hl]
  by_cases hs : shiftPlane (s.map l) (s.line l).unit.acc.toNat = none
  · by_cases hu : (s.readEntry l).cls = .unassigned
    · exact ⟨_, _, ha, hr, .inr (.inr (.inl ⟨hm, hs, hu, rfl, rfl⟩))⟩
    · have admitted {c : Option Byte} {k : Option FaultKind} (h : _) : s.converts l c k :=
        ⟨ha, hr, .inr (.inr (.inr ⟨hm, hs, hu, quiet _, h⟩))⟩
      cases hact : admissionOf s.settings.admission (s.cfg l).profile false (s.readEntry l).cls with
      | pass => exact ⟨_, _, admitted (.inl ⟨hact, rfl, rfl⟩)⟩
      | substitute => exact ⟨_, _, admitted (.inr (.inl ⟨hact, rfl, rfl⟩))⟩
      | drop => exact ⟨_, _, admitted (.inr (.inr ⟨.inl hact, rfl, rfl⟩))⟩
      | refuse => exact ⟨_, _, admitted (.inr (.inr ⟨.inr hact, rfl, rfl⟩))⟩
  · exact ⟨_, _, ha, hr, .inr (.inl ⟨hm, Option.isSome_iff_ne_none.mpr hs, rfl, rfl⟩)⟩

/-- A character that does not complete the loop-down run changes that run alone. -/
theorem loopChar_of_incomplete {ch : Byte} (hl : (s.line l).unit.state = .loop)
    (h : ∀ k, (s.cfg l).loopDown = some k → runAfter (ch == k) (s.line l).sup.loopDownRun ≠ (s.cfg l).loopN) :
    s.loopChar l ch = s ∨ ∃ n, s.loopChar l ch = s.updSup l fun x => { x with loopDownRun := n } := by
  unfold Part.loopChar
  dsimp only
  rw [hl]
  dsimp only
  cases hd : (s.cfg l).loopDown with
  | none => exact .inl rfl
  | some k => exact .inr ⟨_, if_neg (h k hd)⟩

theorem runAfter_le (b : Bool) (n : Nat) : runAfter b n ≤ n + 1 := by
  unfold runAfter
  split
  · exact Nat.le_refl _
  · split <;> omega

/-- What a character that does not complete the loop-down run leaves. -/
theorem counted_of_incomplete (hl : (s.line l).unit.state = .loop)
    (h : ∀ ch, c = some ch → ∀ k, (s.cfg l).loopDown = some k →
      runAfter (ch == k) (s.line l).sup.loopDownRun ≠ (s.cfg l).loopN) :
    s.recogOption l c = s ∨ ∃ n, s.recogOption l c = s.updSup l fun x => { x with loopDownRun := n } := by
  rw [recogOption_of_loop hl]
  cases c with
  | none => exact .inl rfl
  | some ch => exact loopChar_of_incomplete hl (h ch rfl)

/-- The line, and its supervision state, where a character has at most counted at the loop-down detector. -/
theorem line_of_counted {t : Part} (h : t = s ∨ ∃ n, t = s.updSup l fun x => { x with loopDownRun := n }) :
    { t.line l with sup := (s.line l).sup } = s.line l ∧
      { (t.line l).sup with loopDownRun := (s.line l).sup.loopDownRun } = (s.line l).sup ∧
      (∀ m, m ≠ l → t.line m = s.line m) ∧ Act (· ∈ [.sup]) s t := by
  rcases h with rfl | ⟨n, rfl⟩
  · exact ⟨rfl, rfl, fun _ _ => rfl, .refl⟩
  · refine ⟨line_ext (unit_line_updSup _ _ _ _) (plane_line_updSup _ _ _ _) (recog_line_updSup _ _ _ _)
      (sched_line_updSup _ _ _ _) (texts_line_updSup _ _ _ _) rfl, by rw [sup_updSup],
      fun m hm => line_updSup_ne _ _ _ _ hm, .sup _ _ (fun _ h => h) (by decide) .refl⟩

/-- A shift read on mark changes the decode plane alone. -/
theorem conversion_of_shift {f g : LineUnit → LineUnit} {p : Plane} (hm : s.mark l = true)
    (hs : shiftPlane (s.map l) (s.line l).unit.acc.toNat = some p) : s.conversion l f g none =
      (s.updUnit l fun x => g (f x)).setPlane l p := by
  have arrived : s.arrived l f g (!s.mark l) = s.updUnit l fun x => g (f x) := by
    rw [hm, Part.arrived]
    exact updUnit_updUnit s l f g
  have plane : s.planeBehind l (s.line l).unit.acc = p := by rw [Part.planeBehind, hs]; rfl
  rw [Part.conversion, Part.decoded, planeBehind_arrived, plane, arrived]

/-- Settles O17. -/
theorem codesOutOfServiceAndInLoop : Obligations.CodesOutOfServiceAndInLoop := by
  intro l s ha hstop x resent incomplete
  refine ⟨fun ho hm => ?_, fun ho hm hacc => ?_, fun hl hresend => ?_⟩
  · have state : ((s.updUnit l fun x => { x with rcv := .hunt }).line l).unit.state = .outOfService := by
      rw [unit_updUnit]; exact ho
    rw [exec_receivedCode, sampleStop_of_mark ha hstop hm, Part.handOn, state]
  · have state : ((s.updUnit l fun x => { x with rcv := .waitMark }).line l).unit.state = .outOfService := by
      rw [unit_updUnit]; exact ho
    rw [exec_receivedCode, sampleStop_of_space_ne_zero ha hstop hm hacc, Part.handOn, state]
  obtain ⟨f, hf⟩ : ∃ f : LineUnit → LineUnit, f = fun x => { x with rcv := if s.mark l then .hunt else .waitMark } := ⟨_, rfl⟩
  obtain ⟨g, hg⟩ : ∃ g : LineUnit → LineUnit, g = s.toPart.resendUnit x.acc := ⟨_, rfl⟩
  have unit : g (f x) = resent (if s.mark l then .hunt else .waitMark) := by
    rw [hg, hf]
    exact resendUnit_eq hl hresend
  have sampled {c : Option Byte} {k : Option FaultKind} (h : s.toPart.converts l c k) :
      exec (.receivedCode l) s = .next { s with toPart :=
        ((s.toPart.conversion l f g k).recogOption l c).serveBus } := by
    rw [exec_receivedCode, sampleStop_of_loop h hl, hf, hg]
  have loops (k : Option FaultKind) : ((s.toPart.conversion l f g k).line l).unit.state = .loop := by
    rw [unit_conversion, hg, resendUnit_state, hf]; exact hl
  have run (k : Option FaultKind) : ((s.toPart.conversion l f g k).line l).sup.loopDownRun = (s.line l).sup.loopDownRun :=
    congrArg (·.loopDownRun) (faultless_conversion l)
  have counted {c : Option Byte} {k : Option FaultKind} (hc : ∀ ch, c = some ch → incomplete ch) :=
    line_of_counted (counted_of_incomplete (loops k) (c := c) fun ch hch down hd => by
      rw [run, conversion_takes.cfg_eq]
      exact hc ch hch down (by rw [← hd, conversion_takes.cfg_eq]))
  have others {t : Part} {k : Option FaultKind} (h : ∀ m, m ≠ l → t.line m = (s.toPart.conversion l f g k).line m)
      (m : LineNo) (hm : m ≠ l) : t.line m = s.line m := by rw [h m hm, line_conversion_ne hm]
  refine ⟨fun p hm hp => ?_, fun hm hd => ?_, fun c hc hi => ?_, fun c k hc htied hi => ?_⟩
  · have converts : s.toPart.converts l none none := ⟨ha, hstop, .inr (.inl ⟨hm, by rw [hp]; rfl, rfl, rfl⟩)⟩
    rw [sampled converts, Part.recogOption, conversion_of_shift hm hp]
    have same : (s.updUnit l fun x => g (f x)) = s.updUnit l fun _ => resent .hunt :=
      updUnit_congr (unit.trans (by rw [hm]; rfl))
    rw [same]
  · obtain ⟨c, k, converts⟩ := exists_converts_of_loop ha hstop hm hl
    obtain ⟨line, -, rest, -⟩ := counted (c := c) (k := k) fun ch _ down hdown => by
      have le := runAfter_le (ch == down) (s.line l).sup.loopDownRun
      rcases hd with hd | hd
      · rw [hd] at hdown; cases hdown
      · omega
    refine ⟨_, sampled converts, ?_, ?_, ?_, ?_, others rest⟩
    · rw [(congrArg Line.unit line :), unit_conversion]
      exact unit.trans (by rw [hm]; rfl)
    · exact (congrArg Line.plane line).trans plane_conversion
    · exact (congrArg Line.recog line).trans (conversion_takes.recog_eq (by decide) l)
    · exact (congrArg Line.sched line).trans (conversion_takes.sched_eq (by decide) l)
  · have converts := converts_of_delivers hc
    obtain ⟨line, sup, rest, takes⟩ := counted (c := some c) (k := none) fun ch hch => by
      cases hch; exact hi
    have hm := hc.2.2.1
    have hs := hc.2.2.2.1
    have vsup : ((s.toPart.conversion l f g none).line l).sup = (s.line l).sup := by
      rw [Part.conversion, faults_decoded_none, hm, Part.arrived, sup_line_updUnit]
      exact sup_line_updUnit _ _ _ _
    have vtakes : Act (· ∈ [.unit, .plane, .sup]) s.toPart (s.toPart.conversion l f g none) := by
      rw [Part.conversion, hm]
      exact .plane _ _ (by decide) (.unit _ _ (by decide) (.unit _ _ (by decide) .refl))
    refine ⟨_, sampled converts, ?_, ?_, ?_, ?_, others rest, ?_⟩
    · rw [(congrArg Line.unit line :), unit_conversion]
      exact unit.trans (by rw [hm]; rfl)
    · refine (congrArg Line.plane line).trans (plane_conversion.trans ?_)
      rw [Part.planeBehind, hs]
      rfl
    · exact line_ext rfl rfl ((congrArg Line.recog line).trans (vtakes.recog_eq (by decide) l))
        ((congrArg Line.sched line).trans (vtakes.sched_eq (by decide) l))
        ((congrArg Line.texts line).trans (vtakes.texts_eq l)) rfl
    · rw [vsup] at sup
      exact sup
    · exact ((vtakes.trans (takes.mono (by decide))).mono (by decide)).rest_of_lines_only
  · obtain ⟨line, sup, rest, takes⟩ := counted (c := c) (k := k) hi
    have vtakes := conversion_of_untied (s := s.toPart) (l := l) (f := f) (g := g) (k := k) htied
    have fields : s.toPart.inboundFields l x.acc (s.line l).plane =
        { handle := none, serial := none, offset := 0, raw := some x.acc, plane := (s.line l).plane } := by
      unfold Part.inboundFields
      rw [htied]
    have converted := converted_conversion (f := f) (g := g) hc
    rw [fields] at converted
    refine ⟨_, sampled hc, ?_, converted.congr (congrArg Line.plane line :) ?_ ?_, ?_, ?_, others rest, ?_⟩
    · rw [(congrArg Line.unit line :), unit_conversion]
      exact unit
    · exact (congrArg Supervision.faults sup :)
    · exact (congrArg Supervision.counter sup :)
    · exact (congrArg Line.recog line).trans (vtakes.recog_eq (by decide) l)
    · exact (congrArg Line.sched line).trans (vtakes.sched_eq (by decide) l)
    · exact ((vtakes.trans (takes.mono (by decide))).mono (by decide)).rest_of_lines

end

end Sys2Proof.Machine
end

section
/-! The loop detectors: LOOP entered and left (10.2). -/

namespace Sys2Proof.Machine

/-! ### A character delivered (R28, R49) -/

section
variable {s : Part} {l : LineNo} {c : Byte} {f g : LineUnit → LineUnit}

theorem planeBehind_of_delivers (h : s.delivers l c) : s.planeBehind l (s.line l).unit.acc = s.planeRead l := by
  rw [Part.planeBehind, h.2.2.2.1]; rfl

theorem conversion_of_delivers (h : s.delivers l c) : s.conversion l f g none =
    (s.updUnit l fun x => g (f x)).setPlane l (s.planeRead l) := by
  have arrived : s.arrived l f g (!s.mark l) = s.updUnit l fun x => g (f x) := by
    rw [h.2.2.1, Part.arrived]
    exact updUnit_updUnit s l f g
  rw [Part.conversion, Part.decoded, planeBehind_arrived, planeBehind_of_delivers h, arrived]

/-- Line `l` after a character has been delivered, before the recognizer has it. -/
def Part.received (s : Part) (l : LineNo) : Part :=
  (s.updUnit l fun x => { x with rcv := .hunt }).setPlane l (s.planeRead l)

theorem line_received : (s.received l).line l =
    { s.line l with unit := { (s.line l).unit with rcv := .hunt }, plane := s.planeRead l } := by
  have unit : ((s.received l).line l).unit = { (s.line l).unit with rcv := .hunt } := by
    rw [Part.received, unit_line_setPlane, unit_updUnit]
  refine line_ext unit (plane_setPlane _ _ _) ?_ ?_ ?_ ?_ <;> simp [Part.received]

theorem line_received_ne {m : LineNo} (h : m ≠ l) : (s.received l).line m = s.line m := by
  rw [Part.received, line_setPlane_ne _ _ _ _ h, line_updUnit_ne _ _ _ _ h]

theorem received_takes : Act (· ∈ [.unit, .plane]) s (s.received l) :=
  .plane _ _ (by decide) (.unit _ _ (by decide) .refl)

theorem sampleStop_of_delivers (h : s.delivers l c) (hi : (s.line l).unit.state = .idle) :
    s.sampleStop l = (s.received l).recogChar l c := by
  rw [sampleStop_of_idle (converts_of_delivers h) hi, conversion_of_delivers h, h.2.2.1]
  rfl

/-- A character outside stories joins the opening window and is counted (R49, R51). -/
theorem recogChar_of_outside (hl : (s.line l).unit.state ≠ .loop) (ho : (s.line l).recog.state = .outside)
    (hw : slideWindow (s.cfg l).opening.length (s.line l).recog.window c ≠ (s.cfg l).opening) : s.recogChar l c =
      (s.updRecog l fun r => { r with window := slideWindow (s.cfg l).opening.length (s.line l).recog.window c }).loopChar
        l c := by
  rw [Part.recogChar, if_neg hl, if_pos ho]
  exact if_neg hw

end

/-! ### The detectors (R192) -/

section
variable {s : Part} {l : LineNo} {c : Byte}

theorem runAfter_eq (c k : Byte) (n : Nat) : runAfter (c == k) n = if c = k then n + 1 else if 8 ≤ n then n - 8 else 0 := by
  simp [runAfter]

theorem loopChar_of_silent (hi : (s.line l).unit.state = .idle) (h : (s.cfg l).mode ≠ .twoWay ∨ (s.cfg l).loopUp = none) :
    s.loopChar l c = s := by
  unfold Part.loopChar
  dsimp only
  rw [hi]
  dsimp only
  split
  · next hm hk =>
    rcases h with h | h
    · exact absurd hm h
    · rw [h] at hk; cases hk
  · rfl

theorem loopChar_of_up {k : Byte} (hi : (s.line l).unit.state = .idle) (hm : (s.cfg l).mode = .twoWay)
    (hk : (s.cfg l).loopUp = some k) : s.loopChar l c =
      if runAfter (c == k) (s.line l).sup.loopUpRun = (s.cfg l).loopN then s.enterLoop l
      else s.updSup l fun x => { x with loopUpRun := runAfter (c == k) (s.line l).sup.loopUpRun } := by
  unfold Part.loopChar
  dsimp only
  rw [hi]
  dsimp only
  rw [hm, hk]

theorem loopChar_of_down {k : Byte} (hi : (s.line l).unit.state = .loop)
    (hk : (s.cfg l).loopDown = some k) : s.loopChar l c =
      if runAfter (c == k) (s.line l).sup.loopDownRun = (s.cfg l).loopN then s.exitLoop l
      else s.updSup l fun x => { x with loopDownRun := runAfter (c == k) (s.line l).sup.loopDownRun } := by
  unfold Part.loopChar
  dsimp only
  rw [hi]
  dsimp only
  rw [hk]

end

/-! ### LOOP entered (R193, R168, R144) -/

section
variable (s : Part) (l : LineNo)

theorem current_holdStory (q : Piece) : ((s.holdStory l q).line l).sched.current = (s.line l).sched.current := by
  unfold Part.holdStory
  split
  · rfl
  · split
    · rfl
    · split
      · rfl
      · split
        · dsimp only
          rw [sched_updSched]
          rfl
        · rfl

/-- Line `l` stopped for the loop, its claims withdrawn and its window emptied, before the edge of LOOP. -/
def Part.looped (s : Part) (l : LineNo) : Part :=
  (((s.stop l .loop).endClaims l .withdraw).moveLine l .loop).updRecog l fun r => { r with window := [] }

theorem enterLoop_eq : s.enterLoop l = (s.looped l).setCond l .loop true := rfl

theorem enterLoop_takes : Act (· ∈ [.unit, .sched, .record, .list, .sup, .recog, .store, .notices]) s (s.enterLoop l) := by
  have ended : Act (· ∈ [.unit, .sched, .record, .list, .sup, .recog, .store, .notices]) s
      ((s.stop l .loop).endClaims l .withdraw) :=
    ((stop_takes s l .loop).mono (by decide)).trans ((endClaims_takes _ l .withdraw).mono (by decide))
  have looped : Act (· ∈ [.unit, .sched, .record, .list, .sup, .recog, .store, .notices]) s (s.looped l) := by
    unfold Part.looped
    rw [moveLine_eq]
    exact .recog _ _ (by decide) (.sup _ _ (fun _ h => h) (by decide) (.unit _ _ (by decide) ended))
  exact setCond_act (by decide) (by decide) _ _ _ looped

theorem line_enterLoop_ne {m : LineNo} (h : m ≠ l) : (s.enterLoop l).line m = s.line m := by
  rw [enterLoop_eq, line_setCond_ne _ _ _ _ _ h, Part.looped, line_updRecog_ne _ _ _ _ h, moveLine_eq,
    line_updSup_ne _ _ _ _ h, line_updUnit_ne _ _ _ _ h, endClaims_line, line_stop_ne _ h]

theorem unit_enterLoop : ((s.enterLoop l).line l).unit =
    { s.stopUnit l .loop (s.line l).unit with state := .loop, resend := [] } := by
  rw [enterLoop_eq, unit_line_setCond, Part.looped, unit_line_updRecog, moveLine_eq, unit_line_updSup, unit_updUnit,
    endClaims_line, unit_stop]

theorem sched_enterLoop : ((s.enterLoop l).line l).sched = ((s.stop l .loop).line l).sched := by
  rw [enterLoop_eq, sched_line_setCond, Part.looped, sched_line_updRecog, moveLine_eq, sched_line_updSup,
    sched_line_updUnit, endClaims_line]

theorem recog_enterLoop : ((s.enterLoop l).line l).recog = { (s.line l).recog with window := [] } := by
  rw [enterLoop_eq, recog_line_setCond, Part.looped, recog_updRecog, moveLine_eq, recog_line_updSup,
    recog_line_updUnit, endClaims_line, (stop_takes s l .loop).recog_eq (by decide)]

theorem runs_enterLoop : ((s.enterLoop l).line l).sup.loopUpRun = 0 ∧ ((s.enterLoop l).line l).sup.loopDownRun = 0 := by
  rw [enterLoop_eq, loopUpRun_sup_setCond, loopDownRun_sup_setCond, Part.looped, sup_line_updRecog, moveLine_eq, sup_updSup]
  exact ⟨rfl, rfl⟩

theorem recordView_enterLoop (i : Slot) : (s.enterLoop l).recordView i =
    ((s.stop l .loop).endClaims l .withdraw).recordView i := by
  rw [enterLoop_eq, recordView_setCond, Part.looped, recordView_updRecog, recordView_moveLine]

end

section
variable {s : Part} {l : LineNo} {i : Slot} {r : Record} {x : OutRecord}

/-- The story that a line entering LOOP was sending (R168). -/
theorem enterLoop_holds {n : Nat} (hcur : (s.line l).sched.current = some i) (hr : s.record i = some r)
    (hb : r.body = .outbound x) (hx : x.state = .sending) (hq : (s.line l).sched.piece = .story)
    (hp : (s.line l).sched.position = some n) :
    (s.enterLoop l).record i = some { r with body := .outbound { x with
        state := .heldBreak, resume := some (s.lineStart r n) } } ∧
      ((s.enterLoop l).line l).sched.position = none := by
  obtain ⟨hrec, -, hposition, -⟩ := holdStory_stopping hcur hr hb hx hp .loop
  rw [← hq, ← stop_of_hold (.inr (.inl rfl))] at hrec hposition
  have view := recordView_endClaims_of_notClaiming (l := l)
    (notClaiming_of_record (s := s.stop l .loop) hrec rfl nofun) .withdraw
  refine ⟨?_, by rw [sched_enterLoop]; exact hposition⟩
  exact (recordView_eq_iff.mp ((recordView_enterLoop s l i).trans view)).1.trans hrec

/-- A pending claim of the line withdrawn as it enters LOOP (R144). -/
theorem claimEnded_enterLoop {m : Claim} (hr : s.record i = some r) (hb : r.body = .outbound x) (hl : r.line = some l)
    (hx : x.state = .claiming) (hm : x.claim = some m) : ClaimEnded s (s.enterLoop l) i r x m :=
  (claimEnded_endClaims_of_view hr hb hl hx hm
    (recordView_stop_of_claiming hr hb hx (c := .loop) (by decide) l)).of_view rfl (recordView_enterLoop s l i)

end
end Sys2Proof.Machine
end

section
/-! Codes counted by the loop detectors (10.2, 03.1). -/

namespace Sys2Proof.Machine

section
variable (s : Part) (l : LineNo) (c : Byte)

theorem loopChar_takes : Act (· ∈ [.unit, .sched, .record, .list, .sup, .recog, .store, .notices]) s (s.loopChar l c) := by
  have counts (f : Supervision → Supervision) (hf : ∀ x : Supervision, x.Bounded → (f x).Bounded) :
      Act (· ∈ [.unit, .sched, .record, .list, .sup, .recog, .store, .notices]) s (s.updSup l f) :=
    .sup _ _ hf (by decide) .refl
  unfold Part.loopChar
  dsimp only
  split
  · split
    · split
      · exact enterLoop_takes s l
      · exact counts _ fun _ h => h
    · exact .refl
  · split
    · split
      · exact (exitLoop_takes s l).mono (by decide)
      · exact counts _ fun _ h => h
    · exact .refl
  · exact .refl

theorem line_loopChar_ne {m : LineNo} (h : m ≠ l) : (s.loopChar l c).line m = s.line m := by
  unfold Part.loopChar
  dsimp only
  split
  · split
    · split
      · exact line_enterLoop_ne s l h
      · exact line_updSup_ne _ _ _ _ h
    · rfl
  · split
    · split
      · exact line_exitLoop_ne h
      · exact line_updSup_ne _ _ _ _ h
    · rfl
  · rfl

theorem unit_exitLoop : ((s.exitLoop l).line l).unit =
    { (s.line l).unit with state := .idle, resend := [], markSince := s.markRun l } := by
  rw [Part.exitLoop, restartMarkRun_eq, unit_updUnit, unit_line_setCond, moveLine_eq, unit_line_updSup, unit_updUnit]
  have mark : Part.markRun (((s.updUnit l fun x => { x with state := .idle, resend := [] }).updSup l fun x =>
      { x with loopUpRun := 0, loopDownRun := 0 }).setCond l .loop false) l = s.markRun l := by
    have takes := setCond_act (K := (· ∈ [.unit, .sup, .list])) (by decide) (by decide) l .loop false
      (Act.sup (s := s) l (fun x => { x with loopUpRun := 0, loopDownRun := 0 }) (fun _ h => h) (by decide)
        (.unit l (fun x => { x with state := .idle, resend := [] }) (by decide) .refl))
    have level := takes.rx_eq (by decide)
    have now := takes.now_eq
    rw [Part.markRun, Part.mark, level, now]
    rfl
  rw [mark]

theorem runs_exitLoop : ((s.exitLoop l).line l).sup.loopUpRun = 0 ∧ ((s.exitLoop l).line l).sup.loopDownRun = 0 := by
  rw [Part.exitLoop, restartMarkRun_eq, sup_line_updUnit, loopUpRun_sup_setCond, loopDownRun_sup_setCond, moveLine_eq,
    sup_updSup]
  exact ⟨rfl, rfl⟩

end

section
variable {s : Part} {l : LineNo} {c : Byte}

/-- Line `l` after a character that has joined the opening window. -/
def Part.windowed (s : Part) (l : LineNo) (w : List Byte) : Part := (s.received l).updRecog l fun r => { r with window := w }

theorem line_windowed (w : List Byte) : (s.windowed l w).line l = { s.line l with
    unit := { (s.line l).unit with rcv := .hunt }, plane := s.planeRead l, recog := { (s.line l).recog with window := w } } := by
  have line := line_received (s := s) (l := l)
  refine line_ext ?_ ?_ ?_ ?_ ?_ ?_
  · rw [Part.windowed, unit_line_updRecog, line]
  · rw [Part.windowed, plane_line_updRecog, line]
  · rw [Part.windowed, recog_updRecog, line]
  · rw [Part.windowed, sched_line_updRecog, line]
  · rw [Part.windowed, texts_line_updRecog, line]
  · rw [Part.windowed, sup_line_updRecog, line]

theorem windowed_takes (w : List Byte) : Act (· ∈ [.unit, .plane, .recog]) s (s.windowed l w) :=
  .recog _ _ (by decide) (received_takes.mono (by decide))

theorem line_windowed_ne (w : List Byte) {m : LineNo} (h : m ≠ l) : (s.windowed l w).line m = s.line m := by
  rw [Part.windowed, line_updRecog_ne _ _ _ _ h, line_received_ne h]

theorem sampleStop_of_outside (h : s.delivers l c) (hi : (s.line l).unit.state = .idle)
    (ho : (s.line l).recog.state = .outside)
    (hw : slideWindow (s.cfg l).opening.length (s.line l).recog.window c ≠ (s.cfg l).opening) : s.sampleStop l =
      (s.windowed l (slideWindow (s.cfg l).opening.length (s.line l).recog.window c)).loopChar l c := by
  have recog : ((s.received l).line l).recog = (s.line l).recog := by rw [line_received]
  have cfg : (s.received l).cfg l = s.cfg l := received_takes.cfg_eq l
  rw [sampleStop_of_delivers h hi, recogChar_of_outside, cfg, recog]
  · rfl
  · rw [line_received]; exact fun e => by rw [hi] at e; cases e
  · rw [recog]; exact ho
  · rw [recog, cfg]; exact hw

/-- What entering LOOP at a character of the opening window's line does (R193, R168, R144). -/
theorem enterLoop_windowed (w : List Byte) :
    let u := (s.line l).unit
    let g := (s.line l).recog
    let k := (s.line l).sched
    let t := (s.windowed l w).enterLoop l
    (t.line l).unit.state = .loop ∧ (t.line l).unit.resend = [] ∧ (t.line l).unit.awaitReady = true ∧
      (t.line l).unit.lastStop = some .loop ∧ t.cond l .loop = true ∧ (t.line l).sup.loopUpRun = 0 ∧
      (t.line l).sup.loopDownRun = 0 ∧ (t.line l).recog = { g with window := [] } ∧
      (t.line l).plane = s.planeRead l ∧ (t.line l).sched.running = false ∧
      (t.line l).sched.piece = .none ∧ (t.line l).sched.queue = k.queue ∧
      (t.line l).sched.current = k.current ∧
      (u.out = none → (t.line l).unit.out = none) ∧
      (∀ o, u.out = some o → o.source = .scheduler → o.counts = true →
        (t.line l).unit.out = if (s.cfg l).immediate then none else some { o with counts := false }) ∧
      (∀ i r x n, k.current = some i → s.record i = some r → r.body = .outbound x → x.state = .sending →
        k.piece = .story → k.position = some n →
        t.record i = some { r with body := .outbound { x with
          state := .heldBreak, resume := some (s.lineStart r n) } } ∧
        (t.line l).sched.position = none) ∧
      (∀ i r x m, s.record i = some r → r.body = .outbound x → r.line = some l → x.state = .claiming →
        x.claim = some m →
        (s.frameUnderWay (.record i) = false → t.record i = none ∧ t.hasRequest (.record i) = false) ∧
        (s.frameUnderWay (.record i) = true → m.ending = none →
          t.record i = some { r with body := .outbound { x with
            claim := some { m with since := none, ending := some .withdraw } } })) := by
  intro u g k
  obtain ⟨v, hv⟩ : ∃ v, v = s.windowed l w := ⟨_, rfl⟩
  have vline := hv ▸ line_windowed (s := s) (l := l) w
  have takes : Act (· ∈ [.unit, .plane, .recog]) s v := hv ▸ windowed_takes w
  have vsched : (v.line l).sched = k := by rw [vline]
  have vunit : (v.line l).unit = { u with rcv := .hunt } := by rw [vline]
  have vrecord (i : Slot) : v.record i = s.record i := takes.record_eq (by decide) (by decide) i
  have vcfg : v.cfg l = s.cfg l := takes.cfg_eq l
  have vport : v.port = s.port := takes.port_eq (by decide) (by decide)
  have vstart (r : Record) (n : Nat) : v.lineStart r n = s.lineStart r n :=
    lineStart_congr (s := s) (t := v) (fun r n => outEntry_of_mem (takes.mem_eq (by decide)) r n) r n
  rw [← hv]
  intro t
  have stopped := senderStopped_stop v l .loop
  refine ⟨?_, ?_, ?_, ?_, ?_, (runs_enterLoop v l).1, (runs_enterLoop v l).2, ?_, ?_, ?_, ?_, ?_, ?_, fun ho => ?_,
    fun o ho hs hn => ?_, fun i r x n hcur hr hb hx hq hp => ?_, fun i r x m hr hb hl hx hm => ?_⟩
  · rw [unit_enterLoop]
  · rw [unit_enterLoop]
  · rw [unit_enterLoop]; rfl
  · rw [unit_enterLoop]; rfl
  · exact cond_setCond_self _ _ _ _
  · rw [recog_enterLoop, vline]
  · exact ((enterLoop_takes v l).plane_eq (by decide) l).trans (by rw [vline])
  · rw [sched_enterLoop]; exact stopped.1
  · rw [sched_enterLoop]; exact stopped.2
  · rw [sched_enterLoop, queue_stop_of_hold (.inr (.inl rfl)), vsched]
  · rw [sched_enterLoop, stop_of_hold (.inr (.inl rfl)), current_holdStory, sched_stopping, vsched]
  · rw [unit_enterLoop, vunit]
    exact stopUnit_out_of_none ho
  · rw [unit_enterLoop, vunit]
    cases hi : (s.cfg l).immediate with
    | true => exact stopUnit_out_of_immediate ho hs hn (by rw [vcfg]; exact hi) (by decide)
    | false => exact stopUnit_out_of_character ho hs hn (by rw [vcfg]; exact hi) (by decide)
  · have held := enterLoop_holds (s := v) (by rw [vsched]; exact hcur) (by rw [vrecord]; exact hr) hb hx
      (by rw [vsched]; exact hq) (by rw [vsched]; exact hp)
    rw [vstart] at held
    exact held
  · obtain ⟨idle, underWay, -⟩ := claimEnded_enterLoop (s := v) (by rw [vrecord]; exact hr) hb hl hx hm
    rw [Part.frameUnderWay, vport] at idle underWay
    exact ⟨idle, underWay⟩

/-- What a character that completes the loop-down run leaves: the line in IDLE, its resend emptied (R194). -/
theorem exitLoop_resent (h : s.delivers l c) (hl : (s.line l).unit.state = .loop)
    (hr : (s.line l).unit.out = none → (s.line l).unit.resend = []) :
    let u := (s.line l).unit
    let t := ((s.updUnit l fun x => s.resendUnit u.acc { x with rcv := .hunt }).setPlane l (s.planeRead l)).exitLoop l
    (t.line l).unit = { u with
        state := .idle, rcv := .hunt, resend := [], markSince := some s.now
        out := if u.out = none then some { code := u.acc, source := .loopResend, began := s.now, counts := true }
          else u.out } ∧
      t.cond l .loop = false ∧ (t.line l).sup.loopUpRun = 0 ∧ (t.line l).sup.loopDownRun = 0 ∧
      (t.line l).plane = s.planeRead l ∧ (t.line l).recog = (s.line l).recog ∧ (t.line l).sched = (s.line l).sched ∧
      t.records = s.records := by
  intro u
  obtain ⟨v, hv⟩ : ∃ v, v = (s.updUnit l fun x => s.resendUnit u.acc { x with rcv := .hunt }).setPlane l (s.planeRead l) :=
    ⟨_, rfl⟩
  have vunit : (v.line l).unit = if u.out = none then
        { u with rcv := .hunt, out := some { code := u.acc, source := .loopResend, began := s.now, counts := true } }
      else { u with rcv := .hunt, resend := if u.resend.length < 2 then u.resend ++ [u.acc] else u.resend } := by
    rw [hv, unit_line_setPlane, unit_updUnit]
    exact resendUnit_eq hl hr
  have takes : Act (· ∈ [.unit, .plane]) s v := hv ▸ .plane _ _ (by decide) (.unit _ _ (by decide) .refl)
  have mark : v.markRun l = some s.now := by
    have level : v.mark l = true := by rw [hv]; exact h.2.2.1
    rw [Part.markRun, if_pos level, takes.now_eq]
  rw [← hv]
  intro t
  have exits := exitLoop_takes v l
  refine ⟨?_, ?_, (runs_exitLoop v l).1, (runs_exitLoop v l).2, ?_, ?_, ?_, ?_⟩
  · rw [unit_exitLoop, vunit, mark]
    split <;> rfl
  · rw [cond_exitLoop, if_pos rfl]
  · rw [exits.plane_eq (by decide), hv, plane_setPlane]
  · rw [exits.recog_eq (by decide), takes.recog_eq (by decide)]
  · rw [exits.sched_eq (by decide), takes.sched_eq (by decide)]
  · rw [exits.records_eq (by decide) (by decide), takes.records_eq (by decide) (by decide)]

theorem sampleStop_of_loop_delivers (h : s.delivers l c) (hl : (s.line l).unit.state = .loop) : s.sampleStop l =
    ((s.updUnit l fun x => s.resendUnit (s.line l).unit.acc { x with rcv := .hunt }).setPlane l
      (s.planeRead l)).loopChar l c := by
  have state : (((s.updUnit l fun x => s.resendUnit (s.line l).unit.acc { x with rcv := .hunt }).setPlane l
      (s.planeRead l)).line l).unit.state = .loop := by
    rw [unit_line_setPlane, unit_updUnit, resendUnit_state]; exact hl
  rw [sampleStop_of_loop (converts_of_delivers h) hl, conversion_of_delivers h, h.2.2.1]
  exact recogOption_of_loop state

end

/-- Settles O23. -/
theorem loopCodesCounted : Obligations.LoopCodesCounted := by
  intro l c s h u g k cfg window counted
  have run (q : Byte) (n : Nat) : runAfter (c == q) n = counted q n := runAfter_eq c q n
  refine ⟨_, exec_receivedCode l s, fun hi ho hw => ?_, fun down hl hd hr => ?_, fun hlines => ?_⟩
  · have eq : s.toPart.sampleStop l = (s.toPart.windowed l window).loopChar l c := sampleStop_of_outside h hi ho hw
    have takes := windowed_takes (s := s.toPart) (l := l) window
    have line := line_windowed (s := s.toPart) (l := l) window
    have state : ((s.toPart.windowed l window).line l).unit.state = .idle := by rw [line]; exact hi
    have wcfg : (s.toPart.windowed l window).cfg l = cfg := takes.cfg_eq l
    have wrun : ((s.toPart.windowed l window).line l).sup.loopUpRun = (s.line l).sup.loopUpRun := by rw [line]
    have up {q : Byte} (hm : cfg.mode = .twoWay) (hq : cfg.loopUp = some q) := loopChar_of_up (c := c) state
      (by rw [wcfg]; exact hm) (by rw [wcfg]; exact hq)
    refine ⟨fun hs => ?_, fun q hm hq hn => ?_, fun q hm hq hn => ?_, ?_⟩
    · rw [eq, loopChar_of_silent state (by rw [wcfg]; exact hs), line]
    · rw [eq, up hm hq, if_neg (by rw [run, wrun, wcfg]; exact hn), run, wrun]
      refine line_ext ?_ ?_ ?_ ?_ ?_ ?_
      · rw [unit_line_updSup, line]
      · rw [plane_line_updSup, line]
      · rw [recog_line_updSup, line]
      · rw [sched_line_updSup, line]
      · rw [texts_line_updSup, line]
      · rw [sup_updSup, line]
    · rw [eq, up hm hq, if_pos (by rw [run, wrun, wcfg]; exact hn)]
      exact enterLoop_windowed window
    · rw [eq, (loopChar_takes _ l c).mem_eq (by decide), takes.mem_eq (by decide)]
  · obtain ⟨v, hv⟩ : ∃ v, v = (s.toPart.updUnit l fun x => s.toPart.resendUnit u.acc { x with rcv := .hunt }).setPlane l
      (s.toPart.planeRead l) := ⟨_, rfl⟩
    have eq : s.toPart.sampleStop l = v.loopChar l c := hv ▸ sampleStop_of_loop_delivers h hl
    have takes : Act (· ∈ [.unit, .plane]) s.toPart v := hv ▸ .plane _ _ (by decide) (.unit _ _ (by decide) .refl)
    have state : (v.line l).unit.state = .loop := by
      rw [hv, unit_line_setPlane, unit_updUnit, resendUnit_state]; exact hl
    have vcfg : v.cfg l = cfg := takes.cfg_eq l
    have vrun : (v.line l).sup.loopDownRun = (s.line l).sup.loopDownRun := by rw [takes.sup_eq (by decide)]
    have step := loopChar_of_down (c := c) state (by rw [vcfg]; exact hd)
    refine ⟨fun hn => ?_, fun hn => ?_⟩
    · rw [eq, step, if_neg (by rw [run, vrun, vcfg]; exact hn), run, vrun]
      refine ⟨by rw [unit_line_updSup]; exact state, by rw [sup_updSup, takes.sup_eq (by decide)], ?_, ?_, ?_⟩
      · rw [recog_line_updSup, takes.recog_eq (by decide)]
      · rw [sched_line_updSup, takes.sched_eq (by decide)]
      · rw [updSup_records, takes.records_eq (by decide) (by decide)]
    · rw [eq, step, if_pos (by rw [run, vrun, vcfg]; exact hn), hv]
      exact exitLoop_resent h hl hr
  · have told {v : Part} (eq : s.toPart.sampleStop l = v.loopChar l c) (takes : Act (· ∈ [.unit, .plane, .recog]) s.toPart v)
        (rest : ∀ m, m ≠ l → v.line m = s.line m) :
        (∀ m, m ≠ l → (s.toPart.sampleStop l).line m = s.line m) ∧ (s.toPart.sampleStop l).register = s.register ∧
          (s.toPart.sampleStop l).trackers = s.trackers ∧ (s.toPart.sampleStop l).groups = s.groups ∧
          (s.toPart.sampleStop l).rx = s.rx := by
      have counts := loopChar_takes v l c
      rw [eq]
      exact ⟨fun m hm => (line_loopChar_ne v l c hm).trans (rest m hm),
        (counts.register_eq (by decide)).trans (takes.register_eq (by decide)),
        (counts.trackers_eq (by decide)).trans (takes.trackers_eq (by decide)),
        (counts.groups_eq (by decide)).trans (takes.groups_eq (by decide)),
        (counts.rx_eq (by decide)).trans (takes.rx_eq (by decide))⟩
    rcases hlines with hl | ⟨hi, ho, hw⟩
    · exact told (sampleStop_of_loop_delivers h hl) (.plane _ _ (by decide) (.unit _ _ (by decide) .refl)) fun m hm => by
        rw [line_setPlane_ne _ _ _ _ hm, line_updUnit_ne _ _ _ _ hm]
    · exact told (sampleStop_of_outside h hi ho hw) (windowed_takes _) fun m hm => line_windowed_ne _ hm

end Sys2Proof.Machine
end

section
/-! A character taken as text (03.2, 03.7): stored behind the story's last, at the length limit, or lost. -/

namespace Sys2Proof.Machine

/-- `t` is `s` with one more entry `c` of the story of `r`, in slot `i`, stored in the last of `blocks` (R56, R74). -/
structure Stores (s t : Part) (i : Slot) (r : Record) (blocks : List Nat) (c : Byte) : Prop where
  record : t.record i = some { r with count := r.count + 1, blocks := blocks }
  others : ∀ j, j ≠ i → t.record j = s.record j
  mem : t.mem = s.mem.write (entryAddr blocks r.count) c
  free : t.free = s.free.drop (blocks.length - r.blocks.length)
  request : ∀ o, o ≠ .station → t.requestOf o = s.requestOf o
  rest : { t with mem := s.mem, records := s.records, free := s.free, port := s.port, notices := s.notices } = s

theorem writeEntry_eq {s : Part} {i : Slot} {r : Record} (hr : s.record i = some r) (b : Byte) : s.writeEntry i b =
    ({ s with mem := s.mem.write (entryAddr r.blocks r.count) b } : Part).setRecord i
      (some { r with count := r.count + 1 }) := by
  rw [Part.writeEntry, hr]
  exact updRecord_eq (s := { s with mem := s.mem.write (entryAddr r.blocks r.count) b }) hr _

theorem full_iff (r : Record) : r.full = true ↔ r.count = 64 * r.blocks.length := by
  rw [Record.full, beq_iff_eq, Nat.mul_comm]
  rfl

section
variable {s : Part} {i : Slot} {r : Record} {blocks : List Nat} {c : Byte}

/-- Where there is room, a character is stored. -/
theorem storeChar_of_room (hr : s.record i = some r) (h : s.room r blocks) :
    ∃ t, s.storeChar i c = (t, true) ∧ Stores s t i r blocks c := by
  rcases h with ⟨hc, rfl⟩ | ⟨hc, b, rest, hf, rfl⟩
  · have full : r.full = false := by
      rw [← Bool.not_eq_true, full_iff]; exact hc
    refine ⟨_, by rw [Part.storeChar, hr]; dsimp only; rw [full]; rfl, ?_⟩
    rw [writeEntry_eq hr]
    exact ⟨record_setRecord_self _ _ _, fun j hj => record_setRecord_ne _ _ _ _ hj, rfl, by simp, fun _ _ => rfl, rfl⟩
  · have full : r.full = true := (full_iff r).mpr hc
    obtain ⟨u, hu⟩ : ∃ u, u = (({ s with free := rest } : Part).setRecord i (some { r with blocks := r.blocks ++ [b] })).judgeStore :=
      ⟨_, rfl⟩
    have record : u.record i = some { r with blocks := r.blocks ++ [b] } := by
      rw [hu, judgeStore_record, record_setRecord_self]
    refine ⟨u.writeEntry i c, ?_, ?_⟩
    · rw [Part.storeChar, hr]
      dsimp only
      rw [full, takeBlock_of_free hr hf, ← hu]
      rfl
    · have mem : u.mem = s.mem := by rw [hu, judgeStore_mem]; rfl
      have urest : u = { s with free := rest, records := u.records, notices := u.notices, port := u.port } := by
        rw [hu, judgeStore_eq]
        rfl
      rw [writeEntry_eq record]
      refine ⟨record_setRecord_self _ _ _, fun j hj => ?_, ?_, ?_, fun o ho => ?_, ?_⟩
      · rw [record_setRecord_ne _ _ _ _ hj, Part.record]
        show u.record j = s.record j
        rw [hu, judgeStore_record, record_setRecord_ne _ _ _ _ hj]; rfl
      · show u.mem.write _ _ = _
        rw [mem]
      · show u.free = _
        rw [hu, judgeStore_free, hf]
        simp
      · show u.requestOf o = s.requestOf o
        rw [hu, requestOf_judgeStore _ ho]; rfl
      · rw [urest]; rfl

/-- With no block to be had a character is not stored. -/
theorem storeChar_of_none (hr : s.record i = some r) (hc : r.count = 64 * r.blocks.length) (hf : s.free = [])
    (hn : s.recent = []) : s.storeChar i c = (s, false) := by
  have full : r.full = true := (full_iff r).mpr hc
  have stays : evictUntil (fun s => !s.free.isEmpty) s.recent.length s = s := by rw [hn]; rfl
  have take : s.takeBlock i = (s, false) := by simp only [Part.takeBlock, stays, hf]
  rw [Part.storeChar, hr]
  dsimp only
  rw [full, take]
  rfl

end

/-! ### Taking a character for a story -/

section
variable {s t : Part} {l : LineNo} {i : Slot} {r : Record} {c : Byte}

theorem Stores.lines {blocks : List Nat} (h : Stores s t i r blocks c) : t.lines = s.lines := (congrArg Part.lines h.rest :)

theorem Stores.line {blocks : List Nat} (h : Stores s t i r blocks c) (m : LineNo) : t.line m = s.line m := by
  rw [Part.line, h.lines]; rfl

theorem Stores.now {blocks : List Nat} (h : Stores s t i r blocks c) : t.now = s.now := (congrArg Part.now h.rest :)

theorem takeInto_of_stored (hr : s.record i = some r) (hc : r.count ≠ 16000) (ht : s.storeChar i c = (t, true)) :
    s.takeInto l i c = (((t.updRecog l fun g => { g with overrun := false }).silentTakeover i).requestNext i, true) := by
  rw [Part.takeInto, hr, if_neg (by exact hc), ht]

theorem takeInto_of_lost (hr : s.record i = some r) (hc : r.count ≠ 16000) (ht : s.storeChar i c = (t, false)) :
    s.takeInto l i c = (t.loseChar l i, true) := by
  rw [Part.takeInto, hr, if_neg (by exact hc), ht]

theorem takeInto_of_limit (hr : s.record i = some r) (hc : r.count = 16000) :
    s.takeInto l i c = ((s.closeStory l true).goDiscarding l, false) := by
  rw [Part.takeInto, hr, if_pos (by exact hc)]

theorem loseChar_takes : Act (· ∈ [.recog, .sup, .record]) s (s.loseChar l i) := by
  have lost : Act (· ∈ [.recog, .sup, .record]) s (s.updIn i fun x => { x with overrun := true }) :=
    updIn_act (by decide) _ _ .refl
  unfold Part.loseChar
  dsimp only
  split
  · exact lost
  · exact .recog _ _ (by decide) (fault_act (by decide) _ _ _ lost)

theorem goDiscarding_takes : Act (· ∈ [.recog]) s (s.goDiscarding l) := .recog _ _ (by decide) .refl

/-- The kinds of change of a character taken for a story. -/
abbrev textKinds : Kind → Prop := (· ∈ [.recog, .sup, .list, .record, .store, .notices, .mem])

theorem closeStory_takes (tr : Bool) : Act (· ∈ [.recog, .sup, .list, .record, .store, .notices]) s (s.closeStory l tr) := by
  cases ht : (s.line l).recog.tied with
  | none => rw [closeStory_of_untied s l tr ht]; exact .refl
  | some i =>
    rw [closeStory_of_tied s l i tr ht]
    exact .recog _ _ (by decide) ((endStory_takes s l i tr).mono (by decide))

theorem takeInto_takes : Act textKinds s (s.takeInto l i c).1 := by
  unfold Part.takeInto
  split
  · exact ((closeStory_takes true).mono (by decide)).trans (goDiscarding_takes.mono (by decide))
  · have stored : Act textKinds s (s.storeChar i c).1 := (storeChar_takes s i c).mono (by decide)
    split
    · next t e =>
      rw [e] at stored
      have seen : Act textKinds s (t.updRecog l fun r => { r with overrun := false }) := .recog _ _ (by decide) stored
      exact (seen.trans ((silentTakeover_takes _ i).mono (by decide))).trans ((requestNext_lists _ i).mono (by decide))
    · next t e =>
      rw [e] at stored
      exact stored.trans (loseChar_takes.mono (by decide))

end

/-! ### A character for the recognizer of a story (R52, R67) -/

section
variable (s : Part) (l : LineNo)

/-- Line `l` as a character reaches the recognizer of its story: the stall timer started afresh, STALL low. -/
def Part.attending (s : Part) (l : LineNo) : Part :=
  (s.updRecog l fun r => { r with stallSince := some s.now }).setCond l .stall false

theorem recog_attending : ((s.attending l).line l).recog = { (s.line l).recog with stallSince := some s.now } := by
  rw [Part.attending, recog_line_setCond, recog_updRecog]

theorem attending_takes : Act (· ∈ [.recog, .sup, .list]) s (s.attending l) :=
  setCond_act (by decide) (by decide) _ _ _ (.recog _ _ (by decide) .refl)

theorem line_attending_ne {m : LineNo} (h : m ≠ l) : (s.attending l).line m = s.line m := by
  rw [Part.attending, line_setCond_ne _ _ _ _ _ h, line_updRecog_ne _ _ _ _ h]

theorem recordView_attending (i : Slot) : (s.attending l).recordView i = s.recordView i := by
  rw [Part.attending, recordView_setCond, recordView_updRecog]

theorem unflagged_attending (m : LineNo) : ((s.attending l).line m).sup.unflagged = (s.line m).sup.unflagged := by
  rw [Part.attending, sup_line_setCond, sup_line_updRecog]

theorem faults_attending (m : LineNo) : ((s.attending l).line m).sup.faults = (s.line m).sup.faults :=
  congrArg (·.faults) (unflagged_attending s l m)

theorem cond_attending_stall : (s.attending l).cond l .stall = false := cond_setCond_self _ _ _ _

theorem cond_attending {c : Condition} (h : c ≠ .stall) (m : LineNo) : (s.attending l).cond m c = s.cond m c := by
  rw [Part.attending, cond_setCond_ne _ _ _ _ _ h]
  exact cond_of_sup (sup_line_updRecog _ _ _ _)

theorem requestOf_attending {o : Owner} (h : o ≠ .condition l) : (s.attending l).requestOf o = s.requestOf o := by
  rw [Part.attending, requestOf_setCond_ne (o := o) _ _ _ _ h]; rfl

theorem insideChar_eq (c : Byte) : s.insideChar l c =
    if (s.line l).recog.lineStart = true ∨ (s.line l).recog.lookahead ≠ [] then (s.attending l).takeLookahead l c
    else (s.attending l).takeText l c := by
  unfold Part.insideChar
  dsimp only
  have eq : ((s.updRecog l fun r => { r with stallSince := some s.now }).setCond l .stall false) = s.attending l := rfl
  rw [eq, recog_attending]
  dsimp only
  by_cases hs : (s.line l).recog.lineStart = true
  · simp [hs]
  · by_cases hl : (s.line l).recog.lookahead = []
    · simp [hs, hl]
    · simp [hs, hl]

theorem recogChar_inside {c : Byte} (hl : (s.line l).unit.state ≠ .loop) (ho : (s.line l).recog.state ≠ .outside) :
    s.recogChar l c = s.insideChar l c := by rw [Part.recogChar, if_neg hl, if_neg ho]

end

section
variable {s : Part} {l : LineNo} {c : Byte}

/-- The recognizer of line `l` as a character is taken as text. -/
def Part.texting (s : Part) (l : LineNo) (c : Byte) : Part := s.updRecog l fun r => { r with lineStart := c == lineEnd }

theorem recog_texting : ((s.texting l c).line l).recog = { (s.line l).recog with lineStart := c == lineEnd } :=
  recog_updRecog s l _

section
variable {i : Slot} {t : Part} {b : Bool}

theorem takeText_of_text (hg : (s.line l).recog.state = .text) (ht : (s.line l).recog.tied = some i) :
    s.takeText l c = ((s.texting l c).takeInto l i c).1 := by
  simp only [Part.takeText, recog_updRecog, hg, ht]
  rfl

/-- In OPENING a SPACE and a LINE END leave the state, and any other character begins the heading (R58). -/
theorem takeText_of_opening (hg : (s.line l).recog.state = .opening) (ht : (s.line l).recog.tied = some i)
    (e : (s.texting l c).takeInto l i c = (t, b)) : s.takeText l c =
      if b = true ∧ ¬(c = 32 ∨ c = 10) then t.updRecog l fun r => { r with state := .heading, heading := [c] } else t := by
  unfold Part.texting at e
  simp only [Part.takeText, recog_updRecog, hg, ht, e]
  cases b with
  | true =>
    dsimp only
    by_cases hc : c = 32 ∨ c = 10
    · rw [if_pos hc, if_neg fun h => h.2 hc]
    · rw [if_neg hc, if_pos ⟨rfl, hc⟩]
  | false => exact (if_neg fun h => Bool.false_ne_true h.1).symm

/-- In HEADING a LINE END completes the heading, and any other character joins the buffer, the 80th completing it (R58). -/
theorem takeText_of_heading (hg : (s.line l).recog.state = .heading) (ht : (s.line l).recog.tied = some i)
    (e : (s.texting l c).takeInto l i c = (t, true)) : s.takeText l c =
      if c = 10 then t.completeHeading l i
      else if (s.line l).recog.heading.length + 1 = 80 then
        (t.updRecog l fun r => { r with heading := r.heading ++ [c] }).completeHeading l i
      else t.updRecog l fun r => { r with heading := r.heading ++ [c] } := by
  unfold Part.texting at e
  simp only [Part.takeText, recog_updRecog, hg, ht, e, lineEnd]

theorem takeText_of_heading_limit (hg : (s.line l).recog.state = .heading) (ht : (s.line l).recog.tied = some i)
    (e : (s.texting l c).takeInto l i c = (t, false)) : s.takeText l c = t := by
  unfold Part.texting at e
  simp only [Part.takeText, recog_updRecog, hg, ht, e]

end

theorem takeText_of_discarding (hg : (s.line l).recog.state = .discarding) : s.takeText l c = s.texting l c := by
  simp only [Part.takeText, recog_updRecog, hg]
  rfl

theorem takeText_of_untied (ht : (s.line l).recog.tied = none) : s.takeText l c = s.texting l c := by
  simp only [Part.takeText, recog_updRecog, ht]
  cases (s.line l).recog.state <;> rfl

end
end Sys2Proof.Machine
end

section
/-! The heading line is collected (03.2 to 03.4). -/

namespace Sys2Proof.Machine

/-- A recognizer written with what it holds. -/
theorem updRecog_id (s : Part) (l : LineNo) : s.updRecog l id = s := by
  have lines : (s.updRecog l id).lines = s.lines := by
    refine lines_ext fun m => ?_
    by_cases hm : m = l
    · subst hm
      exact line_ext (unit_line_updRecog _ _ _ _) (plane_line_updRecog _ _ _ _) (recog_updRecog s m id)
        (sched_line_updRecog _ _ _ _) (texts_line_updRecog _ _ _ _) (sup_line_updRecog _ _ _ _)
    · exact line_updRecog_ne _ _ _ _ hm
  exact congrArg (fun ls => { s with lines := ls }) lines

/-! ### A character that reaches the story of its line -/

section
variable (s : Part) (l : LineNo) (c : Byte)

/-- Line `l` as a character of its story is taken as text: the stall timer started afresh, STALL low, the line start
by the character. -/
def Part.taking (s : Part) (l : LineNo) (c : Byte) : Part := (s.attending l).texting l c

theorem recog_taking : ((s.taking l c).line l).recog =
    { (s.line l).recog with lineStart := c == 10, stallSince := some s.now } := by
  rw [Part.taking, recog_texting, recog_attending, lineEnd]

theorem taking_takes : Act (· ∈ [.recog, .sup, .list]) s (s.taking l c) := by
  rw [Part.taking, Part.texting]
  exact .recog _ _ (by decide) (attending_takes s l)

theorem line_taking_ne {m : LineNo} (h : m ≠ l) : (s.taking l c).line m = s.line m := by
  rw [Part.taking, Part.texting, line_updRecog_ne _ _ _ _ h, line_attending_ne s l h]

theorem recordView_taking (i : Slot) : (s.taking l c).recordView i = s.recordView i := by
  rw [Part.taking, Part.texting, recordView_updRecog, recordView_attending]

theorem record_taking (i : Slot) : (s.taking l c).record i = s.record i := (recordView_eq_iff.mp (recordView_taking s l c i)).1

theorem unflagged_taking (m : LineNo) : ((s.taking l c).line m).sup.unflagged = (s.line m).sup.unflagged := by
  rw [Part.taking, Part.texting, sup_line_updRecog, unflagged_attending]

theorem faults_taking (m : LineNo) : ((s.taking l c).line m).sup.faults = (s.line m).sup.faults :=
  congrArg (·.faults) (unflagged_taking s l c m)

theorem cond_taking_stall : (s.taking l c).cond l .stall = false := by
  rw [Part.taking, Part.texting, cond_of_sup (sup_line_updRecog _ _ _ _), cond_attending_stall]

theorem insideChar_of_text (hs : (s.line l).recog.lineStart = false) (hl : (s.line l).recog.lookahead = []) :
    s.insideChar l c = (s.attending l).takeText l c := by
  rw [insideChar_eq, if_neg (by simp [hs, hl])]

end

section
variable {s v t : Part} {i : Slot} {r : Record} {x : InRecord} {blocks : List Nat} {c : Byte} {l : LineNo}

/-- A story that sends nothing yet takes no other step as a character is stored. -/
theorem takeInto_of_quiet (hr : s.record i = some r) (hb : r.body = .inbound x) (hx : x.state = .opening)
    (hc : r.count ≠ 16000) (ht : s.storeChar i c = (t, true)) (h : Stores s t i r blocks c) :
    s.takeInto l i c = (t.updRecog l fun g => { g with overrun := false }, true) := by
  have record : (t.updRecog l fun g => { g with overrun := false }).record i =
      some { r with count := r.count + 1, blocks := blocks } := h.record
  rw [takeInto_of_stored hr hc ht, silentTakeover_of_not_standing record hb (by rw [hx]; decide),
    requestNext_of_not_sending record hb (by rw [hx]; decide) (by rw [hx]; decide)]

theorem Stores.rest_of_lines (h : Stores v t i r blocks c) (hv : { v with lines := s.lines, port := s.port } = s) :
    { t with
      mem := s.mem, records := s.records, free := s.free, lines := s.lines, port := s.port,
      notices := s.notices } = s := by
  have stored := (congrArg (fun p : Part => { p with
    mem := s.mem, records := s.records, free := s.free, lines := s.lines, port := s.port,
    notices := s.notices }) h.rest :)
  have before := (congrArg (fun p : Part => { p with
    mem := s.mem, records := s.records, free := s.free, notices := s.notices }) hv :)
  exact stored.trans before

theorem room_congr (hf : v.free = s.free) (h : s.room r blocks) : v.room r blocks := by
  rw [Part.room, hf]
  exact h

end

/-! ### Characters delivered to the heading line -/

section
variable {s : Part} {l : LineNo} {c : Byte} {i : Slot} {r : Record} {x : InRecord}

/-- The recognizer after a character of the heading line (R58). -/
def Recog.collects (g : Recog) (c : Byte) (now : Nat) : Recog :=
  if g.state = .opening then
    if c = 32 ∨ c = 10 then { g with lineStart := c == 10, stallSince := some now }
    else { g with lineStart := c == 10, stallSince := some now, state := .heading, heading := [c] }
  else { g with lineStart := c == 10, stallSince := some now, heading := g.heading ++ [c] }

/-- A character of the heading line, however its storing went, changes the recognizer alone thereafter. -/
theorem takeText_collects {u t : Part} (hg : (u.line l).recog.state = .opening ∨
      ((u.line l).recog.state = .heading ∧ c ≠ 10 ∧ (u.line l).recog.heading.length + 1 ≠ 80))
    (ht : (u.line l).recog.tied = some i) (e : (u.texting l c).takeInto l i c = (t, true)) :
    ∃ f : Recog → Recog, u.takeText l c = t.updRecog l f ∧ ∀ (y : Recog) (b : Bool) (now : Nat),
      y = { (u.line l).recog with lineStart := c == 10, overrun := b, stallSince := some now } →
      f y = { (u.line l).recog.collects c now with overrun := b } := by
  rcases hg with hg | ⟨hg, hc, hn⟩
  · by_cases hc : c = 32 ∨ c = 10
    · refine ⟨id, ?_, fun y b now hy => ?_⟩
      · rw [takeText_of_opening hg ht e, if_neg fun h => h.2 hc]
        exact (updRecog_id _ _).symm
      · rw [hy, Recog.collects, if_pos hg, if_pos hc]
        rfl
    · refine ⟨fun r => { r with state := .heading, heading := [c] }, ?_, fun y b now hy => ?_⟩
      · rw [takeText_of_opening hg ht e, if_pos ⟨rfl, hc⟩]
      · rw [hy, Recog.collects, if_pos hg, if_neg hc]
  · refine ⟨fun r => { r with heading := r.heading ++ [c] }, ?_, fun y b now hy => ?_⟩
    · rw [takeText_of_heading hg ht e, if_neg hc, if_neg hn]
    · rw [hy, Recog.collects, if_neg (by rw [hg]; decide)]

/-- Line `l` once a delivered character is at its recognizer, for the story there (R67). -/
theorem exec_delivered_inside {s : State} (h : s.toPart.delivers l c) (hi : (s.line l).unit.state = .idle)
    (ho : (s.line l).recog.state ≠ .outside) (hs : (s.line l).recog.lineStart = false)
    (hl : (s.line l).recog.lookahead = []) : exec (.receivedCode l) s = .next { s with toPart :=
      (((s.toPart.received l).attending l).takeText l c).serveBus } := by
  have line := line_received (s := s.toPart) (l := l)
  rw [exec_receivedCode, sampleStop_of_delivers h hi, recogChar_inside, insideChar_of_text]
  · rw [line]; exact hs
  · rw [line]; exact hl
  · rw [line]; exact fun e => by rw [hi] at e; cases e
  · rw [line]; exact ho

/-- What a delivered character leaves of line `l` and beside it, until it is taken as text. -/
theorem taking_received (s : Part) (l : LineNo) (c : Byte) :
    let v := (s.received l).taking l c
    (v.line l).recog = { (s.line l).recog with lineStart := c == 10, stallSince := some s.now } ∧
      (v.line l).unit = { (s.line l).unit with rcv := .hunt } ∧ (v.line l).plane = s.planeRead l ∧
      (v.line l).sched = (s.line l).sched ∧ (v.line l).sup.faults = (s.line l).sup.faults ∧
      v.cond l .stall = false ∧ (∀ m, m ≠ l → v.line m = s.line m) ∧ (∀ j, v.recordView j = s.recordView j) ∧
      Act (· ∈ [.unit, .plane, .recog, .sup, .list]) s v := by
  intro v
  have line := line_received (s := s) (l := l)
  have takes := taking_takes (s.received l) l c
  refine ⟨?_, ?_, ?_, ?_, ?_, cond_taking_stall _ _ _, fun m hm => ?_, fun j => ?_,
    (received_takes.mono (by decide)).trans (takes.mono (by decide))⟩
  · rw [recog_taking, line, received_takes.now_eq]
  · rw [takes.unit_eq (by decide), line]
  · rw [takes.plane_eq (by decide), line]
  · rw [takes.sched_eq (by decide), line]
  · rw [faults_taking, line]
  · rw [line_taking_ne _ l c hm, line_received_ne hm]
  · rw [recordView_taking]; rfl

end
end Sys2Proof.Machine
end

section
/-! Characters of the heading line, and the heading form (03.3, 03.4). -/

namespace Sys2Proof.Machine

section
variable {s : State} {l : LineNo} {i : Slot} {r : Record} {x : InRecord} {c : Byte}
variable (h : s.toPart.delivers l c) (hi : (s.line l).unit.state = .idle) (ht : (s.line l).recog.tied = some i)
variable (hs : (s.line l).recog.lineStart = false) (hl : (s.line l).recog.lookahead = []) (hr : s.record i = some r)
variable (hb : r.body = .inbound x) (hx : x.state = .opening) (hc : r.count ≠ 16000)
variable (hg : (s.line l).recog.state = .opening ∨
  ((s.line l).recog.state = .heading ∧ c ≠ 10 ∧ (s.line l).recog.heading.length + 1 ≠ 80))
include h hi ht hs hl hg

/-- A character of the heading line, its storing done in `t`, is collected. -/
theorem exec_collected {t : Part} (e : ((s.toPart.received l).taking l c).takeInto l i c = (t, true)) :
    ∃ f : Recog → Recog, exec (.receivedCode l) s = .next { s with toPart := (t.updRecog l f).serveBus } ∧
      ∀ b : Bool, f { (s.line l).recog with lineStart := c == 10, overrun := b, stallSince := some s.now } =
        { (s.line l).recog.collects c s.now with overrun := b } := by
  have urecog : (((s.toPart.received l).attending l).line l).recog = { (s.line l).recog with stallSince := some s.now } := by
    rw [recog_attending, line_received]
    rfl
  have notOutside : (s.line l).recog.state ≠ .outside := by
    rcases hg with hg | ⟨hg, -⟩ <;> rw [hg] <;> decide
  obtain ⟨f, hf, hcollect⟩ := takeText_collects (u := (s.toPart.received l).attending l) (by rw [urecog]; exact hg)
    (by rw [urecog]; exact ht) e
  refine ⟨f, by rw [exec_delivered_inside h hi notOutside hs hl, hf], fun b => ?_⟩
  rw [hcollect _ b s.now (by rw [urecog]), urecog]
  simp only [Recog.collects]

end

section
variable {s : Part} {i : Slot} {r : Record} {x : InRecord} {l : LineNo}

/-- A character lost for want of a block: the record's flag, and fault OVERRUN for the first of a run (R56). -/
theorem loseChar_eq (hr : s.record i = some r) (hb : r.body = .inbound x) : s.loseChar l i =
    (if (s.line l).recog.overrun then s
      else (s.fault l .overrun (s.storyFields l i x.serial)).updRecog l fun g => { g with overrun := true }).setRecord i
        (some { r with body := .inbound { x with overrun := true } }) := by
  unfold Part.loseChar
  dsimp only
  rw [inRecord_serial hr hb, updIn_eq hr hb]
  split <;> rfl

/-- What the loss of a character leaves of line `l` and of the record. -/
theorem loseChar_loses (hr : s.record i = some r) (hb : r.body = .inbound x) :
    let t := s.loseChar l i
    (t.line l).recog = { (s.line l).recog with overrun := true } ∧
      t.record i = some { r with body := .inbound { x with overrun := true } } ∧
      ((s.line l).recog.overrun = false → FaultRecorded s t l .overrun (s.storyFields l i x.serial)) ∧
      ((s.line l).recog.overrun = true → (t.line l).sup.faults = (s.line l).sup.faults) ∧
      (∀ j, j ≠ i → t.record j = s.record j) ∧ (∀ m, m ≠ l → t.line m = s.line m) ∧
      { t with records := s.records, lines := s.lines } = s := by
  intro t
  obtain ⟨u, hu⟩ : ∃ u, u = if (s.line l).recog.overrun then s
      else (s.fault l .overrun (s.storyFields l i x.serial)).updRecog l fun g => { g with overrun := true } := ⟨_, rfl⟩
  have eq : t = u.setRecord i (some { r with body := .inbound { x with overrun := true } }) := by
    rw [hu]; exact loseChar_eq hr hb
  have urecord (j : Slot) : u.record j = s.record j := by rw [hu]; split <;> rfl
  have line (m : LineNo) : t.line m = u.line m := by rw [eq]; rfl
  refine ⟨?_, ?_, fun ho => ?_, fun ho => ?_, fun j hj => ?_, fun m hm => line_loseChar_ne s hm i, ?_⟩
  · rw [line, hu]
    split
    · next ho =>
      have same : (s.line l).recog = { (s.line l).recog with overrun := (s.line l).recog.overrun } := rfl
      rw [ho] at same
      exact same
    · rw [recog_updRecog, fault_recog]
  · rw [eq, record_setRecord_self]
  · refine faultRecorded_fault.congr (t := s.fault l .overrun (s.storyFields l i x.serial)) ?_
    rw [line, hu, if_neg (by rw [ho]; exact Bool.false_ne_true), sup_line_updRecog]
  · rw [line, hu, if_pos ho]
  · rw [eq, record_setRecord_ne _ _ _ _ hj, urecord]
  · rw [eq, hu]
    split <;> rfl

end

/-! ### The heading form (R59) -/

section
variable {subst : Byte}

/-- A character that counts as a digit of a serial. -/
def isDigit (subst d : Byte) : Prop := d ≠ subst ∧ 48 ≤ d.toNat ∧ d.toNat ≤ 57

theorem digitValue_of_isDigit {d : Byte} (h : isDigit subst d) : digitValue subst d = some (d.toNat - 48) := if_pos h

theorem leadingDigits_append {ds cs : List Byte} {c : Byte} (hd : ∀ d ∈ ds, isDigit subst d)
    (hc : digitValue subst c = none) (n v : Nat) : leadingDigits subst (ds ++ c :: cs) n v =
      (n + ds.length, ds.foldl (fun v d => 10 * v + (d.toNat - 48)) v, c :: cs) := by
  induction ds generalizing n v with
  | nil => simp [leadingDigits, hc]
  | cons d ds ih =>
    simp only [List.cons_append, leadingDigits, digitValue_of_isDigit (hd d (by simp)), List.foldl_cons, List.length_cons]
    rw [ih fun e he => hd e (by simp [he])]
    simp only [Nat.add_assoc, Nat.add_comm 1]

/-- The leading digits of a buffer, their number and their value. -/
theorem leadingDigits_spec (buf : List Byte) (n v : Nat) : ∃ ds rest, buf = ds ++ rest ∧ (∀ d ∈ ds, isDigit subst d) ∧
    leadingDigits subst buf n v = (n + ds.length, ds.foldl (fun v d => 10 * v + (d.toNat - 48)) v, rest) := by
  induction buf generalizing n v with
  | nil => exact ⟨[], [], rfl, by simp, rfl⟩
  | cons c cs ih =>
    by_cases hc : isDigit subst c
    · obtain ⟨ds, rest, rfl, hd, h⟩ := ih (n + 1) (10 * v + (c.toNat - 48))
      refine ⟨c :: ds, rest, rfl, fun d hm => ?_, ?_⟩
      · rcases List.mem_cons.mp hm with rfl | hm
        · exact hc
        · exact hd d hm
      · simp only [leadingDigits, digitValue_of_isDigit hc, h, List.foldl_cons, List.length_cons]
        simp only [Nat.add_assoc, Nat.add_comm 1]
    · have none : digitValue subst c = none := if_neg hc
      exact ⟨[], c :: cs, rfl, by simp, by simp [leadingDigits, none]⟩

theorem priorityOfLetter_iff (p : Byte) (prio : Nat) :
    priorityOfLetter p = some prio ↔ ([70, 66, 85, 82, 68, 83] : List Nat)[prio]? = some p.toNat := by
  unfold priorityOfLetter
  constructor
  · intro h
    split at h <;> first | (cases h; next e => rw [e]; rfl) | cases h
  · intro h
    match prio, h with
    | 0, h | 1, h | 2, h | 3, h | 4, h | 5, h =>
      have e := Option.some.inj h
      rw [← e]
      rfl
    | n + 6, h => cases h

/-- What follows the digits of a heading that satisfies R59. -/
def headingTail (subst : Byte) (n v : Nat) (sep p c : Byte) (rest : List Byte) : Option Heading :=
  if 1 ≤ n ∧ n ≤ 4 ∧ 1 ≤ v ∧ sep = officeSpace ∧ p ≠ subst ∧ c ≠ subst ∧ 65 ≤ c.toNat ∧ c.toNat ≤ 90 then
    match priorityOfLetter p, rest with
    | some prio, [] => some { serial := v, priority := prio, category := c.toNat - 65, slug := [] }
    | some prio, sp :: slug =>
      if sp = officeSpace then
        some { serial := v, priority := prio, category := c.toNat - 65, slug := slug.take 24 }
      else none
    | none, _ => none
  else none

theorem headingTail_eq_some_iff {n v : Nat} {sep p c : Byte} {rest : List Byte} {h : Heading} :
    headingTail subst n v sep p c rest = some h ↔
      (1 ≤ n ∧ n ≤ 4 ∧ 1 ≤ v ∧ sep = officeSpace ∧ p ≠ subst ∧ c ≠ subst ∧ 65 ≤ c.toNat ∧ c.toNat ≤ 90) ∧
      ∃ prio, priorityOfLetter p = some prio ∧ (rest = [] ∨ rest.head? = some 32) ∧
        h = { serial := v, priority := prio, category := c.toNat - 65, slug := (rest.drop 1).take 24 } := by
  unfold headingTail
  by_cases hall : 1 ≤ n ∧ n ≤ 4 ∧ 1 ≤ v ∧ sep = officeSpace ∧ p ≠ subst ∧ c ≠ subst ∧ 65 ≤ c.toNat ∧ c.toNat ≤ 90
  · rw [if_pos hall, and_iff_right hall]
    cases hp : priorityOfLetter p with
    | none => simp
    | some prio =>
      cases rest with
      | nil => simp [eq_comm]
      | cons sp slug =>
        dsimp only
        by_cases hsp : sp = officeSpace
        · rw [if_pos hsp]
          constructor
          · exact fun e => ⟨prio, rfl, .inr (congrArg some hsp), (Option.some.inj e).symm⟩
          · rintro ⟨q, hq, -, rfl⟩
            cases hq
            rfl
        · rw [if_neg hsp]
          constructor
          · exact fun e => nomatch e
          · rintro ⟨q, -, hr | hr, -⟩
            · cases hr
            · exact absurd (Option.some.inj hr) hsp
  · rw [if_neg hall]
    constructor
    · exact fun e => nomatch e
    · exact fun e => absurd e.1 hall

theorem readHeading_of_tail {buf rest : List Byte} {n v : Nat} {sep p c : Byte}
    (h : leadingDigits subst buf 0 0 = (n, v, sep :: p :: c :: rest)) :
    readHeading subst buf = headingTail subst n v sep p c rest := by
  rw [readHeading, h]
  rfl

/-- The heading form, read off a buffer. -/
theorem readHeading_eq_some_iff (buf : List Byte) (h : Heading) : readHeading subst buf = some h ↔
    ∃ (digits rest : List Byte) (p c : Byte) (prio : Nat), buf = digits ++ 32 :: p :: c :: rest ∧
      1 ≤ digits.length ∧ digits.length ≤ 4 ∧ (∀ d ∈ digits, 48 ≤ d.toNat ∧ d.toNat ≤ 57) ∧
      [70, 66, 85, 82, 68, 83][prio]? = some p.toNat ∧ 65 ≤ c.toNat ∧ c.toNat ≤ 90 ∧
      (rest = [] ∨ rest.head? = some 32) ∧ subst ∉ digits ∧ p ≠ subst ∧ c ≠ subst ∧
      let value := digits.foldl (fun v d => 10 * v + (d.toNat - 48)) 0
      1 ≤ value ∧ h = { serial := value, priority := prio, category := c.toNat - 65, slug := (rest.drop 1).take 24 } := by
  constructor
  · intro hread
    obtain ⟨ds, tail, rfl, hd, hlead⟩ := leadingDigits_spec (subst := subst) buf 0 0
    have shape : ∃ sep p c rest, tail = sep :: p :: c :: rest := by
      rw [readHeading, hlead] at hread
      match tail, hread with
      | sep :: p :: c :: rest, _ => exact ⟨sep, p, c, rest, rfl⟩
    obtain ⟨sep, p, c, rest, rfl⟩ := shape
    rw [readHeading_of_tail hlead, headingTail_eq_some_iff, Nat.zero_add] at hread
    obtain ⟨⟨h1, h4, hv, rfl, hp, hc, hlo, hhi⟩, prio, hprio, hrest, rfl⟩ := hread
    exact ⟨ds, rest, p, c, prio, rfl, h1, h4, fun d hm => (hd d hm).2, (priorityOfLetter_iff p prio).mp hprio, hlo, hhi,
      hrest, fun hm => (hd subst hm).1 rfl, hp, hc, hv, rfl⟩
  · rintro ⟨ds, rest, p, c, prio, rfl, h1, h4, hd, hprio, hlo, hhi, hrest, hsub, hp, hc, hv, rfl⟩
    have space : digitValue subst (32 : Byte) = none := if_neg fun e => absurd e.2.1 (by decide)
    have hlead := leadingDigits_append (subst := subst) (cs := p :: c :: rest)
      (fun d hm => ⟨fun e => hsub (e ▸ hm), hd d hm⟩) space 0 0
    rw [readHeading_of_tail hlead, headingTail_eq_some_iff, Nat.zero_add]
    exact ⟨⟨h1, h4, hv, rfl, hp, hc, hlo, hhi⟩, prio, (priorityOfLetter_iff p prio).mpr hprio, hrest, rfl⟩

end

/-- Settles O20. -/
theorem headingLineCollected : Obligations.HeadingLineCollected := by
  refine ⟨?_, fun subst buf h => readHeading_eq_some_iff buf h⟩
  intro l i r x c s h hi g ht hs hl hr hb hx hc hg seen collected
  obtain ⟨v, hv⟩ : ∃ v, v = (s.toPart.received l).taking l c := ⟨_, rfl⟩
  obtain ⟨vrecog, vunit, vplane, vsched, vfaults, vstall, vline, vview, vtakes⟩ := taking_received s.toPart l c
  rw [← hv] at vrecog vunit vplane vsched vfaults vstall vline vview vtakes
  have vrecord (j : Slot) : v.record j = s.record j := (recordView_eq_iff.mp (vview j)).1
  have vr : v.record i = some r := (vrecord i).trans hr
  have hne : r.count ≠ 16000 := by omega
  have vrest := (vtakes.mono (by decide)).rest_of_lines
  have collects (b : Bool) : ({ g.collects c s.now with overrun := b } : Recog) = { collected with overrun := b } := rfl
  refine ⟨fun blocks hroom => ?_, fun hfull hfree hrecent => ?_⟩
  · obtain ⟨t, ht', stores⟩ := storeChar_of_room (c := c) vr (room_congr (v := v) (vtakes.free_eq (by decide)) hroom)
    obtain ⟨f, exec, hf⟩ := exec_collected (s := s) h hi ht hs hl hg
      (by rw [← hv]; exact takeInto_of_quiet vr hb hx hne ht' stores)
    have line (m : LineNo) : t.line m = v.line m := stores.line m
    have sup : ∀ f g' : Recog → Recog, (((t.updRecog l f).updRecog l g').line l).sup = (v.line l).sup := fun f g' => by
      rw [sup_line_updRecog, sup_line_updRecog, line]
    refine ⟨_, exec, ?_, stores.record, ?_, ?_, ?_, ?_, ?_, ?_, ?_, fun j hj => ?_, fun m hm => ?_, ?_⟩
    · rw [recog_updRecog, recog_updRecog, line, vrecog, ← collects, ← hf]
    · exact stores.mem.trans (by rw [vtakes.mem_eq (by decide)])
    · exact stores.free.trans (by rw [vtakes.free_eq (by decide)])
    · rw [sup, vfaults]
    · rw [unit_line_updRecog, unit_line_updRecog, line, vunit]
    · rw [plane_line_updRecog, plane_line_updRecog, line, vplane]
    · rw [sched_line_updRecog, sched_line_updRecog, line, vsched]
    · rw [Part.cond, sup]; exact vstall
    · exact (stores.others j hj).trans (vrecord j)
    · rw [line_updRecog_ne _ _ _ _ hm, line_updRecog_ne _ _ _ _ hm, line, vline m hm]
    · exact stores.rest_of_lines (s := s.toPart) vrest
  · have lost := storeChar_of_none (c := c) vr hfull ((vtakes.free_eq (by decide)).trans hfree)
      ((vtakes.recent_eq (by decide)).trans hrecent)
    obtain ⟨f, exec, hf⟩ := exec_collected (s := s) h hi ht hs hl hg
      (by rw [← hv]; exact takeInto_of_lost vr hne lost)
    obtain ⟨trecog, trecord, tfault, tkept, tothers, tlines, trest⟩ := loseChar_loses (s := v) (l := l) vr hb
    have fields : v.storyFields l i x.serial = { handle := some (s.handle i), serial := x.serial, offset := r.count, raw := none, plane := s.planeRead l } := by
      rw [Part.storyFields, vr, vplane, Part.handle, vtakes.number_eq]
      rfl
    refine ⟨_, exec, ?_, trecord, fun ho => ?_, fun ho => ?_, fun j hj => ?_, fun m hm => ?_, ?_⟩
    · rw [recog_updRecog, trecog, vrecog, ← collects, ← hf]
    · have fault := tfault (by rw [vrecog]; exact ho)
      rw [FaultRecorded, vfaults, fields] at fault
      rw [FaultRecorded, sup_line_updRecog]
      exact fault
    · rw [sup_line_updRecog, tkept (by rw [vrecog]; exact ho), vfaults]
    · exact (tothers j hj).trans (vrecord j)
    · rw [line_updRecog_ne _ _ _ _ hm, tlines m hm, vline m hm]
    · have before := (congrArg (fun p : Part => { p with records := s.records }) vrest :)
      exact (congrArg (fun p : Part => { p with records := s.records, lines := s.lines, port := s.port }) trest :).trans before

end Sys2Proof.Machine
end

section
/-! A story opened (03.1, 04.2), and characters released from a lookahead (03.2). -/

namespace Sys2Proof.Machine

/-! ### A story opened (R54, R55) -/

section
variable {s : Part} {l : LineNo} {i j : Slot}

theorem evictOne_stores : Act (· ∈ [.store, .record, .list, .notices]) s s.evictOne :=
  evictOne_act (by decide) (by decide) (by decide) (by decide) .refl

@[simp] theorem evictOne_line (m : LineNo) : s.evictOne.line m = s.line m := by
  simp [Part.line, evictOne_stores.lines_eq (by decide) (by decide) (by decide) (by decide) (by decide)]

/-- Line `l` with a story opened in slot `j`. -/
def Part.opensIn (s : Part) (l : LineNo) (j : Slot) : Part :=
  (s.setRecord j (some (inboundAtAllocation l (s.cfg l).service))).updRecog l fun _ =>
    { Recog.blank with state := .opening, tied := some j, stallSince := some s.now }

/-- Line `l` with no record to be had for a story. -/
def Part.opensNone (s : Part) (l : LineNo) : Part :=
  ((s.updRecog l fun r => { r with lineStart := false, lookahead := [] }).goDiscarding l).fault l .overrun
    { handle := none, serial := none, offset := 0, raw := none, plane := (s.line l).plane }

theorem openStory_of_free (h : s.lowestFree = some j) : s.openStory l = s.opensIn l j := by
  rw [Part.openStory, Part.findSlot, h]
  rfl

theorem openStory_of_evicted (h : s.lowestFree = none) (he : s.evictOne.lowestFree = some j) :
    s.openStory l = s.evictOne.opensIn l j := by
  have now : s.evictOne.now = s.now := evictOne_stores.now_eq
  rw [Part.openStory, Part.findSlot, h]
  dsimp only
  rw [he, Part.opensIn, now]

theorem openStory_of_full (h : s.lowestFree = none) (he : s.evictOne.lowestFree = none) :
    s.openStory l = s.evictOne.opensNone l := by
  rw [Part.openStory, Part.findSlot, h]
  dsimp only
  rw [he]
  rfl

theorem openStory_of_none (h : s.lowestFree = none) (hr : s.recent = []) : s.openStory l = s.opensNone l := by
  have stays := evictOne_of_nil hr
  rw [openStory_of_full h (by rw [stays]; exact h), stays]

/-- The kinds of change of a story's opening. -/
abbrev openKinds : Kind → Prop := (· ∈ [.store, .record, .list, .notices, .recog, .sup])

theorem opensNone_takes : Act openKinds s (s.opensNone l) :=
  fault_act (by decide) _ _ _ (.recog _ _ (by decide) (.recog _ _ (by decide) .refl))

theorem opensIn_takes (h : s.record j = none) : Act openKinds s (s.opensIn l j) :=
  .recog _ _ (by decide) (.alloc j _ h rfl rfl (by decide) .refl)

theorem openStory_takes : Act openKinds s (s.openStory l) := by
  cases h : s.lowestFree with
  | some j =>
    rw [openStory_of_free h]
    exact opensIn_takes (record_of_lowestFree h)
  | none =>
    have evicts : Act openKinds s s.evictOne := evictOne_stores.mono (by decide)
    cases he : s.evictOne.lowestFree with
    | some j =>
      rw [openStory_of_evicted h he]
      exact evicts.trans (opensIn_takes (record_of_lowestFree he))
    | none =>
      rw [openStory_of_full h he]
      exact evicts.trans opensNone_takes

theorem line_opensIn_ne {m : LineNo} (h : m ≠ l) : (s.opensIn l j).line m = s.line m := line_updRecog_ne _ _ _ _ h

theorem line_opensNone_ne {m : LineNo} (h : m ≠ l) : (s.opensNone l).line m = s.line m := by
  rw [Part.opensNone, line_fault_ne h, line_goDiscarding_ne _ h, line_updRecog_ne _ _ _ _ h]

theorem line_openStory_ne {m : LineNo} (h : m ≠ l) : (s.openStory l).line m = s.line m := by
  cases hf : s.lowestFree with
  | some j => rw [openStory_of_free hf, line_opensIn_ne h]
  | none =>
    cases he : s.evictOne.lowestFree with
    | some j => rw [openStory_of_evicted hf he, line_opensIn_ne h, evictOne_line]
    | none => rw [openStory_of_full hf he, line_opensNone_ne h, evictOne_line]

theorem opened_opensIn {t : Part} (hc : t.cfg l = s.cfg l) (hn : t.now = s.now) : Opened s (t.opensIn l j) l j := by
  refine ⟨?_, ?_⟩
  · rw [Part.opensIn, hc]
    exact record_setRecord_self _ _ _
  · rw [Part.opensIn, recog_updRecog, hn]
    rfl

theorem sup_opensIn : ((s.opensIn l j).line l).sup = (s.line l).sup := sup_line_updRecog _ _ _ _

theorem record_opensIn_ne (h : i ≠ j) : (s.opensIn l j).record i = s.record i := record_setRecord_ne _ _ _ _ h

theorem recordView_opensIn_ne (h : i ≠ j) : (s.opensIn l j).recordView i = s.recordView i := by
  rw [Part.opensIn, recordView_updRecog, recordView_setRecord_ne s h]

theorem recordView_opensNone : (s.opensNone l).recordView i = s.recordView i := by
  rw [Part.opensNone, fault_updSup, recordView_updSup, Part.goDiscarding, recordView_updRecog, recordView_updRecog]

theorem recog_opensNone : ((s.opensNone l).line l).recog =
    { state := .discarding, window := [], lineStart := false, lookahead := [], heading := [], tied := none,
      overrun := false, stallSince := some s.now } := by
  rw [Part.opensNone, fault_recog, recog_goDiscarding, recog_updRecog]
  rfl

theorem faultRecorded_opensNone : FaultRecorded s (s.opensNone l) l .overrun
    { handle := none, serial := none, offset := 0, raw := none, plane := (s.line l).plane } := by
  have sup : (((s.updRecog l fun r => { r with lineStart := false, lookahead := [] }).goDiscarding l).line l).sup =
      (s.line l).sup := by
    rw [Part.goDiscarding, sup_line_updRecog, sup_line_updRecog]
  have recorded := faultRecorded_fault
    (s := (s.updRecog l fun r => { r with lineStart := false, lookahead := [] }).goDiscarding l) (l := l) (k := .overrun)
    (f := { handle := none, serial := none, offset := 0, raw := none, plane := (s.line l).plane })
  rw [FaultRecorded, sup] at recorded
  exact recorded

theorem faults_opensNone_ne {q : Fin 8} (h : q ≠ FaultKind.overrun.idx) :
    ((s.opensNone l).line l).sup.faults.get q = (s.line l).sup.faults.get q := by
  rw [Part.opensNone, faults_fault_ne h, Part.goDiscarding, sup_line_updRecog, sup_line_updRecog]

/-- A record kind of fault other than OVERRUN stands as it did. -/
theorem faults_openStory_ne {q : Fin 8} (h : q ≠ FaultKind.overrun.idx) :
    ((s.openStory l).line l).sup.faults.get q = (s.line l).sup.faults.get q := by
  cases hf : s.lowestFree with
  | some j => rw [openStory_of_free hf, sup_opensIn]
  | none =>
    cases he : s.evictOne.lowestFree with
    | some j => rw [openStory_of_evicted hf he, sup_opensIn, evictOne_line]
    | none => rw [openStory_of_full hf he, faults_opensNone_ne h, evictOne_line]

/-- The scan leaves a record that is not on the recent list. -/
theorem recordView_evictScan {n : Nat} (h : i ∉ s.recent) : (evictScan n s).recordView i = s.recordView i := by
  induction n generalizing s with
  | zero => rfl
  | succ n ih =>
    rw [evictScan]
    split
    · rfl
    · next j rest hrec =>
      rw [hrec] at h
      have hij : i ≠ j := fun e => h (e ▸ List.mem_cons_self)
      split
      · rw [ih (s := (({ s with recent := rest ++ [j] } : Part).updIn j fun x => { x with referenced := some false }))]
        · exact recordView_updRecord_ne ({ s with recent := rest ++ [j] } : Part) hij _
        · intro hm
          rcases List.mem_append.mp hm with hm | hm
          · exact h (List.mem_cons_of_mem _ hm)
          · exact hij (List.mem_singleton.mp hm)
      · exact recordView_freeRecord_ne ({ s with recent := rest } : Part) hij

theorem recordView_openStory (hi : i ∉ s.recent) (hr : s.record i ≠ none) :
    (s.openStory l).recordView i = s.recordView i := by
  have evicted : s.evictOne.recordView i = s.recordView i := recordView_evictScan hi
  cases hf : s.lowestFree with
  | some j =>
    have free := record_of_lowestFree hf
    rw [openStory_of_free hf, recordView_opensIn_ne]
    rintro rfl
    exact hr free
  | none =>
    cases he : s.evictOne.lowestFree with
    | some j =>
      have gone := record_of_lowestFree he
      rw [openStory_of_evicted hf he, recordView_opensIn_ne, evicted]
      rintro rfl
      exact hr ((recordView_eq_iff.mp evicted).1.symm.trans gone)
    | none => rw [openStory_of_full hf he, recordView_opensNone, evicted]

/-- An unreferenced record at the oldest end is the one evicted. -/
theorem evictOne_of_head {rest : List Slot} (h : s.recent = i :: rest) (hr : s.referenced i = false) :
    s.evictOne = ({ s with recent := rest } : Part).freeRecord i := by
  rw [Part.evictOne, evictScan, h]
  dsimp only
  rw [hr]
  rfl

theorem ne_none_of_lowestFree (h : s.lowestFree = none) (j : Slot) : s.record j ≠ none := by
  intro hj
  have some := lowestFree_isSome_iff.mpr ⟨j, hj⟩
  rw [h] at some
  cases some

/-- The slots below the lowest free one all hold records. -/
theorem ne_none_below_lowestFree (h : s.lowestFree = some j) {m : Slot} (hm : m.val < j.val) : s.record m ≠ none := by
  rw [Part.lowestFree, List.find?_eq_some_iff_getElem] at h
  obtain ⟨-, n, hn, hj, hbefore⟩ := h
  have hval : n = j.val := by
    have := congrArg Fin.val hj
    simpa [allSlots] using this
  have := hbefore m.val (by omega)
  simp only [allSlots, List.getElem_finRange] at this
  intro hnone
  simp [hnone] at this

end
/-! ### Characters released (R53) -/

section
variable {s : Part} {l : LineNo} {i : Slot} {c : Byte}

/-- A character taken for a story in TEXT leaves the recognizer in TEXT, or in DISCARDING at the length limit. -/
theorem recog_takeInto : ((s.takeInto l i c).1.line l).recog.state = .discarding ∨
    ∃ b, ((s.takeInto l i c).1.line l).recog = { (s.line l).recog with overrun := b } := by
  have stored := storeChar_line s i c l
  unfold Part.takeInto
  split
  · left
    exact (congrArg Recog.state (recog_goDiscarding (s := s.closeStory l true) (l := l)) :)
  · right
    split
    · next t e =>
      rw [e] at stored
      exact ⟨false, by rw [requestNext_line, silentTakeover_line, recog_updRecog, stored]⟩
    · next t e =>
      rw [e] at stored
      unfold Part.loseChar
      dsimp only
      split
      · refine ⟨(s.line l).recog.overrun, ?_⟩
        exact congrArg Line.recog stored
      · refine ⟨true, ?_⟩
        rw [recog_updRecog, fault_recog]
        exact congrArg (fun x : Line => { x.recog with overrun := true }) stored

/-- A story that is received, or discarded: what its characters may change. -/
theorem takeText_frame (hg : (s.line l).recog.state = .discarding ∨ (s.line l).recog.state = .text) :
    Act textKinds s (s.takeText l c) ∧ (∀ m, m ≠ l → (s.takeText l c).line m = s.line m) ∧
      (((s.takeText l c).line l).recog.state = .discarding ∨ ((s.takeText l c).line l).recog.state = .text) := by
  have texting : Act textKinds s (s.texting l c) := by
    unfold Part.texting
    exact .recog _ _ (by decide) .refl
  have line (m : LineNo) (hm : m ≠ l) : (s.texting l c).line m = s.line m := line_updRecog_ne _ _ _ _ hm
  have recog := recog_texting (s := s) (l := l) (c := c)
  rcases hg with hg | hg
  · rw [takeText_of_discarding hg]
    exact ⟨texting, line, .inl (by rw [recog]; exact hg)⟩
  · cases ht : (s.line l).recog.tied with
    | none =>
      rw [takeText_of_untied ht]
      exact ⟨texting, line, .inr (by rw [recog]; exact hg)⟩
    | some i =>
      rw [takeText_of_text hg ht]
      refine ⟨texting.trans takeInto_takes, fun m hm => ?_, ?_⟩
      · rw [line_takeInto_ne _ hm, line m hm]
      · rcases recog_takeInto (s := s.texting l c) (l := l) (i := i) (c := c) with h | ⟨b, h⟩
        · exact .inl h
        · right
          rw [h, recog]
          exact hg

theorem releases_frame (cs : List Byte) (hg : (s.line l).recog.state = .discarding ∨ (s.line l).recog.state = .text) :
    Act textKinds s (cs.foldl (fun s c => s.takeText l c) s) ∧
      ∀ m, m ≠ l → (cs.foldl (fun s c => s.takeText l c) s).line m = s.line m := by
  induction cs generalizing s with
  | nil => exact ⟨.refl, fun _ _ => rfl⟩
  | cons c cs ih =>
    obtain ⟨act, lines, state⟩ := takeText_frame (c := c) hg
    obtain ⟨act', lines'⟩ := ih (s := s.takeText l c) state
    exact ⟨act.trans act', fun m hm => (lines' m hm).trans (lines m hm)⟩

/-- Characters of a discarded story change the line start alone. -/
theorem releases_discarding (cs : List Byte) (hg : (s.line l).recog.state = .discarding) :
    Act (· ∈ [.recog]) s (cs.foldl (fun s c => s.takeText l c) s) ∧
      ((cs.foldl (fun s c => s.takeText l c) s).line l).recog =
        { (s.line l).recog with
          lineStart := (cs.getLast?.map fun c => c == 10).getD (s.line l).recog.lineStart } := by
  induction cs generalizing s with
  | nil => exact ⟨.refl, rfl⟩
  | cons c cs ih =>
    have recog := recog_texting (s := s) (l := l) (c := c)
    have step : s.takeText l c = s.texting l c := takeText_of_discarding hg
    obtain ⟨act, last⟩ := ih (s := s.texting l c) (by rw [recog]; exact hg)
    rw [List.foldl_cons, step]
    refine ⟨Act.trans (.recog _ _ (by decide) .refl) act, ?_⟩
    rw [last, recog]
    cases cs with
    | nil => rfl
    | cons d ds => simp [List.getLast?_cons_cons, List.getLast?_cons]

/-- A character of a carried story that has room in its blocks. -/
theorem takeText_carried {r : Record} {x : InRecord} (hg : (s.line l).recog.state = .text)
    (ht : (s.line l).recog.tied = some i) (hr : s.record i = some r) (hb : r.body = .inbound x)
    (hx : x.state = .carrying) (hc : r.count < 16000) (hroom : r.count < 64 * r.blocks.length) :
    (s.takeText l c).record i = some { r with count := r.count + 1 } ∧
      (s.takeText l c).mem = s.mem.write (entryAddr r.blocks r.count) c ∧
      (∀ j, j ≠ i → (s.takeText l c).record j = s.record j) ∧
      ((s.takeText l c).line l).recog = { (s.line l).recog with lineStart := c == 10, overrun := false } := by
  obtain ⟨t, e, stores⟩ := storeChar_of_room (s := s.texting l c) (c := c) (r := r) (blocks := r.blocks) hr
    (.inl ⟨by omega, rfl⟩)
  have record : (t.updRecog l fun g => { g with overrun := false }).record i =
      some { r with count := r.count + 1 } := stores.record
  rw [takeText_of_text hg ht, takeInto_of_stored (s := s.texting l c) hr (by omega) e,
    silentTakeover_of_not_standing record hb (by rw [hx]; decide)]
  refine ⟨?_, ?_, fun j hj => ?_, ?_⟩
  · rw [requestNext_record]; exact record
  · rw [(requestNext_lists _ i).mem_eq (by decide)]; exact stores.mem
  · rw [requestNext_record]; exact stores.others j hj
  · rw [requestNext_line, recog_updRecog, stores.line, recog_texting, lineEnd]

/-- Characters of a carried story that have room in its blocks are stored behind its last. -/
theorem releases_carried (cs : List Byte) {r : Record} {x : InRecord} (hg : (s.line l).recog.state = .text)
    (ht : (s.line l).recog.tied = some i) (hr : s.record i = some r) (hb : r.body = .inbound x)
    (hx : x.state = .carrying) (hc : r.count + cs.length ≤ 16000) (hroom : r.count + cs.length ≤ 64 * r.blocks.length) :
    let t := cs.foldl (fun s c => s.takeText l c) s
    t.record i = some { r with count := r.count + cs.length } ∧ t.mem = Memory.store s.mem r.blocks r.count cs ∧
      (∀ j, j ≠ i → t.record j = s.record j) ∧
      (t.line l).recog = { (s.line l).recog with
        lineStart := (cs.getLast?.map fun c => c == 10).getD (s.line l).recog.lineStart
        overrun := if cs = [] then (s.line l).recog.overrun else false } := by
  induction cs generalizing s r with
  | nil => exact ⟨hr, rfl, fun _ _ => rfl, rfl⟩
  | cons c cs ih =>
    rw [List.length_cons] at hc hroom
    obtain ⟨record, mem, others, recog⟩ := takeText_carried (c := c) hg ht hr hb hx (by omega) (by omega)
    obtain ⟨record', mem', others', recog'⟩ := ih (s := s.takeText l c) (r := { r with count := r.count + 1 })
      (by rw [recog]; exact hg) (by rw [recog]; exact ht) record hb (by dsimp only; omega) (by dsimp only; omega)
    rw [List.foldl_cons]
    refine ⟨?_, ?_, fun j hj => (others' j hj).trans (others j hj), ?_⟩
    · rw [record', List.length_cons]
      simp only [Option.some.injEq, Record.mk.injEq, true_and, and_true]
      omega
    · rw [mem', mem]; rfl
    · rw [recog', recog]
      cases cs with
      | nil => rfl
      | cons d ds => simp [List.getLast?_cons]

end
end Sys2Proof.Machine
end

section
/-! A story closed or opened by a signal: the facts that the recognizer's branches share (03.1, 03.2, 03.8). -/

namespace Sys2Proof.Machine

section
variable {s t u : Part} {l : LineNo} {i j : Slot}

theorem Opened.congr (h : Opened s t l j) (hc : u.cfg l = s.cfg l) (hn : u.now = s.now) : Opened u t l j := by
  unfold Opened at *
  rw [hc, hn]
  exact h

theorem loopUpRun_openStory : ((s.openStory l).line l).sup.loopUpRun = (s.line l).sup.loopUpRun := by
  have none (t : Part) : ((t.opensNone l).line l).sup.loopUpRun = (t.line l).sup.loopUpRun := by
    rw [Part.opensNone, sup_fault, Part.goDiscarding, sup_line_updRecog, sup_line_updRecog]
  cases hf : s.lowestFree with
  | some j => rw [openStory_of_free hf, sup_opensIn]
  | none =>
    cases he : s.evictOne.lowestFree with
    | some j => rw [openStory_of_evicted hf he, sup_opensIn, evictOne_line]
    | none => rw [openStory_of_full hf he, none, evictOne_line]

theorem opensIn_rest : { s.opensIn l j with records := s.records, lines := s.lines } = s := rfl

theorem opened_of_free (h : s.lowestFree = some j) : Opened s (s.openStory l) l j := by
  rw [openStory_of_free h]
  exact opened_opensIn rfl rfl

theorem opensNone_records : (s.opensNone l).records = s.records := rfl

/-- The slot of the record evicted is taken by the story. -/
theorem opened_of_evicted {rest : List Slot} {q : Record} (hf : s.lowestFree = none) (hrec : s.recent = i :: rest)
    (hun : s.referenced i = false) (hq : s.record i = some q) :
    Opened s (s.openStory l) l i ∧ (s.openStory l).free = s.free ++ (q.blocks ++ q.reservation) ∧
      (s.openStory l).recent = rest.filter (fun j => !(j == i)) ∧ (s.openStory l).hasRequest (.record i) = false ∧
      ∀ m, m ≠ i → (s.openStory l).record m = s.record m := by
  have evict := evictOne_of_head hrec hun
  have frees := freeRecord_frees (s := { s with recent := rest }) hq
  rw [← evict] at frees
  obtain ⟨gone, others, free, recent, unasked, -⟩ := frees
  have lowest : s.evictOne.lowestFree = some i := by
    refine lowestFree_eq_some gone fun j hj => ?_
    rw [others j (fun e => by rw [e] at hj; exact Nat.lt_irrefl _ hj)]
    exact ne_none_of_lowestFree hf j
  rw [openStory_of_evicted hf lowest]
  exact ⟨opened_opensIn (evictOne_stores.cfg_eq l) evictOne_stores.now_eq, free, recent, unasked,
    fun m hm => (record_opensIn_ne hm).trans (others m hm)⟩

theorem lowestFree_congr (h : ∀ j, (t.record j).isNone = (s.record j).isNone) : t.lowestFree = s.lowestFree := by
  rw [Part.lowestFree, Part.lowestFree]
  exact congrArg (fun p => allSlots.find? p) (funext h)

end

/-! ### The story of a line closed (R57, R70) -/

section
variable {s : Part} {l : LineNo} {i : Slot} {r : Record} {x : InRecord} {tr : Bool}

theorem recog_closeStory : ((s.closeStory l tr).line l).recog = { (s.line l).recog with tied := none } := by
  cases ht : (s.line l).recog.tied with
  | none =>
    rw [closeStory_of_untied s l tr ht]
    have same : (s.line l).recog = { (s.line l).recog with tied := (s.line l).recog.tied } := rfl
    rw [ht] at same
    exact same
  | some i =>
    rw [closeStory_of_tied s l i tr ht, recog_updRecog, (endStory_takes s l i tr).recog_eq (by decide)]

/-- No signal that closes a story makes a fault TRUNCATED (R70). -/
theorem faults_closeStory_truncated : ((s.closeStory l false).line l).sup.faults.get FaultKind.truncated.idx =
    (s.line l).sup.faults.get FaultKind.truncated.idx := by
  cases ht : (s.line l).recog.tied with
  | none => rw [closeStory_of_untied s l false ht]
  | some i =>
    rw [closeStory_of_tied s l i false ht, sup_line_updRecog]
    unfold Part.endStory
    simp only [Bool.false_eq_true, if_false]
    split
    · rw [freeRecord_line]
      exact faults_fault_ne (by decide)
    · rw [requestNext_line]; rfl
    · rfl
    · rfl

section
variable (ht : (s.line l).recog.tied = some i) (hr : s.record i = some r) (hb : r.body = .inbound x)
include ht hr hb

omit hr hb in
theorem recordView_closeStory (j : Slot) : (s.closeStory l tr).recordView j = (s.endStory l i tr).recordView j := by
  rw [closeStory_of_tied s l i tr ht, recordView_updRecog]

theorem closeStory_ends : StoryEnded s (s.closeStory l tr) i r x tr :=
  (endStory_ends (l := l) (tr := tr) hr hb).congr rfl (recordView_closeStory ht i)

theorem closeStory_frees (hx : x.state = .opening) :
    (s.closeStory l tr).record i = none ∧ (s.closeStory l tr).free = s.free ++ r.blocks := by
  obtain ⟨gone, free⟩ := endStory_frees (l := l) (tr := tr) hr hb hx
  refine ⟨(recordView_eq_iff.mp (recordView_closeStory ht i)).1.trans gone, ?_⟩
  rw [closeStory_of_tied s l i tr ht]
  exact free

theorem record_closeStory_ne {j : Slot} (hj : j ≠ i) : (s.closeStory l tr).record j = s.record j :=
  (recordView_eq_iff.mp (recordView_closeStory ht j)).1.trans (record_endStory_ne hr hb hj)

theorem faults_closeStory : ((s.closeStory l tr).line l).sup.faults = ((s.endNoted l i x tr).line l).sup.faults := by
  rw [closeStory_of_tied s l i tr ht, sup_line_updRecog, line_endStory hr hb]

/-- A story that is kept at its close keeps its place in the store. -/
theorem closeStory_keeps (hx : x.state = .carrying ∨ x.state = .standby) :
    (s.closeStory l tr).record i ≠ none ∧ (s.closeStory l tr).recent = s.recent := by
  have noted : (s.endNoted l i x tr).recent = s.recent := by
    unfold Part.endNoted
    split <;> [rfl; (split <;> rfl)]
  obtain ⟨standby, carrying⟩ := closeStory_ends (tr := tr) ht hr hb
  rcases hx with hx | hx
  · refine ⟨by rw [(carrying hx).1]; exact Option.some_ne_none _, ?_⟩
    rw [closeStory_of_tied s l i tr ht]
    show (s.endStory l i tr).recent = s.recent
    rw [endStory_carrying hr hb hx, (requestNext_lists _ i).recent_eq (by decide)]
    exact noted
  · refine ⟨by rw [standby hx]; exact Option.some_ne_none _, ?_⟩
    rw [closeStory_of_tied s l i tr ht]
    show (s.endStory l i tr).recent = s.recent
    rw [endStory_standby hr hb hx]
    exact noted

end
end

/-! ### A character at a line start, or behind held ones (R52, R53) -/

section
variable {s : Part} {l : LineNo} {c : Byte}

/-- The part at which a character at a line start finds line `l`. -/
def Part.meets (s : Part) (l : LineNo) : Part := (s.received l).attending l

theorem meets_facts (s : Part) (l : LineNo) :
    ((s.meets l).line l).recog = { (s.line l).recog with stallSince := some s.now } ∧
      ((s.meets l).line l).unit = { (s.line l).unit with rcv := .hunt } ∧ ((s.meets l).line l).plane = s.planeRead l ∧
      ((s.meets l).line l).sup.faults = (s.line l).sup.faults ∧ (s.meets l).cond l .stall = false ∧
      (∀ m, m ≠ l → (s.meets l).line m = s.line m) ∧ (∀ j, (s.meets l).recordView j = s.recordView j) ∧
      Act (· ∈ [.unit, .plane, .recog, .sup, .list]) s (s.meets l) := by
  have line := line_received (s := s) (l := l)
  have takes := attending_takes (s.received l) l
  refine ⟨?_, ?_, ?_, ?_, cond_attending_stall _ _, fun m hm => ?_, fun j => ?_,
    (received_takes.mono (by decide)).trans (takes.mono (by decide))⟩
  · rw [Part.meets, recog_attending, line, received_takes.now_eq]
  · rw [Part.meets, takes.unit_eq (by decide), line]
  · rw [Part.meets, takes.plane_eq (by decide), line]
  · rw [Part.meets, faults_attending, line]
  · rw [Part.meets, line_attending_ne _ _ hm, line_received_ne hm]
  · rw [Part.meets, recordView_attending]; rfl

theorem exec_delivered_start {s : State} (h : s.toPart.delivers l c) (hi : (s.line l).unit.state = .idle)
    (ho : (s.line l).recog.state ≠ .outside)
    (hs : (s.line l).recog.lineStart = true ∨ (s.line l).recog.lookahead ≠ []) : exec (.receivedCode l) s =
      .next { s with toPart := ((s.toPart.meets l).takeLookahead l c).serveBus } := by
  have line := line_received (s := s.toPart) (l := l)
  rw [exec_receivedCode, sampleStop_of_delivers h hi, recogChar_inside, insideChar_eq, if_pos]
  · rfl
  · rw [line]; exact hs
  · rw [line]; exact fun e => by rw [hi] at e; cases e
  · rw [line]; exact ho

theorem exec_delivered_opening {s : State} (h : s.toPart.delivers l c) (hi : (s.line l).unit.state = .idle)
    (ho : (s.line l).recog.state = .outside)
    (hw : slideWindow (s.cfg l).opening.length (s.line l).recog.window c = (s.cfg l).opening) :
    exec (.receivedCode l) s = .next { s with toPart := ((s.toPart.received l).openStory l).serveBus } := by
  have line := line_received (s := s.toPart) (l := l)
  have cfg : (s.toPart.received l).cfg l = s.cfg l := received_takes.cfg_eq l
  rw [exec_receivedCode, sampleStop_of_delivers h hi, Part.recogChar, if_neg, if_pos]
  · dsimp only
    rw [line, cfg, if_pos hw]
  · rw [line]; exact ho
  · rw [line]; exact fun e => by rw [hi] at e; cases e

theorem updRecog_updRecog (s : Part) (l : LineNo) (f g : Recog → Recog) :
    (s.updRecog l f).updRecog l g = s.updRecog l fun x => g (f x) := by
  simp [Part.updRecog, Part.updLine, Part.line]

theorem takeLookahead_eq (c : Byte) : s.takeLookahead l c =
    if (s.line l).recog.lookahead ++ [c] = (s.cfg l).closing then (s.closeStory l false).goOutside l
    else if (s.line l).recog.lookahead ++ [c] = (s.cfg l).opening then (s.closeStory l true).openStory l
    else if (s.line l).recog.lookahead ++ [c] <+: (s.cfg l).closing ∨ (s.line l).recog.lookahead ++ [c] <+: (s.cfg l).opening
      then s.updRecog l fun r => { r with lookahead := (s.line l).recog.lookahead ++ [c], lineStart := false }
    else ((s.line l).recog.lookahead ++ [c]).foldl (fun s c => s.takeText l c)
      (s.updRecog l fun r => { r with lookahead := [], lineStart := false }) := by
  unfold Part.takeLookahead
  dsimp only
  split
  · rfl
  · split
    · rfl
    · have prefixes : ((((s.line l).recog.lookahead ++ [c]).isPrefixOf (s.cfg l).closing ||
          ((s.line l).recog.lookahead ++ [c]).isPrefixOf (s.cfg l).opening) = true) ↔
          ((s.line l).recog.lookahead ++ [c] <+: (s.cfg l).closing ∨
            (s.line l).recog.lookahead ++ [c] <+: (s.cfg l).opening) := by
        rw [Bool.or_eq_true, List.isPrefixOf_iff_prefix, List.isPrefixOf_iff_prefix]
      by_cases hp : (s.line l).recog.lookahead ++ [c] <+: (s.cfg l).closing ∨
          (s.line l).recog.lookahead ++ [c] <+: (s.cfg l).opening
      · rw [if_pos (prefixes.mpr hp), if_pos hp]
      · rw [if_neg (mt prefixes.mp hp), if_neg hp, Part.releaseLookahead, recog_updRecog]
        refine congrArg (List.foldl _ · _) ?_
        exact updRecog_updRecog s l _ _

end
end Sys2Proof.Machine
end

section
/-! Opening and closing signals: `Obligations.SignalsOpenAndClose`. -/

namespace Sys2Proof.Machine

section
variable {s : Part} {l : LineNo} {c : Byte}

/-- What a character at a line start may change: the line's recognizer and supervision, the store and the port. -/
theorem takeLookahead_frame (h : (s.line l).recog.lookahead ++ [c] <+: (s.cfg l).closing ∨
    (s.line l).recog.lookahead ++ [c] <+: (s.cfg l).opening ∨ (s.line l).recog.state = .discarding ∨
      (s.line l).recog.state = .text) :
    Act textKinds s (s.takeLookahead l c) ∧ ∀ m, m ≠ l → (s.takeLookahead l c).line m = s.line m := by
  rw [takeLookahead_eq]
  split
  · refine ⟨?_, fun m hm => ?_⟩
    · exact ((closeStory_takes false).mono (by decide)).trans ((goOutside_takes _ l).mono (by decide))
    · rw [line_goOutside_ne _ hm, line_closeStory_ne _ hm]
  split
  · refine ⟨?_, fun m hm => ?_⟩
    · exact ((closeStory_takes true).mono (by decide)).trans (openStory_takes.mono (by decide))
    · rw [line_openStory_ne hm, line_closeStory_ne _ hm]
  split
  · exact ⟨.recog _ _ (by decide) .refl, fun m hm => line_updRecog_ne _ _ _ _ hm⟩
  · next hp =>
    have state : (s.line l).recog.state = .discarding ∨ (s.line l).recog.state = .text := by
      rcases h with h | h | h
      · exact absurd (.inl h) hp
      · exact absurd (.inr h) hp
      · exact h
    obtain ⟨act, lines⟩ := releases_frame
      (s := s.updRecog l fun r => { r with lookahead := [], lineStart := false })
      ((s.line l).recog.lookahead ++ [c]) (by rw [recog_updRecog]; exact state)
    exact ⟨Act.trans (.recog _ _ (by decide) .refl) act,
      fun m hm => (lines m hm).trans (line_updRecog_ne _ _ _ _ hm)⟩

/-! ### The closing signal (R57) -/

section
variable {i : Slot} {r : Record} {x : InRecord}

theorem storyFields_eq {n : Option Nat} (hr : s.record i = some r) : s.storyFields l i n =
    { handle := some (s.handle i), serial := n, offset := r.count, raw := none, plane := (s.line l).plane } := by
  rw [Part.storyFields, hr]
  rfl

theorem line_takesClosing : (((s.closeStory l false).goOutside l).line l).recog = Recog.blank ∧
    ((s.closeStory l false).goOutside l).cond l .stall = false ∧ ((s.closeStory l false).goOutside l).mem = s.mem ∧
    (((s.closeStory l false).goOutside l).line l).sup.faults.get FaultKind.truncated.idx =
      (s.line l).sup.faults.get FaultKind.truncated.idx := by
  refine ⟨recog_goOutside _ l, ?_, ?_, ?_⟩
  · rw [cond_goOutside, if_pos ⟨rfl, rfl⟩]
  · rw [(goOutside_takes _ l).mem_eq (by decide), (closeStory_takes false).mem_eq (by decide)]
  · rw [faults_goOutside, faults_closeStory_truncated]

theorem untied_takesClosing (h : (s.line l).recog.tied = none) :
    ((s.closeStory l false).goOutside l).records = s.records ∧
      (((s.closeStory l false).goOutside l).line l).sup.faults = (s.line l).sup.faults := by
  rw [closeStory_of_untied _ _ _ h, faults_goOutside]
  exact ⟨(goOutside_takes s l).records_eq (by decide) (by decide), rfl⟩

theorem story_takesClosing (ht : (s.line l).recog.tied = some i) (hr : s.record i = some r) (hb : r.body = .inbound x) :
    StoryEnded s ((s.closeStory l false).goOutside l) i r x false ∧
      (x.state = .opening → ((s.closeStory l false).goOutside l).record i = none ∧
        ((s.closeStory l false).goOutside l).free = s.free ++ r.blocks ∧
        FaultRecorded s ((s.closeStory l false).goOutside l) l .heading
          { handle := some (s.handle i), serial := none, offset := r.count, raw := none, plane := (s.line l).plane }) ∧
      ∀ j, j ≠ i → ((s.closeStory l false).goOutside l).record j = s.record j := by
  have view (j : Slot) := recordView_goOutside (s.closeStory l false) l j
  have record (j : Slot) : ((s.closeStory l false).goOutside l).record j = (s.closeStory l false).record j :=
    (recordView_eq_iff.mp (view j)).1
  refine ⟨(closeStory_ends ht hr hb).congr rfl (view i), fun hx => ?_, fun j hj => ?_⟩
  · obtain ⟨gone, free⟩ := closeStory_frees (tr := false) ht hr hb hx
    refine ⟨(record i).trans gone, ?_, ?_⟩
    · rw [(goOutside_takes _ l).free_eq (by decide), free]
    · rw [FaultRecorded, faults_goOutside, faults_closeStory ht hr hb, ← storyFields_eq hr]
      exact faultRecorded_heading hx
  · rw [record j, record_closeStory_ne ht hr hb hj]

/-! ### The opening signal of the next story (R57, R70) -/

/-- The recognizer and the OVERRUN record of a line that could get no record for a story. -/
def NoRecord (s t : Part) (l : LineNo) (p : Plane) : Prop :=
  (t.line l).recog =
    { state := .discarding, window := [], lineStart := false, lookahead := [], heading := [], tied := none,
      overrun := false, stallSince := some s.now } ∧
  FaultRecorded s t l .overrun { handle := none, serial := none, offset := 0, raw := none, plane := p }

theorem noRecord_openStory (hf : s.lowestFree = none) (hr : s.recent = []) :
    NoRecord s (s.openStory l) l (s.line l).plane ∧ (s.openStory l).records = s.records := by
  rw [openStory_of_none hf hr]
  exact ⟨⟨recog_opensNone, faultRecorded_opensNone⟩, opensNone_records⟩

theorem NoRecord.congr {t u : Part} {p : Plane} (h : NoRecord s t l p) (hn : u.now = s.now)
    (hs : (u.line l).sup.faults.get FaultKind.overrun.idx = (s.line l).sup.faults.get FaultKind.overrun.idx) :
    NoRecord u t l p := by
  obtain ⟨recog, fault⟩ := h
  refine ⟨by rw [recog, hn], ?_⟩
  rw [FaultRecorded, hs]
  exact fault

variable (ht : (s.line l).recog.tied = some i) (hr : s.record i = some r) (hb : r.body = .inbound x)
include ht hr hb

theorem story_truncated : FaultRecorded s ((s.closeStory l true).openStory l) l .truncated
    { handle := some (s.handle i), serial := x.serial, offset := r.count, raw := none, plane := (s.line l).plane } := by
  rw [FaultRecorded, faults_openStory_ne (by decide), faults_closeStory ht hr hb, ← storyFields_eq hr]
  exact faultRecorded_truncated

theorem kept_takesOpening (hx : x.state = .carrying ∨ x.state = .standby) :
    (i ∉ s.recent → StoryEnded s ((s.closeStory l true).openStory l) i r x true) ∧
      (∀ j, s.lowestFree = some j → Opened s ((s.closeStory l true).openStory l) l j) ∧
      (s.lowestFree = none → s.recent = [] → NoRecord s ((s.closeStory l true).openStory l) l (s.line l).plane) := by
  have kinds := closeStory_takes (s := s) (l := l) true
  obtain ⟨kept, recent⟩ := closeStory_keeps (tr := true) ht hr hb hx
  have lowest : (s.closeStory l true).lowestFree = s.lowestFree := by
    refine lowestFree_congr fun j => ?_
    by_cases hj : j = i
    · rw [hj, hr]
      cases h : (s.closeStory l true).record i with
      | none => exact absurd h kept
      | some q => rfl
    · rw [record_closeStory_ne ht hr hb hj]
  refine ⟨fun hi => ?_, fun j hj => ?_, fun hf hrec => ?_⟩
  · exact (closeStory_ends ht hr hb).congr rfl (recordView_openStory (by rw [recent]; exact hi) kept)
  · exact (opened_of_free (lowest.trans hj)).congr (kinds.cfg_eq l).symm kinds.now_eq.symm
  · have none := (noRecord_openStory (l := l) (lowest.trans hf) (recent.trans hrec)).1
    rw [kinds.plane_eq (by decide)] at none
    refine none.congr kinds.now_eq.symm ?_
    rw [faults_closeStory ht hr hb, Part.endNoted, if_pos rfl, faults_fault_ne (by decide)]

theorem freed_takesOpening (hx : x.state = .opening) :
    (((s.closeStory l true).openStory l).line l).sup.faults.get FaultKind.heading.idx =
        (s.line l).sup.faults.get FaultKind.heading.idx ∧
      ((s.closeStory l true).openStory l).free = s.free ++ r.blocks ∧
      ∃ j, Opened s ((s.closeStory l true).openStory l) l j ∧ (j = i ∨ s.record j = none) ∧
        (j ≠ i → ((s.closeStory l true).openStory l).record i = none) ∧
        ∀ m : Slot, m.val < j.val → m ≠ i ∧ s.record m ≠ none := by
  have kinds := closeStory_takes (s := s) (l := l) true
  obtain ⟨gone, free⟩ := closeStory_frees (tr := true) ht hr hb hx
  obtain ⟨j, hj⟩ := Option.isSome_iff_exists.mp (lowestFree_isSome_iff.mpr ⟨i, gone⟩)
  have others {m : Slot} (hm : m ≠ i) := record_closeStory_ne (tr := true) ht hr hb hm
  refine ⟨?_, ?_, j, (opened_of_free hj).congr (kinds.cfg_eq l).symm kinds.now_eq.symm, ?_, fun hne => ?_, fun m hm => ?_⟩
  · rw [faults_openStory_ne (by decide), faults_closeStory ht hr hb, faults_endNoted_heading]
  · rw [openStory_of_free hj]
    exact free
  · by_cases h : j = i
    · exact .inl h
    · exact .inr ((others h).symm.trans (record_of_lowestFree hj))
  · rw [openStory_of_free hj, record_opensIn_ne (Ne.symm hne), gone]
  · have held := ne_none_below_lowestFree hj hm
    have hne : m ≠ i := fun e => held (e ▸ gone)
    exact ⟨hne, others hne ▸ held⟩

end

/-! ### Characters released (R53) -/

section
variable {i : Slot} {r : Record} {x : InRecord}

theorem released_discarding (held : List Byte) (hg : (s.line l).recog.state = .discarding) :
    let t := (held ++ [c]).foldl (fun s c => s.takeText l c)
      (s.updRecog l fun r => { r with lookahead := [], lineStart := false })
    (t.line l).recog = { (s.line l).recog with lookahead := [], lineStart := c == 10 } ∧
      t.mem = s.mem ∧ t.records = s.records := by
  intro t
  obtain ⟨act, recog⟩ := releases_discarding (s := s.updRecog l fun r => { r with lookahead := [], lineStart := false })
    (held ++ [c]) (by rw [recog_updRecog]; exact hg)
  refine ⟨?_, act.mem_eq (by decide), act.records_eq (by decide) (by decide)⟩
  rw [recog, recog_updRecog, List.getLast?_concat]
  rfl

theorem released_carried (held : List Byte) (hg : (s.line l).recog.state = .text)
    (ht : (s.line l).recog.tied = some i) (hr : s.record i = some r) (hb : r.body = .inbound x)
    (hx : x.state = .carrying) (hc : r.count + (held ++ [c]).length ≤ 16000)
    (hroom : r.count + (held ++ [c]).length ≤ 64 * r.blocks.length) :
    let t := (held ++ [c]).foldl (fun s c => s.takeText l c)
      (s.updRecog l fun r => { r with lookahead := [], lineStart := false })
    (t.line l).recog = { (s.line l).recog with lookahead := [], lineStart := c == 10, overrun := false } ∧
      t.record i = some { r with count := r.count + (held ++ [c]).length } ∧
      t.mem = Memory.store s.mem r.blocks r.count (held ++ [c]) ∧ ∀ j, j ≠ i → t.record j = s.record j := by
  intro t
  obtain ⟨record, mem, others, recog⟩ := releases_carried
    (s := s.updRecog l fun r => { r with lookahead := [], lineStart := false }) (held ++ [c])
    (by rw [recog_updRecog]; exact hg) (by rw [recog_updRecog]; exact ht) hr hb hx hc hroom
  refine ⟨?_, record, mem, others⟩
  rw [recog, recog_updRecog, List.getLast?_concat, if_neg (by simp)]
  rfl

end
end

/-! ### The signals of a delivered character -/

section
variable {s : Part} {l : LineNo} {c : Byte}

/-- A story opened in OUTSIDE (R54, R55). -/
theorem opening_received : (((s.received l).openStory l).line l).sup.loopUpRun = (s.line l).sup.loopUpRun ∧
    (∀ j, s.lowestFree = some j → Opened s ((s.received l).openStory l) l j ∧
      { (s.received l).openStory l with records := s.records, lines := s.lines } = s ∧
      ∀ m, m ≠ j → ((s.received l).openStory l).record m = s.record m) ∧
    (∀ i rest q, s.lowestFree = none → s.recent = i :: rest → s.referenced i = false → s.record i = some q →
      Opened s ((s.received l).openStory l) l i ∧
        ((s.received l).openStory l).free = s.free ++ (q.blocks ++ q.reservation) ∧
        ((s.received l).openStory l).recent = rest.filter (fun j => !(j == i)) ∧
        ((s.received l).openStory l).hasRequest (.record i) = false ∧
        ∀ m, m ≠ i → ((s.received l).openStory l).record m = s.record m) ∧
    (s.lowestFree = none → s.recent = [] → NoRecord s ((s.received l).openStory l) l (s.planeRead l) ∧
      ((s.received l).openStory l).records = s.records) := by
  have line := line_received (s := s) (l := l)
  have cfg : s.cfg l = (s.received l).cfg l := (received_takes.cfg_eq l).symm
  refine ⟨?_, fun j hj => ?_, fun i rest q hf hrec hun hq => ?_, fun hf hrec => ?_⟩
  · rw [loopUpRun_openStory, line]
  · refine ⟨(opened_of_free (s := s.received l) hj).congr cfg rfl, ?_, fun m hm => ?_⟩
    · rw [openStory_of_free (s := s.received l) hj]
      rfl
    · rw [openStory_of_free (s := s.received l) hj, record_opensIn_ne hm]
      rfl
  · obtain ⟨opened, rest⟩ := opened_of_evicted (s := s.received l) (l := l) hf hrec hun hq
    exact ⟨opened.congr cfg rfl, rest⟩
  · obtain ⟨none, records⟩ := noRecord_openStory (s := s.received l) (l := l) hf hrec
    rw [line] at none
    exact ⟨none.congr rfl (by rw [line]), records⟩

/-- The closing signal at a line start (R57). -/
theorem closing_meets : ((((s.meets l).closeStory l false).goOutside l).line l).recog = Recog.blank ∧
    (((s.meets l).closeStory l false).goOutside l).cond l .stall = false ∧
    (((s.meets l).closeStory l false).goOutside l).mem = s.mem ∧
    ((((s.meets l).closeStory l false).goOutside l).line l).sup.faults.get FaultKind.truncated.idx =
      (s.line l).sup.faults.get FaultKind.truncated.idx ∧
    ((s.line l).recog.tied = none → (((s.meets l).closeStory l false).goOutside l).records = s.records ∧
      ((((s.meets l).closeStory l false).goOutside l).line l).sup.faults = (s.line l).sup.faults) ∧
    ∀ i r x, (s.line l).recog.tied = some i → s.record i = some r → r.body = .inbound x →
      StoryEnded s (((s.meets l).closeStory l false).goOutside l) i r x false ∧
      (x.state = .opening → (((s.meets l).closeStory l false).goOutside l).record i = none ∧
        (((s.meets l).closeStory l false).goOutside l).free = s.free ++ r.blocks ∧
        FaultRecorded s (((s.meets l).closeStory l false).goOutside l) l .heading
          { handle := some (s.handle i), serial := none, offset := r.count, raw := none, plane := s.planeRead l }) ∧
      ∀ j, j ≠ i → (((s.meets l).closeStory l false).goOutside l).record j = s.record j := by
  obtain ⟨recog, unit, plane, faults, -, -, views, takes⟩ := meets_facts s l
  generalize s.meets l = u at recog unit plane faults views takes ⊢
  have tied : (u.line l).recog.tied = (s.line l).recog.tied := by rw [recog]
  have handle (i : Slot) : u.handle i = s.handle i := by rw [Part.handle, takes.number_eq]; rfl
  obtain ⟨blank, stall, mem, truncated⟩ := line_takesClosing (s := u) (l := l)
  refine ⟨blank, stall, mem.trans (takes.mem_eq (by decide)), by rw [truncated, faults], fun ht => ?_,
    fun i r x ht hr hb => ?_⟩
  · obtain ⟨records, kept⟩ := untied_takesClosing (tied.trans ht)
    exact ⟨records.trans (takes.records_eq (by decide) (by decide)), by rw [kept, faults]⟩
  · obtain ⟨record, request, -⟩ := recordView_eq_iff.mp (views i)
    obtain ⟨ended, freed, others⟩ := story_takesClosing (tied.trans ht) (record.trans hr) hb
    refine ⟨ended.congr (hasRequest_congr request).symm rfl, fun hx => ?_, fun j hj => ?_⟩
    · obtain ⟨gone, free, fault⟩ := freed hx
      refine ⟨gone, by rw [free, takes.free_eq (by decide)], ?_⟩
      rw [FaultRecorded, faults, plane, handle] at fault
      exact fault
    · exact (others j hj).trans (recordView_eq_iff.mp (views j)).1

/-- The opening signal at a line start, with no story tied (R55). -/
theorem opening_meets (ht : (s.line l).recog.tied = none) :
    (∀ j, s.lowestFree = some j → Opened s (((s.meets l).closeStory l true).openStory l) l j ∧
      ((((s.meets l).closeStory l true).openStory l).line l).sup.faults = (s.line l).sup.faults) ∧
    (s.lowestFree = none → s.recent = [] → NoRecord s (((s.meets l).closeStory l true).openStory l) l (s.planeRead l) ∧
      (((s.meets l).closeStory l true).openStory l).records = s.records) := by
  obtain ⟨recog, unit, plane, faults, -, -, views, takes⟩ := meets_facts s l
  generalize s.meets l = u at recog unit plane faults views takes ⊢
  have records : u.records = s.records := takes.records_eq (by decide) (by decide)
  have lowest : u.lowestFree = s.lowestFree := lowestFree_congr fun j => by rw [Part.record, records, Part.record]
  rw [closeStory_of_untied u l true (by rw [recog]; exact ht)]
  refine ⟨fun j hj => ⟨?_, ?_⟩, fun hf hrec => ?_⟩
  · exact (opened_of_free (lowest.trans hj)).congr (takes.cfg_eq l).symm takes.now_eq.symm
  · rw [openStory_of_free (lowest.trans hj), sup_opensIn, faults]
  · obtain ⟨none, kept⟩ := noRecord_openStory (l := l) (lowest.trans hf) ((takes.recent_eq (by decide)).trans hrec)
    rw [plane] at none
    exact ⟨none.congr takes.now_eq.symm (by rw [faults]), kept.trans records⟩

/-- The opening signal at a line start of a story (R57, R70). -/
theorem truncating_meets {i : Slot} {r : Record} {x : InRecord} (ht : (s.line l).recog.tied = some i)
    (hr : s.record i = some r) (hb : r.body = .inbound x) :
    FaultRecorded s (((s.meets l).closeStory l true).openStory l) l .truncated
      { handle := some (s.handle i), serial := x.serial, offset := r.count, raw := none, plane := s.planeRead l } ∧
    (x.state = .carrying ∨ x.state = .standby →
      (i ∉ s.recent → StoryEnded s (((s.meets l).closeStory l true).openStory l) i r x true) ∧
      (∀ j, s.lowestFree = some j → Opened s (((s.meets l).closeStory l true).openStory l) l j) ∧
      (s.lowestFree = none → s.recent = [] →
        NoRecord s (((s.meets l).closeStory l true).openStory l) l (s.planeRead l))) ∧
    (x.state = .opening →
      ((((s.meets l).closeStory l true).openStory l).line l).sup.faults.get FaultKind.heading.idx =
        (s.line l).sup.faults.get FaultKind.heading.idx ∧
      (((s.meets l).closeStory l true).openStory l).free = s.free ++ r.blocks ∧
      ∃ j, Opened s (((s.meets l).closeStory l true).openStory l) l j ∧ (j = i ∨ s.record j = none) ∧
        (j ≠ i → (((s.meets l).closeStory l true).openStory l).record i = none) ∧
        ∀ m : Slot, m.val < j.val → m ≠ i ∧ s.record m ≠ none) := by
  obtain ⟨recog, unit, plane, faults, -, -, views, takes⟩ := meets_facts s l
  generalize s.meets l = u at recog unit plane faults views takes ⊢
  have records : u.records = s.records := takes.records_eq (by decide) (by decide)
  have lowest : u.lowestFree = s.lowestFree := lowestFree_congr fun j => by rw [Part.record, records, Part.record]
  have handle (i : Slot) : u.handle i = s.handle i := by rw [Part.handle, takes.number_eq]; rfl
  have record (j : Slot) : u.record j = s.record j := (recordView_eq_iff.mp (views j)).1
  have recent : u.recent = s.recent := takes.recent_eq (by decide)
  have cfg : s.cfg l = u.cfg l := (takes.cfg_eq l).symm
  have now : s.now = u.now := takes.now_eq.symm
  have ht' : (u.line l).recog.tied = some i := by rw [recog]; exact ht
  have hr' := (record i).trans hr
  have truncated := story_truncated (l := l) ht' hr' hb
  rw [FaultRecorded, faults, plane, handle] at truncated
  refine ⟨truncated, fun hx => ?_, fun hx => ?_⟩
  · obtain ⟨ended, opened, none⟩ := kept_takesOpening ht' hr' hb hx
    rw [recent] at ended none
    rw [lowest] at opened none
    rw [plane] at none
    exact ⟨fun hi => (ended hi).congr (hasRequest_congr (recordView_eq_iff.mp (views i)).2.1).symm rfl,
      fun j hj => (opened j hj).congr cfg now, fun hf hrec => (none hf hrec).congr now (by rw [faults])⟩
  · obtain ⟨heading, free, j, opened, place, gone, below⟩ := freed_takesOpening ht' hr' hb hx
    rw [faults] at heading
    rw [takes.free_eq (by decide)] at free
    simp only [record] at place below
    exact ⟨heading, free, j, opened.congr cfg now, place, gone, below⟩

end

/-- Settles O22: each branch of the recognizer, with the facts that the branches share. -/
theorem signalsOpenAndClose : Obligations.SignalsOpenAndClose := by
  unfold Obligations.SignalsOpenAndClose
  intro l c s h hi g opening closing window held discards noRecord starts hyp
  rcases hyp with ⟨ho, hw⟩ | ⟨hs, hstate⟩
  · have never : ¬starts := fun e => e.1 ho
    have line := line_received (s := s.toPart) (l := l)
    have kinds : Act openKinds (s.toPart.received l) ((s.toPart.received l).openStory l) := openStory_takes
    have all : Act (· ∈ [.unit, .plane, .store, .record, .list, .notices, .recog, .sup]) s.toPart
        ((s.toPart.received l).openStory l) := (received_takes.mono (by decide)).trans (kinds.mono (by decide))
    obtain ⟨run, free, evicted, none⟩ := opening_received (s := s.toPart) (l := l)
    refine ⟨_, exec_delivered_opening h hi ho hw, ?_, ?_, fun _ _ => ⟨run, free, evicted, none⟩,
      fun e => absurd e never, fun e => absurd e never, fun e => absurd e never, fun e => absurd e never,
      fun m hm => ?_, all.register_eq (by decide), all.trackers_eq (by decide), all.groups_eq (by decide),
      all.rx_eq (by decide)⟩
    · rw [kinds.unit_eq (by decide), line]
    · rw [kinds.plane_eq (by decide), line]
    · rw [line_openStory_ne hm, line_received_ne hm]
  · obtain ⟨ho, hstart⟩ := hs
    obtain ⟨recog, unit, plane, faults, -, lines, views, takes⟩ := meets_facts s.toPart l
    have step := exec_delivered_start h hi ho hstart
    obtain ⟨u, hu⟩ : ∃ u, u = s.toPart.meets l := ⟨_, rfl⟩
    rw [← hu] at recog unit plane faults lines views takes step
    have cfg : u.cfg l = s.cfg l := takes.cfg_eq l
    have held' : (u.line l).recog.lookahead ++ [c] = held := by rw [recog]
    have record (j : Slot) : u.record j = s.record j := (recordView_eq_iff.mp (views j)).1
    obtain ⟨act, others⟩ := takeLookahead_frame (s := u) (l := l) (c := c) (by rw [held', cfg, recog]; exact hstate)
    have all : Act (· ∈ [.unit, .plane, .recog, .sup, .list, .record, .store, .notices, .mem]) s.toPart
        (u.takeLookahead l c) := (takes.mono (by decide)).trans (act.mono (by decide))
    refine ⟨_, step, ?_, ?_, fun e => absurd e ho, fun _ => ?_, fun _ => ?_, fun _ => ?_, fun _ => ?_,
      fun m hm => (others m hm).trans (lines m hm), all.register_eq (by decide), all.trackers_eq (by decide),
      all.groups_eq (by decide), all.rx_eq (by decide)⟩
    · rw [act.unit_eq (by decide), unit]
    · rw [act.plane_eq (by decide), plane]
    all_goals rw [takeLookahead_eq, held', cfg]
    · intro hclose
      rw [if_pos hclose, hu]
      exact closing_meets
    · intro hclose hopen
      rw [if_neg hclose, if_pos hopen, hu]
      exact ⟨fun j ht => (opening_meets ht).1 j, fun ht => (opening_meets ht).2,
        fun i r x ht hr hb => truncating_meets ht hr hb⟩
    · intro hclose hopen hprefix
      rw [if_neg hclose, if_neg hopen, if_pos hprefix]
      refine ⟨?_, takes.mem_eq (by decide), takes.records_eq (by decide) (by decide), ?_⟩
      · rw [recog_updRecog, recog]
      · rw [sup_line_updRecog, faults]
    · intro hnclose hnopen
      have hclose : held ≠ closing := fun e => hnclose (e ▸ List.prefix_refl _)
      have hopen : held ≠ opening := fun e => hnopen (e ▸ List.prefix_refl _)
      rw [if_neg hclose, if_neg hopen, if_neg (not_or.mpr ⟨hnclose, hnopen⟩)]
      have mem : u.mem = s.mem := takes.mem_eq (by decide)
      refine ⟨fun hg => ?_, fun i r x hg ht hr hb hx hc hroom => ?_⟩
      · obtain ⟨last, mem', records⟩ := released_discarding (s := u) (l := l) (c := c) g.lookahead (by rw [recog]; exact hg)
        exact ⟨last.trans (by rw [recog]), mem'.trans mem, records.trans (takes.records_eq (by decide) (by decide))⟩
      · obtain ⟨last, stored, mem', others'⟩ := released_carried (s := u) (l := l) (c := c) g.lookahead
          (by rw [recog]; exact hg) (by rw [recog]; exact ht) ((record i).trans hr) hb hx hc hroom
        exact ⟨last.trans (by rw [recog]), stored, mem'.trans (by rw [mem]), fun j hj => (others' j hj).trans (record j)⟩

end Sys2Proof.Machine
end

section
/-! A serial taken by the tracker of a service (05.3 to 05.5). -/

namespace Sys2Proof.Machine

/-! ### GAP of the lines of a service (R107) -/

section
variable {s : Part} {l m : LineNo} {n : Nat} {k : Tracker}

theorem followGap_of_tracker (h : s.tracker (s.cfg l).service = some k) (hr : (s.cfg l).mode.receives = true) :
    s.followGap l = s.setCond l .gap (!k.gaps.isEmpty) := by
  rw [Part.followGap, h]
  exact if_pos hr

/-- GAP of the lines `ls`, brought to the level of their service's tracker. -/
theorem forLines_followGap (ls : List LineNo) (hk : s.tracker n = some k)
    (hls : ∀ l ∈ ls, (s.cfg l).mode.receives = true ∧ (s.cfg l).service = n) :
    let t := s.forLines ls fun l s => s.followGap l
    Act (· ∈ [.sup, .list]) s t ∧
      (∀ m c, t.cond m c = if m ∈ ls ∧ c = .gap then !k.gaps.isEmpty else s.cond m c) ∧
      (∀ m, (t.line m).sup.unflagged = (s.line m).sup.unflagged) ∧ ∀ i, t.recordView i = s.recordView i := by
  induction ls generalizing s with
  | nil => exact ⟨.refl, fun m c => by simp [Part.forLines], fun _ => rfl, fun _ => rfl⟩
  | cons l ls ih =>
    have takes := followGap_takes s l
    obtain ⟨receives, service⟩ := hls l List.mem_cons_self
    have eq : s.followGap l = s.setCond l .gap (!k.gaps.isEmpty) :=
      followGap_of_tracker (by rw [service]; exact hk) receives
    have tracker : (s.followGap l).tracker n = some k := by
      rw [Part.tracker, takes.trackers_eq (by decide)]; exact hk
    obtain ⟨act, cond, unflagged, view⟩ := ih tracker fun m hm => by
      rw [takes.cfg_eq]; exact hls m (List.mem_cons_of_mem _ hm)
    refine ⟨takes.trans act, fun m c => (cond m c).trans ?_, fun m => (unflagged m).trans ?_, fun i => (view i).trans ?_⟩
    · rw [eq, cond_setCond]
      by_cases hc : c = .gap
      · by_cases hm : m = l <;> by_cases hin : m ∈ ls <;> simp [hc, hm, hin]
      · simp [hc]
    · rw [eq, sup_line_setCond]
    · exact recordView_followGap s l i

theorem mem_serviceLines : l ∈ s.serviceLines n ↔ (s.cfg l).mode.receives = true ∧ (s.cfg l).service = n := by
  simp [Part.serviceLines, mem_allLines]

end

/-! ### The tracker of a service written (R107) -/

section
variable {s : Part} {n : Nat} {k k' : Tracker}

theorem service_of_tracker (h : s.tracker n = some k) : k.service = n := by
  have := List.find?_some h
  exact beq_iff_eq.mp this

/-- The trackers with that of `k`'s service replaced. -/
def Part.withTracker (s : Part) (k : Tracker) : Part :=
  { s with trackers := s.trackers.map fun x => if x.service = k.service then k else x }

theorem tracker_withTracker (h : s.tracker n = some k) (hs : k'.service = n) (m : Nat) :
    (s.withTracker k').tracker m = if m = n then some k' else s.tracker m := by
  have find (ts : List Tracker) : (ts.map fun x => if x.service = k'.service then k' else x).find?
      (fun t => t.service == m) = if m = n then (ts.find? fun t => t.service == n).map fun _ => k'
        else ts.find? fun t => t.service == m := by
    induction ts with
    | nil => simp
    | cons t ts ih =>
      rw [List.map_cons, List.find?_cons, ih]
      by_cases hm : m = n <;> by_cases ht : t.service = n <;> simp [hs, hm, ht, List.find?_cons] <;> grind
  rw [Part.tracker, Part.withTracker, find]
  by_cases hm : m = n
  · rw [if_pos hm, if_pos hm]
    rw [Part.tracker] at h
    rw [h]
    rfl
  · rw [if_neg hm, if_neg hm, Part.tracker]

/-- The tracker of a service written, and GAP of its lines following. -/
theorem putTracker_facts (h : s.tracker n = some k) (hs : k'.service = n) :
    let t := s.putTracker k'
    t.tracker n = some k' ∧ (∀ m, m ≠ n → t.tracker m = s.tracker m) ∧
      (∀ m c, t.cond m c = if ((s.cfg m).mode.receives = true ∧ (s.cfg m).service = n) ∧ c = .gap
        then !k'.gaps.isEmpty else s.cond m c) ∧
      (∀ m, (t.line m).sup.unflagged = (s.line m).sup.unflagged) ∧ ∀ i, t.recordView i = s.recordView i := by
  intro t
  have eq : t = (s.withTracker k').forLines (s.serviceLines n) fun l s => s.followGap l := by
    rw [← hs]; rfl
  have now : (s.withTracker k').tracker n = some k' := by rw [tracker_withTracker h hs, if_pos rfl]
  obtain ⟨act, cond, unflagged, view⟩ := forLines_followGap (s := s.withTracker k') (s.serviceLines n) now
    fun l hl => mem_serviceLines.mp hl
  rw [← eq] at act cond unflagged view
  have tracker (m : Nat) : t.tracker m = (s.withTracker k').tracker m := by
    rw [Part.tracker, act.trackers_eq (by decide), Part.tracker]
  refine ⟨(tracker n).trans now, fun m hm => ?_, fun m c => ?_, unflagged, view⟩
  · rw [tracker, tracker_withTracker h hs, if_neg hm]
  · rw [cond m c]
    simp only [mem_serviceLines]
    rfl

end

/-! ### A serial taken (R97 to R107) -/

section
variable {s : Part} {n serial : Nat} {k : Tracker} {L : Option LineNo} {f : FaultFields}

theorem takeSerial_of_none (h : s.tracker n = none) : s.takeSerial n serial L f = s := by
  rw [Part.takeSerial, h]

/-- A loss with a line to tell it to is a fault of that line, and nothing else is. -/
theorem takeSerial_cases (h : s.tracker n = some k) :
    (∃ l, L = some l ∧ (k.take serial).2 = true ∧
      s.takeSerial n serial L f = (s.putTracker (k.take serial).1).fault l .serialGap f) ∨
    (¬((k.take serial).2 = true ∧ L.isSome = true) ∧
      s.takeSerial n serial L f = s.putTracker (k.take serial).1) := by
  rw [Part.takeSerial, h]
  cases hlost : (k.take serial).2 <;> cases L <;> simp [hlost]

theorem recordView_takeSerial (i : Slot) : (s.takeSerial n serial L f).recordView i = s.recordView i := by
  cases h : s.tracker n with
  | none => rw [takeSerial_of_none h]
  | some k =>
    obtain ⟨-, -, -, -, view⟩ := putTracker_facts h ((take_service k serial).trans (service_of_tracker h))
    rcases takeSerial_cases (serial := serial) (L := L) (f := f) h with ⟨l, -, -, e⟩ | ⟨-, e⟩
    · rw [e, fault_updSup, recordView_updSup, view]
    · rw [e, view]

theorem faults_takeSerial {q : Fin 8} (hq : q ≠ FaultKind.serialGap.idx) (m : LineNo) :
    ((s.takeSerial n serial L f).line m).sup.faults.get q = (s.line m).sup.faults.get q := by
  cases h : s.tracker n with
  | none => rw [takeSerial_of_none h]
  | some k =>
    obtain ⟨-, -, -, unflagged, -⟩ := putTracker_facts h ((take_service k serial).trans (service_of_tracker h))
    have faults : ((s.putTracker (k.take serial).1).line m).sup.faults = (s.line m).sup.faults :=
      congrArg (·.faults) (unflagged m)
    rcases takeSerial_cases (serial := serial) (L := L) (f := f) h with ⟨l, -, -, e⟩ | ⟨-, e⟩
    · rw [e]
      by_cases hm : m = l
      · rw [hm, faults_fault_ne hq, ← hm, faults]
      · rw [line_fault_ne hm, faults]
    · rw [e, faults]

/-- The tracker of the service takes the serial, and a loss is told to the line given. -/
theorem serialTaken_takeSerial : SerialTaken s (s.takeSerial n serial L f) n serial (fun m => L = some m) fun _ => f := by
  refine ⟨fun m hm => ?_, fun h => ?_, fun k h => ?_⟩
  · cases h : s.tracker n with
    | none => rw [takeSerial_of_none h]
    | some k =>
      obtain ⟨-, others, -⟩ := putTracker_facts h ((take_service k serial).trans (service_of_tracker h))
      rcases takeSerial_cases (serial := serial) (L := L) (f := f) h with ⟨l, -, -, e⟩ | ⟨-, e⟩ <;>
        rw [e] <;> exact others m hm
  · rw [takeSerial_of_none h]
    exact ⟨rfl, fun _ => ⟨rfl, rfl⟩⟩
  · obtain ⟨taken, -, cond, unflagged, -⟩ :=
      putTracker_facts h ((take_service k serial).trans (service_of_tracker h))
    have faults (m : LineNo) : ((s.putTracker (k.take serial).1).line m).sup.faults = (s.line m).sup.faults :=
      congrArg (·.faults) (unflagged m)
    have level (m : LineNo) (c : Condition) :
        (s.takeSerial n serial L f).cond m c = (s.putTracker (k.take serial).1).cond m c := by
      rcases takeSerial_cases (serial := serial) (L := L) (f := f) h with ⟨l, -, -, e⟩ | ⟨-, e⟩
      · rw [e, fault_updSup, Part.cond, Part.cond]
        by_cases hm : m = l
        · rw [hm, sup_updSup]
        · rw [line_updSup_ne _ _ _ _ hm]
      · rw [e]
    refine ⟨?_, fun m => ⟨fun hr hs => ?_, fun hm => ?_, fun ⟨lost, hl⟩ => ?_, fun hne => ?_⟩⟩
    · rcases takeSerial_cases (serial := serial) (L := L) (f := f) h with ⟨l, -, -, e⟩ | ⟨-, e⟩ <;>
        rw [e] <;> exact taken
    · rw [level, cond, if_pos ⟨⟨hr, hs⟩, rfl⟩]
      simp
    · rw [level, cond, if_neg]
      rintro ⟨⟨hr, hs⟩, -⟩
      rcases hm with hm | hm
      · rw [hr] at hm; cases hm
      · exact hm hs
    · rcases takeSerial_cases (serial := serial) (L := L) (f := f) h with ⟨l, hL, -, e⟩ | ⟨hne, -⟩
      · have hm : l = m := Option.some.inj (hL.symm.trans hl)
        have recorded := faultRecorded_fault (s := s.putTracker (k.take serial).1) (l := m) (k := .serialGap) (f := f)
        rw [FaultRecorded, faults] at recorded
        rw [e, hm]
        exact recorded
      · exact absurd ⟨lost, by rw [hl]; rfl⟩ hne
    · rcases takeSerial_cases (serial := serial) (L := L) (f := f) h with ⟨l, hL, lost, e⟩ | ⟨-, e⟩
      · have hm : m ≠ l := fun e => hne ⟨lost, by rw [hL, e]⟩
        rw [e, line_fault_ne hm, faults]
      · rw [e, faults]

/-- A serial taken is told of the trackers, the GAP conditions and the SERIAL-GAP records alone. -/
theorem SerialTaken.congr {t s' t' : Part} {for' for'' : LineNo → Prop} {g g' : LineNo → FaultFields}
    (h : SerialTaken s t n serial for' g) (hs : s'.trackers = s.trackers) (ht : t'.trackers = t.trackers)
    (hcfg : ∀ l, s'.cfg l = s.cfg l) (hsc : ∀ l, s'.cond l .gap = s.cond l .gap) (htc : ∀ l, t'.cond l .gap = t.cond l .gap)
    (hsf : ∀ l, (s'.line l).sup.faults.get FaultKind.serialGap.idx = (s.line l).sup.faults.get FaultKind.serialGap.idx)
    (htf : ∀ l, (t'.line l).sup.faults.get FaultKind.serialGap.idx = (t.line l).sup.faults.get FaultKind.serialGap.idx)
    (hf : ∀ l, for'' l ↔ for' l) (hg : ∀ l, for' l → g' l = g l) : SerialTaken s' t' n serial for'' g' := by
  simp only [SerialTaken, TrackersKept, FaultRecorded, Part.tracker, hs, ht, hcfg, hsc, htc, hsf, htf, hf] at h ⊢
  obtain ⟨others, none, taken⟩ := h
  refine ⟨others, none, fun k hk => ⟨(taken k hk).1, fun l => ?_⟩⟩
  obtain ⟨raised, kept, lost, silent⟩ := (taken k hk).2 l
  refine ⟨raised, kept, fun hl => ?_, silent⟩
  rw [hg l hl.2]
  exact lost hl

end
end Sys2Proof.Machine
end

section
/-! A heading that satisfies R59: the decision and what it does (03.4, 03.5, 06.2). -/

namespace Sys2Proof.Machine

/-! ### The endings of a decision (R57, R61, R114 to R116) -/

/-- A decision about the record of slot `i` leaves what is beside it: other records, the cells, the trackers and the
condition levels. -/
structure Beside (v z : Part) (i : Slot) : Prop where
  others : ∀ j, j ≠ i → z.record j = v.record j
  mem : z.mem = v.mem
  trackers : z.trackers = v.trackers
  register : z.register = v.register
  groups : z.groups = v.groups
  rx : z.rx = v.rx
  levels : ∀ m, (z.line m).sup.levels = (v.line m).sup.levels
  faults : ∀ m q, q ≠ FaultKind.duplicate.idx → (z.line m).sup.faults.get q = (v.line m).sup.faults.get q

theorem Beside.cond {v z : Part} {i : Slot} (h : Beside v z i) (m : LineNo) (c : Condition) : z.cond m c = v.cond m c := by
  rw [Part.cond, Part.cond, h.levels]

section
variable {v : Part} {l : LineNo} {i : Slot} {q : Record} {y : InRecord}

/-- A record freed from its line, whose recognizer goes to DISCARDING. -/
def Part.discardTied (v : Part) (l : LineNo) (i : Slot) : Part := (v.freeTied l i).goDiscarding l

theorem sup_discardTied (m : LineNo) : ((v.discardTied l i).line m).sup = (v.line m).sup := by
  rw [Part.discardTied, Part.goDiscarding, sup_line_updRecog, freeTied_eq, sup_line_updRecog, freeRecord_line]

theorem discardTied_frees (hr : v.record i = some q) :
    (v.discardTied l i).record i = none ∧ (v.discardTied l i).hasRequest (.record i) = false ∧
      (v.discardTied l i).free = v.free ++ (q.blocks ++ q.reservation) ∧
      ((v.discardTied l i).line l).recog.state = .discarding ∧ ((v.discardTied l i).line l).recog.tied = none ∧
      ((v.discardTied l i).line l).recog.stallSince = some v.now ∧ Beside v (v.discardTied l i) i := by
  obtain ⟨gone, others, free, -, unasked, mem, -, register, trackers, groups⟩ := freeRecord_frees hr
  have now : (v.freeRecord i).now = v.now := by rw [freeRecord_now]
  have freed : Act (· ∈ [.store, .list, .notices]) v (v.freeRecord i) :=
    freeRecord_act (by decide) (by decide) (by decide) i .refl
  have recog : ((v.discardTied l i).line l).recog = { ((v.freeTied l i).line l).recog with
      state := .discarding, window := [], heading := [], tied := none, overrun := false,
      stallSince := some (v.freeTied l i).now } := recog_goDiscarding
  refine ⟨gone, unasked, free, by rw [recog], by rw [recog], ?_, ?_⟩
  · rw [recog]
    exact congrArg some now
  · exact ⟨others, mem, trackers, register, groups, freed.rx_eq (by decide), fun m => by rw [sup_discardTied],
      fun m q _ => by rw [sup_discardTied]⟩

theorem carryOut_peerCarried (n : Option Nat) : v.carryOut l i n .peerCarried = v.discardTied l i := rfl

theorem carryOut_duplicate (n : Option Nat) :
    v.carryOut l i n .duplicate = (v.fault l .duplicate (v.storyFields l i n)).discardTied l i := rfl

section
variable (hr : v.record i = some q) (hb : q.body = .inbound y)
include hr hb

theorem carryOut_standby (n : Option Nat) (e : Entry) (hl : q.line = some l) : v.carryOut l i n (.standby e) =
    (v.setRecord i (some { q with body := .inbound { y with
      state := .standby, cursor := 0, quiet := e.quiet
      peer := some { owner := e.owner, progress := e.progress, since := v.now, past20 := false } } })).updRecog l
        fun r => { r with state := .text } := by
  have closed : q.closed = false := by rw [Record.closed, hl]; rfl
  rw [Part.carryOut, Part.standBehind, updRecord_eq hr, Record.mapIn, hb, closed]
  rfl

/-- A story carried, quiet or not. -/
theorem carried_facts (n : Option Nat) (quiet : Bool) :
    let z := v.carryOut l i n (.carry quiet)
    z.record i = some { q with body := .inbound { y with state := .carrying, quiet := quiet } } ∧
      (v.hasRequest (.record i) = false → z.requestOf (.record i) =
        some { owner := .record i, cls := q.priority, kind := .offer, key := i.val }) ∧
      (z.line l).recog = { (v.line l).recog with state := .text } ∧ Beside v z i ∧
      ∀ m, (z.line m).sup = (v.line m).sup := by
  intro z
  have eq : z = _ := carryOut_carry hr hb n quiet
  have sup (m : LineNo) : (z.line m).sup = (v.line m).sup := by rw [eq, sup_line_updRecog]; simp
  refine ⟨?_, fun h => ?_, ?_, ?_, sup⟩
  · rw [eq]; simp
  · rw [eq]
    exact requestOf_addRequest_self _ { owner := .record i, cls := q.priority, kind := .offer, key := i.val } h
  · rw [eq, recog_updRecog]; simp
  · refine ⟨fun j hj => ?_, by rw [eq]; simp, by rw [eq]; simp, by rw [eq]; simp, by rw [eq]; simp, by rw [eq]; simp,
      fun m => by rw [sup], fun m q _ => by rw [sup]⟩
    rw [eq]
    simp [record_setRecord_ne _ _ _ _ hj]

/-- A story in standby behind the owner of an entry. -/
theorem behind_facts (n : Option Nat) (e : Entry) (hl : q.line = some l) :
    let z := v.carryOut l i n (.standby e)
    z.record i = some { q with body := .inbound { y with
        state := .standby, cursor := 0, quiet := e.quiet
        peer := some { owner := e.owner, progress := e.progress, since := v.now, past20 := false } } } ∧
      z.requestOf (.record i) = v.requestOf (.record i) ∧
      (z.line l).recog = { (v.line l).recog with state := .text } ∧ Beside v z i ∧
      ∀ m, (z.line m).sup = (v.line m).sup := by
  intro z
  have eq : z = _ := carryOut_standby hr hb n e hl
  have sup (m : LineNo) : (z.line m).sup = (v.line m).sup := by rw [eq, sup_line_updRecog]; rfl
  refine ⟨?_, by rw [eq]; rfl, ?_, ?_, sup⟩
  · rw [eq]; exact record_setRecord_self _ _ _
  · rw [eq, recog_updRecog]; rfl
  · refine ⟨fun j hj => ?_, by rw [eq]; rfl, by rw [eq]; rfl, by rw [eq]; rfl, by rw [eq]; rfl, by rw [eq]; rfl,
      fun m => by rw [sup], fun m q _ => by rw [sup]⟩
    rw [eq]
    exact record_setRecord_ne _ _ _ _ hj

end

/-- A story freed as a duplicate. -/
theorem duplicate_facts (hr : v.record i = some q) (n : Option Nat) :
    let z := v.carryOut l i n .duplicate
    z.record i = none ∧ z.hasRequest (.record i) = false ∧ z.free = v.free ++ (q.blocks ++ q.reservation) ∧
      (z.line l).recog.state = .discarding ∧ (z.line l).recog.tied = none ∧
      (z.line l).recog.stallSince = some v.now ∧ Beside v z i ∧
      FaultRecorded v z l .duplicate (v.storyFields l i n) := by
  intro z
  obtain ⟨gone, unasked, free, state, tied, since, beside⟩ :=
    discardTied_frees (v := v.fault l .duplicate (v.storyFields l i n)) (l := l) hr
  have faulted : FaultRecorded v (v.fault l .duplicate (v.storyFields l i n)) l .duplicate (v.storyFields l i n) :=
    faultRecorded_fault
  refine ⟨gone, unasked, free, state, tied, since, ⟨beside.others, beside.mem, beside.trackers, beside.register,
    beside.groups, beside.rx, fun m => ?_, fun m k hk => ?_⟩, ?_⟩
  · refine (beside.levels m).trans ?_
    by_cases hm : m = l
    · rw [hm, sup_fault]
    · rw [line_fault_ne hm]
  · refine (beside.faults m k hk).trans ?_
    by_cases hm : m = l
    · rw [hm, faults_fault_ne hk]
    · rw [line_fault_ne hm]
  · exact faulted.congr (by show ((Part.discardTied _ l i).line l).sup.faults = _; rw [sup_discardTied])

end

/-! ### The case that decides (R113) -/

section
variable {s u : Part} {i : Slot} {service n : Nat} {quiet dup : Bool}

theorem holdsKey_iff : s.holdsKey i service n = true ↔ ∃ j y, j ≠ i ∧ s.inRecord j = some y ∧ y.service = service ∧
    y.serial = some n ∧ (y.state = .carrying ∨ y.state = .standby ∨ y.state = .standbyComplete) := by
  simp only [Part.holdsKey, List.any_eq_true, Bool.and_eq_true]
  constructor
  · rintro ⟨j, -, hj, hy⟩
    cases h : s.inRecord j with
    | none => rw [h] at hy; cases hy
    | some y =>
      rw [h] at hy
      simp only [Bool.and_eq_true, Bool.or_eq_true, beq_iff_eq, or_assoc] at hy
      exact ⟨j, y, by simpa using hj, h, hy.1.1, hy.1.2, hy.2⟩
  · rintro ⟨j, y, hj, h, hs, hn, hq⟩
    refine ⟨j, mem_allSlots j, by simpa using hj, ?_⟩
    rw [h]
    simp [hs, hn, hq, or_assoc]

theorem holdsKey_congr (h : ∀ j, j ≠ i → u.record j = s.record j) : u.holdsKey i service n = s.holdsKey i service n := by
  rw [Bool.eq_iff_iff, holdsKey_iff, holdsKey_iff]
  refine exists_congr fun j => exists_congr fun y => and_congr_right fun hj => ?_
  rw [Part.inRecord, h j hj, Part.inRecord]

theorem headingDecision_congr (h : ∀ j, j ≠ i → u.record j = s.record j) (hreg : u.register = s.register)
    (hn : u.number = s.number) : u.headingDecision i service n quiet dup = s.headingDecision i service n quiet dup := by
  rw [Part.headingDecision, Part.headingDecision, holdsKey_congr h, Part.entryOf, Part.entryOf, hreg, hn]

theorem headingDecision_of_holds (h : s.holdsKey i service n = true) :
    s.headingDecision i service n quiet dup = .duplicate := by
  rw [Part.headingDecision, if_pos h]

section
variable (h : s.holdsKey i service n = false)
include h

theorem headingDecision_of_closed {e : Entry} (he : s.entryOf service n = some e) (hc : e.state = .closed) :
    s.headingDecision i service n quiet dup = .peerCarried := by
  rw [Part.headingDecision, h, he]
  simp [hc]

theorem headingDecision_of_live {e : Entry} (he : s.entryOf service n = some e) (hl : e.state = .live)
    (ho : e.owner.station ≠ s.number) : s.headingDecision i service n quiet dup =
      if e.quiet = true ∧ quiet = false then .carry false else .standby e := by
  rw [Part.headingDecision, h, he]
  simp [hl, ho]

theorem headingDecision_of_free
    (he : ∀ e, s.entryOf service n = some e → e.state = .withdrawn ∨ (e.state = .live ∧ e.owner.station = s.number)) :
    s.headingDecision i service n quiet dup = if dup then .duplicate else .carry quiet := by
  rw [Part.headingDecision, h]
  cases hentry : s.entryOf service n with
  | none => rfl
  | some e => rcases he e hentry with hw | ⟨hl, ho⟩ <;> simp [*]

end

theorem classify_duplicate_iff {k : Tracker} : k.classify n = .duplicate ↔
    ∃ e, k.expected = some e ∧ 9949 ≤ (n + 9999 - e) % 9999 ∧ n ∉ k.gaps := by
  cases he : k.expected with
  | none => simp [Tracker.classify, he]
  | some e =>
    have eq : k.classify n = if serialDistance n e = 0 then SerialCase.next else if serialDistance n e ≤ 50 then .ahead
        else if 9949 ≤ serialDistance n e then (if k.gaps.contains n then .fill else .duplicate) else .jump := by
      rw [Tracker.classify, he]
    rw [eq]
    simp only [Option.some.injEq, exists_eq_left']
    rw [← serialDistance]
    by_cases h0 : serialDistance n e = 0
    · simp [h0]
    by_cases h50 : serialDistance n e ≤ 50
    · simp [h0, h50]; omega
    by_cases h9949 : 9949 ≤ serialDistance n e
    · by_cases hg : n ∈ k.gaps <;> simp [h0, h50, h9949, hg]
    · simp [h0, h50, h9949]

theorem duplicateSerial_iff : s.duplicateSerial service n = true ↔ ∃ k e, s.tracker service = some k ∧
    k.expected = some e ∧ 9949 ≤ (n + 9999 - e) % 9999 ∧ n ∉ k.gaps := by
  unfold Part.duplicateSerial
  cases hk : s.tracker service with
  | none => simp
  | some k => simp [classify_duplicate_iff]

end

/-! ### A heading completed -/

section
variable {s : Part} {l : LineNo} {i : Slot} {r : Record} {x : InRecord} {h : Heading}

/-- The record of slot `i` under the heading it was given (R59). -/
def Record.headed (r : Record) (x : InRecord) (h : Heading) : Record :=
  { r with
    priority := h.priority
    body := .inbound { x with serial := some h.serial, category := h.category, slug := h.slug } }

/-- The heading written into the record, and its serial taken by the tracker of the line's service (R102). -/
def Part.headed (s : Part) (l : LineNo) (i : Slot) (r : Record) (x : InRecord) (h : Heading) : Part :=
  let t := s.setRecord i (some (r.headed x h))
  t.takeSerial (s.cfg l).service h.serial (some l) (t.storyFields l i (some h.serial))

/-- A heading that satisfies R59. -/
theorem completeHeading_of_some (hr : s.record i = some r) (hb : r.body = .inbound x)
    (hh : readHeading (s.map l).subst (s.line l).recog.heading = some h) : s.completeHeading l i =
    let d := s.disposition (s.cfg l).service h.category h.priority
    if d = .discard then (s.headed l i r x h).discardTied l i
    else
      let t := (s.headed l i r x h).updIn i fun y => { y with disp := some d }
      t.carryOut l i (some h.serial) (t.headingDecision i (s.cfg l).service h.serial (d == .quiet)
        (s.duplicateSerial (s.cfg l).service h.serial)) := by
  have named : (({ r with priority := h.priority } : Record).mapIn fun x =>
      { x with serial := some h.serial, category := h.category, slug := h.slug }) = r.headed x h := by
    rw [Record.mapIn]
    simp only [hb]
    rfl
  unfold Part.completeHeading
  dsimp only
  rw [hh]
  dsimp only
  rw [updRecord_eq hr, named]
  cases s.disposition (s.cfg l).service h.category h.priority <;> rfl

end
end Sys2Proof.Machine
end

section
/-! The heading decided: `Obligations.HeadingDecided`. -/

namespace Sys2Proof.Machine

section
variable {s : Part} {l : LineNo} {i : Slot} {r : Record} {x : InRecord} {h : Heading}

/-- The decision about a heading on line `l` for the record of slot `i` (R113). -/
def Part.decision (s : Part) (l : LineNo) (i : Slot) (h : Heading) : Decision :=
  s.headingDecision i (s.cfg l).service h.serial
    (s.disposition (s.cfg l).service h.category h.priority == .quiet)
    (s.duplicateSerial (s.cfg l).service h.serial)

/-- The record of slot `i` under its heading and disposition. -/
def Record.disposed (r : Record) (x : InRecord) (h : Heading) (d : Disposition) : Record :=
  { r with
    priority := h.priority
    body := .inbound { x with serial := some h.serial, category := h.category, slug := h.slug, disp := some d } }

/-- The fault fields of a heading (R73, R105). -/
def Part.headingFields (s : Part) (l : LineNo) (i : Slot) (r : Record) (h : Heading) : FaultFields :=
  { handle := some (s.handle i), serial := some h.serial, offset := r.count, raw := none, plane := (s.line l).plane }

theorem headed_takes (hs : 1 ≤ h.serial ∧ h.serial ≤ 9999) : Act (· ∈ [.trackers, .sup, .list]) (s.setRecord i (some (r.headed x h))) (s.headed l i r x h) :=
  takeSerial_act (by decide) (by decide) (by decide) _ _ hs _ _ .refl

/-- What the heading and its serial leave (R102). -/
theorem headed_facts : (s.headed l i r x h).record i = some (r.headed x h) ∧
    (s.headed l i r x h).requestOf (.record i) = s.requestOf (.record i) ∧
    (∀ j, j ≠ i → (s.headed l i r x h).record j = s.record j) ∧
    (∀ m q, q ≠ FaultKind.serialGap.idx →
      ((s.headed l i r x h).line m).sup.faults.get q = (s.line m).sup.faults.get q) ∧
    SerialTaken s (s.headed l i r x h) (s.cfg l).service h.serial (fun m => m = l) fun m => s.headingFields m i r h := by
  have view (j : Slot) : (s.headed l i r x h).recordView j = (s.setRecord i (some (r.headed x h))).recordView j :=
    recordView_takeSerial j
  have fields : (s.setRecord i (some (r.headed x h))).storyFields l i (some h.serial) = s.headingFields l i r h :=
    storyFields_eq (r := r.headed x h) (record_setRecord_self _ _ _)
  obtain ⟨record, request, -⟩ := recordView_eq_iff.mp (view i)
  refine ⟨record.trans (record_setRecord_self _ _ _), request, fun j hj => ?_, fun m q hq => faults_takeSerial hq m, ?_⟩
  · exact (recordView_eq_iff.mp (view j)).1.trans (record_setRecord_ne _ _ _ _ hj)
  · have taken : SerialTaken (s.setRecord i (some (r.headed x h))) (s.headed l i r x h) (s.cfg l).service h.serial _ _ :=
      serialTaken_takeSerial
    refine taken.congr rfl rfl (fun _ => rfl) (fun _ => rfl) (fun _ => rfl) (fun _ => rfl) (fun _ => rfl) (fun m => ?_)
      fun m hm => ?_
    · simp only [Option.some.injEq]
      exact eq_comm
    · rw [fields, Option.some.inj hm]

section
variable (hr : s.record i = some r) (hb : r.body = .inbound x)
  (hh : readHeading (s.map l).subst (s.line l).recog.heading = some h)
include hr hb hh

/-- The record as the decision finds it, where the disposition is not DISCARD. -/
theorem completeHeading_disposed (hd : s.disposition (s.cfg l).service h.category h.priority ≠ .discard) :
    ∃ v : Part, s.completeHeading l i = v.carryOut l i (some h.serial) (s.decision l i h) ∧
      v.record i = some (r.disposed x h (s.disposition (s.cfg l).service h.category h.priority)) ∧
      (∀ j, j ≠ i → v.record j = (s.headed l i r x h).record j) ∧
      { v with records := (s.headed l i r x h).records } = s.headed l i r x h := by
  have hs := readHeading_serial hh
  obtain ⟨record, -, others, -⟩ :=
    headed_facts (s := s) (l := l) (i := i) (r := r) (x := x) (h := h)
  have takes := headed_takes (s := s) (l := l) (i := i) (r := r) (x := x) hs
  refine ⟨(s.headed l i r x h).updIn i fun y => { y with
    disp := some (s.disposition (s.cfg l).service h.category h.priority) }, ?_, ?_, ?_, ?_⟩
  · rw [completeHeading_of_some hr hb hh]
    dsimp only
    rw [if_neg hd, headingDecision_congr (s := s) (fun j hj => ?_), Part.decision]
    · exact takes.register_eq (by decide)
    · exact takes.number_eq
    · rw [updIn_eq record rfl, record_setRecord_ne _ _ _ _ hj, others j hj]
  · rw [updIn_eq record rfl, record_setRecord_self]
    rfl
  · intro j hj
    rw [updIn_eq record rfl, record_setRecord_ne _ _ _ _ hj]
  · rw [updIn_eq record rfl]
    rfl

end

/-- The record of slot `i` freed from line `l` (R57). -/
structure HeadingFreed (s t : Part) (l : LineNo) (i : Slot) (r : Record) : Prop where
  gone : t.record i = none
  unasked : t.hasRequest (.record i) = false
  free : t.free = s.free ++ (r.blocks ++ r.reservation)
  state : (t.line l).recog.state = .discarding
  tied : (t.line l).recog.tied = none
  since : (t.line l).recog.stallSince = some s.now

/-- What a completed heading does, whatever is decided. -/
structure HeadingTaken (s t : Part) (l : LineNo) (i : Slot) (r : Record) (h : Heading) : Prop where
  serial : SerialTaken s t (s.cfg l).service h.serial (fun m => m = l) fun m => s.headingFields m i r h
  others : ∀ j, j ≠ i → t.record j = s.record j
  mem : t.mem = s.mem
  register : t.register = s.register
  groups : t.groups = s.groups
  rx : t.rx = s.rx

/-- DUPLICATE of line `l` as it was (R113). -/
def Undisturbed (s t : Part) (l : LineNo) : Prop :=
  (t.line l).sup.faults.get FaultKind.duplicate.idx = (s.line l).sup.faults.get FaultKind.duplicate.idx

theorem headingTaken_of_beside {v z : Part} (hs : 1 ≤ h.serial ∧ h.serial ≤ 9999)
    (ho : ∀ j, j ≠ i → v.record j = (s.headed l i r x h).record j)
    (hv : { v with records := (s.headed l i r x h).records } = s.headed l i r x h) (hz : Beside v z i) :
    HeadingTaken s z l i r h := by
  obtain ⟨-, -, others, -, taken⟩ :=
    headed_facts (s := s) (l := l) (i := i) (r := r) (x := x) (h := h)
  have takes := headed_takes (s := s) (l := l) (i := i) (r := r) (x := x) hs
  have lines : v.lines = (s.headed l i r x h).lines := (congrArg Part.lines hv :)
  have line (m : LineNo) : v.line m = (s.headed l i r x h).line m := by rw [Part.line, lines, Part.line]
  refine ⟨?_, fun j hj => ?_, ?_, ?_, ?_, ?_⟩
  · refine taken.congr rfl ?_ (fun _ => rfl) (fun _ => rfl) (fun m => ?_) (fun _ => rfl) (fun m => ?_) (fun _ => .rfl)
      fun _ _ => rfl
    · exact hz.trackers.trans (congrArg Part.trackers hv :)
    · rw [hz.cond, Part.cond, line, Part.cond]
    · rw [hz.faults m _ (by decide), line]
  · rw [hz.others j hj, ho j hj, others j hj]
  · exact (hz.mem.trans (congrArg Part.mem hv :)).trans (takes.mem_eq (by decide))
  · exact (hz.register.trans (congrArg Part.register hv :)).trans (takes.register_eq (by decide))
  · exact (hz.groups.trans (congrArg Part.groups hv :)).trans (takes.groups_eq (by decide))
  · exact (hz.rx.trans (congrArg Part.rx hv :)).trans (takes.rx_eq (by decide))

theorem reservation_headed (hb : r.body = .inbound x) : (r.headed x h).reservation = r.reservation := by
  simp [Record.reservation, Record.headed, hb]

theorem reservation_disposed (hb : r.body = .inbound x) (d : Disposition) :
    (r.disposed x h d).reservation = r.reservation := by
  simp [Record.reservation, Record.disposed, hb]

/-- The part as the decision finds it leaves line and free list as the heading did. -/
theorem headed_rest {v : Part} (hs : 1 ≤ h.serial ∧ h.serial ≤ 9999)
    (hv : { v with records := (s.headed l i r x h).records } = s.headed l i r x h) :
    v.free = s.free ∧ v.now = s.now ∧ v.requestOf (.record i) = s.requestOf (.record i) ∧
      (v.line l).recog = (s.line l).recog ∧ Undisturbed s v l ∧ v.storyFields l i (some h.serial) =
        { v.storyFields l i (some h.serial) with handle := some (s.handle i), plane := (s.line l).plane } := by
  obtain ⟨-, request, -, faults, -⟩ :=
    headed_facts (s := s) (l := l) (i := i) (r := r) (x := x) (h := h)
  have takes := headed_takes (s := s) (l := l) (i := i) (r := r) (x := x) hs
  have lines : v.lines = (s.headed l i r x h).lines := (congrArg Part.lines hv :)
  have line (m : LineNo) : v.line m = (s.headed l i r x h).line m := by rw [Part.line, lines, Part.line]
  have port : v.port = (s.headed l i r x h).port := (congrArg Part.port hv :)
  have number : v.number = (s.headed l i r x h).number := (congrArg Part.number hv :)
  refine ⟨(congrArg Part.free hv :).trans (takes.free_eq (by decide)), (congrArg Part.now hv :).trans takes.now_eq, ?_, ?_,
    ?_, ?_⟩
  · rw [← request, Part.requestOf, port, Part.requestOf]
  · rw [line, takes.recog_eq (by decide)]; rfl
  · rw [Undisturbed, line]
    exact faults l _ (by decide)
  · have handle : v.handle i = s.handle i := by rw [Part.handle, number, takes.number_eq]; rfl
    have plane : (v.line l).plane = (s.line l).plane := by rw [line, takes.plane_eq (by decide)]; rfl
    simp only [Part.storyFields, handle, plane]

/-- A record that is freed once it has its heading. -/
theorem discardTied_headed {v : Part} {q : Record} (hs : 1 ≤ h.serial ∧ h.serial ≤ 9999) (hq : v.record i = some q)
    (blocks : q.blocks = r.blocks) (reservation : q.reservation = r.reservation)
    (others : ∀ j, j ≠ i → v.record j = (s.headed l i r x h).record j)
    (hv : { v with records := (s.headed l i r x h).records } = s.headed l i r x h) :
    HeadingFreed s (v.discardTied l i) l i r ∧ Undisturbed s (v.discardTied l i) l ∧
      HeadingTaken s (v.discardTied l i) l i r h := by
  obtain ⟨free', now', -, -, undisturbed, -⟩ := headed_rest hs hv
  obtain ⟨gone, unasked, free, state, tied, since, beside⟩ := discardTied_frees (l := l) hq
  refine ⟨⟨gone, unasked, by rw [free, free', blocks, reservation], state, tied, by rw [since, now']⟩, ?_,
    headingTaken_of_beside hs others hv beside⟩
  rw [Undisturbed, sup_discardTied]
  exact undisturbed

section
variable (hr : s.record i = some r) (hb : r.body = .inbound x)
  (hh : readHeading (s.map l).subst (s.line l).recog.heading = some h)
include hr hb hh

/-- A story to DISCARD is freed. -/
theorem completeHeading_discard (hd : s.disposition (s.cfg l).service h.category h.priority = .discard) :
    HeadingFreed s (s.completeHeading l i) l i r ∧ Undisturbed s (s.completeHeading l i) l ∧
      HeadingTaken s (s.completeHeading l i) l i r h := by
  have hs := readHeading_serial hh
  obtain ⟨record, -⟩ :=
    headed_facts (s := s) (l := l) (i := i) (r := r) (x := x) (h := h)
  have eq : s.completeHeading l i = (s.headed l i r x h).discardTied l i := by
    rw [completeHeading_of_some hr hb hh]
    exact if_pos hd
  rw [eq]
  exact discardTied_headed hs record rfl (reservation_headed hb) (fun _ _ => rfl) rfl

section
variable (hd : s.disposition (s.cfg l).service h.category h.priority ≠ .discard)
include hd

/-- A story that another station has carried is freed. -/
theorem completeHeading_peerCarried (hdec : s.decision l i h = .peerCarried) :
    HeadingFreed s (s.completeHeading l i) l i r ∧ Undisturbed s (s.completeHeading l i) l ∧
      HeadingTaken s (s.completeHeading l i) l i r h := by
  obtain ⟨v, eq, record, others, rest⟩ := completeHeading_disposed hr hb hh hd
  rw [eq, hdec, carryOut_peerCarried]
  exact discardTied_headed (readHeading_serial hh) record rfl (reservation_disposed hb _) others rest

/-- A story received twice is freed, with its fault. -/
theorem completeHeading_duplicate (hdec : s.decision l i h = .duplicate) :
    HeadingFreed s (s.completeHeading l i) l i r ∧
      FaultRecorded s (s.completeHeading l i) l .duplicate (s.headingFields l i r h) ∧
      HeadingTaken s (s.completeHeading l i) l i r h := by
  have hs := readHeading_serial hh
  obtain ⟨v, eq, record, others, rest⟩ := completeHeading_disposed hr hb hh hd
  obtain ⟨free', now', -, -, undisturbed, fields⟩ := headed_rest hs rest
  rw [eq, hdec]
  obtain ⟨gone, unasked, free, state, tied, since, beside, fault⟩ := duplicate_facts (l := l) record (some h.serial)
  refine ⟨⟨gone, unasked, ?_, state, tied, by rw [since, now']⟩, ?_, headingTaken_of_beside hs others rest beside⟩
  · rw [free, free', reservation_disposed hb]
    rfl
  · rw [fields, storyFields_eq record] at fault
    rw [FaultRecorded, undisturbed] at fault
    exact fault

/-- A story that is carried. -/
theorem completeHeading_carried {quiet : Bool} (hdec : s.decision l i h = .carry quiet) :
    let z := s.completeHeading l i
    z.record i = some { r with
        priority := h.priority
        body := .inbound { x with
          serial := some h.serial, category := h.category, slug := h.slug
          disp := some (s.disposition (s.cfg l).service h.category h.priority), state := .carrying, quiet := quiet } } ∧
      (s.hasRequest (.record i) = false → z.requestOf (.record i) =
        some { owner := .record i, cls := h.priority, kind := .offer, key := i.val }) ∧
      (z.line l).recog = { (s.line l).recog with state := .text } ∧ Undisturbed s z l ∧ HeadingTaken s z l i r h := by
  intro z
  have hs := readHeading_serial hh
  obtain ⟨v, eq, record, others, rest⟩ := completeHeading_disposed hr hb hh hd
  obtain ⟨-, -, request', recog', undisturbed, -⟩ := headed_rest hs rest
  have eq : z = v.carryOut l i (some h.serial) (.carry quiet) := by rw [← hdec]; exact eq
  obtain ⟨record', request, recog, beside, sup⟩ := carried_facts (l := l) record rfl (some h.serial) quiet
  rw [← eq] at record' request recog beside sup
  refine ⟨record', fun hn => request ?_, by rw [recog, recog'], ?_, headingTaken_of_beside hs others rest beside⟩
  · rw [hasRequest_congr request', hn]
  · rw [Undisturbed, sup]
    exact undisturbed

/-- A story that stands by behind the owner of an entry. -/
theorem completeHeading_standby {e : Entry} (hl : r.line = some l) (hdec : s.decision l i h = .standby e) :
    let z := s.completeHeading l i
    z.record i = some { r with
        priority := h.priority
        body := .inbound { x with
          serial := some h.serial, category := h.category, slug := h.slug
          disp := some (s.disposition (s.cfg l).service h.category h.priority)
          state := .standby, cursor := 0, quiet := e.quiet
          peer := some { owner := e.owner, progress := e.progress, since := s.now, past20 := false } } } ∧
      z.requestOf (.record i) = s.requestOf (.record i) ∧
      (z.line l).recog = { (s.line l).recog with state := .text } ∧ Undisturbed s z l ∧ HeadingTaken s z l i r h := by
  intro z
  have hs := readHeading_serial hh
  obtain ⟨v, eq, record, others, rest⟩ := completeHeading_disposed hr hb hh hd
  obtain ⟨-, now', request', recog', undisturbed, -⟩ := headed_rest hs rest
  have eq : z = v.carryOut l i (some h.serial) (.standby e) := by rw [← hdec]; exact eq
  obtain ⟨record', request, recog, beside, sup⟩ := behind_facts (l := l) record rfl (some h.serial) e hl
  rw [← eq] at record' request recog beside sup
  rw [now'] at record'
  refine ⟨record', request.trans request', by rw [recog, recog'], ?_, headingTaken_of_beside hs others rest beside⟩
  rw [Undisturbed, sup]
  exact undisturbed

end
end
end
end Sys2Proof.Machine
end

section
/-! The character that completes a heading: `Obligations.HeadingDecided`. -/

namespace Sys2Proof.Machine

section
variable {s : Part} {l : LineNo} {c : Byte}

theorem cond_taking {q : Condition} (h : q ≠ .stall) (m : LineNo) : (s.taking l c).cond m q = s.cond m q := by
  have sup : ((s.taking l c).line m).sup = ((s.attending l).line m).sup := by
    rw [Part.taking, Part.texting, sup_line_updRecog]
  rw [cond_of_sup sup, cond_attending _ _ h]

theorem sup_received (m : LineNo) : ((s.received l).line m).sup = (s.line m).sup := by
  by_cases hm : m = l
  · rw [hm, line_received]
  · rw [line_received_ne hm]

end

/-- `w` is `s` with the character that completes a heading stored, the buffer complete. -/
structure HeadingStored (s w : Part) (l : LineNo) (i : Slot) (r : Record) (blocks : List Nat) (c : Byte)
    (buffer : List Byte) : Prop where
  rest : { w with
    mem := s.mem, records := s.records, free := s.free, lines := s.lines, port := s.port, notices := s.notices } = s
  record : w.record i = some { r with count := r.count + 1, blocks := blocks }
  others : ∀ j, j ≠ i → w.record j = s.record j
  request : w.requestOf (.record i) = s.requestOf (.record i)
  mem : w.mem = s.mem.write (entryAddr blocks r.count) c
  free : w.free = s.free.drop (blocks.length - r.blocks.length)
  heading : (w.line l).recog.heading = buffer
  tied : (w.line l).recog.tied = some i
  plane : (w.line l).plane = s.planeRead l
  faults : ∀ m, (w.line m).sup.faults = (s.line m).sup.faults
  gap : ∀ m, w.cond m .gap = s.cond m .gap

section
variable {s : State} {l : LineNo} {i : Slot} {r : Record} {x : InRecord} {c : Byte} {blocks : List Nat}

/-- The character completes the heading once it is stored. -/
theorem exec_heading_completed {buffer : List Byte} (h : s.toPart.delivers l c) (hi : (s.line l).unit.state = .idle)
    (hg : (s.line l).recog.state = .heading) (ht : (s.line l).recog.tied = some i)
    (hs : (s.line l).recog.lineStart = false) (hl : (s.line l).recog.lookahead = []) (hr : s.record i = some r)
    (hb : r.body = .inbound x) (hx : x.state = .opening) (hc : r.count ≠ 16000) (hroom : s.toPart.room r blocks)
    (hcomplete : (c = 10 ∧ buffer = (s.line l).recog.heading) ∨
      (c ≠ 10 ∧ (s.line l).recog.heading.length + 1 = 80 ∧ buffer = (s.line l).recog.heading ++ [c])) :
    ∃ w : Part, exec (.receivedCode l) s = .next { s with toPart := (w.completeHeading l i).serveBus } ∧
      HeadingStored s.toPart w l i r blocks c buffer := by
  obtain ⟨vrecog, -, vplane, -, -, -, vline, vview, vtakes⟩ := taking_received s.toPart l c
  have vsup (m : LineNo) : (((s.toPart.received l).taking l c).line m).sup.faults = (s.line m).sup.faults := by
    rw [faults_taking, sup_received]
  have vgap (m : LineNo) : ((s.toPart.received l).taking l c).cond m .gap = s.cond m .gap := by
    rw [cond_taking (by decide), cond_of_sup (sup_received m)]
  have urecog : (((s.toPart.received l).attending l).line l).recog = { (s.line l).recog with stallSince := some s.now } := by
    rw [recog_attending, line_received]
    rfl
  have notOutside : (s.line l).recog.state ≠ .outside := by rw [hg]; decide
  have step := exec_delivered_inside h hi notOutside hs hl
  have taken (t : Part) := takeText_of_heading (s := (s.toPart.received l).attending l) (l := l) (c := c) (i := i) (t := t)
    (by rw [urecog]; exact hg) (by rw [urecog]; exact ht)
  rw [← Part.taking] at taken
  obtain ⟨v, hv⟩ : ∃ v, v = (s.toPart.received l).taking l c := ⟨_, rfl⟩
  rw [← hv] at vrecog vplane vline vview vtakes vsup vgap taken
  have vrecord (j : Slot) : v.record j = s.record j := (recordView_eq_iff.mp (vview j)).1
  have vr : v.record i = some r := (vrecord i).trans hr
  have vrest := (vtakes.mono (by decide)).rest_of_lines
  obtain ⟨t, ht', stores⟩ := storeChar_of_room (c := c) vr (room_congr (v := v) (vtakes.free_eq (by decide)) hroom)
  have eq := taken _ (takeInto_of_quiet vr hb hx hc ht' stores)
  have collected (f : Recog → Recog) (hf : ∀ g, (f g).tied = g.tied)
      (hbuffer : (f ({ (v.line l).recog with overrun := false })).heading = buffer) :
      HeadingStored s.toPart ((t.updRecog l fun g => { g with overrun := false }).updRecog l f) l i r blocks c buffer := by
    refine ⟨stores.rest_of_lines (s := s.toPart) vrest, stores.record, fun j hj => (stores.others j hj).trans (vrecord j),
      (stores.request (.record i) (fun e => nomatch e)).trans (recordView_eq_iff.mp (vview i)).2.1,
      stores.mem.trans (by rw [vtakes.mem_eq (by decide)]), stores.free.trans (by rw [vtakes.free_eq (by decide)]), ?_, ?_,
      ?_, fun m => ?_, fun m => ?_⟩
    · rw [recog_updRecog, recog_updRecog, stores.line]; exact hbuffer
    · rw [recog_updRecog, recog_updRecog, hf, stores.line, vrecog]; exact ht
    · rw [plane_line_updRecog, plane_line_updRecog, stores.line, vplane]
    · rw [sup_line_updRecog, sup_line_updRecog, stores.line, vsup]
    · rw [cond_of_sup (sup_line_updRecog _ _ _ _), cond_of_sup (sup_line_updRecog _ _ _ _), cond_of_sup (s := v), vgap]
      rw [stores.line]
  rcases hcomplete with ⟨hc, hbuf⟩ | ⟨hc, hn, hbuf⟩
  · refine ⟨t.updRecog l fun g => { g with overrun := false }, ?_, ?_⟩
    · rw [step, eq, if_pos hc]
    · have := collected id (fun _ => rfl) (by rw [vrecog, hbuf]; rfl)
      rw [updRecog_id] at this
      exact this
  · refine ⟨_, ?_, collected (fun g => { g with heading := g.heading ++ [c] }) (fun _ => rfl) ?_⟩
    · rw [step, eq, if_neg hc, if_pos (by rw [urecog]; exact hn)]
    · rw [vrecog, hbuf]

end

section
variable {s : State} {w : Part} {l : LineNo} {i : Slot} {r : Record} {blocks : List Nat} {c : Byte} {buffer : List Byte}
variable (st : HeadingStored s.toPart w l i r blocks c buffer)
include st

theorem HeadingStored.settings : w.settings = s.settings := (congrArg Part.settings st.rest :)

theorem HeadingStored.number : w.number = s.number := (congrArg Part.number st.rest :)

theorem HeadingStored.cfg (m : LineNo) : w.cfg m = s.cfg m := by rw [Part.cfg, st.settings]; rfl

theorem HeadingStored.decision (h : Heading) : w.decision l i h =
    s.headingDecision i (s.cfg l).service h.serial
      (s.disposition (s.cfg l).service h.category h.priority == .quiet)
      (s.duplicateSerial (s.cfg l).service h.serial) := by
  have trackers : w.trackers = s.trackers := (congrArg Part.trackers st.rest :)
  have register : w.register = s.register := (congrArg Part.register st.rest :)
  rw [Part.decision, headingDecision_congr st.others register st.number, st.cfg, Part.disposition, st.settings,
    Part.duplicateSerial, Part.tracker, trackers]
  rfl

theorem HeadingStored.fields (h : Heading) : w.headingFields l i { r with count := r.count + 1, blocks := blocks } h =
    { handle := some (s.handle i), serial := some h.serial, offset := r.count + 1, raw := none,
      plane := s.planeRead l } := by
  rw [Part.headingFields, st.plane, Part.handle, st.number]
  rfl

theorem HeadingStored.freed {z : Part} (hz : HeadingFreed w z l i { r with count := r.count + 1, blocks := blocks }) :
    z.record i = none ∧ z.hasRequest (.record i) = false ∧ z.free =
      s.free.drop (blocks.length - r.blocks.length) ++ (blocks ++ r.reservation) ∧
    (z.line l).recog.state = .discarding ∧ (z.line l).recog.tied = none ∧
    (z.line l).recog.stallSince = some s.now := by
  refine ⟨hz.gone, hz.unasked, ?_, hz.state, hz.tied, ?_⟩
  · rw [hz.free, st.free]
    rfl
  · rw [hz.since, (congrArg Part.now st.rest :)]

theorem HeadingStored.silent {z : Part} (hz : Undisturbed w z l) : (z.line l).sup.faults.get FaultKind.duplicate.idx =
    (s.line l).sup.faults.get FaultKind.duplicate.idx := by
  rw [Undisturbed, st.faults] at hz
  exact hz

theorem HeadingStored.faulted {z : Part} {h : Heading} (hz : FaultRecorded w z l .duplicate
      (w.headingFields l i { r with count := r.count + 1, blocks := blocks } h)) : FaultRecorded s.toPart z l .duplicate
    { handle := some (s.handle i), serial := some h.serial, offset := r.count + 1, raw := none,
      plane := s.planeRead l } := by
  rw [FaultRecorded, st.faults, st.fields] at hz
  exact hz

theorem HeadingStored.taken {z : Part} {h : Heading}
    (hz : HeadingTaken w z l i { r with count := r.count + 1, blocks := blocks } h) :
    SerialTaken s.toPart z (s.cfg l).service h.serial (fun m => m = l) (fun m =>
        { handle := some (s.handle i), serial := some h.serial, offset := r.count + 1, raw := none,
          plane := s.planeRead m }) ∧
      z.mem = s.mem.write (entryAddr blocks r.count) c ∧ (∀ j, j ≠ i → z.record j = s.record j) ∧
      z.register = s.register ∧ z.groups = s.groups ∧ z.rx = s.rx := by
  refine ⟨?_, hz.mem.trans st.mem, fun j hj => (hz.others j hj).trans (st.others j hj),
    hz.register.trans (congrArg Part.register st.rest :), hz.groups.trans (congrArg Part.groups st.rest :),
    hz.rx.trans (congrArg Part.rx st.rest :)⟩
  have serial := hz.serial
  rw [st.cfg] at serial
  refine serial.congr (congrArg Part.trackers st.rest :).symm rfl (fun m => (st.cfg m).symm) (fun m => (st.gap m).symm)
    (fun _ => rfl) (fun m => by rw [st.faults]) (fun _ => rfl) (fun _ => .rfl) fun m hm => ?_
  rw [hm, st.fields]

theorem HeadingStored.disposition (h : Heading) : w.disposition (w.cfg l).service h.category h.priority =
    s.disposition (s.cfg l).service h.category h.priority := by
  rw [st.cfg, Part.disposition, st.settings]
  rfl

section
variable {x : InRecord} {h : Heading} (hb : r.body = .inbound x)
  (hread : readHeading (w.map l).subst (w.line l).recog.heading = some h)
  (hd : w.disposition (w.cfg l).service h.category h.priority ≠ .discard)
include hb hread hd

theorem HeadingStored.carried {quiet : Bool} (hdec : w.decision l i h = .carry quiet) :
    let z := w.completeHeading l i
    (z.line l).sup.faults.get FaultKind.duplicate.idx = (s.line l).sup.faults.get FaultKind.duplicate.idx ∧
      z.record i = some { r with
        priority := h.priority, count := r.count + 1, blocks := blocks
        body := .inbound { x with
          serial := some h.serial, category := h.category, slug := h.slug
          disp := some (s.disposition (s.cfg l).service h.category h.priority), state := .carrying, quiet := quiet } } ∧
      (s.hasRequest (.record i) = false → z.requestOf (.record i) =
        some { owner := .record i, cls := h.priority, kind := .offer, key := i.val }) ∧
      (z.line l).recog.state = .text ∧ (z.line l).recog.tied = some i := by
  intro z
  obtain ⟨record, request, recog, undisturbed, -⟩ := completeHeading_carried st.record hb hread hd hdec
  rw [st.disposition] at record
  refine ⟨st.silent undisturbed, record, fun hn => request ?_, ?_, ?_⟩
  · rw [hasRequest_congr st.request]
    exact hn
  · exact (congrArg Recog.state recog :)
  · exact (congrArg Recog.tied recog :).trans st.tied

theorem HeadingStored.behind {e : Entry} (hl : r.line = some l) (hdec : w.decision l i h = .standby e) :
    let z := w.completeHeading l i
    (z.line l).sup.faults.get FaultKind.duplicate.idx = (s.line l).sup.faults.get FaultKind.duplicate.idx ∧
      z.record i = some { r with
        priority := h.priority, count := r.count + 1, blocks := blocks
        body := .inbound { x with
          serial := some h.serial, category := h.category, slug := h.slug
          disp := some (s.disposition (s.cfg l).service h.category h.priority)
          state := .standby, cursor := 0, quiet := e.quiet
          peer := some { owner := e.owner, progress := e.progress, since := s.now, past20 := false } } } ∧
      z.requestOf (.record i) = s.requestOf (.record i) ∧
      (z.line l).recog.state = .text ∧ (z.line l).recog.tied = some i := by
  intro z
  have now : w.now = s.now := (congrArg Part.now st.rest :)
  obtain ⟨record, request, recog, undisturbed, -⟩ := completeHeading_standby st.record hb hread hd hl hdec
  rw [st.disposition, now] at record
  refine ⟨st.silent undisturbed, record, request.trans st.request, ?_, ?_⟩
  · exact (congrArg Recog.state recog :)
  · exact (congrArg Recog.tied recog :).trans st.tied

end
end

/-- Settles O21: the decision by its cases, and what each does. -/
theorem headingDecided : Obligations.HeadingDecided := by
  unfold Obligations.HeadingDecided
  intro l i r x c h blocks s hd hi g hg ht hs hl hr hb hline hx hc hroom hcomplete service disp named made holds entry duplicate
  have buffered : ∃ buffer, readHeading (s.map l).subst buffer = some h ∧ ((c = 10 ∧ buffer = g.heading) ∨
      (c ≠ 10 ∧ g.heading.length + 1 = 80 ∧ buffer = g.heading ++ [c])) := by
    rcases hcomplete with ⟨h10, hread⟩ | ⟨h10, hn, hread⟩
    · exact ⟨_, hread, .inl ⟨h10, rfl⟩⟩
    · exact ⟨_, hread, .inr ⟨h10, hn, rfl⟩⟩
  obtain ⟨buffer, hread, hbuffer⟩ := buffered
  obtain ⟨w, exec, st⟩ := exec_heading_completed hd hi hg ht hs hl hr hb hx (by omega) hroom hbuffer
  have wread : readHeading (w.map l).subst (w.line l).recog.heading = some h := by
    rw [st.heading, Part.map, st.settings, st.cfg]
    exact hread
  have wdisp : w.disposition (w.cfg l).service h.category h.priority = disp := st.disposition h
  have notDiscard (hd : disp ≠ .discard) : w.disposition (w.cfg l).service h.category h.priority ≠ .discard := by
    rw [wdisp]; exact hd
  have decision := st.decision h
  have holds_iff : s.holdsKey i service h.serial = true ↔ holds := holdsKey_iff
  have unheld (hn : ¬holds) : s.holdsKey i service h.serial = false := by
    rw [← Bool.not_eq_true, holds_iff]; exact hn
  have dup_iff : s.duplicateSerial service h.serial = true ↔ duplicate := duplicateSerial_iff
  have wrecord := st.record
  have freed := completeHeading_discard wrecord hb wread
  have tail : HeadingTaken w (w.completeHeading l i) l i { r with count := r.count + 1, blocks := blocks } h := by
    by_cases hdis : disp = .discard
    · exact (freed (wdisp.trans hdis)).2.2
    · cases hdec : w.decision l i h with
      | carry quiet => exact (completeHeading_carried wrecord hb wread (notDiscard hdis) hdec).2.2.2.2
      | standby e => exact (completeHeading_standby wrecord hb wread (notDiscard hdis) hline hdec).2.2.2.2
      | peerCarried => exact (completeHeading_peerCarried wrecord hb wread (notDiscard hdis) hdec).2.2
      | duplicate => exact (completeHeading_duplicate wrecord hb wread (notDiscard hdis) hdec).2.2
  refine ⟨_, exec, ⟨fun hdis => ?_, fun hdis => ⟨fun hheld => ?_, fun e hn he hc => ?_, fun e hn he hlive ho => ?_,
    fun hn he => ?_⟩⟩, st.taken tail⟩
  · obtain ⟨gone, undisturbed, -⟩ := freed (wdisp.trans hdis)
    exact ⟨st.freed gone, st.silent undisturbed⟩
  · have hdec := decision.trans (headingDecision_of_holds (holds_iff.mpr hheld))
    obtain ⟨gone, fault, -⟩ := completeHeading_duplicate wrecord hb wread (notDiscard hdis) hdec
    exact ⟨st.freed gone, st.faulted fault⟩
  · have hdec := decision.trans (headingDecision_of_closed (unheld hn) he hc)
    obtain ⟨gone, undisturbed, -⟩ := completeHeading_peerCarried wrecord hb wread (notDiscard hdis) hdec
    exact ⟨st.freed gone, st.silent undisturbed⟩
  · have hdec := decision.trans (headingDecision_of_live (unheld hn) he hlive ho)
    by_cases hq : e.quiet = true ∧ (disp == .quiet) = false
    · rw [if_pos hq] at hdec
      obtain ⟨silent, carried⟩ := st.carried hb wread (notDiscard hdis) hdec
      refine ⟨silent, fun h => ?_, fun _ _ => carried⟩
      rcases h with h | h
      · rw [h] at hq; cases hq.1
      · rw [h] at hq; cases hq.2
    · rw [if_neg hq] at hdec
      obtain ⟨silent, behind⟩ := st.behind hb wread (notDiscard hdis) hline hdec
      refine ⟨silent, fun _ => behind, fun h hcarry => absurd ⟨h, ?_⟩ hq⟩
      rw [hcarry]
      rfl
  · have hdec := decision.trans (headingDecision_of_free (unheld hn) he)
    refine ⟨fun hdup => ?_, fun hdup => ?_⟩
    · rw [if_pos (dup_iff.mpr hdup)] at hdec
      obtain ⟨gone, fault, -⟩ := completeHeading_duplicate wrecord hb wread (notDiscard hdis) hdec
      exact ⟨st.freed gone, st.faulted fault⟩
    · rw [if_neg (mt dup_iff.mp hdup)] at hdec
      exact st.carried hb wread (notDiscard hdis) hdec

end Sys2Proof.Machine
end

section
/-! A story that has taken a character: takeover and the TEXT it asks for (03.6, 06.4). -/

namespace Sys2Proof.Machine

/-- Changes of records and of the send list leave the rest. -/
theorem Act.rest_of_records {s t : Part} (h : Act (· ∈ [.record, .list]) s t) :
    { t with records := s.records, port := s.port } = s :=
  Part.eq_of_standing h.standing_eq (h.hearings_eq (by decide)) (h.rx_eq (by decide))
    (h.lines_eq (by decide) (by decide) (by decide) (by decide) (by decide)) (h.mem_eq (by decide))
    (h.free_eq (by decide)) rfl (h.recent_eq (by decide)) (h.trackers_eq (by decide)) (h.register_eq (by decide))
    (h.groups_eq (by decide)) rfl (h.notices_eq (by decide)) (h.reportSince_eq (by decide))

section
variable {s : Part} {i : Slot} {r : Record} {x : InRecord} {p : Peer}

/-- A standby story takes over as it grows beyond its silent peer (R122). -/
def overtakes (r : Record) (x : InRecord) (p : Peer) : Prop :=
  x.state = .standby ∧ x.peer = some p ∧ p.past20 = true ∧ x.quiet = false ∧ p.progress < r.count

/-- The unsent characters of a story with a line number 64, or hold a LINE END of a story of the first priorities
(R64). -/
theorem textDue_iff (hl : r.closed = false) : s.textDue r x = true ↔ 64 + x.cursor ≤ r.count ∨
    (r.priority ≤ 1 ∧ ∃ n, x.cursor ≤ n ∧ n < r.count ∧ s.mem.read (entryAddr r.blocks n) = 10) := by
  have lineEnds : (s.entries r x.cursor (r.count - x.cursor)).contains lineEnd = true ↔
      ∃ n, x.cursor ≤ n ∧ n < r.count ∧ s.mem.read (entryAddr r.blocks n) = 10 := by
    rw [List.contains_iff_mem, Part.entries, List.mem_map]
    constructor
    · rintro ⟨k, hk, e⟩
      rw [List.mem_range] at hk
      exact ⟨x.cursor + k, by omega, by omega, e⟩
    · rintro ⟨n, h1, h2, e⟩
      refine ⟨n - x.cursor, List.mem_range.mpr (by omega), ?_⟩
      rw [Nat.add_sub_cancel' h1]
      exact e
  simp only [Part.textDue, hl, Bool.or_false, Bool.and_eq_true, Bool.or_eq_true, decide_eq_true_eq, lineEnds]
  constructor
  · rintro ⟨-, h | h⟩
    · exact .inl (by omega)
    · exact .inr h
  · rintro (h | ⟨hp, n, h1, h2, e⟩)
    · exact ⟨by omega, .inl (by omega)⟩
    · exact ⟨by omega, .inr ⟨hp, n, h1, h2, e⟩⟩

section
variable (hr : s.record i = some r) (hb : r.body = .inbound x)
include hr hb

/-- An open carried story that asks for nothing yet. -/
theorem requestNext_of_open (hx : x.state = .carrying) (hn : s.hasRequest (.record i) = false) (hl : r.closed = false) :
    s.requestNext i = if x.quiet = false ∧ s.textDue r x = true then s.requestStory i .text else s := by
  rw [requestNext_of_carrying hr hb hx hn, hl]
  cases x.quiet <;> cases s.textDue r x <;> rfl

/-- A story that has taken a character, carried or in standby. -/
theorem advance_facts (hx : x.state = .carrying ∨ x.state = .standby) :
    let z := (s.silentTakeover i).requestNext i
    { z with records := s.records, port := s.port } = s ∧ (∀ j, j ≠ i → z.record j = s.record j) ∧
      ((∀ p, ¬overtakes r x p) → z.record i = some r) ∧ (∀ p, overtakes r x p → TakesOver s z i r x p) ∧
      (x.state = .standby → (∀ p, ¬overtakes r x p) → z.requestOf (.record i) = s.requestOf (.record i)) ∧
      (x.state = .carrying → s.hasRequest (.record i) = false → r.closed = false →
        (x.quiet = false → s.textDue r x = true → z.requestOf (.record i) =
          some { owner := .record i, cls := r.priority, kind := .text, key := i.val }) ∧
        (x.quiet = true ∨ s.textDue r x = false → z.hasRequest (.record i) = false)) := by
  intro z
  have act : Act (· ∈ [.record, .list]) s z := (silentTakeover_takes s i).trans ((requestNext_lists _ i).mono (by decide))
  rcases hx with hx | hx
  · have still : s.silentTakeover i = s := silentTakeover_of_not_standing hr hb (by rw [hx]; decide)
    have eq : z = s.requestNext i := by show (s.silentTakeover i).requestNext i = _; rw [still]
    have never (p : Peer) : ¬overtakes r x p := fun h => by rw [overtakes, hx] at h; cases h.1
    refine ⟨act.rest_of_records, fun j _ => by rw [eq, requestNext_record], fun _ => by rw [eq, requestNext_record, hr],
      fun p h => absurd h (never p), fun h => (nomatch hx.symm.trans h), fun _ hn hl => ⟨fun hq hd => ?_, fun h => ?_⟩⟩
    · rw [eq, requestNext_of_open hr hb hx hn hl, if_pos ⟨hq, hd⟩, requestStory_eq hr]
      exact requestOf_addRequest_self _ { owner := .record i, cls := r.priority, kind := .text, key := i.val } hn
    · rw [eq, requestNext_of_open hr hb hx hn hl, if_neg, hn]
      rintro ⟨hq, hd⟩
      rcases h with h | h
      · rw [hq] at h; cases h
      · rw [hd] at h; cases h
  · have carrying (h : x.state = .carrying) : False := by rw [hx] at h; cases h
    by_cases ho : ∃ p, overtakes r x p
    · obtain ⟨p, ho⟩ := ho
      obtain ⟨-, hp, h20, hq, hn⟩ := id ho
      have taken : s.silentTakeover i = s.takeover i := silentTakeover_of_more hr hb hp (.inl hx) h20 hq hn
      have takes := takeover_takesOver hr hb hp
      have eq : z = s.takeover i := by
        show (s.silentTakeover i).requestNext i = _
        rw [taken, requestNext_of_hasRequest _ _ takes.2.1]
      refine ⟨act.rest_of_records, fun j hj => by rw [eq, record_takeover_ne hr hb hp hj],
        fun h => absurd ho (h p), fun p' ho' => ?_, fun _ h => absurd ho (h p),
        fun h => (carrying h).elim⟩
      rw [Option.some.inj (ho'.2.1.symm.trans hp), eq]
      exact takes
    · have still : s.silentTakeover i = s := by
        cases hp : x.peer with
        | none => simp only [Part.silentTakeover, hr, hb, hp]
        | some p =>
          refine silentTakeover_of_less hr hb hp fun ⟨_, h20, hq, hn⟩ => ho ⟨p, hx, hp, h20, hq, hn⟩
      have eq : z = s := by
        show (s.silentTakeover i).requestNext i = _
        rw [still, requestNext_of_not_sending hr hb (by rw [hx]; decide) (by rw [hx]; decide)]
      exact ⟨act.rest_of_records, fun j _ => by rw [eq], fun _ => by rw [eq, hr], fun p h => absurd ⟨p, h⟩ ho,
        fun _ _ => by rw [eq], fun h => (carrying h).elim⟩

end

/-- The story of a line in TEXT takes a character: stored, and advanced. -/
theorem exists_takeText_stored {l : LineNo} {c : Byte} {blocks : List Nat} (hg : (s.line l).recog.state = .text)
    (ht : (s.line l).recog.tied = some i) (hr : s.record i = some r) (hc : r.count ≠ 16000) (hroom : s.room r blocks) :
    ∃ u : Part, s.takeText l c = (u.silentTakeover i).requestNext i ∧
      u.record i = some { r with count := r.count + 1, blocks := blocks } ∧ (∀ j, j ≠ i → u.record j = s.record j) ∧
      u.mem = s.mem.write (entryAddr blocks r.count) c ∧ u.free = s.free.drop (blocks.length - r.blocks.length) ∧
      u.requestOf (.record i) = s.requestOf (.record i) ∧
      (u.line l).recog = { (s.line l).recog with lineStart := c == 10, overrun := false } ∧
      (u.line l).sup = (s.line l).sup ∧ (u.line l).unit = (s.line l).unit ∧ (u.line l).plane = (s.line l).plane ∧
      (u.line l).sched = (s.line l).sched ∧ (∀ m, m ≠ l → u.line m = s.line m) ∧
      { u with
        mem := s.mem, records := s.records, free := s.free, lines := s.lines, port := s.port,
        notices := s.notices } = s := by
  have takes : Act (· ∈ [.recog]) s (s.texting l c) := .recog _ _ (by decide) .refl
  obtain ⟨t, e, stores⟩ := storeChar_of_room (s := s.texting l c) (c := c) hr hroom
  have others (m : LineNo) (hm : m ≠ l) : (s.texting l c).line m = s.line m := line_updRecog_ne _ _ _ _ hm
  refine ⟨t.updRecog l fun g => { g with overrun := false }, ?_, stores.record, stores.others, stores.mem, stores.free,
    stores.request (.record i) (fun e => nomatch e), ?_, ?_, ?_, ?_, ?_, fun m hm => ?_,
    stores.rest_of_lines (takes.mono (by decide)).rest_of_lines⟩
  · rw [takeText_of_text hg ht, takeInto_of_stored (s := s.texting l c) hr hc e]
  · rw [recog_updRecog, stores.line, recog_texting, lineEnd]
  · rw [sup_line_updRecog, stores.line, Part.texting, sup_line_updRecog]
  · rw [unit_line_updRecog, stores.line, Part.texting, unit_line_updRecog]
  · rw [plane_line_updRecog, stores.line, Part.texting, plane_line_updRecog]
  · rw [sched_line_updRecog, stores.line, Part.texting, sched_line_updRecog]
  · rw [line_updRecog_ne _ _ _ _ hm, stores.line, others m hm]

end
end Sys2Proof.Machine
end

section
/-! Codes taken in IDLE (01.2, 02.3, 03.2). -/

namespace Sys2Proof.Machine

/-- Changes of lines, records and the send list leave the rest. -/
theorem Act.rest_of_lines_records {s t : Part}
    (h : Act (· ∈ [.unit, .plane, .recog, .sched, .sup, .list, .record]) s t) :
    { t with lines := s.lines, port := s.port, records := s.records } = s :=
  Part.eq_of_standing h.standing_eq (h.hearings_eq (by decide)) (h.rx_eq (by decide)) rfl (h.mem_eq (by decide))
    (h.free_eq (by decide)) rfl (h.recent_eq (by decide)) (h.trackers_eq (by decide)) (h.register_eq (by decide))
    (h.groups_eq (by decide)) rfl (h.notices_eq (by decide)) (h.reportSince_eq (by decide))

section
variable {s : Part} {l : LineNo}

/-- The unit of line `l` as its stop is sampled (R4). -/
def Part.sampling (s : Part) (l : LineNo) (u : LineUnit) : LineUnit := { u with rcv := if s.mark l then .hunt else .waitMark }

/-- What the conversion of a code received in IDLE leaves, the recognizer aside. -/
def Part.converted (s : Part) (l : LineNo) (k : Option FaultKind) : Part := s.conversion l (s.sampling l) id k

theorem faultless_attending (m : LineNo) : ((s.attending l).line m).sup.faultless = (s.line m).sup.faultless :=
  (congrArg (fun x : Supervision => x.faultless) (unflagged_attending s l m) :)

/-- The fields of a converter fault inside a story (R34). -/
theorem inboundFields_of_tied {i : Slot} {r : Record} {x : InRecord} {code : Code} {p : Plane}
    (ht : (s.line l).recog.tied = some i) (hr : s.record i = some r) (hb : r.body = .inbound x) :
    s.inboundFields l code p =
      { handle := some (s.handle i), serial := x.serial, offset := r.count, raw := some code, plane := p } := by
  simp only [Part.inboundFields, ht, inRecord_serial hr hb, hr]
  rfl

theorem inboundFields_of_untied {code : Code} {p : Plane} (ht : (s.line l).recog.tied = none) :
    s.inboundFields l code p = { handle := none, serial := none, offset := 0, raw := some code, plane := p } := by
  simp only [Part.inboundFields, ht]

end

section
variable {s : State} {l : LineNo} {c : Option Byte} {k : Option FaultKind}

theorem exec_converts (h : s.toPart.converts l c k) (hi : (s.line l).unit.state = .idle) : exec (.receivedCode l) s =
    .next { s with toPart := ((s.toPart.converted l k).recogOption l c).serveBus } := by
  rw [exec_receivedCode, sampleStop_of_idle h hi]
  rfl

/-- A character of a story in TEXT, once its code is converted. -/
theorem exec_converts_text {ch : Byte} (h : s.toPart.converts l (some ch) k) (hi : (s.line l).unit.state = .idle)
    (hg : (s.line l).recog.state = .text) (hs : (s.line l).recog.lineStart = false)
    (hl : (s.line l).recog.lookahead = []) : exec (.receivedCode l) s =
      .next { s with toPart := (((s.toPart.converted l k).attending l).takeText l ch).serveBus } := by
  have recog : ((s.toPart.converted l k).line l).recog = (s.line l).recog := conversion_takes.recog_eq (by decide) l
  rw [exec_converts h hi, Part.recogOption, recogChar_inside, insideChar_of_text]
  · rw [recog]; exact hs
  · rw [recog]; exact hl
  · rw [Part.converted, unit_conversion]
    exact fun e => by rw [Part.sampling, id, hi] at e; cases e
  · rw [recog, hg]; decide

end

/-- What `t` has of a code of line `l` that is converted with fault `k`, and nothing of the recognizer. -/
structure CodeConverted (s t : Part) (l : LineNo) (k : Option FaultKind) : Prop where
  converted : Converted s t l k (s.inboundFields l (s.line l).unit.acc (s.line l).plane)
  unit : (t.line l).unit = s.sampledUnit l
  sched : (t.line l).sched = (s.line l).sched
  lines : ∀ m, m ≠ l → t.line m = s.line m
  faultless : (t.line l).sup.faultless = (s.line l).sup.faultless

section
variable {s : Part} {l : LineNo} {c : Option Byte} {k : Option FaultKind}

theorem codeConverted_converted (h : s.converts l c k) : CodeConverted s (s.converted l k) l k :=
  ⟨converted_conversion h, unit_conversion, conversion_takes.sched_eq (by decide) l, fun _ hm => line_conversion_ne hm,
    faultless_conversion l⟩

theorem CodeConverted.attending {t : Part} (h : CodeConverted s t l k) : CodeConverted s (t.attending l) l k := by
  have takes := attending_takes t l
  refine ⟨h.converted.congr (takes.plane_eq (by decide) l) (faults_attending t l l) ?_, ?_, ?_, fun m hm => ?_, ?_⟩
  · exact (congrArg (·.counter) (unflagged_attending t l l) :)
  · rw [takes.unit_eq (by decide), h.unit]
  · rw [takes.sched_eq (by decide), h.sched]
  · rw [line_attending_ne _ _ hm, h.lines m hm]
  · rw [faultless_attending, h.faultless]

theorem CodeConverted.congr {t u : Part} (h : CodeConverted s t l k) (hu : (u.line l).unit = (t.line l).unit)
    (hp : (u.line l).plane = (t.line l).plane) (hk : (u.line l).sched = (t.line l).sched)
    (hs : (u.line l).sup = (t.line l).sup) (hl : ∀ m, m ≠ l → u.line m = t.line m) : CodeConverted s u l k :=
  ⟨h.converted.congr hp (by rw [hs]) (by rw [hs]), hu.trans h.unit, hk.trans h.sched,
    fun m hm => (hl m hm).trans (h.lines m hm), by rw [hs, h.faultless]⟩

end

section
variable {s : State} {l : LineNo} {i : Slot} {r : Record} {x : InRecord} {c : Option Byte} {k : Option FaultKind}
variable (h : s.toPart.converts l c k) (hi : (s.line l).unit.state = .idle) (ht : (s.line l).recog.tied = some i)
variable (hr : s.record i = some r) (hb : r.body = .inbound x)
include h hi ht hr hb

/-- Nothing handed on: the story and the recognizer stay as they are. -/
theorem nothing_handed_on (hc : c = none) : ∃ t : Part, exec (.receivedCode l) s = .next { s with toPart := t.serveBus } ∧
    CodeConverted s.toPart t l k ∧ (t.line l).recog = (s.line l).recog ∧ t.cond l .stall = s.cond l .stall ∧
    { t with lines := s.lines, port := s.port } = s.toPart := by
  subst hc
  have noMutilation : ¬(k = some .framing ∨ k = some .mutilated) := by
    obtain ⟨-, -, ⟨-, -, hc, -⟩ | ⟨-, -, -, rfl⟩ | ⟨-, -, -, hc, -⟩ | ⟨-, -, -, -, h⟩⟩ := h
    · cases hc
    · decide
    · cases hc
    · rcases h with ⟨-, rfl, -⟩ | ⟨-, hc, -⟩ | ⟨-, -, rfl⟩
      · decide
      · cases hc
      · decide
  refine ⟨s.toPart.converted l k, exec_converts h hi, codeConverted_converted h,
    conversion_takes.recog_eq (by decide) l, cond_conversion (by decide) l, ?_⟩
  have records : (s.toPart.converted l k).records = s.records := by
    apply Vector.ext
    intro n hn
    have record (j : Slot) : (s.toPart.converted l k).record j = s.record j := by
      by_cases hj : j = i
      · rw [hj, Part.converted, record_conversion ht hr hb, InRecord.mutilatedBy, if_neg noMutilation, hr, ← hb]
      · rw [Part.converted, record_conversion_ne (by rw [ht]; exact fun e => hj (Option.some.inj e).symm)]
    exact record ⟨n, hn⟩
  have rest := (conversion_takes (s := s.toPart) (l := l) (f := s.toPart.sampling l) (g := id) (k := k)).mono
    (K' := (· ∈ [.unit, .plane, .recog, .sched, .sup, .list, .record])) (by decide)
  have eq := rest.rest_of_lines_records
  rw [← records] at eq
  exact eq

end
end Sys2Proof.Machine
end

section
/-! A character of a story in TEXT, and at the length limit (03.2, 03.6 to 03.8). -/

namespace Sys2Proof.Machine

/-- The character `ch` joins the tied story, which has room for it: what becomes of story, store and line. -/
structure CharacterTaken (s t : Part) (l : LineNo) (i : Slot) (r : Record) (x y : InRecord) (blocks : List Nat)
    (ch : Byte) : Prop where
  mem : t.mem = s.mem.write (entryAddr blocks r.count) ch
  stays : (∀ p, ¬overtakes { r with count := r.count + 1 } x p) →
    t.record i = some { r with count := r.count + 1, blocks := blocks, body := .inbound y }
  takesOver : ∀ p, overtakes { r with count := r.count + 1 } x p →
    TakesOver s t i { r with count := r.count + 1, blocks := blocks, body := .inbound y } y p
  quietly : x.state = .standby → (∀ p, ¬overtakes { r with count := r.count + 1 } x p) →
    t.requestOf (.record i) = s.requestOf (.record i)
  others : ∀ j, j ≠ i → t.record j = s.record j
  free : t.free = s.free.drop (blocks.length - r.blocks.length)
  asks : x.state = .carrying → s.hasRequest (.record i) = false → r.line = some l →
    let due := 63 + x.cursor ≤ r.count ∨
      (r.priority ≤ 1 ∧ ∃ n, x.cursor ≤ n ∧ n ≤ r.count ∧ t.mem.read (entryAddr blocks n) = 10)
    (x.quiet = false → due → t.requestOf (.record i) =
      some { owner := .record i, cls := r.priority, kind := .text, key := i.val }) ∧
    (x.quiet = true ∨ ¬due → t.hasRequest (.record i) = false)
  recog : (t.line l).recog = { (s.line l).recog with lineStart := ch == 10, overrun := false, stallSince := some s.now }
  stall : t.cond l .stall = false
  rest : { t with
    mem := s.mem, records := s.records, free := s.free, lines := s.lines, port := s.port, notices := s.notices } = s

section
variable {s : State} {l : LineNo} {i : Slot} {r : Record} {x : InRecord} {k : Option FaultKind} {ch : Byte}
variable {blocks : List Nat}

theorem mutilatedBy_kept (x : InRecord) (k : Option FaultKind) : (x.mutilatedBy k).state = x.state ∧
    (x.mutilatedBy k).peer = x.peer ∧ (x.mutilatedBy k).quiet = x.quiet ∧ (x.mutilatedBy k).cursor = x.cursor := by
  unfold InRecord.mutilatedBy
  split <;> exact ⟨rfl, rfl, rfl, rfl⟩

/-- The part that the recognizer finds for a character of a story in TEXT. -/
theorem attended_facts (ht : (s.line l).recog.tied = some i) (hr : s.record i = some r) (hb : r.body = .inbound x) :
    let a := (s.toPart.converted l k).attending l
    (a.line l).recog = { (s.line l).recog with stallSince := some s.now } ∧
      a.record i = some { r with body := .inbound (x.mutilatedBy k) } ∧ (∀ j, j ≠ i → a.record j = s.record j) ∧
      a.requestOf (.record i) = s.requestOf (.record i) ∧ a.cond l .stall = false ∧
      Act (· ∈ [.unit, .plane, .recog, .sched, .sup, .list, .record]) s.toPart a := by
  intro a
  have takes : Act (· ∈ [.unit, .plane, .sup, .list, .record]) s.toPart (s.toPart.converted l k) := conversion_takes
  have act := attending_takes (s.toPart.converted l k) l
  have view (j : Slot) := recordView_eq_iff.mp (recordView_attending (s.toPart.converted l k) l j)
  refine ⟨?_, ?_, fun j hj => ?_, ?_, cond_attending_stall _ _, (takes.mono (by decide)).trans (act.mono (by decide))⟩
  · rw [recog_attending, takes.recog_eq (by decide), takes.now_eq]
  · exact (view i).1.trans (record_conversion ht hr hb)
  · exact (view j).1.trans (record_conversion_ne (by rw [ht]; exact fun e => hj (Option.some.inj e).symm))
  · exact (view i).2.1.trans (requestOf_conversion (fun e => nomatch e))

/-- A character of a story in TEXT, CARRYING or STANDBY (R52, R56, R64, R122). -/
theorem character_taken (h : s.toPart.converts l (some ch) k) (hi : (s.line l).unit.state = .idle)
    (hg : (s.line l).recog.state = .text) (ht : (s.line l).recog.tied = some i) (hs : (s.line l).recog.lineStart = false)
    (hl : (s.line l).recog.lookahead = []) (hr : s.record i = some r) (hb : r.body = .inbound x)
    (hx : x.state = .carrying ∨ x.state = .standby) (hc : r.count < 16000) (hroom : s.toPart.room r blocks) :
    ∃ t : Part, exec (.receivedCode l) s = .next { s with toPart := t.serveBus } ∧ CodeConverted s.toPart t l k ∧
      CharacterTaken s.toPart t l i r x (x.mutilatedBy k) blocks ch := by
  obtain ⟨state, peer, quiet, cursor⟩ := mutilatedBy_kept x k
  have conv := (codeConverted_converted h).attending
  obtain ⟨arecog, arecord, aothers, arequest, astall, act⟩ := attended_facts (k := k) ht hr hb
  have step := exec_converts_text h hi hg hs hl
  obtain ⟨a, ha⟩ : ∃ a, a = (s.toPart.converted l k).attending l := ⟨_, rfl⟩
  rw [← ha] at conv arecog arecord aothers arequest astall act step
  have free : a.free = s.free := act.free_eq (by decide)
  have mem : a.mem = s.mem := act.mem_eq (by decide)
  obtain ⟨u, eq, record, others, umem, ufree, request, recog, sup, unit, plane, sched, lines, urest⟩ :=
    exists_takeText_stored (s := a) (l := l) (c := ch) (blocks := blocks) (by rw [arecog]; exact hg)
      (by rw [arecog]; exact ht) arecord (by exact Nat.ne_of_lt hc) (room_congr free hroom)
  obtain ⟨zrest, zothers, stays, taken, quietly, asks⟩ := advance_facts (s := u) record rfl (by rw [state]; exact hx)
  rw [← eq] at zrest zothers stays taken quietly asks
  obtain ⟨t, ht'⟩ : ∃ t, t = a.takeText l ch := ⟨_, rfl⟩
  rw [← ht'] at zrest zothers stays taken quietly asks step
  have tlines : t.lines = u.lines := (congrArg Part.lines zrest :)
  have line (m : LineNo) : t.line m = u.line m := by rw [Part.line, tlines, Part.line]
  have tmem : t.mem = u.mem := (congrArg Part.mem zrest :)
  have hasReq (hn : s.hasRequest (.record i) = false) : u.hasRequest (.record i) = false := by
    rw [hasRequest_congr (request.trans arequest)]; exact hn
  have over_iff (p : Peer) : overtakes { r with count := r.count + 1 } x p ↔ overtakes
      { r with count := r.count + 1, blocks := blocks, body := .inbound (x.mutilatedBy k) } (x.mutilatedBy k) p := by
    simp only [overtakes, state, peer, quiet]
  refine ⟨t, step, conv.congr (by rw [line, unit]) (by rw [line, plane]) (by rw [line, sched]) (by rw [line, sup])
    (fun m hm => by rw [line, lines m hm]), ?_⟩
  refine ⟨by rw [tmem, umem, mem], fun h => stays fun p hp => h p ((over_iff p).mpr hp), fun p hp => ?_,
    fun hst h => ?_, fun j hj => ?_, ?_, fun hcar hn hline => ?_, ?_, ?_, ?_⟩
  · obtain ⟨trecord, asked, offer⟩ := taken p ((over_iff p).mp hp)
    exact ⟨trecord, asked, fun hq => offer (hasReq hq)⟩
  · exact (quietly (state.trans hst) fun p hp => h p ((over_iff p).mpr hp)).trans (request.trans arequest)
  · exact (zothers j hj).trans ((others j hj).trans (aothers j hj))
  · exact (congrArg Part.free zrest :).trans (by rw [ufree, free])
  · have due := textDue_iff (s := u) (x := x.mutilatedBy k)
      (r := { r with count := r.count + 1, blocks := blocks, body := .inbound (x.mutilatedBy k) })
      (by rw [Record.closed, hline]; rfl)
    obtain ⟨asked, silent⟩ := asks (state.trans hcar) (hasReq hn) (by rw [Record.closed, hline]; rfl)
    rw [← Bool.not_eq_true, due] at silent
    rw [due] at asked
    simp only [cursor, quiet, ← tmem] at asked silent
    have same : (64 + x.cursor ≤ r.count + 1 ∨ (r.priority ≤ 1 ∧ ∃ n, x.cursor ≤ n ∧ n < r.count + 1 ∧
        t.mem.read (entryAddr blocks n) = 10)) ↔ (63 + x.cursor ≤ r.count ∨ (r.priority ≤ 1 ∧ ∃ n, x.cursor ≤ n ∧
          n ≤ r.count ∧ t.mem.read (entryAddr blocks n) = 10)) := by
      simp only [Nat.lt_succ_iff]
      exact or_congr_left (by omega)
    rw [same] at asked silent
    exact ⟨asked, silent⟩
  · rw [line, recog, arecog]
  · rw [cond_of_sup (s := a) (by rw [line, sup]), astall]
  · have stored := (congrArg (fun q : Part => { q with
      mem := a.mem, records := a.records, free := a.free, lines := a.lines, port := a.port, notices := a.notices }) zrest :)
    have before := stored.trans urest
    have start := act.rest_of_lines_records
    have whole := (congrArg (fun q : Part => { q with
      mem := s.mem, records := s.records, free := s.free, lines := s.lines, port := s.port, notices := s.notices }) before :)
    have last := (congrArg (fun q : Part => { q with mem := s.mem, free := s.free, notices := s.notices }) start :)
    exact whole.trans last

end
end Sys2Proof.Machine
end

section
/-! A character at the length limit, and a character outside stories (03.1, 03.8). -/

namespace Sys2Proof.Machine

section
variable {s : Part} {l : LineNo} {i : Slot} {r : Record} {x : InRecord} {c : Byte}

theorem reservation_of_inbound (hb : r.body = .inbound x) : r.reservation = [] := by
  rw [Record.reservation, hb]

/-- A character for a story of 16,000 closes it as truncated (R69, R70). -/
theorem takeText_of_limit (hg : (s.line l).recog.state = .opening ∨ (s.line l).recog.state = .heading ∨
      (s.line l).recog.state = .text) (ht : (s.line l).recog.tied = some i) (hr : s.record i = some r)
    (hc : r.count = 16000) : s.takeText l c = ((s.texting l c).closeStory l true).goDiscarding l := by
  have e : (s.texting l c).takeInto l i c = (((s.texting l c).closeStory l true).goDiscarding l, false) :=
    takeInto_of_limit (s := s.texting l c) hr hc
  rcases hg with hg | hg | hg
  · rw [takeText_of_opening hg ht e]
    exact if_neg fun h => Bool.false_ne_true h.1
  · exact takeText_of_heading_limit hg ht e
  · rw [takeText_of_text hg ht, e]

theorem sup_closeStory {tr : Bool} (ht : (s.line l).recog.tied = some i) (hr : s.record i = some r)
    (hb : r.body = .inbound x) : ((s.closeStory l tr).line l).sup = ((s.endNoted l i x tr).line l).sup := by
  rw [closeStory_of_tied s l i tr ht, sup_line_updRecog, line_endStory hr hb]

theorem cond_closeStory {tr : Bool} (q : Condition) (ht : (s.line l).recog.tied = some i) (hr : s.record i = some r)
    (hb : r.body = .inbound x) : (s.closeStory l tr).cond l q = s.cond l q := by
  have noted : ((s.endNoted l i x tr).line l).sup.levels = (s.line l).sup.levels := by
    unfold Part.endNoted
    split
    · rw [sup_fault]
    · split
      · rw [sup_fault]
      · rfl
  rw [Part.cond, sup_closeStory ht hr hb, noted, Part.cond]

/-- The tied story closed as truncated, and the recognizer in DISCARDING. -/
theorem truncated_facts (ht : (s.line l).recog.tied = some i) (hr : s.record i = some r) (hb : r.body = .inbound x) :
    let t := (s.closeStory l true).goDiscarding l
    (t.line l).recog = { (s.line l).recog with
        state := .discarding, window := [], heading := [], tied := none, overrun := false, stallSince := some s.now } ∧
      StoryEnded s t i r x true ∧
      (x.state = .opening → t.record i = none ∧ t.free = s.free ++ (r.blocks ++ r.reservation) ∧
        (t.line l).sup.faults.get FaultKind.heading.idx = (s.line l).sup.faults.get FaultKind.heading.idx) ∧
      FaultRecorded s t l .truncated (s.storyFields l i x.serial) ∧ t.cond l .stall = s.cond l .stall ∧
      (∀ m, m ≠ l → t.line m = s.line m) ∧ (∀ j, j ≠ i → t.record j = s.record j) ∧
      Act (· ∈ [.recog, .sup, .list, .record, .store, .notices]) s t := by
  intro t
  have takes := closeStory_takes (s := s) (l := l) true
  have sup : (t.line l).sup = ((s.endNoted l i x true).line l).sup := by
    show ((Part.goDiscarding _ l).line l).sup = _
    rw [Part.goDiscarding, sup_line_updRecog, sup_closeStory ht hr hb]
  refine ⟨?_, (closeStory_ends ht hr hb).congr rfl rfl, fun hx => ?_, ?_, ?_, fun m hm => ?_, fun j hj => ?_, ?_⟩
  · show ((Part.goDiscarding _ l).line l).recog = _
    rw [recog_goDiscarding, recog_closeStory, takes.now_eq]
  · obtain ⟨gone, free⟩ := closeStory_frees (tr := true) ht hr hb hx
    refine ⟨gone, ?_, ?_⟩
    · rw [reservation_of_inbound hb, List.append_nil]
      exact free
    · rw [sup, faults_endNoted_heading]
  · rw [FaultRecorded, sup]
    exact faultRecorded_truncated
  · rw [← cond_closeStory (tr := true) .stall ht hr hb]
    exact cond_of_sup (sup_line_updRecog _ _ _ _)
  · show (Part.goDiscarding _ l).line m = _
    rw [line_goDiscarding_ne _ hm, line_closeStory_ne _ hm]
  · exact record_closeStory_ne ht hr hb hj
  · exact takes.trans ((goDiscarding_takes).mono (by decide))

end

section
variable {s : State} {l : LineNo} {i : Slot} {r : Record} {x : InRecord}

/-- A delivered character for a story at the length limit (R69, R70). -/
theorem exec_at_limit {c : Byte} (h : s.toPart.delivers l c) (hi : (s.line l).unit.state = .idle)
    (hg : (s.line l).recog.state = .opening ∨ (s.line l).recog.state = .heading ∨ (s.line l).recog.state = .text)
    (ht : (s.line l).recog.tied = some i) (hs : (s.line l).recog.lineStart = false)
    (hl : (s.line l).recog.lookahead = []) (hr : s.record i = some r) (hc : r.count = 16000) :
    exec (.receivedCode l) s = .next { s with toPart :=
      ((((s.toPart.received l).taking l c).closeStory l true).goDiscarding l).serveBus } := by
  have urecog : (((s.toPart.received l).attending l).line l).recog = { (s.line l).recog with stallSince := some s.now } := by
    rw [recog_attending, line_received]
    rfl
  have ur : ((s.toPart.received l).attending l).record i = some r :=
    (recordView_eq_iff.mp (recordView_attending (s.toPart.received l) l i)).1.trans hr
  rw [exec_delivered_inside h hi _ hs hl, takeText_of_limit (by rw [urecog]; exact hg) (by rw [urecog]; exact ht) ur hc]
  · rfl
  · rcases hg with hg | hg | hg <;> rw [hg] <;> decide

/-- A character outside stories with which no run is complete changes the count of the loop-up detector alone (R192). -/
theorem loopChar_uncompleted {v : Part} {ch : Byte} (hi : (v.line l).unit.state = .idle)
    (h : ∀ up, (v.cfg l).mode = .twoWay → (v.cfg l).loopUp = some up →
      runAfter (ch == up) (v.line l).sup.loopUpRun ≠ (v.cfg l).loopN) :
    ∃ f : Supervision → Supervision, v.loopChar l ch = v.updSup l f ∧ ∀ x, ∃ n, f x = { x with loopUpRun := n } := by
  have same : v.updSup l id = v := by
    have lines : (v.updSup l id).lines = v.lines := by
      refine lines_ext fun m => ?_
      by_cases hm : m = l
      · subst hm
        exact line_ext (unit_line_updSup _ _ _ _) (plane_line_updSup _ _ _ _) (recog_line_updSup _ _ _ _)
          (sched_line_updSup _ _ _ _) (texts_line_updSup _ _ _ _) (sup_updSup v m id)
      · exact line_updSup_ne _ _ _ _ hm
    exact congrArg (fun ls => { v with lines := ls }) lines
  by_cases hm : (v.cfg l).mode = .twoWay
  · cases hk : (v.cfg l).loopUp with
    | none => exact ⟨id, by rw [loopChar_of_silent hi (.inr hk), same], fun x => ⟨x.loopUpRun, rfl⟩⟩
    | some up =>
      exact ⟨_, by rw [loopChar_of_up hi hm hk, if_neg (h up hm hk)], fun x => ⟨_, rfl⟩⟩
  · exact ⟨id, by rw [loopChar_of_silent hi (.inl hm), same], fun x => ⟨x.loopUpRun, rfl⟩⟩

/-- A code outside stories: the character joins the opening window (R51). -/
theorem exec_converts_outside {c : Option Byte} {k : Option FaultKind} (h : s.toPart.converts l c k)
    (hi : (s.line l).unit.state = .idle) (ho : (s.line l).recog.state = .outside) (ht : (s.line l).recog.tied = none)
    (hj : ∀ ch, c = some ch → slideWindow (s.cfg l).opening.length (s.line l).recog.window ch ≠ (s.cfg l).opening ∧
      ∀ up, (s.cfg l).mode = .twoWay → (s.cfg l).loopUp = some up →
        runAfter (ch == up) (s.line l).sup.loopUpRun ≠ (s.cfg l).loopN) :
    ∃ t : Part, exec (.receivedCode l) s = .next { s with toPart := t.serveBus } ∧
      Converted s.toPart t l k (s.inboundFields l (s.line l).unit.acc (s.line l).plane) ∧
      (t.line l).unit = s.sampledUnit l ∧ (t.line l).sched = (s.line l).sched ∧
      (∀ m, m ≠ l → t.line m = s.line m) ∧ (c = none → (t.line l).recog = (s.line l).recog) ∧
      (∀ ch, c = some ch → (t.line l).recog = { (s.line l).recog with
        window := slideWindow (s.cfg l).opening.length (s.line l).recog.window ch }) ∧
      { t with lines := s.lines, port := s.port } = s.toPart := by
  have conv := codeConverted_converted h
  have takes : Act (· ∈ [.unit, .plane, .sup, .list]) s.toPart (s.toPart.converted l k) := conversion_of_untied ht
  have recog : ((s.toPart.converted l k).line l).recog = (s.line l).recog := takes.recog_eq (by decide) l
  have cfg : (s.toPart.converted l k).cfg l = s.cfg l := takes.cfg_eq l
  have step := exec_converts h hi
  have faultless := conv.faultless
  obtain ⟨w, hw⟩ : ∃ w, w = s.toPart.converted l k := ⟨_, rfl⟩
  rw [← hw] at conv takes recog cfg step faultless
  have run : (w.line l).sup.loopUpRun = (s.line l).sup.loopUpRun := (congrArg (·.loopUpRun) faultless :)
  cases c with
  | none =>
    exact ⟨w, step, conv.converted, conv.unit, conv.sched, conv.lines, fun _ => recog, nofun,
      (takes.mono (by decide)).rest_of_lines⟩
  | some ch =>
    obtain ⟨hwin, hloop⟩ := hj ch rfl
    have idle : (w.line l).unit.state = .idle := by rw [conv.unit]; exact hi
    obtain ⟨v, hv⟩ : ∃ v, v = w.updRecog l fun r => { r with
      window := slideWindow (s.cfg l).opening.length (s.line l).recog.window ch } := ⟨_, rfl⟩
    have eq : w.recogChar l ch = v.loopChar l ch := by
      rw [recogChar_of_outside (by rw [idle]; decide) (by rw [recog]; exact ho) (by rw [cfg, recog]; exact hwin), cfg,
        recog, hv]
    have vline (m : LineNo) (hm : m ≠ l) : v.line m = w.line m := by rw [hv, line_updRecog_ne _ _ _ _ hm]
    have vsup : (v.line l).sup = (w.line l).sup := by rw [hv, sup_line_updRecog]
    have vact : Act (· ∈ [.recog]) w v := by rw [hv]; exact .recog _ _ (by decide) .refl
    have vrecog : (v.line l).recog = { (s.line l).recog with
        window := slideWindow (s.cfg l).opening.length (s.line l).recog.window ch } := by rw [hv, recog_updRecog, recog]
    obtain ⟨f, hf, hn⟩ := loopChar_uncompleted (v := v) (l := l) (ch := ch) (by rw [vact.unit_eq (by decide), idle])
      fun up hm hk => by
        rw [vact.cfg_eq, cfg] at *
        rw [vsup, run]
        exact hloop up hm hk
    obtain ⟨n, hn⟩ := hn (v.line l).sup
    have sup : ((v.updSup l f).line l).sup = { (w.line l).sup with loopUpRun := n } := by rw [sup_updSup, hn, vsup]
    refine ⟨v.updSup l f, by rw [step, Part.recogOption, eq, hf], conv.converted.congr ?_ ?_ ?_, ?_, ?_, fun m hm => ?_,
      nofun, fun ch' hch => ?_, ?_⟩
    · rw [plane_line_updSup, vact.plane_eq (by decide)]
    · rw [sup]
    · rw [sup]
    · rw [unit_line_updSup, vact.unit_eq (by decide), conv.unit]
    · rw [sched_line_updSup, vact.sched_eq (by decide), conv.sched]
    · rw [line_updSup_ne _ _ _ _ hm, vline m hm, conv.lines m hm]
    · rw [recog_line_updSup, vrecog, Option.some.inj hch]
    · have start := (takes.mono (K' := (· ∈ [.unit, .plane, .recog, .sched, .sup, .list])) (by decide)).trans
        (vact.mono (by decide))
      exact start.rest_of_lines

end
end Sys2Proof.Machine
end

section
/-! An enquiry received in IDLE (02.3, 08.4), and `Obligations.CodesTakenInIdle`. -/

namespace Sys2Proof.Machine

/-! ### The answer-back request (R33, R163, R164) -/

section
variable {s d : Part} {l : LineNo} {c : Byte}

/-- What is asked of line `l` by an enquiry, its sender apart. -/
theorem requestAnswerBack_eq : s.requestAnswerBack l =
    if (s.line l).sched.answerBack = .clear ∧ (s.line l).texts.answerBack ≠ [] then
      s.updSched l fun x => { x with answerBack := .pending } else s := rfl

/-- A pending answer-back waits for a sender that is not free. -/
theorem settleLines_of_busy (h : d.senderFree l = false) : d.settleLines [l] = d :=
  settleLines_of_idle fun m hm => by
    rw [List.mem_singleton.mp hm]
    exact freeStep_of_not_free h

/-- A free sender begins the pending answer-back at once (R164). -/
theorem settleLines_of_pending (hf : d.senderFree l = true) (ha : (d.line l).sched.answerBack = .pending) :
    d.settleLines [l] = (d.updSched l fun k => { k with answerBack := .beingSent }).startPiece l (.answerBack false) := by
  refine settleLines_of_step (freeStep_of_pending hf ha) ?_
  rw [Part.senderFree, sched_startPiece]
  simp

theorem startPiece_waits {q : Piece} {o : OutCode} (h : (s.line l).unit.out = some o) :
    s.startPiece l q = s.updSched l fun k => { k with piece := q, progress := 0 } := by
  rw [Part.startPiece, offerCode_of_not_ready]
  rintro ⟨-, -, h'⟩
  rw [unit_line_updSched, h] at h'
  cases h'

end
/-! ### What the recognizer leaves of unit, sender and plane -/

section
variable {s : Part} {l : LineNo} {c : Byte}

/-- A character that completes no loop run leaves every unit, sender and decode plane. -/
theorem recogChar_takes (hi : (s.line l).unit.state = .idle) (h : (s.line l).recog.state ≠ .outside ∨
      (s.cfg l).loopUp = none ∨ (s.line l).sup.loopUpRun + 1 < (s.cfg l).loopN) :
    Act (· ∈ [.recog, .sup, .list, .record, .store, .notices, .trackers, .mem]) s (s.recogChar l c) := by
  have notLoop : (s.line l).unit.state ≠ .loop := by rw [hi]; decide
  by_cases ho : (s.line l).recog.state = .outside
  · by_cases hw : slideWindow (s.cfg l).opening.length (s.line l).recog.window c = (s.cfg l).opening
    · have eq : s.recogChar l c = s.openStory l := by
        rw [Part.recogChar, if_neg notLoop, if_pos ho]
        exact if_pos hw
      rw [eq]
      exact openStory_takes.mono (by decide)
    · rw [recogChar_of_outside notLoop ho hw]
      obtain ⟨v, hv⟩ : ∃ v, v = s.updRecog l fun r => { r with
        window := slideWindow (s.cfg l).opening.length (s.line l).recog.window c } := ⟨_, rfl⟩
      have takes : Act (· ∈ [.recog]) s v := by rw [hv]; exact .recog _ _ (by decide) .refl
      have run : (v.line l).sup.loopUpRun = (s.line l).sup.loopUpRun := by rw [hv, sup_line_updRecog]
      obtain ⟨f, hf, hn⟩ := loopChar_uncompleted (v := v) (l := l) (ch := c) (by rw [takes.unit_eq (by decide), hi])
        fun up _ hk => by
          rw [takes.cfg_eq] at hk ⊢
          rw [run, runAfter_eq]
          rcases h with h | h | h
          · exact absurd ho h
          · rw [h] at hk; cases hk
          · split <;> [skip; split] <;> omega
      rw [← hv, hf]
      refine (takes.mono (by decide)).trans (.sup _ _ (fun x hx => ?_) (by decide) .refl)
      obtain ⟨n, hn⟩ := hn x
      rw [hn]
      exact hx
  · rw [recogChar_inside _ _ notLoop ho]
    exact insideChar_act assembles_kinds (by decide) _ _ .refl

theorem recogOption_takes {c : Option Byte} (hi : (s.line l).unit.state = .idle)
    (h : (s.line l).recog.state ≠ .outside ∨ (s.cfg l).loopUp = none ∨
      (s.line l).sup.loopUpRun + 1 < (s.cfg l).loopN) :
    Act (· ∈ [.recog, .sup, .list, .record, .store, .notices, .trackers, .mem]) s (s.recogOption l c) := by
  cases c with
  | none => exact .refl
  | some c => exact recogChar_takes hi h

end

/-! ### An enquiry received -/

section
variable {s : Part} {l : LineNo}

/-- An enquiry code received in IDLE: the request, a fault where admission stops the character, and the character. -/
theorem sampleStop_enquiry (ha : s.assembles l = true) (hr : (s.line l).unit.rcv = .stop) (hm : s.mark l = true)
    (hs : shiftPlane (s.map l) (s.line l).unit.acc.toNat = none) (hu : (s.readEntry l).cls ≠ .unassigned)
    (hmode : (s.cfg l).mode = .twoWay) (hq : (s.cfg l).enquiry = some (s.readEntry l).char)
    (hi : (s.line l).unit.state = .idle) : ∃ (d : Part) (c : Option Byte),
      s.sampleStop l = (if (d.line l).sched.answerBack = (s.line l).sched.answerBack then d
        else d.settleLines [l]).recogOption l c ∧
      (d = (s.received l).requestAnswerBack l ∨
        ∃ f, d = ((s.received l).requestAnswerBack l).fault l .admission f) := by
  obtain ⟨u, hu'⟩ : ∃ u, u = s.updUnit l fun x => { x with rcv := .hunt } := ⟨_, rfl⟩
  have plane : (u.line l).plane = (s.line l).plane := by rw [hu', plane_line_updUnit]
  have sched : (u.line l).sched = (s.line l).sched := by rw [hu', sched_line_updUnit]
  have map : u.map l = s.map l := by rw [hu']; rfl
  have cfg : u.cfg l = s.cfg l := by rw [hu']; rfl
  have entry : mapEntry (u.map l) (u.line l).plane (s.line l).unit.acc.toNat = s.readEntry l := by
    rw [map, plane, Part.readEntry]
  have received : u.setPlane l (planeAfter (u.cfg l) (s.readEntry l) (u.line l).plane) = s.received l := by
    rw [cfg, plane, hu']; rfl
  have asks : (s.received l).enquires l (s.readEntry l) = true := by
    have cfg' : (s.received l).cfg l = s.cfg l := received_takes.cfg_eq l
    rw [Part.enquires, cfg', line_received, hmode, hq]
    simp [hi]
  have step : s.sampleStop l = u.takeCode l (s.line l).unit.acc false := by
    have eq : s.sampleStop l = u.handOn l (s.line l).unit.acc false := by
      rw [sampleStop_handed ha hr (.inl hm), hm, hu']
      rfl
    have state : (u.line l).unit.state = .idle := by rw [hu', unit_updUnit]; exact hi
    rw [eq, Part.handOn, state]
    rfl
  have decoded : ∃ d c, u.decode l (s.line l).unit.acc false = (d, c) ∧
      (d = (s.received l).requestAnswerBack l ∨
        ∃ f, d = ((s.received l).requestAnswerBack l).fault l .admission f) := by
    unfold Part.decode
    dsimp only
    rw [map, hs]
    dsimp only
    rw [← map, entry, received, if_neg Bool.false_ne_true, if_neg hu, asks, if_pos rfl]
    split
    · exact ⟨_, _, rfl, .inl rfl⟩
    · exact ⟨_, _, rfl, .inr ⟨_, rfl⟩⟩
    · exact ⟨_, _, rfl, .inr ⟨_, rfl⟩⟩
    · exact ⟨_, _, rfl, .inr ⟨_, rfl⟩⟩
  obtain ⟨d, c, hd, hform⟩ := decoded
  refine ⟨d, c, ?_, hform⟩
  rw [step, Part.takeCode, hd]
  dsimp only
  rw [sched]
  cases c <;> rfl

end
end Sys2Proof.Machine
end

section
/-! `Obligations.CodesTakenInIdle`. -/

namespace Sys2Proof.Machine

section
variable {s d : Part} {l : LineNo}

/-- The line of an enquiry before its answer-back is settled: the request, and the rest as the code was received. -/
structure EnquiryRead (s d : Part) (l : LineNo) : Prop where
  unit : (d.line l).unit = { (s.line l).unit with rcv := .hunt }
  plane : (d.line l).plane = s.planeRead l
  recog : (d.line l).recog = (s.line l).recog
  sched : (d.line l).sched =
    if (s.line l).sched.answerBack = .clear ∧ (s.line l).texts.answerBack ≠ [] then
      { (s.line l).sched with answerBack := .pending } else (s.line l).sched
  texts : (d.line l).texts = (s.line l).texts
  run : (d.line l).sup.loopUpRun = (s.line l).sup.loopUpRun
  cfg : d.cfg l = s.cfg l
  now : d.now = s.now
  lines : ∀ m, m ≠ l → d.line m = s.line m

theorem enquiryRead (h : d = (s.received l).requestAnswerBack l ∨
    ∃ f, d = ((s.received l).requestAnswerBack l).fault l .admission f) : EnquiryRead s d l := by
  have asked : EnquiryRead s ((s.received l).requestAnswerBack l) l := by
    have line := line_received (s := s) (l := l)
    have cfg : (s.received l).cfg l = s.cfg l := received_takes.cfg_eq l
    rw [requestAnswerBack_eq, line]
    dsimp only
    split
    · refine ⟨?_, ?_, ?_, ?_, ?_, ?_, cfg, rfl, fun m hm => ?_⟩
      · rw [unit_line_updSched, line]
      · rw [plane_line_updSched, line]
      · rw [recog_line_updSched, line]
      · rw [sched_updSched, line, if_pos (by assumption)]
      · rw [texts_updSched, line]
      · rw [sup_line_updSched, line]
      · rw [line_updSched_ne _ _ _ _ hm, line_received_ne hm]
    · refine ⟨by rw [line], by rw [line], by rw [line], ?_, by rw [line], by rw [line], cfg, rfl,
        fun m hm => line_received_ne hm⟩
      rw [line, if_neg (by assumption)]
  rcases h with rfl | ⟨f, rfl⟩
  · exact asked
  · refine ⟨?_, ?_, ?_, ?_, ?_, ?_, asked.cfg, asked.now, fun m hm => ?_⟩
    · rw [fault_unit, asked.unit]
    · rw [fault_plane, asked.plane]
    · rw [fault_recog, asked.recog]
    · rw [fault_sched, asked.sched]
    · rw [fault_texts, asked.texts]
    · rw [sup_fault]; exact asked.run
    · rw [line_fault_ne hm, asked.lines m hm]

/-- The answer-back settled: nothing to ask, a request that waits, or the answer-back begun (R33, R163, R164). -/
theorem enquiry_settled (h : EnquiryRead s d l) (hi : (s.line l).unit.state = .idle) :
    let q := if (d.line l).sched.answerBack = (s.line l).sched.answerBack then d else d.settleLines [l]
    let k := (s.line l).sched
    let unit : LineUnit := { (s.line l).unit with rcv := .hunt }
    (k.answerBack ≠ .clear ∨ (s.line l).texts.answerBack = [] → (q.line l).sched = k ∧ (q.line l).unit = unit) ∧
    (k.answerBack = .clear → (s.line l).texts.answerBack ≠ [] → s.senderFree l = false →
      (q.line l).sched = { k with answerBack := .pending } ∧ (q.line l).unit = unit) ∧
    (∀ a as, k.answerBack = .clear → (s.line l).texts.answerBack = a :: as → s.senderFree l = true →
      (q.line l).sched = { k with answerBack := .beingSent, piece := .answerBack false, progress := 0 } ∧
      ((s.line l).unit.out = none → (q.line l).unit = { unit with out := some (s.begun a) }) ∧
      (∀ o, (s.line l).unit.out = some o → (q.line l).unit = unit)) ∧
    (q.line l).unit.state = .idle ∧ (q.line l).plane = s.planeRead l ∧ (q.line l).recog = (s.line l).recog ∧
      (q.line l).sup.loopUpRun = (s.line l).sup.loopUpRun ∧ q.cfg l = s.cfg l ∧ ∀ m, m ≠ l → q.line m = s.line m := by
  intro q k unit
  by_cases hask : k.answerBack = .clear ∧ (s.line l).texts.answerBack ≠ []
  · obtain ⟨hclear, htext⟩ := hask
    have sched : (d.line l).sched = { k with answerBack := .pending } := h.sched.trans (if_pos ⟨hclear, htext⟩)
    have eq : q = d.settleLines [l] := by
      refine if_neg ?_
      rw [sched]
      show AnswerBackRequest.pending ≠ k.answerBack
      rw [hclear]
      decide
    have free : d.senderFree l = s.senderFree l := by
      rw [Part.senderFree, sched, Part.senderFree]
    have not (hx : k.answerBack ≠ .clear ∨ (s.line l).texts.answerBack = []) : False :=
      hx.elim (fun e => e hclear) htext
    cases hf : s.senderFree l with
    | false =>
      rw [settleLines_of_busy (free.trans hf)] at eq
      rw [eq]
      exact ⟨fun hx => (not hx).elim, fun _ _ _ => ⟨sched, h.unit⟩, fun _ _ _ _ hx => (nomatch hx),
        by rw [h.unit]; exact hi, h.plane, h.recog, h.run, h.cfg, h.lines⟩
    | true =>
      rw [settleLines_of_pending (free.trans hf) (by rw [sched])] at eq
      obtain ⟨e, he⟩ : ∃ e, e = d.updSched l fun k => { k with answerBack := .beingSent } := ⟨_, rfl⟩
      rw [← he] at eq
      have esched : (e.line l).sched = { k with answerBack := .beingSent } := by rw [he, sched_updSched, sched]
      have eunit : (e.line l).unit = unit := by rw [he, unit_line_updSched, h.unit]
      have eplane : (e.line l).plane = s.planeRead l := by rw [he, plane_line_updSched, h.plane]
      have erecog : (e.line l).recog = (s.line l).recog := by rw [he, recog_line_updSched, h.recog]
      have erun : (e.line l).sup.loopUpRun = (s.line l).sup.loopUpRun := by rw [he, sup_line_updSched, h.run]
      have etexts : (e.line l).texts = (s.line l).texts := by rw [he, texts_updSched, h.texts]
      have ecfg : e.cfg l = s.cfg l := by rw [he]; exact h.cfg
      have enow : e.now = s.now := by rw [he]; exact h.now
      have qsched : (q.line l).sched = { k with answerBack := .beingSent, piece := .answerBack false, progress := 0 } := by
        rw [eq, sched_startPiece, esched]
      have qlines (m : LineNo) (hm : m ≠ l) : q.line m = s.line m := by
        rw [eq, line_startPiece_ne _ _ _ hm, he, line_updSched_ne _ _ _ _ hm, h.lines m hm]
      have running : (e.line l).sched.running = true := by rw [esched]; exact (senderFree_iff.mp hf).1
      cases hout : (s.line l).unit.out with
      | none =>
        obtain ⟨a, as, ha⟩ := List.exists_cons_of_ne_nil htext
        have ready : e.readyToSend l := ⟨by rw [eunit]; exact hi, running, by rw [eunit]; exact hout⟩
        rw [startPiece_answerBack ready (by rw [etexts, ha])] at eq
        have line : q.line l = _ := (congrArg (fun p => p.line l) eq).trans (line_begins _ _)
        have begun : e.begun a = s.begun a := by rw [Part.begun, enow, Part.begun]
        rw [eunit, begun] at line
        refine ⟨fun hx => (not hx).elim, fun _ _ hx => (nomatch hx), fun b bs _ hb _ => ⟨qsched, fun _ => ?_, nofun⟩,
          ?_, ?_, ?_, ?_, ?_, qlines⟩
        · rw [ha] at hb
          rw [line, (List.cons.inj hb).1]
        · rw [line]; exact hi
        · rw [line]; exact eplane
        · rw [line]; exact erecog
        · rw [line]; exact erun
        · rw [eq]; exact ecfg
      | some o =>
        rw [startPiece_waits (by rw [eunit]; exact hout)] at eq
        have qunit : (q.line l).unit = unit := by rw [eq, unit_line_updSched, eunit]
        refine ⟨fun hx => (not hx).elim, fun _ _ hx => (nomatch hx),
          fun b bs _ _ _ => ⟨qsched, nofun, fun _ _ => qunit⟩, ?_, ?_, ?_, ?_, ?_, qlines⟩
        · rw [qunit]; exact hi
        · rw [eq, plane_line_updSched]; exact eplane
        · rw [eq, recog_line_updSched]; exact erecog
        · rw [eq, sup_line_updSched]; exact erun
        · rw [eq]; exact ecfg
  · have sched : (d.line l).sched = k := h.sched.trans (if_neg hask)
    have eq : q = d := if_pos (by rw [sched])
    rw [eq]
    exact ⟨fun _ => ⟨sched, h.unit⟩, fun h1 h2 => absurd ⟨h1, h2⟩ hask,
      fun a as h1 h2 => absurd ⟨h1, by rw [h2]; exact List.cons_ne_nil _ _⟩ hask, by rw [h.unit]; exact hi, h.plane,
      h.recog, h.run, h.cfg, h.lines⟩

end

/-- Settles O19: by what the converter makes of the code, and where the recognizer stands. -/
theorem codesTakenInIdle : Obligations.CodesTakenInIdle := by
  unfold Obligations.CodesTakenInIdle
  intro l s hi g k code beside
  refine ⟨?_, ?_, ?_, ?_⟩
  · intro i r x c fault hmem h hg ht hs hl hr hb hx fields mutilated
    have hfields : s.inboundFields l code (s.line l).plane = fields := inboundFields_of_tied ht hr hb
    refine ⟨fun hc => ?_, fun ch blocks hc hcount hroom => ?_⟩
    · obtain ⟨t, step, conv, recog, stall, rest⟩ := nothing_handed_on h hi ht hr hb hc
      have converted := conv.converted
      rw [hfields] at converted
      exact ⟨t, step, converted, ⟨conv.unit, conv.sched, conv.lines⟩, recog, stall, rest⟩
    · subst hc
      obtain ⟨t, step, conv, taken⟩ := character_taken h hi hg ht hs hl hr hb hx hcount hroom
      have converted := conv.converted
      rw [hfields] at converted
      refine ⟨t, step, converted, ⟨conv.unit, conv.sched, conv.lines⟩, fun a => ?_, ⟨taken.stays, taken.takesOver,
        taken.quietly⟩, taken.others, taken.free, taken.asks, taken.recog, taken.stall, sup_of_faultless conv.faultless,
        taken.rest⟩
      rw [taken.mem]
      split
      · next e => rw [e]; exact Memory.read_write_self _ _ _ 0 hmem
      · next e => exact Memory.read_write_ne _ _ e
  · intro i r x c h hg ht hs hl hr hb hc
    have mark : s.mark l = true := h.2.2.1
    have sampled : s.sampledUnit l = { (s.line l).unit with rcv := .hunt } := by
      rw [Part.sampledUnit, mark]
      rfl
    obtain ⟨vrecog, vunit, vplane, vsched, vfaults, vstall, vline, vview, vtakes⟩ := taking_received s.toPart l c
    have step := exec_at_limit h hi hg ht hs hl hr hc
    obtain ⟨v, hv⟩ : ∃ v, v = (s.toPart.received l).taking l c := ⟨_, rfl⟩
    rw [← hv] at vrecog vunit vplane vsched vfaults vstall vline vview vtakes step
    have vrecord (j : Slot) : v.record j = s.record j := (recordView_eq_iff.mp (vview j)).1
    obtain ⟨recog, ended, opening, fault, stall, lines, others, takes⟩ :=
      truncated_facts (s := v) (l := l) (by rw [vrecog]; exact ht) ((vrecord i).trans hr) hb
    rw [FaultRecorded, vfaults, storyFields_eq ((vrecord i).trans hr), Part.handle, vtakes.number_eq, vplane, hc] at fault
    refine ⟨_, step, ?_, ended.congr (hasRequest_congr (recordView_eq_iff.mp (vview i)).2.1).symm rfl, fun hx => ?_, fault,
      stall.trans vstall, ⟨?_, ?_, fun m hm => (lines m hm).trans (vline m hm)⟩, ?_, ?_,
      fun j hj => (others j hj).trans (vrecord j), ?_, ?_, ?_⟩
    · have lookahead : (s.line l).recog.lookahead = [] := hl
      rw [recog, vrecog, vtakes.now_eq]
      dsimp only
      rw [lookahead]
    · obtain ⟨gone, free, heading⟩ := opening hx
      exact ⟨gone, by rw [free, vtakes.free_eq (by decide)], by rw [heading, vfaults]⟩
    · rw [takes.unit_eq (by decide), vunit, sampled]
    · rw [takes.sched_eq (by decide), vsched]
    · rw [takes.plane_eq (by decide), vplane]
    · rw [takes.mem_eq (by decide), vtakes.mem_eq (by decide)]
    · rw [takes.register_eq (by decide), vtakes.register_eq (by decide)]
    · rw [takes.trackers_eq (by decide), vtakes.trackers_eq (by decide)]
    · rw [takes.groups_eq (by decide), vtakes.groups_eq (by decide)]
  · intro c fault h ho ht joined hj
    have fields := inboundFields_of_untied (s := s.toPart) (l := l) (code := code) (p := (s.line l).plane) ht
    obtain ⟨t, step, converted, unit, sched, lines, still, moved, rest⟩ := exec_converts_outside h hi ho ht hj
    rw [fields] at converted
    exact ⟨t, step, converted, ⟨unit, sched, lines⟩, still, moved, rest⟩
  · intro ha hr hm hs hu hmode hq hloop
    obtain ⟨d, c, eq, form⟩ := sampleStop_enquiry (s := s.toPart) ha hr hm hs hu hmode hq hi
    obtain ⟨idle, pending, sent, qidle, plane, recog, run, cfg, lines⟩ := enquiry_settled (enquiryRead form) hi
    obtain ⟨q, hq'⟩ : ∃ q, q = if (d.line l).sched.answerBack = (s.line l).sched.answerBack then d
      else d.settleLines [l] := ⟨_, rfl⟩
    rw [← hq'] at eq idle pending sent qidle plane recog run cfg lines
    have takes := recogOption_takes (s := q) (l := l) (c := c) qidle (by rw [recog, cfg, run]; exact hloop)
    have sampled : s.sampledUnit l = { (s.line l).unit with rcv := .hunt } := by
      rw [Part.sampledUnit, hm]
      rfl
    refine ⟨q.recogOption l c, by rw [exec_receivedCode, eq], ?_⟩
    simp only [takes.sched_eq (by decide), takes.unit_eq (by decide), takes.plane_eq (by decide), sampled]
    exact ⟨idle, pending, sent, plane, fun m hm => by rw [lines m hm]; exact ⟨rfl, rfl⟩⟩

end Sys2Proof.Machine
end

section
/-! The claim of a call (07.1 to 07.4): `Obligations.CallIsClaimed`. -/

namespace Sys2Proof.Machine

/-! ### The least bid (R139) -/

/-- Line `l` bids before line `m`: its bid is less, or as much and its number no greater. -/
def bidsBefore (bid : LineNo → Nat) (l m : LineNo) : Prop := bid l < bid m ∨ (bid l = bid m ∧ l.val ≤ m.val)

theorem leastBid_eq_none_iff (bid : LineNo → Nat) (ls : List LineNo) : leastBid bid ls = none ↔ ls = [] := by
  cases ls with
  | nil => simp [leastBid]
  | cons l ls =>
    simp only [leastBid, reduceCtorEq, iff_false]
    split
    · split <;> exact Option.some_ne_none _
    · exact Option.some_ne_none _

/-- The least bid of lines in ascending order is that of the first line of least bid. -/
theorem leastBid_spec (bid : LineNo → Nat) {ls : List LineNo} (hs : ls.Pairwise fun a b => a.val < b.val) {n : Nat}
    {m : LineNo} (h : leastBid bid ls = some (n, m)) : n = bid m ∧ m ∈ ls ∧ ∀ k ∈ ls, bidsBefore bid m k := by
  induction ls generalizing n m with
  | nil => cases h
  | cons l ls ih =>
    obtain ⟨hl, hs⟩ := List.pairwise_cons.mp hs
    rw [leastBid] at h
    cases hrest : leastBid bid ls with
    | none =>
      rw [hrest] at h
      obtain ⟨rfl, rfl⟩ := Prod.mk.inj (Option.some.inj h)
      have : ls = [] := (leastBid_eq_none_iff bid ls).mp hrest
      refine ⟨rfl, List.mem_cons_self, fun k hk => ?_⟩
      rw [this, List.mem_singleton] at hk
      rw [hk]
      exact .inr ⟨rfl, le_refl _⟩
    | some q =>
      obtain ⟨n', m'⟩ := q
      obtain ⟨hn', hm', before⟩ := ih hs hrest
      rw [hrest] at h
      dsimp only at h
      split at h
      · next hlt =>
        obtain ⟨rfl, rfl⟩ := Prod.mk.inj (Option.some.inj h)
        refine ⟨hn', List.mem_cons_of_mem _ hm', fun k hk => ?_⟩
        rcases List.mem_cons.mp hk with rfl | hk
        · exact .inl (hn' ▸ hlt)
        · exact before k hk
      · next hge =>
        obtain ⟨rfl, rfl⟩ := Prod.mk.inj (Option.some.inj h)
        refine ⟨rfl, List.mem_cons_self, fun k hk => ?_⟩
        rcases List.mem_cons.mp hk with rfl | hk
        · exact .inr ⟨rfl, le_refl _⟩
        · have := before k hk
          have lt := hl k hk
          unfold bidsBefore at *
          omega

theorem bidsBefore_antisymm {bid : LineNo → Nat} {l m : LineNo} (h : bidsBefore bid l m) (h' : bidsBefore bid m l) : l = m := by
  unfold bidsBefore at *
  exact Fin.ext (by omega)

theorem allLines_ascending : allLines.Pairwise fun a b => a.val < b.val := by decide

/-! ### The call judged and claimed (R130, R139, R140) -/

section
variable {s : Part} {c : CallFields}

/-- The fields of a call are in range, and the station holds no such call (R130). -/
def Part.mayClaim (s : Part) (c : CallFields) : Prop :=
  1 ≤ c.chars ∧ c.chars ≤ 16000 ∧ c.priority ≤ 5 ∧ s.callSlot c.caller c.call = none

theorem hearCall_of_invalid (h : ¬s.mayClaim c) : s.hearCall c = s := by
  rw [Part.hearCall, if_pos]
  by_contra hn
  simp only [not_or, Option.not_isSome_iff_eq_none] at hn
  obtain ⟨h0, hmax, hp, hs⟩ := hn
  have max : ¬16000 < c.chars := hmax
  exact h ⟨by omega, by omega, by omega, hs⟩

theorem hearCall_of_valid (h : s.mayClaim c) : s.hearCall c =
    match leastBid (fun l => s.bid l c.priority) (allLines.filter fun l => s.eligible l c) with
    | some (d, l) => s.makeClaim c l d
    | none => s := by
  obtain ⟨h1, hmax, hp, hs⟩ := h
  have max : ¬Config.storyChars < c.chars := Nat.not_lt.mpr hmax
  have no : ¬(c.chars = 0 ∨ Config.storyChars < c.chars ∨ 6 ≤ c.priority ∨ (s.callSlot c.caller c.call).isSome) := by
    rintro (h | h | h | h)
    · omega
    · exact max h
    · omega
    · rw [hs] at h; cases h
  rw [Part.hearCall, if_neg no] <;> rfl

theorem hearCall_of_ineligible (he : ∀ l, s.eligible l c = false) : s.hearCall c = s := by
  by_cases h : s.mayClaim c
  · have none : leastBid (fun l => s.bid l c.priority) (allLines.filter fun l => s.eligible l c) = none := by
      rw [leastBid_eq_none_iff, List.filter_eq_nil_iff]
      exact fun l _ => by rw [he l]; decide
    rw [hearCall_of_valid h, none]
  · exact hearCall_of_invalid h

/-- The line that claims is the first of least bid (R139). -/
theorem hearCall_of_least {l : LineNo} (h : s.mayClaim c) (he : s.eligible l c = true)
    (hl : ∀ m, s.eligible m c = true → bidsBefore (fun l => s.bid l c.priority) l m) :
    s.hearCall c = s.makeClaim c l (s.bid l c.priority) := by
  have mem (m : LineNo) : m ∈ allLines.filter (fun l => s.eligible l c) ↔ s.eligible m c = true := by
    simp [mem_allLines]
  rw [hearCall_of_valid h]
  cases hbid : leastBid (fun l => s.bid l c.priority) (allLines.filter fun l => s.eligible l c) with
  | none =>
    rw [leastBid_eq_none_iff] at hbid
    have := (mem l).mpr he
    rw [hbid] at this
    cases this
  | some q =>
    obtain ⟨d, m⟩ := q
    obtain ⟨hd, hm, before⟩ := leastBid_spec _ (allLines_ascending.filter _) hbid
    have same : l = m := bidsBefore_antisymm (hl m ((mem m).mp hm)) (before l ((mem l).mpr he))
    rw [same, hd]

theorem makeClaim_facts {l : LineNo} {i : Slot} {d : Nat} (hi : s.lowestFree = some i)
    (hb : boundBlocks (s.cfg l) c.chars ≤ s.free.length) :
    let t := s.makeClaim c l d
    t.record i = some
        { line := some l, priority := c.priority, blocks := [], count := 0
          body := .outbound
            { state := .claiming, caller := c.caller, call := c.call, chars := some c.chars,
              reservation := s.free.take (boundBlocks (s.cfg l) c.chars), release := c.release,
              completion := c.completion, claim := some { bid := d, since := some s.now, ending := none },
              intake := none, resume := none, outcome := none, total := 0 } } ∧
      t.free = s.free.drop (boundBlocks (s.cfg l) c.chars) ∧
      (s.hasRequest (.record i) = false → t.requestOf (.record i) =
        some { owner := .record i, cls := c.priority, kind := .claim, key := d }) ∧
      (∀ j, j ≠ i → t.record j = s.record j) ∧
      { t with records := s.records, free := s.free, port := s.port, notices := s.notices } = s := by
  intro t
  obtain ⟨u, hu⟩ : ∃ u, u = s.setRecord i (some (claimRecord c l d s.now)) := ⟨_, rfl⟩
  have urecord : u.record i = some (claimRecord c l d s.now) := by rw [hu, record_setRecord_self]
  have ufree : u.free = s.free := by rw [hu]; rfl
  have enough : decide (boundBlocks (s.cfg l) c.chars ≤ u.free.length) = true := by
    rw [ufree]; exact decide_eq_true hb
  have same := (evictUntil_of_met (s := u) (n := u.recent.length)
    (p := fun s' => decide (boundBlocks (s.cfg l) c.chars ≤ s'.free.length)) enough).symm
  have reserved := reserve_eq (s := u) (i := i) (r := claimRecord c l d s.now) rfl _ same urecord
  rw [if_pos (of_decide_eq_true enough)] at reserved
  obtain ⟨v, hv⟩ : ∃ v, v = ({ u with free := u.free.drop (boundBlocks (s.cfg l) c.chars) } : Part).setRecord i
      (some { line := some l, priority := c.priority, blocks := [], count := 0
              body := .outbound
                { state := .claiming, caller := c.caller, call := c.call, chars := some c.chars,
                  reservation := s.free.take (boundBlocks (s.cfg l) c.chars), release := c.release,
                  completion := c.completion, claim := some { bid := d, since := some s.now, ending := none },
                  intake := none, resume := none, outcome := none, total := 0 } }) := ⟨_, rfl⟩
  have eq : t = v.judgeStore.addRequest { owner := .record i, cls := c.priority, kind := .claim, key := d } := by
    show s.makeClaim c l d = _
    rw [Part.makeClaim, Part.findSlot, hi]
    dsimp only
    rw [← hu, reserved, hv, ufree]
    rfl
  have view (j : Slot) : t.record j = v.record j := by rw [eq, addRequest_record, judgeStore_record]
  refine ⟨?_, ?_, fun hn => ?_, fun j hj => ?_, ?_⟩
  · rw [view, hv, record_setRecord_self]
  · rw [eq, addRequest_free, judgeStore_free, hv, ← ufree]; rfl
  · rw [eq]
    refine requestOf_addRequest_self _ { owner := .record i, cls := c.priority, kind := .claim, key := d } ?_
    rw [hasRequest_judgeStore (o := .record i) _ (fun e => nomatch e), hv, hu]
    exact hn
  · rw [view, hv, record_setRecord_ne _ _ _ _ hj]
    show u.record j = _
    rw [hu, record_setRecord_ne _ _ _ _ hj]
  · have judged := judgeStore_eq v
    rw [eq, addRequest_eq, judged, hv, hu]
    rfl

end

/-! ### A bid does not depend on the frame being heard -/

section
variable {s t : Part} {l : LineNo}

theorem toLineEnd_congr (h : ∀ r n, t.outEntry r n = s.outEntry r n) (r : Record) (n k : Nat) :
    t.toLineEnd r n k = s.toLineEnd r n k := by
  induction k generalizing n with
  | zero => rfl
  | succ k ih => rw [Part.toLineEnd, Part.toLineEnd, h, ih]

theorem bid_heard (p : Nat) : s.heard.bid l p = s.bid l p := by
  have left (r : Record) (x : OutRecord) : s.heard.leftInLine l r x = s.leftInLine l r x := by
    have toEnd (n k : Nat) : s.heard.toLineEnd r n k = s.toLineEnd r n k := toLineEnd_congr (s := s) (t := s.heard) (fun _ _ => rfl) r n k
    simp only [Part.leftInLine, toEnd]
    rfl
  have current : s.heard.aheadCurrent l p = s.aheadCurrent l p := by
    simp only [Part.aheadCurrent, left]
    rfl
  have ahead : s.heard.ahead l p = s.ahead l p := by
    rw [Part.ahead, current, Part.ahead]
    rfl
  rw [Part.bid, ahead, Part.bid, heard_cfg]

end

/-- Settles O44. -/
theorem callIsClaimed : Obligations.CallIsClaimed := by
  unfold Obligations.CallIsClaimed
  intro f c s hh hf hread valid
  have step : exec (.heardCall f) s = .next { s with toPart := (s.toPart.heard.hearCall c).serveBus } := by
    rw [exec_heardCall hh hf, Part.callHeard, hread]
  have eligible (l : LineNo) : s.toPart.heard.eligible l c = s.eligible l c := rfl
  have bid (l : LineNo) (p : Nat) : s.toPart.heard.bid l p = s.bid l p := bid_heard p
  refine ⟨fun h => ?_, fun l i hv he hl hi hb => ?_⟩
  · rw [step]
    rcases h with h | h
    · rw [hearCall_of_invalid (s := s.toPart.heard) h]
    · rw [hearCall_of_ineligible (s := s.toPart.heard) h]
  · obtain ⟨record, free, request, others, rest⟩ :=
      makeClaim_facts (s := s.toPart.heard) (c := c) (l := l) (d := s.bid l c.priority) hi hb
    have least (m : LineNo) (hm : s.toPart.heard.eligible m c = true) :
        bidsBefore (fun l => s.toPart.heard.bid l c.priority) l m := by
      simp only [bidsBefore, bid]
      exact hl m hm
    rw [hearCall_of_least (s := s.toPart.heard) (l := l) hv he least, bid] at step
    refine ⟨_, step, record, free, request, Nat.min_le_left _ _, others, ?_⟩
    have whole := (congrArg (fun p : Part => { p with port := s.port, hearings := s.hearings }) rest :)
    exact whole.trans (heard_rest s.toPart)

end Sys2Proof.Machine
end

section
/-! Eligibility and the bid (07.2, 07.3): `Obligations.BidsAndEligibility`. -/

namespace Sys2Proof.Machine

section
variable {s : Part} {l : LineNo}

/-! ### Eligibility (R132, R133) -/

/-- The records in CLAIMING and INTAKE of line `l` (R132). -/
def Part.committed (s : Part) (l : LineNo) : Nat :=
  (allSlots.filter fun i => match s.record i with
    | some { line := some m, body := .outbound x, .. } => m == l && (x.state == .claiming || x.state == .intake)
    | _ => false).length

theorem commitment_eq : s.commitment l = (s.line l).sched.queue.length + s.committed l := by
  rw [Part.commitment, Part.committed, Part.outSlots]
  refine congrArg (fun p : Slot → Bool => (s.line l).sched.queue.length + (allSlots.filter p).length) (funext fun i => ?_)
  cases s.record i with
  | none => rfl
  | some r =>
    obtain ⟨line, priority, blocks, count, body⟩ := r
    cases body with
    | inbound x => cases line <;> rfl
    | outbound x => cases line <;> rfl

theorem recordAvailable_iff : s.recordAvailable = true ↔ (∃ i, s.record i = none) ∨ s.recent ≠ [] := by
  rw [Part.recordAvailable, Bool.or_eq_true, lowestFree_isSome_iff]
  simp

theorem eligible_iff (c : CallFields) : s.eligible l c = true ↔
    ((s.cfg l).mode = .send ∨ (s.cfg l).mode = .twoWay) ∧ (s.line l).unit.state = .idle ∧ s.cond l .brk = false ∧
      s.cond l .lineOpen = false ∧ (s.cfg l).groups.getLsbD c.group = true ∧
      (s.line l).sched.queue.length + s.committed l < 8 ∧ boundBlocks (s.cfg l) c.chars ≤ 250 ∧
      boundBlocks (s.cfg l) c.chars ≤ s.free.length + s.recentBlocks ∧
      ((∃ i, s.record i = none) ∨ s.recent ≠ []) := by
  have sends : (s.cfg l).mode.sends = true ↔ (s.cfg l).mode = .send ∨ (s.cfg l).mode = .twoWay := by
    cases (s.cfg l).mode <;> decide
  have queue : Config.queueSize = 8 := rfl
  have story : Config.storyBlocks = 250 := rfl
  simp only [Part.eligible, Part.lineMayBid, Part.storeAdmits, Part.canReserve, Bool.and_eq_true, sends, beq_iff_eq,
    Bool.not_eq_true', decide_eq_true_eq, commitment_eq, recordAvailable_iff, queue, story, and_assoc]

/-! ### The ahead count (R135 to R138) -/

theorem groupOpen_iff (x : OutRecord) : s.groupOpen x = true ↔ ∀ g, x.release = some g → s.groups.get g = true := by
  rw [Part.groupOpen]
  cases x.release with
  | none => simp
  | some g => simp

/-- What the story in a slot of the queue adds (R138). -/
theorem aheadQueued_eq (p : Nat) (j : Slot) : s.aheadQueued l p j = match s.record j with
    | some { priority := q, count := n, body := .outbound x, .. } =>
      if q ≤ p ∧ (∀ g, x.release = some g → s.groups.get g = true) then
        if x.state = .queued then n
        else if x.state = .suspended then n - (x.resume.map Prod.fst).getD 0 + (s.line l).texts.resumption.length
        else 0
      else 0
    | _ => 0 := by
  unfold Part.aheadQueued
  cases s.record j with
  | none => rfl
  | some r =>
    obtain ⟨line, q, blocks, n, body⟩ := r
    cases body with
    | inbound x => rfl
    | outbound x =>
      dsimp only
      simp only [Bool.and_eq_true, decide_eq_true_eq, groupOpen_iff, and_comm]
      split
      · cases x.state <;> rfl
      · rfl

/-- What the answer-back adds (R138). -/
theorem aheadAnswerBack_eq : s.aheadAnswerBack l = match (s.line l).sched.piece with
    | .answerBack _ => (s.line l).texts.answerBack.length - (s.line l).sched.progress
    | _ => if (s.line l).sched.answerBack = .pending then (s.line l).texts.answerBack.length else 0 := by
  unfold Part.aheadAnswerBack
  cases (s.line l).sched.piece <;> cases (s.line l).sched.answerBack <;> rfl

/-- A text line that ends before offset `e` has `e - n` codes from offset `n` on. -/
theorem toLineEnd_eq {r : Record} {n e : Nat} (hn : n < e) (he : e ≤ r.count)
    (open_ : ∀ j, n ≤ j → j + 1 < e → (s.outEntry r j).mark = false)
    (last : e = r.count ∨ (s.outEntry r (e - 1)).mark = true) : s.toLineEnd r n (r.count - n) = e - n := by
  generalize hk : r.count - n = k
  induction k generalizing n with
  | zero => omega
  | succ k ih =>
    rw [Part.toLineEnd]
    by_cases hlast : n + 1 = e
    · split
      · omega
      · next hm =>
        rcases last with h | h
        · have : k = 0 := by omega
          rw [this, Part.toLineEnd]
          omega
        · rw [← hlast, Nat.add_sub_cancel] at h
          exact absurd h hm
    · rw [open_ n (le_refl _) (by omega), if_neg Bool.false_ne_true,
        ih (n := n + 1) (by omega) (fun j hj => open_ j (by omega)) (by omega)]
      omega

theorem preempts_iff (p q : Nat) : preempts p q = true ↔ (p = 0 ∧ 1 ≤ q) ∨ (p = 1 ∧ 2 ≤ q) := by
  unfold preempts
  simp

/-! ### The current story (R135 to R137) -/

section
variable {i : Slot} {r : Record} {x : OutRecord} {n e : Nat}

theorem aheadCurrent_eq (p : Nat) (hc : (s.line l).sched.current = some i) (hr : s.record i = some r)
    (hb : r.body = .outbound x) : s.aheadCurrent l p =
      if preempts p r.priority = true ∧ s.leftInLine l r x < r.count - s.currentOffset l x then
        s.resumptionLeft l + s.leftInLine l r x + (s.line l).texts.interruption.length
      else r.count - s.currentOffset l x + s.resumptionLeft l := by
  simp only [Part.aheadCurrent, hc, hr, hb, Bool.and_eq_true, decide_eq_true_eq]

theorem inResumption_iff : s.inResumption l = true ↔ s.resumptionLeft l ≠ 0 := by
  unfold Part.inResumption Part.resumptionLeft
  split <;> simp_all

theorem currentOffset_eq (h : (x.state = .sending ∧ (s.line l).sched.position = some n) ∨
    (x.state = .heldBreak ∧ ∃ q, x.resume = some (n, q))) : s.currentOffset l x = n := by
  unfold Part.currentOffset
  rcases h with ⟨hx, hn⟩ | ⟨hx, q, hq⟩
  · rw [hx, hn]
  · rw [hx, hq]
    rfl

/-- The story stands at a text line's start, with nothing of its resumption left. -/
def Part.atBoundary (s : Part) (l : LineNo) (r : Record) (x : OutRecord) (n : Nat) : Prop :=
  x.state = .sending ∧ s.resumptionLeft l = 0 ∧ (n = 0 ∨ (s.outEntry r (n - 1)).mark = true)

/-- The codes left in the current text line, which ends before offset `e` (R135). -/
theorem leftInLine_eq (h : (x.state = .sending ∧ (s.line l).sched.position = some n) ∨
      (x.state = .heldBreak ∧ ∃ q, x.resume = some (n, q))) (he : e ≤ r.count)
    (hbound : s.atBoundary l r x n → e = n)
    (hinside : ¬s.atBoundary l r x n → n < e ∧ (∀ j, n ≤ j → j + 1 < e → (s.outEntry r j).mark = false) ∧
      (e = r.count ∨ (s.outEntry r (e - 1)).mark = true)) : s.leftInLine l r x = e - n := by
  rw [Part.leftInLine, currentOffset_eq h]
  by_cases hat : s.atBoundary l r x n
  · obtain ⟨hx, hres, hn⟩ := id hat
    rw [if_neg, if_pos hn, hbound hat, Nat.sub_self]
    rintro (h | h)
    · rw [hx] at h; cases h
    · exact inResumption_iff.mp h hres
  · obtain ⟨hlt, open_, last⟩ := hinside hat
    have toEnd := toLineEnd_eq hlt he open_ last
    split
    · exact toEnd
    · next hsend =>
      rw [not_or] at hsend
      have sending : x.state = .sending := by
        rcases h with h | h
        · exact h.1
        · exact absurd h.1 hsend.1
      have none : s.resumptionLeft l = 0 := by
        by_contra hne
        exact hsend.2 (inResumption_iff.mpr hne)
      rw [if_neg fun hn => hat ⟨sending, none, hn⟩]
      exact toEnd

end
end

/-- Settles O45. -/
theorem bidsAndEligibility : Obligations.BidsAndEligibility := by
  unfold Obligations.BidsAndEligibility
  intro s l cfg k texts up
  refine ⟨fun c => eligible_iff c, fun p => rfl, ?_⟩
  intro p answerBack share others
  have sum : ((k.queue.filter fun i => !(k.current == some i)).map (s.aheadQueued l p)).sum + s.aheadAnswerBack l =
      others := by
    have shares : s.aheadQueued l p = share := funext fun j => aheadQueued_eq p j
    rw [shares, aheadAnswerBack_eq] <;> rfl
  have ahead : s.ahead l p = s.aheadCurrent l p + others := by
    rw [← sum, Part.ahead, Nat.add_assoc]
  refine ⟨fun hc => ?_, ?_⟩
  · have current : s.aheadCurrent l p = match k.piece with
        | .interruption => texts.interruption.length - k.progress
        | .shift _ _ => 1
        | _ => 0 := by
      have none : (s.line l).sched.current = none := hc
      rw [Part.aheadCurrent, none] <;> rfl
    rw [ahead, current, Nat.add_comm] <;> rfl
  · intro i r x n e hc hr hb hpos hne her piece boundary passed hbound hinside
    have left : s.leftInLine l r x = e - n := leftInLine_eq hpos her hbound hinside
    have offset := currentOffset_eq hpos
    have current := aheadCurrent_eq p hc hr hb
    rw [left, offset] at current
    refine ⟨fun ⟨hpre, hlt⟩ => ?_, fun hnot => ?_⟩
    · rw [if_pos ⟨(preempts_iff p r.priority).mpr hpre, by omega⟩] at current
      rw [ahead, current]
      rfl
    · rw [if_neg fun h => hnot ⟨(preempts_iff p r.priority).mp h.1, by omega⟩] at current
      rw [ahead, current, Nat.add_comm (r.count - n)]
      rfl

end Sys2Proof.Machine
end

section
/-! The offer register after a heard OFFER (06.1). -/

namespace Sys2Proof.Machine

/-! ### The entry of a key -/

section
variable {es : List Entry} {e : Entry} {a b : Nat}

/-- The entry of a key in a register. -/
def entryIn (es : List Entry) (a b : Nat) : Option Entry := es.find? fun e => e.service == a && e.serial == b

theorem entryIn_some (h : entryIn es a b = some e) : e ∈ es ∧ e.service = a ∧ e.serial = b := by
  refine ⟨List.mem_of_find?_eq_some h, ?_⟩
  have := List.find?_some h
  simpa using this

/-- Entries of a register with one entry for each key are one if their keys are. -/
theorem eq_of_key (hes : es.Pairwise Entry.keysDiffer) {d : Entry} (hd : d ∈ es) (he : e ∈ es)
    (hk : d.service = e.service ∧ d.serial = e.serial) : d = e := by
  have symm : Std.Symm Entry.keysDiffer := ⟨fun _ _ h h' => h ⟨h'.1.symm, h'.2.symm⟩⟩
  by_contra hne
  exact hes.forall hd he hne hk

/-- A register with one entry for each key gives each entry under its key. -/
theorem entryIn_eq_some_iff (hes : es.Pairwise Entry.keysDiffer) :
    entryIn es a b = some e ↔ e ∈ es ∧ e.service = a ∧ e.serial = b := by
  refine ⟨entryIn_some, fun ⟨hm, ha, hb⟩ => ?_⟩
  cases h : entryIn es a b with
  | none =>
    have := List.find?_eq_none.mp h e hm
    simp [ha, hb] at this
  | some d =>
    obtain ⟨hd, hda, hdb⟩ := entryIn_some h
    rw [eq_of_key hes hd hm ⟨hda.trans ha.symm, hdb.trans hb.symm⟩]

theorem entryIn_eq_none_iff : entryIn es a b = none ↔ ∀ e ∈ es, ¬(e.service = a ∧ e.serial = b) := by
  rw [entryIn, List.find?_eq_none]
  simp

end

/-! ### The entry heard earliest (R110) -/

section
variable {a b c : Entry}

theorem before_trans (hab : a.before b = true) (hbc : b.before c = true) : a.before c = true := by
  unfold Entry.before at *
  grind

theorem before_total (hk : ¬(a.service = b.service ∧ a.serial = b.serial)) (h : a.before b = false) :
    b.before a = true := by
  unfold Entry.before at *
  grind

/-- The earliest entry of a register was heard before any other. -/
theorem earliest_spec {es : List Entry} (hes : es.Pairwise Entry.keysDiffer) {v : Entry} (h : earliest es = some v) :
    ∀ e ∈ es, e ≠ v → v.before e = true := by
  induction es generalizing v with
  | nil => cases h
  | cons x xs ih =>
    obtain ⟨hx, hxs⟩ := List.pairwise_cons.mp hes
    rw [earliest] at h
    cases hrest : earliest xs with
    | none =>
      rw [hrest] at h
      rw [earliest_none hrest, ← Option.some.inj h]
      exact fun e he hne => absurd (List.mem_singleton.mp he) hne
    | some f =>
      rw [hrest] at h
      dsimp only at h
      have hf := earliest_mem hrest
      cases hb : f.before x with
      | true =>
        rw [hb, if_pos rfl] at h
        obtain rfl := Option.some.inj h
        intro e he hne
        rcases List.mem_cons.mp he with rfl | he
        · exact hb
        · exact ih hxs hrest e he hne
      | false =>
        rw [hb, if_neg Bool.false_ne_true] at h
        obtain rfl := Option.some.inj h
        have first : x.before f = true := before_total (fun hk => hx f hf ⟨hk.1.symm, hk.2.symm⟩) hb
        intro e he hne
        rcases List.mem_cons.mp he with rfl | he
        · exact absurd rfl hne
        · by_cases hef : e = f
          · rw [hef]; exact first
          · exact before_trans first (ih hxs hrest e he hef)

/-- The entry replaced: the earliest that is not LIVE, or the earliest of all when every entry is LIVE (R110). -/
theorem victim_spec {es : List Entry} (hes : es.Pairwise Entry.keysDiffer) {v : Entry} (h : victim es = some v) :
    ∀ e ∈ es, e ≠ v → (v.state ≠ .live ∧ e.state = .live) ∨ (v.state = .live ↔ e.state = .live) ∧ v.before e = true := by
  unfold victim at h
  have mem (e : Entry) : e ∈ es.filter (fun e => !(e.state == .live)) ↔ e ∈ es ∧ e.state ≠ .live := by
    simp [List.mem_filter]
  intro e he hne
  split at h
  · next w hw =>
    obtain rfl := Option.some.inj h
    have hv := (mem w).mp (earliest_mem hw)
    by_cases hlive : e.state = .live
    · exact .inl ⟨hv.2, hlive⟩
    · exact .inr ⟨⟨fun h => absurd h hv.2, fun h => absurd h hlive⟩,
        earliest_spec (hes.filter _) hw e ((mem e).mpr ⟨he, hlive⟩) hne⟩
  · next hw =>
    have all : ∀ d ∈ es, d.state = .live := fun d hd => by
      by_contra hlive
      have := (mem d).mpr ⟨hd, hlive⟩
      rw [earliest_none hw] at this
      cases this
    have hv := all v (earliest_mem h)
    exact .inr ⟨by simp [hv, all e he], earliest_spec hes h e he hne⟩

theorem victim_isSome {es : List Entry} (h : es ≠ []) : ∃ v, victim es = some v := by
  cases hv : victim es with
  | some v => exact ⟨v, rfl⟩
  | none =>
    unfold victim at hv
    split at hv
    · cases hv
    · exact absurd (earliest_none hv) h

end
end Sys2Proof.Machine
end

section
/-! A heard OFFER at the register and the tracker: `Obligations.OfferTakenByRegister`. -/

namespace Sys2Proof.Machine

section
variable {s : Part} {o : OfferFields} {n : Nat}

/-- An entry after an OFFER for another key: WITHDRAWN if it was LIVE under the OFFER's handle (R109). -/
def Entry.afterOffer (e : Entry) (s : Part) (o : OfferFields) : Entry :=
  if e.state = .live ∧ e.owner = o.owner then { e with state := .withdrawn, heard := s.now, order := s.hearings } else e

/-- The entry that an OFFER of serial `n` makes or updates (R109). -/
def Part.offered (s : Part) (o : OfferFields) (n : Nat) : Entry :=
  { service := o.service, serial := n, owner := o.owner, state := .live, quiet := o.quiet, progress := o.soFar,
    heard := s.now, order := s.hearings }

theorem key_afterOffer (e : Entry) :
    (e.afterOffer s o).service = e.service ∧ (e.afterOffer s o).serial = e.serial := by
  unfold Entry.afterOffer
  split <;> exact ⟨rfl, rfl⟩

theorem hasKey_iff (e : Entry) (a b : Nat) : e.hasKey a b = true ↔ e.service = a ∧ e.serial = b := by
  simp [Entry.hasKey]

theorem register_of_unserialled (h : o.serial = none) :
    (s.registerOffer o).register = s.register.map fun e => e.afterOffer s o := by
  simp only [Part.registerOffer, h]
  refine List.map_congr_left fun e _ => ?_
  simp [Entry.afterOffer]

section
variable (h : o.serial = some n)
include h

/-- The entries as an OFFER with a serial finds them, but for that of its key. -/
theorem mapped_of_serialled : s.register.map (fun e =>
    if e.state = .live ∧ e.owner = o.owner ∧ (!(o.serial == some e.serial && o.service == e.service)) = true then
      { e with state := .withdrawn, heard := s.now, order := s.hearings } else e) =
    s.register.map fun e => if e.hasKey o.service n then e else e.afterOffer s o := by
  refine List.map_congr_left fun e _ => ?_
  have same : (o.serial == some e.serial && o.service == e.service) = e.hasKey o.service n := by
    rw [Bool.eq_iff_iff, hasKey_iff, h]
    simp only [Bool.and_eq_true, beq_iff_eq, Option.some.injEq]
    exact ⟨fun ⟨h1, h2⟩ => ⟨h2.symm, h1.symm⟩, fun ⟨h1, h2⟩ => ⟨h2.symm, h1.symm⟩⟩
  rw [same]
  cases e.hasKey o.service n <;> simp [Entry.afterOffer]

omit h in
theorem any_hasKey_iff : ((s.register.map fun e => if e.hasKey o.service n then e else e.afterOffer s o).any
    fun x => x.hasKey o.service n) = true ↔ ∃ e ∈ s.register, e.hasKey o.service n = true := by
  rw [List.any_eq_true]
  constructor
  · rintro ⟨x, hx, hk⟩
    obtain ⟨e, he, rfl⟩ := List.mem_map.mp hx
    refine ⟨e, he, ?_⟩
    by_contra hn
    rw [if_neg hn, hasKey_iff, (key_afterOffer e).1, (key_afterOffer e).2] at hk
    exact hn ((hasKey_iff _ _ _).mpr hk)
  · rintro ⟨e, he, hk⟩
    exact ⟨_, List.mem_map_of_mem he, by rw [if_pos hk]; exact hk⟩

/-- The key has an entry: it is written (R109). -/
theorem register_of_known (hk : ∃ e ∈ s.register, e.hasKey o.service n = true) : (s.registerOffer o).register =
    s.register.map fun e => if e.hasKey o.service n then s.offered o n else e.afterOffer s o := by
  unfold Part.registerOffer
  dsimp only
  rw [mapped_of_serialled h, h]
  dsimp only
  rw [if_pos (any_hasKey_iff.mpr hk), List.map_map]
  refine List.map_congr_left fun e _ => ?_
  by_cases hkey : e.hasKey o.service n = true
  · rw [Function.comp_apply, if_pos hkey, if_pos hkey, if_pos hkey, Part.offered]
  · have other : (e.afterOffer s o).hasKey o.service n = false := by
      rw [← Bool.not_eq_true, hasKey_iff, (key_afterOffer e).1, (key_afterOffer e).2, ← hasKey_iff]
      exact hkey
    rw [Function.comp_apply, if_neg hkey, if_neg (by rw [other]; exact Bool.false_ne_true), if_neg hkey]

/-- The key has no entry: it is placed (R109, R110). -/
theorem register_of_new (hk : ∀ e ∈ s.register, e.hasKey o.service n = false) : (s.registerOffer o).register =
    placeEntry (s.register.map fun e => e.afterOffer s o) (s.offered o n) := by
  have mapped : (s.register.map fun e => if e.hasKey o.service n then e else e.afterOffer s o) =
      s.register.map fun e => e.afterOffer s o :=
    List.map_congr_left fun e he => by rw [hk e he]; rfl
  unfold Part.registerOffer
  dsimp only
  rw [mapped_of_serialled h, h]
  dsimp only
  rw [if_neg, mapped]
  · rfl
  · rw [any_hasKey_iff]
    rintro ⟨e, he, hkey⟩
    rw [hk e he] at hkey
    cases hkey

end

theorem registerOffer_takes : Act (· ∈ [.register]) s (s.registerOffer o) := registerOffer_act (by decide) o .refl

/-! ### The register by its keys -/

section
variable (law : RegisterLaw s.register)
include law

theorem registerOffer_law : RegisterLaw (s.registerOffer o).register := registerOffer_takes.registerLaw law

theorem mapped_law : RegisterLaw (s.register.map fun e => e.afterOffer s o) :=
  keysDiffer_map (fun e _ => key_afterOffer e) law

/-- An entry of another key, where none has to be replaced. -/
theorem other_kept (h : o.serial = some n) (fits : (∃ e ∈ s.register, e.hasKey o.service n = true) ∨ s.register.length < 48)
    {e : Entry} (he : e ∈ s.register) (ho : e.hasKey o.service n = false) :
    entryIn (s.registerOffer o).register e.service e.serial = some (e.afterOffer s o) := by
  rw [entryIn_eq_some_iff (registerOffer_law law).2]
  refine ⟨?_, key_afterOffer e⟩
  by_cases hk : ∃ e ∈ s.register, e.hasKey o.service n = true
  · rw [register_of_known h hk]
    refine List.mem_map.mpr ⟨e, he, ?_⟩
    rw [ho, if_neg Bool.false_ne_true]
  · have room : (s.register.map fun e => e.afterOffer s o).length < Config.registerSize := by
      rw [List.length_map]
      exact fits.resolve_left hk
    rw [register_of_new h fun e he => by rw [← Bool.not_eq_true]; exact fun hkey => hk ⟨e, he, hkey⟩, placeEntry,
      if_pos room]
    exact List.mem_append_left _ (List.mem_map_of_mem he)

/-- A full register gives up one entry for a new key (R110). -/
theorem other_replaced (h : o.serial = some n) (new : ∀ e ∈ s.register, e.hasKey o.service n = false)
    (full : ¬s.register.length < 48) : ∃ v ∈ s.register.map (fun e => e.afterOffer s o),
      entryIn (s.registerOffer o).register v.service v.serial = none ∧
      (∀ e ∈ s.register, e.afterOffer s o ≠ v →
        entryIn (s.registerOffer o).register e.service e.serial = some (e.afterOffer s o)) ∧
      ∀ e ∈ s.register.map (fun e => e.afterOffer s o), e ≠ v →
        (v.state ≠ .live ∧ e.state = .live) ∨ (v.state = .live ↔ e.state = .live) ∧ v.before e = true := by
  have nonempty : s.register.map (fun e => e.afterOffer s o) ≠ [] := by
    intro e
    rw [List.map_eq_nil_iff] at e
    rw [e] at full
    exact full (by decide)
  have mapped := (mapped_law (o := o) law).2
  obtain ⟨v, hv⟩ := victim_isSome nonempty
  have hm := victim_mem hv
  have noRoom : ¬(s.register.map fun e => e.afterOffer s o).length < Config.registerSize := by
    rw [List.length_map]; exact full
  have register : (s.registerOffer o).register =
      ((s.register.map fun e => e.afterOffer s o).filter fun x => !(x.hasKey v.service v.serial)) ++ [s.offered o n] := by
    rw [register_of_new h new, placeEntry, if_neg noRoom, hv]
  have keyOf {e : Entry} (he : e ∈ s.register.map fun e => e.afterOffer s o) : ¬(e.service = o.service ∧ e.serial = n) := by
    obtain ⟨d, hd, rfl⟩ := List.mem_map.mp he
    rw [(key_afterOffer d).1, (key_afterOffer d).2, ← hasKey_iff, new d hd]
    exact Bool.false_ne_true
  refine ⟨v, hm, ?_, fun e he hne => ?_, victim_spec mapped hv⟩
  · rw [entryIn_eq_none_iff, register]
    intro e he hk
    rcases List.mem_append.mp he with he | he
    · have := (List.mem_filter.mp he).2
      rw [(hasKey_iff _ _ _).mpr hk] at this
      cases this
    · rw [List.mem_singleton.mp he] at hk
      exact keyOf hm ⟨hk.1.symm, hk.2.symm⟩
  · rw [entryIn_eq_some_iff (registerOffer_law law).2, register]
    refine ⟨List.mem_append_left _ (List.mem_filter.mpr ⟨List.mem_map_of_mem he, ?_⟩), key_afterOffer e⟩
    have differ : ¬(e.afterOffer s o).hasKey v.service v.serial = true := fun hk =>
      hne (eq_of_key mapped (List.mem_map_of_mem he) hm ((hasKey_iff _ _ _).mp hk))
    rw [Bool.not_eq_true] at differ
    rw [differ]
    rfl

theorem offered_entry (h : o.serial = some n) :
    entryIn (s.registerOffer o).register o.service n = some (s.offered o n) := by
  rw [entryIn_eq_some_iff (registerOffer_law law).2]
  refine ⟨?_, rfl, rfl⟩
  by_cases hk : ∃ e ∈ s.register, e.hasKey o.service n = true
  · obtain ⟨e, he, hkey⟩ := id hk
    rw [register_of_known h hk]
    exact List.mem_map.mpr ⟨e, he, if_pos hkey⟩
  · rw [register_of_new h fun e he => by rw [← Bool.not_eq_true]; exact fun hkey => hk ⟨e, he, hkey⟩, placeEntry]
    split
    · exact List.mem_append_right _ (List.mem_singleton_self _)
    · split
      · exact List.mem_append_right _ (List.mem_singleton_self _)
      · exact List.mem_singleton_self _

end

/-- No key comes to the register but the OFFER's. -/
theorem keys_registered {e : Entry} (he : e ∈ (s.registerOffer o).register) :
    (e.service, some e.serial) = (o.service, o.serial) ∨ ∃ d ∈ s.register, d.service = e.service ∧ d.serial = e.serial := by
  have mapped {e : Entry} (he : e ∈ s.register.map fun e => e.afterOffer s o) :
      ∃ d ∈ s.register, d.service = e.service ∧ d.serial = e.serial := by
    obtain ⟨d, hd, rfl⟩ := List.mem_map.mp he
    exact ⟨d, hd, (key_afterOffer d).1.symm, (key_afterOffer d).2.symm⟩
  cases h : o.serial with
  | none =>
    rw [register_of_unserialled h] at he
    exact .inr (mapped he)
  | some n =>
    by_cases hk : ∃ e ∈ s.register, e.hasKey o.service n = true
    · rw [register_of_known h hk] at he
      obtain ⟨d, hd, rfl⟩ := List.mem_map.mp he
      split
      · exact .inl rfl
      · exact .inr ⟨d, hd, (key_afterOffer d).1.symm, (key_afterOffer d).2.symm⟩
    · rw [register_of_new h fun e he => by rw [← Bool.not_eq_true]; exact fun hkey => hk ⟨e, he, hkey⟩, placeEntry] at he
      have placed : e ∈ s.register.map (fun e => e.afterOffer s o) ∨ e = s.offered o n := by
        split at he
        · exact (List.mem_append.mp he).imp id List.mem_singleton.mp
        · split at he
          · exact (List.mem_append.mp he).imp List.mem_of_mem_filter List.mem_singleton.mp
          · exact .inr (List.mem_singleton.mp he)
      rcases placed with he | rfl
      · exact .inr (mapped he)
      · exact .inl rfl

end
/-! ### The OFFER at tracker and records (R104 to R107) -/

section
variable {s : Part} {o : OfferFields} {n : Nat}

/-- What a record does at an OFFER changes records and lists alone. -/
theorem recordHearsOffer_takes (i : Slot) : Act (· ∈ [.record, .list, .store]) s (s.recordHearsOffer o i) := by
  have stand (t : Part) (h : Act (· ∈ [.record, .list, .store]) s t) :
      Act (· ∈ [.record, .list, .store]) s (t.standBehind i o.owner o.soFar o.quiet) :=
    .record i _ (fun r => Record.mapIn_blocks _ r) (by decide) h
  have yields : Act (· ∈ [.record, .list, .store]) s (s.yieldTo i o) := stand _ (.remove _ (by decide) .refl)
  have reruns : Act (· ∈ [.record, .list, .store]) s (s.endRerun i) :=
    .recent _ (by decide) (updIn_act (by decide) _ _ (.remove _ (by decide) .refl))
  have adopts : Act (· ∈ [.record, .list, .store]) s (s.adopt i o) := updIn_act (by decide) _ _ .refl
  have takes : Act (· ∈ [.record, .list, .store]) s (s.takeover i) := (takeover_takes s i).mono (by decide)
  unfold Part.recordHearsOffer
  dsimp only
  repeat' split
  all_goals first | exact .refl | exact yields | exact reruns | exact adopts | exact takes

theorem recordsHearOffer_takes (is : List Slot) :
    Act (· ∈ [.record, .list, .store]) s (s.forSlots is fun i s => s.recordHearsOffer o i) :=
  forSlots_act (fun i _ h => h.trans (recordHearsOffer_takes i)) is .refl

/-- The line that a tracker's loss is told to is the lowest-numbered of its service (R105). -/
theorem head_serviceLines_iff (l : LineNo) : (s.serviceLines n).head? = some l ↔ s.leads n l := by
  rw [Part.serviceLines, List.head?_filter, List.find?_eq_some_iff_getElem]
  have at_ (k : Nat) (hk : k < allLines.length) : (allLines[k]).val = k := by
    have hk' : k < 8 := hk
    interval_cases k <;> rfl
  simp only [Bool.and_eq_true, beq_iff_eq, Part.leads]
  refine and_congr_right fun _ => ⟨fun ⟨k, hk, hl, hbefore⟩ m hm => ?_, fun hbefore => ?_⟩
  · have hkl : k = l.val := by rw [← hl, at_]
    have := hbefore m.val (by omega)
    have hm' : allLines[m.val]'(by omega) = m := Fin.ext (at_ _ _)
    rw [hm'] at this
    rintro ⟨h1, h2⟩
    simp [h1, h2] at this
  · have hl : l.val < allLines.length := l.isLt
    refine ⟨l.val, hl, Fin.ext (at_ _ _), fun j hj => ?_⟩
    by_contra hne
    exact hbefore (allLines[j]'(by omega)) (by rw [at_]; exact hj) (by simpa using hne)

/-- The OFFER at the register and the tracker, before the records hear it. -/
def Part.offerTaken (s : Part) (o : OfferFields) : Part :=
  match o.serial with
  | some n => (s.registerOffer o).hearSerial o.service n o.owner o.rerun
  | none => s.registerOffer o

theorem hearOffer_eq : s.hearOffer o = if o.owner.station = s.number then s.offerTaken o
    else (s.offerTaken o).forSlots allSlots fun i s => s.recordHearsOffer o i := rfl

theorem offerTaken_takes (hn : ∀ n, o.serial = some n → 1 ≤ n ∧ n ≤ 9999) :
    Act (· ∈ [.trackers, .sup, .list]) (s.registerOffer o) (s.offerTaken o) := by
  unfold Part.offerTaken
  split
  · next n h => exact hearSerial_act (by decide) (by decide) (by decide) _ _ (hn n h) _ _ .refl
  · exact .refl

/-- An OFFER with a serial and without the RERUN flag: the tracker takes the serial. -/
theorem serialTaken_offerTaken (h : o.serial = some n) (hr : o.rerun = false) :
    SerialTaken s (s.offerTaken o) o.service n (s.leads o.service) fun l =>
      { handle := some o.owner, serial := some n, offset := 0, raw := none, plane := (s.line l).plane } := by
  have eq : s.offerTaken o = (s.registerOffer o).takeSerial o.service n ((s.registerOffer o).serviceLines o.service).head?
      { handle := some o.owner, serial := some n, offset := 0, raw := none
        plane := (((s.registerOffer o).serviceLines o.service).head?.map fun l => ((s.registerOffer o).line l).plane).getD
          .ltrs } := by
    rw [Part.offerTaken, h]
    dsimp only
    rw [Part.hearSerial, hr]
    rfl
  have takes := registerOffer_takes (s := s) (o := o)
  have lines (m : LineNo) : (s.registerOffer o).line m = s.line m := by
    rw [Part.line, takes.lines_eq (by decide) (by decide) (by decide) (by decide) (by decide), Part.line]
  have head : ((s.registerOffer o).serviceLines o.service).head? = (s.serviceLines o.service).head? := by
    have cfg : (s.registerOffer o).cfg = s.cfg := funext fun l => takes.cfg_eq l
    rw [Part.serviceLines, cfg, Part.serviceLines]
  rw [eq, head]
  refine serialTaken_takeSerial.congr (takes.trackers_eq (by decide)).symm rfl (fun l => (takes.cfg_eq l).symm)
    (fun l => by rw [Part.cond, Part.cond, lines]) (fun _ => rfl) (fun l => by rw [lines]) (fun _ => rfl)
    (fun l => (head_serviceLines_iff l).symm) fun l hl => ?_
  rw [hl, Option.map_some, Option.getD_some, lines]

/-- Otherwise no tracker changes. -/
theorem trackersKept_offerTaken (h : o.serial = none ∨ o.rerun = true ∨ s.tracker o.service = none) :
    TrackersKept s (s.offerTaken o) := by
  have takes := registerOffer_takes (s := s) (o := o)
  have kept : TrackersKept s (s.registerOffer o) := by
    refine ⟨takes.trackers_eq (by decide), fun m => ?_⟩
    have line : (s.registerOffer o).line m = s.line m := by
      rw [Part.line, takes.lines_eq (by decide) (by decide) (by decide) (by decide) (by decide), Part.line]
    rw [Part.cond, line]
    exact ⟨rfl, rfl⟩
  unfold Part.offerTaken
  split
  · next n hn =>
    rw [Part.hearSerial]
    rcases h with h | h | h
    · rw [h] at hn; cases hn
    · rw [if_pos h]; exact kept
    · split
      · exact kept
      · have none : (s.registerOffer o).tracker o.service = none := by
          rw [Part.tracker, takes.trackers_eq (by decide)]
          exact h
        dsimp only
        rw [takeSerial_of_none none]
        exact kept
  · exact kept

end
/-- Settles O50. -/
theorem offerTakenByRegister : Obligations.OfferTakenByRegister := by
  unfold Obligations.OfferTakenByRegister
  intro f o s hh hf hread law
  obtain ⟨q, hq⟩ : ∃ q, q = s.toPart.heard := ⟨_, rfl⟩
  have hlaw : RegisterLaw q.register := by rw [hq]; exact law
  obtain ⟨t, ht⟩ : ∃ t, t = q.hearOffer o := ⟨_, rfl⟩
  have step : exec (.heardOffer f) s = .next { s with toPart := t.serveBus } := by
    rw [exec_heardOffer hh hf, Part.offerHeard, hread, ht, hq]
  have taken := offerTaken_takes (s := q) (fun n => readOffer_serial hread n)
  have last : Act (· ∈ [.record, .list, .store]) (q.offerTaken o) t := by
    rw [ht, hearOffer_eq]
    split
    · exact .refl
    · exact recordsHearOffer_takes allSlots
  have register : t.register = (q.registerOffer o).register :=
    (last.register_eq (by decide)).trans (taken.register_eq (by decide))
  have trackers : t.trackers = (q.offerTaken o).trackers := last.trackers_eq (by decide)
  have lines (m : LineNo) : t.line m = (q.offerTaken o).line m := by
    rw [Part.line, last.lines_eq (by decide) (by decide) (by decide) (by decide) (by decide), Part.line]
  have entry (a b : Nat) : t.entryOf a b = entryIn (q.registerOffer o).register a b := by
    rw [Part.entryOf, register, entryIn]
  refine ⟨t, step, ?_⟩
  intro other after fits
  have other_iff (e : Entry) (n : Nat) (hn : o.serial = some n) : other e ↔ e.hasKey o.service n = false := by
    rw [← Bool.not_eq_true, hasKey_iff]
    show ¬(o.serial = some e.serial ∧ o.service = e.service) ↔ _
    rw [hn, Option.some.injEq]
    exact not_congr ⟨fun ⟨h1, h2⟩ => ⟨h2.symm, h1.symm⟩, fun ⟨h1, h2⟩ => ⟨h2.symm, h1.symm⟩⟩
  have after_eq : after = fun e => e.afterOffer q o := by rw [hq]; rfl
  have fits_iff (n : Nat) (hn : o.serial = some n) :
      fits ↔ (∃ e ∈ q.register, e.hasKey o.service n = true) ∨ q.register.length < 48 := by
    rw [hq]
    refine or_congr_left (exists_congr fun e => and_congr_right fun _ => ?_)
    rw [other_iff e n hn, Bool.not_eq_false]
  refine ⟨fun n hn => ?_, fun hn => ?_, fun n hn hfits e he ho => ?_, fun n hn hfull => ?_, fun e he => ?_,
    fun n hn hr => ?_, fun h => ?_⟩
  · rw [entry, offered_entry hlaw hn, hq]
    rfl
  · rw [register, register_of_unserialled hn, after_eq, hq]
    rfl
  · rw [entry, after_eq]
    exact other_kept hlaw hn ((fits_iff n hn).mp hfits) (by rw [hq]; exact he) ((other_iff e n hn).mp ho)
  · rw [fits_iff n hn, not_or] at hfull
    obtain ⟨hnew, hlen⟩ := hfull
    have new : ∀ e ∈ q.register, e.hasKey o.service n = false := fun e he => by
      rw [← Bool.not_eq_true]
      exact fun hk => hnew ⟨e, he, hk⟩
    simp only [entry, after_eq]
    have replaced := other_replaced hlaw hn new hlen
    rw [hq] at replaced ⊢
    exact replaced
  · rw [register] at he
    have keys := keys_registered he
    rw [hq] at keys
    exact keys
  · have serial := serialTaken_offerTaken (s := q) hn hr
    rw [hq] at serial
    refine serial.congr rfl ?_ (fun _ => rfl) (fun _ => rfl) (fun m => ?_) (fun _ => rfl) (fun m => ?_) (fun _ => .rfl)
      fun _ _ => rfl
    · rw [trackers, hq]
    · rw [Part.cond, lines, hq, Part.cond]
    · rw [lines, hq]
  · obtain ⟨same, kept⟩ := trackersKept_offerTaken (s := q) (o := o) (by rw [hq]; exact h)
    rw [hq] at same kept
    refine ⟨trackers.trans (by rw [hq]; exact same), fun m => ?_⟩
    rw [Part.cond, lines, hq]
    exact kept m

end Sys2Proof.Machine
end

section
/-! A heard OFFER at the station's records: `Obligations.OfferMeetsTheRecords`. -/

namespace Sys2Proof.Machine

/-! ### One record at an OFFER (R117 to R120, R128) -/

/-- The record is of the key of the OFFER. -/
abbrev InRecord.sameKey (x : InRecord) (o : OfferFields) : Prop :=
  x.serial.isSome = true ∧ x.serial = o.serial ∧ x.service = o.service

/-- The record's own OFFER waits on the send list. -/
abbrev Part.offerPending (s : Part) (i : Slot) : Prop :=
  (s.requestOf (.record i)).map Request.kind = some FrameKind.offer

/-- A carried record gives way to the OFFER (R117 to R119). -/
def Part.givesWay (s : Part) (i : Slot) (x : InRecord) (o : OfferFields) : Prop :=
  (s.offerPending i ∧ (x.quiet = true ∨ o.quiet = false)) ∨ (¬s.offerPending i ∧ x.quiet = true ∧ o.quiet = false)

section
variable {s t : Part} {i j : Slot} {r : Record} {x : InRecord} {o : OfferFields}

theorem recordHearsOffer_of_none (h : s.inRecord i = none) : s.recordHearsOffer o i = s := by
  rw [Part.recordHearsOffer, h]

theorem sameKey_iff : (x.serial.isSome && x.serial == o.serial && x.service == o.service) = true ↔ x.sameKey o := by
  simp [InRecord.sameKey, and_assoc]

section
variable (hr : s.record i = some r) (hb : r.body = .inbound x)
include hr hb

theorem recordHearsOffer_carrying (hx : x.state = .carrying) :
    (x.sameKey o ∧ s.givesWay i x o → s.recordHearsOffer o i = s.yieldTo i o) ∧
    (¬(x.sameKey o ∧ s.givesWay i x o) → s.recordHearsOffer o i = s) := by
  have key := sameKey_iff (x := x) (o := o)
  have eq : s.recordHearsOffer o i = if x.sameKey o then
      (if s.offerPending i then (if x.quiet = false ∧ o.quiet = true then s else s.yieldTo i o)
        else if x.quiet = true ∧ o.quiet = false then s.yieldTo i o else s) else s := by
    simp only [Part.recordHearsOffer, inRecord_eq hr hb, hx, key, Bool.and_eq_true, Bool.not_eq_true', beq_iff_eq,
      Part.offerPending]
  rw [eq]
  refine ⟨fun ⟨same, way⟩ => ?_, fun no => ?_⟩
  · rw [if_pos same]
    rcases way with ⟨hp, hq⟩ | ⟨hp, hq⟩
    · have kept : ¬(x.quiet = false ∧ o.quiet = true) := by
        rintro ⟨h1, h2⟩
        rw [h1, h2] at hq
        exact hq.elim (fun e => (nomatch e)) (fun e => (nomatch e))
      rw [if_pos hp, if_neg kept]
    · rw [if_neg hp, if_pos hq]
  · split_ifs with same hp hq hq
    · rfl
    · refine absurd ⟨same, .inl ⟨hp, ?_⟩⟩ no
      revert hq
      cases x.quiet <;> cases o.quiet <;> decide
    · exact absurd ⟨same, .inr ⟨hp, hq⟩⟩ no
    · rfl
    · rfl

theorem recordHearsOffer_rerunning (hx : x.state = .rerunning) :
    (x.sameKey o ∧ s.offerPending i → s.recordHearsOffer o i = s.endRerun i) ∧
    (¬(x.sameKey o ∧ s.offerPending i) → s.recordHearsOffer o i = s) := by
  have key := sameKey_iff (x := x) (o := o)
  simp only [Part.recordHearsOffer, inRecord_eq hr hb, hx, Bool.and_eq_true, beq_iff_eq]
  simp only [Bool.and_eq_true, beq_iff_eq] at key
  simp only [key, Part.offerPending]
  exact ⟨fun h => if_pos h, fun h => if_neg h⟩

theorem recordHearsOffer_standing (hx : x.state = .standby ∨ x.state = .standbyComplete) :
    (x.sameKey o → (o.quiet = false ∨ x.disp = some .quiet) → s.recordHearsOffer o i = s.adopt i o) ∧
    (x.sameKey o → o.quiet = true → x.disp ≠ some .quiet → s.recordHearsOffer o i = s) ∧
    (¬x.sameKey o → x.peer.map Peer.owner = some o.owner → s.recordHearsOffer o i = s.takeover i) ∧
    (¬x.sameKey o → x.peer.map Peer.owner ≠ some o.owner → s.recordHearsOffer o i = s) := by
  have key := sameKey_iff (x := x) (o := o)
  have eq : s.recordHearsOffer o i = if x.sameKey o then (if o.quiet = false ∨ x.disp = some .quiet then s.adopt i o else s)
      else if x.peer.map Peer.owner = some o.owner then s.takeover i else s := by
    rcases hx with hx | hx <;>
      simp only [Part.recordHearsOffer, inRecord_eq hr hb, hx, key, Bool.or_eq_true, Bool.not_eq_true', beq_iff_eq]
  refine ⟨fun h h' => ?_, fun h h1 h2 => ?_, fun h h' => ?_, fun h h' => ?_⟩
  · rw [eq, if_pos h, if_pos h']
  · rw [eq, if_pos h, if_neg]
    rintro (e | e)
    · rw [h1] at e; cases e
    · exact h2 e
  · rw [eq, if_neg h, if_pos h']
  · rw [eq, if_neg h, if_neg h']

theorem recordHearsOffer_other (hx : x.state = .opening ∨ x.state = .recent ∨ x.state = .withdrawing) :
    s.recordHearsOffer o i = s := by
  rcases hx with hx | hx | hx <;> simp only [Part.recordHearsOffer, inRecord_eq hr hb, hx]

theorem yieldTo_facts : (s.yieldTo i o).record i = some { r with body := .inbound { x with
      state := if r.closed then .standbyComplete else .standby, cursor := 0, quiet := o.quiet
      peer := some { owner := o.owner, progress := o.soFar, since := s.now, past20 := false } } } ∧
    (s.yieldTo i o).hasRequest (.record i) = false := by
  have kept : (s.removeRequest (.record i)).record i = some r := by rw [removeRequest_record]; exact hr
  have now : (s.removeRequest (.record i)).now = s.now := by rw [removeRequest_now]
  rw [Part.yieldTo, Part.standBehind, updRecord_eq kept, Record.mapIn, hb, now]
  exact ⟨record_setRecord_self _ _ _, hasRequest_removeRequest_self _ _⟩

theorem endRerun_facts : (s.endRerun i).record i = some { r with body := .inbound { x with state := .recent, rerun := false } } ∧
    (s.endRerun i).hasRequest (.record i) = false ∧ i ∈ (s.endRerun i).recent := by
  have kept : (s.removeRequest (.record i)).record i = some r := by rw [removeRequest_record]; exact hr
  rw [Part.endRerun, updIn_eq kept hb]
  exact ⟨record_setRecord_self _ _ _, hasRequest_removeRequest_self _ _,
    List.mem_append_right _ (List.mem_singleton_self _)⟩

theorem record_adopt {p : Peer} (hp : x.peer = some p) : (s.adopt i o).record i = some { r with body := .inbound { x with
    quiet := o.quiet
    peer := some { owner := o.owner, progress := max p.progress o.soFar, since := s.now, past20 := false } } } := by
  rw [Part.adopt, updIn_eq hr hb, record_setRecord_self, hp]
  rfl

end

/-- What one record does at an OFFER leaves every other with its request. -/
theorem slotView_recordHearsOffer_ne (hj : j ≠ i) : (s.recordHearsOffer o i).slotView j = s.slotView j := by
  have yields : (s.yieldTo i o).slotView j = s.slotView j := by
    refine slotView_eq_iff.mpr ⟨?_, ?_⟩
    · rw [Part.yieldTo, Part.standBehind, record_updRecord_ne _ _ _ _ hj, removeRequest_record]
    · show (s.removeRequest (.record i)).requestOf (.record j) = _
      exact requestOf_removeRequest_ne _ _ (fun e => hj (Owner.record.inj e))
  have reruns : (s.endRerun i).slotView j = s.slotView j := by
    refine slotView_eq_iff.mpr ⟨?_, ?_⟩
    · show ((s.removeRequest (.record i)).updIn i _).record j = _
      rw [(slotView_eq_iff.mp (slotView_updIn_ne (s.removeRequest (.record i)) i j _ hj)).1, removeRequest_record]
    · show (s.removeRequest (.record i)).requestOf (.record j) = _
      exact requestOf_removeRequest_ne _ _ (fun e => hj (Owner.record.inj e))
  have adopts : (s.adopt i o).slotView j = s.slotView j := slotView_updIn_ne _ _ _ _ hj
  have takes : (s.takeover i).slotView j = s.slotView j := slotView_takeover_ne s i j hj
  unfold Part.recordHearsOffer
  dsimp only
  repeat' split
  all_goals first | rfl | exact yields | exact reruns | exact adopts | exact takes

/-- A record's OFFER heard takes no slot off the recent list. -/
theorem mem_recent_recordHearsOffer (h : j ∈ s.recent) : j ∈ (s.recordHearsOffer o i).recent := by
  have yields : j ∈ (s.yieldTo i o).recent := by
    show j ∈ (s.removeRequest (.record i)).recent
    rw [removeRequest_recent]
    exact h
  have reruns : j ∈ (s.endRerun i).recent := by
    show j ∈ (s.removeRequest (.record i)).recent ++ [i]
    rw [removeRequest_recent]
    exact List.mem_append_left _ h
  have takes : j ∈ (s.takeover i).recent := by
    rw [(takeover_takes s i).recent_eq (by decide)]
    exact h
  unfold Part.recordHearsOffer
  dsimp only
  repeat' split
  all_goals first | exact h | exact yields | exact reruns | exact takes

end

/-! ### All records at an OFFER -/

section
variable {s t : Part} {o : OfferFields} (ht : t = s.forSlots allSlots fun i s => s.recordHearsOffer o i)
include ht

/-- A slot meets the OFFER as it stood before it, whatever the other records did. -/
theorem slotView_recordsHearOffer (i : Slot) : ∃ u : Part, u.now = s.now ∧ u.slotView i = s.slotView i ∧
    t.slotView i = (u.recordHearsOffer o i).slotView i := by
  obtain ⟨is, hn, hm, hall⟩ := exists_allSlots_eq
  rw [hall] at ht
  obtain ⟨u, hu, hus, htu⟩ := view_foldl_of_mem (p := fun t => t.slotView i) (k := i)
    (f := fun i s => s.recordHearsOffer o i) (fun j u hj => slotView_recordHearsOffer_ne hj.symm)
    (R := Act (· ∈ [.record, .list, .store]) s) (fun j u hu => hu.trans (recordHearsOffer_takes j)) hn (hm i) .refl
  exact ⟨u, hu.now_eq, hus, by rw [ht]; exact htu⟩

theorem recent_recordsHearOffer (i : Slot)
    (h : ∀ u : Part, u.slotView i = s.slotView i → i ∈ (u.recordHearsOffer o i).recent) : i ∈ t.recent := by
  obtain ⟨is, hn, hm, hall⟩ := exists_allSlots_eq
  rw [hall] at ht
  rw [ht]
  exact foldl_establishes (p := fun t => t.slotView i) (k := i) (f := fun i s => s.recordHearsOffer o i)
    (fun j u hj => slotView_recordHearsOffer_ne hj.symm) (R := fun _ => True) (Q := fun u => i ∈ u.recent)
    (fun _ _ _ => trivial) (fun _ _ _ h => mem_recent_recordHearsOffer h) hn (hm i) trivial fun u _ hu => h u hu

end

/-- The register and the tracker at an OFFER leave the records and their requests. -/
theorem slotView_offerTaken (s : Part) (o : OfferFields) (i : Slot) : (s.offerTaken o).slotView i = s.slotView i := by
  have register : (s.registerOffer o).slotView i = s.slotView i := by
    have takes := registerOffer_takes (s := s) (o := o)
    refine slotView_eq_iff.mpr ⟨?_, ?_⟩
    · rw [Part.record, takes.records_eq (by decide) (by decide), Part.record]
    · rw [Part.requestOf, takes.port_eq (by decide) (by decide), Part.requestOf]
  have serial (n : Nat) (r : Bool) : ((s.registerOffer o).hearSerial o.service n o.owner r).slotView i = s.slotView i := by
    rw [← register, Part.hearSerial]
    split
    · rfl
    · obtain ⟨hr, hq, -⟩ := recordView_eq_iff.mp (recordView_takeSerial i)
      exact slotView_eq_iff.mpr ⟨hr, hq⟩
  unfold Part.offerTaken
  split
  · exact serial _ _
  · exact register

/-- Settles O51. -/
theorem offerMeetsTheRecords : Obligations.OfferMeetsTheRecords := by
  unfold Obligations.OfferMeetsTheRecords
  intro f o s hh hf hread other
  obtain ⟨q, hq⟩ : ∃ q, q = s.toPart.heard := ⟨_, rfl⟩
  obtain ⟨t, ht⟩ : ∃ t, t = (q.offerTaken o).forSlots allSlots fun i s => s.recordHearsOffer o i := ⟨_, rfl⟩
  have step : exec (.heardOffer f) s = .next { s with toPart := t.serveBus } := by
    have number : o.owner.station ≠ q.number := by rw [hq]; exact other
    rw [exec_heardOffer hh hf, Part.offerHeard, hread, ht, ← hq]
    dsimp only
    rw [hearOffer_eq, if_neg number]
  have before (i : Slot) : (q.offerTaken o).slotView i = s.slotView i := by
    rw [slotView_offerTaken, hq]
    rfl
  have now : (q.offerTaken o).now = s.now :=
    (offerTaken_takes (fun n => readOffer_serial hread n)).now_eq.trans (registerOffer_takes.now_eq.trans (by rw [hq]; rfl))
  have at_ (i : Slot) : ∃ u : Part, u.now = s.now ∧ (u.record i = s.record i ∧
      u.requestOf (.record i) = s.requestOf (.record i)) ∧ t.slotView i = (u.recordHearsOffer o i).slotView i := by
    obtain ⟨u, hn, hu, h⟩ := slotView_recordsHearOffer ht i
    exact ⟨u, hn.trans now, slotView_eq_iff.mp (hu.trans (before i)), h⟩
  refine ⟨t, step, fun i hi => ?_, fun i r y hr hb => ?_, fun i r x hr hb => ?_⟩
  · obtain ⟨u, -, ⟨hur, -⟩, h⟩ := at_ i
    rw [recordHearsOffer_of_none (by rw [Part.inRecord, hur, hi]; rfl)] at h
    exact (slotView_eq_iff.mp h).1.trans (hur.trans hi)
  · obtain ⟨u, -, ⟨hur, huq⟩, h⟩ := at_ i
    rw [recordHearsOffer_of_none (by rw [Part.inRecord, hur, hr, Option.bind_some, Record.inbound?, hb])] at h
    obtain ⟨hr', hq'⟩ := slotView_eq_iff.mp h
    exact ⟨hr'.trans (hur.trans hr), hq'.trans huq⟩
  · intro sameKey pending standing
    obtain ⟨u, hnow, ⟨hur, huq⟩, h⟩ := at_ i
    have hur' := hur.trans hr
    have pend : u.offerPending i ↔ pending := by rw [Part.offerPending, huq]
    have stays (e : u.recordHearsOffer o i = u) :
        t.record i = some r ∧ t.requestOf (.record i) = s.requestOf (.record i) := by
      rw [e] at h
      obtain ⟨hr', hq'⟩ := slotView_eq_iff.mp h
      exact ⟨hr'.trans hur', hq'.trans huq⟩
    obtain ⟨htr, htq⟩ := slotView_eq_iff.mp h
    refine ⟨fun hx same gives => ?_, fun hx out => ?_, fun hx same hp => ?_, fun hx out => ?_,
      fun p hx hp same adopts => ?_, fun p hx hp same h1 h2 => ?_, fun p hx hp out owner => ?_,
      fun p hx hp out owner => ?_, fun hx => ?_⟩
    · have way : u.givesWay i x o := by rw [Part.givesWay, pend]; exact gives
      rw [(recordHearsOffer_carrying hur' hb hx).1 ⟨same, way⟩] at htr htq
      obtain ⟨h1, h2⟩ := yieldTo_facts (o := o) hur' hb
      exact ⟨htr.trans (by rw [h1, hnow]), (hasRequest_congr htq).trans h2⟩
    · refine stays ((recordHearsOffer_carrying hur' hb hx).2 ?_)
      rintro ⟨same, way⟩
      rw [Part.givesWay, pend] at way
      rcases out with out | ⟨hp, h1, h2⟩ | ⟨hp, h1⟩
      · exact out same
      · rcases way with ⟨-, h3⟩ | ⟨h3, -⟩
        · rw [h1, h2] at h3; rcases h3 with h3 | h3 <;> cases h3
        · exact h3 hp
      · rcases way with ⟨h3, -⟩ | ⟨-, h3⟩
        · exact hp h3
        · exact h1 h3
    · have gone (v : Part) (hv : v.slotView i = s.slotView i) : v.recordHearsOffer o i = v.endRerun i := by
        obtain ⟨hvr, hvq⟩ := slotView_eq_iff.mp hv
        exact (recordHearsOffer_rerunning (hvr.trans hr) hb hx).1 ⟨same, by rw [Part.offerPending, hvq]; exact hp⟩
      rw [(recordHearsOffer_rerunning hur' hb hx).1 ⟨same, pend.mpr hp⟩] at htr htq
      obtain ⟨h1, h2, -⟩ := endRerun_facts hur' hb
      refine ⟨htr.trans h1, (hasRequest_congr htq).trans h2, recent_recordsHearOffer ht i fun v hv => ?_⟩
      have hv' := hv.trans (before i)
      rw [gone v hv']
      exact (endRerun_facts ((slotView_eq_iff.mp hv').1.trans hr) hb).2.2
    · refine stays ((recordHearsOffer_rerunning hur' hb hx).2 ?_)
      rintro ⟨same, hp⟩
      exact out.elim (fun e => e same) (fun e => e (pend.mp hp))
    · rw [(recordHearsOffer_standing hur' hb hx).1 same adopts, record_adopt hur' hb hp, hnow] at htr
      exact htr
    · exact (stays ((recordHearsOffer_standing hur' hb hx).2.1 same h1 h2)).1
    · have owner' : x.peer.map Peer.owner = some o.owner := by rw [hp, Option.map_some, owner]
      rw [(recordHearsOffer_standing hur' hb hx).2.2.1 out owner'] at h
      exact (takeover_takesOver hur' hb hp).of_views (slotView_eq_iff.mpr ⟨hur, huq⟩) h
    · have owner' : x.peer.map Peer.owner ≠ some o.owner := by
        rw [hp, Option.map_some]
        exact fun e => owner (Option.some.inj e)
      exact (stays ((recordHearsOffer_standing hur' hb hx).2.2.2 out owner')).1
    · exact (stays (recordHearsOffer_other hur' hb hx)).1

end Sys2Proof.Machine
end

section
/-! Codes stored behind an outbound story's last (02.5, 04.1, R44, R86). -/

namespace Sys2Proof.Machine

/-! ### Cells written one after another -/

theorem entryAddr_append {blocks : List Nat} {n : Nat} (h : n < 64 * blocks.length) (more : List Nat) :
    entryAddr (blocks ++ more) n = entryAddr blocks n := by
  have hn : n / Config.blockEntries < blocks.length := Nat.div_lt_of_lt_mul h
  rw [entryAddr, entryAddr, List.getD_append _ _ _ _ hn]

theorem store_append (m : Memory) (blocks : List Nat) (n : Nat) (as bs : List Byte) :
    m.store blocks n (as ++ bs) = (m.store blocks n as).store blocks (n + as.length) bs := by
  induction as generalizing m n with
  | nil => rfl
  | cons a as ih =>
    rw [List.cons_append, Memory.store, ih, Memory.store, List.length_cons, Nat.add_assoc, Nat.add_comm 1]

theorem store_more_blocks (m : Memory) (blocks more : List Nat) (n : Nat) {bs : List Byte}
    (h : n + bs.length ≤ 64 * blocks.length) : m.store (blocks ++ more) n bs = m.store blocks n bs := by
  induction bs generalizing m n with
  | nil => rfl
  | cons b bs ih =>
    rw [List.length_cons] at h
    rw [Memory.store, Memory.store, entryAddr_append (by omega), ih _ _ (by omega)]

/-! ### What storing codes leaves -/

/-- `t` is `s` but for the record `r` in slot `i`, the `cells` and the blocks `left` free: STORE-LOW is judged
only where a block left the free list. -/
structure Packed (s t : Part) (i : Slot) (r : Record) (cells : Memory) (left : List Nat) : Prop where
  record : t.record i = some r
  others : ∀ j, j ≠ i → t.record j = s.record j
  mem : t.mem = cells
  free : t.free = left
  request : ∀ o, o ≠ .station → t.requestOf o = s.requestOf o
  notices : (left = s.free ∧ t.notices = s.notices) ∨ left.length < s.free.length
  rest : { t with mem := s.mem, records := s.records, free := s.free, port := s.port, notices := s.notices } = s

section
variable {s t u : Part} {i : Slot} {r r' : Record} {x : OutRecord} {m m' : Memory} {fr fr' : List Nat} {e : OutEntry}

theorem Packed.refl (hr : s.record i = some r) : Packed s s i r s.mem s.free :=
  ⟨hr, fun _ _ => rfl, rfl, rfl, fun _ _ => rfl, .inl ⟨rfl, rfl⟩, rfl⟩

theorem Packed.trans (h : Packed s t i r m fr) (h' : Packed t u i r' m' fr') : Packed s u i r' m' fr' where
  record := h'.record
  others j hj := (h'.others j hj).trans (h.others j hj)
  mem := h'.mem
  free := h'.free
  request o ho := (h'.request o ho).trans (h.request o ho)
  notices := by
    have hf := h.free
    rcases h.notices with ⟨h1, h2⟩ | h1
    · rcases h'.notices with ⟨h3, h4⟩ | h3
      · exact .inl ⟨h3.trans (hf.trans h1), h4.trans h2⟩
      · exact .inr (by rw [hf, h1] at h3; exact h3)
    · rcases h'.notices with ⟨h3, h4⟩ | h3
      · exact .inr (by rw [h3, hf]; exact h1)
      · exact .inr (by rw [hf] at h3; omega)
  rest := by
    have h2 := h'.rest
    calc { u with mem := s.mem, records := s.records, free := s.free, port := s.port, notices := s.notices }
        = { ({ u with mem := t.mem, records := t.records, free := t.free, port := t.port, notices := t.notices } : Part)
            with mem := s.mem, records := s.records, free := s.free, port := s.port, notices := s.notices } := rfl
      _ = s := by rw [h2, h.rest]

theorem Packed.lines (h : Packed s t i r m fr) : t.lines = s.lines := (congrArg Part.lines h.rest :)

theorem Packed.notices_eq (h : Packed s t i r m fr) (hf : s.free = fr) : t.notices = s.notices :=
  h.notices.elim And.right fun hlt => by rw [hf] at hlt; exact absurd hlt (lt_irrefl _)

theorem Packed.lift_hasRequest (h : Packed s t i r m fr) : t.hasRequest (.record i) = s.hasRequest (.record i) :=
  hasRequest_congr (o := .record i) (h.request _ fun e => (nomatch e))

/-- One code stored where the story's last block has room. -/
theorem storeCode_of_room (hr : s.record i = some r) (hc : r.count < 64 * r.blocks.length) :
    ∃ t, s.storeCode i e = (t, true) ∧
      Packed s t i { r with count := r.count + 1 } (s.mem.write (entryAddr r.blocks r.count) e.pack) s.free := by
  have full : r.full = false := by
    rw [← Bool.not_eq_true, full_iff]; omega
  refine ⟨_, by rw [Part.storeCode, hr]; dsimp only; rw [full]; rfl, ?_⟩
  rw [writeEntry_eq hr]
  exact ⟨record_setRecord_self _ _ _, fun j hj => record_setRecord_ne _ _ _ _ hj, rfl, rfl, fun _ _ => rfl,
    .inl ⟨rfl, rfl⟩, rfl⟩

/-- The blocks `moved` come from the head of the reservation or, once that is empty, of the free list; `rest` and
`free` are left (R86). -/
def Part.gives (s : Part) (x : OutRecord) (moved rest free : List Nat) : Prop :=
  (x.reservation = moved ++ rest ∧ s.free = free) ∨ (x.reservation = [] ∧ rest = [] ∧ s.free = moved ++ free)

/-- No block can be had for the story (R44). -/
def Part.givesNone (s : Part) (r : Record) (x : OutRecord) : Prop :=
  250 ≤ r.blocks.length ∨ (x.reservation = [] ∧ s.free = [] ∧ s.recent = [])

section
variable (hr : s.record i = some r) (hb : r.body = .outbound x)
include hr hb

theorem takeOutBlock_of_given (hlen : r.blocks.length < 250) {b : Nat} {rest free : List Nat}
    (h : s.gives x [b] rest free) : ∃ t, s.takeOutBlock i = (t, true) ∧ Packed s t i { r with
      blocks := r.blocks ++ [b], body := .outbound { x with reservation := rest } } s.mem free := by
  have short : ¬Config.storyBlocks ≤ r.blocks.length := Nat.not_le.mpr hlen
  have reserved : r.reservation = x.reservation := by rw [Record.reservation, hb]
  rcases h with ⟨hres, hf⟩ | ⟨hres, hrest, hf⟩
  · refine ⟨s.setRecord i (some { r with blocks := r.blocks ++ [b], body := .outbound { x with reservation := rest } }),
      ?_, ?_⟩
    · rw [Part.takeOutBlock, hr]
      dsimp only
      rw [if_neg short, reserved, hres]
      dsimp only [List.singleton_append]
      rw [updRecord_eq hr, Record.mapOut, hb]
    · exact ⟨record_setRecord_self _ _ _, fun j hj => record_setRecord_ne _ _ _ _ hj, rfl, hf, fun _ _ => rfl,
        .inl ⟨hf.symm, rfl⟩, rfl⟩
  · have same : ({ r with blocks := r.blocks ++ [b], body := .outbound { x with reservation := rest } } : Record) =
        { r with blocks := r.blocks ++ [b] } := by
      have hx : { x with reservation := rest } = x := by rw [hrest, ← hres]
      rw [hx, ← hb]
    rw [same]
    obtain ⟨u, hu⟩ : ∃ u, u = (({ s with free := free } : Part).setRecord i
      (some { r with blocks := r.blocks ++ [b] })).judgeStore := ⟨_, rfl⟩
    refine ⟨u, ?_, ?_⟩
    · rw [Part.takeOutBlock, hr]
      dsimp only
      rw [if_neg short, reserved, hres]
      dsimp only
      rw [takeBlock_of_free hr (rest := free) hf, hu]
    · refine ⟨?_, fun j hj => ?_, ?_, ?_, fun o ho => ?_, .inr (hf ▸ Nat.lt_succ_self _), ?_⟩
      · rw [hu, judgeStore_record, record_setRecord_self]
      · rw [hu, judgeStore_record, record_setRecord_ne _ _ _ _ hj]; rfl
      · rw [hu, judgeStore_mem]; rfl
      · rw [hu, judgeStore_free]; rfl
      · rw [hu, requestOf_judgeStore _ ho]; rfl
      · rw [hu, judgeStore_eq]; rfl

/-- One code stored at the head of a further block. -/
theorem storeCode_of_block (hc : r.count = 64 * r.blocks.length) (hlen : r.blocks.length < 250) {b : Nat}
    {rest free : List Nat} (h : s.gives x [b] rest free) : ∃ t, s.storeCode i e = (t, true) ∧ Packed s t i { r with
      count := r.count + 1, blocks := r.blocks ++ [b], body := .outbound { x with reservation := rest } }
      (s.mem.write (entryAddr (r.blocks ++ [b]) r.count) e.pack) free := by
  obtain ⟨t, ht, packed⟩ := takeOutBlock_of_given hr hb hlen h
  refine ⟨t.writeEntry i e.pack, ?_, packed.trans ?_⟩
  · rw [Part.storeCode, hr]
    dsimp only
    rw [(full_iff r).mpr hc, ht]
    rfl
  · rw [writeEntry_eq packed.record]
    exact ⟨record_setRecord_self _ _ _, fun j hj => record_setRecord_ne _ _ _ _ hj,
      by show t.mem.write _ _ = _; rw [packed.mem], packed.free, fun _ _ => rfl, .inl ⟨packed.free.symm, rfl⟩, rfl⟩

theorem storeCode_of_none (hc : r.count = 64 * r.blocks.length) (h : s.givesNone r x) : s.storeCode i e = (s, false) := by
  have reserved : r.reservation = x.reservation := by rw [Record.reservation, hb]
  have none : s.takeOutBlock i = (s, false) := by
    rw [Part.takeOutBlock, hr]
    dsimp only
    split_ifs with hlen
    · rfl
    · rcases h with h | ⟨hres, hf, hn⟩
      · exact absurd h hlen
      · have stays : evictUntil (fun s => !s.free.isEmpty) s.recent.length s = s := by rw [hn]; rfl
        rw [reserved, hres]
        simp only [Part.takeBlock, stays, hf]
  rw [Part.storeCode, hr]
  dsimp only
  rw [(full_iff r).mpr hc, none]
  rfl

end

/-! ### Several codes -/

theorem storeCodes_cons_stored {es : List OutEntry} (h : s.storeCode i e = (t, true)) :
    storeCodes i (e :: es) s = storeCodes i es t := by rw [storeCodes, h]

theorem storeCodes_cons_lost {es : List OutEntry} (h : s.storeCode i e = (t, false)) :
    storeCodes i (e :: es) s = (t, false) := by rw [storeCodes, h]

theorem storeCodes_append_stored {as bs : List OutEntry} (h : storeCodes i as s = (t, true)) :
    storeCodes i (as ++ bs) s = storeCodes i bs t := by
  induction as generalizing s with
  | nil =>
    obtain ⟨rfl, -⟩ := Prod.mk.inj h
    rfl
  | cons a as ih =>
    rcases hc : s.storeCode i a with ⟨v, stored⟩
    cases stored with
    | true =>
      rw [storeCodes_cons_stored hc] at h
      rw [List.cons_append, storeCodes_cons_stored hc, ih h]
    | false =>
      rw [storeCodes_cons_lost hc] at h
      cases h

/-- Codes stored where the story's last block has room for all of them. -/
theorem storeCodes_of_room {es : List OutEntry} (hr : s.record i = some r) (hc : r.count + es.length ≤ 64 * r.blocks.length) :
    ∃ t, storeCodes i es s = (t, true) ∧ Packed s t i { r with count := r.count + es.length }
      (s.mem.store r.blocks r.count (es.map OutEntry.pack)) s.free := by
  induction es generalizing s r with
  | nil => exact ⟨s, rfl, .refl hr⟩
  | cons e es ih =>
    rw [List.length_cons] at hc
    obtain ⟨t, ht, first⟩ := storeCode_of_room (e := e) hr (by omega)
    obtain ⟨u, hu, rest⟩ := ih (r := { r with count := r.count + 1 }) first.record (by show r.count + 1 + es.length ≤ 64 * r.blocks.length; omega)
    rw [first.mem, first.free] at rest
    refine ⟨u, (storeCodes_cons_stored ht).trans hu, ?_⟩
    have count : r.count + (e :: es).length = r.count + 1 + es.length := by rw [List.length_cons]; omega
    rw [count]
    exact first.trans rest

/-- The codes fit: with no further block, or with one. -/
def Record.fits (r : Record) (moved : List Nat) (count : Nat) : Prop :=
  (moved = [] ∧ count ≤ 64 * r.blocks.length) ∨
    (moved.length = 1 ∧ r.blocks.length < 250 ∧ 64 * r.blocks.length < count)

section
variable {es : List OutEntry} (hr : s.record i = some r) (hb : r.body = .outbound x)
  (hc : r.count ≤ 64 * r.blocks.length) (hes : es.length ≤ 64)
include hr hb hc

omit hb in
/-- The codes that fit the story's blocks are stored first. -/
theorem storeCodes_fit (h : 64 * r.blocks.length < r.count + es.length) : ∃ t e rest,
    es.drop (64 * r.blocks.length - r.count) = e :: rest ∧ storeCodes i es s = storeCodes i (e :: rest) t ∧
    Packed s t i { r with count := 64 * r.blocks.length } (s.mem.store r.blocks r.count
      ((es.take (64 * r.blocks.length - r.count)).map OutEntry.pack)) s.free := by
  have len : (es.take (64 * r.blocks.length - r.count)).length = 64 * r.blocks.length - r.count := by
    rw [List.length_take]; omega
  obtain ⟨t, ht, packed⟩ := storeCodes_of_room (es := es.take (64 * r.blocks.length - r.count)) hr (by rw [len]; omega)
  have count : r.count + (es.take (64 * r.blocks.length - r.count)).length = 64 * r.blocks.length := by rw [len]; omega
  rw [count] at packed
  have more := storeCodes_append_stored (bs := es.drop (64 * r.blocks.length - r.count)) ht
  rw [List.take_append_drop] at more
  cases hd : es.drop (64 * r.blocks.length - r.count) with
  | nil =>
    have := List.drop_eq_nil_iff.mp hd
    omega
  | cons e rest => exact ⟨t, e, rest, rfl, by rw [more, hd], packed⟩

/-- Where no block can be had, the codes that fit are stored. -/
theorem storeCodes_overrun (h : 64 * r.blocks.length < r.count + es.length) (hn : s.givesNone r x) :
    ∃ t, storeCodes i es s = (t, false) ∧ Packed s t i { r with count := 64 * r.blocks.length }
      (s.mem.store r.blocks r.count ((es.take (64 * r.blocks.length - r.count)).map OutEntry.pack)) s.free := by
  obtain ⟨t, e, rest, -, eq, packed⟩ := storeCodes_fit hr hc h
  refine ⟨t, ?_, packed⟩
  rw [eq]
  refine storeCodes_cons_lost (storeCode_of_none packed.record hb rfl (hn.imp_right fun ⟨h1, h2, h3⟩ => ⟨h1, ?_, ?_⟩))
  · rw [packed.free, h2]
  · exact (congrArg Part.recent packed.rest :).trans h3

include hes

/-- Where the codes fit, they are stored behind the story's last. -/
theorem storeCodes_stored {moved rest free : List Nat} (hg : s.gives x moved rest free)
    (hf : r.fits moved (r.count + es.length)) : ∃ t, storeCodes i es s = (t, true) ∧ Packed s t i { r with
      count := r.count + es.length, blocks := r.blocks ++ moved, body := .outbound { x with reservation := rest } }
      (s.mem.store (r.blocks ++ moved) r.count (es.map OutEntry.pack)) free := by
  rcases hf with ⟨rfl, hroom⟩ | ⟨hone, hlen, hmore⟩
  · have left : rest = x.reservation ∧ free = s.free := by
      rcases hg with ⟨h1, h2⟩ | ⟨h1, h2, h3⟩
      · exact ⟨h1.symm, h2.symm⟩
      · exact ⟨h2.trans h1.symm, h3.symm⟩
    have same : .outbound { x with reservation := rest } = r.body := by rw [left.1, hb]
    rw [left.2, List.append_nil, same]
    exact storeCodes_of_room hr hroom
  · obtain ⟨b, rfl⟩ := List.length_eq_one_iff.mp hone
    obtain ⟨t, e, more, hdrop, eq, packed⟩ := storeCodes_fit hr hc hmore
    have gives : t.gives x [b] rest free := by rw [Part.gives, packed.free]; exact hg
    obtain ⟨u, hu, packed'⟩ := storeCode_of_block (e := e) packed.record hb rfl hlen gives
    have hlens : more.length + 1 = es.length - (64 * r.blocks.length - r.count) := by
      rw [← List.length_drop, hdrop, List.length_cons]
    obtain ⟨v, hv, packed''⟩ := storeCodes_of_room (es := more) packed'.record (by
      show 64 * r.blocks.length + 1 + more.length ≤ 64 * (r.blocks ++ [b]).length
      rw [List.length_append, List.length_singleton]
      omega)
    refine ⟨v, by rw [eq, storeCodes_cons_stored hu, hv], ?_⟩
    have all := packed.trans (packed'.trans packed'')
    have count : 64 * r.blocks.length + 1 + more.length = r.count + es.length := by omega
    have cells : (es.map OutEntry.pack) = (es.take (64 * r.blocks.length - r.count)).map OutEntry.pack ++
        e.pack :: more.map OutEntry.pack := by
      rw [← List.map_cons, ← hdrop, ← List.map_append, List.take_append_drop]
    have len : r.count + ((es.take (64 * r.blocks.length - r.count)).map OutEntry.pack).length = 64 * r.blocks.length := by
      rw [List.length_map, List.length_take]; omega
    rw [cells, store_append, len, store_more_blocks _ _ _ _ (le_of_eq len), ← packed.mem, ← count, Memory.store,
      ← packed'.mem]
    rw [packed'.free] at all
    exact all

end
end
end Sys2Proof.Machine
end

section
/-! A caller's CLOSE (07.6): `Obligations.CallCloseTaken`. -/

namespace Sys2Proof.Machine

/-! ### A story joins the queue of its line (R147, R154) -/

section
variable {s : Part} {i : Slot} {l : LineNo} {r : Record} {x : OutRecord}

/-- The record of slot `i` QUEUED, its intake over and its reservation given back. -/
def Record.queued (r : Record) (x : OutRecord) : Record :=
  { r with body := .outbound { x with state := .queued, chars := none, reservation := [], intake := none } }

/-- The story of slot `i` stands last in the queue of line `l`, its reservation in the free list. -/
def Part.joins (s : Part) (i : Slot) (l : LineNo) (r : Record) (x : OutRecord) : Part :=
  ((s.returnSurplus i).setRecord i (some (r.queued x))).updSched l fun k => { k with queue := k.queue ++ [i] }

section
variable (hr : s.record i = some r) (hb : r.body = .outbound x)
include hr hb

theorem joins_eq : s.joins i l r x = ((((({ s with free := s.free ++ x.reservation } : Part).setRecord i (some { r with
    body := .outbound { x with reservation := [] } })).judgeStore).setRecord i (some (r.queued x))).updSched l fun k =>
    { k with queue := k.queue ++ [i] }) := by
  rw [Part.joins, returnSurplus_eq hr hb]

theorem queueStory_eq : s.queueStory i l = (s.joins i l r x).settleLines [l] := by
  have record : (s.returnSurplus i).record i = some { r with body := .outbound { x with reservation := [] } } := by
    rw [returnSurplus_eq hr hb, judgeStore_record, record_setRecord_self]
  rw [Part.queueStory, updOut_eq record rfl, Part.joins]
  rfl

theorem joins_rest : { s.joins i l r x with
      records := s.records, free := s.free, lines := s.lines, port := s.port, notices := s.notices } = s := by
  rw [joins_eq hr hb, judgeStore_eq]
  rfl

theorem joins_record : (s.joins i l r x).record i = some (r.queued x) ∧
    ∀ j, j ≠ i → (s.joins i l r x).record j = s.record j := by
  rw [joins_eq hr hb]
  refine ⟨record_setRecord_self _ _ _, fun j hj => ?_⟩
  show (Part.setRecord _ i _).record j = _
  rw [record_setRecord_ne _ _ _ _ hj, judgeStore_record, record_setRecord_ne _ _ _ _ hj]
  rfl

theorem joins_free : (s.joins i l r x).free = s.free ++ x.reservation := by
  rw [joins_eq hr hb]
  show (Part.judgeStore _).free = _
  rw [judgeStore_free]
  rfl

theorem joins_lines : (s.joins i l r x).line l = { s.line l with sched := { (s.line l).sched with
      queue := (s.line l).sched.queue ++ [i] } } ∧ ∀ m, m ≠ l → (s.joins i l r x).line m = s.line m := by
  have kept (m : LineNo) : ((s.returnSurplus i).setRecord i (some (r.queued x))).line m = s.line m := by
    rw [returnSurplus_eq hr hb]
    show (Part.judgeStore _).line m = _
    rw [judgeStore_line]
    rfl
  refine ⟨?_, fun m hm => ?_⟩
  · rw [Part.joins, Part.updSched, line_updLine_self, kept]
  · rw [Part.joins, line_updSched_ne _ _ _ _ hm, kept]

theorem senderFree_joins : (s.joins i l r x).senderFree l = s.senderFree l := by
  rw [Part.senderFree, (joins_lines hr hb).1, Part.senderFree]

/-- Behind a busy sender the story waits. -/
theorem queueStory_of_busy (hf : s.senderFree l = false) : s.queueStory i l = s.joins i l r x := by
  rw [queueStory_eq hr hb]
  exact settleLines_of_busy ((senderFree_joins hr hb).trans hf)

/-- With nothing else to send, the story begins. -/
theorem queueStory_of_free (hf : s.senderFree l = true) (hq : (s.line l).sched.queue = [])
    (ha : (s.line l).sched.answerBack = .clear) (hidle : (s.line l).unit.state = .idle)
    (hout : (s.line l).unit.out = none) (hc : 0 < r.count) (hg : ∀ g, x.release = some g → s.groups.get g = true) :
    s.queueStory i l = ((((s.joins i l r x).setRecord i (some { r with body := .outbound { x with
      state := .sending, chars := none, reservation := [], intake := none } })).updSched l fun k =>
      { k with current := some i, position := some 0 }).begins l .story (s.outEntry r 0).code) := by
  rw [queueStory_eq hr hb]
  obtain ⟨line, -⟩ := joins_lines (l := l) hr hb
  obtain ⟨record, -⟩ := joins_record (l := l) hr hb
  have free := (senderFree_joins (l := l) hr hb).trans hf
  have rest := joins_rest (l := l) hr hb
  have mem : (s.joins i l r x).mem = s.mem := (congrArg Part.mem rest :)
  have groups : (s.joins i l r x).groups = s.groups := (congrArg Part.groups rest :)
  clear rest
  generalize s.joins i l r x = q at *
  obtain ⟨y, hy⟩ : ∃ y : OutRecord, y = { x with state := .queued, chars := none, reservation := [], intake := none } :=
    ⟨_, rfl⟩
  have body : (r.queued x).body = .outbound y := by rw [hy]; rfl
  have choosable : q.choosable y = true := by
    rw [hy]
    exact choosable_iff.mpr (.inr ⟨rfl, fun g hgr => by rw [groups]; exact hg g hgr⟩)
  have choice : q.choice l = some i := by
    have first := firstInQueue_eq_some (s := q) (p := fun _ z => q.choosable z)
      (before := []) (after := []) record body choosable (fun _ _ _ h => absurd h List.not_mem_nil)
      fun _ _ _ h => absurd h List.not_mem_nil
    have queue : (q.line l).sched.queue = [] ++ i :: [] := by rw [line, hq]
    rw [Part.choice, queue, first]
    rfl
  have waits : (q.line l).sched.answerBack ≠ .pending := by rw [line, ha]; exact fun e => (nomatch e)
  have ready : q.readyToSend l := by
    refine ⟨?_, (senderFree_iff.mp free).1, ?_⟩
    · rw [line]; exact hidle
    · rw [line]; exact hout
  have step := freeStep_of_choice free waits choice
  rw [choose_of_queued record body (by rw [hy]) hc ready] at step
  rw [settleLines_of_step step (not_senderFree_begins (p := .story) nofun _)]
  have entry : q.outEntry (r.queued x) 0 = s.outEntry r 0 := by
    rw [Part.outEntry, Part.entry, mem, Part.outEntry, Part.entry]
    rfl
  rw [entry, hy]
  rfl

end

theorem queueStory_keeps (hr : s.record i = some r) (hb : r.body = .outbound x) :
    (s.queueStory i l).free = s.free ++ x.reservation ∧ (s.queueStory i l).mem = s.mem := by
  have act : Act (· ∈ [.sched, .record, .list, .groups, .unit]) (s.joins i l r x) ((s.joins i l r x).settleLines [l]) :=
    settleLines_act (by decide) (by decide) (by decide) (by decide) (by decide) _ .refl
  have mem : (s.joins i l r x).mem = s.mem := (congrArg Part.mem (joins_rest (l := l) hr hb) :)
  rw [queueStory_eq hr hb, act.free_eq (by decide), act.mem_eq (by decide), joins_free hr hb, mem]
  exact ⟨rfl, rfl⟩

end

/-! ### The closing shift (R45) -/

section
variable {s : Part} {i : Slot} {l : LineNo} {r : Record} {x : OutRecord} {k : Intake}

/-- The LTRS code that closes a story of another plane; it takes the line-end mark over from the code before it. -/
def Part.closing (s : Part) (l : LineNo) (r : Record) : OutEntry :=
  { code := shiftCode (s.map l) .ltrs, plane := .ltrs, mark := decide (0 < r.count) && (s.outEntry r (r.count - 1)).mark }

/-- The cell of the story's last code without its line-end mark. -/
def Part.unmarked (s : Part) (r : Record) : Byte :=
  ({ s.outEntry r (r.count - 1) with mark := false } : OutEntry).pack

/-- The cells once the closing shift is stored in the last of `blocks`. -/
def Part.closingCells (s : Part) (l : LineNo) (r : Record) (blocks : List Nat) : Memory :=
  let stored := s.mem.write (entryAddr blocks r.count) (s.closing l r).pack
  if (s.closing l r).mark then
    stored.write (entryAddr r.blocks (r.count - 1)) (s.unmarked r)
  else stored

section
theorem closingShift_of_ltrs {e : Encoder} {n : Nat} (he : e.plane = .ltrs) : s.closingShift i l e n = (s, .taken) := by
  rw [Part.closingShift, if_pos he]

variable (hr : s.record i = some r) (hb : r.body = .outbound x)
include hr

theorem closingShift_eq {e : Encoder} {n : Nat} (he : e.plane ≠ .ltrs) : s.closingShift i l e n =
    match s.storeCode i (s.closing l r) with
    | (t, true) => (if (s.closing l r).mark then
          { t with mem := t.mem.write (entryAddr r.blocks (r.count - 1)) (s.unmarked r) }
        else t, .taken)
    | (t, false) => (t.fault l .overrun (s.outboundFields i n e.plane), .overrun) := by
  rw [Part.closingShift, if_neg he, hr] <;> rfl

include hb

theorem closingShift_stored {e : Encoder} {n : Nat} (he : e.plane ≠ .ltrs) {moved rest free : List Nat}
    (hg : s.gives x moved rest free) (hc : r.count ≤ 64 * r.blocks.length) (hf : r.fits moved (r.count + 1)) :
    ∃ t, s.closingShift i l e n = (t, .taken) ∧ Packed s t i { r with
      count := r.count + 1, blocks := r.blocks ++ moved, body := .outbound { x with reservation := rest } }
      (s.closingCells l r (r.blocks ++ moved)) free := by
  obtain ⟨t, ht, packed⟩ := storeCodes_stored (es := [s.closing l r]) hr hb hc (by simp) hg hf
  have stored : s.storeCode i (s.closing l r) = (t, true) := by
    rcases hcode : s.storeCode i (s.closing l r) with ⟨u, b⟩
    cases b with
    | true =>
      rw [storeCodes_cons_stored hcode] at ht
      exact congrArg (·, true) (Prod.mk.inj ht).1
    | false =>
      rw [storeCodes_cons_lost hcode] at ht
      cases ht
  rw [closingShift_eq hr he, stored]
  refine ⟨_, rfl, ?_⟩
  split
  · next marked =>
    refine ⟨packed.record, packed.others, ?_, packed.free, packed.request, packed.notices, packed.rest⟩
    rw [Part.closingCells, if_pos marked]
    show t.mem.write _ _ = _
    rw [packed.mem]
    rfl
  · next unmarked =>
    refine ⟨packed.record, packed.others, ?_, packed.free, packed.request, packed.notices, packed.rest⟩
    rw [Part.closingCells, if_neg unmarked, packed.mem]
    rfl

theorem closingShift_lost {e : Encoder} {n : Nat} (he : e.plane ≠ .ltrs) (hc : r.count = 64 * r.blocks.length)
    (hn : s.givesNone r x) :
    s.closingShift i l e n = (s.fault l .overrun (s.outboundFields i n e.plane), .overrun) := by
  rw [closingShift_eq hr he, storeCode_of_none hr hb hc hn]

end

/-! ### The CLOSE taken -/

theorem intakeClose_eq (hr : s.record i = some r) (hb : r.body = .outbound x) (hl : r.line = some l)
    (hk : x.intake = some k) (n : Nat) : s.intakeClose i n = if n = k.expected then
      match s.closingShift i l { plane := k.plane, column := k.column } k.expected with
      | (t, .taken) => t.queueStory i l
      | (t, .refused) | (t, .overrun) => t.abortIntake i
    else s.abortIntake i := by
  rw [Part.intakeClose, hr]
  dsimp only
  rw [hb, hl]
  dsimp only
  rw [hk] <;> rfl

end

/-- A fault recorded before the intake aborts. -/
theorem aborted_of_fault {s : Part} {i : Slot} {l : LineNo} {r : Record} {x : OutRecord} (hr : s.record i = some r)
    (hb : r.body = .outbound x) (k : FaultKind) (f : FaultFields) : Aborted s ((s.fault l k f).abortIntake i) i r x :=
  (abortIntake_aborts (s := s.fault l k f) hr hb).1

theorem abortIntake_lines {s : Part} {i : Slot} {r : Record} {x : OutRecord} (hr : s.record i = some r)
    (hb : r.body = .outbound x) : (s.abortIntake i).lines = s.lines := (abortIntake_aborts hr hb).2

/-- `t` with the store, the lines, the port and the notices of `s`. -/
def Part.restored (t s : Part) : Part :=
  { t with
    records := s.records, free := s.free, lines := s.lines, port := s.port, notices := s.notices, mem := s.mem
    hearings := s.hearings }

/-- Settles O49. -/
theorem callCloseTaken : Obligations.CallCloseTaken := by
  unfold Obligations.CallCloseTaken
  intro f n b i r x l k s hh hf hst hread hslot hr hb hl hx hk waits
  obtain ⟨q, hq⟩ : ∃ q, q = s.toPart.heard := ⟨_, rfl⟩
  have hqr : q.record i = some r := by rw [hq]; exact hr
  have step : exec (.heardCloseCall f) s = .next { s with toPart := (q.intakeClose i n).serveBus } := by
    have slot : q.callSlot x.caller x.call = some i := by rw [hq]; exact hslot
    rw [exec_heardCloseCall hh hf, Part.callCloseHeard, hread, ← hq]
    dsimp only
    rw [Part.fromCaller, if_pos hst, slot]
  have waiting {u : Part} {r' : Record} {m : Memory} {rest free : List Nat}
      (packed : Packed q u i { r' with body := .outbound { x with reservation := rest } } m free)
      (hbusy : s.senderFree l = false) : waits (u.queueStory i l) r' := by
    have hux := packed.record
    have lines (m : LineNo) : u.line m = s.line m := by rw [Part.line, packed.lines, hq]; rfl
    have busy : u.senderFree l = false := by rw [senderFree_congr (t := u) (s := s.toPart) (lines l)]; exact hbusy
    rw [queueStory_of_busy hux rfl busy]
    obtain ⟨h1, h2⟩ := joins_record (l := l) hux rfl
    obtain ⟨h3, h4⟩ := joins_lines (l := l) hux rfl
    have h5 := joins_rest (l := l) hux rfl
    have h6 := packed.rest
    refine ⟨h1, ?_, fun j hj => ?_, fun m hm => ?_, ?_⟩
    · rw [h3, lines]
    · rw [h2 j hj, packed.others j hj, hq]; rfl
    · rw [h4 m hm, lines]
    · obtain ⟨v, hv⟩ : ∃ v, v = u.joins i l { r' with body := .outbound { x with reservation := rest } }
        { x with reservation := rest } := ⟨_, rfl⟩
      rw [← hv] at h5 ⊢
      have hvu : v.restored u = u := (congrArg (·.restored u) h5 :)
      have huq : u.restored q = q := (congrArg (·.restored q) h6 :)
      calc v.restored s.toPart
          = ((v.restored u).restored q).restored s.toPart := rfl
        _ = s.toPart := by rw [hvu, huq, hq]; rfl
  refine ⟨fun hn => ?_, fun hn hp => ?_, fun hn hp => ?_⟩
  · refine ⟨q.intakeClose i n, step, ?_⟩
    rw [intakeClose_eq hqr hb hl hk, if_neg hn, hq]
    exact abortIntake_aborts (s := s.toPart.heard) hr hb
  · have taken : q.intakeClose i n = q.queueStory i l := by
      rw [intakeClose_eq hqr hb hl hk, if_pos hn, closingShift_of_ltrs hp]
    obtain ⟨h1, h2⟩ := queueStory_keeps (l := l) hqr hb
    refine ⟨q.queueStory i l, by rw [step, taken], by rw [h1, hq]; rfl, by rw [h2, hq]; rfl, fun hbusy => ?_,
      fun hfree hqueue ha hidle hout hc hg => ?_⟩
    · have same : .outbound { x with reservation := x.reservation } = r.body := hb.symm
      have packed : Packed q q i { r with body := .outbound { x with reservation := x.reservation } } q.mem q.free := by
        rw [same]
        exact .refl hqr
      exact waiting packed hbusy
    · obtain ⟨u, hu⟩ : ∃ u, u = q.joins i l r x := ⟨_, rfl⟩
      have hul := (joins_lines (l := l) hqr hb).1
      rw [queueStory_of_free hqr hb (by rw [hq]; exact hfree) (by rw [hq]; exact hqueue) (by rw [hq]; exact ha)
        (by rw [hq]; exact hidle) (by rw [hq]; exact hout) hc (by rw [hq]; exact hg), ← hu, line_begins]
      rw [← hu] at hul
      refine ⟨record_setRecord_self _ _ _, ?_, ?_, ?_⟩
      · exact (congrArg (fun y : Line => y.sched.current) (line_updLine_self _ _ _) :)
      · exact (congrArg (fun y : Line => y.sched.position) (line_updLine_self _ _ _) :)
      · have now : u.now = q.now := by rw [hu]; exact (congrArg Part.now (joins_rest (l := l) hqr hb) :)
        have nows : u.now = s.now := now.trans (by rw [hq]; rfl)
        rw [hq]
        show some _ = some _
        rw [Part.begun, Part.begun, ← nows]
        rfl
  · intro last marked closing
    have plane : ({ plane := k.plane, column := k.column } : Encoder).plane ≠ .ltrs := hp
    refine ⟨fun moved rest free hgives hfits => ?_, fun hc hnone => ?_⟩
    · have fits : r.count ≤ 64 * r.blocks.length ∧ r.fits moved (r.count + 1) := by
        rcases hfits with ⟨h1, h2⟩ | ⟨h1, h2, h3⟩
        · exact ⟨Nat.le_of_lt h2, .inl ⟨h1, h2⟩⟩
        · exact ⟨Nat.le_of_eq h3, .inr ⟨h1, h2, by omega⟩⟩
      obtain ⟨u, hu, packed⟩ := closingShift_stored (l := l) (n := k.expected) hqr hb plane
        (by rw [hq]; exact hgives) fits.1 fits.2
      have taken : q.intakeClose i n = u.queueStory i l := by
        rw [intakeClose_eq hqr hb hl hk, if_pos hn, hu]
      obtain ⟨h1, h2⟩ := queueStory_keeps (l := l) packed.record rfl
      refine ⟨u.queueStory i l, by rw [step, taken], by rw [h1, packed.free], ?_, fun hbusy => waiting packed hbusy⟩
      rw [h2, packed.mem, hq]
      rfl
    · have taken : q.intakeClose i n = (q.fault l .overrun (q.outboundFields i k.expected k.plane)).abortIntake i := by
        rw [intakeClose_eq hqr hb hl hk, if_pos hn, closingShift_lost hqr hb plane hc (by rw [hq]; exact hnone)]
      refine ⟨_, by rw [step, taken], ?_, ?_⟩
      · rw [hq]
        exact aborted_of_fault (s := s.toPart.heard) hr hb _ _
      · have recorded : FaultRecorded q (q.fault l .overrun (q.outboundFields i k.expected k.plane)) l .overrun
            (q.outboundFields i k.expected k.plane) := faultRecorded_fault
        have kept := abortIntake_lines (s := q.fault l .overrun (q.outboundFields i k.expected k.plane)) hqr hb
        have all := recorded.congr (congrArg (fun ls => (ls.get l).sup.faults) kept :)
        rw [hq] at all ⊢
        exact all

end Sys2Proof.Machine
end

section
/-! The codes of an office character (02.5, R40 to R43). -/

namespace Sys2Proof.Machine

theorem mapLast_cons (f : OutEntry → OutEntry) (e : OutEntry) {es : List OutEntry} (h : es ≠ []) :
    mapLast f (e :: es) = e :: mapLast f es := by
  cases es with
  | nil => exact absurd rfl h
  | cons e' es => rfl

theorem mapLast_append (f : OutEntry → OutEntry) (init : List OutEntry) (last : OutEntry) :
    mapLast f (init ++ [last]) = init ++ [f last] := by
  induction init with
  | nil => rfl
  | cons e es ih =>
    rw [List.cons_append, mapLast_cons f e (by simp), ih, List.cons_append]

theorem length_mapLast (f : OutEntry → OutEntry) (es : List OutEntry) : (mapLast f es).length = es.length := by
  induction es with
  | nil => rfl
  | cons e es ih =>
    cases es with
    | nil => rfl
    | cons e' es =>
      rw [mapLast_cons f e (List.cons_ne_nil _ _), List.length_cons, ih]
      rfl

section
variable {m : MapTable} {cfg : LineSettings} {e : Encoder} {ch : Byte}

/-- A character with a code in the plane it is sent in (R40). -/
theorem encodeRaw_of_code {cur p : Plane} {code : Nat} (hc : codeIn m p ch = some code) (hp : chosenPlane m cur ch = some p) :
    encodeRaw m cur ch = ((if p = cur then [] else [{ code := shiftCode m p, plane := p, mark := false }]) ++
      [{ code := BitVec.ofNat 5 code, plane := p, mark := false }], p) := by
  rw [encodeRaw, hp]
  dsimp only
  rw [hc]
  split_ifs <;> rfl

theorem chosenPlane_of_held {cur : Plane} {code : Nat} (hc : codeIn m cur ch = some code)
    (hf : charClass m ch = .space ∨ charClass m ch = .format) : chosenPlane m cur ch = some cur := by
  rw [chosenPlane, if_pos ⟨hf, by rw [hc]; rfl⟩]

theorem chosenPlane_of_primary {cur : Plane}
    (h : ¬((charClass m ch = .space ∨ charClass m ch = .format) ∧ (codeIn m cur ch).isSome = true)) :
    chosenPlane m cur ch = primaryPlane m ch := by
  rw [chosenPlane, if_neg h]

theorem encodeChar_of_lineEnd : encodeChar m cfg e 10 =
    ((encodeLineEnd m cfg.guardShift e.plane).1,
      { plane := (encodeLineEnd m cfg.guardShift e.plane).2, column := 0 }) := by
  rw [encodeChar, if_pos (by decide)]

section
variable (hn : ch ≠ 10)
include hn

theorem encodeChar_of_word_fold (hs : charClass m ch = .space) (hc : cfg.width - cfg.fold ≤ e.column) :
    encodeChar m cfg e ch = encodeChar m cfg e 10 := by
  rw [encodeChar_of_lineEnd, encodeChar, if_neg hn, if_pos hs, if_pos hc]

theorem encodeChar_of_space (hs : charClass m ch = .space) (hc : e.column < cfg.width - cfg.fold) :
    encodeChar m cfg e ch = encodePlain m cfg.unshift e ch := by
  rw [encodeChar, if_neg hn, if_pos hs, if_neg (Nat.not_le.mpr hc)]

theorem encodeChar_of_hard_fold (hs : charClass m ch ≠ .space) (hc : e.column = cfg.width) :
    encodeChar m cfg e ch = ((encodeChar m cfg e 10).1 ++ (encodePlain m cfg.unshift (encodeChar m cfg e 10).2 ch).1,
      (encodePlain m cfg.unshift (encodeChar m cfg e 10).2 ch).2) := by
  rw [encodeChar_of_lineEnd, encodeChar, if_neg hn, if_neg hs, if_pos hc]

theorem encodeChar_of_other (hs : charClass m ch ≠ .space) (hc : e.column ≠ cfg.width) :
    encodeChar m cfg e ch = encodePlain m cfg.unshift e ch := by
  rw [encodeChar, if_neg hn, if_neg hs, if_neg hc]

end

theorem encodePlain_of_not_space {unshift : Bool} (hs : charClass m ch ≠ .space) : encodePlain m unshift e ch =
    ((encodeRaw m e.plane ch).1,
      { plane := (encodeRaw m e.plane ch).2
        column := if CharClass.advances (charClass m ch) then e.column + 1 else e.column }) := by
  rw [encodePlain]
  dsimp only
  rw [if_neg fun h => hs h.2]

theorem advances_iff (k : CharClass) : CharClass.advances k = true ↔
    k = .letter ∨ k = .figure ∨ k = .punct ∨ k = .space ∨ k = .national := by
  cases k <;> simp [CharClass.advances]

/-! ### No character takes more codes than a block holds -/

theorem length_encodeRaw (cur : Plane) : (encodeRaw m cur ch).1.length ≤ 2 := by
  unfold encodeRaw
  split
  · exact Nat.zero_le _
  · dsimp only
    split_ifs <;> simp

theorem length_encodeLineEnd (g : Bool) (cur : Plane) : (encodeLineEnd m g cur).1.length ≤ 5 := by
  have cr := length_encodeRaw (m := m) (ch := officeCR) cur
  have lf := length_encodeRaw (m := m) (ch := lineEnd) (encodeRaw m cur officeCR).2
  have guard (q : Plane) : (if g then [{ code := shiftCode m q, plane := q, mark := false }] else [] : List OutEntry).length ≤ 1 := by
    cases g <;> simp
  rw [encodeLineEnd]
  dsimp only
  rw [markLast, length_mapLast, List.length_append, List.length_append]
  have := guard (encodeRaw m (encodeRaw m cur officeCR).2 lineEnd).2
  omega

theorem length_encodePlain (u : Bool) : (encodePlain m u e ch).1.length ≤ 2 := by
  have raw := length_encodeRaw (m := m) (ch := ch) e.plane
  by_cases h : u = true ∧ charClass m ch = .space
  · rw [encodePlain]
    dsimp only
    rw [if_pos h, length_mapLast]
    exact raw
  · rw [encodePlain]
    dsimp only
    rw [if_neg h]
    exact raw

theorem length_encodeChar : (encodeChar m cfg e ch).1.length ≤ 64 := by
  have fold := length_encodeLineEnd (m := m) cfg.guardShift e.plane
  have plain (e : Encoder) := length_encodePlain (m := m) (ch := ch) (e := e) cfg.unshift
  unfold encodeChar
  dsimp only
  split_ifs
  · dsimp only; omega
  · dsimp only; omega
  · exact (plain e).trans (by decide)
  · rw [List.length_append]
    have := plain { plane := (encodeLineEnd m cfg.guardShift e.plane).2, column := 0 }
    omega
  · exact (plain e).trans (by decide)

end

/-- The codes of a character, by its class and the column (R40 to R43). -/
theorem charactersEncoded (m : MapTable) (cfg : LineSettings) (e : Encoder) (ch : Byte) :
    let cls := charClass m ch
    let floats := cls = .space ∨ cls = .format
    let wide := if cls = .letter ∨ cls = .figure ∨ cls = .punct ∨ cls = .space ∨ cls = .national then 1 else 0
    let raw := encodeRaw m e.plane ch
    let cr := encodeRaw m e.plane 13
    let lf := encodeRaw m cr.2 10
    let guarded : List OutEntry :=
      if cfg.guardShift then [{ code := shiftCode m lf.2, plane := lf.2, mark := false }] else []
    let lineEnd' := encodeChar m cfg e 10
    let folded := encodeRaw m lineEnd'.2.plane ch
    (∀ p code, codeIn m p ch = some code →
      (floats ∧ p = e.plane) ∨
        (primaryPlane m ch = some p ∧ ¬(floats ∧ (codeIn m e.plane ch).isSome = true)) →
      raw = ((if p = e.plane then [] else [{ code := shiftCode m p, plane := p, mark := false }]) ++
        [{ code := BitVec.ofNat 5 code, plane := p, mark := false }], p)) ∧
    (∀ init last, cr.1 ++ lf.1 ++ guarded = init ++ [last] →
      lineEnd' = (init ++ [{ last with mark := true }], { plane := lf.2, column := 0 })) ∧
    (ch ≠ 10 → cls = .space → cfg.width - cfg.fold ≤ e.column → encodeChar m cfg e ch = lineEnd') ∧
    (ch ≠ 10 → cls = .space → e.column < cfg.width - cfg.fold →
      (cfg.unshift = false →
        encodeChar m cfg e ch = (raw.1, { plane := raw.2, column := e.column + 1 })) ∧
      (∀ init last, cfg.unshift = true → raw.1 = init ++ [last] →
        encodeChar m cfg e ch =
          (init ++ [{ last with plane := .ltrs }], { plane := .ltrs, column := e.column + 1 }))) ∧
    (ch ≠ 10 → cls ≠ .space → e.column = cfg.width →
      encodeChar m cfg e ch = (lineEnd'.1 ++ folded.1, { plane := folded.2, column := wide })) ∧
    (ch ≠ 10 → cls ≠ .space → e.column ≠ cfg.width →
      encodeChar m cfg e ch = (raw.1, { plane := raw.2, column := e.column + wide })) := by
  intro cls floats wide raw cr lf guarded lineEnd' folded
  have column (n : Nat) : (if CharClass.advances cls then n + 1 else n) = n + wide := by
    have iff := advances_iff cls
    by_cases h : CharClass.advances cls = true
    · rw [if_pos h]
      exact congrArg (n + ·) (if_pos (iff.mp h)).symm
    · have none : wide = 0 := if_neg (mt iff.mpr h)
      rw [if_neg h, none, Nat.add_zero]
  refine ⟨fun p code hc hp => ?_, fun init last h => ?_, fun hn hs hc => ?_, fun hn hs hc => ⟨fun hu => ?_, fun init last hu h => ?_⟩,
    fun hn hs hc => ?_, fun hn hs hc => ?_⟩
  · refine encodeRaw_of_code hc ?_
    rcases hp with ⟨hf, rfl⟩ | ⟨hp, hf⟩
    · exact chosenPlane_of_held hc hf
    · rw [chosenPlane_of_primary hf, hp]
  · have sequence : encodeLineEnd m cfg.guardShift e.plane = (markLast (cr.1 ++ lf.1 ++ guarded), lf.2) := rfl
    show encodeChar m cfg e 10 = _
    rw [encodeChar_of_lineEnd, sequence, h, markLast, mapLast_append]
  · exact encodeChar_of_word_fold hn hs hc
  · have adv : CharClass.advances (charClass m ch) = true := by rw [show charClass m ch = .space from hs]; rfl
    rw [encodeChar_of_space hn hs hc, encodePlain]
    dsimp only
    rw [hu, if_neg fun h => Bool.false_ne_true h.1, if_pos adv]
  · have adv : CharClass.advances (charClass m ch) = true := by rw [show charClass m ch = .space from hs]; rfl
    rw [encodeChar_of_space hn hs hc, encodePlain]
    dsimp only
    rw [if_pos ⟨hu, hs⟩, if_pos adv, show (encodeRaw m e.plane ch).1 = init ++ [last] from h, mapLast_append]
  · rw [encodeChar_of_hard_fold hn hs hc, encodePlain_of_not_space hs]
    have start : (encodeChar m cfg e 10).2.column = 0 := by rw [encodeChar_of_lineEnd]
    dsimp only
    rw [column, start, Nat.zero_add]
  · rw [encodeChar_of_other hn hs hc, encodePlain_of_not_space hs, column]

end Sys2Proof.Machine
end

section
/-! A caller's TEXT (07.6): `Obligations.CallTextTaken`. -/

namespace Sys2Proof.Machine

section
variable {s t u : Part} {i : Slot} {l : LineNo} {r : Record} {x : OutRecord} {k : Intake}

/-- The record with the intake `k`. -/
def Record.taking (r : Record) (x : OutRecord) (k : Intake) : Record := { r with body := .outbound { x with intake := some k } }

/-! ### The TEXT judged (R146, R150) -/

section
variable (hr : s.record i = some r) (hb : r.body = .outbound x) (hl : r.line = some l) (hk : x.intake = some k)
include hr hb hl hk

theorem intakeText_eq (o : Nat) (cs : List Byte) : s.intakeText i o cs =
    if x.chars.getD 0 < o + cs.length ∨ k.expected < o then
      (s.setRecord i (some (r.taking x { k with since := s.now }))).abortIntake i
    else takeChars i l (cs.drop (k.expected - o)) (s.setRecord i (some (r.taking x { k with since := s.now }))) := by
  rw [Part.intakeText, hr]
  dsimp only
  rw [hb, hl]
  dsimp only
  rw [hk]
  dsimp only
  rw [updOut_eq hr hb, hk] <;> rfl

omit hr hb hl hk in
/-- The intake aborts after its silence timer has started again. -/
theorem aborts_taking (s : Part) (r : Record) (x : OutRecord) (k' : Intake) : Aborts s ((s.setRecord i (some (r.taking x k'))).abortIntake i) i r x := by
  obtain ⟨⟨h1, h2, h3, h4, h5⟩, h6⟩ := abortIntake_aborts (s := s.setRecord i (some (r.taking x k')))
    (r := r.taking x k') (record_setRecord_self _ _ _) rfl
  exact ⟨⟨h1, fun j hj => (h2 j hj).trans (record_setRecord_ne _ _ _ _ hj), h3, h4, h5⟩, h6⟩

omit hl in
theorem updOut_counted : (s.updOut i fun x => { x with
      intake := x.intake.map fun k => { k with expected := k.expected + 1 } }) =
    s.setRecord i (some (r.taking x { k with expected := k.expected + 1 })) := by
  rw [updOut_eq hr hb, hk]
  rfl

omit hl in
/-- CRs are taken and stored nowhere. -/
theorem takeChars_of_returns {cs : List Byte} (h : ∀ ch ∈ cs, ch = 13) : takeChars i l cs s =
    s.setRecord i (some (r.taking x { k with expected := k.expected + cs.length })) := by
  induction cs generalizing s r x k with
  | nil =>
    have same : r.taking x { k with expected := k.expected + ([] : List Byte).length } = r := by
      have hx : { x with intake := some k } = x := by rw [← hk]
      show { r with body := .outbound { x with intake := some k } } = r
      rw [hx, ← hb]
    rw [same, takeChars, setRecord_self hr]
  | cons c cs ih =>
    have intake : (s.outRecord i).bind OutRecord.intake = some k := by rw [outRecord_eq hr hb]; exact hk
    have cr : c = officeCR := h c (by simp)
    have taken : s.takeChar i l { plane := k.plane, column := k.column } k.expected c = (s, .taken) := by
      rw [Part.takeChar, if_pos cr]
    rw [takeChars, intake]
    dsimp only
    rw [taken]
    dsimp only
    rw [updOut_counted hr hb hk, ih (r := r.taking x { k with expected := k.expected + 1 }) (x := { x with
      intake := some { k with expected := k.expected + 1 } }) (k := { k with expected := k.expected + 1 })
      (record_setRecord_self _ _ _) rfl rfl (fun ch hch => h ch (by simp [hch])), setRecord_setRecord]
    rw [List.length_cons, Nat.add_comm cs.length 1, ← Nat.add_assoc]
    rfl

end

/-! ### One character (R39, R44) -/

/-- What becomes of the intake by the answer to a character. -/
def Part.answered (p : Part × EncodeResult) (i : Slot) : Part :=
  match p with
  | (t, .taken) => t.updOut i fun x => { x with intake := x.intake.map fun k => { k with expected := k.expected + 1 } }
  | (t, .refused) | (t, .overrun) => t.abortIntake i

section
variable (hr : s.record i = some r) (hb : r.body = .outbound x) (hk : x.intake = some k)
include hr hb hk

theorem takeChars_single (c : Byte) : takeChars i l [c] s =
    Part.answered (s.takeChar i l { plane := k.plane, column := k.column } k.expected c) i := by
  have intake : (s.outRecord i).bind OutRecord.intake = some k := by rw [outRecord_eq hr hb]; exact hk
  rw [takeChars, intake]
  dsimp only
  rcases s.takeChar i l { plane := k.plane, column := k.column } k.expected c with ⟨t, res⟩
  cases res <;> rfl

theorem putEncoder_eq (e : Encoder) : s.putEncoder i e =
    s.setRecord i (some (r.taking x { k with plane := e.plane, column := e.column })) := by
  rw [Part.putEncoder, updOut_eq hr hb, hk]
  rfl

theorem answered_taken : Part.answered (s, .taken) i =
    s.setRecord i (some (r.taking x { k with expected := k.expected + 1 })) := updOut_counted hr hb hk

end

theorem answered_aborted (res : EncodeResult) (h : res ≠ .taken) : Part.answered (s, res) i = s.abortIntake i := by
  cases res with
  | taken => exact absurd rfl h
  | refused => rfl
  | overrun => rfl

/-- `t` is `s` but for what the store and the notices hold, and for faults of line `l`. -/
def FaultsAlone (s t : Part) (l : LineNo) : Prop :=
  (∀ m, m ≠ l → t.line m = s.line m) ∧
    { t.line l with sup := { (t.line l).sup with faults := (s.line l).sup.faults } } = s.line l

theorem FaultsAlone.of_lines (h : t.lines = s.lines) : FaultsAlone s t l := by
  have line (m : LineNo) : t.line m = s.line m := by rw [Part.line, h]; rfl
  refine ⟨fun m _ => line m, ?_⟩
  rw [line]

theorem FaultsAlone.fault (h : FaultsAlone s t l) (k : FaultKind) (f : FaultFields) : FaultsAlone s (t.fault l k f) l := by
  obtain ⟨h1, h2⟩ := h
  refine ⟨fun m hm => (line_fault_ne hm).trans (h1 m hm), ?_⟩
  rw [← h2, fault_updSup, Part.updSup, line_updLine_self]

theorem FaultsAlone.congr (h : FaultsAlone s t l) (hu : u.lines = t.lines) : FaultsAlone s u l := by
  have line (m : LineNo) : u.line m = t.line m := by rw [Part.line, hu]; rfl
  refine ⟨fun m hm => (line m).trans (h.1 m hm), ?_⟩
  rw [line]
  exact h.2

theorem FaultRecorded.fault_ne {j j' : FaultKind} {f g : FaultFields} (h : FaultRecorded s t l j f) (hne : j.idx ≠ j'.idx) :
    FaultRecorded s (t.fault l j' g) l j f := by
  rw [FaultRecorded, faults_fault_ne hne]
  exact h

theorem FaultRecorded.of_lines {j : FaultKind} {f : FaultFields} (h : FaultRecorded s t l j f) (hu : u.lines = t.lines) :
    FaultRecorded s u l j f := h.congr (by rw [Part.line, hu]; rfl)

/-! ### A character encoded and stored (R40 to R44) -/

/-- What the encoder answers to character `c`, and what the intake does with it. -/
def Part.encoded (s : Part) (i : Slot) (l : LineNo) (k : Intake) (c : Byte) : Part :=
  Part.answered (s.encodeInto i l { plane := k.plane, column := k.column } k.expected c) i

/-- The codes of character `c` and the encoder behind it. -/
def Part.codesOf (s : Part) (l : LineNo) (k : Intake) (c : Byte) : List OutEntry × Encoder :=
  encodeChar (s.map l) (s.cfg l) { plane := k.plane, column := k.column } c

theorem encodeInto_of_stored {c : Byte} (h : storeCodes i (s.codesOf l k c).1 s = (t, true)) :
    s.encodeInto i l { plane := k.plane, column := k.column } k.expected c =
      (t.putEncoder i (s.codesOf l k c).2, .taken) := by
  rw [Part.encodeInto]
  dsimp only
  rw [show encodeChar (s.map l) (s.cfg l) _ c = s.codesOf l k c from rfl, h]

theorem encodeInto_of_lost {c : Byte} (h : storeCodes i (s.codesOf l k c).1 s = (t, false)) :
    s.encodeInto i l { plane := k.plane, column := k.column } k.expected c =
      (t.fault l .overrun (s.outboundFields i k.expected k.plane), .overrun) := by
  rw [Part.encodeInto]
  dsimp only
  rw [show encodeChar (s.map l) (s.cfg l) _ c = s.codesOf l k c from rfl, h]

theorem storeCodes_lines (es : List OutEntry) : (storeCodes i es s).1.lines = s.lines :=
  (storeCodes_act (K := (· ∈ [.mem, .record, .store, .list, .notices])) (by decide) (by decide) (by decide) (by decide)
    (by decide) i es .refl).lines_eq (by decide) (by decide) (by decide) (by decide) (by decide)

theorem answered_lines (p : Part × EncodeResult) : (Part.answered p i).lines = p.1.lines := by
  have act : Act (· ∈ [.record, .list]) p.1 (Part.answered p i) := by
    rcases p with ⟨t, res⟩
    cases res with
    | taken => exact updOut_act (by decide) _ (fun _ => rfl) .refl
    | refused => exact .trans .refl (requestCall_act (by decide) i _ (updOut_act (by decide) _ (fun _ => rfl) .refl))
    | overrun => exact .trans .refl (requestCall_act (by decide) i _ (updOut_act (by decide) _ (fun _ => rfl) .refl))
  exact act.lines_eq (by decide) (by decide) (by decide) (by decide) (by decide)

theorem fault_lines_congr (h : t.lines = s.lines) (j : FaultKind) (f : FaultFields) :
    (t.fault l j f).lines = (s.fault l j f).lines := by
  simp only [Part.fault, Part.updSup, Part.updLine, Part.line, h]

/-- A character encoded changes no line, or records OVERRUN. -/
theorem encoded_lines (k : Intake) (c : Byte) : (s.encoded i l k c).lines = s.lines ∨
    (s.encoded i l k c).lines = (s.fault l .overrun (s.outboundFields i k.expected k.plane)).lines := by
  have kept := storeCodes_lines (s := s) (i := i) (s.codesOf l k c).1
  rw [Part.encoded, answered_lines]
  rcases hs : storeCodes i (s.codesOf l k c).1 s with ⟨t, stored⟩
  rw [hs] at kept
  cases stored with
  | true =>
    rw [encodeInto_of_stored hs]
    have act : Act (· ∈ [.record]) t (t.putEncoder i (s.codesOf l k c).2) := updOut_act (by decide) _ (fun _ => rfl) .refl
    exact .inl ((act.lines_eq (by decide) (by decide) (by decide) (by decide) (by decide)).trans kept)
  | false =>
    rw [encodeInto_of_lost hs]
    exact .inr (fault_lines_congr kept _ _)

theorem encoded_faultsAlone (k : Intake) (c : Byte) (h : FaultsAlone u s l) : FaultsAlone u (s.encoded i l k c) l :=
  (encoded_lines k c).elim h.congr (h.fault _ _).congr

theorem encoded_faultRecorded {j : FaultKind} {f : FaultFields} (k : Intake) (c : Byte) (h : FaultRecorded u s l j f)
    (hj : j.idx ≠ FaultKind.overrun.idx) : FaultRecorded u (s.encoded i l k c) l j f :=
  (encoded_lines k c).elim h.of_lines (h.fault_ne hj).of_lines

theorem Packed.setRecord {m : Memory} {fr : List Nat} (h : Packed s t i r m fr) (r' : Record) :
    Packed s (t.setRecord i (some r')) i r' m fr :=
  ⟨record_setRecord_self _ _ _, fun j hj => (record_setRecord_ne _ _ _ _ hj).trans (h.others j hj), h.mem, h.free,
    h.request, h.notices, h.rest⟩

section
variable (hr : s.record i = some r) (hb : r.body = .outbound x)
  (hc : r.count ≤ 64 * r.blocks.length) (c : Byte)
include hr hb hc

/-- Where its codes fit, a character is stored and the intake stands behind it. -/
theorem encoded_stored (hk : x.intake = some k) {moved rest free : List Nat} (hg : s.gives x moved rest free)
    (hf : r.fits moved (r.count + (s.codesOf l k c).1.length)) :
    Packed s (s.encoded i l k c) i { r with
        count := r.count + (s.codesOf l k c).1.length, blocks := r.blocks ++ moved
        body := .outbound { x with
          reservation := rest
          intake := some { k with
            expected := k.expected + 1, plane := (s.codesOf l k c).2.plane, column := (s.codesOf l k c).2.column } } }
      (s.mem.store (r.blocks ++ moved) r.count ((s.codesOf l k c).1.map OutEntry.pack)) free := by
  obtain ⟨t, ht, packed⟩ := storeCodes_stored (es := (s.codesOf l k c).1) hr hb hc length_encodeChar hg hf
  rw [Part.encoded, encodeInto_of_stored ht, putEncoder_eq packed.record rfl hk,
    answered_taken (record_setRecord_self _ _ _) rfl rfl, setRecord_setRecord]
  exact packed.setRecord _

/-- Where no block can be had, the codes that fit are stored and the intake aborts. -/
theorem encoded_overrun (hover : 64 * r.blocks.length < r.count + (s.codesOf l k c).1.length) (hn : s.givesNone r x) :
    let t := s.encoded i l k c
    FaultRecorded s t l .overrun (s.outboundFields i k.expected k.plane) ∧
    t.record i = some { r with
      count := 64 * r.blocks.length
      body := .outbound { x with state := .aborting, chars := none, claim := none, intake := none } } ∧
    t.mem = s.mem.store r.blocks r.count
      (((s.codesOf l k c).1.take (64 * r.blocks.length - r.count)).map OutEntry.pack) ∧
    t.free = s.free ∧ (∀ j, j ≠ i → t.record j = s.record j) ∧
    (s.hasRequest (.record i) = false → t.requestOf (.record i) =
      some { owner := .record i, cls := r.priority, kind := .withdraw, key := x.call }) := by
  intro t
  obtain ⟨u, hu, packed⟩ := storeCodes_overrun (es := (s.codesOf l k c).1) hr hb hc hover hn
  have ht : t = (u.fault l .overrun (s.outboundFields i k.expected k.plane)).abortIntake i := by
    show s.encoded i l k c = _
    rw [Part.encoded, encodeInto_of_lost hu]
    rfl
  obtain ⟨⟨h1, h2, h3, h4, h5⟩, h6⟩ := abortIntake_aborts
    (s := u.fault l .overrun (s.outboundFields i k.expected k.plane)) packed.record hb
  rw [← ht] at h1 h2 h3 h4 h5 h6
  refine ⟨?_, h1, h4.trans packed.mem, h3.trans packed.free, fun j hj => (h2 j hj).trans (packed.others j hj), fun hq => ?_⟩
  · have recorded : FaultRecorded s (s.fault l .overrun (s.outboundFields i k.expected k.plane)) l .overrun
        (s.outboundFields i k.expected k.plane) := faultRecorded_fault
    exact recorded.of_lines (h6.trans (fault_lines_congr packed.lines _ _))
  · exact h5 (packed.lift_hasRequest.trans hq)

end

end

/-! ### The character judged (R39) -/

section
variable {s : Part} {i : Slot} {l : LineNo} {k : Intake} {ch : Byte} (hch : ch ≠ 13)
include hch

/-- The character the encoder takes, and the fault told first where it is not the caller's own. -/
theorem takeChar_eq : s.takeChar i l { plane := k.plane, column := k.column } k.expected ch =
    let t := s.fault l .admission (s.outboundFields i k.expected k.plane)
    match admissionOf s.settings.admission (s.cfg l).profile true (charClass (s.map l) ch) with
    | .pass => if charClass (s.map l) ch = .unassigned then
        t.encodeInto i l { plane := k.plane, column := k.column } k.expected (s.map l).subst
      else s.encodeInto i l { plane := k.plane, column := k.column } k.expected ch
    | .substitute => t.encodeInto i l { plane := k.plane, column := k.column } k.expected (s.map l).subst
    | .drop => (t, .taken)
    | .refuse => (t, .refused) := by
  rw [Part.takeChar, if_neg hch] <;> rfl

end

end Sys2Proof.Machine
end

section
/-! `Obligations.CallTextTaken`, by what the encoder makes of a character. -/

namespace Sys2Proof.Machine

section
variable {s t u v : Part} {i : Slot} {l : LineNo} {r : Record} {x : OutRecord} {k : Intake} {c ch : Byte}

theorem FaultRecorded.of_base {j : FaultKind} {f : FaultFields} (h : FaultRecorded u t l j f) (hu : u.lines = s.lines) :
    FaultRecorded s t l j f := by
  rw [FaultRecorded, Part.line, Part.line, ← hu]
  exact h

theorem FaultsAlone.of_base (h : FaultsAlone u t l) (hu : u.lines = s.lines) : FaultsAlone s t l := by
  rw [FaultsAlone] at h ⊢
  simp only [Part.line, ← hu] at h ⊢
  exact h

/-- `v` is `u` but for its lines. -/
def SaveLines (u v : Part) : Prop := { v with lines := u.lines } = u

/-- The fault of a character that the encoder does not take as it is. -/
def Part.told (s : Part) (i : Slot) (l : LineNo) (k : Intake) : Part :=
  s.fault l .admission (s.outboundFields i k.expected k.plane)

theorem saveLines_told : SaveLines u (u.told i l k) := rfl

/-- What an intake does at a character other than CR, by its admission (R39). -/
theorem character_judged (hch : ch ≠ 13) (action : Admission)
    (ha : action = admissionOf s.settings.admission (s.cfg l).profile true (charClass (s.map l) ch))
    (ht : t = Part.answered (s.takeChar i l { plane := k.plane, column := k.column } k.expected ch) i) :
    ((action = .pass ∧ charClass (s.map l) ch ≠ .unassigned) ∧ t = s.encoded i l k ch) ∨
    (¬(action = .pass ∧ charClass (s.map l) ch ≠ .unassigned) ∧
      (((action = .substitute ∨ (action = .pass ∧ charClass (s.map l) ch = .unassigned)) ∧
          t = (s.told i l k).encoded i l k (s.map l).subst) ∨
        (action = .drop ∧ t = Part.answered (s.told i l k, .taken) i) ∨
        (action = .refuse ∧ t = Part.answered (s.told i l k, .refused) i))) := by
  rw [takeChar_eq hch, ← ha] at ht
  cases action with
  | pass =>
    dsimp only at ht
    split_ifs at ht with hu
    · exact .inr ⟨fun h => h.2 hu, .inl ⟨.inr ⟨rfl, hu⟩, ht⟩⟩
    · exact .inl ⟨⟨rfl, hu⟩, ht⟩
  | substitute => exact .inr ⟨fun h => (nomatch h.1), .inl ⟨.inl rfl, ht⟩⟩
  | drop => exact .inr ⟨fun h => (nomatch h.1), .inr (.inl ⟨rfl, ht⟩)⟩
  | refuse => exact .inr ⟨fun h => (nomatch h.1), .inr (.inr ⟨rfl, ht⟩)⟩

end

/-- Settles O48: the codes of a character, then the TEXT by what it carries. -/
theorem callTextTaken : Obligations.CallTextTaken := by
  unfold Obligations.CallTextTaken
  refine ⟨charactersEncoded, ?_⟩
  intro f o n cs i r x l k s hh hf hread hslot hr hb hl hx hk hn taken
  obtain ⟨q, hq⟩ : ∃ q, q = s.toPart.heard := ⟨_, rfl⟩
  have hqr : q.record i = some r := by rw [hq]; exact hr
  have step (g : Heard) (o : Nat) (cs : List Byte) (hg : fromStation g = true) (hst : g.station.toNat = x.caller)
      (hread : readText g = some (.call x.caller x.call, o, cs)) :
      exec (.heardTextCall g) s = .next { s with toPart := (q.intakeText i o cs).serveBus } := by
    have slot : q.callSlot x.caller x.call = some i := by rw [hq]; exact hslot
    rw [exec_heardTextCall hh hg, Part.callTextHeard, hread, ← hq]
    dsimp only
    rw [Part.fromCaller, if_pos hst, slot]
  have now : q.now = s.now := by rw [hq]; rfl
  have start : q.setRecord i (some (r.taking x { k with since := q.now })) = taken { k with since := s.now } := by
    rw [now, hq]; rfl
  have text (o : Nat) (cs : List Byte) := intakeText_eq hqr hb hl hk o cs
  simp only [hn, Option.getD_some, start] at text
  refine ⟨fun hst => ?_, fun hst => ⟨fun hout => ?_, fun h1 h2 => ?_, fun g h1 h2 h3 hgs hgr => ?_, fun h1 h2 hcr => ?_,
    fun ch h1 h2 hcs hch hc => ?_⟩⟩
  · rw [exec_heardTextCall hh hf, Part.callTextHeard, hread]
    dsimp only
    rw [Part.fromCaller, if_neg hst]
  · refine ⟨_, step f o cs hf hst hread, ?_⟩
    rw [text, if_pos hout]
    exact aborts_taking (s := s.toPart.heard) r x _
  · rw [step f o cs hf hst hread, text, if_neg (by omega), List.drop_eq_nil_of_le (by omega)]
    rfl
  · have hg : fromStation g = true := by rw [fromStation, hgs]; exact hf
    rw [step f o cs hf hst hread, step g _ _ hg (by rw [hgs]; exact hst) hgr, text, text, if_neg (by omega), if_neg, Nat.sub_self,
      List.drop_zero]
    rw [List.length_drop]
    omega
  · rw [step f o cs hf hst hread, text, if_neg (by omega), h2, Nat.sub_self, List.drop_zero]
    have record : (taken { k with since := s.now }).record i = some (r.taking x { k with since := s.now }) :=
      record_setRecord_self _ _ _
    rw [takeChars_of_returns record rfl rfl hcr]
    exact congrArg (fun t : Part => Host.Outcome.next ({ s with toPart := t.serveBus } : State))
      (setRecord_setRecord _ _ _ _)
  · intro cls action encodes substitutes fields
    obtain ⟨u, hu⟩ : ∃ u, u = taken { k with since := s.now } := ⟨_, rfl⟩
    obtain ⟨k', hk'⟩ : ∃ k', k' = { k with since := s.now } := ⟨_, rfl⟩
    have record : u.record i = some (r.taking x k') := by rw [hu, hk']; exact record_setRecord_self _ _ _
    obtain ⟨t, ht⟩ : ∃ t, t = Part.answered
      (u.takeChar i l { plane := k'.plane, column := k'.column } k'.expected ch) i := ⟨_, rfl⟩
    have umap : u.map l = s.map l := by rw [hu]; rfl
    have judged := character_judged hch action (by rw [hu]; rfl) ht
    rw [umap] at judged
    have ulines : u.lines = s.lines := by rw [hu]; rfl
    have fields_eq (v : Part) (hv : SaveLines u v) : v.outboundFields i k'.expected k'.plane = fields := by
      rw [hu] at hv
      rw [hk']
      exact (congrArg (fun t : Part => t.outboundFields i k.expected k.plane) hv :)
    have told : FaultRecorded s.toPart (u.told i l k') l .admission fields := by
      rw [← fields_eq u rfl]
      exact FaultRecorded.of_base (u := u) faultRecorded_fault ulines
    have alone : FaultsAlone s.toPart u l := .of_lines ulines
    have lines : FaultsAlone s.toPart t l := by
      rcases judged with ⟨-, e⟩ | ⟨-, ⟨-, e⟩ | ⟨-, e⟩ | ⟨-, e⟩⟩
      · rw [e]; exact encoded_faultsAlone k' ch alone
      · rw [e]; exact encoded_faultsAlone k' _ (alone.fault _ _)
      · rw [e]; exact (alone.fault _ _).congr (answered_lines _)
      · rw [e]; exact (alone.fault _ _).congr (answered_lines _)
    have toldRecord : (u.told i l k').record i = some (r.taking x k') := record
    refine ⟨t, ?_, fun he => ?_, lines.1, lines.2, fun ha => ?_, fun ha => ?_, fun c hcase => ?_⟩
    · rw [step f o cs hf hst hread, text, if_neg (by rw [hcs, List.length_singleton]; omega), h2, Nat.sub_self,
        List.drop_zero, hcs, ht, ← hu, takeChars_single record rfl rfl]
    · rcases judged with ⟨h, -⟩ | ⟨-, ⟨-, e⟩ | ⟨-, e⟩ | ⟨-, e⟩⟩
      · exact absurd h he
      · rw [e]; exact encoded_faultRecorded k' _ told (by decide)
      · rw [e]; exact told.of_lines (answered_lines _)
      · rw [e]; exact told.of_lines (answered_lines _)
    · rcases judged with ⟨h, -⟩ | ⟨-, ⟨h, -⟩ | ⟨-, e⟩ | ⟨h, -⟩⟩
      · exact (nomatch ha.symm.trans h.1)
      · rcases h with h | h
        · exact (nomatch ha.symm.trans h)
        · exact (nomatch ha.symm.trans h.1)
      · rw [answered_taken toldRecord rfl rfl] at e
        refine ⟨?_, fun j hj => ?_, ?_⟩
        · rw [e, record_setRecord_self, hk']; rfl
        · rw [e, record_setRecord_ne _ _ _ _ hj, hu]
          exact record_setRecord_ne s.toPart.heard i _ _ hj
        · rw [e, hu]; rfl
      · exact (nomatch ha.symm.trans h)
    · rcases judged with ⟨h, -⟩ | ⟨-, ⟨h, -⟩ | ⟨h, -⟩ | ⟨-, e⟩⟩
      · exact (nomatch ha.symm.trans h.1)
      · rcases h with h | h
        · exact (nomatch ha.symm.trans h)
        · exact (nomatch ha.symm.trans h.1)
      · exact (nomatch ha.symm.trans h)
      · rw [answered_aborted _ (by decide)] at e
        obtain ⟨⟨h1, h2, h3, h4, h5⟩, -⟩ := abortIntake_aborts (s := u.told i l k') toldRecord rfl
        rw [← e] at h1 h2 h3 h4 h5
        refine ⟨h1, fun j hj => (h2 j hj).trans ?_, h3.trans ?_, h4.trans ?_, fun hreq => h5 ?_⟩
        · rw [hu]; exact record_setRecord_ne s.toPart.heard i _ _ hj
        · rw [hu]; rfl
        · rw [hu]; rfl
        · rw [hu]; exact hreq
    · have begun : ∃ v, SaveLines u v ∧ t = v.encoded i l k' c ∧ (encodes → v = u) ∧
          (v.line l).sup.faults.get FaultKind.overrun.idx = (s.line l).sup.faults.get FaultKind.overrun.idx := by
        have faults : (u.line l).sup.faults.get FaultKind.overrun.idx = (s.line l).sup.faults.get FaultKind.overrun.idx := by
          rw [Part.line, ulines]; rfl
        rcases hcase with ⟨h, rfl⟩ | ⟨h, rfl⟩
        · rcases judged with ⟨-, e⟩ | ⟨h', -⟩
          · exact ⟨u, rfl, e, fun _ => rfl, faults⟩
          · exact absurd h h'
        · rcases judged with ⟨h', -⟩ | ⟨h', ⟨-, e⟩ | ⟨h'', -⟩ | ⟨h'', -⟩⟩
          · rcases h with h | h
            · exact (nomatch h.symm.trans h'.1)
            · exact absurd h.2 h'.2
          · exact ⟨u.told i l k', rfl, e, fun h => absurd h h', (faults_fault_ne (by decide)).trans faults⟩
          · rcases h with h | h
            · exact (nomatch h''.symm.trans h)
            · exact (nomatch h''.symm.trans h.1)
          · rcases h with h | h
            · exact (nomatch h''.symm.trans h)
            · exact (nomatch h''.symm.trans h.1)
      obtain ⟨v, hv, hvt, hplain, hfaults⟩ := begun
      have vrecord : v.record i = some (r.taking x k') := (congrArg (fun t : Part => t.record i) hv :).trans record
      have codes : v.codesOf l k' c = encodeChar (s.map l) (s.cfg l) { plane := k.plane, column := k.column } c := by
        rw [hu] at hv
        rw [hk']
        exact (congrArg (fun t : Part => t.codesOf l { k with since := s.now } c) hv :)
      have free : v.free = s.free := (congrArg Part.free hv :).trans (by rw [hu]; rfl)
      have mem : v.mem = s.mem := (congrArg Part.mem hv :).trans (by rw [hu]; rfl)
      have recent : v.recent = s.recent := (congrArg Part.recent hv :).trans (by rw [hu]; rfl)
      have others (j : Slot) (hj : j ≠ i) : v.record j = s.record j :=
        (congrArg (fun t : Part => t.record j) hv :).trans (by rw [hu]; exact record_setRecord_ne s.toPart.heard i _ _ hj)
      intro enc count
      refine ⟨fun moved rest fr hg hf => ?_, fun hover hnone => ?_⟩
      · have gives : v.gives { x with intake := some k' } moved rest fr := by rw [Part.gives, free]; exact hg
        have packed := encoded_stored (l := l) vrecord rfl hc c rfl gives (by rw [codes]; exact hf)
        rw [← hvt, codes, mem, hk'] at packed
        refine ⟨packed.record, packed.mem, packed.free, fun he => ?_, fun j hj => (packed.others j hj).trans (others j hj),
          fun hfr => ?_, ?_⟩
        · rw [Part.line, packed.lines, hplain he, ulines]; rfl
        · refine (packed.notices_eq (free.trans hfr)).trans ((congrArg Part.notices hv :).trans ?_)
          rw [hu]; rfl
        · have htv : t.restored v = v := (congrArg (·.restored v) packed.rest :)
          have hvu : v.restored u = u := (congrArg (·.restored u) hv :)
          calc t.restored s.toPart
              = ((t.restored v).restored u).restored s.toPart := rfl
            _ = s.toPart := by rw [htv, hvu, hu]; rfl
      · have none : v.givesNone (r.taking x k') { x with intake := some k' } := by
          rw [Part.givesNone, free, recent]; exact hnone
        obtain ⟨h1, h2, h3, h4, h5, h6⟩ := encoded_overrun (l := l) (k := k') vrecord rfl hc c (by rw [codes]; exact hover) none
        rw [← hvt] at h1 h2 h3 h4 h5 h6
        rw [fields_eq v hv] at h1
        rw [codes, mem] at h3
        refine ⟨?_, h2, h3, h4.trans free, fun j hj => (h5 j hj).trans (others j hj), fun hreq => h6 ?_⟩
        · rw [FaultRecorded, hfaults] at h1
          exact h1
        · have same : v.hasRequest (.record i) = u.hasRequest (.record i) :=
            (congrArg (fun t : Part => t.hasRequest (.record i)) hv :)
          rw [same, hu]
          exact hreq

end Sys2Proof.Machine
end

section
/-! An own frame sent (09.2, R179): what the port is left with, and what its owner and the others do then. -/

namespace Sys2Proof.Machine

/-! ### The port (R175, R185) -/

/-- The port of `t` stands as that of `s`, its send list apart; a frame that is not under way is not begun. -/
structure PortKept (s t : Part) : Prop where
  state : t.port.state = s.port.state
  spoils : t.port.spoilCount = s.port.spoilCount
  own : s.port.own = none → t.port.own = none
  sticky : ∀ o, s.port.sticky ≠ some o → t.port.sticky ≠ some o

section
variable {K : Kind → Prop} {s t u : Part}

theorem PortKept.of_eq (h : t.port = s.port) : PortKept s t := by
  refine ⟨?_, ?_, ?_, ?_⟩ <;> rw [h]
  · exact id
  · exact fun _ => id

theorem PortKept.trans (h : PortKept s t) (g : PortKept t u) : PortKept s u :=
  ⟨g.state.trans h.state, g.spoils.trans h.spoils, fun e => g.own (h.own e), fun o e => g.sticky o (h.sticky o e)⟩

theorem portKept_addRequest (s : Part) (r : Request) : PortKept s (s.addRequest r) := by
  rw [addRequest_eq]
  exact ⟨rfl, rfl, id, fun _ => id⟩

theorem sticky_dropped {p : Option Owner} {o o' : Owner} (h : p ≠ some o') : (if p = some o then none else p) ≠ some o' := by
  split
  · exact fun e => (nomatch e)
  · exact h

/-- Whatever owners do, short of an event of the port. -/
theorem PortKept.of_act (h : Act K s t) (hk : ¬K .port) : PortKept s t := by
  have same {s t u : Part} (ih : PortKept s t) (e : u.port = t.port) : PortKept s u := ih.trans (.of_eq e)
  induction h with
  | refl => exact .of_eq rfl
  | add r _ _ ih => exact ih.trans (portKept_addRequest _ r)
  | remove o _ _ ih =>
    exact ih.trans ⟨rfl, rfl, fun e => by rw [Part.removeRequest]; dsimp only; rw [e]; rfl, fun _ => sticky_dropped⟩
  | drop o _ _ ih => exact ih.trans ⟨rfl, rfl, id, fun _ => sticky_dropped⟩
  | port f _ k => exact absurd k hk
  | unit l f _ _ ih => exact same ih rfl
  | plane l p _ _ ih => exact same ih rfl
  | recog l f _ _ ih => exact same ih rfl
  | sched l f _ _ ih => exact same ih rfl
  | sup l f _ _ _ ih => exact same ih rfl
  | record i f _ _ _ ih => exact same ih rfl
  | alloc i r _ _ _ _ _ ih => exact same ih rfl
  | release i r _ _ _ ih => exact same ih rfl
  | recent is _ _ ih => exact same ih rfl
  | take i b rest _ _ _ _ ih => exact same ih rfl
  | reserve i b _ _ _ ih => exact same ih rfl
  | assign i r b rest _ _ _ _ ih => exact same ih rfl
  | surplus i x _ _ _ ih => exact same ih rfl
  | write a b _ _ ih => exact same ih rfl
  | register es _ _ _ ih => exact same ih rfl
  | trackers ts _ _ _ ih => exact same ih rfl
  | groups g b _ _ ih => exact same ih rfl
  | notices n _ _ _ ih => exact same ih rfl
  | period x _ _ ih => exact same ih rfl
  | hearing _ _ ih => exact same ih rfl
  | rx l b _ _ ih => exact same ih rfl

end

/-! ### What owners do (R179, R186) -/

/-- The kinds of change that owners make. -/
def ownerKinds : List Kind :=
  [.unit, .recog, .sched, .sup, .list, .record, .store, .mem, .register, .trackers, .groups, .notices]

theorem assembles_ownerKinds : Assembles (· ∈ ownerKinds) :=
  ⟨by decide, by decide, by decide, by decide, by decide, by decide, by decide⟩

theorem sends_ownerKinds : Sends (· ∈ ownerKinds) :=
  ⟨by decide, by decide, by decide, by decide, by decide, by decide, by decide, by decide⟩

/-- What the owners do with a frame that the station itself sent. -/
def Part.spoken (s : Part) (f : Frame) : Part :=
  match f.kind with
  | .offer => s.offerHeard f.body
  | .claim => s.claimHeard f.body
  | .text => s.storyTextHeard f.body
  | .close => if aboutCall f.body then s.callCloseHeard f.body else s.storyCloseHeard f.body
  | .withdraw => if aboutCall f.body then s.callWithdrawHeard f.body else s.storyWithdrawHeard f.body
  | .call | .order | .notice => s

section
variable {s : Part} {f : Frame} {i : Slot}

theorem ownHeard_eq : s.ownHeard f = if s.loader = .running ∧ fromStation f.body = true then s.heard.spoken f else s.heard := by
  rfl

theorem spoken_act : Act (· ∈ ownerKinds) s (s.spoken f) := by
  unfold Part.spoken
  split
  · unfold Part.offerHeard
    split
    · next o e => exact hearOffer_act assembles_ownerKinds (by decide) _ (readOffer_serial e) .refl
    · exact .refl
  · unfold Part.claimHeard
    split
    · exact hearClaim_act sends_ownerKinds _ _ _ .refl
    · exact .refl
  · unfold Part.storyTextHeard
    split
    · exact hearStoryText_act assembles_ownerKinds (by decide) _ _ .refl
    · exact .refl
  · split
    · unfold Part.callCloseHeard
      split
      · exact fromCaller_act _ _ _ (fun i => intakeClose_act sends_ownerKinds (by decide) i _ .refl) .refl
      · exact .refl
    · unfold Part.storyCloseHeard
      split
      · exact hearStoryClose_act assembles_ownerKinds (by decide) _ .refl
      · exact .refl
  · split
    · unfold Part.callWithdrawHeard
      split
      · exact fromCaller_act _ _ _ (fun i => callerWithdraws_act sends_ownerKinds i .refl) .refl
      · exact .refl
    · unfold Part.storyWithdrawHeard
      split
      · exact hearStoryWithdraw_act assembles_ownerKinds (by decide) _ .refl
      · exact .refl
  all_goals exact .refl

theorem recordFrameSent_takes : Act (· ∈ ownerKinds) s (s.recordFrameSent i f) := by
  unfold Part.recordFrameSent
  repeat' split
  all_goals first
    | exact .refl
    | exact requestNext_act assembles_ownerKinds _ .refl
    | exact textSent_act assembles_ownerKinds _ _ .refl
    | exact storyClosed_act assembles_ownerKinds _ .refl
    | exact claimSent_act sends_ownerKinds _ .refl
    | exact drop_act sends_ownerKinds _ .refl

/-- The port after an own frame about a record was sent (R179): it waits, and no spoil is counted. -/
theorem port_sent (i : Slot) (f : Frame) (t : Part)
    (ht : t = ((s.slotPassed (.record i)).recordFrameSent i f).ownHeard f) :
    t.port.state = .wait ∧ t.port.own = none ∧ t.port.spoilCount = 0 ∧ t.port.sticky ≠ some (.record i) := by
  obtain ⟨u, hu⟩ : ∃ u, u = s.slotPassed (.record i) := ⟨_, rfl⟩
  have passed : u.port.state = .wait ∧ u.port.own = none ∧ u.port.spoilCount = 0 ∧ u.port.sticky ≠ some (.record i) := by
    rw [hu]
    refine ⟨rfl, rfl, rfl, ?_⟩
    show (if s.port.sticky = some (.record i) then none else s.port.sticky) ≠ _
    split
    · exact fun e => (nomatch e)
    · assumption
  obtain ⟨v, hv⟩ : ∃ v, v = u.recordFrameSent i f := ⟨_, rfl⟩
  have sent : PortKept u v := hv ▸ .of_act recordFrameSent_takes (by decide)
  have heard : PortKept v v.heard := by
    rw [heard_eq, if_neg (by rw [sent.state, passed.1]; decide)]
    exact ⟨rfl, rfl, id, fun _ => id⟩
  have spoken : PortKept v t := by
    rw [ht, ← hu, ← hv, ownHeard_eq]
    split
    · exact heard.trans (.of_act spoken_act (by decide))
    · exact heard
  have all := sent.trans spoken
  exact ⟨all.state.trans passed.1, all.own passed.2.1, all.spoils.trans passed.2.2.1, all.sticky _ passed.2.2.2⟩

end

/-! ### A slot that stands empty stays so -/

/-- Slot `i` holds no record and has nothing on the send list. -/
def Part.vacant (s : Part) (i : Slot) : Prop := s.record i = none ∧ s.requestOf (.record i) = none

section
variable {s t : Part} {i j : Slot} {l : LineNo}

theorem vacant_of_view (h : s.vacant i) (ht : t.recordView i = s.recordView i) : t.vacant i := by
  obtain ⟨hr, hq, -⟩ := recordView_eq_iff.mp ht
  exact ⟨hr.trans h.1, hq.trans h.2⟩

theorem vacant_of_slotView (h : s.vacant i) (ht : t.slotView i = s.slotView i) : t.vacant i := by
  obtain ⟨hr, hq⟩ := slotView_eq_iff.mp ht
  exact ⟨hr.trans h.1, hq.trans h.2⟩

theorem ne_of_vacant {r : Record} (h : s.vacant i) (hj : s.record j = some r) : i ≠ j := by
  rintro rfl
  rw [h.1] at hj
  cases hj

section
variable (h : s.vacant i)
include h

theorem vacant_updRecord (j : Slot) (f : Record → Record) : (s.updRecord j f).vacant i := by
  by_cases hij : i = j
  · subst hij
    refine ⟨?_, h.2⟩
    rw [Part.updRecord, record_setRecord_self, h.1]
    rfl
  · exact vacant_of_view h (recordView_updRecord_ne _ hij f)

theorem vacant_requestCall (j : Slot) (k : FrameKind) : (s.requestCall j k).vacant i := by
  by_cases hij : i = j
  · subst hij
    rw [Part.requestCall, h.1]
    exact h
  · exact vacant_of_view h (recordView_requestCall_ne _ hij k)

theorem vacant_freeRecord (j : Slot) : (s.freeRecord j).vacant i := by
  by_cases hij : i = j
  · subst hij
    rw [Part.freeRecord, h.1]
    exact h
  · exact vacant_of_view h (recordView_freeRecord_ne _ hij)

theorem vacant_judgeStore : s.judgeStore.vacant i := vacant_of_view h (recordView_judgeStore _ _)

end
end
end Sys2Proof.Machine
end

section
/-! An own frame about a call sent: `Obligations.CallFrameSent`. -/

namespace Sys2Proof.Machine

/-! ### A freed slot stays empty while the frame is heard (R186) -/

section
variable {s t : Part} {i j : Slot} {l : LineNo} {h : Handle}

theorem vacant_evictScan (n : Nat) (hv : s.vacant i) : (evictScan n s).vacant i := by
  induction n generalizing s with
  | zero => exact hv
  | succ n ih =>
    unfold evictScan
    split
    · exact hv
    · next rest _ =>
      split
      · exact ih (vacant_updRecord hv _ _)
      · exact vacant_freeRecord (s := { s with recent := rest }) hv _

theorem vacant_evictUntil (p : Part → Bool) (n : Nat) (hv : s.vacant i) : (evictUntil p n s).vacant i := by
  induction n generalizing s with
  | zero => exact hv
  | succ n ih =>
    unfold evictUntil
    split
    · exact hv
    · exact ih (vacant_evictScan _ hv)

theorem vacant_storeCode (j : Slot) (e : OutEntry) (hv : s.vacant i) : (s.storeCode j e).1.vacant i := by
  have written {u : Part} (hu : u.vacant i) : (u.writeEntry j e.pack).vacant i := by
    unfold Part.writeEntry
    split
    · exact hu
    · exact vacant_updRecord (s := { u with mem := _ }) hu _ _
  have taken : (s.takeBlock j).1.vacant i := by
    have evicted := vacant_evictUntil (fun s => !s.free.isEmpty) s.recent.length hv
    unfold Part.takeBlock
    dsimp only
    split
    · exact vacant_judgeStore (vacant_updRecord (s := { (evictUntil _ _ s) with free := _ }) evicted _ _)
    · exact evicted
  have block : (s.takeOutBlock j).1.vacant i := by
    unfold Part.takeOutBlock
    repeat' split
    · exact hv
    · exact hv
    · exact vacant_updRecord hv _ _
    · exact taken
  unfold Part.storeCode
  split
  · exact hv
  · split
    · split
      · next e => rw [e] at block; exact written block
      · next e => rw [e] at block; exact block
    · exact written hv

theorem vacant_closingShift (j : Slot) (e : Encoder) (n : Nat) (hv : s.vacant i) :
    (s.closingShift j l e n).1.vacant i := by
  unfold Part.closingShift
  split
  · exact hv
  · split
    · exact hv
    · have stored (e : OutEntry) := vacant_storeCode j e hv
      dsimp only
      split
      · next h =>
        have left := (congrArg (fun p : Part × Bool => p.1.vacant i) h).mp (stored _)
        split
        · exact left
        · exact left
      · next h => exact (congrArg (fun p : Part × Bool => p.1.vacant i) h).mp (stored _)

theorem vacant_abortIntake (j : Slot) (hv : s.vacant i) : (s.abortIntake j).vacant i :=
  vacant_requestCall (vacant_updRecord hv _ _) _ _

theorem vacant_of_act {K : Kind → Prop} (ha : Act K s t) (h1 : ¬K .record) (h2 : ¬K .store) (h3 : ¬K .port)
    (h4 : ¬K .list) (hv : s.vacant i) : t.vacant i := by
  refine ⟨?_, ?_⟩
  · rw [Part.record, ha.records_eq h1 h2]; exact hv.1
  · rw [Part.requestOf, ha.port_eq h4 h3]; exact hv.2

theorem vacant_report (j : Slot) (o : SendOutcome) (n : Nat) (hv : s.vacant i) : (s.report l j o n).vacant i := by
  unfold Part.report
  exact vacant_requestCall (s := (s.updOut j _).updSched l _) (vacant_updRecord hv _ _) _ _

theorem vacant_completeStory (j : Slot) (hv : s.vacant i) : (s.completeStory l j).1.vacant i := by
  unfold Part.completeStory
  split
  · exact hv
  · dsimp only
    refine vacant_report (s := Part.updSched _ l _) _ _ _ ?_
    split
    · exact hv
    · exact hv

theorem vacant_choose (hv : s.vacant i) : (s.choose l j).1.vacant i := by
  have begun (u : Part) (p : Piece) (hu : u.vacant i) : (u.startPiece l p).vacant i :=
    vacant_of_act (startPiece_act (K := (· ∈ [.unit, .sched])) (by decide) (by decide) l p .refl)
      (by decide) (by decide) (by decide) (by decide) hu
  unfold Part.choose
  split
  · exact hv
  · split
    · exact hv
    · have chosen := vacant_updRecord hv j (Record.mapOut fun x => { x with state := .sending })
      dsimp only
      split
      · exact vacant_of_act (startResumption_act (K := (· ∈ [.unit, .sched])) (by decide) (by decide) l .refl)
          (by decide) (by decide) (by decide) (by decide) chosen
      · split
        · exact vacant_completeStory (s := Part.updSched _ l _) j chosen
        · exact begun _ _ chosen

theorem vacant_settleLines (ls : List LineNo) (hv : s.vacant i) : (s.settleLines ls).vacant i := by
  rw [settleLines_eq]
  refine settle_keeps (P := fun t => t.vacant i) (fun u m t b hu hstep => ?_) _ _ hv
  obtain ⟨-, ⟨-, -, rfl⟩ | ⟨j, -, heq⟩⟩ := freeStep_cases hstep
  · exact vacant_of_act (startPiece_act (K := (· ∈ [.unit, .sched])) (by decide) (by decide) m _ .refl)
      (by decide) (by decide) (by decide) (by decide) (s := u.updSched m _) hu
  · have chosen := vacant_choose (l := m) (j := j) hu
    rw [heq] at chosen
    exact chosen

theorem vacant_queueStory (j : Slot) (hv : s.vacant i) : (s.queueStory j l).vacant i := by
  have returned : (s.returnSurplus j).vacant i := by
    unfold Part.returnSurplus
    split
    · exact hv
    · exact vacant_judgeStore (vacant_updRecord (s := { s with free := _ }) hv _ _)
  exact vacant_settleLines _ (s := Part.updSched _ l _) (vacant_updRecord returned _ _)

theorem vacant_intakeClose (j : Slot) (n : Nat) (hv : s.vacant i) : (s.intakeClose j n).vacant i := by
  unfold Part.intakeClose
  split
  · exact hv
  · split
    · split
      · exact hv
      · next l _ _ _ k _ =>
        split
        · have shifted := vacant_closingShift (l := l) j { plane := k.plane, column := k.column } k.expected hv
          split
          · next e => rw [e] at shifted; exact vacant_queueStory _ shifted
          · next e => rw [e] at shifted; exact vacant_abortIntake _ shifted
          · next e => rw [e] at shifted; exact vacant_abortIntake _ shifted
        · exact vacant_abortIntake _ hv
    · exact hv

theorem vacant_callerWithdraws (j : Slot) (hv : s.vacant i) : (s.callerWithdraws j).vacant i := by
  unfold Part.callerWithdraws Part.endClaim
  repeat' split
  all_goals first
    | exact hv
    | exact vacant_freeRecord hv _
    | exact vacant_updRecord hv _ _

theorem vacant_fromCaller {f : Heard} {c n : Nat} {act : Slot → Part} (hv : s.vacant i) (ha : ∀ j, (act j).vacant i) :
    (s.fromCaller f c n act).vacant i := by
  unfold Part.fromCaller
  repeat' split
  · exact ha _
  · exact hv
  · exact hv

theorem vacant_standbyClose (j : Slot) (hv : s.vacant i) : (s.standbyClose h j).vacant i := by
  by_cases hij : i = j
  · subst hij
    have none : s.standsBehind i h = false := by rw [Part.standsBehind, Part.inRecord, hv.1]; rfl
    rw [Part.standbyClose, none]
    exact hv
  · exact vacant_of_slotView hv (slotView_standbyClose_ne _ _ _ _ hij)

theorem vacant_standbyWithdraw (j : Slot) (hv : s.vacant i) : (s.standbyWithdraw h j).vacant i := by
  by_cases hij : i = j
  · subst hij
    have none : s.standsBehind i h = false := by rw [Part.standsBehind, Part.inRecord, hv.1]; rfl
    rw [Part.standbyWithdraw, none]
    exact hv
  · exact vacant_of_slotView hv (slotView_standbyWithdraw_ne _ _ _ _ hij)

/-- What owners do with a CLOSE or WITHDRAW heard fills no empty slot. -/
theorem vacant_spoken {f : Frame} (hk : f.kind = .withdraw ∨ f.kind = .close) (hv : s.vacant i) : (s.spoken f).vacant i := by
  have registered (g : Entry → Entry) (h : Handle) : (s.registerFrame h g).vacant i := hv
  rcases hk with hk | hk
  · rw [Part.spoken, hk]
    dsimp only
    split
    · unfold Part.callWithdrawHeard
      split
      · exact vacant_fromCaller hv fun j => vacant_callerWithdraws j hv
      · exact hv
    · unfold Part.storyWithdrawHeard
      split
      · rw [hearStoryWithdraw_eq]
        exact invariant_foldl (R := fun t => t.vacant i) (fun j _ hu => vacant_standbyWithdraw j hu) _ (registered _ _)
      · exact hv
  · rw [Part.spoken, hk]
    dsimp only
    split
    · unfold Part.callCloseHeard
      split
      · exact vacant_fromCaller hv fun j => vacant_intakeClose j _ hv
      · exact hv
    · unfold Part.storyCloseHeard
      split
      · rw [hearStoryClose_eq]
        exact invariant_foldl (R := fun t => t.vacant i) (fun j _ hu => vacant_standbyClose j hu) _ (registered _ _)
      · exact hv

end

/-! ### The frame of a call (R141, R150 to R152, R171) -/

section
variable {s : Part} {i : Slot} {r : Record} {x : OutRecord} {c : Claim} {f : Frame}

/-- The station's own CLAIM is no other station's. -/
theorem ownHeard_of_claim (hk : f.kind = .claim) (hs : f.body.station.toNat = s.number) : s.ownHeard f = s.heard := by
  have silent : s.heard.spoken f = s.heard := by
    rw [Part.spoken, hk]
    dsimp only
    unfold Part.claimHeard
    split
    · exact if_pos hs
    · rfl
  rw [ownHeard_eq, silent, ite_self]

theorem fromCaller_of_other {h : Heard} {a n : Nat} {act : Slot → Part} (ha : h.station.toNat ≠ a) : s.fromCaller h a n act = s :=
  if_neg ha

theorem caller_of_readSubject {h : Heard} {a n : Nat} {rest : List Byte} (e : readSubject h = some (.call a n, rest)) :
    a = (h.payload.getD 1 0).toNat := by
  unfold readSubject at e
  split at e
  · next kind station n1 n0 rest' hp =>
    split at e
    · split at e
      · split at e
        · cases e
        · cases e
      · split at e
        · cases e
          rw [hp]
          rfl
        · cases e
    · cases e
  · cases e

theorem caller_of_readClose {h : Heard} {a n m : Nat} {b : Byte} (e : readClose h = some (.call a n, m, b)) :
    a = (h.payload.getD 1 0).toNat := by
  unfold readClose at e
  split at e
  · next subj t1 t0 _ _ last hs =>
    split at e
    · split at e
      · cases e
      · split at e
        · cases e
          exact caller_of_readSubject hs
        · cases e
    · cases e
  · cases e

theorem caller_of_readWithdraw {h : Heard} {a n : Nat} (e : readWithdraw h = some (.call a n)) :
    a = (h.payload.getD 1 0).toNat := by
  unfold readWithdraw at e
  split at e
  · next subj hs =>
    cases e
    exact caller_of_readSubject hs
  · cases e

/-- A WITHDRAW or CLOSE about another station's call reaches no intake: its sender is not the caller (R145). -/
theorem ownHeard_of_other_caller (hk : f.kind = .withdraw ∨ f.kind = .close) (ha : aboutCall f.body = true)
    (hc : (f.body.payload.getD 1 0).toNat ≠ f.body.station.toNat) : s.ownHeard f = s.heard := by
  have silent : s.heard.spoken f = s.heard := by
    rcases hk with hk | hk
    · rw [Part.spoken, hk]
      dsimp only
      rw [if_pos ha]
      unfold Part.callWithdrawHeard
      split
      · next h => exact fromCaller_of_other fun e => hc ((caller_of_readWithdraw h).symm.trans e.symm)
      · rfl
    · rw [Part.spoken, hk]
      dsimp only
      rw [if_pos ha]
      unfold Part.callCloseHeard
      split
      · next h => exact fromCaller_of_other fun e => hc ((caller_of_readClose h).symm.trans e.symm)
      · rfl
  rw [ownHeard_eq, silent, ite_self]

/-- The record of a won claim, in INTAKE (R141, R145). -/
def Part.won (s : Part) (r : Record) (x : OutRecord) : Record :=
  { r with body := .outbound { x with
      state := .intake, claim := none
      intake := some { expected := 0, plane := .ltrs, column := 0, since := s.now } } }

section
variable (hr : s.record i = some r) (hb : r.body = .outbound x)
include hr hb

theorem enterIntake_eq : s.enterIntake i = s.setRecord i (some (s.won r x)) := by
  rw [Part.enterIntake, updOut_eq hr hb] <;> rfl

theorem claimSent_of_claim (hc : x.claim = some c) : s.claimSent i =
    match c.ending with
    | some .abort => (s.setRecord i (some (s.won r x))).abortIntake i
    | some .free => (s.setRecord i (some (s.won r x))).freeRecord i
    | some .withdraw | none => s.setRecord i (some (s.won r x)) := by
  rw [Part.claimSent, outRecord_eq hr hb, Option.bind_some, hc] <;> rw [enterIntake_eq hr hb] <;> rfl

theorem claimSent_of_none (hc : x.claim = none) : s.claimSent i = s := by
  rw [Part.claimSent, outRecord_eq hr hb, Option.bind_some, hc]

theorem recordFrameSent_claim (hk : f.kind = .claim) : s.recordFrameSent i f = s.claimSent i := by
  simp only [Part.recordFrameSent, hr, hb, hk]

theorem recordFrameSent_ended (hk : f.kind = .withdraw ∨ f.kind = .close) : s.recordFrameSent i f = s.freeRecord i := by
  rcases hk with hk | hk <;> simp only [Part.recordFrameSent, hr, hb, hk]

end
end

/-- What hearing a sent frame does not change but for the store, the port and the notices. -/
def Part.ledger (t s : Part) : Part :=
  { t with
    records := s.records, free := s.free, recent := s.recent, port := s.port, notices := s.notices
    hearings := s.hearings }

theorem ledger_freeRecord {s : Part} {i : Slot} {r : Record} (u : Part) (hr : s.record i = some r) :
    (s.freeRecord i).ledger u = s.ledger u := by
  rw [freeRecord_eq hr, judgeStore_eq]
  rfl

theorem ledger_addRequest (s u : Part) (q : Request) : (s.addRequest q).ledger u = s.ledger u := by
  rw [addRequest_eq]
  rfl

/-- A sent CLAIM is an event of its record alone. -/
theorem claimSent_keeps {s : Part} {i : Slot} {r : Record} {x : OutRecord} (u : Part) (hr : s.record i = some r)
    (hb : r.body = .outbound x) :
    (∀ j, j ≠ i → (s.claimSent i).record j = s.record j) ∧ (s.claimSent i).ledger u = s.ledger u := by
  cases hc : x.claim with
  | none =>
    rw [claimSent_of_none hr hb hc]
    exact ⟨fun _ _ => rfl, rfl⟩
  | some c =>
    have hw : (s.setRecord i (some (s.won r x))).record i = some (s.won r x) := record_setRecord_self _ _ _
    have won (j : Slot) (hj : j ≠ i) : (s.setRecord i (some (s.won r x))).record j = s.record j :=
      record_setRecord_ne _ _ _ _ hj
    rw [claimSent_of_claim hr hb hc]
    split
    · refine ⟨fun j hj => ((abortIntake_aborts hw rfl).1.2.1 j hj).trans (won j hj), ?_⟩
      rw [abortIntake_eq hw rfl, ledger_addRequest]
      rfl
    · exact ⟨fun j hj => ((freeRecord_frees hw).2.1 j hj).trans (won j hj), ledger_freeRecord u hw⟩
    · exact ⟨won, rfl⟩
    · exact ⟨won, rfl⟩

/-- Settles O42. -/
theorem callFrameSent : Obligations.CallFrameSent := by
  unfold Obligations.CallFrameSent
  intro i r x f s h hd ho hrm how hst hr hb
  obtain ⟨u, hu⟩ : ∃ u, u = s.toPart.slotPassed (.record i) := ⟨_, rfl⟩
  obtain ⟨t, ht⟩ : ∃ t, t = (u.recordFrameSent i f.frame).ownHeard f.frame := ⟨_, rfl⟩
  have step : exec (.ownFrameSpoilSlot false) s = .next { s with toPart := t.serveBus } := by
    rw [exec_ownFrameSpoilSlot h, ownSlot_of_sent hd ho hrm, how, ht, hu]
    rfl
  obtain ⟨h1, h2, h3, h4⟩ := port_sent (s := s.toPart) i f.frame t (by rw [ht, hu])
  have hur : u.record i = some r := by rw [hu]; exact hr
  have hreq : u.hasRequest (.record i) = false := by rw [hu]; exact hasRequest_slotPassed
  have ledger : u.ledger s.toPart = s.toPart := by rw [hu]; rfl
  have others (j : Slot) : u.record j = s.record j := by rw [hu]; rfl
  have free : u.free = s.free := by rw [hu]; rfl
  have mem : u.mem = s.mem := by rw [hu]; rfl
  have number : (u.recordFrameSent i f.frame).number = s.number := recordFrameSent_takes.number_eq.trans (by rw [hu]; rfl)
  have claim (hk : f.frame.kind = .claim) : t = (u.claimSent i).heard := by
    rw [ht, ownHeard_of_claim hk (hst.trans number.symm), recordFrameSent_claim hur hb hk]
  have won : u.won r x = { r with body := .outbound { x with
      state := .intake, claim := none
      intake := some { expected := 0, plane := .ltrs, column := 0, since := s.now } } } := by rw [hu]; rfl
  obtain ⟨v, hv⟩ : ∃ v, v = u.setRecord i (some (u.won r x)) := ⟨_, rfl⟩
  have hvr : v.record i = some (u.won r x) := by rw [hv]; exact record_setRecord_self _ _ _
  refine ⟨t, step, h1, h2, h3, how ▸ h4, fun c hk hc => ⟨fun hend => ?_, fun hend => ?_, fun hend => ?_⟩, fun hk => ?_,
    fun hk => ?_⟩
  · have sent : u.claimSent i = v := by
      rw [claimSent_of_claim hur hb hc, hv]
      rcases hend with hend | hend <;> rw [hend]
    rw [claim hk, sent]
    exact ⟨hvr.trans (by rw [won]), by rw [hv]; exact hreq, by rw [hv]; exact free, by rw [hv]; exact mem⟩
  · have sent : u.claimSent i = v.abortIntake i := by
      rw [claimSent_of_claim hur hb hc, hv, hend]
    obtain ⟨⟨a1, -, -, -, a5⟩, -⟩ := abortIntake_aborts (s := v) (r := u.won r x) hvr rfl
    rw [claim hk, sent]
    exact ⟨a1, a5 (by rw [hv]; exact hreq)⟩
  · have sent : u.claimSent i = v.freeRecord i := by
      rw [claimSent_of_claim hur hb hc, hv, hend]
    obtain ⟨a1, -, a3, -⟩ := freeRecord_frees hvr
    rw [claim hk, sent]
    refine ⟨a1, a3.trans ?_⟩
    have reserved : (u.won r x).reservation = r.reservation := by
      unfold Record.reservation
      rw [hb]
      rfl
    rw [reserved, hv]
    exact congrArg (· ++ (r.blocks ++ r.reservation)) free
  · have ended : (u.recordFrameSent i f.frame).vacant i := by
      rw [recordFrameSent_ended hur hb hk]
      obtain ⟨a1, -, -, -, a5, -⟩ := freeRecord_frees hur
      exact ⟨a1, by rw [Part.hasRequest] at a5; exact Option.not_isSome_iff_eq_none.mp (Bool.eq_false_iff.mp a5)⟩
    have heard := vacant_of_view ended (recordView_heard _ i)
    have gone : t.vacant i := by
      rw [ht, ownHeard_eq]
      split
      · exact vacant_spoken hk heard
      · exact heard
    exact ⟨gone.1, by rw [Part.hasRequest, gone.2]; rfl⟩
  · by_cases hc : f.frame.kind = .claim
    · obtain ⟨a1, a2⟩ := claimSent_keeps s.toPart hur hb
      rw [claim hc]
      exact ⟨fun hne => absurd hc hne, fun j hj => (a1 j hj).trans (others j), a2.trans ledger⟩
    · obtain ⟨hk, ha, hcaller⟩ := hk.resolve_left hc
      obtain ⟨-, a2, a3, -⟩ := freeRecord_frees hur
      rw [ht, ownHeard_of_other_caller hk ha (by rw [hst]; exact hcaller), recordFrameSent_ended hur hb hk]
      exact ⟨fun _ => a3.trans (by rw [free]), fun j hj => (a2 j hj).trans (others j),
        (ledger_freeRecord s.toPart hur).trans ledger⟩

end Sys2Proof.Machine
end

section
/-! An own frame about an inbound story sent: `Obligations.StoryFrameSent`. -/

namespace Sys2Proof.Machine

/-! ### What a story asks for next (R64, R66, R127) -/

section
variable {s : Part} {i : Slot} {r : Record} {x : InRecord}

theorem closed_iff (r : Record) : r.closed = true ↔ r.line = none := by
  rw [Record.closed, beq_iff_eq]

/-- The unsent characters of a carried record, open or closed, ask for a TEXT. -/
theorem textDue_eq_true_iff : s.textDue r x = true ↔ 64 ≤ r.count - x.cursor ∨ (1 ≤ r.count - x.cursor ∧ (r.line = none ∨
    (r.priority ≤ 1 ∧ ∃ n, x.cursor ≤ n ∧ n < r.count ∧ s.mem.read (entryAddr r.blocks n) = 10))) := by
  by_cases hl : r.closed = true
  · have hn := (closed_iff r).mp hl
    simp only [Part.textDue, hl, hn, Bool.or_true, Bool.true_or, Bool.and_true, decide_eq_true_eq, true_or, and_true]
    omega
  · have hn : ¬r.line = none := fun h => hl ((closed_iff r).mpr h)
    rw [textDue_iff (by simpa using hl)]
    simp only [hn, false_or]
    constructor
    · rintro (h | ⟨hp, n, h1, h2, e⟩)
      · exact .inl (by omega)
      · exact .inr ⟨by omega, hp, n, h1, h2, e⟩
    · rintro (h | ⟨-, hp, n, h1, h2, e⟩)
      · exact .inl (by omega)
      · exact .inr ⟨hp, n, h1, h2, e⟩

/-- The record has the request of kind `k`. -/
def Part.asks (s : Part) (i : Slot) (k : FrameKind) : Prop := (s.requestOf (.record i)).map Request.kind = some k

/-- The requests of R64, R66 and R127 of a record with none on the send list. -/
structure AsksNext (s t : Part) (i : Slot) (r : Record) (x : InRecord) : Prop where
  text : x.state = .carrying → x.quiet = false → s.textDue r x = true → t.asks i .text
  close : x.state = .carrying → r.line = none → x.quiet = true ∨ x.cursor = r.count → t.asks i .close
  still : x.state = .carrying → r.line ≠ none → x.quiet = true ∨ ¬s.textDue r x = true → t.hasRequest (.record i) = false
  rerun : x.state = .rerunning → t.asks i (if x.cursor < r.count then .text else .close)

variable (hr : s.record i = some r) (hb : r.body = .inbound x) (hn : s.hasRequest (.record i) = false)
include hr hn

theorem requestStory_asks (k : FrameKind) : (s.requestStory i k).asks i k := by
  rw [requestStory_eq hr, Part.asks]
  rw [requestOf_addRequest_self s { owner := .record i, cls := r.priority, kind := k, key := i.val } hn]
  rfl

include hb

theorem requestNext_of_rerunning (hx : x.state = .rerunning) : s.requestNext i =
    s.requestStory i (if x.cursor < r.count then .text else .close) := by
  rw [Part.requestNext, hn, if_neg Bool.false_ne_true, hr]
  dsimp only
  rw [hb]
  dsimp only
  rw [hx]
  dsimp only
  split_ifs <;> rfl

theorem requestNext_asksNext : AsksNext s (s.requestNext i) i r x where
  text hx hq hd := by
    rw [requestNext_of_carrying hr hb hx hn, hq, hd]
    exact requestStory_asks hr hn _
  close hx hl hc := by
    have idle : (!x.quiet && s.textDue r x) = false := by
      rcases hc with hq | hc
      · rw [hq]; rfl
      · have none : s.textDue r x = false := by
          rw [← Bool.not_eq_true, textDue_eq_true_iff]
          omega
        rw [none, Bool.and_false]
    have ends : (r.closed && (x.quiet || x.cursor == r.count)) = true := by
      rw [(closed_iff r).mpr hl]
      simpa using hc
    rw [requestNext_of_carrying hr hb hx hn, idle, ends]
    exact requestStory_asks hr hn _
  still hx hl hc := by
    have opened : r.closed = false := by
      rw [← Bool.not_eq_true, closed_iff]; exact hl
    rw [requestNext_of_open hr hb hx hn opened, if_neg]
    · exact hn
    · rintro ⟨hq, hd⟩
      rcases hc with h | h
      · rw [hq] at h; cases h
      · exact h hd
  rerun hx := by
    rw [requestNext_of_rerunning hr hb hn hx]
    exact requestStory_asks hr hn _

end

/-! ### The frame heard at the station itself (R186) -/

/-- The kinds of change that a frame about an inbound story brings. -/
def storyKinds : List Kind := [.recog, .sup, .list, .record, .store, .register, .trackers, .notices]

theorem assembles_storyKinds : Assembles (· ∈ storyKinds) :=
  ⟨by decide, by decide, by decide, by decide, by decide, by decide, by decide⟩

section
variable {s : Part} {i : Slot} {r : Record} {x : InRecord} {f : Frame}

theorem owner_of_readOffer {h : Heard} {o : OfferFields} (e : readOffer h = some o) : o.owner.station = h.station.toNat := by
  unfold readOffer at e
  split at e
  · split at e
    · cases e
      rfl
    · cases e
  · cases e

theorem claimHeard_own (hst : f.body.station.toNat = s.number) : s.claimHeard f.body = s := by
  unfold Part.claimHeard
  split
  · exact if_pos hst
  · rfl

theorem spoken_story_act (ha : aboutCall f.body = false) (hst : f.body.station.toNat = s.number) :
    Act (· ∈ storyKinds) s (s.spoken f) := by
  unfold Part.spoken
  split
  · unfold Part.offerHeard
    split
    · next o e => exact hearOffer_act assembles_storyKinds (by decide) _ (readOffer_serial e) .refl
    · exact .refl
  · rw [claimHeard_own hst]; exact .refl
  · unfold Part.storyTextHeard
    split
    · exact hearStoryText_act assembles_storyKinds (by decide) _ _ .refl
    · exact .refl
  · rw [ha, if_neg Bool.false_ne_true]
    unfold Part.storyCloseHeard
    split
    · exact hearStoryClose_act assembles_storyKinds (by decide) _ .refl
    · exact .refl
  · rw [ha, if_neg Bool.false_ne_true]
    unfold Part.storyWithdrawHeard
    split
    · exact hearStoryWithdraw_act assembles_storyKinds (by decide) _ .refl
    · exact .refl
  all_goals exact .refl

/-- The record of the story, not in standby, hears its own frame without effect. -/
theorem slotView_spoken (ha : aboutCall f.body = false) (hst : f.body.station.toNat = s.number)
    (hs : ∀ h, s.standsBehind i h = false) : (s.spoken f).slotView i = s.slotView i := by
  unfold Part.spoken
  split
  · unfold Part.offerHeard
    split
    · next o e =>
      rw [hearOffer_eq, if_pos ((owner_of_readOffer e).trans hst)]
      exact slotView_offerTaken _ _ _
    · rfl
  · rw [claimHeard_own hst]
  · unfold Part.storyTextHeard
    split
    · exact (hearStoryText_effect _ _ rfl).2.1 i (hs _)
    · rfl
  · rw [ha, if_neg Bool.false_ne_true]
    unfold Part.storyCloseHeard
    split
    · exact (hearStoryClose_effect _ _ rfl).2.1 i (hs _)
    · rfl
  · rw [ha, if_neg Bool.false_ne_true]
    unfold Part.storyWithdrawHeard
    split
    · exact (hearStoryWithdraw_effect _ _ rfl).2.1 i (hs _)
    · rfl
  all_goals rfl

/-- Slot `i` stands at the newest end of the recent list. -/
def Part.newest (s : Part) (i : Slot) : Prop := ∃ is, s.recent = is ++ [i]

theorem newest_freeRecord {j : Slot} (h : s.newest i) (hj : j ≠ i) : (s.freeRecord j).newest i := by
  cases hr : s.record j with
  | none =>
    rw [Part.freeRecord, hr]
    exact h
  | some r =>
    obtain ⟨is, hi⟩ := h
    refine ⟨is.filter fun k => !(k == j), ?_⟩
    have kept : (i == j) = false := beq_eq_false_iff_ne.mpr hj.symm
    rw [(freeRecord_frees hr).2.2.2.1, hi, List.filter_append, List.filter_singleton, kept]
    rfl

theorem newest_hearStoryClose {h : Handle} (hi : s.newest i) (hs : s.standsBehind i h = false) :
    (s.hearStoryClose h).newest i := by
  rw [hearStoryClose_eq]
  refine (invariant_foldl (R := fun t : Part => t.newest i ∧ t.standsBehind i h = false) (fun j t ht => ?_) allSlots
    (s := s.registerFrame h fun e => { e with state := .closed }) ⟨hi, hs⟩).1
  obtain ⟨h1, h2⟩ := ht
  by_cases hj : j = i
  · subst hj
    rw [Part.standbyClose, h2]
    exact ⟨h1, h2⟩
  · have view := slotView_standbyClose_ne t j i h (Ne.symm hj)
    refine ⟨?_, by rw [standsBehind_congr i h (slotView_eq_iff.mp view).1]; exact h2⟩
    have freed := newest_freeRecord h1 hj
    unfold Part.standbyClose
    repeat' split
    · exact freed
    · exact freed
    · exact h1

/-- A CLOSE spoken leaves the newest record where it is. -/
theorem newest_spoken_close (hk : f.kind = .close) (ha : aboutCall f.body = false) (hi : s.newest i)
    (hs : ∀ h, s.standsBehind i h = false) : (s.spoken f).newest i := by
  rw [Part.spoken, hk]
  dsimp only
  rw [ha, if_neg Bool.false_ne_true]
  unfold Part.storyCloseHeard
  split
  · exact newest_hearStoryClose hi (hs _)
  · exact hi

theorem not_standsBehind (hr : s.record i = some r) (hb : r.body = .inbound x) (h1 : x.state ≠ .standby)
    (h2 : x.state ≠ .standbyComplete) (h : Handle) : s.standsBehind i h = false := by
  rw [Part.standsBehind, inRecord_eq hr hb]
  simp [h1, h2]

end

end Sys2Proof.Machine
end

section
/-! `Obligations.StoryFrameSent`, by the frame sent. -/

namespace Sys2Proof.Machine

section
variable {s : Part} {i : Slot} {r : Record} {x : InRecord} {f : Frame} (hr : s.record i = some r)
  (hb : r.body = .inbound x)
include hr hb

theorem recordFrameSent_offer (hk : f.kind = .offer) : s.recordFrameSent i f = s.requestNext i := by
  simp only [Part.recordFrameSent, hr, hb, hk]

theorem recordFrameSent_text (hk : f.kind = .text) :
    s.recordFrameSent i f = s.textSent i (f.body.payload.length - 6) := by
  simp only [Part.recordFrameSent, hr, hb, hk]

theorem recordFrameSent_close (hk : f.kind = .close) : s.recordFrameSent i f = s.storyClosed i := by
  simp only [Part.recordFrameSent, hr, hb, hk]

theorem recordFrameSent_withdraw (hk : f.kind = .withdraw) : s.recordFrameSent i f = s.freeRecord i := by
  simp only [Part.recordFrameSent, hr, hb, hk]

theorem recordFrameSent_story_act : Act (· ∈ storyKinds) s (s.recordFrameSent i f) := by
  unfold Part.recordFrameSent
  rw [hr]
  dsimp only
  rw [hb]
  cases f.kind with
  | offer => exact requestNext_act assembles_storyKinds _ .refl
  | text => exact textSent_act assembles_storyKinds _ _ .refl
  | close => exact storyClosed_act assembles_storyKinds _ .refl
  | withdraw => exact (freeRecord_stores s i).mono (by decide)
  | claim => exact .refl
  | call => exact .refl
  | order => exact .refl
  | notice => exact .refl

/-- The record of a sent CLOSE (R66, R87, R88, R128). -/
def Record.closedStory (r : Record) (x : InRecord) : Record :=
  { r with body := .inbound { x with
      state := .recent
      referenced := if x.state = .carrying then some false else x.referenced
      rerun := if x.state = .carrying then x.rerun else false } }

/-- A record whose CLOSE was sent is RECENT, at the newest end of the recent list. -/
theorem storyClosed_facts (hx : x.state = .carrying ∨ x.state = .rerunning) (hn : s.hasRequest (.record i) = false) :
    (s.storyClosed i).record i = some (r.closedStory x) ∧ (s.storyClosed i).newest i ∧
      (s.storyClosed i).hasRequest (.record i) = false := by
  have state : (s.inRecord i).map InRecord.state = some x.state := by rw [inRecord_eq hr hb]; rfl
  rw [Part.storyClosed, state]
  rcases hx with hx | hx
  · rw [hx]
    dsimp only
    rw [updIn_eq hr hb]
    refine ⟨?_, ⟨s.recent, rfl⟩, hn⟩
    rw [Record.closedStory, if_pos hx, if_pos hx]
    exact record_setRecord_self _ _ _
  · rw [hx]
    obtain ⟨h1, h2, -⟩ := endRerun_facts hr hb
    have ne : x.state ≠ .carrying := by rw [hx]; decide
    refine ⟨?_, ⟨_, rfl⟩, h2⟩
    rw [Record.closedStory, if_neg ne, if_neg ne]
    exact h1

/-- A TEXT sent moves the bus cursor on (R65). -/
theorem textSent_facts (n : Nat) (hn : s.hasRequest (.record i) = false) :
    (s.textSent i n).record i = some { r with body := .inbound { x with cursor := x.cursor + n } } ∧
      AsksNext s (s.textSent i n) i r { x with cursor := x.cursor + n } := by
  obtain ⟨v, hv⟩ : ∃ v, v = s.setRecord i (some { r with body := .inbound { x with cursor := x.cursor + n } }) := ⟨_, rfl⟩
  have record : v.record i = some { r with body := .inbound { x with cursor := x.cursor + n } } := by
    rw [hv]; exact record_setRecord_self _ _ _
  have request : v.hasRequest (.record i) = false := by rw [hv]; exact hn
  rw [Part.textSent, updIn_eq hr hb, ← hv]
  obtain ⟨h1, h2, h3, h4⟩ := requestNext_asksNext record rfl request
  refine ⟨by rw [requestNext_record]; exact record, ⟨fun a b c => h1 a b ?_, h2, fun a b c => h3 a b ?_, h4⟩⟩
  · rw [hv]; exact c
  · rw [hv]; exact c

end

section
variable {s t w : Part} {i : Slot} {f : Frame}

theorem AsksNext.of_view {r : Record} {x : InRecord} (h : AsksNext s w i r x) (ht : t.slotView i = w.slotView i) :
    AsksNext s t i r x := by
  obtain ⟨-, hq⟩ := slotView_eq_iff.mp ht
  obtain ⟨h1, h2, h3, h4⟩ := h
  refine ⟨fun a b c => ?_, fun a b c => ?_, fun a b c => ?_, fun a => ?_⟩
  · rw [Part.asks, hq]; exact h1 a b c
  · rw [Part.asks, hq]; exact h2 a b c
  · rw [hasRequest_congr hq]; exact h3 a b c
  · rw [Part.asks, hq]; exact h4 a

theorem slotView_ownHeard (ha : aboutCall f.body = false) (hst : f.body.station.toNat = s.number)
    (hs : ∀ h, s.standsBehind i h = false) : (s.ownHeard f).slotView i = s.slotView i := by
  rw [ownHeard_eq]
  split
  · exact slotView_spoken (s := s.heard) ha hst hs
  · rfl

theorem ownHeard_story_act (ha : aboutCall f.body = false) (hst : f.body.station.toNat = s.number) :
    Act (· ∈ storyKinds) s.heard (s.ownHeard f) := by
  rw [ownHeard_eq]
  split
  · exact spoken_story_act ha hst
  · exact .refl

theorem newest_ownHeard_close (hk : f.kind = .close) (ha : aboutCall f.body = false) (hi : s.newest i)
    (hs : ∀ h, s.standsBehind i h = false) : (s.ownHeard f).newest i := by
  rw [ownHeard_eq]
  split
  · exact newest_spoken_close (s := s.heard) hk ha hi hs
  · exact hi

end

/-- What a heard WITHDRAW of a story does: the records behind the handle take over, the entry is WITHDRAWN. -/
structure WithdrawHeard (s t : Part) (f : Heard) : Prop where
  free : t.free = s.free
  mem : t.mem = s.mem
  lines : t.lines = s.lines
  trackers : t.trackers = s.trackers
  groups : t.groups = s.groups
  rx : t.rx = s.rx
  others : ∀ j, (∀ h, readWithdraw f = some (.story h) → s.standsBehind j h = false) → t.record j = s.record j
  register : ∀ h, s.loader = .running → fromStation f = true → readWithdraw f = some (.story h) →
    t.register = s.register.map fun e =>
      if e.state = .live ∧ e.owner = h then { e with state := .withdrawn, heard := s.now, order := s.hearings + 1 } else e

theorem withdrawHeard_ownHeard {s : Part} {f : Frame} (hk : f.kind = .withdraw) (ha : aboutCall f.body = false) :
    WithdrawHeard s (s.ownHeard f) f.body := by
  have spoken : s.heard.spoken f = s.heard.storyWithdrawHeard f.body := by
    rw [Part.spoken, hk]
    dsimp only
    rw [ha, if_neg Bool.false_ne_true]
  rw [ownHeard_eq, spoken]
  split
  · unfold Part.storyWithdrawHeard
    split
    · next h hread =>
      obtain ⟨act, others, -⟩ := hearStoryWithdraw_effect s.heard h rfl
      refine ⟨act.free_eq (by decide), act.mem_eq (by decide),
        act.lines_eq (by decide) (by decide) (by decide) (by decide) (by decide), act.trackers_eq (by decide),
        act.groups_eq (by decide), act.rx_eq (by decide), fun j hj => ?_, fun h' _ _ hread' => ?_⟩
      · exact (slotView_eq_iff.mp (others j (hj h hread))).1
      · rw [hread] at hread'
        cases hread'
        exact act.register_eq (by decide)
    · next hnone =>
      exact ⟨rfl, rfl, rfl, rfl, rfl, rfl, fun _ _ => rfl, fun h _ _ hread => absurd hread (hnone h)⟩
  · next hout => exact ⟨rfl, rfl, rfl, rfl, rfl, rfl, fun _ _ => rfl, fun _ h1 h2 _ => absurd ⟨h1, h2⟩ hout⟩

/-- Settles O41: the story's own frame, and its WITHDRAW. -/
theorem storyFrameSent : Obligations.StoryFrameSent := by
  unfold Obligations.StoryFrameSent
  refine ⟨?_, ?_⟩
  · intro i r x f s h hd ho hrm how hst hr hb hx ha due asks asksNext
    obtain ⟨u, hu⟩ : ∃ u, u = s.toPart.slotPassed (.record i) := ⟨_, rfl⟩
    obtain ⟨w, hw⟩ : ∃ w, w = u.recordFrameSent i f.frame := ⟨_, rfl⟩
    obtain ⟨t, ht⟩ : ∃ t, t = w.ownHeard f.frame := ⟨_, rfl⟩
    have step : exec (.ownFrameSpoilSlot false) s = .next { s with toPart := t.serveBus } := by
      rw [exec_ownFrameSpoilSlot h, ownSlot_of_sent hd ho hrm, how, ht, hw, hu]
      rfl
    obtain ⟨h1, h2, h3, h4⟩ := port_sent (s := s.toPart) i f.frame t (by rw [ht, hw, hu])
    have hur : u.record i = some r := by rw [hu]; exact hr
    have hreq : u.hasRequest (.record i) = false := by rw [hu]; exact hasRequest_slotPassed
    have sent : Act (· ∈ storyKinds) u w := hw ▸ recordFrameSent_story_act hur hb
    have number : w.number = s.number := sent.number_eq.trans (by rw [hu]; rfl)
    have heard : Act (· ∈ storyKinds) w.heard t := ht ▸ ownHeard_story_act ha (hst.trans number.symm)
    have view (hs : ∀ h, w.standsBehind i h = false) : t.slotView i = w.slotView i :=
      ht ▸ slotView_ownHeard ha (hst.trans number.symm) hs
    have mem : u.mem = s.mem := by rw [hu]; rfl
    have sending (c : Nat) (y : InRecord) (hy : y = { x with cursor := c }) (hwr : w.record i =
        some { r with body := .inbound y }) (next : AsksNext u w i r y) : t.record i = some { r with body := .inbound y } ∧
        asksNext t c := by
      have standing : ∀ h, w.standsBehind i h = false := by
        refine not_standsBehind hwr rfl ?_ ?_
        · rw [hy]; rcases hx with hx | hx <;> rw [hx] <;> decide
        · rw [hy]; rcases hx with hx | hx <;> rw [hx] <;> decide
      obtain ⟨n1, n2, n3, n4⟩ := next.of_view (view standing)
      have due_iff : u.textDue r y = true ↔ due c := by rw [textDue_eq_true_iff, mem, hy]
      subst hy
      exact ⟨((slotView_eq_iff.mp (view standing)).1).trans hwr, fun a b d => n1 a b (due_iff.mpr d), n2,
        fun a b d => n3 a b (d.imp_right fun e g => e (due_iff.mp g)), n4⟩
    refine ⟨t, step, h1, h2, h3, how ▸ h4, fun hk => ?_, fun hk => ?_, fun hk => ?_, ?_, ?_, ?_⟩
    · have eq : w = u.requestNext i := hw.trans (recordFrameSent_offer hur hb hk)
      have same : .inbound x = r.body := hb.symm
      have kept := sending x.cursor x rfl (by rw [eq, requestNext_record, hur, same])
        (eq ▸ requestNext_asksNext hur hb hreq)
      rw [same] at kept
      exact kept
    · have eq : w = u.textSent i (f.frame.body.payload.length - 6) := hw.trans (recordFrameSent_text hur hb hk)
      obtain ⟨f1, f2⟩ := textSent_facts hur hb (f.frame.body.payload.length - 6) hreq
      rw [← eq] at f1 f2
      exact sending _ _ rfl f1 f2
    · have eq : w = u.storyClosed i := hw.trans (recordFrameSent_close hur hb hk)
      obtain ⟨f1, f2, f3⟩ := storyClosed_facts hur hb hx hreq
      rw [← eq] at f1 f2 f3
      have standing : ∀ h, w.standsBehind i h = false := not_standsBehind f1 rfl (fun e => (nomatch e)) fun e => (nomatch e)
      obtain ⟨v1, v2⟩ := slotView_eq_iff.mp (view standing)
      obtain ⟨is, hi⟩ : t.newest i := ht ▸ newest_ownHeard_close hk ha f2 standing
      exact ⟨v1.trans f1, by rw [hi]; exact List.getLast?_concat, (hasRequest_congr v2).trans f3⟩
    · exact (heard.mem_eq (by decide)).trans ((sent.mem_eq (by decide)).trans mem)
    · exact (heard.groups_eq (by decide)).trans ((sent.groups_eq (by decide)).trans (by rw [hu]; rfl))
    · exact (heard.rx_eq (by decide)).trans ((sent.rx_eq (by decide)).trans (by rw [hu]; rfl))
  · intro i r x f s h hd ho hrm how hst hk ha hr hb hx
    obtain ⟨u, hu⟩ : ∃ u, u = s.toPart.slotPassed (.record i) := ⟨_, rfl⟩
    have hur : u.record i = some r := by rw [hu]; exact hr
    obtain ⟨w, hw⟩ : ∃ w, w = u.freeRecord i := ⟨_, rfl⟩
    obtain ⟨t, ht⟩ : ∃ t, t = w.ownHeard f.frame := ⟨_, rfl⟩
    have sent : u.recordFrameSent i f.frame = w := (recordFrameSent_withdraw hur hb hk).trans hw.symm
    have step : exec (.ownFrameSpoilSlot false) s = .next { s with toPart := t.serveBus } := by
      rw [exec_ownFrameSpoilSlot h, ownSlot_of_sent hd ho hrm, how, ht, ← sent, hu]
      rfl
    obtain ⟨h1, h2, h3, -⟩ := port_sent (s := s.toPart) i f.frame t (by rw [ht, ← sent, hu])
    obtain ⟨f1, f2, f3, -, f5, f6, f7, f8, f9, f10⟩ := hw ▸ freeRecord_frees hur
    have gone : t.vacant i := by
      have freed : w.vacant i :=
        ⟨f1, by rw [Part.hasRequest] at f5; exact Option.not_isSome_iff_eq_none.mp (Bool.eq_false_iff.mp f5)⟩
      have heard := vacant_of_view freed (recordView_heard _ i)
      rw [ht, ownHeard_eq]
      split
      · exact vacant_spoken (.inl hk) heard
      · exact heard
    have heard : WithdrawHeard w t f.frame.body := ht ▸ withdrawHeard_ownHeard hk ha
    have stores := hw ▸ freeRecord_stores u i
    refine ⟨t, step, h1, h2, h3, gone.1, by rw [Part.hasRequest, gone.2]; rfl, ?_, fun j hj hother => ?_, fun g hl hfs hread => ?_,
      ?_, ?_, ?_, ?_, ?_⟩
    · rw [heard.free, f3, hu]; rfl
    · rw [heard.others j fun g hg => ?_, f2 j hj, hu]
      · rfl
      · rw [standsBehind_congr j g (f2 j hj), hu]
        exact hother g hg
    · rw [heard.register g ?_ hfs hread, f8, stores.now_eq, stores.hearings_eq (by decide), hu]
      · rfl
      · rw [stores.loader_eq, hu]; exact hl
    · rw [heard.mem, f6, hu]; rfl
    · rw [heard.lines, f7, hu]; rfl
    · rw [heard.trackers, f9, hu]; rfl
    · rw [heard.groups, f10, hu]; rfl
    · rw [heard.rx, stores.rx_eq (by decide), hu]; rfl

end Sys2Proof.Machine
end

section
/-! The frame of the head request (09.1 to 09.3): `Obligations.FreePortBeginsHeadRequest`. -/

namespace Sys2Proof.Machine

/-! ### The bytes of a frame (R189, R190) -/

theorem toList_eq_map_get {α : Type} {n : Nat} (v : Vector α n) : v.toList = (List.finRange n).map v.get := by
  refine List.ext_getElem (by simp) fun k h1 h2 => ?_
  simp [Vector.get_eq_getElem]

theorem flagByte_cons (b : Bool) (bs : List Bool) : flagByte (b :: bs) = Nat.bit b (flagByte bs) := by
  rw [flagByte, Nat.bit_val, Nat.add_comm]
  cases b <;> rfl

theorem testBit_flagByte (bs : List Bool) (k : Nat) : (flagByte bs).testBit k = bs.getD k false := by
  induction bs generalizing k with
  | nil => simp [flagByte]
  | cons b bs ih =>
    rw [flagByte_cons]
    cases k with
    | zero => rw [Nat.testBit_bit_zero]; rfl
    | succ k => rw [Nat.testBit_bit_succ, ih]; rfl

/-- The record mask of a report names the fault records there are. -/
theorem getLsbD_mask (v : Vector (Option FaultRecord) 8) (k : Fin 8) :
    (byteOf (flagByte (v.toList.map Option.isSome))).getLsbD k.val = (v.get k).isSome := by
  rw [byteOf, BitVec.getLsbD_ofNat, testBit_flagByte, toList_eq_map_get, List.map_map, List.getD_eq_getElem?_getD,
    List.getElem?_map]
  simp

theorem filterMap_toList {α : Type} {n : Nat} (v : Vector (Option α) n) :
    v.toList.filterMap id = (List.finRange n).filterMap fun k => v.get k := by
  rw [toList_eq_map_get, List.filterMap_map]
  rfl

theorem storySubject_eq (n : Nat) (i : Slot) : storySubject n i = [0, BitVec.ofNat 8 n, 0, BitVec.ofNat 8 i.val] := by
  have high : i.val / 256 = 0 := Nat.div_eq_of_lt (by omega)
  rw [storySubject, be16, high]
  rfl

theorem offerFlags_eq (x : InRecord) : offerFlags x = if x.state = .rerunning then 4
    else (if x.quiet then 1 else 0) + (if x.takeover then 2 else 0) + (if x.rerun then 4 else 0) := by
  unfold offerFlags
  split
  · rfl
  · cases x.quiet <;> cases x.takeover <;> cases x.rerun <;> rfl

theorem flagByte_six : ∀ a b c d e f : Bool, flagByte [a, b, c, d, e, f] = (if a then 1 else 0) + (if b then 2 else 0) +
    (if c then 4 else 0) + (if d then 8 else 0) + (if e then 16 else 0) + (if f then 32 else 0) := by decide

theorem closeFlags_eq (x : InRecord) : closeFlags x = (if x.truncated then 1 else 0) + (if x.overrun then 2 else 0) +
    (if x.headingFault then 4 else 0) + (if x.quiet ∧ x.state ≠ .rerunning then 8 else 0) +
    (if x.takeover then 16 else 0) + (if x.rerun ∨ x.state = .rerunning then 32 else 0) := by
  unfold closeFlags
  by_cases h : x.state = .rerunning
  · simp [h, flagByte_six]
  · simp [h, flagByte_six]

theorem reportFlags_eq (y : Supervision) : flagByte [y.unreported, y.query, y.query && y.clear] =
    (if y.unreported then 1 else 0) + (if y.query then 2 else 0) + (if y.query ∧ y.clear then 4 else 0) := by
  cases y.unreported <;> cases y.query <;> cases y.clear <;> rfl

theorem outcomeByte_eq (e : SendOutcome) : outcomeByte (some e) = if e = .sent then 1 else 2 := by
  cases e <;> rfl

/-! ### The frame begun (R178, R182, R206) -/

section
variable {s : Part} {q : Request}

theorem maySend_iff : s.maySend = true ↔ (s.loader = .running ∨ s.loader = .configFault) ∧ s.port.state = .free ∧
    s.stationCond .busSilent = false := by
  simp [Part.maySend, and_assoc]

theorem head_eq (h : (s.port.sticky = none ∧ s.port.sendList.head? = some q) ∨
    ∃ o, s.port.sticky = some o ∧ s.requestOf o = some q) : s.port.head = some q := by
  rcases h with ⟨hs, hh⟩ | ⟨o, hs, hq⟩
  · rw [Port.head, hs]
    exact hh
  · have found : (s.port.sendList.find? fun r => r.owner == o) = some q := hq
    rw [Port.head, hs, Option.bind_some, found]

theorem serveBus_of_request (hm : s.maySend = true) (hq : s.port.head = some q) : s.serveBus = s.beginFrame q := by
  rw [Part.serveBus, if_pos hm, hq]

theorem serveBus_idle (h : s.maySend = false ∨ s.port.sendList = []) : s.serveBus = s := by
  rw [Part.serveBus]
  split
  · next hm =>
    have none : s.port.head = none := by
      have empty := h.resolve_left (by rw [hm]; decide)
      rw [Port.head, empty]
      cases s.port.sticky <;> rfl
    rw [none]
  · rfl

theorem beginFrame_port : (s.beginFrame q).port = { s.port with
    state := .contending
    own := some { owner := q.owner, frame := s.frameOf q, began := s.now, removed := false } } := by
  unfold Part.beginFrame Part.ownerBegins
  split <;> rfl

theorem beginFrame_rest : { s.beginFrame q with lines := s.lines, port := s.port } = s := by
  unfold Part.beginFrame Part.ownerBegins
  split <;> rfl

theorem beginFrame_line {l : LineNo} (h : q.owner ≠ .report l) : (s.beginFrame q).line l = s.line l := by
  unfold Part.beginFrame Part.ownerBegins
  split
  · next m e =>
    have hne : l ≠ m := fun hlm => h (by rw [e, hlm])
    exact line_updSup_ne (s.updPort _) _ _ _ hne
  · rfl

/-- The start bit of a report clears the changed marks of the records it includes (R206). -/
theorem beginFrame_faults {l : LineNo} (h : q.owner = .report l) (hq : (s.line l).sup.query = true) {k : Fin 8}
    {r : FaultRecord} (hr : (s.line l).sup.faults.get k = some r) :
    ((s.beginFrame q).line l).sup.faults.get k = some { r with changed := false } := by
  have begun : ((s.beginFrame q).line l).sup = (s.line l).sup.reportBegun := by
    rw [Part.beginFrame, h]
    exact sup_updSup (s.updPort _) l _
  have cleared : (clearMarks (s.line l).sup.faults).get k = some { r with changed := false } := by
    rw [clearMarks, Vector.get_eq_getElem, Vector.getElem_map, ← Vector.get_eq_getElem, hr]
    rfl
  rw [begun, Supervision.reportBegun, hq]
  exact cleared

end

/-! ### The payload, by the owner (R189, R190) -/

section
variable {s : Part} {q : Request} {i : Slot} {r : Record} {x : InRecord} {y : OutRecord}

section
variable (ho : q.owner = .record i) (hr : s.record i = some r)
include ho hr

theorem payload_text (hb : r.body = .inbound x) (hk : q.kind = .text) : s.payload q =
    [0, BitVec.ofNat 8 s.number, 0, BitVec.ofNat 8 i.val] ++ be16 x.cursor ++
      (List.range (min 64 (r.count - x.cursor))).map fun k => s.mem.read (entryAddr r.blocks (x.cursor + k)) := by
  simp only [Part.payload, ho, hr, hb, hk, Part.textPayload, storySubject_eq]
  rfl

theorem payload_offer (hb : r.body = .inbound x) (hk : q.kind = .offer) : s.payload q = offerPayload i r x := by
  simp only [Part.payload, ho, hr, hb, hk]

theorem payload_story_close (hb : r.body = .inbound x) (hk : q.kind = .close) :
    s.payload q = storyClosePayload s.number i r x := by
  simp only [Part.payload, ho, hr, hb, hk]

theorem payload_story_withdraw (hb : r.body = .inbound x) (hk : q.kind = .withdraw) :
    s.payload q = storySubject s.number i := by
  simp only [Part.payload, ho, hr, hb, hk]

theorem payload_claim (hb : r.body = .outbound y) (hk : q.kind = .claim) : s.payload q = claimPayload r y := by
  simp only [Part.payload, ho, hr, hb, hk]

theorem payload_call_close (hb : r.body = .outbound y) (hk : q.kind = .close) : s.payload q = callClosePayload y := by
  simp only [Part.payload, ho, hr, hb, hk]

theorem payload_call_withdraw (hb : r.body = .outbound y) (hk : q.kind = .withdraw) :
    s.payload q = callSubject y.caller y.call := by
  simp only [Part.payload, ho, hr, hb, hk]

end

theorem faultBytes_eq (r : FaultRecord) : faultBytes r = be16 ((match r.fields.handle with
      | some h => 32768 + 1024 * h.station + 16 * h.slot
      | none => 0) + (if r.fields.serial.isSome then 8 else 0) + (if r.fields.raw.isSome then 4 else 0) +
      r.fields.plane.val) ++ be16 (r.fields.serial.getD 0) ++ be16 r.fields.offset ++
      [BitVec.ofNat 8 ((r.fields.raw.map BitVec.toNat).getD 0), BitVec.ofNat 8 r.count] := by
  rw [faultBytes]
  cases r.fields.handle with
  | none => rfl
  | some h =>
    dsimp only
    rw [Nat.mul_comm 1024, Nat.mul_comm 16]
    rfl

end

/-- Settles O39: the head request's frame, by its owner. -/
theorem freePortBeginsHeadRequest : Obligations.FreePortBeginsHeadRequest := by
  unfold Obligations.FreePortBeginsHeadRequest
  refine fun s => ⟨maySend_iff, serveBus_idle, fun q hm hq => ?_⟩
  rw [serveBus_of_request hm (head_eq hq)]
  refine ⟨s.frameOf q, beginFrame_port, rfl, rfl, rfl, rfl, fun i r x ho hk hr hb => payload_text ho hr hb hk,
    fun i r x ho hr hb => ⟨fun hk => ?_, fun hk => ?_, fun hk => ?_⟩,
    fun i r y ho hr hb => ⟨fun c l hk hc hl => ?_, fun e hk he => ?_, fun hk => ?_⟩, fun ho => ?_, fun l ho => ?_,
    fun l ho => ?_, fun l ho hquery k r hr => beginFrame_faults ho hquery hr, fun l hne => beginFrame_line hne,
    beginFrame_rest⟩
  · show s.payload q = _
    rw [payload_offer ho hr hb hk, offerPayload, offerFlags_eq]
    simp [byteOf]
  · show s.payload q = _
    rw [payload_story_close ho hr hb hk, storyClosePayload, storySubject_eq, closeFlags_eq]
    rfl
  · show s.payload q = _
    rw [payload_story_withdraw ho hr hb hk, storySubject_eq]
  · show s.payload q = _
    rw [payload_claim ho hr hb hk, claimPayload, hl, hc]
    rfl
  · show s.payload q = _
    rw [payload_call_close ho hr hb hk, callClosePayload, he, outcomeByte_eq]
    cases e <;> rfl
  · show s.payload q = _
    rw [payload_call_withdraw ho hr hb hk]
    rfl
  · show s.payload q = _
    simp only [Part.payload, ho]
    rfl
  · have payload : s.payload q = reportPayload (s.cfg l).counted (s.line l).sup := by simp only [Part.payload, ho]
    intro y head bytes
    have front : [2, byteOf (s.cfg l).counted.val, byteOf (flagByte [y.unreported, y.query, y.query && y.clear])] ++
        be16 (if y.unreported then y.snapshot else 0) = head := by rw [reportFlags_eq]; rfl
    have same : faultBytes = bytes := funext faultBytes_eq
    refine ⟨fun hquery => ?_, fun hquery => ⟨byteOf (flagByte (y.faults.toList.map Option.isSome)), getLsbD_mask _, ?_⟩⟩
    · show s.payload q = _
      rw [payload, reportPayload, front, hquery]
      rfl
    · show s.payload q = _
      rw [payload, reportPayload, front, hquery, filterMap_toList, same]
      rfl
  · show s.payload q = _
    simp only [Part.payload, ho]
    rfl

end Sys2Proof.Machine
end

section
/-! The checks of a configuration image (11.2): `Obligations.ImageCheckedAsAWhole`. -/

namespace Sys2Proof.Machine

/-! ### The first check that fails (R211) -/

theorem firstFailure_append (cs ds : List (Nat × Bool)) : firstFailure (cs ++ ds) =
    if ∀ c ∈ cs, c.2 = true then firstFailure ds else firstFailure cs := by
  induction cs with
  | nil => rw [if_pos fun c h => absurd h List.not_mem_nil]; rfl
  | cons c cs ih =>
    rw [List.cons_append, firstFailure, firstFailure]
    by_cases hc : c.2 = true
    · simp only [hc, if_true, ih, List.forall_mem_cons, true_and]
    · rw [if_neg hc, if_neg hc, if_neg]
      exact fun h => hc (h c List.mem_cons_self)

theorem firstFailure_of_all {cs : List (Nat × Bool)} (h : ∀ c ∈ cs, c.2 = true) : firstFailure cs = 0 := by
  induction cs with
  | nil => rfl
  | cons c cs ih =>
    rw [firstFailure, if_pos (h c List.mem_cons_self)]
    exact ih fun d hd => h d (List.mem_cons_of_mem _ hd)

/-- A check that fails is among those that give the reason. -/
theorem exists_firstFailure {cs : List (Nat × Bool)} (h : ∃ c ∈ cs, c.2 = false) :
    ∃ c ∈ cs, c.2 = false ∧ firstFailure cs = c.1 := by
  induction cs with
  | nil =>
    obtain ⟨c, hc, -⟩ := h
    exact absurd hc List.not_mem_nil
  | cons c cs ih =>
    by_cases hc : c.2 = true
    · obtain ⟨d, hd, hf⟩ := h
      have later : d ∈ cs := by
        rcases List.mem_cons.mp hd with rfl | hd
        · rw [hc] at hf; cases hf
        · exact hd
      obtain ⟨e, he, h1, h2⟩ := ih ⟨d, later, hf⟩
      exact ⟨e, List.mem_cons_of_mem _ he, h1, by rw [firstFailure, if_pos hc, h2]⟩
    · exact ⟨c, List.mem_cons_self, by simpa using hc, by rw [firstFailure, if_neg hc]⟩

theorem exists_of_firstFailure_ne_zero {cs : List (Nat × Bool)} (h : firstFailure cs ≠ 0) :
    ∃ c ∈ cs, c.2 = false ∧ c.1 = firstFailure cs := by
  by_cases hall : ∀ c ∈ cs, c.2 = true
  · exact absurd (firstFailure_of_all hall) h
  · have fails : ∃ c ∈ cs, c.2 = false := by
      by_contra hn
      exact hall fun c hc => by
        rw [← Bool.not_eq_false]
        exact fun hf => hn ⟨c, hc, hf⟩
    obtain ⟨c, hc, h1, h2⟩ := exists_firstFailure fails
    exact ⟨c, hc, h1, h2.symm⟩

/-- The reason is that of a check no later than one that fails. -/
theorem firstFailure_of_fails {cs : List (Nat × Bool)} (ds : List (Nat × Bool)) (h : ∃ c ∈ cs, c.2 = false) :
    ∃ c ∈ cs, c.2 = false ∧ firstFailure (cs ++ ds) = c.1 := by
  obtain ⟨c, hc, hf⟩ := h
  rw [firstFailure_append, if_neg]
  · exact exists_firstFailure ⟨c, hc, hf⟩
  · exact fun hall => Bool.false_ne_true (hf.symm.trans (hall c hc))

/-! ### The bytes of an image (11.2) -/

section
variable {b : List Byte} {j k n : Nat}

theorem byteAt_part' (h : k < n) : byteAt (part' b j n) k = byteAt b (j + k) := by
  rw [byteAt, byteAt, part', List.getD_eq_getElem?_getD, List.getD_eq_getElem?_getD, List.getElem?_take_of_lt h,
    List.getElem?_drop]

theorem length_readImage (image : List Byte) (n : Nat) : (readImage image n).length = n := by
  rw [readImage, List.length_take, List.length_append, List.length_replicate]
  omega

/-- Bytes that the memory does not answer read as 255. -/
theorem byteAt_readImage {image : List Byte} (h : k < n) : byteAt (readImage image n) k = (image.getD k 255).toNat := by
  rw [byteAt, readImage, List.getD_eq_getElem?_getD, List.getElem?_take_of_lt h, List.getD_eq_getElem?_getD]
  by_cases hk : k < image.length
  · rw [List.getElem?_append_left hk]
  · have hk' : image.length ≤ k := Nat.le_of_not_lt hk
    rw [List.getElem?_append_right hk', List.getElem?_replicate, List.getElem?_eq_none hk', if_pos (by omega)]
    rfl

end

end Sys2Proof.Machine
end

section
/-! What the checks of an image say of its bytes (11.2). -/

namespace Sys2Proof.Machine

/-! ### The sum (R210) -/

theorem foldl_toNat (b : List Byte) (n : Nat) : b.foldl (fun n x => n + x.toNat) n = n + (b.map BitVec.toNat).sum := by
  induction b generalizing n with
  | nil => rfl
  | cons x b ih => rw [List.foldl_cons, ih, List.map_cons, List.sum_cons, Nat.add_assoc]

theorem map_byteAt_range (b : List Byte) : (List.range b.length).map (byteAt b) = b.map BitVec.toNat := by
  refine List.ext_getElem (by simp) fun k h1 h2 => ?_
  have hk : k < b.length := by simpa using h1
  simp [byteAt, hk]

/-- The sum of an image's bytes, the two sum bytes excepted. -/
theorem imageSum_eq {b : List Byte} (h : 4 ≤ b.length) : imageSum b =
    ((List.range b.length).map fun k => if k = 2 ∨ k = 3 then 0 else byteAt b k).sum % 65536 := by
  match b, h with
  | w :: x :: y :: z :: rest, _ =>
    have tail : (List.range rest.length).map ((fun k => if k = 2 ∨ k = 3 then 0 else
        byteAt (w :: x :: y :: z :: rest) k) ∘ (4 + ·)) = rest.map BitVec.toNat := by
      rw [← map_byteAt_range]
      refine List.map_congr_left fun k _ => ?_
      show (if 4 + k = 2 ∨ 4 + k = 3 then 0 else byteAt (w :: x :: y :: z :: rest) (4 + k)) = _
      rw [if_neg (by omega), Nat.add_comm]
      rfl
    have len : (w :: x :: y :: z :: rest).length = 4 + rest.length := by simp only [List.length_cons]; omega
    rw [imageSum, foldl_toNat, len, List.range_add, List.map_append, List.sum_append, List.map_append,
      List.sum_append, List.map_map]
    rw [tail]
    simp [List.range_succ, byteAt]

/-! ### Checks by their bytes -/

section
variable {b : List Byte} {l : Nat}

/-- Byte `k` of the record of line `l`. -/
def field (b : List Byte) (l k : Nat) : Nat := byteAt b (10 + 90 * l + k)

theorem byteAt_lineRecord {k : Nat} (h : k < 90) : byteAt (lineRecord b l) k = field b l k := byteAt_part' h

theorem modeOf_eq_unused_iff {n : Nat} (h : n ≤ 3) : modeOf n = .unused ↔ n = 0 := by
  interval_cases n <;> simp [modeOf]

theorem modeOf_zero : modeOf 0 = .unused := rfl

/-- Row 5 of line `l`. -/
theorem timingOk_iff : timingOk (lineRecord b l) (lineSettings (lineRecord b l)) = true ↔ field b l 0 ≤ 3 ∧
    (field b l 0 ≠ 0 → 5000 ≤ field b l 1 * 256 + field b l 2 ∧ field b l 1 * 256 + field b l 2 ≤ 25000 ∧
      2 ≤ field b l 3 ∧ field b l 3 ≤ 4) := by
  have mode : (lineSettings (lineRecord b l)).mode = modeOf (field b l 0) := by
    rw [← byteAt_lineRecord (by decide)]; rfl
  have u : (lineSettings (lineRecord b l)).u = field b l 1 * 256 + field b l 2 := by
    rw [← byteAt_lineRecord (by decide), ← byteAt_lineRecord (by decide)]; rfl
  have stop : (lineSettings (lineRecord b l)).stop = field b l 3 := byteAt_lineRecord (by decide)
  rw [timingOk, mode, u, stop, byteAt_lineRecord (by decide), Bool.and_eq_true, decide_eq_true_eq]
  refine and_congr_right fun h => ?_
  simp only [Bool.or_eq_true, beq_iff_eq, modeOf_eq_unused_iff h, Bool.and_eq_true, decide_eq_true_eq]
  omega

/-- Row 6 of line `l`. -/
theorem lineOk_iff (m : Nat) : lineOk m (lineRecord b l) (lineSettings (lineRecord b l)) = true ↔
    field b l 4 ≤ 15 ∧ field b l 7 < m ∧ field b l 8 ≤ 7 ∧ 20 ≤ field b l 9 ∧ field b l 9 ≤ 80 ∧
      field b l 10 ≤ 15 ∧ field b l 10 < field b l 9 ∧ field b l 12 ≤ 1 ∧ field b l 79 ≤ 1 ∧ field b l 81 ≤ 1 := by
  have service : (lineSettings (lineRecord b l)).service = field b l 4 := byteAt_lineRecord (by decide)
  have map : (lineSettings (lineRecord b l)).map = field b l 7 := byteAt_lineRecord (by decide)
  have profile : (lineSettings (lineRecord b l)).profile = field b l 8 := byteAt_lineRecord (by decide)
  have width : (lineSettings (lineRecord b l)).width = field b l 9 := byteAt_lineRecord (by decide)
  have fold : (lineSettings (lineRecord b l)).fold = field b l 10 := byteAt_lineRecord (by decide)
  rw [lineOk, service, map, profile, width, fold, byteAt_lineRecord (by decide), byteAt_lineRecord (by decide),
    byteAt_lineRecord (by decide)]
  simp only [Bool.and_eq_true, decide_eq_true_eq]
  omega

/-- Row 9 of line `l`, the loop characters apart. -/
theorem supervisionOk_bytes (h : supervisionOk (lineRecord b l) (lineSettings (lineRecord b l)) = true) :
    8 ≤ field b l 83 ∧ field b l 84 ≤ 3 ∧ field b l 85 ≤ 1 := by
  have loopN : (lineSettings (lineRecord b l)).loopN = field b l 83 := byteAt_lineRecord (by decide)
  rw [supervisionOk, loopN, byteAt_lineRecord (by decide), byteAt_lineRecord (by decide)] at h
  simp only [Bool.and_eq_true, decide_eq_true_eq] at h
  obtain ⟨⟨⟨h1, -⟩, h2⟩, h3⟩ := h
  exact ⟨h1, h2, h3⟩

theorem unused_of_field (h : field b l 0 = 0) : (lineSettings (lineRecord b l)).mode = .unused := by
  have mode : (lineSettings (lineRecord b l)).mode = modeOf (byteAt (lineRecord b l) 0) := rfl
  rw [mode, byteAt_lineRecord (by decide), h, modeOf_zero]

theorem used_of_field (h : field b l 0 ≤ 3) (h0 : field b l 0 ≠ 0) : (lineSettings (lineRecord b l)).mode ≠ .unused := by
  have mode : (lineSettings (lineRecord b l)).mode = modeOf (byteAt (lineRecord b l) 0) := rfl
  rw [mode, byteAt_lineRecord (by decide), Ne, modeOf_eq_unused_iff h]
  exact h0

/-- Row 11. -/
theorem admissionOk_iff (h : 858 + 196 * mapCount b ≤ b.length) :
    (admissionBytes b).all (fun x => decide (x.toNat ≤ 3)) = true ↔
      ∀ k < 128, byteAt b (730 + 196 * mapCount b + k) ≤ 3 := by
  have len : (admissionBytes b).length = 128 := by
    rw [admissionBytes, part', List.length_take, List.length_drop]; omega
  rw [List.all_eq_true]
  constructor
  · intro hall k hk
    have mem : (admissionBytes b)[k]'(by omega) ∈ admissionBytes b := List.getElem_mem _
    have ok := of_decide_eq_true (hall _ mem)
    have at_ : byteAt (admissionBytes b) k = ((admissionBytes b)[k]'(by omega)).toNat := by
      rw [byteAt, List.getD_eq_getElem _ _ (by omega)]
    rw [← byteAt_part' hk]
    exact at_ ▸ ok
  · intro hall x hx
    obtain ⟨k, hk, rfl⟩ := List.getElem_of_mem hx
    have ok := hall k (by omega)
    rw [← byteAt_part' (n := 128) (by omega)] at ok
    have at_ : byteAt (admissionBytes b) k = ((admissionBytes b)[k]'hk).toNat := by
      rw [byteAt, List.getD_eq_getElem _ _ hk]
    exact decide_eq_true (at_ ▸ ok)

/-- Row 12 of range `k`. -/
theorem rangeOk_iff (k : Nat) :
    let at' := fun j => byteAt b (858 + 196 * mapCount b + 5 * k + j)
    let size := at' 2 * 256 + at' 3
    rangeOk (rangeBytes b k) = true ↔ at' 4 ≤ 2 ∧ (∃ e ≤ 12, size = 2 ^ e) ∧ (at' 0 * 256 + at' 1) % size = 0 := by
  intro at' size
  have bytes (j : Nat) (hj : j < 5) : byteAt (rangeBytes b k) j = at' j := byteAt_part' hj
  have words (j : Nat) (hj : j + 1 < 5) : wordAt (rangeBytes b k) j = at' j * 256 + at' (j + 1) := by
    rw [wordAt, bytes j (by omega), bytes (j + 1) hj]
  have powers : ((List.range 13).any fun k => size == 2 ^ k) = true ↔ ∃ e ≤ 12, size = 2 ^ e := by
    simp only [List.any_eq_true, List.mem_range, beq_iff_eq]
    exact exists_congr fun e => and_congr_left fun _ => Nat.lt_succ_iff
  rw [rangeOk, words 2 (by decide), words 0 (by decide), bytes 4 (by decide)]
  simp only [Bool.and_eq_true, decide_eq_true_eq, and_assoc]
  exact and_congr_right fun _ => and_congr_left fun _ => powers

end

end Sys2Proof.Machine
end

section
/-! `Obligations.ImageCheckedAsAWhole`, by the rows of the value checks. -/

namespace Sys2Proof.Machine

/-! ### The rows (R211) -/

/-- The station's own row. -/
def stationOk (b : List Byte) : Bool := (decide (byteAt b 4 ≤ 31) || byteAt b 4 == 255) && decide (byteAt b 7 ≤ 2)

/-- The actions' row. -/
def actionsOk (b : List Byte) : Bool := (admissionBytes b).all fun x => decide (x.toNat ≤ 3)

/-- The settings of line `l` in an image. -/
def settingsAt (b : List Byte) (l : Nat) : LineSettings := lineSettings (lineRecord b l)

/-- The rows of the value checks. -/
inductive Row (b : List Byte) : Nat × Bool → Prop
  | station : Row b (79, stationOk b)
  | timing (l : Nat) : l < 8 → Row b (80 + l, timingOk (lineRecord b l) (settingsAt b l))
  | line (l : Nat) : l < 8 →
      Row b (96 + l, (settingsAt b l).mode == .unused || lineOk (mapCount b) (lineRecord b l) (settingsAt b l))
  | signal (l : Nat) (ok : Bool) : l < 8 → Row b (112 + l, ok)
  | text (l : Nat) (ok : Bool) : l < 8 → Row b (128 + l, ok)
  | supervision (l : Nat) : l < 8 →
      Row b (144 + l, (settingsAt b l).mode == .unused || supervisionOk (lineRecord b l) (settingsAt b l))
  | map (i : Nat) (ok : Bool) : i < mapCount b → Row b (168 + i, ok)
  | actions : Row b (191, actionsOk b)
  | range (k : Nat) : k < rangeCount b → Row b (207, rangeOk (rangeBytes b k))

section
variable {b : List Byte} {c : Nat × Bool} {l : Nat}

/-- The rows that come before the ranges. -/
def leadingChecks (b : List Byte) : List (Nat × Bool) :=
  [(79, stationOk b)] ++ (List.range 8).flatMap (lineChecks b) ++ (List.range (mapCount b)).map (mapCheck b) ++
    [(191, actionsOk b)]

theorem valueChecks_eq (b : List Byte) : valueChecks b =
    leadingChecks b ++ (List.range (rangeCount b)).map fun k => (207, rangeOk (rangeBytes b k)) := rfl

theorem row_of_mem_lineChecks (hl : l < 8) (h : c ∈ lineChecks b l) : Row b c := by
  simp only [lineChecks, List.mem_cons, List.not_mem_nil, or_false, Bool.not_not] at h
  rcases h with rfl | rfl | rfl | rfl | rfl
  · exact .timing l hl
  · exact .line l hl
  · exact .signal l _ hl
  · exact .text l _ hl
  · exact .supervision l hl

theorem row_of_mem_leadingChecks (h : c ∈ leadingChecks b) : Row b c := by
  simp only [leadingChecks, List.mem_append, List.mem_flatMap, List.mem_map, List.mem_range, List.mem_singleton] at h
  rcases h with ((rfl | ⟨l, hl, h⟩) | ⟨i, hi, rfl⟩) | rfl
  · exact .station
  · exact row_of_mem_lineChecks hl h
  · exact .map i _ hi
  · exact .actions

theorem row_of_mem (h : c ∈ valueChecks b) : Row b c := by
  rw [valueChecks_eq, List.mem_append] at h
  rcases h with h | h
  · exact row_of_mem_leadingChecks h
  · obtain ⟨k, hk, rfl⟩ := List.mem_map.mp h
    exact .range k (List.mem_range.mp hk)

theorem mem_leadingChecks_of_line (hl : l < 8) (h : c ∈ lineChecks b l) : c ∈ leadingChecks b := by
  simp only [leadingChecks, List.mem_append, List.mem_flatMap, List.mem_range]
  exact .inl (.inl (.inr ⟨l, hl, h⟩))

theorem mem_leadingChecks_actions : (191, actionsOk b) ∈ leadingChecks b :=
  List.mem_append_right _ (List.mem_singleton_self _)

theorem Row.pos (h : Row b c) : c.1 ≠ 0 := by
  cases h <;> simp

/-- No row before the ranges has a reason above 191. -/
theorem reason_of_mem_leadingChecks (hm : mapCount b ≤ 4) (h : c ∈ leadingChecks b) : c.1 ≠ 0 ∧ c.1 ≤ 191 := by
  refine ⟨(row_of_mem_leadingChecks h).pos, ?_⟩
  simp only [leadingChecks, List.mem_append, List.mem_flatMap, List.mem_map, List.mem_range, List.mem_singleton] at h
  rcases h with ((rfl | ⟨l, hl, h⟩) | ⟨i, hi, rfl⟩) | rfl
  · exact Nat.le_of_ble_eq_true rfl
  · simp only [lineChecks, List.mem_cons, List.not_mem_nil, or_false] at h
    rcases h with rfl | rfl | rfl | rfl | rfl <;> dsimp only <;> omega
  · show 168 + i ≤ 191
    omega
  · exact Nat.le_refl _

/-- With every check met nothing fails. -/
theorem all_of_firstFailure_eq_zero (h : firstFailure (valueChecks b) = 0) (hc : c ∈ valueChecks b) : c.2 = true := by
  by_contra hf
  obtain ⟨d, hd, -, e⟩ := exists_firstFailure ⟨c, hc, by simpa using hf⟩
  exact (row_of_mem hd).pos (e.symm.trans h)

/-- A check that fails gives its reason or an earlier one. -/
theorem firstFailure_ne_zero (hc : c ∈ valueChecks b) (hf : c.2 = false) : firstFailure (valueChecks b) ≠ 0 := by
  intro h
  have ok := all_of_firstFailure_eq_zero h hc
  rw [hf] at ok
  cases ok

/-- The reason given is that of a row that fails. -/
theorem exists_row (h : firstFailure (valueChecks b) ≠ 0) :
    ∃ ok, ok = false ∧ Row b (firstFailure (valueChecks b), ok) := by
  obtain ⟨c, hc, hf, e⟩ := exists_of_firstFailure_ne_zero h
  exact ⟨c.2, hf, e ▸ row_of_mem hc⟩

end

/-! ### The reasons (R211) -/

section
variable {b : List Byte} {n : Nat} {ok : Bool}

theorem stationOk_iff : stationOk b = true ↔ (byteAt b 4 ≤ 31 ∨ byteAt b 4 = 255) ∧ byteAt b 7 ≤ 2 := by
  simp [stationOk]

/-- What the reason says of the check that failed; of the signals, the texts and the maps only that it is theirs. -/
theorem reason_cases (h : firstFailure (valueChecks b) = n) (h0 : n ≠ 0) :
    (n = 79 ∧ stationOk b = false) ∨
    (∃ l < 8, n = 80 + l ∧ timingOk (lineRecord b l) (settingsAt b l) = false) ∨
    (∃ l < 8, n = 96 + l ∧
      ((settingsAt b l).mode == .unused || lineOk (mapCount b) (lineRecord b l) (settingsAt b l)) = false) ∨
    (∃ l < 8, n = 112 + l ∨ n = 128 + l ∨ n = 144 + l) ∨ (∃ i < mapCount b, n = 168 + i) ∨
    (n = 191 ∧ actionsOk b = false) ∨ ∃ k < rangeCount b, n = 207 ∧ rangeOk (rangeBytes b k) = false := by
  subst h
  obtain ⟨ok, hf, row⟩ := exists_row h0
  generalize hc : (firstFailure (valueChecks b), ok) = c at row
  obtain ⟨hn, hok⟩ : firstFailure (valueChecks b) = c.1 ∧ c.2 = false := by
    rw [← hc]; exact ⟨rfl, hf⟩
  rw [hn]
  cases row with
  | station => exact .inl ⟨rfl, hok⟩
  | timing l hl => exact .inr (.inl ⟨l, hl, rfl, hok⟩)
  | line l hl => exact .inr (.inr (.inl ⟨l, hl, rfl, hok⟩))
  | signal l _ hl => exact .inr (.inr (.inr (.inl ⟨l, hl, .inl rfl⟩)))
  | text l _ hl => exact .inr (.inr (.inr (.inl ⟨l, hl, .inr (.inl rfl)⟩)))
  | supervision l hl => exact .inr (.inr (.inr (.inl ⟨l, hl, .inr (.inr rfl)⟩)))
  | map i _ hi => exact .inr (.inr (.inr (.inr (.inl ⟨i, hi, rfl⟩))))
  | actions => exact .inr (.inr (.inr (.inr (.inr (.inl ⟨rfl, hok⟩)))))
  | range k hk => exact .inr (.inr (.inr (.inr (.inr (.inr ⟨k, hk, rfl, hok⟩)))))

section
variable (h : firstFailure (valueChecks b) = n)
include h

theorem reason_79_iff : n = 79 ↔ stationOk b = false := by
  constructor
  · intro e
    rcases reason_cases h (by omega) with ⟨-, hf⟩ | ⟨l, hl, e', -⟩ | ⟨l, hl, e', -⟩ | ⟨l, hl, e'⟩ | ⟨i, hi, e'⟩ | ⟨e', -⟩ |
      ⟨k, -, e', -⟩
    · exact hf
    all_goals omega
  · intro hf
    have first : firstFailure (valueChecks b) = 79 := by
      show firstFailure ((79, stationOk b) :: _) = 79
      rw [firstFailure, hf]
      rfl
    exact h.symm.trans first

theorem timing_of_reason {l : Nat} (hl : l < 8) (e : n = 80 + l) : timingOk (lineRecord b l) (settingsAt b l) = false := by
  rcases reason_cases h (by omega) with ⟨e', -⟩ | ⟨m, hm, e', hf⟩ | ⟨m, hm, e', -⟩ | ⟨m, hm, e'⟩ | ⟨i, hi, e'⟩ | ⟨e', -⟩ |
    ⟨k, -, e', -⟩
  case inr.inl =>
    obtain rfl : l = m := by omega
    exact hf
  all_goals omega

theorem line_of_reason {l : Nat} (hl : l < 8) (e : n = 96 + l) :
    ((settingsAt b l).mode == .unused || lineOk (mapCount b) (lineRecord b l) (settingsAt b l)) = false := by
  rcases reason_cases h (by omega) with ⟨e', -⟩ | ⟨m, hm, e', -⟩ | ⟨m, hm, e', hf⟩ | ⟨m, hm, e'⟩ | ⟨i, hi, e'⟩ | ⟨e', -⟩ |
    ⟨k, -, e', -⟩
  case inr.inr.inl =>
    obtain rfl : l = m := by omega
    exact hf
  all_goals omega

variable (hm : mapCount b ≤ 4)
include hm

theorem actions_of_reason (e : n = 191) : actionsOk b = false := by
  rcases reason_cases h (by omega) with ⟨e', -⟩ | ⟨m, hm, e', -⟩ | ⟨m, hm, e', -⟩ | ⟨m, hm, e'⟩ | ⟨i, hi, e'⟩ | ⟨-, hf⟩ |
    ⟨k, -, e', -⟩
  case inr.inr.inr.inr.inr.inl => exact hf
  all_goals omega

theorem range_of_reason (e : n = 207) : ∃ k < rangeCount b, rangeOk (rangeBytes b k) = false := by
  rcases reason_cases h (by omega) with ⟨e', -⟩ | ⟨m, hm, e', -⟩ | ⟨m, hm, e', -⟩ | ⟨m, hm, e'⟩ | ⟨i, hi, e'⟩ | ⟨e', -⟩ |
    ⟨k, hk, -, hf⟩
  case inr.inr.inr.inr.inr.inr => exact ⟨k, hk, hf⟩
  all_goals omega

/-- An action out of range lets no image pass. -/
theorem reason_of_actions (hf : actionsOk b = false) : n ≠ 0 ∧ n ≤ 191 := by
  obtain ⟨c, hc, -, e⟩ := firstFailure_of_fails ((List.range (rangeCount b)).map fun k => (207, rangeOk (rangeBytes b k)))
    ⟨_, mem_leadingChecks_actions, hf⟩
  rw [← h, valueChecks_eq, e]
  exact reason_of_mem_leadingChecks hm hc

/-- Nor does a range out of form. -/
theorem reason_of_range {k : Nat} (hk : k < rangeCount b) (hf : rangeOk (rangeBytes b k) = false) :
    n = 207 ∨ (n ≠ 0 ∧ n ≤ 191) := by
  have h0 : n ≠ 0 := by
    rw [← h]
    refine firstFailure_ne_zero (c := (207, rangeOk (rangeBytes b k))) ?_ hf
    rw [valueChecks_eq]
    exact List.mem_append_right _ (List.mem_map.mpr ⟨k, List.mem_range.mpr hk, rfl⟩)
  rcases reason_cases h h0 with ⟨e', -⟩ | ⟨m, hm, e', -⟩ | ⟨m, hm, e', -⟩ | ⟨m, hm, e'⟩ | ⟨i, hi, e'⟩ | ⟨e', -⟩ |
    ⟨k, -, e', -⟩
  all_goals omega

end
end

/-- An image that fails no check meets the rows of the station, the lines, the actions and the ranges. -/
theorem checks_of_reason_zero {b : List Byte} (h : firstFailure (valueChecks b) = 0) : stationOk b = true ∧
    (∀ l < 8, timingOk (lineRecord b l) (settingsAt b l) = true ∧ ((settingsAt b l).mode ≠ .unused →
      lineOk (mapCount b) (lineRecord b l) (settingsAt b l) = true ∧
        supervisionOk (lineRecord b l) (settingsAt b l) = true)) ∧
    actionsOk b = true ∧ ∀ k < rangeCount b, rangeOk (rangeBytes b k) = true := by
  have leading {c : Nat × Bool} (hc : c ∈ leadingChecks b) : c.2 = true :=
    all_of_firstFailure_eq_zero h (by rw [valueChecks_eq]; exact List.mem_append_left _ hc)
  have used {l : Nat} {ok : Bool} (hu : (settingsAt b l).mode ≠ .unused)
      (hok : (!!((settingsAt b l).mode == .unused) || ok) = true) : ok = true := by
    have no : ((settingsAt b l).mode == .unused) = false := beq_eq_false_iff_ne.mpr hu
    rw [no] at hok
    exact hok
  refine ⟨leading (c := (79, stationOk b)) (by simp [leadingChecks]), fun l hl => ⟨?_, fun hu => ⟨?_, ?_⟩⟩,
    leading mem_leadingChecks_actions, fun k hk => ?_⟩
  · exact leading (mem_leadingChecks_of_line hl (List.mem_cons_self))
  · exact used hu (leading (mem_leadingChecks_of_line hl (List.mem_cons_of_mem _ List.mem_cons_self)))
  · exact used hu (leading (mem_leadingChecks_of_line hl (List.mem_cons_of_mem _ (List.mem_cons_of_mem _
      (List.mem_cons_of_mem _ (List.mem_cons_of_mem _ List.mem_cons_self))))))
  · refine all_of_firstFailure_eq_zero (c := (207, rangeOk (rangeBytes b k))) h ?_
    rw [valueChecks_eq]
    exact List.mem_append_right _ (List.mem_map.mpr ⟨k, List.mem_range.mpr hk, rfl⟩)

/-! ### The image as a whole (R210, R212, R213) -/

section
variable {image : List Byte} {n : Nat} (hn : imageLength image = n)
include hn

theorem imageReason_of_length (h : n < 1054 ∨ 1682 < n) : imageReason image = 31 := by
  rw [imageReason, hn]
  exact if_pos h

theorem imageReason_eq (h : ¬(n < 1054 ∨ 1682 < n)) : imageReason image =
    if lengthOk (readImage image n) n then
      if imageSum (readImage image n) = wordAt (readImage image n) 2 then firstFailure (valueChecks (readImage image n))
      else 63
    else 47 := by
  rw [imageReason, hn]
  exact if_neg h

end

/-- The station after the image is read: in service, or in CONFIG-FAULT with its reason. -/
theorem readComplete_facts {s : Part} (image : List Byte) (h : s.loader = .reading) :
    (s.readComplete image).faultReason = imageReason image ∧
      ((s.readComplete image).loader = .configFault ↔ imageReason image ≠ 0) ∧
      ((s.readComplete image).loader = .running ↔ imageReason image = 0) := by
  by_cases hg : imageReason image = 0
  · rw [readComplete_of_good h hg, enterService_eq, hg]
    exact ⟨rfl, ⟨fun e => (nomatch e), fun e => absurd rfl e⟩, ⟨fun _ => rfl, fun _ => rfl⟩⟩
  · rw [readComplete_of_bad h hg, enterConfigFault_eq]
    exact ⟨rfl, ⟨fun _ => hg, fun _ => rfl⟩, ⟨fun e => (nomatch e), fun e => absurd e hg⟩⟩

/-- Settles O10. -/
theorem imageCheckedAsAWhole : Obligations.ImageCheckedAsAWhole := by
  unfold Obligations.ImageCheckedAsAWhole
  intro image s hl b n fits sum
  obtain ⟨hreason, hfault, hrun⟩ := readComplete_facts image hl
  have hn : imageLength image = n := rfl
  obtain ⟨B, hB⟩ : ∃ B, B = readImage image n := ⟨_, rfl⟩
  have len : B.length = n := by rw [hB]; exact length_readImage image n
  have at_ (k : Nat) (hk : k < n) : byteAt B k = b k := by rw [hB]; exact byteAt_readImage hk
  have whole (h1 : 1054 ≤ n) (h2 : n ≤ 1682) : imageReason image = if lengthOk B n then
      (if imageSum B = wordAt B 2 then firstFailure (valueChecks B) else 63) else 47 := by
    rw [imageReason_eq hn (by omega), hB]
  have fits_iff (h1 : 1054 ≤ n) : lengthOk B n = true ↔ fits := by
    have maps : mapCount B = b 5 := at_ 5 (by omega)
    have ranges : rangeCount B = b 6 := at_ 6 (by omega)
    simp only [lengthOk, maps, ranges, Bool.and_eq_true, decide_eq_true_eq, beq_iff_eq, and_assoc]
    exact Iff.rfl
  have sum_eq (h1 : 1054 ≤ n) : imageSum B = sum := by
    rw [imageSum_eq (by omega), len]
    refine congrArg (fun xs : List Nat => xs.sum % 65536) (List.map_congr_left fun k hk => ?_)
    rw [at_ k (List.mem_range.mp hk)]
  have word (h1 : 1054 ≤ n) : wordAt B 2 = b 2 * 256 + b 3 := by
    rw [wordAt, at_ 2 (by omega), at_ 3 (by omega)]
  refine ⟨s.toPart.readComplete image, exec_configReadComplete image s, fun h => ?_, fun h1 h2 hfit => ?_,
    fun h1 h2 hfit hsum => ?_, fun h1 h2 hfit hsum => ?_, ?_, ?_⟩
  all_goals rw [hreason]
  · exact imageReason_of_length hn h
  · rw [whole h1 h2, if_neg (mt (fits_iff h1).mp hfit)]
  · rw [whole h1 h2, if_pos ((fits_iff h1).mpr hfit), sum_eq h1, word h1, if_neg hsum]
  · have reason : imageReason image = firstFailure (valueChecks B) := by
      rw [whole h1 h2, if_pos ((fits_iff h1).mpr hfit), sum_eq h1, word h1, if_pos hsum]
    obtain ⟨hm1, hm2, hr, hlen⟩ := hfit
    refine ⟨reason.trans (by rw [hB]), ?_⟩
    have maps : mapCount B = b 5 := at_ 5 (by omega)
    have ranges : rangeCount B = b 6 := at_ 6 (by omega)
    obtain ⟨F, hF⟩ : ∃ F, firstFailure (valueChecks B) = F := ⟨_, rfl⟩
    rw [reason, hF]
    intro station field' u timing line supervision action range
    have fields (l k : Nat) (h8 : l < 8) (h90 : k < 90) : field B l k = field' l k := at_ _ (by omega)
    have stationOk_eq : stationOk B = true ↔ station := by
      rw [stationOk_iff, at_ 4 (by omega), at_ 7 (by omega)]
    have timing_iff (l : Nat) (hl : l < 8) : timingOk (lineRecord B l) (settingsAt B l) = true ↔ timing l := by
      rw [settingsAt, timingOk_iff, fields l 0 hl (by decide), fields l 1 hl (by decide), fields l 2 hl (by decide),
        fields l 3 hl (by decide)]
    have line_iff (l : Nat) (hl : l < 8) : lineOk (mapCount B) (lineRecord B l) (settingsAt B l) = true ↔ line l := by
      rw [settingsAt, lineOk_iff, maps, fields l 4 hl (by decide), fields l 7 hl (by decide), fields l 8 hl (by decide),
        fields l 9 hl (by decide), fields l 10 hl (by decide), fields l 12 hl (by decide), fields l 79 hl (by decide),
        fields l 81 hl (by decide)]
    have actions_iff : actionsOk B = true ↔ ∀ k < 128, action k := by
      rw [actionsOk, admissionOk_iff (by rw [maps, len]; omega), maps]
      exact forall₂_congr fun k hk => by rw [at_ _ (by omega)]
    have range_iff (k : Nat) (hk : k < b 6) : rangeOk (rangeBytes B k) = true ↔ range k := by
      have row := rangeOk_iff (b := B) k
      dsimp only at row
      rw [row, maps, at_ _ (by omega), at_ _ (by omega), at_ _ (by omega), at_ _ (by omega), at_ _ (by omega)]
    refine ⟨?_, fun l h8 e => ?_, fun l h8 e => ⟨fun h0 => ?_, ?_⟩, fun ⟨k, hk, h⟩ => ?_, fun e => ?_, fun ⟨k, hk, h⟩ => ?_,
      fun e => ?_, fun e => ?_⟩
    · rw [reason_79_iff hF, ← Bool.not_eq_true, stationOk_eq]
    · rw [← timing_iff l h8, Bool.not_eq_true]
      exact timing_of_reason hF h8 e
    · have row := line_of_reason hF h8 e
      have unused : (settingsAt B l).mode = .unused := unused_of_field ((fields l 0 h8 (by decide)).trans h0)
      rw [unused] at row
      cases row
    · rw [← line_iff l h8, Bool.not_eq_true]
      exact (Bool.or_eq_false_iff.mp (line_of_reason hF h8 e)).2
    · refine reason_of_actions hF (by omega) ?_
      rw [← Bool.not_eq_true, actions_iff]
      exact fun hall => h (hall k hk)
    · have failed := actions_of_reason hF (by omega) e
      rw [← Bool.not_eq_true, actions_iff] at failed
      by_contra hn
      exact failed fun k hk => by_contra fun h => hn ⟨k, hk, h⟩
    · refine reason_of_range hF (by omega) (by rw [ranges]; exact hk) ?_
      rw [← Bool.not_eq_true, range_iff k hk]
      exact h
    · obtain ⟨k, hk, failed⟩ := range_of_reason hF (by omega) e
      rw [ranges] at hk
      rw [← Bool.not_eq_true, range_iff k hk] at failed
      exact ⟨k, hk, failed⟩
    · obtain ⟨c1, c2, c3, c4⟩ := checks_of_reason_zero (hF.trans e)
      refine ⟨stationOk_eq.mp c1, fun l h8 => ?_, actions_iff.mp c3, fun k hk => (range_iff k hk).mp (c4 k (by rw [ranges]; exact hk))⟩
      obtain ⟨t1, t2⟩ := c2 l h8
      have ht := (timing_iff l h8).mp t1
      refine ⟨ht, fun h0 => ?_⟩
      have zero := fields l 0 h8 (by decide)
      obtain ⟨l1, l2⟩ := t2 (used_of_field (by rw [zero]; exact ht.1) (by rw [zero]; exact h0))
      have bytes := supervisionOk_bytes l2
      rw [fields l 83 h8 (by decide), fields l 84 h8 (by decide), fields l 85 h8 (by decide)] at bytes
      exact ⟨(line_iff l h8).mp l1, bytes⟩
  · exact hfault
  · exact hrun

end Sys2Proof.Machine
end
